-- ==== Sys2Proof/Word.lean ====
section
/-! DEFINITION. The word types of the block (R5: multi-byte values are little-endian bytes; Table 0.2: registers of 32 bits). -/

namespace Sys2Proof

/-- One byte of a message, a beat or host memory. -/
abbrev Byte := BitVec 8

/-- A 32-bit register or message word. -/
abbrev Word := BitVec 32

/-- A byte string, lowest offset first (R5). -/
abbrev Bytes := List Byte

/-- The bit pattern of a binary32 value (Table 2.1). -/
abbrev F32 := BitVec 32

/-- The SK32 sort key of a score, as the unsigned integer it is compared as (R38). -/
abbrev Key := BitVec 32

/-- An XS96 integer X, two's complement (R40); its reference exponent stands beside it. -/
abbrev Xs96 := BitVec 96

end Sys2Proof
end

