-- ==== Sys2Proof/Syntax.lean ====
section
/-! DEFINITION. The commands of the block: one constructor of `Instr` per row of spec/opcode_table.json,
with the operand types they carry (messages of Tables 9.3 to 9.4, 18.1 to 18.10, 20.2, 21.9, port beats, CSR values). -/

namespace Sys2Proof

/-! ## Eocia commands (Tables 15.6 to 15.9) -/

/-- The opcodes of Eocia interface version 3 (R318). -/
inductive Op where
  | info | pipProbe | partBacking | headLoad | headUnload | overlayLoad | mobjLoad | mobjDelete
  | biasLoad | biasDelete | rangeLoad | sliceDrain | sliceRejoin | fwStage
  | reqAdmit | reqAdmitAcorn | reqSettings | reqCancel | reqPause | reqResume | reqEvict
  | huskResume | reqMove | reqQuery
  | tenantBind | tenantCredit | tenantDrain | tenantReserve | tenantUnbind | tenantQuery
  | acornMake | acornTake | acornDrop | variantReg | variantDrop
  | trainOpen | trainForward | trainBackward | trainNorm | trainUpdate | trainClose
  | maskPrune | maskGrow | maskBarrier | maskDiscard | maskStatus
  deriving DecidableEq, Repr

/-- Where a command entered: the mailbox of its partition on this slice, the command queue of its
partition on this slice (with its NOIRQ bit, Table 15.3), or another slice (R381). -/
inductive Origin where
  | mailbox
  | queue (noirq : Bool)
  | fwd (slice : Nat) (ref : Word) (queue : Bool)
  deriving DecidableEq, Repr

/-- An Eocia command as its target takes it up: partition, door, tag and the 14 argument words (R306, R309). -/
structure Cmd where
  part : Nat
  origin : Origin
  tag : BitVec 16
  args : List Word
  deriving DecidableEq, Repr

/-! ## Port operands -/

/-- The two HIP classes (R348); their codes are those of Table 17.8. -/
inductive HipClass where
  | bulk | latency
  deriving DecidableEq, Repr

/-- One HIP beat: FIRST, LAST and 64 data bytes (Table 17.1). -/
structure HipBeat where
  first : Bool
  last : Bool
  data : Bytes
  deriving DecidableEq, Repr

/-- The two HMP read channels (R353). -/
inductive RdCh where
  | rda | rdb
  deriving DecidableEq, Repr

/-- The HMP response codes of Table 17.5. -/
inductive Resp where
  | ok | slverr | poison | window
  deriving DecidableEq, Repr

/-- The two GBP channels (R355). -/
inductive GbpCh where
  | a | b
  deriving DecidableEq, Repr

/-! ## Step tick messages (R378) -/

/-- TICK: step number, period in microseconds, tick master. -/
structure TickMsg where
  step : Nat
  period : Nat
  master : Nat
  deriving DecidableEq, Repr

/-- COMMIT: step number, tick master. -/
structure CommitMsg where
  step : Nat
  master : Nat
  deriving DecidableEq, Repr

/-! ## Mortar records (Tables 9.3, 9.4, 18.6 to 18.9) -/

/-- What a Mortar record names: request id and row, or training token number. -/
structure RowKey where
  id : Nat
  row : Nat
  train : Bool
  deriving DecidableEq, Repr

/-- MA_SUM (Table 9.3); LEN is the length of `counts`. -/
structure MaSum where
  key : RowKey
  step16 : Nat
  empty : Bool
  masses : Bool
  trunc : Bool
  tmis : Bool
  -- the FAILED mark of its message header (Table 18.2, R194)
  failed : Bool
  ref : Int
  kmax : Key
  tdv : Bool
  tdig : BitVec 16
  tail : Nat
  tailMhi : F32
  counts : List Nat
  mhi : List F32
  mlo : List F32
  deriving DecidableEq, Repr

/-- MA_CUT (Table 18.6). -/
structure MaCut where
  key : RowKey
  step16 : Nat
  refG : Int
  kmax : Key
  jc : Nat
  kNeed : Nat
  n : Nat
  tmis : Bool
  deriving DecidableEq, Repr

/-- One entry of a shell (R111, R187). -/
structure ShellEntry where
  key : Key
  index : Nat
  src : Nat
  deriving DecidableEq, Repr

/-- MB_SHELL (Table 9.4), with the FAILED mark of its message header (R194). -/
structure MbShell where
  key : RowKey
  step16 : Nat
  refG : Int
  nacc : Xs96
  entries : List ShellEntry
  failed : Bool
  deriving DecidableEq, Repr

/-- MB_EDGE (Table 18.7). -/
structure MbEdge where
  key : RowKey
  step16 : Nat
  refG : Int
  n : Nat
  decided : Bool
  lastKey : Key
  lastIndex : Nat
  z : Xs96
  deriving DecidableEq, Repr

/-- MD_DRAW (Table 18.8); `y` in units of 2^-24 (R193). -/
structure MdDraw where
  key : RowKey
  step16 : Nat
  valid : Bool
  y : Int
  index : Nat
  deriving DecidableEq, Repr

/-- TR_SUM (Table 18.9); `norm` is its KIND bit. -/
structure TrSum where
  norm : Bool
  seq : Word
  counted : Nat
  infCount : Nat
  ignored : Nat
  sum : Xs96
  sumsq : F32
  sat : Nat
  deriving DecidableEq, Repr

/-- RS_BEGIN (R380). -/
structure RsBegin where
  seq : Word
  second : Bool
  firstToken : Nat
  elements : Nat
  deriving DecidableEq, Repr

/-- The element form of a raw reduce-scatter flit (Table 18.1, FORM). -/
inductive RsForm where
  | fast | strict80 | strict96
  deriving DecidableEq, Repr

/-! ## State messages -/

/-- A chunk record of Table 12.4: chunk number and (lane, count) pairs in ascending lane. -/
structure ChunkRec where
  chunk : Nat
  counts : List (Nat × Nat)
  deriving DecidableEq, Repr

/-- KIND of a HUSK_DELTA entry (Table 20.2). -/
inductive DeltaKind where
  | line | home | command | fetch
  deriving DecidableEq, Repr

/-- One entry of a HUSK_DELTA (Table 20.2); `data` holds 64 bytes. -/
structure DeltaEntry where
  req : Nat
  part : Nat
  kind : DeltaKind
  slot : Nat
  data : Bytes
  deriving DecidableEq, Repr

/-- HUSK_DELTA (Table 20.2) from slice `src`, without its ACK form, which is HUSK_DELTA_ACK's row. -/
structure HuskDelta where
  src : Nat
  step : Nat
  last : Bool
  entries : List DeltaEntry
  deriving DecidableEq, Repr

/-- HELLO (Table 18.10). -/
structure Hello where
  protoMin : Nat
  protoMax : Nat
  slice : Nat
  groupSz : Nat
  port : Nat
  lastForm : Nat
  iface : Nat
  epochs : BitVec 3
  features : BitVec 6
  crTick : Nat
  crMerge : Nat
  crMgmt : Nat
  crBulk : Nat
  deriving DecidableEq, Repr

/-- The fields of a FORM message that every phase carries (Table 21.9). -/
structure FormBody where
  slice : Nat
  groupSz : Nat
  x : Nat
  y : Nat
  iface : Nat
  epochs : BitVec 3
  features : BitVec 6
  ready : Bool
  lastForm : Nat
  lastStep : Nat
  deriving DecidableEq, Repr

/-- REASON of a REFUSE (Table 21.9). -/
inductive FormReason where
  | duplicate | size | miswire | version | rootKey | missing
  deriving DecidableEq, Repr

/-- A partition key set as it travels: KEY_ID and the three keys wrapped under K_WRAP (R399, Table 21.9). -/
structure WrappedKeys where
  part : Nat
  keyId : Word
  keys : List Bytes
  deriving DecidableEq, Repr

/-- FWD_CMD (R381). -/
structure FwdCmd where
  part : Nat
  queue : Bool
  origin : Nat
  opcode : BitVec 16
  tag : BitVec 16
  ref : Word
  args : List Word
  deriving DecidableEq, Repr

/-- FWD_RESULT (R381). -/
structure FwdResult where
  ref : Word
  status : BitVec 16
  tag : BitVec 16
  words : List Word
  deriving DecidableEq, Repr

/-- Sampler settings of Table 7.1 (REQ_SETTINGS, R323; bytes 0 to 27 of Table 7.2 less the fields that never change). -/
structure Settings where
  temp : F32
  topk : Nat
  logpMode : Bool
  maskId : Nat
  biasId : Nat
  topp : F32
  minp : F32
  rep : F32
  freq : F32
  pres : F32
  deriving DecidableEq, Repr

/-- What every slice's copy of the request table and request line holds of an admitted request
(R220, R223, Table 7.2, Table 11.3). -/
structure ReqInfo where
  part : Nat
  scoreMode : Bool
  -- GEN_SEL of the admission, 0 for AUTO; the class and the epoch stand once the admission is complete (R173, R225), an epoch of 0 until then
  genSel : Nat
  genT : Bool
  epoch : Nat
  tenant : Nat
  seed : BitVec 64
  stream : Word
  outLimit : Nat
  stop : List Nat
  ladleBase : Nat
  ladleOrder : Nat
  tag : BitVec 16
  admitStep : Nat
  settings : Settings
  deriving DecidableEq, Repr

/-- A step's outcome for one request, as its home slice fixes it at the commit stamp (R58, R148, R162). -/
structure ReqOutcome where
  req : Nat
  step : Nat
  state : Nat
  tokens : List Nat
  kmax : Key
  kcut : Key
  predict : Bool
  -- the step that stays outstanding for the request (R60)
  heldStep : Option Nat
  -- settings in force from the next step, when they change, and whether one of the changes resets the predictor (R148)
  settings : Option Settings
  cold : Bool
  -- numerics epoch and generator class that the completion of an admission fixes (R51, R173, R225)
  fixed : Option (Nat × Bool)
  -- the Ladle records of the step, first its number (R231, R423)
  firstSeq : Nat
  records : List Bytes
  deriving DecidableEq, Repr

/-- A change of a tenant record that belongs to a step (Table 12.2). -/
inductive TenantChange where
  | bind (part reserve : Nat)
  | credit (amount : Nat)
  | drain (amount : Nat)
  | reserve (n : Nat)
  | unbind
  deriving DecidableEq, Repr

/-- The identity of a loaded head share (R320, R421). -/
structure HeadId where
  headId : BitVec 64
  blocks : Nat
  format : Nat
  struct : Nat
  addr : Nat
  len : Nat
  deriving DecidableEq, Repr

/-- The fields of a training session descriptor (Table 13.1). -/
structure SessionDesc where
  epoch : Nat
  strict : Bool
  rs : Bool
  genSel : Nat
  sgd : Bool
  init : Bool
  dropQ : Nat
  lossScale : F32
  seed : BitVec 64
  stream : Word
  stateBase : Nat
  gaccBase : Nat
  spillBase : Nat
  spillPart : Nat
  deriving DecidableEq, Repr

/-- The fields of a micro-batch descriptor (Table 13.2). -/
structure MicroDesc where
  seq : Word
  tokens : Nat
  targetAddr : Nat
  lossAddr : Nat
  deriving DecidableEq, Repr

/-- The arguments of TRAIN_UPDATE (R280); `b1` is MU for SGD. -/
structure UpdateArgs where
  gscale : F32
  lr : F32
  wd : F32
  b1 : F32
  b2 : F32
  bc1 : F32
  bc2 : F32
  eps : F32
  deriving DecidableEq, Repr

/-- What a slice or the session holder tells of training and mask work (R69, R268, R271, R282, R292, R296): readiness of a slice,
a forward that could not start, and what commits at a stamp. -/
inductive SlotKind where
  | fill | opened | forwardBad | forwardBusy | discard | forwardCommit | backward | backwardCommit | normCommit
  | normBusy | update | updateCommit | updateBusy | updateDrop | backwardBusy | backwardDrop | pruneBusy | pruneBad | prune | growBusy | growBad | growDrop
  | build | buildBusy | buildBad | barrierCommit | barrierDrop | hostImage
  deriving DecidableEq, Repr

/-- One entry of a range table: first chunk and chunk count (R322). -/
structure RangeEntry where
  first : Nat
  count : Nat
  deriving DecidableEq, Repr

/-- What the tick master tells a slice that joins as an idle member (R430; the spec gives no message for it). -/
structure JoinInfo where
  formId : Nat
  size : Nat
  x : Nat
  y : Nat
  master : Nat
  holes : List Nat
  idle : List Nat
  vocab : Nat
  ranges : List RangeEntry
  second : List (Nat × RangeEntry)
  step : Nat
  -- interface version, EPOCHS and FEATURES of every member (R52, R317)
  peers : List (Nat × Nat × BitVec 3 × BitVec 6)
  deriving DecidableEq, Repr

/-- What a STATE_SYNC message announces (Table 18.4: "Changes that a holder applies in PUBLISH"; R107, R151, R220,
R244, R320, R395, R399). The spec gives no layout for its body: the items are typed. -/
inductive Sync where
  | outcome (o : ReqOutcome)
  | admitted (req : Nat) (info : ReqInfo) (countsAddr countsN : Nat) (acorn : Option Word) (jars : List ChunkRec)
      (husk : Bool) (draws windowLen outLeft : Nat) (hasToken : Bool) (ttft : Nat)
  | loadReport (req : Nat) (status : BitVec 16)
  | rowReport (req step : Nat) (trees : List Bytes)
  | rowLost (req step : Nat)
  | rowFreed (req step : Nat)
  | home (req slice : Nat)
  | homeState (req : Nat) (data : Bytes)
  | tenant (tenant : Nat) (c : TenantChange)
  | maskLoad (part id addr : Nat)
  | maskDelete (part id : Nat)
  | biasLoad (part id addr n : Nat)
  | biasDelete (part id : Nat)
  | objReport (part id : Nat) (bias : Bool) (status : BitVec 16)
  | objApplied (part id : Nat) (bias : Bool)
  | acornMake (part : Nat) (handle : Word) (addr n : Nat)
  | acornReport (part : Nat) (handle : Word) (status : BitVec 16) (entries : Nat)
  | acornSettled (part : Nat) (handle : Word) (status : BitVec 16) (shares : List (Nat × Nat))
  | acornUse (part : Nat) (handle : Word) (req : Nat) (on : Bool)
  | acornTake (part : Nat) (handle : Word) (req : Nat)
  | acornDrop (part : Nat) (handle : Word)
  | variantReg (part n : Nat)
  | variantDrop (part n : Nat)
  | head (part : Nat) (h : HeadId)
  | headUnload (part : Nat)
  | backing (part first count lmax : Nat)
  | kill (part : Nat)
  | keys (k : WrappedKeys)
  | rangeStored
  | trainOpen (part : Nat) (d : SessionDesc)
  | trainForward (d : MicroDesc)
  | trainBackward (seq : Word) (grow : Bool)
  | trainNorm (addr : Nat)
  | trainUpdate (u : UpdateArgs)
  | trainClose
  | slotReady (kind : SlotKind) (seq : Word)
  | maskPrune (tile slice : Bool) (k : Nat)
  | maskBarrier (const : Bool) (c : F32)
  | maskDiscard
  | evict (req : Nat)
  | cancelMark (req : Nat)
  | coldPred (req : Nat)
  | drain (slice : Nat)
  | rejoin (slice : Nat)
  | released (req : Nat)
  | overlay (part variant addr len : Nat)
  | joining (slice iface : Nat) (epochs : BitVec 3) (features : BitVec 6)
  | join (j : JoinInfo)
  | copyReq (req home state prior : Nat) (info : ReqInfo) (outLeft : Nat) (hasToken : Bool) (heldStep : Option Nat) (line : Bytes)
  | copyTenant (tenant part : Nat) (bound : Bool) (reserve balance credited drained debited : Nat)
  | copyVariant (part num start : Nat) (until_ : Option Nat)
  | copyObj (bias : Bool) (part id addr n : Nat)
  | copyAcorn (part : Nat) (handle : Word) (entries : Nat)
  | copySession (part : Nat) (d : SessionDesc) (genT : Bool) (sessionNo : Nat) (parts : List (Nat × Nat)) (seqs : List Word)
      (backwards updates : Nat) (barriered normDone : Bool)
  | tileLost (seq : Word) (tile : Nat)
  | stepEnd
  deriving DecidableEq, Repr

/-- STATE_SYNC: originating slice, the step that the change belongs to, the change. -/
structure SyncMsg where
  src : Nat
  step : Nat
  item : Sync
  deriving DecidableEq, Repr

/-- A REGROUP message (R422 to R424, Table 20.4). The spec gives no layout for its body: the items are typed. -/
inductive RegroupMsg where
  | start (hole formId : Nat)
  | applied (o : ReqOutcome)
  | reported (slice step : Nat)
  | void (req step : Nat)
  | takeover
  | lostLine (req : Nat)
  | kept (ref : Word) (slice : Nat)
  | failAll
  deriving DecidableEq, Repr

/-- What a pan's pass held: pan, strips by FIRST, rows, and whether the check chain disagreed (R79, R411). -/
structure PassInfo where
  pan : Nat
  strips : List Nat
  rows : List RowKey
  mismatch : Bool
  deriving DecidableEq, Repr

/-- A slice's contribution to one pass of a large selection of GROUP scope: the 256 buckets as
(count, lowest key, highest key), and the counts of the boundary key per chunk (R138 to R141). -/
structure SelMerge where
  hist : List (Nat × Key × Key)
  unitCount : Nat
  ties : List (Nat × Nat)
  deriving DecidableEq, Repr

/-- A strip of a head: its partition, variant (0 for a base strip) and FIRST (R76, R85). -/
structure StripId where
  part : Nat
  variant : Nat
  first : Nat
  deriving DecidableEq, Repr

/-- Where an ECC error was read (Table 5.6). -/
inductive EccWhere where
  | stripRamekin (id : StripId) (pan : Nat)
  | stripStockpot (id : StripId)
  | cacheLine (req : Nat) (jarLine : Nat) (dirty : Bool)
  | backingSlot (req slot : Nat)
  | shell (key : RowKey)
  -- a held row, with the step that it is held for
  | heldRow (part : Nat) (key : RowKey) (step : Nat)
  | savedTile (seq : Word) (tile : Nat)
  -- a block of 4,096 token records of a micro-batch (R272)
  | record (seq : Word) (block : Nat)
  | retired (part first : Nat)
  | control (req : Option Nat)
  | freeBlock
  deriving DecidableEq, Repr

/-- What a read of a line found (R94, R114); for an uncorrectable error, which of the line's eight 8-byte words it hit, and which of them
a write to the line in the same merge window covers (R116). -/
inductive EccKind where
  | none | correctable | uncorrectable (bad written : BitVec 8)
  deriving DecidableEq, Repr

/-- A Pip parity error in the step, of an engine's state or of the Pip-T table (R179). -/
inductive PipFault where
  | none | engine | table
  deriving DecidableEq, Repr

/-- What happens, and the Pip parity error of the step that meets it: one can show at any event whose work forms Pip words (R179). -/
structure WithParity (α : Type) where
  val : α
  parity : PipFault
  deriving DecidableEq, Repr

/-! ## The commands -/

/-- One constructor per row of spec/opcode_table.json. -/
inductive Instr where
  -- Table 15.6: system, load and management commands
  | info (c : Cmd)
  | pipProbe (c : WithParity Cmd)
  | partBacking (c : Cmd)
  | headLoad (c : Cmd)
  | headUnload (c : Cmd)
  | overlayLoad (c : Cmd)
  | mobjLoad (c : Cmd)
  | mobjDelete (c : Cmd)
  | biasLoad (c : Cmd)
  | biasDelete (c : Cmd)
  | rangeLoad (c : Cmd)
  | sliceDrain (c : Cmd)
  | sliceRejoin (c : Cmd)
  | fwStage (c : Cmd)
  -- Table 15.7: request commands
  | reqAdmit (c : Cmd)
  | reqAdmitAcorn (c : Cmd)
  | reqSettings (c : Cmd)
  | reqCancel (c : Cmd)
  | reqPause (c : Cmd)
  | reqResume (c : Cmd)
  | reqEvict (c : Cmd)
  | huskResume (c : Cmd)
  | reqMove (c : Cmd)
  | reqQuery (c : Cmd)
  -- Table 15.8: tenant, Acorn and variant commands
  | tenantBind (c : Cmd)
  | tenantCredit (c : Cmd)
  | tenantDrain (c : Cmd)
  | tenantReserve (c : Cmd)
  | tenantUnbind (c : Cmd)
  | tenantQuery (c : Cmd)
  | acornMake (c : Cmd)
  | acornTake (c : Cmd)
  | acornDrop (c : Cmd)
  | variantReg (c : Cmd)
  | variantDrop (c : Cmd)
  -- Table 15.9: training and mask commands
  | trainOpen (c : Cmd)
  | trainForward (c : Cmd)
  | trainBackward (c : Cmd)
  | trainNorm (c : Cmd)
  | trainUpdate (c : Cmd)
  | trainClose (c : Cmd)
  | maskPrune (c : Cmd)
  | maskGrow (c : Cmd)
  | maskBarrier (c : Cmd)
  | maskDiscard (c : Cmd)
  | maskStatus (c : Cmd)
  -- mailbox and queue registers (Table 15.2)
  | mbxDoorbell (src : BitVec 4) (part : Nat) (v : Word)
  | mbxAck (src : BitVec 4) (part : Nat) (v : Word)
  | mbxIrqStatus (src : BitVec 4) (part : Nat) (v : Word)
  | mbxIrqEn (src : BitVec 4) (part : Nat) (v : Word)
  | cqCfg (src : BitVec 4) (part : Nat) (v : Word)
  | cqTail (src : BitVec 4) (part : Nat) (v : Word)
  | ccCons (src : BitVec 4) (part : Nat) (v : Word)
  | cqFetch (part : Nat)
  -- banks 0, 1 and 14 (Tables 16.3, 16.5, 16.8)
  | stepPeriod (src : BitVec 4) (v : Word)
  | thawMaster (src : BitVec 4) (v : Word)
  | glbIrqStatus (src : BitVec 4) (v : Word)
  | glbIrqEn (src : BitVec 4) (v : Word)
  | placeCtl (src : BitVec 4) (v : Word)
  | stcCfg (src : BitVec 4) (v : Word)
  | stkQuota (src : BitVec 4) (part : Nat) (v : Word)
  | aclkCeil (src : BitVec 4) (v : Word)
  | mgmtParts (src : BitVec 4) (v : Word)
  | partKill (src : BitVec 4) (v : Word)
  | logBaseHi (src : BitVec 4) (v : Word)
  | logCfg (src : BitVec 4) (v : Word)
  | regWrite (src : BitVec 4) (offset : BitVec 16) (v : Word)
  -- bank 15 (Table 16.9)
  | dbgCtrl (src : BitVec 4) (v : Word)
  | dbgStep (src : BitVec 4) (v : Word)
  | dbgBp (src : BitVec 4) (n : Nat) (v : Word)
  | dbgMemAddr (src : BitVec 4) (v : Word)
  | dbgMemData (src : BitVec 4) (write : Bool) (v : Word)
  | breakpointHit (n : Nat)
  -- the TAP (R466, R467, R405, R403)
  | tapReset
  | tapIdcode
  | tapDbgReg (write : Bool) (offset : BitVec 12) (v : Word)
  | tapUnlockCapture
  | tapUnlockUpdate (key sig : Bytes)
  | unlockDone
  | unlockHoldoffExpiry
  | tapFuse (word : Nat) (value : BitVec 384) (vddFuse : Bool)
  -- the ports (17_host_ports.md)
  | hipRow (cls : HipClass) (beats : WithParity (List HipBeat))
  | hmpReadData (ch : RdCh) (tag : Nat) (resp : Resp) (beats : List Bytes)
  | hmpWriteResponse (tag : Nat) (resp : Resp)
  | hmpRetry (tag : Nat)
  | gbpCredit (ch : GbpCh)
  | gbpAck (ch : GbpCh)
  | gbpSend (ch : GbpCh)
  | evtCredit
  | eventSend
  | alarmSend
  -- the step tick (03_step_tick.md)
  | tickEmit
  | slipSilenceExpiry
  | tick (m : TickMsg)
  | ingestDeadline
  | sieveDeadline
  | mergeADeadline
  | mergeBDeadline
  | drawDeadline
  | commitEmit
  | commit (m : CommitMsg)
  | commitAck (step slice : Nat)
  | commitAckResend
  | lateLimit (req : Nat)
  | ringStallLimit (req : Nat)
  -- scoring and merge
  | passDone (p : PassInfo)
  | rowSieved (key : WithParity RowKey)
  | maSum (src : Nat) (r : WithParity MaSum)
  | maCut (r : MaCut) (parity : PipFault)
  | mbShell (src : Nat) (r : WithParity MbShell)
  | mbEdge (r : MbEdge) (parity : PipFault)
  | mdDraw (src : Nat) (r : MdDraw)
  | trSum (src : Nat) (r : TrSum)
  | rsBegin (port : Nat) (r : RsBegin)
  | rsFlit (port : Nat) (form : RsForm) (body : Bytes)
  -- group messages
  | jarShare (src req : Nat) (records : List ChunkRec)
  | huskDelta (d : HuskDelta)
  | huskDeltaAck (src step : Nat)
  | hello (port : Nat) (h : Hello)
  | heartbeat (slice step : Nat)
  | heartbeatSend
  | sliceLost (slice : Nat)
  | fwdCmd (f : FwdCmd)
  | fwdResult (r : FwdResult)
  | stateSync (m : SyncMsg)
  | partScrubDone (slice part : Nat)
  | range (v : Nat) (table : List RangeEntry)
  | formPropose (b : FormBody)
  | formCommit (formId : Nat)
  | formRefuse (slice : Nat) (reason : FormReason)
  | formKeys (k : WrappedKeys)
  | formDone (slice : Nat)
  | proposeRetry
  | formWait
  | regroup (m : RegroupMsg)
  | takeoverDone
  | expel (slice : Nat)
  -- the link (18_broddel_link.md)
  | linkFlit (port lane : Nat) (flit : Bytes) (fecOk : Bool)
  | replayTimeout (port : Nat)
  | laneFail (port lane : Nat)
  | laneSilence (port lane : Nat)
  | laneLock (port lane : Nat)
  | trainTimeout (port : Nat)
  | retrainTimeout (port : Nat)
  | portRetry (port : Nat)
  | trainingSignal (port : Nat)
  | blMargin (port lane : Nat)
  -- work inside the slice
  | placementCopyDone (id : StripId) (pan : Nat)
  | patrolScrub (loc : EccWhere) (kind : EccKind)
  | largeSelectPass (part : Nat) (others : SelMerge)
  | forwardSlotDone
  -- the slot is named by what it works on: the micro-batch; the partition, session number, update number and state bank (R277, R280)
  | backwardSlotDone (seq : Word)
  | updateSlotDone (part session update bank : Nat)
  -- faults, reset and power
  | watchdogExpiry
  | whiskTrap
  | whiskRestartDone (image : Bytes) (repairs : List DeltaEntry)
  | reset (straps : BitVec 19)
  | bootCheck (image : Bytes)
  | entropyFail
  | pmPwrAck (domain : Nat)
  | pwrAckTimeout (domain : Nat)
  | pmFault (domain : Nat)
  | pmVack (pair : Nat)
  | pmAlertRise
  | pmAlertFall
  | vfLoopEval (pair stretched cycles : Nat) (quiet : Bool)
  | droop (pair : Nat)
  | pwrEstUpdate
  | panIdleOff (pan : Nat)
  | rstNAssert
  | pllLockLoss
  deriving DecidableEq, Repr

end Sys2Proof
end

