-- ==== Sys2Proof/Config.lean ====
section
/-! DEFINITION. What an integrator or the surroundings fix, and the values the spec leaves open: uninterpreted constants.
None has a body, so a claim that mentions one holds for every value of it. -/

namespace Sys2Proof.Config

/-- Byte i of draw n of the DRBG of R398 (SP 800-90A CTR_DRBG; the spec gives no output). Log entry 10. -/
opaque drbgByte : Nat → Nat → Byte

/-- Byte i of the AES-256 counter-mode key stream of AES-256-GCM for a key and a nonce (R401; AES is named, not given). Log entry 11. -/
opaque gcmStream : Bytes → Bytes → Nat → Byte

/-- Byte i of the GCM tag over (key, nonce, additional data, ciphertext). Log entry 11. -/
opaque gcmTag : Bytes → Bytes → Bytes → Bytes → Nat → Byte

/-- AES key wrap of RFC 3394: byte i of the wrapped key under a wrapping key (R399). Log entry 11. -/
opaque wrapByte : Bytes → Bytes → Nat → Byte

/-- AES key unwrap: the key, or none when its integrity check fails (R399, R400). Log entry 11. -/
opaque unwrap : Bytes → Bytes → Option Bytes

/-- Byte i of HKDF-SHA-384 from a key and an info string (R399). Log entry 11. -/
opaque hkdfByte : Bytes → Bytes → Nat → Byte

/-- SHA-384 (R404, R405). Log entry 11. -/
opaque sha384 : Bytes → BitVec 384

/-- ECDSA P-384 verification of (public key, message, signature) (R404, R405). Log entry 11. -/
opaque ecdsaOk : Bytes → Bytes → Bytes → Bool

/-- IDCODE bits [11:1]: the integrator's manufacturer identity (Table 22.9). -/
opaque manufacturer : BitVec 11

/-- PM_PWR_EST at update n: the spec gives no formula for the estimate (R438). Log entry 12. -/
opaque powerEst : Nat → BitVec 16

/-- Word of sequencer and Whisk state behind the debug port that no rule gives (R464, Table 22.7), at read n. Log entry 13. -/
opaque debugWord : Nat → Word

/-- Byte i of a mask object's bitmap over a run that a slice takes over or has returned: the spec does not say where it comes from,
at draw n. Log entry 50. -/
opaque takenMask : Nat → Nat → Byte

/-- Value of index i in a bias list over such a run, none where the list has no entry there, at draw n. Log entry 50. -/
opaque takenBias : Nat → Nat → Option (BitVec 32)

/-- Bytes of a message body to which the spec gives no layout (STATE_SYNC, REGROUP), at draw n; its length modulo 65,536 counts.
Log entry 55. -/
opaque bodyLen : Nat → Nat

/-- Byte i of such a body, at draw n. Log entry 55. -/
opaque bodyByte : Nat → Nat → Byte

/-- Pip words or chunk runs that a slice produces beyond those it uses, at draw n (R167). Log entry 64. -/
opaque earlyPip : Nat → Nat

/-- Line address of an ECC error in ARG of ECC_UE, at draw n: the spec gives the address no layout inside a unit. Log entry 62. -/
opaque eccLine : Nat → BitVec 40

/-- An opcode that interface version 3 added to version 2 (R317; the spec names none). Log entry 134. -/
opaque addedInV3 : BitVec 16 → Bool

/-- Clamps that other slices made for the elements of a hidden-gradient record: RS_FLIT carries no count of them, at draw n (R200). Log
entry 75. -/
opaque otherClamps : Nat → Nat

/-- Image of the retired strip of a strip that a slice takes over, for the layout alone: the spec does not say where the new owner has
that layout from, at draw n (R298, R302). Log entry 147. -/
opaque retiredImage : Nat → Bytes

/-- The set of a state-cache line: a fixed hash of partition, request id and line number that the spec does not give (R106). Log entry 150. -/
opaque cacheSet : Nat → Nat → Nat → Nat

/-- SHA-384 of Chrovetric's development key (R404; the spec does not give it). Log entry 11. -/
opaque devKeyHash : BitVec 384

end Sys2Proof.Config
end

