-- ==== Sys2Proof/Machine/State.lean ====
section
/-! DEFINITION. The state of one slice, as plain data, its value after reset, and the reasons a step can stop.
Each structure names the rules that give it; INVENTORY.md lists every field with its reset value. -/

namespace Sys2Proof.Machine

/-! ## Hardening, reset and registers -/

/-- The hardening kit (Table 0.1): fixed when the block is hardened, never written. -/
structure Kit where
  coarse : Bool
  pans : Nat
  deriving DecidableEq, Repr

/-- Registers of banks 0, 1 and 14 that hold a value of their own (Tables 16.3, 16.5, 16.8). -/
structure Regs where
  sliceOvr : BitVec 6
  sliceOvrEn : Bool
  grpSize : BitVec 7
  grpX : BitVec 7
  grpY : BitVec 7
  grpOvrEn : Bool
  stepPeriod : Nat
  irqStatus : BitVec 5
  irqEn : BitVec 5
  placeHold : Bool
  stcSteps : Nat
  stcInForce : Nat
  aclkCeil : Nat
  quota : List Nat
  frozenPart : BitVec 12
  frozenHip : Bool
  frozenHmp : Bool
  frozenGbp : Bool
  mgmtParts : BitVec 12
  scrub : BitVec 12
  fwRunning : Nat
  fwStaged : Nat
  fwStagedOk : Bool
  fwRestarts : Nat
  keys : BitVec 12
  secFault : Bool
  logBaseLo : Word
  logBase : BitVec 64
  logEn : Bool
  logOrder : BitVec 5
  deriving DecidableEq, Repr

/-- The counters of bank 14 (Table 16.6), each modulo 2^32, or 2^64 for a pair. -/
structure Counters where
  tickSlips : Word
  tickSlipUs : Word
  publishLate : Word
  shellFull : Word
  rescore1 : Word
  rescore2 : Word
  holdMiss : Word
  sampleEmpty : Word
  eccCe : Word
  eccUe : Word
  pipParity : Word
  mergeStale : Word
  mergeDups : Word
  treeReject : Word
  ladleStalls : Word
  budgetThrottles : Word
  tileLost : Word
  pipLRuns : BitVec 64
  pipTWords : BitVec 64
  rowsScored : BitVec 64
  tokensHomed : BitVec 64
  alarmGen : Word
  alarmCoalesced : Word
  logGen : Word
  logLost : Word
  traceGen : Word
  traceDrop : Word
  traceDropS : List Word
  deriving DecidableEq, Repr

/-- STATE of a mailbox (Table 15.2). -/
inductive MbxState where
  | idle | pending | done
  deriving DecidableEq, Repr

/-- One partition's mailbox bank (Table 15.2), with the bases and orders latched at enable (R310). -/
structure Mailbox where
  opcode : BitVec 16
  tag : BitVec 16
  args : List Word
  resStatus : BitVec 16
  resTag : BitVec 16
  st : MbxState
  fwd : Bool
  irqStatus : BitVec 5
  irqEn : BitVec 5
  cqBaseLo : Word
  cqBaseHi : Word
  cqEn : Bool
  qOrder : BitVec 4
  cOrder : BitVec 4
  cqTail : Word
  cqHead : Word
  ccBaseLo : Word
  ccBaseHi : Word
  ccProd : Word
  ccCons : Word
  cqPending : Nat
  -- latched at enable
  lqBase : Nat
  lcBase : Nat
  lqOrder : Nat
  lcOrder : Nat
  -- records whose write has been issued since the enable (CSEQ, R309)
  cseq : Nat
  -- a fetch read is outstanding (R311)
  fetching : Bool
  deriving DecidableEq, Repr

/-! ## The step -/

/-- The open step and, on the tick master, the emission of the next (R54 to R59, R66). -/
structure StepSt where
  step : Nat
  opened : Bool
  period : Nat
  tickAt : Nat
  phase : Nat
  stamped : Bool
  -- members whose announcements of the stamped step are still due (R316)
  syncsDue : List Nat
  -- members whose announcements of the open step are complete before the stamp here
  ended : List Nat
  -- the acknowledgement of the stamped step is being repeated (R378)
  acking : Bool
  -- tick master: step of the last TICK emitted, missing acknowledgements, slip
  emittedStep : Nat
  acksDue : List Nat
  slipSince : Option Nat
  slipReported : Bool
  deriving DecidableEq, Repr

/-! ## The group -/

/-- What HELLO told of a member (R382, R52, R317). -/
structure PeerInfo where
  slice : Nat
  iface : Nat
  epochs : BitVec 3
  features : BitVec 6
  deriving DecidableEq, Repr

/-- One routing table entry (R385). -/
structure Route where
  dest : Nat
  primary : Nat
  alternate : Nat
  deriving DecidableEq, Repr

/-- Phases of a regroup (Table 20.4). -/
inductive RegroupPhase where
  | reconcile | takeover | resume
  deriving DecidableEq, Repr

/-- A regroup in progress (R419 to R424): the holes whose work moves, its phase, the survivors that have reported, and the highest
step that any of them reported. -/
structure Regroup where
  holes : List Nat
  phase : RegroupPhase
  reports : List Nat
  top : Nat
  deriving DecidableEq, Repr

/-- A planned removal or return of a member (R429, R431): the slice, the first step counted, the commit stamps passed, and whether
this slice has sent the jars that it hands over. -/
structure Drain where
  slice : Nat
  start : Nat
  stage : Nat
  rejoin : Bool
  sent : Bool
  deriving DecidableEq, Repr

/-- A formation attempt on this slice (R453). -/
structure Forming where
  formId : Nat
  keysHeld : List Nat
  done : List Nat
  deriving DecidableEq, Repr

/-- Group membership, vocabulary and ranges (R13 to R19, R413 to R431, R449 to R454). -/
structure Group where
  slice : Nat
  size : Nat
  x : Nat
  y : Nat
  master : Nat
  formed : Bool
  solo : Bool
  formId : Nat
  lastForm : Nat
  joinForm : Nat
  lastStep : Nat
  -- vocabulary size, 0 when there is none (R19)
  vocab : Nat
  -- first run of each member, in slice order, and second runs (R18)
  ranges : List RangeEntry
  second : List (Nat × RangeEntry)
  -- RANGE_LOAD accepted and not governing, and the members that have stored it (R322)
  nextTable : Option (Nat × List RangeEntry)
  nextStored : List Nat
  -- the overrides as the running formation attempt has read them: X and Y that GROUP_OVR expects, 0 for none, and whether the attempt has
  -- begun (R337, R345)
  wantX : Nat
  wantY : Nat
  numbered : Bool
  soloRun : RangeEntry
  soloVocab : Nat
  holes : List Nat
  idle : List Nat
  joining : List Nat
  peers : List PeerInfo
  proposals : List FormBody
  forming : Option Forming
  routes : List Route
  -- last HEARTBEAT time of each member (R388)
  seen : List (Nat × Nat)
  regroup : Option Regroup
  drain : Option Drain
  uncovered : List RangeEntry
  -- consecutive steps in which GEOMETRY_FAULT named a slice (R427)
  geomFaults : List (Nat × Nat)
  geomNow : List Nat
  -- this slice has stopped sending HEARTBEAT (R412, R440, R401)
  silent : Bool
  -- a slice was lost with its keeper: every request enters FAILED at the first commit stamp (R426)
  failAll : Bool
  deriving DecidableEq, Repr

/-! ## Requests, rows and merges -/

/-- Request states (Table 11.1). -/
inductive ReqState where
  | free | admitted | prefill | active | throttled | late | paused | draining | done | cancelled | failed | evicted
  deriving DecidableEq, Repr

/-- Predictor state (R135). -/
structure Pred where
  kref : Nat
  w : Nat
  gap : Nat
  deriving DecidableEq, Repr

/-- A change of a request that was accepted and waits for the commit stamp of its step (R58, R316). -/
inductive ReqChange where
  | settings (s : Settings)
  | cancel
  | pause
  | resume
  | evict (addr cap : Nat)
  | move (slice : Nat)
  deriving DecidableEq, Repr

/-- One entry of the request table as this slice holds it: what every slice's copy has, the slice's own jars
and written mark, and the home slice's control state (R220, R108, R109, R147, R241, R415). -/
structure ReqEntry where
  req : Nat
  info : ReqInfo
  state : ReqState
  home : Nat
  prior : ReqState
  draws : Nat
  windowLen : Nat
  outLeft : Nat
  hasToken : Bool
  pred : Pred
  -- jars of this slice: (offset, count), ascending offset (R109)
  jars : List (Nat × Nat)
  -- the Acorn, by uid, whose lines it shares here (R255)
  sharing : Option Nat
  -- written mark (R108): slot 0 written, highest jar slot written
  mark0 : Bool
  markJar : Nat
  -- loading of the prompt counts (R225, R226)
  loaded : List Nat
  loadStatus : BitVec 16
  wasHusk : Bool
  -- home slice only
  cancelMark : Bool
  lateCount : Nat
  stallSteps : Nat
  heldStep : Option Nat
  allowance : Nat
  budgetRun : Bool
  acceptedAt : Nat
  ttftUs : Nat
  gapUs : Nat
  gapSteps : Nat
  lastCommitAt : Nat
  lastCommitStep : Nat
  clockOn : Bool
  prod : Nat
  prodWritten : Nat
  -- the number of the newest record handed to HMP, and the step of its publication
  issued : Nat
  issuedStep : Nat
  cons : Nat
  -- the step in which CONS was last read (R234)
  consStep : Nat
  consAlarmed : Bool
  window : List Nat
  evictStage : Nat
  moveStage : Nat
  moveTo : Nat
  shares : List (Nat × List ChunkRec)
  -- terminal and its final record written (R240)
  released : Bool
  -- step in which some slice reported a row (R65)
  workStep : Nat
  -- slices that hold a row of the request for the step that is, or would be, outstanding (R60)
  holders : List Nat
  -- step field of the row whose token this slice has last seen committed (R228)
  usedField : Option Nat
  -- lines last sent to the keeper and last written back, by slot, and the home record last sent (R108, R414)
  sent : List (Nat × Bytes)
  sentHome : Bytes
  written : List (Nat × Bytes)
  -- the lines stand in their backing slots only (R104), slots whose read is due, state that cannot be restored (R426)
  cold : Bool
  due : List Nat
  lost : Bool
  -- the newest outcome that this slice has applied (R423)
  lastOutcome : Option ReqOutcome
  deriving DecidableEq, Repr

/-- The tree descriptor of a row (Table 10.1). -/
structure TreeDesc where
  node : Nat
  parent : Nat
  depth : Nat
  last : Nat
  spec : Bool
  draft : Nat
  base : Nat
  deriving DecidableEq, Repr

/-- Whether the slice had a re-score hold for a row (R134). -/
inductive Hold where
  | none | lines (n : Nat)
  deriving DecidableEq, Repr

/-- A row that a slice holds: its header fields, payload, the space it takes and its place in the step (R60 to R65, R349). -/
structure RowRec where
  cls : HipClass
  part : Nat
  id : Nat
  kind : Nat
  format : Nat
  stepSeq : Nat
  variant : Nat
  mask : Nat
  tree : TreeDesc
  treeBytes : Bytes
  payload : Bytes
  hold : Hold
  -- strips whose pass is done in the open step, by FIRST
  passed : List Nat
  sieved : Bool
  -- re-scores that the cut asks for and that are still to come (R132, R133)
  rescore : Nat
  -- step in which the row is to be scored
  useStep : Nat
  carried : Bool
  lateArrival : Bool
  deriving DecidableEq, Repr

/-- The row summary of one slice (Table 6.2). -/
structure Summary where
  empty : Bool
  kmax : Key
  ref : Int
  counts : List Nat
  mhi : List F32
  mlo : List F32
  nacc : List Xs96
  edge : Nat
  capture : List ShellEntry
  deriving DecidableEq, Repr

/-- What the root knows of a merged row (R192, R193, R158): list L with the term of each entry, z, the survivors' count and sum, the winner. -/
structure RowResult where
  list : List (ShellEntry × Nat)
  z : Nat
  n : Nat
  s : Nat
  kmax : Key
  refG : Int
  winner : Option Nat
  noCandidate : Bool
  deriving DecidableEq, Repr

/-- One row's merge at this slice's tree node (R182 to R197). -/
structure Merge where
  key : RowKey
  -- the tree node played: this slice, or a hole whose keeper it is (R419)
  node : Nat
  part : Nat
  summary : Option Summary
  ownA : Option MaSum
  kidsA : List (Nat × MaSum)
  sentA : Bool
  cut : Option MaCut
  ownB : Option MbShell
  kidsB : List (Nat × MbShell)
  sentB : Bool
  edge : Option MbEdge
  ownD : Option MdDraw
  kidsD : List (Nat × MdDraw)
  sentD : Bool
  closed : Bool
  failed : Bool
  -- a parity error has discarded a word of the row: no draw is formed here (R179)
  spoilt : Bool
  result : Option RowResult
  -- places of the shell area that the row summary holds, until the row's phase B ends (R128)
  places : Nat
  deriving DecidableEq, Repr

/-- The outcome of a request that reached its home slice before the stamp (R162, R209 to R215). -/
structure Verdict where
  req : Nat
  -- tokens of the run with their LP16
  run : List (Nat × Nat)
  -- accepted drafts' nodes, in path order
  nodes : List Nat
  bonus : Bool
  noCandidate : Bool
  kmax : Key
  kcut : Key
  deriving DecidableEq, Repr

/-! ## Partition objects -/

/-- A tenant record (Table 12.1), with the debits of the step that the conservation check expects (R248). -/
structure Tenant where
  tenant : Nat
  part : Nat
  bound : Bool
  reserve : Nat
  balance : Nat
  credited : Nat
  drained : Nat
  debited : Nat
  -- DEBITED at the last TICK and tokens committed since (R248)
  debitedAtTick : Nat
  committed : Nat
  deriving DecidableEq, Repr

/-- A mask object: this slice's bitmap over its runs, with the host address of the version in force; the version that governs from the next
TICK; the address of one that is being loaded; and the words that were read, by address and run (R149, R151, R321). -/
structure MaskObj where
  part : Nat
  id : Nat
  cur : Option Bytes
  curAt : Nat
  next : Option Bytes
  nextAt : Nat
  load : Option Nat
  came : List (Nat × RangeEntry × Bytes)
  deleting : Bool
  deriving DecidableEq, Repr

/-- A bias list: this slice's entries, with the host address and length of the version in force; the version that governs from the next
TICK; one that is being loaded; and the lists that were read, by address (R150, R151). -/
structure BiasObj where
  part : Nat
  id : Nat
  cur : Option (List (Nat × F32))
  curAt : Nat
  curN : Nat
  next : Option (List (Nat × F32))
  nextAt : Nat
  nextN : Nat
  load : Option (Nat × Nat)
  came : List (Nat × Bytes)
  deleting : Bool
  deriving DecidableEq, Repr

/-- An Acorn on this slice: its total entries and the slice's own jars; `uid` tells apart Acorns that have one handle in turn (R252 to R256). -/
structure Acorn where
  part : Nat
  handle : Word
  uid : Nat
  entries : Nat
  jars : List (Nat × Nat)
  -- what the slices loaded: number, status, entries in their range
  reports : List (Nat × BitVec 16 × Nat)
  -- every slice has loaded, and the change has been applied
  ready : Bool
  dropped : Bool
  -- admissions accepted from the handle whose descriptor is being read: home slice, request (R256)
  uses : List (Nat × Nat)
  deriving DecidableEq, Repr

/-- A registered variant (R257, R258): in force from the TICK of `from`, dropped from the TICK of `until`. -/
structure Variant where
  part : Nat
  num : Nat
  fromStep : Nat
  untilStep : Option Nat
  deriving DecidableEq, Repr

/-- A strip image held by the slice (R76). -/
structure Strip where
  first : Nat
  image : Bytes
  deriving DecidableEq, Repr

/-- An overlay of a variant (R85, R320). -/
structure Overlay where
  variant : Nat
  strips : List Strip
  deriving DecidableEq, Repr

/-- One entry of a spill list (Table 6.4). -/
structure SpillEntry where
  key : Key
  index : Nat
  pos : Nat
  deriving DecidableEq, Repr

/-- The head of a partition on this slice (R320, R91): the strips in force, those that govern from the next TICK,
the strips a mask barrier retired (R296, R298), the mask version (R286). -/
structure Head where
  part : Nat
  id : HeadId
  area : Nat
  strips : List Strip
  next : Option (List Strip)
  overlays : List Overlay
  nextOverlays : List Overlay
  maskVersion : Word
  retired : List Strip
  -- counts of the last barrier (Table 14.3), and the grown entries that the next update initialises (R300)
  lastPruned : Nat
  lastGrown : Nat
  newborn : List SpillEntry
  -- host addresses of strips that this slice took over, in the image that they were read from: variant, first index, address (R421)
  places : List (Nat × Nat × Nat)
  -- retired strips that are being rebuilt: first index, MASTER values read so far by chunk and slot (R298)
  rebuilding : List (Nat × List (Nat × Nat × F32))
  -- the strips that an update or a barrier has written and that wait for their commit (R282, R296)
  coming : Option (List Strip)
  deriving DecidableEq, Repr

/-- A backing registration announced by a member (R107); `base` is known only for this slice's own. -/
structure Backing where
  slice : Nat
  part : Nat
  base : Nat
  first : Nat
  count : Nat
  lmax : Nat
  deriving DecidableEq, Repr

/-- An overlay image that a member announced (R421). -/
structure OverlayImage where
  slice : Nat
  part : Nat
  variant : Nat
  addr : Nat
  len : Nat
  deriving DecidableEq, Repr

/-- Ownership of a scratch block (R100). -/
inductive Blk where
  | free | owned (part : Nat) | leaving (part : Nat)
  deriving DecidableEq, Repr

/-- What a block or a run of lines of a partition is for (R100). -/
inductive Use where
  | head | overlay (variant : Nat) | mask (id : Nat) | maskNew (id : Nat) | maskNext (id : Nat) | bias (id : Nat) | biasNew (id : Nat)
  | biasNext (id : Nat) | row (key : RowKey) (step : Nat) | window (req : Nat) | acorn (uid : Nat) | packed
  | record (seq : Word) | tile (seq : Word) (tile : Nat) | selection | plan | grow | build | headMore | retired | taken
  deriving DecidableEq, Repr

/-- Blocks held for one use. -/
structure BlockUse where
  part : Nat
  use : Use
  blocks : List Nat
  deriving DecidableEq, Repr

/-- Packed 64-byte lines held for one use: block and number of lines (R100). -/
structure LineUse where
  part : Nat
  use : Use
  places : List (Nat × Nat)
  deriving DecidableEq, Repr

/-- The stockpot's scratch (R95, R100 to R105): one tag per scratch block of the largest layout, block uses and lines. -/
structure Stockpot where
  blocks : List Blk
  uses : List BlockUse
  lines : List LineUse
  -- entries of the shell area in use (R111)
  shellUsed : Nat
  -- the state cache: request and slot of the lines held, most recently used first (R106)
  cached : List (Nat × Nat)
  deriving DecidableEq, Repr

/-! ## HMP, HIP, GBP and the event port -/

/-- Why the slice reads host memory: what happens when the bytes have arrived (Table 17.4, RDB and RDA rows). -/
inductive Purpose where
  | queueEntry (part : Nat)
  -- with the time and the step of the acceptance (R225, R414)
  | admission (op : Op) (c : Cmd) (at_ step : Nat)
  | counts (req : Nat)
  -- `busy`: a condition that answers BUSY held at acceptance, and the image can still answer BAD_ARG (R325)
  | headImage (c : Cmd) (busy : Bool)
  | overlayImage (c : Cmd) (busy : Bool)
  -- an overlay whose variant has been dropped meanwhile (R264)
  | overlayVoid (c : Cmd)
  | maskImage (part id addr : Nat) (run : RangeEntry)
  | biasImage (part id addr n : Nat)
  | rangeTable (c : Cmd) (v : Nat) (busy : Bool)
  | acornList (part : Nat) (uid : Nat)
  | husk (c : Cmd) (at_ step : Nat)
  | fwImage (c : Cmd)
  | sessionDesc (c : Cmd)
  | microDesc (c : Cmd) (busy : Bool)
  | targets (seq : Word)
  | cons (req : Nat)
  | logCons
  | backing (req slot : Nat)
  | stream (id : StripId)
  | spill (seq : Word) (tile : Nat)
  | shadow (req part slot : Nat) (fetch : Bool)
  | takeover (part variant addr : Nat) (run : RangeEntry)
  | normAcc (chunk slot : Nat)
  -- banks of the training regions: accumulators of a backward slot or of an update, optimizer state, MASTER values of a retired strip
  | bankAcc (seq : Option Word) (chunk slot : Nat)
  | bankState (chunk slot : Nat)
  | retiredBank (part first chunk slot : Nat)
  deriving DecidableEq, Repr

/-- A read job: one purpose, its bytes so far by transaction offset, the tags still outstanding. -/
structure ReadJob where
  job : Nat
  part : Nat
  addr : Nat
  len : Nat
  purpose : Purpose
  parts : List (Nat × Bytes)
  deriving DecidableEq, Repr

/-- What a completed write lets happen (R353). -/
inductive AfterWrite where
  | nothing
  | ladleRecord (req step : Nat)
  | ladleProd (req prod : Nat)
  | completion (part : Nat) (noirq : Bool)
  | husk (req : Nat)
  | slot (kind : SlotKind) (seq : Word)
  | spill
  | logRecord
  | shadow (src step : Nat)
  | backing (req slot : Nat)
  deriving DecidableEq, Repr

/-- An HMP transaction: a read of a job or a write (R347, R352). `tag` is none while it waits for a tag or a thaw; `addr` is HMP_AQ_ADDR,
aligned to 64, and `units` is HMP_AQ_LEN plus one; the transfer's bytes are the `len` from `lead` on. -/
structure Txn where
  tag : Option Nat
  write : Bool
  ch : RdCh
  -- of a bulk stream (Table 17.4)
  bulk : Bool
  addr : Nat
  units : Nat
  lead : Nat
  len : Nat
  part : Nat
  job : Nat
  offset : Nat
  data : Bytes
  after : AfterWrite
  retried : Bool
  waiting : Bool
  deriving DecidableEq, Repr

/-- HMP (R352 to R354, R363, R364). -/
structure Hmp where
  jobs : List ReadJob
  txns : List Txn
  nextJob : Nat
  issued : Nat
  completed : Nat
  abandoned : Nat
  -- tags abandoned by a freeze and not answered since (R365)
  lateTags : List Nat
  deriving DecidableEq, Repr

/-- A complete row that waits to be judged: the step in which it arrived, whether it arrived after that step's INGEST deadline, its
beats (R57, R220). -/
structure WaitingRow where
  step : Nat
  late : Bool
  row : List Bytes
  deriving DecidableEq, Repr

/-- One HIP class (R348, R350): credit counts since reset or thaw, and the row being received. -/
structure HipPort where
  received : Nat
  returned : Nat
  owed : Nat
  row : List Bytes
  stray : Bool
  nacks : Nat
  -- rows that wait for the outcomes of the stamped step (R220)
  waiting : List WaitingRow
  deriving DecidableEq, Repr

/-- A GBP beat (R355). -/
structure GbpBeat where
  seq : Word
  token : Nat
  g0 : Nat
  g1 : Option Nat
  data : Bytes
  sat : Nat
  last : Bool
  deriving DecidableEq, Repr

/-- One GBP channel (R356). -/
structure GbpPort where
  credits : Nat
  received : Nat
  acks : Nat
  waiting : List GbpBeat
  sent : Nat
  unacked : List GbpBeat
  -- the beat last driven on the channel's pins
  out : Option GbpBeat
  deriving DecidableEq, Repr

/-- An event record of the queue (Tables 17.7 to 17.9), by kind; its bytes are in `rec`. -/
structure EvtRec where
  kind : Nat
  bytes : Bytes
  deriving DecidableEq, Repr

/-- A publication of a request: the records of one step from number `first`, then doorbells by status code (R233, R236, R249, R251). -/
structure Publication where
  req : Nat
  step : Nat
  first : Nat
  records : List Bytes
  bells : List (BitVec 16)
  deriving DecidableEq, Repr

/-- The event port (R357): queue of 512, pending list, publications that wait, credits. -/
structure EvtPort where
  queue : List EvtRec
  pendingList : List EvtRec
  late : List Publication
  credits : Nat
  received : Nat
  sent : Nat
  excess : Nat
  excessWaiting : Bool
  -- the record last driven on EVT_DATA
  out : Option Bytes
  deriving DecidableEq, Repr

/-- The masters of R362. -/
inductive Master where
  | hip | hmp | gbp | part (p : Nat)
  deriving DecidableEq, Repr

/-- An entry of the alarm queue (R459, Table 22.1). -/
structure Alarm where
  code : Nat
  count : Nat
  firstNs : Nat
  lastNs : Nat
  arg : BitVec 64
  deriving DecidableEq, Repr

/-- A trace record in a source's buffer (Table 22.5). -/
structure Trace where
  src : Nat
  prio : Nat
  event : Nat
  arg0 : Word
  timeNs : Nat
  step : Nat
  arg1 : BitVec 64
  deriving DecidableEq, Repr

/-- Alarms, log ring and traces (R456 to R463). -/
structure Telemetry where
  alarms : List Alarm
  logSeq : Nat
  logProd : Word
  logCons : Word
  logStopped : Bool
  held : List Bytes
  thresh : List (BitVec 3)
  traces : List Trace
  perf : List (Nat × BitVec 64)
  deriving DecidableEq, Repr

/-! ## The link -/

/-- Session states (Table 18.5). -/
inductive Session where
  | down | train | hello | active | retrain
  deriving DecidableEq, Repr

/-- A Broddel message of this slice waiting to be framed and sent, typed (Table 18.4). -/
inductive Msg where
  | tick (m : TickMsg)
  | commit (m : CommitMsg)
  | commitAck (step slice : Nat)
  | maSum (node : Nat) (r : MaSum)
  | maCut (r : MaCut)
  | mbShell (node : Nat) (r : MbShell)
  | mbEdge (r : MbEdge)
  | mdDraw (node : Nat) (r : MdDraw)
  | trSum (node : Nat) (r : TrSum)
  | rsBegin (port : Nat) (r : RsBegin)
  | rsFlit (port : Nat) (form : RsForm) (body : Bytes)
  | jarShare (req : Nat) (records : List ChunkRec)
  | huskDelta (d : HuskDelta)
  | huskDeltaAck (step : Nat)
  | hello (port : Nat) (h : Hello)
  | heartbeat (slice step : Nat)
  | fwdCmd (f : FwdCmd)
  | fwdResult (r : FwdResult)
  | stateSync (m : SyncMsg)
  | scrubDone (part : Nat)
  | range (v : Nat) (table : List RangeEntry)
  | formPropose (b : FormBody)
  | formCommit (formId : Nat)
  | formRefuse (reason : FormReason)
  | formKeys (k : WrappedKeys)
  | formDone
  | regroup (m : RegroupMsg)
  -- a message of another slice that this one relays: its class, its bytes, the port that it came in on (R385)
  | relay (cls : Nat) (bytes : Bytes) (avoid : Nat)
  deriving DecidableEq, Repr

/-- A message with its destination: one slice, or none for a flood (R376). -/
structure OutMsg where
  dest : Option Nat
  msg : Msg
  deriving DecidableEq, Repr

/-- A flit framed for a port (Table 18.1): class, marks, form, body; its last one names the whole message, which goes by another route
when the port leaves ACTIVE (R387). -/
structure TxFlit where
  cls : Nat
  som : Bool
  eom : Bool
  raw : Bool
  form : Nat
  body : Bytes
  whole : Option OutMsg
  deriving DecidableEq, Repr

/-- Per class, in the order TICK, MERGE, BULK, MGMT of Table 18.1: the credit accounts of R373 and R389. -/
structure ClassAcct where
  grant : Nat
  held : Nat
  creditsIn : Nat
  firstSent : Nat
  accepted : Nat
  buffered : Nat
  returned : Nat
  -- credits returned and not yet carried by a flit (R373)
  owed : Nat
  deriving DecidableEq, Repr

/-- One Broddel port (R366 to R389). -/
structure Port where
  fitted : Bool
  session : Session
  lanes : List Bool
  marginAlarm : List Bool
  proto : Nat
  peerSlice : Nat
  peerPort : Nat
  txSeq : Nat
  -- flits framed and not sent; flits sent and not acknowledged, with their SEQ and the times sent (R372)
  txq : List TxFlit
  replay : List (Nat × Nat × TxFlit)
  -- SEQ of the next flit to be accepted
  rxSeq : Nat
  -- a NAK has been sent for the gap; one is to be carried by the next flit
  nakSent : Bool
  nakDue : Bool
  -- the next flit goes on lane 1 (R371)
  lane : Bool
  acct : List ClassAcct
  partials : List (Nat × Bytes)
  malformed : List Nat
  rsOpen : Option RsBegin
  rsElems : Nat
  deriving DecidableEq, Repr

/-- A flit sent on a port: the bytes of Table 18.1. -/
structure OutFlit where
  port : Nat
  lane : Nat
  bytes : Bytes
  deriving DecidableEq, Repr

/-- A message that the link completed at this slice, as header and body bytes (R376). -/
structure InMsg where
  port : Nat
  cls : Nat
  bytes : Bytes
  deriving DecidableEq, Repr

/-- The link (R366 to R391). -/
structure Link where
  ports : List Port
  out : List OutMsg
  flits : List OutFlit
  inbox : List InMsg
  -- last TICK-class copies seen, by TYPE and STEP (R372)
  tickSeen : List (Nat × Nat)
  -- other flooded messages and acknowledgements seen of late, with the time (log entry 53)
  floodSeen : List (Bytes × Nat)
  deriving DecidableEq, Repr

/-! ## Eocia and Whisk -/

/-- What Whisk is doing (R409, R446 to R448): its image is awaited, the second one where `second`; it waits for a debug load; it runs;
it restarts after a cause of WHISK_FAULT, or 3 for a drain (R429); boot hold. -/
inductive Whisk where
  | booting (second : Bool) | loading | running | restarting (cause : Nat) (second : Bool) | hold
  deriving DecidableEq, Repr

/-- When a pending command completes (Tables 15.6 to 15.9). -/
inductive Wait where
  | stamp (step : Nat)
  | publish (step : Nat)
  | admission (req : Nat)
  | finalRecord (req : Nat)
  | evicted (req : Nat)
  | moved (req : Nat)
  | objLoad (bias : Bool) (id : Nat)
  | objApplied (bias : Bool) (id : Nat)
  | acornLoad (handle : Word)
  | read
  | range
  | drained
  | rejoined
  | slot (kind : SlotKind) (seq : Word)
  | selection
  | barrier
  deriving DecidableEq, Repr

/-- A command accepted and not yet complete: the step it belongs to and what it waits for (R316). -/
structure PendCmd where
  op : Op
  cmd : Cmd
  step : Nat
  wait : Wait
  -- step of the slices' reports (object and Acorn loads): members that have answered, and the worst status
  reported : List Nat
  status : BitVec 16
  deriving DecidableEq, Repr

/-- A command that this slice forwarded and whose result is due (R314). -/
structure FwdRef where
  ref : Word
  dest : Nat
  op : BitVec 16
  part : Nat
  queue : Option Bool
  tag : BitVec 16
  deriving DecidableEq, Repr

/-- Eocia's work lists (R313 to R316). -/
structure Eocia where
  inbox : List (Op × Cmd)
  awaitAck : List (Op × Cmd)
  deferred : List (Op × Cmd)
  pending : List PendCmd
  forwarded : List FwdRef
  nextRef : Word
  changes : List (Nat × ReqChange × Nat)
  -- results that wait until Whisk runs again: command, status, result words (R410)
  ready : List (Op × Cmd × BitVec 16 × List (Nat × Word))
  deriving DecidableEq, Repr

/-! ## Training and mask evolution -/

/-- A saved row of a training token: its MXFP8 format code, elements and scales; the bytes are elsewhere (in a spilled tile)
while `data` is empty (R27, R34, R113). -/
structure SavedRow where
  token : Nat
  fmt : Nat
  data : Bytes
  deriving DecidableEq, Repr

/-- A token record (R197, R272): z, ref_g, and whether the token's loss is finite (R276). -/
structure TokenRec where
  token : Nat
  z : Xs96
  refG : Int
  live : Bool
  deriving DecidableEq, Repr

/-- A hidden-gradient element held at this slice during a reduce-scatter stage: binary32 in the low bits, or XS96 (R199, R200). -/
structure RsElem where
  stage : Nat
  token : Nat
  pos : Nat
  bits : BitVec 96
  deriving DecidableEq, Repr

/-- A micro-batch in flight (R270 to R283). -/
structure Micro where
  desc : MicroDesc
  -- the step of the forward: STEP of the records of its tokens (R185, log entry 129)
  step : Nat
  mask : Word
  targets : List (Nat × Bool)
  targetsRead : Bool
  -- saved tiles: tile number, and the offset in the spill part for a spilled one
  tiles : List (Nat × Option Nat)
  saved : List SavedRow
  records : List TokenRec
  -- losses of the tokens rooted here (R196, R275)
  losses : List (Nat × F32)
  -- loss gather: own sum once FORWARD_SLOT_DONE, the children's, sent up
  ownSum : Option TrSum
  gathered : List (Nat × TrSum)
  headerDone : Bool
  fwdCommitted : Bool
  bwdStarted : Bool
  -- reduce-scatter: elements held, elements sent by (stage, port), tokens whose beats are formed
  rs : List RsElem
  rsSent : List (Nat × Nat × Nat)
  beatToken : Nat
  bwdWritten : Bool
  -- members whose backward slot is complete
  bwdReady : List Nat
  growing : Bool
  -- the accumulator bank read for the slot: asked for, values by chunk and slot (R278)
  accAsked : Bool
  accVals : List (Nat × Nat × F32)
  -- tokens whose records a lost tile's forward merge forms again (R283)
  again : List Nat
  deriving DecidableEq, Repr

/-- The training session (R266 to R285). -/
structure Training where
  part : Nat
  desc : SessionDesc
  epoch : Nat
  genT : Bool
  -- spill parts in use: slice, part (R269)
  parts : List (Nat × Nat)
  sessionNo : Nat
  -- members whose INIT fill is complete (R268)
  filled : List Nat
  -- SEQs of the accepted forward commands that count toward the rule of R270, newest last: the newest of those committed, and those after it
  seqs : List Word
  waiting : Option (Cmd × MicroDesc)
  waitingBwd : Option Cmd
  micros : List Micro
  -- backward slots since the last update, updates since the open (R278, R280)
  backwards : Nat
  updates : Nat
  -- a barrier committed since the last update (Table 14.1)
  barriered : Bool
  normDone : Bool
  normBusy : Bool
  normAddr : Nat
  -- accumulator values read for the norm: chunk, slot, value
  normVals : List (Nat × Nat × F32)
  normOwn : Option TrSum
  normSums : List (Nat × TrSum)
  normWritten : Bool
  updating : Option UpdateArgs
  -- the banks read for the update, by chunk and slot (R280)
  updAcc : List (Nat × Nat × F32)
  updState : List (Nat × Nat × Bytes)
  updWritten : Bool
  updReady : List Nat
  deriving DecidableEq, Repr

/-- Plan states (Table 14.3). -/
inductive PlanSt where
  | none | pruning | pruned | grown
  deriving DecidableEq, Repr

/-- A running large selection (R138 to R141). -/
structure Select where
  k : Nat
  top : Bool
  grp : Bool
  pass : Nat
  -- the unit in hand: keys from `lo` to `hi` (of the direction's key), bucket width exponent
  lo : Nat
  hi : Nat
  w : Nat
  need : Nat
  -- entries of the whole selection, and of this slice, taken so far
  count : Nat
  -- own entries already taken
  taken : List SpillEntry
  tieKey : Option Key
  -- its tie boundary once the ties are counted: chunk, entries of it (R141)
  tieCut : Option (Nat × Nat)
  -- the key range that the last pass compacts
  final : Option (Nat × Nat)
  deriving DecidableEq, Repr

/-- A partition's mask plan (R288 to R301). -/
structure Plan where
  part : Nat
  st : PlanSt
  tile : Bool
  perSlice : Bool
  k : Nat
  pruned : Nat
  grown : Nat
  -- entries that this slice prunes and grows; a TILE entry names a segment (Table 14.2)
  pruneList : List SpillEntry
  growList : List SpillEntry
  growSeq : Option Word
  growDone : Bool
  -- an update committed after the grow (Table 14.1)
  updated : Bool
  barrierWait : Bool
  -- initial values: CONST with C, or ZERO (R295)
  initConst : Bool
  initC : F32
  built : Option (List Strip)
  -- members that have built their images, members whose host writes are acknowledged (R296)
  builtBy : List Nat
  committed : Bool
  writtenBy : List Nat
  select : Option Select
  deriving DecidableEq, Repr

/-! ## Power, placement, security, debug -/

/-- A pan pair's clock and voltage (R441 to R444). -/
structure Pair where
  mhz : Nat
  code : Nat
  waitVack : Bool
  stretches : Nat
  deriving DecidableEq, Repr

/-- Power management (R435 to R444). -/
structure Power where
  req : BitVec 148
  ack : BitVec 148
  on : BitVec 148
  fenced : List Nat
  idle : List Nat
  pairs : List Pair
  alert : Bool
  est : BitVec 16
  -- a fault of Table 21.4 has ended requests outside the base set
  stopped : Bool
  deriving DecidableEq, Repr

/-- Placement and streaming (R89, R90): heat, ramekin copies by pan, copies in flight, stockpot banks, streamed strips. -/
structure Place where
  -- row-passes of each strip by step, the open step first (R90)
  heat : List (StripId × List Nat)
  copies : List (StripId × Nat)
  inFlight : List (StripId × Nat)
  -- the bank of a strip's stockpot copy (R90)
  banks : List (StripId × Nat)
  -- pans whose free ramekin lines hold bytes of a partition that are not zeroed (R90)
  dirty : List (Nat × Nat)
  -- strips that stream in the step of `streamStep` (R89); fetches, and whether each has ended; strips released; strips read for training rows
  streamed : List StripId
  streamStep : Nat
  streams : List (StripId × Bool)
  released : List StripId
  trained : List StripId
  deriving DecidableEq, Repr

/-- A partition key set (Table 19.3), with the uses R402 limits. -/
structure KeySet where
  part : Nat
  keyId : Word
  kSt : Bytes
  kHk : Bytes
  kSp : Bytes
  husks : Nat
  sessions : Nat
  deriving DecidableEq, Repr

/-- The fuse words (Table 19.5). -/
structure Fuses where
  lifecycle : BitVec 2
  frk : BitVec 256
  fwRoot : BitVec 384
  dbgRoot : BitVec 384
  minSvn : BitVec 64
  deriving DecidableEq, Repr

/-- A kill in progress on this slice (Table 19.3a). -/
structure Kill where
  part : Nat
  reported : List Nat
  killedReqs : Nat
  deriving DecidableEq, Repr

/-- PD_SEC (R398 to R405). -/
structure Sec where
  fuses : Fuses
  locked : Bool
  unlocked : Bool
  unlocking : Bool
  challenge : Option Bytes
  withheld : Bool
  keySets : List KeySet
  wcount : Nat
  kills : List Kill
  deriving DecidableEq, Repr

/-- The TAP and bank 15 (R344, R464 to R468). -/
structure Debug where
  halted : BitVec 4
  bpLo : List Word
  bp : List (BitVec 64)
  memAddrLo : Word
  memAddr : BitVec 64
  memErr : Nat
  latchHi : Option (BitVec 64 × Word)
  -- bytes written over the debug port (log entry 13), Whisk's code memory (R447), the word last driven on the CSR port's read data
  mem : List Host.Cell
  codeRun : Bytes
  codeStaged : Bytes
  rdata : Word
  tapIr : BitVec 5
  tapDr : List Bool
  tapDone : Bool
  tapDenied : Bool
  tapData : Word
  deriving DecidableEq, Repr

/-- The written mark of a kept request (R416): slot 0 and the highest jar slot applied. -/
structure KeptMark where
  req : Nat
  part : Nat
  slot0 : Bool
  jar : Nat
  deriving DecidableEq, Repr

/-- Keeper state (R413 to R418): written marks of the kept slice's requests, its commands acknowledged and not applied,
deltas of this slice that its own keeper has not acknowledged. -/
structure Keeper where
  -- the slice whose deltas arrive, and the slice whose snapshot is complete; 64 for none
  source : Nat
  kept : Nat
  marks : List KeptMark
  -- with the step that each was sent in
  commands : List (Nat × DeltaEntry)
  -- deltas whose shadow writes are outstanding: source and step
  ackDue : List (Nat × Nat)
  -- messages of this slice that its keeper has not acknowledged, oldest first: step, and whether it is a COMMAND entry
  unacked : List (Nat × Bool)
  -- the last step whose whole delta has been acknowledged to the kept slice (R423)
  ackedStep : Nat
  -- shadow slots read back in a takeover (R422), and the number still outstanding
  got : List DeltaEntry
  reading : Nat
  deriving DecidableEq, Repr

/-! ## The state -/

/-- One slice, with the queue of the commands that wait for it. -/
structure State where
  kit : Kit
  timer : Nat
  straps : BitVec 19
  inReset : Bool
  regs : Regs
  cnt : Counters
  mbx : List Mailbox
  step : StepSt
  group : Group
  reqs : List ReqEntry
  rows : List RowRec
  merges : List Merge
  verdicts : List Verdict
  -- changes announced for a step and not applied yet, in order of arrival (R58, R244)
  held : List SyncMsg
  tenants : List Tenant
  masks : List MaskObj
  biases : List BiasObj
  acorns : List Acorn
  variants : List Variant
  heads : List Head
  announced : List (Nat × Nat × HeadId)
  backings : List Backing
  overlayImages : List OverlayImage
  pot : Stockpot
  hmp : Hmp
  hipB : HipPort
  hipL : HipPort
  gbpA : GbpPort
  gbpB : GbpPort
  evt : EvtPort
  violations : List (Master × Nat)
  tele : Telemetry
  link : Link
  whisk : Whisk
  eocia : Eocia
  training : Option Training
  plans : List Plan
  power : Power
  place : Place
  sec : Sec
  dbg : Debug
  keeper : Keeper
  pipTable : List Word
  -- the model's own counter of free values drawn (no field of the block)
  fresh : Nat
  pending : List Instr
  deriving DecidableEq, Repr

/-! ## Ways a step can stop -/

/-- Reasons to stop with a fault. No meaning raises one: every row's effect is given by the spec, R4 included. -/
inductive Fault where
  /-- Raised by no meaning: the spec describes no effect that stops the block (safe: never answered). -/
  | unreachable
  deriving DecidableEq, Repr

/-- Reasons to refuse a command. -/
inductive Refusal where
  /-- Raised by an arm of `exec` whose row has no meaning yet (safe: nothing is claimed of it). No arm does. -/
  | notModelled (mnemonic : String)
  deriving DecidableEq, Repr

/-! ## The state after reset -/

/-- Registers of banks 0, 1 and 14 at reset (Tables 16.3, 16.5, 16.8). -/
def Regs.reset : Regs where
  sliceOvr := 0
  sliceOvrEn := false
  grpSize := 0
  grpX := 0
  grpY := 0
  grpOvrEn := false
  stepPeriod := 4000
  irqStatus := 0
  irqEn := 0b11111
  placeHold := false
  stcSteps := 2
  stcInForce := 2
  aclkCeil := 700
  quota := List.replicate 12 0
  frozenPart := 0
  frozenHip := false
  frozenHmp := false
  frozenGbp := false
  mgmtParts := 0x001
  scrub := 0
  fwRunning := 0
  fwStaged := 0
  fwStagedOk := false
  fwRestarts := 0
  keys := 0
  secFault := false
  logBaseLo := 0
  logBase := 0
  logEn := false
  logOrder := 0

/-- Counters at reset (R341). -/
def Counters.reset : Counters where
  tickSlips := 0
  tickSlipUs := 0
  publishLate := 0
  shellFull := 0
  rescore1 := 0
  rescore2 := 0
  holdMiss := 0
  sampleEmpty := 0
  eccCe := 0
  eccUe := 0
  pipParity := 0
  mergeStale := 0
  mergeDups := 0
  treeReject := 0
  ladleStalls := 0
  budgetThrottles := 0
  tileLost := 0
  pipLRuns := 0
  pipTWords := 0
  rowsScored := 0
  tokensHomed := 0
  alarmGen := 0
  alarmCoalesced := 0
  logGen := 0
  logLost := 0
  traceGen := 0
  traceDrop := 0
  traceDropS := List.replicate 16 0

/-- A mailbox bank at reset (Table 15.2). -/
def Mailbox.reset : Mailbox where
  opcode := 0
  tag := 0
  args := List.replicate 14 0
  resStatus := 0
  resTag := 0
  st := .idle
  fwd := false
  irqStatus := 0
  irqEn := 0b00100
  cqBaseLo := 0
  cqBaseHi := 0
  cqEn := false
  qOrder := 0
  cOrder := 0
  cqTail := 0
  cqHead := 0
  ccBaseLo := 0
  ccBaseHi := 0
  ccProd := 0
  ccCons := 0
  cqPending := 0
  lqBase := 0
  lcBase := 0
  lqOrder := 0
  lcOrder := 0
  cseq := 0
  fetching := false

/-- The step at reset: none is open, no step number has been used (Table 16.3). -/
def StepSt.reset : StepSt where
  step := 0
  opened := false
  period := 4000
  tickAt := 0
  phase := 7
  stamped := false
  syncsDue := []
  ended := []
  acking := false
  emittedStep := 0
  acksDue := []
  slipSince := none
  slipReported := false

/-- The group at reset: solo service with the solo range of R450, slice and size from the straps (Table 16.3). -/
def Group.reset (slice size : Nat) : Group where
  slice := slice
  size := size
  x := 0
  y := 0
  master := 0
  formed := false
  solo := true
  formId := 0
  lastForm := 0
  joinForm := 0
  lastStep := 0
  vocab := 0
  ranges := []
  second := []
  nextTable := none
  nextStored := []
  wantX := 0
  wantY := 0
  numbered := false
  soloRun := { first := 0, count := 1024 }
  soloVocab := 262144
  holes := []
  idle := []
  joining := []
  peers := []
  proposals := []
  forming := none
  routes := []
  seen := []
  regroup := none
  drain := none
  uncovered := []
  geomFaults := []
  geomNow := []
  silent := false
  failAll := false

/-- A HIP class at reset: nothing received, 1,024 credits to return (R348). -/
def HipPort.reset : HipPort where
  received := 0
  returned := 0
  owed := 1024
  row := []
  stray := false
  nacks := 0
  waiting := []

/-- A GBP channel at reset (R356). -/
def GbpPort.reset : GbpPort where
  credits := 0
  received := 0
  acks := 0
  waiting := []
  sent := 0
  unacked := []
  out := none

/-- A link port at reset (R383): fitted or not, session DOWN. -/
def Port.reset (fitted : Bool) : Port where
  fitted := fitted
  session := .down
  lanes := [false, false]
  marginAlarm := [false, false]
  proto := 0
  peerSlice := 0
  peerPort := 0
  txSeq := 0
  txq := []
  replay := []
  rxSeq := 0
  nakSent := false
  nakDue := false
  lane := false
  acct := List.replicate 4 ⟨0, 0, 0, 0, 0, 0, 0, 0⟩
  partials := []
  malformed := []
  rsOpen := none
  rsElems := 0

/-- Ports fitted by STRAP_LANES, for port n (Table 21.6). -/
def portFitted (lanes : Nat) (n : Nat) : Bool :=
  match lanes with
  | 0 => false
  | 1 => n < 2
  | _ => true

/-- The blocks of every bank from 5 up, 32 of 64 KiB in each; there is one bank per pan in every kit (Table 0.1, R95, R100). -/
def blockCount (pans : Nat) : Nat := (pans - 5) * 32

/-- PM_PWR_REQ of the base set: PD_CTL, PD_STK00 and PD_SEC (R435, R439). -/
def baseDomains : BitVec 148 :=
  BitVec.twoPow 148 143 ||| BitVec.twoPow 148 96 ||| BitVec.twoPow 148 146

/-- Domains requested at reset: the base set, PD_HMP by the boot ROM, PD_DBG under STRAP_DBG (R435, R446, Tables 21.2, 21.6). -/
def resetRequests (straps : BitVec 19) : BitVec 148 :=
  baseDomains ||| BitVec.twoPow 148 144 ||| (if straps.getLsbD 17 then BitVec.twoPow 148 147 else 0)

/-- STRAP_BOOT is 0b01 in OPEN: the image is loaded over the debug port (Table 21.6). -/
def debugLoad (straps : BitVec 19) (fuses : Fuses) : Bool := straps.extractLsb' 15 2 == 1#2 && fuses.lifecycle == 0

/-- The state of one slice right after RST_N has risen with the given kit, straps and fuses (R333, R446):
no image runs yet; every register holds its reset value. -/
def State.afterReset (kit : Kit) (straps : BitVec 19) (fuses : Fuses) : State where
  kit := kit
  timer := 0
  straps := straps
  inReset := false
  regs := Regs.reset
  cnt := Counters.reset
  mbx := List.replicate 12 Mailbox.reset
  step := StepSt.reset
  group := Group.reset (straps.extractLsb' 0 6).toNat (straps.extractLsb' 6 7).toNat
  reqs := []
  rows := []
  merges := []
  verdicts := []
  held := []
  tenants := []
  masks := []
  biases := []
  acorns := []
  variants := []
  heads := []
  announced := []
  backings := []
  overlayImages := []
  pot := { blocks := List.replicate (blockCount kit.pans) .free, uses := [], lines := [], shellUsed := 0, cached := [] }
  hmp := { jobs := [], txns := [], nextJob := 0, issued := 0, completed := 0, abandoned := 0, lateTags := [] }
  hipB := HipPort.reset
  hipL := HipPort.reset
  gbpA := GbpPort.reset
  gbpB := GbpPort.reset
  evt := { queue := [], pendingList := [], late := [], credits := 0, received := 0, sent := 0, excess := 0, excessWaiting := false, out := none }
  violations := []
  tele := { alarms := [], logSeq := 0, logProd := 0, logCons := 0, logStopped := false, held := [],
            thresh := List.replicate 16 4, traces := [], perf := [] }
  link := { ports := (List.range 4).map fun n => Port.reset (portFitted (straps.extractLsb' 13 2).toNat n),
            out := [], flits := [], inbox := [], tickSeen := [], floodSeen := [] }
  whisk := if debugLoad straps fuses then .loading else .booting false
  eocia := { inbox := [], awaitAck := [], deferred := [], pending := [], forwarded := [], nextRef := 0,
             changes := [], ready := [] }
  training := none
  plans := []
  power := { req := resetRequests straps, ack := baseDomains, on := baseDomains, fenced := [],
             idle := List.replicate kit.pans 0, pairs := List.replicate (kit.pans / 2) ⟨0, 0, false, 0⟩,
             alert := false, est := 0, stopped := false }
  place := { heat := [], copies := [], inFlight := [], banks := [], dirty := [], streamed := [], streamStep := 0, streams := [], released := [],
             trained := [] }
  sec := { fuses := fuses, locked := fuses.lifecycle ≠ 0, unlocked := false, unlocking := false, challenge := none,
           withheld := false, keySets := [], wcount := 0, kills := [] }
  dbg := { halted := 0, bpLo := List.replicate 4 0, bp := List.replicate 4 0, memAddrLo := 0, memAddr := 0, memErr := 0,
           latchHi := none, mem := [], codeRun := [], codeStaged := [], rdata := 0, tapIr := 1, tapDr := [], tapDone := false, tapDenied := false, tapData := 0 }
  keeper := { source := 64, kept := 64, marks := [], commands := [], ackDue := [], unacked := [], ackedStep := 0, got := [], reading := 0 }
  pipTable := []
  fresh := 0
  pending := []

/-- The kit of State.reset: the reference kit (R2). -/
def Kit.reference : Kit := { coarse := false, pans := 48 }

/-- Unprogrammed fuses: OPEN, every key and root zero (Table 19.5). DESIGN CHOICE 3. -/
def Fuses.blank : Fuses := { lifecycle := 0, frk := 0, fwRoot := 0, dbgRoot := 0, minSvn := 0 }

/-- The straps of State.reset: slice 0, group size 1, no port fitted, boot image from HMP, debug powered,
REFCLK 156.25 MHz (Table 21.6). DESIGN CHOICE 2. -/
def resetStraps : BitVec 19 := BitVec.ofNat 19 (0 + 1 * 2 ^ 6 + 0 * 2 ^ 13 + 0 * 2 ^ 15 + 1 * 2 ^ 17 + 0 * 2 ^ 18)

/-- The machine right after reset. -/
def State.reset : State := State.afterReset Kit.reference resetStraps Fuses.blank

end Sys2Proof.Machine
end

