-- ==== Sys2Proof/Machine/Memory.lean ====
section
/-! DEFINITION. The bytes of free scratch and of Whisk's state as the debug port wrote them (R464, Table 22.7): a list of cells in one
canonical form, addresses strictly rising, no cell equal to what an unlisted address reads as. -/

namespace Sys2Proof.Machine

/-- Base of the stockpot in the debug address space (Table 22.7). -/
def stockpotBase : Nat := 0x100000000

/-- What an unlisted address reads as: zero in the stockpot, whose blocks are written with zeros before they become FREE (R100);
elsewhere no rule gives a value (log entry 13). -/
def unlisted (a : Nat) : Option Byte := if stockpotBase ≤ a && a < stockpotBase + 48 * 2097152 then some 0 else none

/-- The byte at an address; none where no rule gives one. -/
def cellAt (m : List Host.Cell) (a : Nat) : Option Byte :=
  match m.find? fun c => c.1 == a with
  | some c => some c.2
  | none => unlisted a

/-- The cells without those at the addresses of a test. -/
def cellDrop (f : Nat → Bool) (m : List Host.Cell) : List Host.Cell := m.filter fun c => !(f c.1)

/-- A cell put in its place. -/
def cellInsert (c : Host.Cell) : List Host.Cell → List Host.Cell
  | [] => [c]
  | d :: m => if c.1 < d.1 then c :: d :: m else if c.1 = d.1 then c :: m else d :: cellInsert c m

/-- A byte written. -/
def cellPut (a : Nat) (v : Byte) (m : List Host.Cell) : List Host.Cell :=
  if unlisted a = some v then cellDrop (· == a) m else cellInsert (a, v) m

/-- Bytes written from an address on. -/
def cellsPut : Nat → Bytes → List Host.Cell → List Host.Cell
  | _, [], m => m
  | a, b :: bs, m => cellsPut (a + 1) bs (cellPut a b m)

/-- Addresses strictly rising. -/
def rising : List Host.Cell → Bool
  | [] => true
  | [_] => true
  | c :: d :: m => c.1 < d.1 && rising (d :: m)

/-- The canonical form. -/
def Memory.wf (m : List Host.Cell) : Bool := rising m && m.all fun c => unlisted c.1 != some c.2

/-- The address of a scratch block: bank b at 2 MiB each, 32 blocks of 64 KiB in a bank, bank 5 the first (R95, Table 22.7). -/
def blockAddr (b : Nat) : Nat := stockpotBase + (b + 160) * 65536

/-- An address lies in one of some blocks. -/
def inBlocks (l : List Nat) (a : Nat) : Bool := l.any fun b => blockAddr b ≤ a && a < blockAddr b + 65536

end Sys2Proof.Machine
end

