-- ==== Sys2Proof/Machine/Bits.lean ====
section
/-! DEFINITION. Byte strings, bit fields and CRC-32 (R5, R76, R349). -/

namespace Sys2Proof.Machine

/-- The unsigned integer of a little-endian byte string (R5). -/
def leNat : Bytes → Nat
  | [] => 0
  | b :: bs => b.toNat + 256 * leNat bs

/-- v as n little-endian bytes (R5). -/
def leBytes : Nat → Nat → Bytes
  | 0, _ => []
  | n + 1, v => BitVec.ofNat 8 v :: leBytes n (v / 256)

/-- n bytes of a string from an offset. -/
def sub (bs : Bytes) (off n : Nat) : Bytes := (bs.drop off).take n

/-- The little-endian integer of n bytes at an offset; bytes past the end count as zero. -/
def leAt (bs : Bytes) (off n : Nat) : Nat := leNat (sub bs off n)

/-- The 32-bit word at an offset. -/
def wordAt (bs : Bytes) (off : Nat) : Word := BitVec.ofNat 32 (leAt bs off 4)

/-- Bits [lo + w - 1 : lo] of an integer. -/
def field (v lo w : Nat) : Nat := v / 2 ^ lo % 2 ^ w

/-- Bit n of an integer. -/
def bitOf (v n : Nat) : Bool := v / 2 ^ n % 2 == 1

/-- A Bool as an integer. -/
def b01 (b : Bool) : Nat := if b then 1 else 0

/-- Every byte is zero. -/
def allZero (bs : Bytes) : Bool := bs.all (· == 0)

/-- A string padded with zeros to n bytes. -/
def padTo (n : Nat) (bs : Bytes) : Bytes := bs ++ List.replicate (n - bs.length) 0

/-- Division rounded up. -/
def ceilDiv (a b : Nat) : Nat := (a + b - 1) / b

/-- One bit of CRC-32 with the reflected IEEE 802.3 polynomial 0xEDB8_8320. -/
def crcBit (c : BitVec 32) : BitVec 32 :=
  if c.getLsbD 0 then (c >>> 1) ^^^ 0xEDB88320#32 else c >>> 1

/-- A function applied n times. -/
def repeatedly {α : Type} (f : α → α) : Nat → α → α
  | 0, x => x
  | n + 1, x => repeatedly f n (f x)

/-- One byte of CRC-32. -/
def crcByte (c : BitVec 32) (b : Byte) : BitVec 32 := repeatedly crcBit 8 (c ^^^ b.setWidth 32)

/-- CRC-32 with the IEEE 802.3 polynomial, initial value and final complement all ones (R76, R349; PRESUMED 14). -/
def crc32 (bs : Bytes) : BitVec 32 := ~~~ (bs.foldl crcByte 0xFFFFFFFF#32)

/-- First element that satisfies a test, replaced by f; the list unchanged where none does. -/
def updFirst {α : Type} (p : α → Bool) (f : α → α) : List α → List α
  | [] => []
  | a :: as => if p a then f a :: as else a :: updFirst p f as

/-- Element n replaced by f of it. -/
def updAt {α : Type} (l : List α) (n : Nat) (f : α → α) : List α := l.modify n f

/-- The list with a value added at the end unless it is there. -/
def addOnce {α : Type} [DecidableEq α] (l : List α) (a : α) : List α := if a ∈ l then l else l ++ [a]

/-- Sum of a list of naturals. -/
def total (l : List Nat) : Nat := l.foldl (· + ·) 0

/-- Insertion of a natural in ascending order, once. -/
def insertAsc (n : Nat) : List Nat → List Nat
  | [] => [n]
  | m :: ms => if n < m then n :: m :: ms else if n = m then m :: ms else m :: insertAsc n ms

/-- The elements of a list of naturals, ascending, each once. -/
def ascending (l : List Nat) : List Nat := l.foldr insertAsc []

/-- Stable insertion by a strict order. -/
def insertBy {α : Type} (lt : α → α → Bool) (a : α) : List α → List α
  | [] => [a]
  | b :: bs => if lt b a then b :: insertBy lt a bs else a :: b :: bs

/-- Merge of two lists ordered by a strict order, with fuel for their lengths. -/
def mergeBy {α : Type} (lt : α → α → Bool) : Nat → List α → List α → List α
  | 0, as, bs => as ++ bs
  | _ + 1, [], bs => bs
  | _ + 1, as, [] => as
  | n + 1, a :: as, b :: bs =>
    if lt b a then b :: mergeBy lt n (a :: as) bs else a :: mergeBy lt n as (b :: bs)

/-- Merge sort by pairing sorted runs, with fuel. -/
def mergePairs {α : Type} (lt : α → α → Bool) : List (List α) → List (List α)
  | a :: b :: rest => mergeBy lt (a.length + b.length) a b :: mergePairs lt rest
  | l => l

/-- Rounds of pairing until one run is left. -/
def mergeRounds {α : Type} (lt : α → α → Bool) : Nat → List (List α) → List α
  | 0, ls => ls.flatten
  | n + 1, ls => match ls with
    | [] => []
    | [l] => l
    | ls => mergeRounds lt n (mergePairs lt ls)

/-- The list in the order of a strict order; equal elements keep their order. -/
def sortBy {α : Type} (lt : α → α → Bool) (l : List α) : List α :=
  mergeRounds lt (l.length + 1) (l.map fun a => [a])

end Sys2Proof.Machine
end

