-- ==== Sys2Proof/Machine/Pip.lean ====
section
/-! DEFINITION. Pip: the random words of R167 to R172 and the decisions of R169. -/

namespace Sys2Proof.Machine

/-- mix64 of R170. -/
def mix64 (x : BitVec 64) : BitVec 64 :=
  let x := x ^^^ (x >>> 31)
  let x := x * 0xA3B19C54E72D61F5#64
  let x := x ^^^ (x >>> 27)
  let x := x * 0xC4F27E813B95D0A7#64
  x ^^^ (x >>> 33)

/-- mix32 of R170. -/
def mix32 (x : BitVec 32) : BitVec 32 :=
  let x := x ^^^ (x >>> 15)
  let x := x * 0x6B43A9B5#32
  let x := x ^^^ (x >>> 13)
  let x := x * 0x8E5D3C27#32
  x ^^^ (x >>> 16)

/-- The request key k1 of R170. -/
def k1 (seed : BitVec 64) (stream : Word) (purpose : BitVec 8) (gen : Bool) : BitVec 64 :=
  mix64 (mix64 seed ^^^ (stream.setWidth 64 <<< 32) ^^^ (purpose.setWidth 64 <<< 8) ^^^ (if gen then 1 else 0))

/-- The 17 words of a Pip-L fill, x[16] first (R171). -/
def pipFill (key : BitVec 64) : List Word :=
  (List.range 17).reverse.map fun j =>
    let w := (mix64 (key + BitVec.ofNat 64 j)).setWidth 32
    if j = 0 then w ||| 1 else w

/-- n further outputs, the newest first; every x[n] is x[n-17] + x[n-5] (R171). -/
def pipRun : Nat → List Word → List Word
  | 0, xs => xs
  | n + 1, xs => pipRun n ((xs.getD 16 0 + xs.getD 4 0) :: xs.take 16)

/-- A Pip-L word (R171). -/
def pipL (k : BitVec 64) (t a : Word) : Word :=
  let key := mix64 (k ^^^ (t.setWidth 64 <<< 32) ^^^ (a.setWidth 64 >>> 8))
  let xs := pipRun (65 + (a.toNat % 256)) (pipFill key)
  xs.getD 0 0 ^^^ (xs.getD 11 0).rotateRight 13

/-- Table word j (R172). -/
def pipTabWord (j : Nat) : Word := (mix64 (0x2F1BC7D39A04E685#64 + BitVec.ofNat 64 j)).setWidth 32

/-- expand_table (R172). -/
def pipExpand : List Word := (List.range 256).map pipTabWord

/-- A Pip-T word from a table (R172). -/
def pipT (tab : List Word) (k : BitVec 64) (t a : Word) : Word :=
  let kt := mix64 (k ^^^ (t.setWidth 64 <<< 32))
  let h := (List.range 4).foldl
    (fun h b =>
      let j := ((a.toNat / 2 ^ (8 * b)) ^^^ (kt.toNat / 2 ^ (8 * b))) % 256
      h ^^^ (tab.getD j 0).rotateLeft (8 * b)) ((kt >>> 32).setWidth 32)
  mix32 (h ^^^ kt.setWidth 32)

/-- The word of an address (R167); gen true selects Pip-T. -/
def pipWord (tab : List Word) (seed : BitVec 64) (stream : Word) (purpose : BitVec 8) (gen : Bool) (t a : Word) : Word :=
  let k := k1 seed stream purpose gen
  if gen then pipT tab k t a else pipL k t a

/-- SROUND nibble of hidden position h of token u (R168, R169). -/
def sroundNibble (tab : List Word) (seed : BitVec 64) (stream : Word) (gen : Bool) (seq : Word) (u h : Nat) : Nat :=
  let p := u * 32768 + h
  field (pipWord tab seed stream 0x03 gen seq (BitVec.ofNat 32 (p / 8))).toNat (4 * (p % 8)) 4

/-- DROPOUT byte of hidden position h of token u (R168, R169). -/
def dropoutByte (tab : List Word) (seed : BitVec 64) (stream : Word) (gen : Bool) (seq : Word) (u h : Nat) : Nat :=
  let p := u * 32768 + h
  field (pipWord tab seed stream 0x04 gen seq (BitVec.ofNat 32 (p / 4))).toNat (8 * (p % 4)) 8

end Sys2Proof.Machine
end

