-- ==== Sys2Proof/Machine/Float.lean ====
section
/-! DEFINITION. binary32 arithmetic with the roundings the spec names: RNE, toward +inf, toward -inf (R30, R35, R125). -/

namespace Sys2Proof.Machine

/-! ## Rounding of a positive rational n/d × 2^e to q × 2^k -/

/-- floor(log2) of a positive rational n/d. -/
def ratLog (n d : Nat) : Int :=
  let l : Int := (Nat.log2 n : Int) - (Nat.log2 d : Int)
  let big := if l ≥ 0 then n ≥ d * 2 ^ l.toNat else n * 2 ^ (-l).toNat ≥ d
  if big then l else l - 1

/-- A magnitude on the grid of a format with f fraction bits and smallest step 2^kmin: (q + r/m) × 2^k. -/
structure Grid where
  q : Nat
  r : Nat
  m : Nat
  k : Int
  deriving DecidableEq, Repr

/-- The grid place of n/d × 2^e. -/
def toGrid (f : Nat) (kmin : Int) (n d : Nat) (e : Int) : Grid :=
  let k := max (ratLog n d + e - f) kmin
  let sh := e - k
  let n' := if sh ≥ 0 then n * 2 ^ sh.toNat else n
  let d' := if sh ≥ 0 then d else d * 2 ^ (-sh).toNat
  { q := n' / d', r := n' % d', m := d', k := k }

/-- Rounding directions of the magnitude. -/
inductive Rnd where
  | near | up | down
  deriving DecidableEq, Repr

/-- The grid step chosen for a magnitude of the given sign. -/
def roundGrid (mode : Rnd) (neg : Bool) (g : Grid) : Nat :=
  match mode with
  | .near => if 2 * g.r > g.m || (2 * g.r == g.m && g.q % 2 == 1) then g.q + 1 else g.q
  | .up => if !neg && g.r != 0 then g.q + 1 else g.q
  | .down => if neg && g.r != 0 then g.q + 1 else g.q

/-! ## binary32 -/

/-- A binary32 value: NaN, an infinity, or a sign with an exact magnitude m × 2^e. -/
inductive Fp where
  | nan
  | inf (neg : Bool)
  | fin (neg : Bool) (m : Nat) (e : Int)
  deriving DecidableEq, Repr

/-- The value of a binary32 pattern. -/
def ofBits (b : F32) : Fp :=
  let neg := b.msb
  let ex := (b.extractLsb' 23 8).toNat
  let fr := (b.extractLsb' 0 23).toNat
  if ex = 255 then (if fr = 0 then .inf neg else .nan)
  else if ex = 0 then .fin neg fr (-149)
  else .fin neg (fr + 2 ^ 23) (ex - 150)

/-- The pattern with a sign. -/
def signBit (neg : Bool) (v : Nat) : F32 := BitVec.ofNat 32 (if neg then v + 2 ^ 31 else v)

/-- The NaN pattern the model writes; no rule of the spec reads which NaN it is (R37 makes every NaN -inf). DESIGN CHOICE 15. -/
def nanBits : F32 := 0x7FC00000#32

/-- ±inf. -/
def infBits (neg : Bool) : F32 := signBit neg 0x7F800000

/-- binary32 of ± n/d × 2^e, rounded once. A zero magnitude keeps the sign given. -/
def packRat (mode : Rnd) (neg : Bool) (n d : Nat) (e : Int) : F32 :=
  if n = 0 then signBit neg 0
  else
    let g := toGrid 23 (-149) n d e
    let v := ((g.k + 149).toNat) * 2 ^ 23 + roundGrid mode neg g
    if v ≥ 0x7F800000 then
      (match mode, neg with
       | .up, true | .down, false => signBit neg 0x7F7FFFFF
       | _, _ => infBits neg)
    else signBit neg v

/-- binary32 of a signed dyadic m × 2^e; an exact zero is +0, or -0 when rounding toward -inf. -/
def packDy (mode : Rnd) (m : Int) (e : Int) : F32 :=
  if m = 0 then signBit (mode == .down) 0 else packRat mode (m < 0) m.natAbs 1 e

/-- The signed mantissa of a finite magnitude. -/
def signedMant (neg : Bool) (m : Nat) : Int := if neg then -(m : Int) else m

/-- Exact sum of two dyadics m × 2^e. -/
def addDy (a b : Int × Int) : Int × Int :=
  if a.2 ≤ b.2 then (a.1 + b.1 * 2 ^ (b.2 - a.2).toNat, a.2)
  else (a.1 * 2 ^ (a.2 - b.2).toNat + b.1, b.2)

/-- Addition with one rounding. -/
def fAddR (mode : Rnd) (a b : F32) : F32 :=
  match ofBits a, ofBits b with
  | .nan, _ | _, .nan => nanBits
  | .inf s, .inf t => if s = t then infBits s else nanBits
  | .inf s, _ | _, .inf s => infBits s
  | .fin s m e, .fin t n f =>
    if m = 0 ∧ n = 0 then signBit (if s = t then s else mode == .down) 0
    else
      let r := addDy (signedMant s m, e) (signedMant t n, f)
      packDy mode r.1 r.2

/-- Addition by RNE. -/
def fAdd : F32 → F32 → F32 := fAddR .near

/-- Addition toward +inf (add_up of R189). -/
def addUp : F32 → F32 → F32 := fAddR .up

/-- Addition toward -inf (add_down of R189). -/
def addDown : F32 → F32 → F32 := fAddR .down

/-- The sign flipped. -/
def fNeg (a : F32) : F32 := a ^^^ 0x80000000#32

/-- Subtraction by RNE. -/
def fSub (a b : F32) : F32 := fAdd a (fNeg b)

/-- Multiplication with one rounding. -/
def fMulR (mode : Rnd) (a b : F32) : F32 :=
  match ofBits a, ofBits b with
  | .nan, _ | _, .nan => nanBits
  | .inf s, .inf t => infBits (s != t)
  | .inf s, .fin t n _ | .fin t n _, .inf s => if n = 0 then nanBits else infBits (s != t)
  | .fin s m e, .fin t n f => packRat mode (s != t) (m * n) 1 (e + f)

/-- Multiplication by RNE. -/
def fMul : F32 → F32 → F32 := fMulR .near

/-- Correctly rounded division by RNE. -/
def fDiv (a b : F32) : F32 :=
  match ofBits a, ofBits b with
  | .nan, _ | _, .nan => nanBits
  | .inf _, .inf _ => nanBits
  | .inf s, .fin t _ _ => infBits (s != t)
  | .fin s _ _, .inf t => signBit (s != t) 0
  | .fin s m e, .fin t n f =>
    if n = 0 then (if m = 0 then nanBits else infBits (s != t))
    else packRat .near (s != t) m n (e - f)

/-- Integer square root by bits, from 2^b down: the largest r built from the bits with r² ≤ n. -/
def sqrtBits (n : Nat) : Nat → Nat → Nat
  | 0, r => r
  | b + 1, r => let r' := r + 2 ^ b; sqrtBits n b (if r' * r' ≤ n then r' else r)

/-- floor(sqrt n). -/
def isqrt (n : Nat) : Nat := sqrtBits n (Nat.log2 n / 2 + 1) 0

/-- Correctly rounded square root by RNE. -/
def fSqrt (a : F32) : F32 :=
  match ofBits a with
  | .nan => nanBits
  | .inf neg => if neg then nanBits else infBits false
  | .fin neg m e =>
    if m = 0 then signBit neg 0
    else if neg then nanBits
    else
      let odd := e % 2 != 0
      let m' := if odd then m * 2 else m
      let e' := if odd then (e - 1) / 2 else e / 2
      let r := isqrt (m' * 2 ^ 64)
      let sticky := if r * r = m' * 2 ^ 64 then 0 else 1
      packRat .near false (2 * r + sticky) 1 (e' - 33)

/-- a < b for values that are not NaN. -/
def fLt (a b : F32) : Bool :=
  match ofBits a, ofBits b with
  | .nan, _ | _, .nan => false
  | .inf s, .inf t => s && !t
  | .inf s, .fin _ _ _ => s
  | .fin _ _ _, .inf t => !t
  | .fin s m e, .fin t n f => (addDy (signedMant s m, e) (-(signedMant t n), f)).1 < 0

/-- a ≤ b for values that are not NaN. -/
def fLe (a b : F32) : Bool :=
  match ofBits a, ofBits b with
  | .nan, _ | _, .nan => false
  | _, _ => !(fLt b a)

/-- NaN. -/
def isNan (a : F32) : Bool := match ofBits a with | .nan => true | _ => false

/-- Finite. -/
def isFinite (a : F32) : Bool := match ofBits a with | .fin _ _ _ => true | _ => false

/-- -0 taken as +0 (R146). -/
def posZero (a : F32) : F32 := if a = 0x80000000#32 then 0 else a

/-- The flush of numerics epoch 1: a nonzero result below 2^-126 becomes zero of its sign (R50). -/
def flush (epoch : Nat) (a : F32) : F32 :=
  if epoch = 1 && (a.extractLsb' 23 8).toNat == 0 then a &&& 0x80000000#32 else a

/-- An integer as binary32, rounded by RNE. -/
def fOfInt (i : Int) : F32 := packDy .near i 0

/-- The exact dyadic of a finite value, (0, 0) otherwise. -/
def dyOf (a : F32) : Int × Int :=
  match ofBits a with
  | .fin s m e => (signedMant s m, e)
  | _ => (0, 0)

/-- Nearest integer to m × 2^e, ties to even. -/
def rneInt (m e : Int) : Int :=
  if e ≥ 0 then m * 2 ^ e.toNat
  else
    let d : Int := 2 ^ (-e).toNat
    let q := m / d
    let r := m % d
    if 2 * r > d || (2 * r == d && q % 2 == 1) then q + 1 else q

/-! ## BF16 -/

/-- A BF16 pattern as binary32 (Table 2.1). -/
def ofBf16 (b : Nat) : F32 := BitVec.ofNat 32 (b % 2 ^ 16 * 2 ^ 16)

/-- binary32 to BF16 by RNE; NaN stays NaN (R198, R200). -/
def toBf16 (a : F32) : Nat :=
  if isNan a then 0x7FC0
  else
    let v := a.toNat
    let q := v / 2 ^ 16
    let r := v % 2 ^ 16
    if r > 2 ^ 15 || (r == 2 ^ 15 && q % 2 == 1) then q + 1 else q

end Sys2Proof.Machine
end

