-- ==== Sys2Proof/Machine/Formats.lean ====
section
/-! DEFINITION. MX element formats, the conversion of a BF16 block to MXFP8 E4M3, sanitising and SK32 (R30 to R34, R37, R38, R175). -/

namespace Sys2Proof.Machine

/-- Weight and row formats (Tables 4.3 and 17.2). -/
inductive Fmt where
  | e2m1 | e2m3 | e3m2 | e4m3 | e5m2 | bf16
  deriving DecidableEq, Repr

/-- The FORMAT code of Table 4.3. -/
def Fmt.ofCode (c : Nat) : Option Fmt :=
  if c = 0x01 then some .e2m1
  else if c = 0x02 then some .e2m3
  else if c = 0x03 then some .e3m2
  else if c = 0x04 then some .e4m3
  else if c = 0x05 then some .e5m2
  else if c = 0x10 then some .bf16
  else none

/-- Bits of one element. -/
def Fmt.bits : Fmt → Nat
  | .e2m1 => 4
  | .e2m3 | .e3m2 => 6
  | .e4m3 | .e5m2 => 8
  | .bf16 => 16

/-- MX formats carry scales; BF16 has none (R77). -/
def Fmt.isMx : Fmt → Bool
  | .bf16 => false
  | _ => true

/-- A small float of eb exponent and mb fraction bits: sign, exponent field, fraction. -/
def miniParts (eb mb c : Nat) : Bool × Nat × Nat :=
  (bitOf c (eb + mb), field c mb eb, field c 0 mb)

/-- The finite value of a small float with its bias, subnormals included (OCP MX v1.0). -/
def miniVal (eb mb bias c : Nat) : Int × Int :=
  let (s, ex, fr) := miniParts eb mb c
  let m : Int := if ex = 0 then fr else fr + 2 ^ mb
  let e : Int := (if ex = 0 then 1 else (ex : Int)) - bias - mb
  (if s then -m else m, e)

/-- The exact value of an element; none for NaN or an infinity (R31, R32). -/
def elemVal (f : Fmt) (c : Nat) : Option (Int × Int) :=
  match f with
  | .e2m1 => some (miniVal 2 1 1 c)
  | .e2m3 => some (miniVal 2 3 1 c)
  | .e3m2 => some (miniVal 3 2 3 c)
  | .e4m3 => if field c 0 7 = 0x7F then none else some (miniVal 4 3 7 c)
  | .e5m2 => if field c 2 5 = 31 then none else some (miniVal 5 2 15 c)
  | .bf16 => if field c 7 8 = 255 then none else some (miniVal 8 7 127 c)

/-- The exponent of an E8M0 scale; none for 0xFF (R31). -/
def scaleExp (c : Nat) : Option Int := if c = 255 then none else some ((c : Int) - 127)

/-! ## Conversion of a BF16 block to MXFP8 E4M3 (R33, R34) -/

/-- The scale code of a block: floor(log2(amax)) - 8, no lower than 2^-127; 0x00 for a block of zeros (R33). -/
def blockScale (vals : List (Int × Int)) : Nat :=
  let logs := vals.filterMap fun v => if v.1 = 0 then none else some (ratLog v.1.natAbs 1 + v.2)
  match logs with
  | [] => 0
  | l :: ls => ((ls.foldl max l - 8 + 127).toNat)

/-- The E4M3 code of a magnitude given in units of 2^-9, below or at 448. -/
def e4m3Code (units : Nat) : Nat :=
  if units < 16 then units
  else
    let l := Nat.log2 units
    (l - 2) * 8 + (units / 2 ^ (l - 3) - 8)

/-- E4M3 of a scaled value m × 2^e by RNE, saturating at 448; a zero keeps the sign (R33). -/
def toE4m3 (neg : Bool) (m : Nat) (e : Int) : Nat :=
  let s := if neg then 128 else 0
  if m = 0 then s
  else
    let g := toGrid 3 (-9) m 1 e
    let q := roundGrid .near false g
    let units := q * 2 ^ (g.k + 9).toNat
    s + (if units ≥ 448 * 512 then 0x7E else e4m3Code units)

/-- Stochastic rounding of a scaled value with nibble r (R175). -/
def sround (neg : Bool) (m : Nat) (e : Int) (r : Nat) : Nat :=
  let s := if neg then 128 else 0
  if m = 0 then s
  else
    let big := if e ≥ 0 then m * 2 ^ e.toNat ≥ 448 else m ≥ 448 * 2 ^ (-e).toNat
    if big then s + 0x7E
    else
      let g := toGrid 3 (-9) m 1 e
      let q := if r < 16 * g.r / g.m then g.q + 1 else g.q
      let units := q * 2 ^ (g.k + 9).toNat
      s + (if units ≥ 448 * 512 then 0x7E else e4m3Code units)

/-- The sign and magnitude of a BF16 code. -/
def bf16Parts (c : Nat) : Bool × Nat × Int :=
  let v := miniVal 8 7 127 c
  (bitOf c 15, v.1.natAbs, v.2)

/-- A block of BF16 codes to a scale code and E4M3 codes: by RNE, or stochastically with one nibble per element (R33, R34). -/
def convBlock (codes : List Nat) (nibbles : Option (List Nat)) : Nat × List Nat :=
  let sc := blockScale (codes.map fun c => miniVal 8 7 127 c)
  let se : Int := (sc : Int) - 127
  let conv := fun (c r : Nat) =>
    let (neg, m, e) := bf16Parts c
    match nibbles with
    | none => toE4m3 neg m (e - se)
    | some _ => sround neg m (e - se) r
  (sc, (codes.zip ((nibbles.getD []) ++ List.replicate codes.length 0)).map fun p => conv p.1 p.2)

/-- binary32 values to an E4M3 block by the scale rule of R33 and RNE (R83, R276). -/
def convBlockF32 (vals : List F32) : Nat × List Nat :=
  let sc := blockScale (vals.map dyOf)
  let se : Int := (sc : Int) - 127
  (sc, vals.map fun v => let d := dyOf v; toE4m3 v.msb d.1.natAbs (d.2 - se))

/-! ## Sanitising and SK32 -/

/-- -inf, the excluded score. -/
def negInf : F32 := 0xFF800000#32

/-- 2^20. -/
def scoreMax : F32 := 0x49800000#32

/-- Sanitising (R37). -/
def sanitise (s : F32) : F32 :=
  if isNan s then negInf
  else if s = negInf then negInf
  else if fLt scoreMax s then scoreMax
  else if fLt s (fNeg scoreMax) then fNeg scoreMax
  else posZero s

/-- The SK32 key of a sanitised score (R38). -/
def skey (b : F32) : Key := if b.msb then ~~~ b else b ^^^ 0x80000000#32

/-- The score of an SK32 key (R38). -/
def unkey (k : Key) : F32 := if k.msb then k ^^^ 0x80000000#32 else ~~~ k

/-- The key of an excluded entry and of padding (Table 2.3). -/
def keyNone : Key := 0x007FFFFF#32

/-- The none marker (R47). -/
def noIndex : Nat := 0x3FFFFF

/-- R39: the higher key first, and among equal keys the lower index. -/
def ranks (a b : Key × Nat) : Bool := a.1 > b.1 || (a.1 == b.1 && a.2 < b.2)

end Sys2Proof.Machine
end

