-- ==== Sys2Proof/Machine/Strip.lean ====
section
/-! DEFINITION. Strip images: header, segments, stored entries, checks at load (R74 to R78, R85, R93). -/

namespace Sys2Proof.Machine

/-- The structures of Table 4.2. -/
inductive Struct where
  | dense | s24 | s14 | s18
  deriving DecidableEq, Repr

/-- The STRUCT code of Table 4.2. -/
def Struct.ofCode (c : Nat) : Option Struct :=
  if c = 0x00 then some .dense
  else if c = 0x24 then some .s24
  else if c = 0x14 then some .s14
  else if c = 0x18 then some .s18
  else none

/-- Segments per block (Table 4.2). -/
def Struct.segs : Struct → Nat
  | .dense => 8 | .s24 => 4 | .s14 => 2 | .s18 => 1

/-- Stored entries per group, N (Table 4.2). -/
def Struct.n : Struct → Nat
  | .dense => 1 | .s24 => 2 | .s14 => 1 | .s18 => 1

/-- Hidden positions per group, M (Table 4.2). -/
def Struct.m : Struct → Nat
  | .dense => 1 | .s24 => 4 | .s14 => 4 | .s18 => 8

/-- Position bits per entry (Table 4.2). -/
def Struct.posBits : Struct → Nat
  | .dense => 0 | .s24 => 2 | .s14 => 2 | .s18 => 3

/-- Fields of a strip image header (Table 4.3). -/
structure StripHdr where
  first : Nat
  fmt : Fmt
  fmtCode : Nat
  struct : Struct
  structCode : Nat
  overlay : Bool
  blocks : Nat
  bytes : Nat
  headId : BitVec 64
  variant : Nat
  deriving DecidableEq, Repr

/-- The header of an image; none when a field is outside its defined values or a reserved bit is set (R78). -/
def stripHdr (img : Bytes) : Option StripHdr :=
  let w0 := leAt img 0 4
  let w4 := leAt img 4 4
  let w8 := leAt img 8 4
  let w24 := leAt img 24 4
  let kind := field w4 16 8
  let variant := field w24 0 16
  match Fmt.ofCode (field w4 0 8), Struct.ofCode (field w4 8 8) with
  | some f, some st =>
    if img.length ≥ 64 && field w0 22 10 == 0 && field w4 24 8 == 0 && field w8 16 16 == 0 && field w24 16 16 == 0
        && allZero (sub img 32 32) && kind ≤ 1 && field w0 0 4 == 0
        && field w8 0 16 ≥ 8 && field w8 0 16 ≤ 256 && leAt img 12 4 % 16 == 0
        && (if kind == 0 then variant == 0 else variant ≥ 1 && variant < 4096 && st == .dense)
    then some { first := field w0 0 22, fmt := f, fmtCode := field w4 0 8, struct := st, structCode := field w4 8 8,
                overlay := kind == 1, blocks := field w8 0 16, bytes := leAt img 12 4,
                headId := BitVec.ofNat 64 (leAt img 16 8), variant := variant }
    else none
  | _, _ => none

/-- Segments of the strip: S_b per block, or 8 per block in an overlay (R75, R85). -/
def StripHdr.segCount (h : StripHdr) : Nat := h.blocks * (if h.overlay then 8 else h.struct.segs)

/-- Bytes of the segment bitmap, a multiple of 64 (R76). -/
def StripHdr.mapBytes (h : StripHdr) : Nat := ceilDiv h.segCount 512 * 64

/-- Bit g of the segment bitmap (R76). -/
def segStored (img : Bytes) (g : Nat) : Bool := bitOf (leAt img (64 + g / 8) 1) (g % 8)

/-- Element bytes of one base segment (Table 4.4). -/
def elemBytes (f : Fmt) : Nat := 32 * f.bits

/-- Position bytes of one base segment (Table 4.4). -/
def posBytes (s : Struct) : Nat := 32 * s.posBits

/-- A stored base segment: number, offsets of the pair's scales, the elements and the positions. -/
structure SegAt where
  g : Nat
  scaleOff : Nat
  elemOff : Nat
  posOff : Nat
  deriving DecidableEq, Repr

/-- The stored segments of base pairs from j on, at offset off, with the offset after the last (R77). -/
def basePairs (h : StripHdr) (img : Bytes) : Nat → Nat → Nat → List SegAt × Nat
  | 0, _, off => ([], off)
  | n + 1, j, off =>
    let a := segStored img (2 * j)
    let b := 2 * j + 1 < h.segCount && segStored img (2 * j + 1)
    let sc := if h.fmt.isMx then 16 else 0
    let one := elemBytes h.fmt + posBytes h.struct
    let place := fun (g o : Nat) => SegAt.mk g off o (o + elemBytes h.fmt)
    let (here, next) :=
      if a && b then ([place (2 * j) (off + sc), place (2 * j + 1) (off + sc + one)], off + sc + 2 * one)
      else if a then ([place (2 * j) (off + sc)], off + sc + one)
      else if b then ([place (2 * j + 1) (off + sc)], off + sc + one)
      else ([], off)
    let rest := basePairs h img n (j + 1) next
    (here ++ rest.1, rest.2)

/-- The base segments of an image and the length its bitmap and Table 4.4 give. -/
def baseSegs (h : StripHdr) (img : Bytes) : List SegAt × Nat :=
  basePairs h img (ceilDiv h.segCount 2) 0 (64 + h.mapBytes)

/-- Element code e of lane i in an element stream of the format at an offset (R77). -/
def elemCode (f : Fmt) (img : Bytes) (off k : Nat) : Nat :=
  let bit := f.bits * k
  field (leAt img (off + bit / 8) 3) (bit % 8) f.bits

/-- Position bits of entry k of a position stream (R77). -/
def posCode (w : Nat) (img : Bytes) (off k : Nat) : Nat :=
  let bit := w * k
  field (leAt img (off + bit / 8) 2) (bit % 8) w

/-- A stored entry of one lane: hidden position, element code, scale code (0 for BF16). -/
structure Entry where
  pos : Nat
  code : Nat
  scale : Nat
  deriving DecidableEq, Repr

/-- The hidden position of entry e of lane i in a base segment (R75). -/
def entryPos (h : StripHdr) (img : Bytes) (s : SegAt) (i e : Nat) : Nat :=
  let sb := h.struct.segs
  let w := 128 / sb
  let b := s.g / sb
  let sg := s.g % sb
  128 * b + w * sg + h.struct.m * (e / h.struct.n) + posCode h.struct.posBits img s.posOff (16 * i + e)

/-- The 16 entries of lane i in a base segment. -/
def segEntries (h : StripHdr) (img : Bytes) (s : SegAt) (i : Nat) : List Entry :=
  (List.range 16).map fun e =>
    { pos := if h.struct = .dense then 128 * (s.g / 8) + 16 * (s.g % 8) + e else entryPos h img s i e
      code := elemCode h.fmt img s.elemOff (16 * i + e)
      scale := if h.fmt.isMx then leAt img (s.scaleOff + i) 1 else 0 }

/-- A stored overlay segment: number, offset of its record, marked entries (R85). -/
structure OvlAt where
  g : Nat
  off : Nat
  marks : List Nat
  deriving DecidableEq, Repr

/-- Bytes of an overlay record with k marked entries, padded to 16 (R85). -/
def ovlBytes (f : Fmt) (k : Nat) : Nat :=
  ceilDiv (32 + (if f.isMx then ceilDiv k 32 else 0) + ceilDiv (k * f.bits) 8) 16 * 16

/-- The stored overlay segments from g on. -/
def ovlFrom (h : StripHdr) (img : Bytes) : Nat → Nat → Nat → List OvlAt × Nat
  | 0, _, off => ([], off)
  | n + 1, g, off =>
    if segStored img g then
      let occ := leAt img off 32
      let marks := (List.range 256).filter fun k => bitOf occ k
      let rest := ovlFrom h img n (g + 1) (off + ovlBytes h.fmt marks.length)
      (⟨g, off, marks⟩ :: rest.1, rest.2)
    else ovlFrom h img n (g + 1) off

/-- The overlay segments of an image and its length. -/
def ovlSegs (h : StripHdr) (img : Bytes) : List OvlAt × Nat := ovlFrom h img h.segCount 0 (64 + h.mapBytes)

/-- The marked entries of lane i in an overlay segment (R85). -/
def ovlEntries (h : StripHdr) (img : Bytes) (o : OvlAt) (i : Nat) : List Entry :=
  let sc := if h.fmt.isMx then ceilDiv o.marks.length 32 else 0
  (o.marks.zipIdx.filter fun p => p.1 / 16 == i).map fun p =>
    { pos := 128 * (o.g / 8) + 16 * (o.g % 8) + p.1 % 16
      code := elemCode h.fmt img (o.off + 32 + sc) p.2
      scale := if h.fmt.isMx then leAt img (o.off + 32 + p.2 / 32) 1 else 0 }

/-- The stored entries of lane i of a strip, in ascending segment. -/
def laneEntries (h : StripHdr) (img : Bytes) (i : Nat) : List Entry :=
  if h.overlay then (ovlSegs h img).1.flatMap fun o => ovlEntries h img o i
  else (baseSegs h img).1.flatMap fun s => segEntries h img s i

/-- The exact value of an entry; none for a value R32 forbids. -/
def Entry.val (f : Fmt) (e : Entry) : Option (Int × Int) :=
  if f.isMx then
    match elemVal f e.code, scaleExp e.scale with
    | some v, some x => some (v.1, v.2 + x)
    | _, _ => none
  else elemVal f e.code

/-- The positions of each group of N entries are strictly ascending (R74). -/
def groupsAscend (n : Nat) (es : List Entry) : Bool :=
  n ≤ 1 || (List.range (es.length - 1)).all fun k =>
    k % n == n - 1 || (es.getD k ⟨0, 0, 0⟩).pos < (es.getD (k + 1) ⟨0, 0, 0⟩).pos

/-- Padding bits of the bitmap are zero (R76). -/
def paddingClear (h : StripHdr) (img : Bytes) : Bool :=
  (List.range (h.mapBytes * 8 - h.segCount)).all fun k => !(segStored img (h.segCount + k))

/-- Padding after the values of an overlay record reads zero (R85). -/
def ovlPadClear (h : StripHdr) (img : Bytes) (o : OvlAt) : Bool :=
  let k := o.marks.length
  let used := 32 + (if h.fmt.isMx then ceilDiv k 32 else 0) + ceilDiv (k * h.fmt.bits) 8
  allZero (sub img (o.off + used) (ovlBytes h.fmt k - used))

/-- The largest strip image: dense BF16 at hidden width 32,768 (R93, Table 4.8). -/
def maxStrip : Nat := 1048896

/-- The checks of R78 and R93 on one image taken by itself: header, CHECK, length, padding, positions, values. -/
def stripOk (img : Bytes) : Bool :=
  match stripHdr img with
  | none => false
  | some h =>
    let len := if h.overlay then (ovlSegs h img).2 else (baseSegs h img).2
    -- a base image is padded to its multiple of 16
    h.bytes == img.length && img.length ≤ maxStrip && ceilDiv len 16 * 16 == img.length
      && crc32 (img.take 28 ++ [0, 0, 0, 0] ++ img.drop 32) == wordAt img 28
      && paddingClear h img
      && (List.range 16).all fun i =>
          let es := laneEntries h img i
          es.all (fun e => (e.val h.fmt).isSome)
            && (h.overlay || ((baseSegs h img).1.all fun s => groupsAscend h.struct.n (segEntries h img s i)))

/-- A head image cut into strip images by IMAGE_BYTES; none when a length is wrong (R320). -/
def cutStrips : Nat → Bytes → Option (List Bytes)
  | 0, bs => if bs.isEmpty then some [] else none
  | n + 1, bs =>
    if bs.isEmpty then some []
    else
      let len := leAt bs 12 4
      if len < 64 || bs.length < len then none
      else (cutStrips n (bs.drop len)).map fun r => bs.take len :: r

/-- The strips of an image as (FIRST, image), all passing the checks of R78 taken one by one. -/
def parseStrips (bs : Bytes) : Option (List Strip) :=
  match cutStrips 16384 bs with
  | none => none
  | some l => if l.all stripOk then some (l.map fun i => { first := leAt i 0 4 % 2 ^ 22, image := i }) else none

/-! ## Cycle counts (R80, R84): orientation of telemetry only, since they affect time alone -/

/-- Stored segments of a strip in block b. -/
def blockSegs (h : StripHdr) (img : Bytes) (b : Nat) : Nat :=
  let sb := if h.overlay then 8 else h.struct.segs
  ((List.range sb).filter fun s => segStored img (sb * b + s)).length

/-- C of Table 4.1. -/
def Fmt.capacity : Fmt → Nat
  | .e2m1 => 8
  | .e2m3 | .e3m2 | .e4m3 | .e5m2 => 4
  | .bf16 => 1

/-- One pack of R80 from block b: counts so far, blocks taken so far, and the remaining fuel; answers the counts and the next block. -/
def packFrom (segs : Nat → List Nat) (blocks : Nat) : Nat → Nat → Nat → List Nat → List Nat × Nat
  | 0, b, _, seg => (seg, b)
  | n + 1, b, first, seg =>
    if b < blocks && b - first < 4 then
      let new := (seg.zip (segs b)).map fun p => p.1 + p.2
      if b > first && new.foldl max 0 > 8 then (seg, b) else packFrom segs blocks n (b + 1) first new
    else (seg, b)

/-- pass_cycles of R80: cycles per row of a pass over strips whose stored segments per block are given. -/
def passCyclesFrom (segs : Nat → List Nat) (strips blocks c : Nat) : Nat → Nat → Nat
  | 0, _ => 0
  | n + 1, b =>
    if b < blocks then
      let (seg, b') := packFrom segs blocks 5 b b (List.replicate strips 0)
      let top := seg.foldl max 0
      (if top > 0 then ceilDiv (max top (2 * (b' - b))) c else 0) + passCyclesFrom segs strips blocks c n b'
    else 0

end Sys2Proof.Machine
end

