-- ==== Sys2Proof/Machine/Trans.lean ====
section
/-! DEFINITION. Correctly rounded powers and logarithms by interval arithmetic on integers (R42, R44, R45, R156, R159).
Each approximation is an integer at scale 2^p with an error bound of 2^8 units; the precision doubles, up to four
times, until both ends of the interval round alike. -/

namespace Sys2Proof.Machine

/-- Sum of the series Σ y^(2k+1)/(2k+1), y at scale 2^p, n terms from k; w is y^(2k+1) at scale 2^p. -/
def atanhTerms (p y2 : Nat) : Nat → Nat → Nat → Nat
  | 0, _, _ => 0
  | n + 1, k, w => w / (2 * k + 1) + atanhTerms p y2 n (k + 1) (w * y2 / 2 ^ p)

/-- ln 2 at scale 2^p: 2 atanh(1/3). -/
def ln2At (p : Nat) : Nat :=
  let y := 2 ^ p / 3
  2 * atanhTerms p (2 ^ p / 9) (p / 3 + 2) 0 y

/-- ln of n/d > 0 at scale 2^p, as an integer with a small error: range reduction by a power of two,
then ln m = 2 atanh((m-1)/(m+1)) for m in [2/3, 4/3]. -/
def lnAt (p : Nat) (n d : Nat) : Int :=
  let l := ratLog n d
  -- m = n/d / 2^k in [2/3, 4/3)
  let n1 := if l ≥ 0 then n else n * 2 ^ (-l).toNat
  let d1 := if l ≥ 0 then d * 2 ^ l.toNat else d
  let up := 3 * n1 ≥ 4 * d1
  let k := if up then l + 1 else l
  let d2 := if up then 2 * d1 else d1
  let num : Int := (n1 : Int) - d2
  let y := num.natAbs * 2 ^ p / (n1 + d2)
  let s := 2 * atanhTerms p (y * y / 2 ^ p) (p / 4 + 2) 0 y
  k * (ln2At p : Int) + (if num < 0 then -(s : Int) else s)

/-- Σ x^k/k! terms, x at scale 2^p, n terms, w the current term, k its index. -/
def expTerms (p x : Nat) : Nat → Nat → Nat → Nat
  | 0, _, _ => 0
  | n + 1, k, w => w + expTerms p x n (k + 1) (w * x / 2 ^ p / (k + 1))

/-- 2^(u/2^f) for 0 ≤ u < 2^f at scale 2^p. -/
def pow2At (p f u : Nat) : Nat :=
  expTerms p (u * ln2At p / 2 ^ f) (p / 2 + 4) 0 (2 ^ p)

/-- The common rounding of the interval [v - 2^8, v + 2^8] at precisions p, 2p, 4p, 8p; at the last precision that of v. -/
def settle {α : Type} [DecidableEq α] (at_ : Nat → Int) (rnd : Nat → Int → α) : Nat → Nat → α
  | 0, p => rnd p (at_ p)
  | n + 1, p =>
    let v := at_ p
    let a := rnd p (v - 256)
    if a = rnd p (v + 256) then a else settle at_ rnd n (2 * p)

/-- pow2frac(f) of R42: the correctly rounded integer of 2^(64 - f/2^F); exact when f is 0. -/
def pow2frac (bits f : Nat) : Nat :=
  if f = 0 then 2 ^ 64
  else
    (settle (fun p => (pow2At p bits (2 ^ bits - f) : Int)) (fun p v => rneInt v (63 - p)) 3 160).toNat

/-- F of an epoch (Table 2.5). -/
def fracBits (epoch : Nat) : Nat := if epoch = 1 then 12 else 16

/-- log2(e) of R42. -/
def l2e : F32 := 0x3FB8AA3B#32

/-- x of a score, in units of 2^-F: the exact product rounded once (R42). -/
def xOf (epoch : Nat) (s : F32) : Int :=
  let a := dyOf s
  let b := dyOf l2e
  rneInt (a.1 * b.1) (a.2 + b.2 + fracBits epoch)

/-- ref for the largest x: 16 × ceil(x/16) (R42, R126). -/
def refOf (epoch : Nat) (x : Int) : Int := -(16 * ((-x) / (16 * 2 ^ fracBits epoch)))

/-- term of a value x at a reference (R42). -/
def termX (epoch : Nat) (ref x : Int) : Nat :=
  let one : Int := 2 ^ fracBits epoch
  let d := ref * one - x
  let a := (d / one).toNat
  if a ≥ 65 then 0 else pow2frac (fracBits epoch) (d % one).toNat / 2 ^ a

/-- term of a score at a reference (R42). -/
def termOf (epoch : Nat) (ref : Int) (s : F32) : Nat := termX epoch ref (xOf epoch s)

/-- An integer v at scale 2^-p as binary32 by RNE. -/
def packAt (p : Nat) (v : Int) : F32 := packDy .near v (-(p : Int))

/-- binary32 nearest -ln(t/z); +inf when t is 0 (R44). -/
def lossOf (t z : Nat) : F32 :=
  if t = 0 then infBits false
  else if t = z then 0
  else settle (fun p => -(lnAt p t z)) (fun p v => packAt p v) 3 160

/-- binary32 nearest ln of a positive finite binary32 (R156, ln m). -/
def lnF32 (m : F32) : F32 :=
  let d := dyOf m
  if d.1 ≤ 0 then negInf
  else
    let n := if d.2 ≥ 0 then d.1.natAbs * 2 ^ d.2.toNat else d.1.natAbs
    let q := if d.2 ≥ 0 then 1 else 2 ^ (-d.2).toNat
    if n = q then 0 else settle (fun p => lnAt p n q) (fun p v => packAt p v) 3 192

/-- LP16 of a term and a normaliser (R45). -/
def lp16 (t z : Nat) : Nat :=
  if t = 0 then 0xFFFF
  else if t = z then 0
  else min 0xFFFF (settle (fun p => -(lnAt p t z)) (fun p v => rneInt v (10 - p)) 3 160).toNat

/-- Correctly rounded probability t/z (R44). -/
def probOf (t z : Nat) : F32 := if z = 0 then 0 else packRat .near false t z 0

/-- noise(b) of R159 in units of 2^-24. With u = (2b+1)/2^33: -log2(-log2 u) = (ln ln2 - ln(-ln u)) / ln 2. -/
def noise (b : Word) : Int :=
  let u := 2 * b.toNat + 1
  settle
    (fun p =>
      let q := p + 64
      -- -log2 u at scale 2^q
      let l : Nat := (-(lnAt q u (2 ^ 33))).toNat * 2 ^ q / ln2At q
      (-lnAt p l (2 ^ q)) * 2 ^ p / (ln2At p : Int))
    (fun p v => rneInt v (24 - p)) 3 160

end Sys2Proof.Machine
end

