-- ==== Sys2Proof/Machine/Score.lean ====
section
/-! DEFINITION. From a delivered row to final scores: operand conversion, logits, Colander (R32 to R36, R72, R83, R153 to R155, R208). -/

namespace Sys2Proof.Machine

/-- Row formats of Table 17.2. -/
def rowFmt (code : Nat) : Option Fmt :=
  if code = 0x1 then some .bf16
  else if code = 0x4 then some .e4m3
  else if code = 0x5 then some .e5m2
  else none

/-- Hidden width that a hidden row of this LENGTH spells: 2H bytes in BF16, H + H/32 in MXFP8 (R349). -/
def rowWidth (f : Fmt) (len : Nat) : Nat := if f.isMx then len * 32 / 33 else len / 2

/-- LENGTH of a hidden row of width H (R349). -/
def rowLength (f : Fmt) (h : Nat) : Nat := if f.isMx then h + h / 32 else 2 * h

/-- The element codes of a hidden row. -/
def rowCodes (f : Fmt) (h : Nat) (payload : Bytes) : List Nat :=
  if f.isMx then (payload.take h).map (·.toNat)
  else (List.range h).map fun i => leAt payload (2 * i) 2

/-- The E8M0 codes of an MXFP8 row. -/
def rowScales (h : Nat) (payload : Bytes) : List Nat := (sub payload h (h / 32)).map (·.toNat)

/-- A hidden row holds no value that R32 forbids. -/
def rowClean (f : Fmt) (h : Nat) (payload : Bytes) : Bool :=
  (rowCodes f h payload).all (fun c => (elemVal f c).isSome)
    && (!f.isMx || (rowScales h payload).all (· != 255))

/-- MXFP8 codes and scales as exact values. -/
def mxVals (f : Fmt) (codes scales : List Nat) : List (Int × Int) :=
  codes.zipIdx.map fun p =>
    let v := (elemVal f p.1).getD (0, 0)
    (v.1, v.2 + ((scales.getD (p.2 / 32) 0 : Nat) : Int) - 127)

/-- A list cut into groups of n. -/
def groupsOf {α : Type} (n : Nat) : Nat → List α → List (List α)
  | 0, _ => []
  | k + 1, l => if l.isEmpty then [] else l.take n :: groupsOf n k (l.drop n)

/-- A BF16 row as MXFP8 E4M3 codes and scales, by RNE or with one nibble per element (R33, R34). -/
def convRow (codes : List Nat) (nibbles : Option (List Nat)) : List Nat × List Nat :=
  let n := codes.length / 32
  let gs := groupsOf 32 n codes
  let ns := match nibbles with
    | none => gs.map fun _ => none
    | some l => (groupsOf 32 n l).map some
  let bs := (gs.zip ns).map fun p => convBlock p.1 p.2
  (bs.flatMap (·.2), bs.map (·.1))

/-- The operand row that reaches the cells: exact values per hidden position (R33; MXFP8 as it arrived). -/
def operandRow (headMx : Bool) (f : Fmt) (h : Nat) (payload : Bytes) : List (Int × Int) :=
  let codes := rowCodes f h payload
  if f.isMx then mxVals f codes (rowScales h payload)
  else if headMx then
    let r := convRow codes none
    mxVals .e4m3 r.1 r.2
  else codes.map fun c => miniVal 8 7 127 c

/-- Stage 2: the product of a BF16 weight and a hidden value, in binary32 (Table 2.2). -/
def prodF (epoch : Nat) (w x : Int × Int) : F32 := flush epoch (packDy .near (w.1 * x.1) (w.2 + x.2))

/-- One level of the pairwise tree (R36). -/
def treeLevel (epoch : Nat) : List F32 → List F32
  | a :: b :: rest => flush epoch (fAdd a b) :: treeLevel epoch rest
  | l => l

/-- The fixed pairwise tree over 128 products (R36). -/
def tree128 (epoch : Nat) (l : List F32) : F32 := (repeatedly (treeLevel epoch) 7 l).headD 0

/-- Exact sum of dyadics. -/
def sumDy (l : List (Int × Int)) : Int × Int := l.foldl addDy (0, 0)

/-- Entries with values: (hidden position, exact weight). -/
abbrev Weights := List (Nat × (Int × Int))

/-- The weights of a lane of a strip image. -/
def laneWeights (img : Bytes) (lane : Nat) : Weights :=
  match stripHdr img with
  | none => []
  | some h => (laneEntries h img lane).map fun e => (e.pos, (e.val h.fmt).getD (0, 0))

/-- Stage 3: the sum of one hidden-width block over base and overlay entries (R36, Table 2.2). -/
def blockSum (epoch : Nat) (mx : Bool) (row : List (Int × Int)) (b : Nat) (base ovl : Weights) : F32 :=
  let at_ := fun (p : Nat) => row.getD p (0, 0)
  if mx then
    let prods := (base ++ ovl).map fun e => (e.2.1 * (at_ e.1).1, e.2.2 + (at_ e.1).2)
    let s := sumDy prods
    flush epoch (packDy .near s.1 s.2)
  else
    tree128 epoch ((List.range 128).map fun i =>
      let p := 128 * b + i
      let f := fun (ws : Weights) => ws.find? fun e => e.1 == p
      let x := match f base with | some e => prodF epoch e.2 (at_ p) | none => 0
      match f ovl with
      | some e => flush epoch (fAdd x (prodF epoch e.2 (at_ p)))
      | none => x)

/-- The logit of one index (R72). -/
def logit (epoch : Nat) (mx : Bool) (blocks : Nat) (row : List (Int × Int)) (base ovl : Weights) : F32 :=
  (List.range blocks).foldl
    (fun acc b =>
      let inB := fun (ws : Weights) => ws.filter fun e => e.1 / 128 == b
      let bb := inB base
      let oo := inB ovl
      if bb.isEmpty && oo.isEmpty then acc
      else flush epoch (fAdd acc (blockSum epoch mx row b bb oo))) 0

/-- The strip of a list that holds an index. -/
def stripAt (strips : List Strip) (v : Nat) : Option Strip := strips.find? fun s => s.first == v / 16 * 16

/-- The logit of index v against base strips and the overlay strips of the row's variant (R72, R86, R87). -/
def logitOf (epoch : Nat) (mx : Bool) (blocks : Nat) (row : List (Int × Int)) (base ovl : List Strip) (v : Nat) : F32 :=
  let ws := fun (l : List Strip) => match stripAt l v with
    | some s => laneWeights s.image (v % 16)
    | none => []
  logit epoch mx blocks row (ws base) (ws ovl)

/-- Score n of a segment as binary32, BF16 or binary32 by FORMAT (R24, stage 5). -/
def segScore (formatCode : Nat) (payload : Bytes) (n : Nat) : F32 :=
  if formatCode = 0x8 then wordAt payload (4 * n) else ofBf16 (leAt payload (2 * n) 2)

/-! ## The Colander -/

/-- What the Colander knows of a row: settings, epoch, what allows an index, bias and count of an index. -/
structure Colander where
  epoch : Nat
  set : Settings
  allowed : List Bytes
  bias : List (Nat × F32)
  counts : List (Nat × Nat)
  deriving DecidableEq, Repr

/-- temper (R155). -/
def temper (epoch : Nat) (t s : F32) : F32 :=
  if t = 0 then s
  else if epoch = 3 then flush epoch (fDiv s t)
  else flush epoch (fMul s (flush epoch (fDiv 0x3F800000#32 t)))

/-- The penalties of R153 for a count c > 0. -/
def penalise (epoch : Nat) (set : Settings) (c : Nat) (s : F32) : F32 :=
  let s := if set.rep = 0x3F800000#32 then s
           else if fLt 0 s then flush epoch (fDiv s set.rep) else flush epoch (fMul s set.rep)
  let s := if set.freq = 0 then s else flush epoch (fSub s (flush epoch (fMul set.freq (fOfInt c))))
  if set.pres = 0 then s else flush epoch (fSub s set.pres)

/-- The Colander on the score of an index; `place` is the position of the index in the slice's bitmaps (R149, R153). -/
def colander (c : Colander) (index place : Nat) (s : F32) : F32 :=
  let s := sanitise s
  if s = negInf then negInf
  else if !(c.allowed.all fun m => bitOf (leAt m (place / 8) 1) (place % 8)) then negInf
  else
    let s := match c.bias.find? fun b => b.1 == index with
      | some b => if b.2 = negInf then negInf else flush c.epoch (fAdd s b.2)
      | none => s
    if s = negInf then negInf
    else
      let n := ((c.counts.find? fun p => p.1 == index).map (·.2)).getD 0
      let s := if n > 0 then penalise c.epoch c.set n s else s
      sanitise (temper c.epoch c.set.temp s)

/-! ## The transposed product and softmax values of training (R83, R276) -/

/-- chunk_partial: base weights at hidden position h of the indices of a chunk against the vocabulary-side values (R83). -/
def chunkPartial (epoch : Nat) (ws : List (Int × Int)) (ds : List (Int × Int)) : F32 :=
  (ws.zip ds).foldl (fun acc p => flush epoch (fAdd acc (prodF epoch p.1 p.2))) 0

end Sys2Proof.Machine
end

