-- ==== Sys2Proof/Machine/Sieve.lean ====
section
/-! DEFINITION. The Sieves: ranked lists, row layout, row summary, capture, re-scores, predictor, large selection (R118 to R142). -/

namespace Sys2Proof.Machine

/-- A final score with its index. -/
abbrev Scored := Nat × F32

/-- Entries that are not excluded (R37, R118). -/
def validOf (l : List Scored) : List Scored := l.filter fun e => e.2 ≠ negInf

/-- A shell entry of a valid score on a slice. -/
def shellOf (src : Nat) (e : Scored) : ShellEntry := { key := skey e.2, index := e.1, src := src }

/-- R39 order of shell entries. -/
def entryRanks (a b : ShellEntry) : Bool := ranks (a.key, a.index) (b.key, b.index)

/-- Entries in R39 order. -/
def ranked (l : List ShellEntry) : List ShellEntry := sortBy entryRanks l

/-- TOPK: the ranked list of at most k entries (Table 6.1, R119). -/
def topk (k : Nat) (l : List ShellEntry) : List ShellEntry := (ranked l).take k

/-- BOTTOMK: TOPK over complemented keys (R119). -/
def bottomk (k : Nat) (l : List ShellEntry) : List ShellEntry :=
  topk k (l.map fun e => { e with key := ~~~ e.key })

/-- A candidate of a compaction or a large selection: the key in the selection's direction, index, hidden position. -/
abbrev Cand := SpillEntry

/-- Ascending index, then ascending hidden position (R121, R142). -/
def candAsc (a b : Cand) : Bool := a.index < b.index || (a.index == b.index && a.pos < b.pos)

/-- THRESH: the entries at or above (or below) an edge in ascending index, then hidden position; none, with their count, beyond the
capacity (R121). -/
def thresh (ge : Bool) (edge : Key) (cap : Nat) (l : List Cand) : List Cand × Option Nat :=
  let q := l.filter fun e => if ge then e.key ≥ edge else e.key ≤ edge
  if q.length > cap then ([], some q.length) else (sortBy candAsc q, none)

/-- A list of k places with its count n, padded with the none marker (R47, R120). -/
def padded (k : Nat) (l : List ShellEntry) : Nat × List ShellEntry :=
  (l.length, l ++ List.replicate (k - l.length) { key := keyNone, index := noIndex, src := 0 })

/-! ## Row layout (R124) -/

/-- bucket(key, kref, w). -/
def bucket (key kref w : Nat) : Nat :=
  if key ≥ kref then 0 else min 255 (1 + (kref - 1 - key) / 2 ^ w)

/-- low(j). -/
def lowEdge (kref w j : Nat) : Nat :=
  if j = 0 then kref else if j = 255 then 0 else kref - j * 2 ^ w

/-- high(j). -/
def highEdge (kref w j : Nat) : Nat :=
  if j = 0 then 0xC9800000 else lowEdge kref w (j - 1) - 1

/-- sub(key) of bucket j (R124). -/
def subBucket (kref w j key : Nat) : Nat := min 255 ((highEdge kref w j - key) / 2 ^ (w - 8))

/-! ## Row summary (R125 to R129) -/

/-- A mass rescaled when the reference rises by d log2 units (R125). -/
def scaleMass (mode : Rnd) (d : Nat) (m : F32) : F32 :=
  let v := dyOf m
  if d = 0 then m else packDy mode v.1 (v.2 - d)

/-- A term, in units of 2^-64, added to a mass with one directed rounding (R125; log entry 20). -/
def addTerm (mode : Rnd) (m : F32) (t : Nat) : F32 :=
  let r := addDy (dyOf m) (t, -64)
  if r.1 = 0 then 0 else packDy mode r.1 r.2

/-- Masses of a row being streamed: local reference, MHI and MLO (R125, R126). -/
structure Masses where
  ref : Int
  hi : List F32
  lo : List F32
  started : Bool
  deriving DecidableEq, Repr

/-- One entry streamed into the masses. -/
def massStep (epoch kref w : Nat) (m : Masses) (e : Scored) : Masses :=
  let x := xOf epoch e.2
  let r := refOf epoch x
  let ref := if m.started then max m.ref r else r
  let d := if m.started then (ref - m.ref).toNat else 0
  let hi := if d = 0 then m.hi else m.hi.map (scaleMass .up d)
  let lo := if d = 0 then m.lo else m.lo.map (scaleMass .down d)
  let t := termX epoch ref x
  let j := bucket (skey e.2).toNat kref w
  { ref := ref, hi := hi.modify j (addTerm .up · t), lo := lo.modify j (addTerm .down · t), started := true }

/-- Masses before any entry. -/
def Masses.none : Masses := { ref := 0, hi := List.replicate 256 0, lo := List.replicate 256 0, started := false }

/-- The masses of the valid entries of one piece, in ascending index (DESIGN CHOICE 20). -/
def pieceMasses (epoch kref w : Nat) (l : List Scored) : Masses := l.foldl (massStep epoch kref w) Masses.none

/-- Two masses of a bucket added with one directed rounding. -/
def addMass (mode : Rnd) (a b : F32) : F32 :=
  let r := addDy (dyOf a) (dyOf b)
  if r.1 = 0 then 0 else packDy mode r.1 r.2

/-- Masses of two pieces joined: the lower reference is brought to the higher, then they add, each rounding directed (R123, R126). -/
def joinMasses (a b : Masses) : Masses :=
  if !a.started then b else if !b.started then a
  else
    let ref := max a.ref b.ref
    let up := fun (m : Masses) (mode : Rnd) (x : F32) => scaleMass mode (ref - m.ref).toNat x
    { ref := ref, started := true
      hi := (a.hi.zip b.hi).map fun p => addMass .up (up a .up p.1) (up b .up p.2)
      lo := (a.lo.zip b.lo).map fun p => addMass .down (up a .down p.1) (up b .down p.2) }

/-- The piece of an index: 64 chunks that begin at a multiple of 64 (R123; DESIGN CHOICE 20). -/
def pieceOf (i : Nat) : Nat := i / (64 * 256)

/-- The masses of the valid entries: piece by piece in ascending index, joined in that order (R123; DESIGN CHOICE 20). -/
def massesOf (epoch kref w : Nat) (l : List Scored) : Masses :=
  let ps := (l.map fun e => pieceOf e.1).foldl addOnce []
  ps.foldl (fun m p => joinMasses m (pieceMasses epoch kref w (l.filter fun e => pieceOf e.1 == p))) Masses.none

/-- The 256 exact counts of the layout (R122, R124). -/
def countsOf (kref w : Nat) (l : List Scored) : List Nat :=
  l.foldl (fun c e => c.modify (bucket (skey e.2).toNat kref w) (· + 1)) (List.replicate 256 0)

/-- The highest valid key, or the key of an excluded entry (Table 6.2). -/
def kmaxOf (l : List Scored) : Key := l.foldl (fun k e => if skey e.2 > k then skey e.2 else k) keyNone

/-- ref_s of the valid entries (R126). -/
def refS (epoch : Nat) (l : List Scored) : Int :=
  match l with
  | [] => 0
  | e :: es => refOf epoch (es.foldl (fun m s => max m (xOf epoch s.2)) (xOf epoch e.2))

/-- The exact sum of the terms of entries at a reference (R42). -/
def termSum (epoch : Nat) (ref : Int) (l : List Scored) : Nat := l.foldl (fun a e => a + termOf epoch ref e.2) 0

/-- NACC0 to NACC4: the term sums at ref_s + 16 j (R127). -/
def naccOf (epoch : Nat) (ref : Int) (l : List Scored) : List Xs96 :=
  (List.range 5).map fun (j : Nat) => BitVec.ofNat 96 (termSum epoch (ref + 16 * (j : Int)) l)

/-- e_s: the final capture edge (R129). -/
def captureEdge (kmax gap : Nat) : Nat := kmax - gap

/-- Places of the shell area that a capture takes (R111): the entries that enter the compaction queue while the row streams (R129), in
ascending index, at most the 1,024 of the sorted list (R117). DESIGN CHOICE 130: the spec names neither the order in which a row's
entries stream nor which of the compacted entries hold a place. -/
def capturedCount (gap : Nat) (l : List Scored) : Nat :=
  min 1024 (l.foldl (fun (a : Nat × Nat) e =>
    let k := (skey e.2).toNat
    let run := max a.1 k
    (run, if k ≥ run - gap then a.2 + 1 else a.2)) (0, 0)).2

/-- The row summary of the valid entries of a serving row (Table 6.2). -/
def summarise (epoch : Nat) (p : Pred) (masses : Bool) (src : Nat) (valid : List Scored) : Summary :=
  let kmax := kmaxOf valid
  let ref := refS epoch valid
  let edge := captureEdge kmax.toNat p.gap
  let ms := massesOf epoch p.kref p.w valid
  { empty := valid.isEmpty
    kmax := kmax
    ref := ref
    counts := countsOf p.kref p.w valid
    mhi := if masses then ms.hi else []
    mlo := if masses then ms.lo else []
    nacc := naccOf epoch ref valid
    edge := edge
    capture := topk 1024 ((valid.filter fun e => (skey e.2).toNat ≥ edge).map (shellOf src)) }

/-- Places of the shell area that a summary takes (R128). -/
def summaryPlaces (s : Summary) : Nat := if s.mhi.isEmpty then 136 else 392

/-- The summary of a training row: no histogram and no capture (R128, R196). -/
def summariseTrain (epoch : Nat) (valid : List Scored) : Summary :=
  let ref := refS epoch valid
  { empty := valid.isEmpty, kmax := kmaxOf valid, ref := ref, counts := [], mhi := [], mlo := [],
    nacc := naccOf epoch ref valid, edge := 0, capture := [] }

/-- The slice's exact partial at ref_g (R127). -/
def partialAt (s : Summary) (refG : Int) : Xs96 :=
  let j := (refG - s.ref) / 16
  if s.empty || j < 0 || j > 4 then 0 else s.nacc.getD j.toNat 0

/-! ## Coverage and re-scores (R131 to R133) -/

/-- n_s: the slice's entries in buckets 0 to jc. -/
def countThrough (s : Summary) (jc : Nat) : Nat := total (s.counts.take (jc + 1))

/-- q_s (R131). -/
def shellNeed (s : Summary) (jc kNeed : Nat) : Nat := min kNeed (countThrough s jc)

/-- The capture covers the row (R131). -/
def covers (p : Pred) (s : Summary) (jc kNeed : Nat) : Bool :=
  s.edge ≤ lowEdge p.kref p.w jc
    || (s.capture.filter fun e => bucket e.key.toNat p.kref p.w ≤ jc).length ≥ shellNeed s jc kNeed

/-- The shell from a list that covers the row: its first q_s entries in buckets 0 to jc (R131). -/
def shellFrom (p : Pred) (s : Summary) (jc kNeed : Nat) (l : List ShellEntry) : List ShellEntry :=
  ((ranked l).filter fun e => bucket e.key.toNat p.kref p.w ≤ jc).take (shellNeed s jc kNeed)

/-- Re-scores that a slice runs: none when covered, one when n_s ≤ 4,096, else two (R132). -/
def rescores (p : Pred) (s : Summary) (jc kNeed : Nat) : Nat :=
  if covers p s jc kNeed then 0 else if countThrough s jc ≤ 4096 then 1 else 2

/-- j2: the first sub-bucket of the dense case, from the sub-layout counts (R132). -/
def firstReaching (need : Nat) : Nat → List Nat → Nat → Nat
  | acc, c :: cs, j => if acc + c ≥ need then j else firstReaching need (acc + c) cs (j + 1)
  | _, [], j => j

/-- What the first re-score of the dense case compacts: every entry above high(jc) (R132). -/
def aboveEdge (p : Pred) (jc : Nat) (all : List ShellEntry) : List ShellEntry :=
  all.filter fun e => e.key.toNat > highEdge p.kref p.w jc

/-- What the re-scores of a row compact in all, from the slice's valid entries (R132); its sorted list keeps the first 1,024 (R117). -/
def rescored (p : Pred) (s : Summary) (jc kNeed : Nat) (all : List ShellEntry) : List ShellEntry :=
  topk 1024 <|
  let lo := lowEdge p.kref p.w jc
  if countThrough s jc ≤ 4096 then all.filter fun e => e.key.toNat ≥ lo
  else
    let above := aboveEdge p jc all
    let inside := all.filter fun e => bucket e.key.toNat p.kref p.w == jc
    let subs := inside.foldl (fun c e => c.modify (subBucket p.kref p.w jc e.key.toNat) (· + 1)) (List.replicate 256 0)
    let j2 := firstReaching (shellNeed s jc kNeed) above.length subs 0
    let edge := if j2 ≥ 255 then lo else highEdge p.kref p.w jc - (j2 + 1) * 2 ^ (p.w - 8) + 1
    above ++ inside.filter fun e => e.key.toNat ≥ edge

/-! ## The threshold predictor (R135, R136) -/

/-- Cold predictor state (R135). -/
def Pred.cold : Pred := { kref := 0xC9800001, w := 20, gap := 0 }

/-- bitlength (R136). -/
def bitlength (n : Nat) : Nat := if n = 0 then 0 else Nat.log2 n + 1

/-- predict_update (R136). -/
def predictUpdate (kmax kcut : Key) : Pred :=
  let span := kmax.toNat - kcut.toNat
  let w := min 23 (max 8 (bitlength (span / 16)))
  { kref := min 0xC9800001 (kmax.toNat + 64 * 2 ^ w), w := w, gap := min 0xFFFFFFFF (max 0x10000 (2 * span)) }

/-! ## Large selection (R138 to R142) -/

/-- Order of R119 with hidden position last. -/
def candRanks (a b : Cand) : Bool :=
  a.key > b.key || (a.key == b.key && (a.index < b.index || (a.index == b.index && a.pos < b.pos)))

/-- KREF of pass 1 (R139). -/
def selKref (top : Bool) : Nat := if top then 0xC9800001 else 0x80000000

/-- The lower of two keys. -/
def keyMin (a b : Key) : Key := if a ≤ b then a else b

/-- The higher of two keys. -/
def keyMax (a b : Key) : Key := if a ≤ b then b else a

/-- Buckets of a unit: (count, lowest, highest key) of a list of candidates under a bucket function. -/
def selHist (f : Nat → Nat) (l : List Cand) : List (Nat × Key × Key) :=
  l.foldl (fun h e => h.modify (f e.key.toNat) fun b =>
    (b.1 + 1, if b.1 = 0 then e.key else keyMin b.2.1 e.key, if b.1 = 0 then e.key else keyMax b.2.2 e.key))
    (List.replicate 256 (0, 0, 0))

/-- Two histograms of a pass added (R138: counts and key bounds merged over the group). -/
def selAdd (a b : List (Nat × Key × Key)) : List (Nat × Key × Key) :=
  (List.range 256).map fun j =>
    let x := a.getD j (0, 0, 0)
    let y := b.getD j (0, 0, 0)
    if x.1 = 0 then y else if y.1 = 0 then x else (x.1 + y.1, keyMin x.2.1 y.2.1, keyMax x.2.2 y.2.2)

/-- Counts of two tie tables by chunk, added, ascending chunk. -/
def tiesAdd (a b : List (Nat × Nat)) : List (Nat × Nat) :=
  let chunks := ascending ((a ++ b).map (·.1))
  chunks.map fun c => (c, total (((a ++ b).filter fun p => p.1 == c).map (·.2)))

/-- Tie counts of candidates by chunk (R140). -/
def tiesOf (l : List Cand) : List (Nat × Nat) :=
  let chunks := ascending (l.map fun e => e.index / 256)
  chunks.map fun c => (c, (l.filter fun e => e.index / 256 == c).length)

/-- tie_boundary: the chunk cb and the entries r taken of it (R141). -/
def tieBoundary (need : Nat) : Nat → List (Nat × Nat) → Nat × Nat
  | acc, (c, n) :: rest => if acc + n ≥ need then (c, need - acc) else tieBoundary need (acc + n) rest
  | _, [] => (16384, 0)

end Sys2Proof.Machine
end

