-- ==== Sys2Proof/Machine/Mortar.lean ====
section
/-! DEFINITION. Mortar: the tree, the records and how they combine, the cut, the survivors, the draw, log-probabilities,
hidden-gradient reduction (R156 to R161, R183 to R201). -/

namespace Sys2Proof.Machine

/-! ## The merge tree (R183) -/

/-- One step from a to b on a line of m with wrap-around, toward increasing coordinates where both ways are equally short (R183). -/
def stepToward (m a b : Nat) : Nat :=
  if a = b then a
  else
    let up := (b + m - a) % m
    let down := (a + m - b) % m
    if up ≤ down then (a + 1) % m else (a + m - 1) % m

/-- The parent of slice s in the tree rooted at r of a torus of x columns and y rows; none at the root (R183). -/
def parentOf (x y s r : Nat) : Option Nat :=
  if s = r then none
  else
    let sx := s % x
    let sy := s / x
    let rx := r % x
    let ry := r / x
    if sx ≠ rx then some (sy * x + stepToward x sx rx) else some (stepToward y sy ry * x + sx)

/-- The children of slice s, ascending (R183, R184). -/
def childrenOf (x y s r : Nat) : List Nat := (List.range (x * y)).filter fun c => parentOf x y c r == some s

/-! ## Phase A (R186 to R190) -/

/-- The neutral MA_SUM (Table 9.2). -/
def neutralA (key : RowKey) (step16 : Nat) : MaSum :=
  { key := key, step16 := step16, empty := true, masses := false, trunc := false, tmis := false, failed := false, ref := 0,
    kmax := keyNone, tdv := false, tdig := 0, tail := 0, tailMhi := 0, counts := [], mhi := [], mlo := [] }

/-- The first bucket at which the cumulative count reaches a target. -/
def firstBucket (target : Nat) (counts : List Nat) : Option Nat :=
  let j := firstReaching target 0 counts 0
  if j < counts.length then some j else none

/-- Truncation at the first bucket of cumulative count 1,024; folded counts and masses join TAIL (R188). -/
def truncA (r : MaSum) : MaSum :=
  match firstBucket 1024 r.counts with
  | some j =>
    let n := j + 1
    let folded := r.mhi.drop n
    { r with
      trunc := true
      tail := r.tail + total (r.counts.drop n)
      tailMhi := if folded.isEmpty then r.tailMhi else addUp (folded.foldl addUp 0) r.tailMhi
      counts := r.counts.take n, mhi := r.mhi.take n, mlo := r.mlo.take n }
  | none => r

/-- Length up to the highest non-empty bucket (R188). -/
def usedLen (counts : List Nat) : Nat := (counts.reverse.dropWhile (· == 0)).length

/-- A slice's own MA_SUM from its summary (R188, R186). -/
def ownA (key : RowKey) (step16 : Nat) (masses : Bool) (tdig : Option (BitVec 16)) (s : Summary) : MaSum :=
  let m := masses && !s.empty
  let r : MaSum :=
    { neutralA key step16 with
      empty := s.empty, masses := m, ref := if s.empty then 0 else s.ref, kmax := s.kmax,
      tdv := tdig.isSome, tdig := tdig.getD 0,
      counts := s.counts, mhi := if m then s.mhi else [], mlo := if m then s.mlo else [] }
  let r := truncA r
  if r.trunc then r
  else
    let n := usedLen r.counts
    { r with counts := r.counts.take n, mhi := r.mhi.take n, mlo := r.mlo.take n }

/-- Masses of a record brought to a higher reference (R125, R189). -/
def rescaleA (ref : Int) (r : MaSum) : MaSum :=
  if r.empty || r.ref ≥ ref then r
  else
    let d := (ref - r.ref).toNat
    { r with mhi := r.mhi.map (scaleMass .up d), mlo := r.mlo.map (scaleMass .down d), tailMhi := scaleMass .up d r.tailMhi }

/-- combine_a (R189). -/
def combineA (a b : MaSum) : MaSum :=
  let ref := if a.empty then b.ref else if b.empty then a.ref else max a.ref b.ref
  let a := rescaleA ref a
  let b := rescaleA ref b
  let lens := ([a, b].filter (·.trunc)).map (·.counts.length)
  let lim := match lens with
    | [] => max a.counts.length b.counts.length
    | l :: ls => ls.foldl min l
  let masses := a.masses || b.masses
  let idx := List.range lim
  let t := (a.mhi.drop lim).foldl addUp a.tailMhi
  let u := (b.mhi.drop lim).foldl addUp b.tailMhi
  truncA
    { key := a.key, step16 := a.step16
      empty := a.empty && b.empty
      masses := masses
      trunc := a.trunc || b.trunc
      tmis := a.tmis || b.tmis || (a.tdv && b.tdv && a.tdig != b.tdig)
      failed := a.failed || b.failed
      ref := if a.empty && b.empty then 0 else ref
      kmax := keyMax a.kmax b.kmax
      tdv := a.tdv || b.tdv
      tdig := if a.tdv then a.tdig else b.tdig
      tail := a.tail + b.tail + total (a.counts.drop lim) + total (b.counts.drop lim)
      tailMhi := addUp t u
      counts := idx.map fun j => a.counts.getD j 0 + b.counts.getD j 0
      mhi := if masses then idx.map fun j => addUp (a.mhi.getD j 0) (b.mhi.getD j 0) else []
      mlo := if masses then idx.map fun j => addDown (a.mlo.getD j 0) (b.mlo.getD j 0) else [] }

/-! ## The cut (R156, R157) -/

/-- k_cap (R156). -/
def kCap (s : Settings) : Nat := if s.temp = 0 then 1 else if s.topk = 0 then 1024 else s.topk

/-- The row's cut involves p (R157). -/
def usesP (s : Settings) : Bool := s.temp ≠ 0 && s.topp ≠ 0x3F800000#32

/-- The row's cut involves min-p (R157). -/
def usesM (s : Settings) : Bool := s.temp ≠ 0 && s.minp ≠ 0

/-- Rows whose cut involves p or min-p carry masses (R157). -/
def usesMasses (s : Settings) : Bool := usesP s || usesM s

/-- μ of R156: RNE(s_max + RNE(ln m)). -/
def minpEdge (s : Settings) (kmax : Key) : F32 := posZero (fAdd (unkey kmax) (lnF32 s.minp))

/-- LO(j) ≥ p × ZHI, exactly. -/
def massReaches (p lo zhi : F32) : Bool :=
  let a := dyOf p
  let b := dyOf zhi
  let l := dyOf lo
  (addDy l (-(a.1 * b.1), a.2 + b.2)).1 ≥ 0

/-- LO of each bucket from merged MLO and cumulative counts (R157). -/
def loList (counts : List Nat) (mlo : List F32) : List F32 :=
  ((counts.zip mlo).foldl (fun (a : Nat × F32 × List F32) e =>
    let c := a.1 + e.1
    let m := addDown a.2.1 e.2
    let lo := fAddR .down m (packDy .near (-(c : Int)) (-64))
    (c, m, a.2.2 ++ [lo])) (0, 0, [])).2.2

/-- MA_CUT at the root from the merged record (R157, R190). -/
def cutOf (s : Settings) (p : Pred) (r : MaSum) : MaCut :=
  let n := total r.counts + r.tail
  let jk := (firstBucket (min (kCap s) n) r.counts).getD 255
  let j1 := (firstBucket (min 1024 n) r.counts).getD 255
  let jm := if usesM s then bucket (skey (minpEdge s r.kmax)).toNat p.kref p.w else 255
  let zhi := addUp (r.mhi.foldl addUp 0) r.tailMhi
  let jp := if usesP s then
      (match (loList r.counts r.mlo).findIdx? (massReaches s.topp · zhi) with | some j => j | none => 255)
    else 255
  let jc := min (min jk jm) (min jp j1)
  { key := r.key, step16 := r.step16, refG := r.ref, kmax := r.kmax, jc := jc,
    kNeed := min (kCap s) (total (r.counts.take (jc + 1))), n := n, tmis := r.tmis }

/-- MA_CUT of a training token (R196). The rule gives ref_g; N, JC and K_NEED are DESIGN CHOICE 156. -/
def cutTrain (r : MaSum) : MaCut :=
  { key := r.key, step16 := r.step16, refG := r.ref, kmax := r.kmax, jc := 0, kNeed := 1,
    n := if r.empty then 0 else 1, tmis := false }

/-! ## Phase B (R191, R194) -/

/-- The neutral MB_SHELL (Table 9.2). -/
def neutralB (key : RowKey) (step16 : Nat) (refG : Int) : MbShell :=
  { key := key, step16 := step16, refG := refG, nacc := 0, entries := [], failed := false }

/-- What a duplicate index in two shells means (R194). -/
inductive DupKind where
  | same | differ
  deriving DecidableEq, Repr

/-- A duplicate found at a node: kind, index, the two SRC values. -/
structure Dup where
  kind : DupKind
  index : Nat
  src1 : Nat
  src2 : Nat
  deriving DecidableEq, Repr

/-- Duplicates of a second list against a first. -/
def dupsOf (a b : List ShellEntry) : List Dup :=
  b.filterMap fun e => (a.find? fun f => f.index == e.index).map fun f =>
    { kind := if f.key = e.key then .same else .differ, index := e.index, src1 := f.src, src2 := e.src }

/-- Combination of two MB_SHELL records with K_need, and the duplicates met (R191, R194). -/
def combineB (kNeed : Nat) (a b : MbShell) : MbShell × List Dup :=
  let ds := dupsOf a.entries b.entries
  let a' := a.entries.map fun e =>
    match b.entries.find? fun f => f.index == e.index with
    | some f => if f.key = e.key && f.src < e.src then f else e
    | none => e
  let b' := b.entries.filter fun e => !(a.entries.any fun f => f.index == e.index)
  ({ key := a.key, step16 := a.step16, refG := a.refG, nacc := a.nacc + b.nacc,
     entries := (ranked (a' ++ b')).take kNeed,
     failed := a.failed || b.failed || ds.any (·.kind == .differ) }, ds)

/-! ## Survivors, draw, log-probability (R156, R158, R159, R161, R192, R193) -/

/-- The term of a shell entry at ref_g (R192). -/
def entryTerm (epoch : Nat) (refG : Int) (e : ShellEntry) : Nat := termOf epoch refG (unkey e.key)

/-- The smallest prefix whose terms reach p × z, or the length (R158). -/
def prefixReaching (p : F32) (z : Nat) : Nat → Nat → List Nat → Nat
  | _, k, [] => k
  | acc, k, t :: ts =>
    let d := dyOf p
    let acc := acc + t
    -- acc ≥ p z
    if (addDy (acc, 0) (-(d.1 * z), d.2)).1 ≥ 0 then k + 1 else prefixReaching p z acc (k + 1) ts

/-- n of R158 over list L with its terms. -/
def survivorCount (s : Settings) (kmax : Key) (total_ z : Nat) (l : List (ShellEntry × Nat)) : Nat :=
  let nk := min (kCap s) total_
  let nm := if usesM s then
      let mu := minpEdge s kmax
      (l.takeWhile fun e => fLe mu (unkey e.1.key)).length
    else total_
  let np := if usesP s then prefixReaching s.topp z 0 0 (l.map (·.2)) else total_
  min (min nk nm) (min np l.length)

/-- Y of a survivor in units of 2^-24: x plus the noise of its DRAW word (R159, R193). -/
def drawY (epoch : Nat) (e : ShellEntry) (word : Word) : Int :=
  xOf epoch (unkey e.key) * 2 ^ (24 - fracBits epoch) + noise word

/-- The better of two draws: the higher Y, or the lower index when equal; VALID = 0 loses (R193). -/
def betterDraw (a b : MdDraw) : MdDraw :=
  if !b.valid then a
  else if !a.valid then b
  else if a.y > b.y || (a.y == b.y && a.index ≤ b.index) then a else b

/-- The best draw of a list of survivors with their words. -/
def bestOf (epoch : Nat) (key : RowKey) (step16 : Nat) (l : List (ShellEntry × Word)) : MdDraw :=
  l.foldl (fun b e => betterDraw b { key := key, step16 := step16, valid := true, y := drawY epoch e.1 e.2, index := e.1.index })
    { key := key, step16 := step16, valid := false, y := 0, index := noIndex }

/-- The root's result from the merged shell (R192): list L with terms, z, n, survivor sum; the winner when none need be drawn. -/
def resultOf (epoch : Nat) (s : Settings) (c : MaCut) (b : MbShell) : RowResult :=
  let l := b.entries.map fun e => (e, entryTerm epoch c.refG e)
  let z := b.nacc.toNat
  let n := survivorCount s c.kmax c.n z l
  let sum := total ((l.take n).map (·.2))
  let decided := s.temp = 0 || n ≤ 1
  { list := l, z := z, n := n, s := sum, kmax := c.kmax, refG := c.refG,
    winner := if decided then (l.head?.map fun e => e.1.index) else none,
    noCandidate := false }

/-- The term of an index among the entries of L. -/
def termOfIndex (r : RowResult) (i : Nat) : Nat := ((r.list.find? fun e => e.1.index == i).map (·.2)).getD 0

/-- LP16 of a token of a row in a log-probability mode (R161, R215). -/
def rowLp16 (survivorMode : Bool) (temp : F32) (r : RowResult) (i : Nat) : Nat :=
  if survivorMode then (if temp = 0 then 0 else lp16 (termOfIndex r i) r.s) else lp16 (termOfIndex r i) r.z

/-- kcut: the key of the lowest survivor (R136, R158). -/
def kcutOf (r : RowResult) : Key := (((r.list.take r.n).getLast?).map fun e => e.1.key).getD keyNone

/-! ## Hidden-gradient elements (R43, R199, R200) -/

/-- binary32 to XS96 at ref 0, with the clamp's count (R43); a NaN, of which the rule does not speak, is X = 0 and one clamp (DESIGN CHOICE
155). -/
def toXs96 (v : F32) : Xs96 × Nat :=
  let lim : Int := 2 ^ 80
  if isNan v then (0, 1)
  else match ofBits v with
    | .inf s => (BitVec.ofInt 96 (if s then -lim else lim), 1)
    | _ =>
      let d := dyOf v
      let past := fLt 0x47800000#32 v || fLt v 0xC7800000#32
      if past then (BitVec.ofInt 96 (if d.1 < 0 then -lim else lim), 1) else (BitVec.ofInt 96 (rneInt d.1 (d.2 + 64)), 0)

/-- XS96 at ref 0 to binary32 (R43). -/
def ofXs96 (x : Xs96) : F32 := packDy .near x.toInt (-64)

/-- stage_sum of R199 in binary32 over a line, o the owner's coordinate. -/
def stageSum (p : List F32) (o : Nat) : F32 :=
  let m := p.length
  ((List.range m).drop 2).foldl (fun acc i => fAdd acc (p.getD ((o + i) % m) 0)) (p.getD ((o + 1) % m) 0)
  |> fun acc => if m ≤ 1 then p.getD 0 0 else fAdd acc (p.getD o 0)

end Sys2Proof.Machine
end

