-- ==== Sys2Proof/Machine/Verify.lean ====
section
/-! DEFINITION. Draft trees: checks of the descriptor and of the whole tree, path counts, the verification walk (R204 to R215). -/

namespace Sys2Proof.Machine

/-- The tree descriptor of 16 bytes (Table 10.1). -/
def treeOf (bs : Bytes) : TreeDesc :=
  let w := leAt bs 0 4
  { node := field w 0 6, parent := field w 6 6, depth := field w 12 5, last := field w 17 6, spec := bitOf w 23,
    draft := field (leAt bs 4 4) 0 22, base := field (leAt bs 8 4) 0 16 }

/-- Reserved bits of the descriptor, which are reserved bits of the header (R205). -/
def treeReserved (bs : Bytes) : Bool :=
  field (leAt bs 0 4) 24 8 != 0 || field (leAt bs 4 4) 22 10 != 0 || field (leAt bs 8 4) 16 16 != 0 || leAt bs 12 4 != 0

/-- The node with a number. -/
def nodeAt (ts : List TreeDesc) (n : Nat) : Option TreeDesc := ts.find? fun t => t.node == n

/-- Every row of the tree is held (R206). -/
def treeComplete (ts : List TreeDesc) : Bool :=
  match ts with
  | [] => false
  | t :: _ => (List.range (t.last + 1)).all fun n => (nodeAt ts n).isSome

/-- The whole-tree check of R204 and R206: nodes up to LAST, parents below their children, depths, siblings, agreement on LAST and BASE,
BASE = WINDOW_LEN. -/
def treeOk (window : Nat) (ts : List TreeDesc) : Bool :=
  match ts with
  | [] => false
  | t0 :: _ =>
    ts.all fun t =>
      t.last == t0.last && t.base == t0.base && t.base == window && t.node ≤ t.last
        && (t.node == 0 || (t.parent < t.node && match nodeAt ts t.parent with | some p => t.depth == p.depth + 1 | none => false))
        && ts.all (fun u => u.node == t.node || u.node == 0 || t.node == 0 || u.parent != t.parent || u.draft != t.draft)

/-- Nodes from 1 to v on v's path, deepest first, with fuel for the depth. -/
def pathOf (ts : List TreeDesc) : Nat → Nat → List TreeDesc
  | 0, _ => []
  | k + 1, v =>
    if v = 0 then []
    else match nodeAt ts v with
      | some t => t :: pathOf ts k t.parent
      | none => []

/-- The draft tokens on the path to node v (R208). -/
def pathDrafts (ts : List TreeDesc) (v : Nat) : List Nat := (pathOf ts 17 v).map (·.draft)

/-- Jar counts with the path counts added, saturating at 16,383 (R208). -/
def addCounts (jars : List (Nat × Nat)) (drafts : List Nat) : List (Nat × Nat) :=
  drafts.foldl (fun l d =>
    if l.any fun p => p.1 == d then l.map fun p => if p.1 = d then (p.1, min 16383 (p.2 + 1)) else p
    else l ++ [(d, 1)]) jars

/-- Children of a node, ascending (R204, R209). -/
def childrenAt (ts : List TreeDesc) (v : Nat) : List TreeDesc :=
  (ascending ((ts.filter fun t => t.node != 0 && t.parent == v).map (·.node))).filterMap (nodeAt ts)

/-- Survivors of a row: its first n entries with terms. -/
def survivors (r : RowResult) : List (ShellEntry × Nat) := r.list.take r.n

/-- The walk's test of the children of one node: the child taken, or none; what its rejected siblings exclude; and the nodes for which
an ACCEPT word was formed (R209). -/
def testChildren (greedy : Bool) (accept : Nat → Word) (r : RowResult) :
    List TreeDesc → Nat → List Nat → List Nat → Option TreeDesc × List Nat × List Nat
  | [], _, excl, words => (none, excl, words)
  | c :: cs, srem, excl, words =>
    match (survivors r).find? fun e => e.1.index == c.draft with
    | none => testChildren greedy accept r cs srem excl words
    | some (_, t) =>
      let words := if greedy then words else words ++ [c.node]
      let ok := if greedy then (survivors r).head?.map (fun e => e.1.index) == some c.draft
                else (2 * (accept c.node).toNat + 1) * srem < 2 ^ 33 * t
      if ok then (some c, excl, words) else testChildren greedy accept r cs (srem - t) (c.draft :: excl) words

/-- Outcome of verify: accepted nodes in path order with the row each was tested in, the last node, the bonus token, and the addresses
of the ACCEPT and DRAW words formed. -/
structure Walk where
  accepted : List (TreeDesc × Nat)
  node : Nat
  bonus : Option Nat
  accepts : List Nat
  draws : List Nat
  deriving DecidableEq, Repr

/-- The survivors of row v over which the bonus is drawn (R210). -/
def bonusRest (r : RowResult) (excl : List Nat) : List ShellEntry :=
  ((survivors r).map (·.1)).filter fun e => !(excl.contains e.index)

/-- The bonus draw over the survivors of row v that remain (R210). -/
def bonusDraw (epoch : Nat) (greedy : Bool) (word : Nat → Word) (r : RowResult) (excl : List Nat) : Option Nat :=
  let rest := bonusRest r excl
  match rest with
  | [] => none
  | [e] => some e.index
  | e :: _ =>
    if greedy then some e.index
    else some (bestOf epoch ⟨0, 0, false⟩ 0 (rest.map fun e => (e, word e.index))).index

/-- verify (R209), with fuel for the depth: `rows v` is the result of row v, `acc d n` the ACCEPT word of node n at depth d,
`drw d i` the DRAW word of index i at depth d. -/
def verifyWalk (epoch : Nat) (greedy : Bool) (ts : List TreeDesc) (rows : Nat → Option RowResult)
    (acc drw : Nat → Nat → Word) : Nat → Nat → Nat → List (TreeDesc × Nat) → List Nat → Walk
  | 0, v, _, run, ws => { accepted := run, node := v, bonus := none, accepts := ws, draws := [] }
  | k + 1, v, d, run, ws =>
    match rows v with
    | none => { accepted := run, node := v, bonus := none, accepts := ws, draws := [] }
    | some r =>
      let (next, excl, ws) := testChildren greedy (acc d) r (childrenAt ts v) r.s [] ws
      match next with
      | some c => verifyWalk epoch greedy ts rows acc drw k c.node (d + 1) (run ++ [(c, v)]) ws
      | none =>
        let rest := (bonusRest r excl).map (·.index)
        { accepted := run, node := v, bonus := bonusDraw epoch greedy (drw d) r excl, accepts := ws
          draws := if greedy || rest.length ≤ 1 then [] else rest }

end Sys2Proof.Machine
end

