-- ==== Sys2Proof/Machine/Ops.lean ====
section
/-! DEFINITION. Operations that many commands share: group arithmetic, counters, alarms, log and trace records, event records,
HMP transactions, Broddel messages, scratch blocks, violations and freezes, status codes and their delivery. -/

namespace Sys2Proof.Machine

/-! ## The group (R16 to R21, R413, R419) -/

/-- In solo service, or alone: every class targets this slice (R314). -/
def groupSize (s : State) : Nat := if s.group.formed then s.group.size else 1

/-- The slice is a hole (R419). -/
def isHole (s : State) (n : Nat) : Bool := s.group.holes.contains n

/-- Members: every slice number that is no hole; this slice alone in solo service (R182, R449). -/
def members (s : State) : List Nat :=
  if s.group.formed then (List.range s.group.size).filter fun n => !(isHole s n) else [s.group.slice]

/-- The other members. -/
def others (s : State) : List Nat := (members s).filter (· ≠ s.group.slice)

/-- The next member after n in ascending slice number with wrap-around (R413); none when there is no other. -/
def nextMember (s : State) (n : Nat) : Option Nat :=
  let g := s.group.size
  ((List.range (g - 1)).map fun i => (n + 1 + i) % g).find? fun m => !(isHole s m)

/-- The keeper of slice n (R413): none in a group of one or in solo service. -/
def keeperOf (s : State) (n : Nat) : Option Nat :=
  if s.group.formed && s.group.size > 1 then nextMember s n else none

/-- The slice that acts for slice n: its keeper where n is a hole (R419). -/
def acting (s : State) (n : Nat) : Nat :=
  if s.group.formed then (if isHole s n then (nextMember s n).getD n else n) else s.group.slice

/-- Holder of partition or tenant u (R244). -/
def holderOf (s : State) (u : Nat) : Nat := acting s (u % groupSize s)

/-- The tick master, or its keeper (R419). -/
def tickMaster (s : State) : Nat := acting s s.group.master

/-- This slice. -/
def me (s : State) : Nat := s.group.slice

/-- The vocabulary in force: the group's, or the solo range's (R19, R450). -/
def vocab (s : State) : Nat := if s.group.formed then s.group.vocab else s.group.soloVocab

/-- Chunks of the vocabulary (R15). -/
def chunksOf (v : Nat) : Nat := ceilDiv v 256

/-- default_ranges of R19. -/
def defaultRanges (v g : Nat) : List RangeEntry :=
  let c := chunksOf v
  let base := c / g
  let extra := c % g
  (List.range g).map fun i => { first := i * base + min i extra, count := base + (if i < extra then 1 else 0) }

/-- Runs of slice n: its range, then its second runs (R16, R18); none for a hole or an idle member (R419, R430). -/
def runsOf (s : State) (n : Nat) : List RangeEntry :=
  if s.group.formed then
    if isHole s n || s.group.idle.contains n then []
    else ((s.group.ranges[n]?).toList ++ (s.group.second.filter fun p => p.1 == n).map (·.2)).filter fun r => r.count > 0
  else [s.group.soloRun]

/-- Runs of this slice. -/
def myRuns (s : State) : List RangeEntry := runsOf s (me s)

/-- An index lies in runs. -/
def inRuns (rs : List RangeEntry) (i : Nat) : Bool := rs.any fun r => r.first ≤ i / 256 && i / 256 < r.first + r.count

/-- The offset of an index within runs, the first run first (R18, R48). -/
def offsetIn : List RangeEntry → Nat → Nat
  | [], _ => 0
  | r :: rs, i =>
    if r.first ≤ i / 256 && i / 256 < r.first + r.count then i - 256 * r.first else 256 * r.count + offsetIn rs i

/-- The index at an offset within runs. -/
def indexAt : List RangeEntry → Nat → Nat
  | [], _ => noIndex
  | r :: rs, o => if o < 256 * r.count then 256 * r.first + o else indexAt rs (o - 256 * r.count)

/-- Indices of runs inside the vocabulary, in ascending order whichever run comes first (R15, R24). -/
def indicesOf (rs : List RangeEntry) (v : Nat) : List Nat :=
  (sortBy (fun (a b : RangeEntry) => a.first < b.first) rs).flatMap fun r => ((List.range (256 * r.count)).map fun o => 256 * r.first + o).filter (· < v)

/-- Indices that this slice scores. -/
def myIndices (s : State) : List Nat := indicesOf (myRuns s) (vocab s)

/-- The slice that owns an index. -/
def ownerOf (s : State) (i : Nat) : Option Nat :=
  (members s).find? fun n => inRuns (runsOf s n) i

/-- X and Y of the merge trees: 1 × 1 in solo service (R182). -/
def treeX (s : State) : Nat := if s.group.formed then s.group.x else 1

/-- Y of the merge trees. -/
def treeY (s : State) : Nat := if s.group.formed then s.group.y else 1

/-- The entry of a request in this slice's copy of the table (R220). -/
def reqOf (s : State) (q : Nat) : Option ReqEntry := s.reqs.find? fun e => e.req == q

/-- The entry of a request changed. -/
def updReq (q : Nat) (f : ReqEntry → ReqEntry) (s : State) : State :=
  { s with reqs := updFirst (fun e => e.req == q) f s.reqs }

/-- A slice is being drained (R429). -/
def draining (s : State) (n : Nat) : Bool := s.group.drain.any fun d => d.slice == n && !d.rejoin

/-- The home slice of a request id: its entry's, or id mod G (R21); a hole, an idle or a draining member is passed over (R419, R431). -/
def homeOf (s : State) (q : Nat) : Nat :=
  if !s.group.formed then me s
  else match reqOf s q with
    | some e => acting s e.home
    | none =>
      let g := s.group.size
      let ok := fun (n : Nat) => !(isHole s n) && !(s.group.idle.contains n) && !(draining s n)
      (((List.range g).map fun i => (q + i) % g).find? ok).getD (q % g)

/-- This slice homes the request. -/
def homedHere (s : State) (e : ReqEntry) : Bool := homeOf s e.req == me s

/-- Terminal states (Table 11.1). -/
def ReqState.terminal : ReqState → Bool
  | .done | .cancelled | .failed | .evicted => true
  | _ => false

/-- Code of Table 11.1. -/
def ReqState.code : ReqState → Nat
  | .free => 0 | .admitted => 1 | .prefill => 2 | .active => 3 | .throttled => 4 | .late => 5
  | .paused => 6 | .draining => 7 | .done => 8 | .cancelled => 9 | .failed => 10 | .evicted => 11

/-- State of a code (Table 11.1). -/
def ReqState.ofCode (n : Nat) : ReqState :=
  match n with
  | 1 => .admitted | 2 => .prefill | 3 => .active | 4 => .throttled | 5 => .late | 6 => .paused | 7 => .draining
  | 8 => .done | 9 => .cancelled | 10 => .failed | 11 => .evicted | _ => .free

/-! ## Steps (R56, R58) -/

/-- The step that a change accepted now belongs to (R58). -/
def stepNow (s : State) : Nat := if s.step.opened && !s.step.stamped then s.step.step else s.step.step + 1

/-- Changes of the stamped step are still due from other members (R59, R220, R316). -/
def publishing (s : State) : Bool := !s.step.syncsDue.isEmpty

/-- Eocia runs: Whisk runs its image and is not halted (R344, R410, R448). -/
def eociaRuns (s : State) : Bool := s.whisk == .running && !(s.dbg.halted.getLsbD 0)

/-! ## Counters and traces (R341, R462, R463) -/

/-- A change of the counters. -/
def count (f : Counters → Counters) (s : State) : State := { s with cnt := f s.cnt }

/-- A trace event of a source: generated at or above the threshold, emitted while the source's buffer has room (R463). -/
def trace (src prio event : Nat) (arg0 : Word) (arg1 : BitVec 64) (s : State) : State :=
  if prio < ((s.tele.thresh.getD src 4).toNat) then s
  else
    let s := count (fun c => { c with traceGen := c.traceGen + 1 }) s
    if (s.tele.traces.filter fun t => t.src == src).length < 4 * (prio + 1) then
      { s with tele := { s.tele with traces := s.tele.traces ++
          [{ src := src, prio := prio, event := event, arg0 := arg0, timeNs := s.timer, step := s.step.step, arg1 := arg1 }] } }
    else count (fun c => { c with traceDrop := c.traceDrop + 1, traceDropS := c.traceDropS.modify src (· + 1) }) s

/-- A performance counter advanced (R465). -/
def perf (offset n : Nat) (s : State) : State :=
  let p := s.tele.perf
  let p := if p.any fun e => e.1 == offset then p.map fun e => if e.1 = offset then (e.1, e.2 + BitVec.ofNat 64 n) else e
           else p ++ [(offset, BitVec.ofNat 64 n)]
  { s with tele := { s.tele with perf := p } }

/-! ## Alarms (R457 to R459) -/

/-- Alarm codes whose ARG is a mask (Table 22.2). -/
def alarmMask (code : Nat) : Bool := [0x0E, 0x10, 0x15, 0x17, 0x18, 0x1B].contains code

/-- An alarm: merged into a waiting entry of its code, else a new entry (R459). -/
def alarm (code : Nat) (arg : BitVec 64) (s : State) : State :=
  let s := count (fun c => { c with alarmGen := c.alarmGen + 1 }) s
  let s := { s with regs := { s.regs with irqStatus := s.regs.irqStatus ||| 0b00001#5 } }
  if s.tele.alarms.any fun a => a.code == code then
    let s := count (fun c => { c with alarmCoalesced := c.alarmCoalesced + 1 }) s
    { s with tele := { s.tele with alarms := s.tele.alarms.map fun a =>
        if a.code = code then { a with count := min (2 ^ 32 - 1) (a.count + 1), lastNs := s.timer,
                                       arg := if alarmMask code then a.arg ||| arg else a.arg } else a } }
  else { s with tele := { s.tele with alarms := s.tele.alarms ++ [⟨code, 1, s.timer, s.timer, arg⟩] } }

/-- A field placed in a 64-bit alarm or log argument. -/
def arg64 (v lo : Nat) : BitVec 64 := BitVec.ofNat 64 (v * 2 ^ lo)

/-! ## Fresh values of the DRBG (R398) -/

/-- n bytes from the DRBG and the counter moved on (log entry 10). -/
def drbg (n : Nat) (s : State) : Bytes × State :=
  ((List.range n).map fun i => Config.drbgByte s.fresh i, { s with fresh := s.fresh + 1 })

/-! ## HMP (R352 to R354, R363) -/

/-- A partition is frozen. -/
def partFrozen (s : State) (p : Nat) : Bool := p < 12 && s.regs.frozenPart.getLsbD p

/-- A partition's scrub runs. -/
def scrubbing (s : State) (p : Nat) : Bool := p < 12 && s.regs.scrub.getLsbD p

/-- The lowest free tag of 512 (R352). -/
def freeTag (ts : List Txn) : Option Nat := (List.range 512).find? fun t => !(ts.any fun x => x.tag == some t)

/-- A transaction may be issued: HMP and its partition are not frozen, and it waits for no retry (R363, Table 17.10). -/
def mayIssue (s : State) (t : Txn) : Bool :=
  t.tag.isNone && !t.waiting && !s.regs.frozenHmp && !(partFrozen s t.part)

/-- Transactions in order, each of a kind that may be issued given a tag while tags are free. -/
def issueFrom (s : State) (ok : Txn → Bool) : List Txn → List Txn → Nat → List Txn × Nat
  | done, [], n => (done, n)
  | done, t :: ts, n =>
    if ok t && mayIssue s t then
      match freeTag (done ++ ts) with
      | some tag => issueFrom s ok (done ++ [{ t with tag := some tag }]) ts (n + 1)
      | none => issueFrom s ok (done ++ [t]) ts n
    else issueFrom s ok (done ++ [t]) ts n

/-- A bulk read that waits for RDB: latency-bound reads issue ahead of it (R353). -/
def yields (t : Txn) : Bool := !t.write && t.bulk && t.ch == .rdb

/-- HMP_AQ_LEN of a transaction: its 64-byte units, minus one (R347). -/
def Txn.aqLen (t : Txn) : Nat := t.units - 1

/-- HMP_WR_STRB of a write, one bit for each byte of its units: high on the transfer's bytes (R347, R352). -/
def Txn.wrStrb (t : Txn) : List Bool := (List.range (64 * t.units)).map fun b => t.lead ≤ b && b < t.lead + t.len

/-- HMP_WR_DATA of a write: the transfer's bytes at their place in its units (R347). -/
def Txn.wrData (t : Txn) : Bytes := padTo (64 * t.units) (List.replicate t.lead 0 ++ t.data)

/-- Waiting transactions are issued as tags and thaws allow, bulk reads on RDB last (R352, R353, R363); each issue is traced, its tag below
its length in ARG0 (log entry 52). -/
def hmpIssue (s : State) : State :=
  let a := issueFrom s (fun t => !(yields t)) [] s.hmp.txns 0
  let r := issueFrom s yields [] a.1 a.2
  let now := (s.hmp.txns.zip r.1).filter fun p => p.1.tag.isNone && p.2.tag.isSome
  now.foldl (fun s p => trace 4 0 0 (BitVec.ofNat 32 (p.2.tag.getD 0 + 64 * p.2.units * 2 ^ 16)) (BitVec.ofNat 64 p.2.addr) s)
    { s with hmp := { s.hmp with txns := r.1, issued := s.hmp.issued + r.2 } }

/-- A transaction's place: aligned address, 64-byte units, bytes before the transfer's, bytes of the transfer (R352). -/
structure Piece where
  addr : Nat
  units : Nat
  lead : Nat
  len : Nat
  deriving DecidableEq, Repr

/-- Transactions of a transfer: whole aligned 64-byte units that cover it, each within one 4 KiB page (R352). -/
def pieces : Nat → Nat → Nat → List Piece
  | 0, _, _ => []
  | n + 1, addr, len =>
    if len = 0 then []
    else
      let base := addr / 64 * 64
      let k := min len (4096 - addr % 4096)
      ⟨base, ceilDiv (addr - base + k) 64, addr - base, k⟩ :: pieces n (addr + k) (len - k)

/-- A write over HMP: its transactions share a job, whose completion is `after` (R353). Byte enables cover exactly the bytes (R352). -/
def hmpWrite (part addr : Nat) (data : Bytes) (after : AfterWrite) (s : State) : State :=
  let j := s.hmp.nextJob
  let ps := pieces (data.length / 4096 + 2) addr data.length
  let ts := ps.map fun p =>
    let off := p.addr + p.lead - addr
    Txn.mk none true .rdb false p.addr p.units p.lead p.len part j off (sub data off p.len) after false false
  hmpIssue { s with hmp := { s.hmp with txns := s.hmp.txns ++ ts, nextJob := j + 1 } }

/-- The channel of a bulk stream's nth transaction: they alternate, so that both channels stay busy (R353, DESIGN CHOICE 142). -/
def bulkCh (n : Nat) : RdCh := if n % 2 = 0 then .rda else .rdb

/-- A read over HMP for a purpose (R353, Table 17.4): a latency-bound one on RDB, or a bulk stream, named by RDA, over both channels. -/
def hmpRead (part addr len : Nat) (ch : RdCh) (p : Purpose) (s : State) : State :=
  let j := s.hmp.nextJob
  let ps := pieces (len / 4096 + 2) addr len
  let bulk := ch == .rda
  let ts := ps.zipIdx.map fun q =>
    Txn.mk none false (if bulk then bulkCh q.2 else .rdb) bulk q.1.addr q.1.units q.1.lead q.1.len part j (q.1.addr + q.1.lead - addr) []
      .nothing false false
  hmpIssue { s with hmp := { s.hmp with txns := s.hmp.txns ++ ts, nextJob := j + 1,
                                        jobs := s.hmp.jobs ++ [⟨j, part, addr, len, p, []⟩] } }

/-! ## Log records (R343, R460, R461) -/

/-- Bytes of a log record (Table 22.3). -/
def logBytes (s : State) (code part : Nat) (seq : Nat) (arg : BitVec 64) : Bytes :=
  leBytes 4 (code + part * 2 ^ 8 + me s * 2 ^ 12) ++ leBytes 4 0 ++ leBytes 8 seq ++ leBytes 8 s.timer ++ leBytes 8 arg.toNat

/-- One record into the ring, displacing the oldest unread record of a full ring (R460). -/
def logWrite (rec : Bytes) (s : State) : State :=
  if !s.regs.logEn || s.tele.logStopped then count (fun c => { c with logLost := c.logLost + 1 }) s
  else
    let size := 2 ^ s.regs.logOrder.toNat
    let used := (s.tele.logProd - s.tele.logCons).toNat
    let s := if used = size then
        { count (fun c => { c with logLost := c.logLost + 1 }) s with tele := { s.tele with logCons := s.tele.logCons + 1 } }
      else s
    let addr := s.regs.logBase.toNat + 64 + 32 * (s.tele.logProd.toNat % size)
    hmpWrite 15 addr rec .logRecord { s with tele := { s.tele with logProd := s.tele.logProd + 1 } }

/-- A log record generated; held while Whisk is halted (R461, R469). -/
def log (code part : Nat) (arg : BitVec 64) (s : State) : State :=
  let s := count (fun c => { c with logGen := c.logGen + 1 }) s
  let rec_ := logBytes s code part s.tele.logSeq arg
  let s := { s with tele := { s.tele with logSeq := s.tele.logSeq + 1 } }
  if s.dbg.halted.getLsbD 0 then { s with tele := { s.tele with held := s.tele.held ++ [rec_] } } else logWrite rec_ s

/-! ## Event records (R357 to R360) -/

/-- The queue takes another record (R357). -/
def evtRoom (s : State) : Bool := s.evt.queue.length < 512 && s.evt.pendingList.isEmpty

/-- A record into the queue of 512, or into the pending list while the queue is full or the list is not empty (R357). -/
def event (kind : Nat) (bytes : Bytes) (s : State) : State :=
  let r : EvtRec := ⟨kind, bytes⟩
  if evtRoom s then { s with evt := { s.evt with queue := s.evt.queue ++ [r] } }
  else { s with evt := { s.evt with pendingList := s.evt.pendingList ++ [r] } }

/-- Records enter the queue from the pending list as places free (R357). -/
def evtRefill (s : State) : State :=
  let n := 512 - s.evt.queue.length
  { s with evt := { s.evt with queue := s.evt.queue ++ s.evt.pendingList.take n, pendingList := s.evt.pendingList.drop n } }

/-- Status codes of Table 15.10. -/
inductive Status where
  | ok | pending | busy | badArg | noSuch | already | notPaused | budget | ringFull | noCandidate | geometry
  | maskVersion | frozen | version | scrub | denied
  deriving DecidableEq, Repr

/-- The code of a status (Table 15.10). -/
def Status.code : Status → BitVec 16
  | .ok => 0x0000 | .pending => 0x0001 | .busy => 0x0002 | .badArg => 0x0010 | .noSuch => 0x0011 | .already => 0x0012
  | .notPaused => 0x0013 | .budget => 0x0020 | .ringFull => 0x0021 | .noCandidate => 0x0030 | .geometry => 0x0040
  | .maskVersion => 0x0041 | .frozen => 0x0050 | .version => 0x0060 | .scrub => 0x0070 | .denied => 0x00F0

/-- The order in which refusals apply (R325). -/
def Status.rank : Status → Nat
  | .scrub => 0 | .denied => 1 | .frozen => 2 | .noSuch => 3 | .already => 4 | .version => 5 | .badArg => 6
  | .notPaused => 7 | .maskVersion => 8 | .busy => 9 | _ => 10

/-- The refusal that answers, of those that apply (R325). -/
def firstRefusal : List Status → Option Status
  | [] => none
  | a :: as => some (as.foldl (fun m b => if b.rank < m.rank then b else m) a)

/-- Place in that order of a status that the load of an object or an Acorn can report, by its code. -/
def loadRank (c : BitVec 16) : Nat :=
  if c = Status.frozen.code then Status.rank .frozen else if c = Status.badArg.code then Status.rank .badArg else Status.rank .busy

/-- The status that stands of two reports of a load: the first of R325's order, 0 while every report is good. -/
def worseOf (a b : BitVec 16) : BitVec 16 :=
  if a = 0 then b else if b = 0 then a else if loadRank b < loadRank a then b else a

/-- The status of a load that ends with a reported code. -/
def loadStatus (c : BitVec 16) : Status :=
  if c = 0 then .ok else if c = Status.frozen.code then .frozen else if c = Status.busy.code then .busy else .badArg

/-- Refusals whose condition holds. -/
def refusals (l : List (Bool × Status)) : List Status := (l.filter (·.1)).map (·.2)

/-- MBX_IRQ_STATUS bits set (Table 15.2). -/
def mbxIrq (p : Nat) (bits : BitVec 5) (s : State) : State :=
  { s with mbx := updAt s.mbx p fun m => { m with irqStatus := m.irqStatus ||| bits } }

/-- A doorbell record of the publication of step n, and MBX_IRQ_STATUS.EVENT (Table 17.7, R233). -/
def doorbell (e : ReqEntry) (n : Nat) (st : BitVec 16) (s : State) : State :=
  let rec_ := leBytes 4 (1 + e.info.part * 2 ^ 8 + st.toNat * 2 ^ 16) ++ leBytes 4 (e.req + e.info.tag.toNat * 2 ^ 16)
    ++ leBytes 4 (e.prodWritten % 2 ^ 32) ++ leBytes 4 (me s) ++ leBytes 8 n ++ leBytes 8 0
  if scrubbing s e.info.part then s else mbxIrq e.info.part 0b00100#5 (event 1 rec_ s)

/-- Rejection reasons (Table 17.3). -/
inductive Reason where
  | state | step | format | length | width | variant | mask | tree | dup | rowLimit | noSpace | ecc
  deriving DecidableEq, Repr

/-- Reason codes (Table 17.3). -/
def Reason.code : Reason → Nat
  | .state => 1 | .step => 2 | .format => 3 | .length => 4 | .width => 5 | .variant => 6 | .mask => 7 | .tree => 8
  | .dup => 9 | .rowLimit => 10 | .noSpace => 11 | .ecc => 12

/-- A rejection record (Table 17.8). -/
def rejection (cls : HipClass) (part id stepSeq node : Nat) (r : Reason) (s : State) : State :=
  let c := match cls with | .bulk => 0 | .latency => 1
  let s := trace (if c = 0 then 2 else 3) 2 1 (BitVec.ofNat 32 r.code) (BitVec.ofNat 64 id) s
  event 2 (leBytes 4 (2 + c * 2 ^ 4 + part * 2 ^ 8 + r.code * 2 ^ 16) ++ leBytes 4 id ++ leBytes 4 stepSeq
    ++ leBytes 4 (node + me s * 2 ^ 6) ++ leBytes 8 s.step.step ++ leBytes 8 0) s

/-- The rejection of a held row. -/
def rejectRow (r : RowRec) (why : Reason) (s : State) : State :=
  rejection r.cls r.part r.id r.stepSeq (if r.tree.spec then r.tree.node else 0) why s

/-- An error record (Table 17.9). -/
def errorBytes (s : State) (port part code cnt id offset : Nat) (frozen : Bool) : Bytes :=
  leBytes 4 (3 + port * 2 ^ 4 + b01 frozen * 2 ^ 7 + part * 2 ^ 8 + code * 2 ^ 16 + cnt * 2 ^ 24) ++ leBytes 4 id
    ++ leBytes 4 offset ++ leBytes 4 0 ++ leBytes 8 s.step.step ++ leBytes 8 0

/-! ## Violations and freezes (R361 to R363) -/

/-- A master is frozen. -/
def masterFrozen (s : State) : Master → Bool
  | .hip => s.regs.frozenHip
  | .hmp => s.regs.frozenHmp
  | .gbp => s.regs.frozenGbp
  | .part p => partFrozen s p

/-- What a freeze does to a master's port (Table 17.10). -/
def freezePort (m : Master) (s : State) : State :=
  match m with
  | .hip =>
    let drop := fun (h : HipPort) => { h with row := [], stray := false }
    { s with regs := { s.regs with frozenHip := true }, hipB := drop s.hipB, hipL := drop s.hipL }
  | .hmp =>
    let out := (s.hmp.txns.filter fun t => t.tag.isSome && !t.waiting).filterMap (·.tag)
    { s with regs := { s.regs with frozenHmp := true },
             -- the reissue at the thaw is the one retry of a read that waits for it
             hmp := { s.hmp with txns := s.hmp.txns.map fun t =>
                                   { t with tag := none, waiting := t.write && t.waiting, retried := t.retried || (!t.write && t.waiting) }
                                 abandoned := s.hmp.abandoned + out.length, lateTags := s.hmp.lateTags ++ out } }
  | .gbp => { s with regs := { s.regs with frozenGbp := true } }
  | .part p => { s with regs := { s.regs with frozenPart := s.regs.frozenPart ||| BitVec.twoPow 12 p } }

/-- A master frozen: FREEZE_STATUS, log, alarm, its count restarted (R362). -/
def freeze (m : Master) (port part : Nat) (argLog : BitVec 64) (s : State) : State :=
  let s := freezePort m { s with violations := s.violations.filter fun v => v.1 != m }
  alarm 0x0C (BitVec.ofNat 64 (port + part * 2 ^ 4)) (log 0x02 part argLog s)

/-- A violation of a master: error record, log of the first in the window, freeze at the third or at once (R360 to R362).
Violations of a frozen master are not counted (R365). -/
def violation (m : Master) (port part code id offset : Nat) (now : Bool) (s : State) : State :=
  if masterFrozen s m then s
  else
    let recent := s.violations.filter fun v => v.1 == m && s.timer - v.2 ≤ 100000000
    let n := recent.length + 1
    let frz := now || n ≥ 3
    let rec_ := errorBytes s port part code (min n 3) id offset frz
    let arg := BitVec.ofNat 64 (leAt rec_ 0 8)
    let s := { s with violations := (s.violations.filter fun v => v.1 != m) ++ recent ++ [(m, s.timer)] }
    let s := event 3 rec_ s
    let s := if n = 1 then log 0x01 part arg s else s
    if frz then freeze m port part arg s else s

/-! ## Broddel messages (R376) -/

/-- A message to one other slice. -/
def send (dest : Nat) (m : Msg) (s : State) : State :=
  if dest = me s then s else { s with link := { s.link with out := s.link.out ++ [⟨some dest, m⟩] } }

/-- A message flooded to every member; nothing is sent in a group of one (R182). -/
def flood (m : Msg) (s : State) : State :=
  if (others s).isEmpty then s else { s with link := { s.link with out := s.link.out ++ [⟨none, m⟩] } }

/-- A message flooded before a group exists (R452). -/
def floodForm (m : Msg) (s : State) : State :=
  if s.link.ports.any (·.fitted) then { s with link := { s.link with out := s.link.out ++ [⟨none, m⟩] } } else s

/-- A change announced to every member, and held here for PUBLISH of its step (R244). -/
def announce (step : Nat) (i : Sync) (s : State) : State :=
  let m : SyncMsg := ⟨me s, step, i⟩
  flood (.stateSync m) { s with held := s.held ++ [m] }

/-- A change announced to every member, without a copy here. -/
def announceOut (step : Nat) (i : Sync) (s : State) : State := flood (.stateSync ⟨me s, step, i⟩) s

/-! ## Who holds a row for a carry (R60, R65) -/

/-- A slice has accepted a row of a step: the request has work in it, and the slice holds the row (R60, R65). -/
def rowTold (src q n : Nat) (s : State) : State :=
  let put := fun (e : ReqEntry) =>
    if e.heldStep = some n || e.workStep = n then { e with holders := addOnce e.holders src }
    else if e.workStep < n && e.heldStep.isNone then { e with workStep := n, holders := [src] }
    else if e.workStep < n then { e with workStep := n } else e
  updReq q put s

/-- Descriptors of the tree that a request has in this step, as a report of its rows carries them to a home slice that may need no row
itself (R24, R209; log entry 65). -/
def rowTrees (s : State) (q : Nat) : List Bytes :=
  (s.rows.filter fun r => r.kind != 2 && r.id == q && r.tree.spec && r.useStep == s.step.step).map (·.treeBytes)

/-- No slice holds a row for the carry any more: the step is not outstanding (R60). -/
def rowFreed (q n : Nat) (s : State) : State :=
  updReq q (fun e => if e.heldStep = some n then { e with heldStep := none } else e) s

/-- At the home slice: a slice has dropped its row of a step, which it had accepted (R60, R65). -/
def rowLost (src q n : Nat) (s : State) : State :=
  let s := updReq q (fun e => { e with holders := e.holders.erase src }) (rowTold src q n s)
  match reqOf s q with
  | none => s
  | some e => if e.heldStep = some n && e.holders.isEmpty then flood (.stateSync ⟨me s, stepNow s, .rowFreed q n⟩) (rowFreed q n s) else s

/-- This slice has dropped a row of a request that is carried: the home slice learns that it holds none (R60). -/
def rowGone (q n : Nat) (s : State) : State :=
  let n := match reqOf s q with | some e => e.heldStep.getD n | none => n
  if s.rows.any fun r => r.kind != 2 && r.id == q && !r.payload.isEmpty && r.stepSeq % 65536 == n % 65536 then s
  else if homeOf s q = me s then rowLost (me s) q n s
  else send (homeOf s q) (.stateSync ⟨me s, stepNow s, .rowLost q n⟩) s

/-! ## Scratch blocks and lines (R95, R100 to R102, R104) -/

/-- The bank of a scratch block; bank 5 is the first (R95). -/
def bankOf (b : Nat) : Nat := 5 + b / 32

/-- A block lies in the scratch of a layout of s state-cache steps (R95). -/
def inScratch (s : State) (steps b : Nat) : Bool := bankOf b < s.kit.pans - 2 * steps

/-- Blocks that may be given out: free, in scratch, in no bank that is becoming state cache (R100, R104). -/
def freeBlocks (s : State) : List Nat :=
  (List.range s.pot.blocks.length).filter fun b =>
    s.pot.blocks.getD b .free == .free && inScratch s (max s.regs.stcInForce s.regs.stcSteps) b

/-- Blocks that a partition owns by its tags. -/
def ownedBy (s : State) (p : Nat) : Nat := (s.pot.blocks.filter (· == .owned p)).length

/-- Why an allocation is not made (R101, R102). -/
inductive AllocFail where
  | quota | full | frozen
  deriving DecidableEq, Repr

/-- The status of a command whose allocation fails (R101, R102). -/
def AllocFail.status : AllocFail → Status
  | .quota => .badArg
  | .full => .busy
  | .frozen => .frozen

/-- n blocks for one use of a partition, the lowest-numbered free blocks (R100, R101); what the debug port wrote into them while they
were free is seen there no more (log entry 13). -/
def allocBlocks (p : Nat) (u : Use) (n : Nat) (s : State) : Except AllocFail State :=
  if n = 0 then .ok s
  else if u ≠ .packed && partFrozen s p then .error .frozen
  else if ownedBy s p + n > s.regs.quota.getD p 0 then .error .quota
  else
    let l := (freeBlocks s).take n
    if l.length < n then .error .full
    else .ok { s with
      pot := { s.pot with
        blocks := l.foldl (fun bs b => bs.set b (.owned p)) s.pot.blocks
        uses := s.pot.uses ++ [⟨p, u, l⟩] }
      dbg := { s.dbg with mem := cellDrop (inBlocks l) s.dbg.mem } }

/-- The blocks of the uses that satisfy a test become FREE, zeroed (R100). -/
def freeUses (f : BlockUse → Bool) (s : State) : State :=
  let l := (s.pot.uses.filter f).flatMap (·.blocks)
  { s with pot := { s.pot with
      blocks := l.foldl (fun bs b => bs.set b .free) s.pot.blocks
      uses := s.pot.uses.filter fun u => !(f u) } }

/-- Lines of a use. -/
def LineUse.lines (l : LineUse) : Nat := total (l.places.map (·.2))

/-- Packed lines in use in a block. -/
def linesIn (s : State) (b : Nat) : Nat :=
  total (s.pot.lines.map fun l => total ((l.places.filter fun x => x.1 == b).map (·.2)))

/-- Blocks that hold a partition's packed lines, in ascending number. -/
def packedOf (s : State) (p : Nat) : List Nat :=
  ascending ((s.pot.uses.filter fun u => u.part == p && u.use == .packed).flatMap (·.blocks))

/-- n lines in blocks with room, in order: block and number of lines. -/
def fillBlocks (room : Nat → Nat) : List Nat → Nat → List (Nat × Nat)
  | [], _ => []
  | b :: bs, n =>
    let k := min n (room b)
    if k = 0 then fillBlocks room bs n else (b, k) :: fillBlocks room bs (n - k)

/-- Lines still free in a packed block of 1,024. -/
def lineRoom (s : State) (b : Nat) : Nat := 1024 - linesIn s b

/-- A row of a frozen partition is still accepted and scored; any other allocation in it is answered FROZEN (R102, R363). -/
def frozenTo (s : State) (p : Nat) (u : Use) : Bool :=
  partFrozen s p && match u with | .row .. => false | _ => true

/-- n 64-byte lines for one use: in packed blocks that the partition owns, or with further blocks (R100; the lowest block first, DESIGN
CHOICE 21). -/
def allocLines (p : Nat) (u : Use) (n : Nat) (s : State) : Except AllocFail State :=
  if frozenTo s p u then .error .frozen
  else
    let more := ceilDiv (n - total ((packedOf s p).map (lineRoom s))) 1024
    match allocBlocks p .packed more s with
    | .error e => .error e
    | .ok s => .ok { s with pot := { s.pot with lines := s.pot.lines ++ [⟨p, u, fillBlocks (lineRoom s) (packedOf s p) n⟩] } }

/-- Packed blocks of a partition whose last line is freed become FREE, zeroed (R100). -/
def freeEmpty (p : Nat) (s : State) : State :=
  let gone := (packedOf s p).filter fun b => linesIn s b = 0
  let uses := s.pot.uses.map fun u =>
    if u.part = p && u.use = .packed then { u with blocks := u.blocks.filter fun b => !(gone.contains b) } else u
  { s with pot := { s.pot with
      blocks := gone.foldl (fun bs b => bs.set b .free) s.pot.blocks
      uses := uses.filter fun u => !(u.use == .packed && u.blocks.isEmpty) } }

/-- The lines of one use of a partition freed. -/
def freeLines (p : Nat) (u : Use) (s : State) : State :=
  freeEmpty p { s with pot := { s.pot with lines := s.pot.lines.filter fun l => !(l.part == p && l.use == u) } }

/-- FREE scratch blocks of the layout in force (STK_BLOCKS.FREE). -/
def freeCount (s : State) : Nat :=
  ((List.range s.pot.blocks.length).filter fun b =>
    s.pot.blocks.getD b .free == .free && inScratch s s.regs.stcInForce b).length

/-- LEAVING scratch blocks (STK_BLOCKS.LEAVING). -/
def leavingCount (s : State) : Nat := (s.pot.blocks.filter fun b => match b with | .leaving _ => true | _ => false).length

/-! ## Results of commands (R306, R308, R311, R314) -/

/-- A 64-byte completion record (Table 15.4). -/
def completionBytes (st : BitVec 16) (tag : BitVec 16) (cseq : Nat) (res : List Word) : Bytes :=
  leBytes 2 st.toNat ++ leBytes 2 tag.toNat ++ leBytes 4 cseq
    ++ (List.range 14).flatMap fun j => leBytes 4 (res.getD j 0).toNat

/-- Result words over argument registers: those the opcode names overwrite, the others stay (R308). -/
def overArgs (res : List (Nat × Word)) (args : List Word) : List Word := res.foldl (fun a r => a.set r.1 r.2) args

/-- The 14 result words of a record (Table 15.4, R381). -/
def resWords (res : List (Nat × Word)) : List Word := overArgs res (List.replicate 14 0)

/-- The result of a command delivered where it entered: mailbox, completion record, or FWD_RESULT (R306, R311, R314).
Nothing is delivered into a bank whose partition is being scrubbed (R326). -/
def deliver (p : Nat) (o : Origin) (tag : BitVec 16) (st : BitVec 16) (res : List (Nat × Word)) (s : State) : State :=
  match o with
  | .mailbox =>
    if (s.mbx.getD p Mailbox.reset).st ≠ .pending then s
    else { s with mbx := updAt s.mbx p fun m =>
        { m with args := overArgs res m.args, resStatus := st, resTag := tag, st := .done, fwd := false,
                 irqStatus := m.irqStatus ||| 0b00001#5 } }
  | .queue noirq =>
    if scrubbing s p then s
    else
      let m := s.mbx.getD p Mailbox.reset
      let cseq := m.cseq + 1
      let s := { s with mbx := updAt s.mbx p fun m => { m with cseq := cseq } }
      hmpWrite p (m.lcBase + 64 * (m.cseq % 2 ^ m.lcOrder)) (completionBytes st tag cseq (resWords res)) (.completion p noirq) s
  | .fwd slice ref _ => send slice (.fwdResult ⟨ref, st, tag, resWords res⟩) s

/-- Opcode of a command (Tables 15.6 to 15.9). -/
def Op.code : Op → Nat
  | .info => 0x0001 | .pipProbe => 0x0002 | .partBacking => 0x0003 | .headLoad => 0x0101 | .headUnload => 0x0102
  | .overlayLoad => 0x0103 | .mobjLoad => 0x0104 | .mobjDelete => 0x0105 | .biasLoad => 0x0106 | .biasDelete => 0x0107
  | .rangeLoad => 0x0601 | .sliceDrain => 0x0602 | .sliceRejoin => 0x0603 | .fwStage => 0x0604
  | .reqAdmit => 0x0201 | .reqAdmitAcorn => 0x0202 | .reqSettings => 0x0203 | .reqCancel => 0x0204 | .reqPause => 0x0205
  | .reqResume => 0x0206 | .reqEvict => 0x0207 | .huskResume => 0x0208 | .reqMove => 0x0209 | .reqQuery => 0x020A
  | .tenantBind => 0x0301 | .tenantCredit => 0x0302 | .tenantDrain => 0x0303 | .tenantReserve => 0x0304
  | .tenantUnbind => 0x0305 | .tenantQuery => 0x0306 | .acornMake => 0x0311 | .acornTake => 0x0312 | .acornDrop => 0x0313
  | .variantReg => 0x0321 | .variantDrop => 0x0322 | .trainOpen => 0x0401 | .trainForward => 0x0402
  | .trainBackward => 0x0403 | .trainNorm => 0x0404 | .trainUpdate => 0x0405 | .trainClose => 0x0406
  | .maskPrune => 0x0501 | .maskGrow => 0x0502 | .maskBarrier => 0x0503 | .maskDiscard => 0x0504 | .maskStatus => 0x0505

/-- A command completes (R306, R316); while Eocia does not run the result waits (R344, R410). -/
def complete (op : Op) (c : Cmd) (st : Status) (res : List (Nat × Word)) (s : State) : State :=
  if !(eociaRuns s) then { s with eocia := { s.eocia with ready := s.eocia.ready ++ [(op, c, st.code, res)] } }
  else deliver c.part c.origin c.tag st.code res (trace 1 2 1 (st.code.setWidth 32) (BitVec.ofNat 64 (Op.code op)) s)

/-- The command waits for its completion moment (R316). -/
def await (op : Op) (c : Cmd) (step : Nat) (w : Wait) (s : State) : State :=
  { s with eocia := { s.eocia with pending := s.eocia.pending ++ [⟨op, c, step, w, [], 0⟩] } }

/-- Pending commands that satisfy a test leave the list and complete with a status and results. -/
def finish (f : PendCmd → Bool) (st : PendCmd → Status) (res : PendCmd → List (Nat × Word)) (s : State) : State :=
  let l := s.eocia.pending.filter f
  let s := { s with eocia := { s.eocia with pending := s.eocia.pending.filter fun p => !(f p) } }
  l.foldl (fun s p => complete p.op p.cmd (st p) (res p) s) s

/-- Argument word n of a command. -/
def arg (c : Cmd) (n : Nat) : Nat := (c.args.getD n 0).toNat

/-- A 64-bit argument in two registers (R318). -/
def argPair (c : Cmd) (n : Nat) : Nat := arg c n + arg c (n + 1) * 2 ^ 32

/-! ## Rows and merges -/

/-- The row record with a key. -/
def rowKeyOf (r : RowRec) : RowKey := { id := r.id, row := if r.tree.spec then r.tree.node else 0, train := r.kind == 2 }

/-- Rows removed with their scratch lines (R112). -/
def dropRows (f : RowRec → Bool) (s : State) : State :=
  let l := s.rows.filter f
  let s := { s with rows := s.rows.filter fun r => !(f r) }
  l.foldl (fun s r => freeLines r.part (.row (rowKeyOf r) r.stepSeq) s) s

/-- Rows of a request. -/
def ofReq (q : Nat) (r : RowRec) : Bool := r.kind != 2 && r.id == q

/-- Frees every held row of a request. -/
def dropReqRows (q : Nat) (s : State) : State := dropRows (ofReq q) s

/-- The merge of a row. -/
def mergeOf (s : State) (k : RowKey) : Option Merge := s.merges.find? fun m => m.key == k

/-- The merge of a row changed. -/
def updMerge (k : RowKey) (f : Merge → Merge) (s : State) : State :=
  { s with merges := updFirst (fun m => m.key == k) f s.merges }

/-- Tenant u's record. -/
def tenantOf (s : State) (u : Nat) : Option Tenant := s.tenants.find? fun t => t.tenant == u

/-- The head of a partition on this slice. -/
def headOf (s : State) (p : Nat) : Option Head := s.heads.find? fun h => h.part == p

/-- Pip word of this slice's table (R167, R172). -/
def pip (s : State) (seed : BitVec 64) (stream : Word) (purpose : BitVec 8) (gen : Bool) (t a : Word) : Word :=
  pipWord s.pipTable seed stream purpose gen t a

/-- A parity error of Pip: counted and alarmed; after one in the table the table is expanded again (R179). -/
def parityError (f : PipFault) (s : State) : State :=
  if f = .none then s
  else
    let s := alarm 0x07 (if f = .table then 1 else 0) (count (fun c => { c with pipParity := c.pipParity + 1 }) s)
    if f = .table then { s with pipTable := pipExpand } else s

/-- Chunks of 256 that words at some addresses lie in. -/
def chunksAt (as_ : List Nat) : List Nat := (as_.map fun a => a / 256).foldl addOnce []

/-- Pip's work counted (R179, R341): a word for each address, or a run for each chunk. The slice may produce words that are not used
(R167): how many is a free value (log entry 64). -/
def pipWork (id : Nat) (genT : Bool) (as_ : List Nat) (s : State) : State :=
  let more := BitVec.ofNat 64 (Config.earlyPip s.fresh)
  let s := { s with fresh := s.fresh + 1 }
  if genT then count (fun c => { c with pipTWords := c.pipTWords + BitVec.ofNat 64 as_.length + more }) s
  else
    let runs := chunksAt as_
    runs.foldl (fun s k => trace 9 0 0 (BitVec.ofNat 32 id) (BitVec.ofNat 64 k) s)
      (count (fun c => { c with pipLRuns := c.pipLRuns + BitVec.ofNat 64 runs.length + more }) s)

end Sys2Proof.Machine
end

