-- ==== Sys2Proof/Machine/Mailbox.lean ====
section
/-! DEFINITION. The two doors of a partition: the register mailbox and the command queue, target classes, forwarding
(R304 to R317, R381). -/

namespace Sys2Proof.Machine

/-! ## Opcodes and classes (R313, R318) -/

/-- The opcodes of interface version 3. -/
def opsAll : List Op :=
  [.info, .pipProbe, .partBacking, .headLoad, .headUnload, .overlayLoad, .mobjLoad, .mobjDelete, .biasLoad, .biasDelete,
   .rangeLoad, .sliceDrain, .sliceRejoin, .fwStage]
  ++ [.reqAdmit, .reqAdmitAcorn, .reqSettings, .reqCancel, .reqPause, .reqResume, .reqEvict, .huskResume, .reqMove, .reqQuery]
  ++ [.tenantBind, .tenantCredit, .tenantDrain, .tenantReserve, .tenantUnbind, .tenantQuery, .acornMake, .acornTake,
      .acornDrop, .variantReg, .variantDrop]
  ++ [.trainOpen, .trainForward, .trainBackward, .trainNorm, .trainUpdate, .trainClose, .maskPrune, .maskGrow,
      .maskBarrier, .maskDiscard, .maskStatus]

/-- The operation of an opcode. -/
def opOf (n : Nat) : Option Op := opsAll.find? fun o => Op.code o == n

/-- Target classes (Table 15.5). -/
inductive OpClass where
  | l | h | p | t | s | m
  deriving DecidableEq, Repr

/-- Class of an operation (Tables 15.6 to 15.9). -/
def opClass : Op → OpClass
  | .info | .pipProbe | .partBacking | .headLoad | .headUnload | .overlayLoad | .fwStage => .l
  | .mobjLoad | .mobjDelete | .biasLoad | .biasDelete => .p
  | .rangeLoad | .sliceDrain | .sliceRejoin => .m
  | .reqAdmit | .reqAdmitAcorn | .reqSettings | .reqCancel | .reqPause | .reqResume | .reqEvict | .huskResume
  | .reqMove | .reqQuery => .h
  | .tenantBind | .tenantCredit | .tenantDrain | .tenantReserve | .tenantUnbind | .tenantQuery => .t
  | .acornMake | .acornTake | .acornDrop | .variantReg | .variantDrop => .p
  | .trainOpen | .trainForward | .trainBackward | .trainNorm | .trainUpdate | .trainClose => .s
  | .maskPrune | .maskGrow | .maskBarrier | .maskDiscard | .maskStatus => .s

/-- Commands that only report values, or act on no state a keeper shadows (R316, R414). -/
def readsOnly : Op → Bool
  | .info | .pipProbe | .reqQuery | .tenantQuery | .maskStatus => true
  | _ => false

/-- Result words that an operation defines with status OK (Tables 15.6 to 15.9). -/
def resultWords : Op → List Nat
  | .info => [0, 1, 2, 3, 4, 5]
  | .reqQuery => List.range 8
  | .tenantQuery => List.range 9
  | .tenantUnbind => [0, 1]
  | .maskStatus => List.range 4
  | .pipProbe | .headLoad | .overlayLoad | .fwStage | .reqEvict | .tenantDrain | .maskPrune | .maskGrow => [0]
  | _ => []

/-- The target slice of a command (R313, R314). -/
def target (op : Op) (c : Cmd) (s : State) : Nat :=
  match opClass op with
  | .l | .s => me s
  | .h => homeOf s (arg c 0 % 16384)
  | .p => holderOf s c.part
  | .t => holderOf s (arg c 0 % 1024)
  | .m => tickMaster s

/-! ## Routing (R314, R381) -/

/-- A command waits for Eocia here. -/
def enqueue (op : Op) (c : Cmd) (s : State) : State :=
  { s with eocia := { s.eocia with inbox := s.eocia.inbox ++ [(op, c)] } }

/-- A command that entered here sent to its target; its result comes back under a new reference (R381). -/
def forward (op : Op) (c : Cmd) (dest : Nat) (s : State) : State :=
  match c.origin with
  | .fwd n ref q => send dest (.fwdCmd ⟨c.part, q, n, BitVec.ofNat 16 (Op.code op), c.tag, ref, c.args⟩) s
  | o =>
    let noirq := match o with | .queue b => some b | _ => none
    let ref := s.eocia.nextRef
    let code := BitVec.ofNat 16 (Op.code op)
    let s := { s with eocia := { s.eocia with
      nextRef := ref + 1, forwarded := s.eocia.forwarded ++ [⟨ref, dest, code, c.part, noirq, c.tag⟩] } }
    let s := if noirq.isNone then { s with mbx := updAt s.mbx c.part fun m => { m with fwd := true } } else s
    send dest (.fwdCmd ⟨c.part, noirq.isSome, me s, code, c.tag, ref, c.args⟩) s

/-- A command leaves for its target; of a partition that is frozen on the slice where it was issued it answers FROZEN here, unless the target
would deny it (R325, Table 15.11; DESIGN CHOICE 153). -/
def sendOn (op : Op) (c : Cmd) (dest : Nat) (s : State) : State :=
  let here := match c.origin with | .fwd .. => false | _ => true
  let denied := (opClass op == .m || op == .fwStage) && !(s.regs.mgmtParts.getLsbD c.part)
  if here && partFrozen s c.part && !denied then deliver c.part c.origin c.tag Status.frozen.code [] s else forward op c dest s

/-- A command at a slice: to its target, or to Eocia here (R314). While Eocia does not run it waits (R344, R448); FWD of a mailbox whose command
another slice will judge reads 1 meanwhile (R314). -/
def route (op : Op) (c : Cmd) (s : State) : State :=
  let t := target op c s
  if t = me s then enqueue op c s
  else if !(eociaRuns s) then
    enqueue op c (if c.origin == .mailbox then { s with mbx := updAt s.mbx c.part fun m => { m with fwd := true } } else s)
  else sendOn op c t s

/-- Two commands came through one mailbox or one queue (R315). -/
def sameDoor (a b : Cmd) : Bool :=
  a.part == b.part && match a.origin, b.origin with
    | .mailbox, .mailbox => true
    | .queue _, .queue _ => true
    | .fwd n _ q, .fwd m _ r => n == m && q == r
    | _, _ => false

/-- An earlier command of the same door that is bound for the same target still waits for Eocia (R315). -/
def behind (op : Op) (c : Cmd) (s : State) : Bool :=
  (s.eocia.inbox.takeWhile (fun x => x != (op, c))).any fun x => sameDoor x.2 c && target x.1 x.2 s == target op c s

/-- A command enters by its opcode: an unknown opcode answers BAD_ARG (R317), a partition under scrub SCRUBBING (R326). -/
def issue (part : Nat) (o : Origin) (opcode tag : BitVec 16) (args : List Word) (s : State) : State :=
  if scrubbing s part then deliver part o tag Status.scrub.code [] s
  else match opOf opcode.toNat with
    | some op => route op ⟨part, o, tag, args⟩ s
    | none => deliver part o tag (if partFrozen s part then Status.frozen else Status.badArg).code [] s

/-! ## The register mailbox (R305 to R308) -/

/-- A write of MBX_DOORBELL (R306, R307); in boot hold it completes at once with BUSY (R448). -/
def doorbellWrite (p : Nat) (v : Word) (s : State) : State :=
  if !(v.getLsbD 0) then s
  else
    let m := s.mbx.getD p Mailbox.reset
    if m.st ≠ .idle then mbxIrq p 0b01000#5 s
    else
      let s := { s with mbx := updAt s.mbx p fun m => { m with st := .pending, resTag := m.tag, resStatus := Status.pending.code } }
      if s.whisk = .hold then deliver p .mailbox m.tag Status.busy.code [] s else issue p .mailbox m.opcode m.tag m.args s

/-- A write of MBX_STATUS (R306). -/
def ackWrite (p : Nat) (v : Word) (s : State) : State :=
  if v.getLsbD 0 && (s.mbx.getD p Mailbox.reset).st == .done then
    { s with mbx := updAt s.mbx p fun m => { m with st := .idle, resTag := 0, resStatus := 0 } }
  else s

/-- A write of MBX_IRQ_STATUS: ones clear (R305, R8). -/
def irqStatusWrite (p : Nat) (v : Word) (s : State) : State :=
  { s with mbx := updAt s.mbx p fun m => { m with irqStatus := m.irqStatus &&& ~~~(v.setWidth 5) } }

/-- A write of MBX_IRQ_EN. -/
def irqEnWrite (p : Nat) (v : Word) (s : State) : State :=
  { s with mbx := updAt s.mbx p fun m => { m with irqEn := v.setWidth 5 } }

/-- IRQ_PART[P] (R312). -/
def irqPart (s : State) (p : Nat) : Bool :=
  let m := s.mbx.getD p Mailbox.reset
  m.irqStatus &&& m.irqEn ≠ 0

/-! ## The command queue (R309 to R311) -/

/-- An order within 4 to 12 (R310). -/
def orderOk (o : BitVec 4) : Bool := 4 ≤ o.toNat && o.toNat ≤ 12

/-- A queue fetch that is under way is given up (R310). -/
def dropFetch (p : Nat) (s : State) : State :=
  { s with mbx := updAt s.mbx p fun m => { m with fetching := false }
           hmp := { s.hmp with jobs := s.hmp.jobs.filter fun j => j.purpose != .queueEntry p } }

/-- A write of CQ_CFG (R310). -/
def cqCfgWrite (p : Nat) (v : Word) (s : State) : State :=
  let en := v.getLsbD 0
  let q := v.extractLsb' 1 4
  let c := v.extractLsb' 5 4
  let was := (s.mbx.getD p Mailbox.reset).cqEn
  let s := { s with mbx := updAt s.mbx p fun m => { m with qOrder := q, cOrder := c } }
  if !en then dropFetch p { s with mbx := updAt s.mbx p fun m => { m with cqEn := false } }
  else if was then s
  else if !(orderOk q && orderOk c) then mbxIrq p 0b10000#5 s
  else { s with mbx := updAt s.mbx p fun m =>
    { m with cqEn := true, cqTail := 0, cqHead := 0, ccProd := 0, ccCons := 0, cseq := 0, fetching := false
             lqBase := (m.cqBaseLo.toNat + m.cqBaseHi.toNat * 2 ^ 32), lcBase := (m.ccBaseLo.toNat + m.ccBaseHi.toNat * 2 ^ 32)
             lqOrder := q.toNat, lcOrder := c.toNat } }

/-- A write of CQ_TAIL (R310). -/
def cqTailWrite (p : Nat) (v : Word) (s : State) : State :=
  let m := s.mbx.getD p Mailbox.reset
  let order := if m.cqEn then m.lqOrder else m.qOrder.toNat
  if (v - m.cqHead).toNat > 2 ^ order then mbxIrq p 0b10000#5 s
  else { s with mbx := updAt s.mbx p fun m => { m with cqTail := v } }

/-- A write of CC_CONS (R310). -/
def ccConsWrite (p : Nat) (v : Word) (s : State) : State :=
  let m := s.mbx.getD p Mailbox.reset
  let order := if m.cqEn then m.lcOrder else m.cOrder.toNat
  if (m.ccProd - v).toNat > 2 ^ order then mbxIrq p 0b10000#5 s
  else { s with mbx := updAt s.mbx p fun m => { m with ccCons := v } }

/-- The conditions of a fetch but for FENCE (R311). -/
def mayFetch (s : State) (p : Nat) : Bool :=
  let m := s.mbx.getD p Mailbox.reset
  m.cqEn && m.cqTail != m.cqHead && m.cqPending < 256
    && 2 ^ m.lcOrder - (m.ccProd - m.ccCons).toNat > m.cqPending

/-- Bytes of a read job in order; none while some are missing. -/
def jobBytes (j : ReadJob) : Option Bytes :=
  let ps := sortBy (fun (a b : Nat × Bytes) => a.1 < b.1) j.parts
  let bs := ps.flatMap (·.2)
  if bs.length = j.len then some bs else none

/-- An entry that has been read is fetched once its FENCE allows it, by Eocia (R311, R410). -/
def takeEntry (p : Nat) (s : State) : State :=
  if !(eociaRuns s) then s
  else match s.hmp.jobs.find? fun j => j.purpose == .queueEntry p with
  | none => s
  | some j =>
    match jobBytes j with
    | none => s
    | some bs =>
      let m := s.mbx.getD p Mailbox.reset
      let last := leAt bs 60 4
      if !(mayFetch s p) || (bitOf last 0 && m.cqPending ≠ 0) then s
      else
        let s := dropFetch p s
        let s := { s with mbx := updAt s.mbx p fun m => { m with cqHead := m.cqHead + 1, cqPending := m.cqPending + 1 } }
        let o := Origin.queue (bitOf last 1)
        let tag := BitVec.ofNat 16 (leAt bs 2 2)
        if last / 4 ≠ 0 then deliver p o tag Status.badArg.code [] s
        else issue p o (BitVec.ofNat 16 (leAt bs 0 2)) tag ((List.range 14).map fun j => wordAt bs (4 + 4 * j)) s

/-- CQ_FETCH: entry CQ_HEAD is read over HMP once, and fetched when its conditions hold (R311). -/
def cqFetchEntry (p : Nat) (s : State) : State :=
  let m := s.mbx.getD p Mailbox.reset
  if !(eociaRuns s) || scrubbing s p || p ≥ 12 then s
  else if !(mayFetch s p) then s
  else if m.fetching then takeEntry p s
  else
    let s := { s with mbx := updAt s.mbx p fun m => { m with fetching := true } }
    hmpRead p (m.lqBase + 64 * (m.cqHead.toNat % 2 ^ m.lqOrder)) 64 .rdb (.queueEntry p) s

/-- A completion record's write is acknowledged (R311). -/
def recordWritten (p : Nat) (noirq : Bool) (s : State) : State :=
  let s := { s with mbx := updAt s.mbx p fun m => { m with ccProd := m.ccProd + 1, cqPending := m.cqPending - 1 } }
  takeEntry p (if noirq then s else mbxIrq p 0b00010#5 s)

/-! ## Forwarded commands and results (R314, R381) -/

/-- FWD_CMD arrives. -/
def fwdArrives (f : FwdCmd) (s : State) : State :=
  issue f.part (.fwd f.origin f.ref f.queue) f.opcode f.tag f.args s

/-- Result words of a forwarded command that its opcode defines for the status (R308). -/
def forwardedWords (op : Op) (st : BitVec 16) (ws : List Word) : List (Nat × Word) :=
  if st = Status.ok.code then (resultWords op).map fun n => (n, ws.getD n 0)
  else if op = .reqEvict && st = Status.badArg.code && ws.getD 0 0 ≠ 0 then [(0, ws.getD 0 0)]
  else []

/-- FWD_RESULT arrives at the issuing slice. -/
def resultArrives (r : FwdResult) (s : State) : State :=
  match s.eocia.forwarded.find? fun f => f.ref == r.ref with
  | none => s
  | some f =>
    let s := { s with eocia := { s.eocia with forwarded := s.eocia.forwarded.filter fun g => g.ref != r.ref } }
    let o := match f.queue with | none => Origin.mailbox | some b => .queue b
    let res := match opOf f.op.toNat with
      | some op => forwardedWords op r.status r.words
      | none => []
    deliver f.part o r.tag r.status res s

/-- MBX_STATUS.STATE as a number (Table 15.2). -/
def mbxStateCode : MbxState → Nat
  | .idle => 0 | .pending => 1 | .done => 2

/-- A read of a mailbox register by its decoded offset (Table 15.2). -/
def mbxRead (m : Mailbox) (off : Nat) : Word :=
  if off = 0x00 then BitVec.ofNat 32 (m.opcode.toNat + m.tag.toNat * 2 ^ 16)
  else if off < 0x3C then m.args.getD (off / 4 - 1) 0
  else if off = 0x40 then BitVec.ofNat 32 (m.resStatus.toNat + m.resTag.toNat * 2 ^ 16)
  else if off = 0x44 then BitVec.ofNat 32 (2 * mbxStateCode m.st + 8 * b01 m.fwd)
  else if off = 0x48 then m.irqStatus.setWidth 32
  else if off = 0x4C then m.irqEn.setWidth 32
  else if off = 0x50 then m.cqBaseLo
  else if off = 0x54 then m.cqBaseHi
  else if off = 0x58 then BitVec.ofNat 32 (b01 m.cqEn + m.qOrder.toNat * 2 + m.cOrder.toNat * 2 ^ 5)
  else if off = 0x5C then m.cqTail
  else if off = 0x60 then m.cqHead
  else if off = 0x64 then m.ccBaseLo
  else if off = 0x68 then m.ccBaseHi
  else if off = 0x6C then m.ccProd
  else if off = 0x70 then m.ccCons
  else if off = 0x74 then BitVec.ofNat 32 m.cqPending
  else 0

/-- A write of a mailbox register by its decoded offset (R305 to R310). -/
def mbxWrite (p off : Nat) (v : Word) (s : State) : State :=
  let upd := fun (f : Mailbox → Mailbox) => { s with mbx := updAt s.mbx p f }
  if off = 0x00 then upd fun m => { m with opcode := v.setWidth 16, tag := v.extractLsb' 16 16 }
  else if off < 0x3C then upd fun m => { m with args := m.args.set (off / 4 - 1) v }
  else if off = 0x3C then doorbellWrite p v s
  else if off = 0x44 then ackWrite p v s
  else if off = 0x48 then irqStatusWrite p v s
  else if off = 0x4C then irqEnWrite p v s
  else if off = 0x50 then upd fun m => { m with cqBaseLo := v &&& 0xFFFFFFC0#32 }
  else if off = 0x54 then upd fun m => { m with cqBaseHi := v }
  else if off = 0x58 then cqCfgWrite p v s
  else if off = 0x5C then cqTailWrite p v s
  else if off = 0x64 then upd fun m => { m with ccBaseLo := v &&& 0xFFFFFFC0#32 }
  else if off = 0x68 then upd fun m => { m with ccBaseHi := v }
  else if off = 0x70 then ccConsWrite p v s
  else s

/-! ## Meanings -/

/-- CQ_FETCH. -/
def execCqFetch (p : Nat) (s : State) : Host.Outcome State Fault Refusal := .next (cqFetchEntry p s)

/-- FWD_CMD. -/
def execFwdCmd (f : FwdCmd) (s : State) : Host.Outcome State Fault Refusal := .next (fwdArrives f s)

/-- FWD_RESULT. -/
def execFwdResult (r : FwdResult) (s : State) : Host.Outcome State Fault Refusal := .next (resultArrives r s)

end Sys2Proof.Machine
end

