-- ==== Sys2Proof/Machine/Cmd.lean ====
section
/-! DEFINITION. How Eocia takes a command up, has its keeper shadow it, judges it and accepts it (R313 to R316, R325, R414). -/

namespace Sys2Proof.Machine

/-! ## What the group can do (R52, R317, R319) -/

/-- What a member reported of itself: this slice implements every epoch and feature of version 3.2. -/
def epochsOf (s : State) (n : Nat) : BitVec 3 :=
  if n = me s then 0b111#3 else ((s.group.peers.find? fun p => p.slice == n).map (·.epochs)).getD 0b111#3

/-- Features that a member reported. -/
def featuresOf (s : State) (n : Nat) : BitVec 6 :=
  if n = me s then 0b111111#6 else ((s.group.peers.find? fun p => p.slice == n).map (·.features)).getD 0b111111#6

/-- Epochs that every member reports: bit e − 1 for epoch e (R52). -/
def epochs (s : State) : BitVec 3 := (members s).foldl (fun b n => b &&& epochsOf s n) 0b111#3

/-- Features that every member reports (R319). -/
def features (s : State) : BitVec 6 := (members s).foldl (fun b n => b &&& featuresOf s n) 0b111111#6

/-- The epoch that an argument names: 0 selects the highest available one (R51); none when it is not available (R52). -/
def epochFor (s : State) (a : Nat) : Option Nat :=
  let ok := fun (e : Nat) => (epochs s).getLsbD (e - 1)
  if a = 0 then [3, 2, 1].find? ok else if ok a then some a else none

/-- The feature of INFO ARG4 that an operation uses (R317, R319). -/
def featureOf : Op → Option Nat
  | .trainOpen | .trainForward | .trainBackward | .trainNorm | .trainUpdate | .trainClose => some 1
  | .maskPrune | .maskGrow | .maskBarrier | .maskDiscard | .maskStatus => some 2
  | .overlayLoad | .variantReg | .variantDrop => some 3
  | .acornMake | .acornTake | .acornDrop | .reqAdmitAcorn => some 4
  | _ => none

/-- A member that runs interface version 2 must act on an opcode that version 3 added (R317). The spec does not say which opcodes those are:
they are open (log entry 134). -/
def needsNewer (s : State) (op : Op) : Bool :=
  (s.group.peers.any fun p => (members s).contains p.slice && p.iface < 3) && Config.addedInV3 (Op.code op)

/-- A partition may issue class M commands and FW_STAGE (R313). -/
def mayManage (s : State) (p : Nat) : Bool := s.regs.mgmtParts.getLsbD p

/-! ## Acceptance -/

/-- Refusals that every command can meet (R313, R314, R317, R326). -/
def commonRefusals (op : Op) (c : Cmd) (s : State) : List Status :=
  refusals [(scrubbing s c.part, .scrub),
    ((opClass op == .m || op == .fwStage) && !(mayManage s c.part), .denied),
    (partFrozen s c.part, .frozen),
    ((match featureOf op with | some f => !((features s).getLsbD f) | none => false) || needsNewer s op, .version),
    (opClass op == .s && me s != holderOf s c.part, .badArg)]

/-- A command judged: the first refusal in the order of R325 answers it, else it has its effect. -/
def judge (op : Op) (c : Cmd) (l : List (Bool × Status)) (eff : State → State) (s : State) : State :=
  match firstRefusal (commonRefusals op c s ++ refusals l) with
  | some st => complete op c st [] s
  | none => eff (trace 1 2 0 (BitVec.ofNat 32 (Op.code op + c.tag.toNat * 2 ^ 16)) (BitVec.ofNat 64 c.part) s)

/-- The COMMAND entry that a target sends its keeper: FWD_CMD body bytes 0 to 63 (Table 20.2, R381). -/
def commandEntry (op : Op) (c : Cmd) (s : State) : DeltaEntry :=
  let org := match c.origin with
    | .mailbox => (b01 false, me s, 0)
    | .queue _ => (1, me s, 0)
    | .fwd n r q => (b01 q, n, r.toNat)
  let body := leBytes 4 (c.part + org.1 * 2 ^ 4 + org.2.1 * 2 ^ 16) ++ leBytes 4 (Op.code op + c.tag.toNat * 2 ^ 16)
    ++ leBytes 4 org.2.2 ++ c.args.flatMap fun w => leBytes 4 w.toNat
  { req := if opClass op = .h then arg c 0 % 16384 else 0, part := c.part, kind := .command, slot := 0,
    data := padTo 64 (body.take 64) }

/-- A command judged by its target: not before every change of an earlier step has been applied (R316), nor while Eocia
does not run (R344, R410). -/
def accept (op : Op) (run : Cmd → State → State) (c : Cmd) (s : State) : State :=
  if publishing s || !(eociaRuns s) then { s with eocia := { s.eocia with deferred := s.eocia.deferred ++ [(op, c)] } } else run c s

/-- The command is on Eocia's list no more. -/
def unqueue (op : Op) (c : Cmd) (s : State) : State :=
  { s with eocia := { s.eocia with inbox := s.eocia.inbox.erase (op, c) } }

/-- Eocia takes a command up (R314 to R316, R344, R414): it waits while Eocia does not run; it goes to its target; one that
changes state is sent to the keeper first and accepted when the keeper acknowledges. A command waits for an earlier one of its door, and one
that only reads for those that await their acknowledgement: acceptance is one order (R315). -/
def takeUp (op : Op) (run : Cmd → State → State) (c : Cmd) (s : State) : State :=
  if !(eociaRuns s) || behind op c s then (if s.eocia.inbox.contains (op, c) then s else enqueue op c s)
  else
    let s := unqueue op c s
    let t := target op c s
    if t ≠ me s then sendOn op c t s
    else if readsOnly op then
      if s.eocia.awaitAck.isEmpty then accept op run c s
      else { s with eocia := { s.eocia with awaitAck := s.eocia.awaitAck ++ [(op, c)] } }
    else match keeperOf s (me s) with
      | none => accept op run c s
      | some k =>
        let s := { s with eocia := { s.eocia with awaitAck := s.eocia.awaitAck ++ [(op, c)] }
                          keeper := { s.keeper with unacked := s.keeper.unacked ++ [(stepNow s, true)] } }
        send k (.huskDelta ⟨me s, stepNow s, false, [commandEntry op c s]⟩) s

/-! ## Reserved argument bits (R318) -/

/-- Bits of an argument register at and above n are zero. -/
def narrow (c : Cmd) (i n : Nat) : Bool := arg c i < 2 ^ n

/-- Some of the named registers holds a reserved bit: pairs of register and width in use. -/
def reservedSet (c : Cmd) (l : List (Nat × Nat)) : Bool := l.any fun p => !(narrow c p.1 p.2)

/-! ## Heads and objects as commands see them -/

/-- Head identities that members announced for a partition. -/
def headAnnounced (s : State) (p : Nat) : List (Nat × HeadId) :=
  (s.announced.filter fun a => a.2.1 == p && (members s).contains a.1).map fun a => (a.1, a.2.2)

/-- The identity that the members which hold strips announce. -/
def headIdOf (s : State) (p : Nat) : Option HeadId :=
  ((headAnnounced s p).find? fun a => a.2.len > 0).map (·.2)

/-- HEAD_ID, BLOCKS, FORMAT and STRUCT agree (R320). -/
def sameHead (a b : HeadId) : Bool := a.headId == b.headId && a.blocks == b.blocks && a.format == b.format && a.struct == b.struct

/-- The partition has a head (R320). -/
def hasHead (s : State) (p : Nat) : Bool :=
  let l := headAnnounced s p
  (members s).all (fun n => l.any fun a => a.1 == n)
    && match headIdOf s p with
       | none => true
       | some h => l.all fun a => a.2.len == 0 || sameHead a.2 h

/-- A mask object exists as the slice has applied it (R151); id 0 is no object. -/
def maskExists (s : State) (p id : Nat) : Bool :=
  id = 0 || s.masks.any fun m => m.part == p && m.id == id && !m.deleting && (m.cur.isSome || m.next.isSome)

/-- A bias list exists as the slice has applied it. -/
def biasExists (s : State) (p id : Nat) : Bool :=
  id = 0 || s.biases.any fun m => m.part == p && m.id == id && !m.deleting && (m.cur.isSome || m.next.isSome)

/-- The open session belongs to a partition. -/
def sessionIn (s : State) (p : Nat) : Bool := s.training.any fun t => t.part == p

/-- A float lies in a closed range. -/
def inRange (lo hi v : F32) : Bool := !(isNan v) && fLe lo v && fLe v hi

/-- Sampler settings within Table 7.1, naming objects that exist (R146). -/
def settingsOk (s : State) (p : Nat) (x : Settings) : Bool :=
  (x.temp = 0 || inRange 0x3C800000#32 0x42800000#32 x.temp) && x.topk ≤ 1024
    && inRange 0 0x3F800000#32 x.topp && x.topp ≠ 0 && inRange 0 0x3F800000#32 x.minp
    && inRange 0x3D800000#32 0x41800000#32 x.rep && inRange 0xC1800000#32 0x41800000#32 x.freq
    && inRange 0xC1800000#32 0x41800000#32 x.pres && maskExists s p x.maskId && biasExists s p x.biasId

/-- Settings with −0 stored as +0 (R146). -/
def plusZero (x : Settings) : Settings :=
  { x with temp := posZero x.temp, topp := posZero x.topp, minp := posZero x.minp, rep := posZero x.rep,
           freq := posZero x.freq, pres := posZero x.pres }

end Sys2Proof.Machine
end

