-- ==== Sys2Proof/Machine/ReqCmds.lean ====
section
/-! DEFINITION. Request commands (Table 15.7): admission from a descriptor, an Acorn or a husk, settings, cancel, pause, resume,
evict, move, query (R51, R107, R110, R173, R216, R223 to R229, R239, R241, R253 to R263, R323). -/

namespace Sys2Proof.Machine

/-! ## Backing windows (R107, R110) -/

/-- The registration that a member announced for a partition. -/
def backingOf (s : State) (n p : Nat) : Option Backing := s.backings.find? fun b => b.slice == n && b.part == p

/-- Every member announced a window that contains the id (R107). -/
def windowHolds (s : State) (p q : Nat) : Bool :=
  (members s).all fun n => match backingOf s n p with
    | some b => b.first ≤ q && q < b.first + b.count
    | none => false

/-- The smallest Lmax that the members announce (R110). -/
def lmaxOf (s : State) (p : Nat) : Nat :=
  let l := (members s).filterMap fun n => (backingOf s n p).map (·.lmax)
  match l with
  | [] => 0
  | a :: as => as.foldl min a

/-! ## Jars (R48, R109) -/

/-- A count placed at an offset, ascending, added to what is there, saturating at 16,383 (R109, R164, R254). -/
def putJar (off n : Nat) : List (Nat × Nat) → List (Nat × Nat)
  | [] => [(off, min 16383 n)]
  | (o, c) :: rest =>
    if off < o then (off, min 16383 n) :: (o, c) :: rest
    else if off = o then (o, min 16383 (c + n)) :: rest
    else (o, c) :: putJar off n rest

/-- The jars of a list of (index, count) pairs that lie in runs (R225, R48). -/
def jarsIn (rs : List RangeEntry) (l : List (Nat × Nat)) : List (Nat × Nat) :=
  l.foldl (fun j e => if inRuns rs e.1 then putJar (offsetIn rs e.1) e.2 j else j) []

/-- Two jar lists added (R254). -/
def addJars (a b : List (Nat × Nat)) : List (Nat × Nat) := b.foldl (fun j e => putJar e.1 e.2 j) a

/-- (index, count) pairs of chunk records (Table 12.4). -/
def chunkPairs (l : List ChunkRec) : List (Nat × Nat) :=
  l.flatMap fun r => r.counts.map fun e => (256 * r.chunk + e.1, e.2)

/-- Chunk records of (index, count) pairs in ascending index. -/
def chunkRecs (l : List (Nat × Nat)) : List ChunkRec :=
  (ascending (l.map fun e => e.1 / 256)).map fun k =>
    { chunk := k, counts := (l.filter fun e => e.1 / 256 == k).map fun e => (e.1 % 256, e.2) }

/-- A slice's jars of a request as (index, count) pairs. -/
def jarPairs (s : State) (jars : List (Nat × Nat)) : List (Nat × Nat) :=
  jars.map fun e => (indexAt (myRuns s) e.1, e.2)

/-- A prompt count list (R226): (index, count) pairs, or none when it breaks the rule. -/
def countList (v : Nat) (bs : Bytes) (n : Nat) : Option (List (Nat × Nat)) :=
  let l := (List.range n).map fun i => (leAt bs (8 * i) 4, leAt bs (8 * i + 4) 4)
  let rising := (l.zip (l.drop 1)).all fun p => p.1.1 < p.2.1
  if l.all (fun e => e.1 < v && 1 ≤ e.2 && e.2 ≤ 16383) && rising then some l else none

/-! ## Admission (R223 to R225) -/

/-- What an admission asks for, whatever it was read from. -/
structure Admit where
  info : ReqInfo
  countsAddr : Nat
  countsN : Nat
  acorn : Option Word
  jars : List ChunkRec
  husk : Bool
  draws : Nat
  windowLen : Nat
  outLeft : Nat
  hasToken : Bool
  ttft : Nat
  prod : Nat
  window : List Nat
  deriving DecidableEq, Repr

/-- Sampler settings of an admission descriptor (Table 11.3). -/
def descSettings (d : Bytes) : Settings :=
  let w := leAt d 24 4
  plusZero { temp := wordAt d 20, topk := field w 0 11, logpMode := bitOf (leAt d 0 4) 21, maskId := field w 16 8,
             biasId := field w 24 8, topp := wordAt d 28, minp := wordAt d 32, rep := wordAt d 36, freq := wordAt d 40,
             pres := wordAt d 44 }

/-- A reserved bit of an admission descriptor is set (Table 11.3). -/
def descReserved (d : Bytes) : Bool :=
  let z := fun off lo w => field (leAt d off 4) lo w ≠ 0
  let n := leAt d 68 1 % 16
  z 0 14 2 || z 0 22 10 || z 4 10 22 || z 24 11 5 || z 68 4 28 || z 112 5 27 || z 116 16 16 || leAt d 120 8 ≠ 0
    || (List.range 8).any fun i => if i < n then z (72 + 4 * i) 22 10 else leAt d (72 + 4 * i) 4 ≠ 0

/-- Generator class of an argument at a group size (R173): true for Pip-T. -/
def classFor (s : State) (gen : Nat) : Bool := if gen = 0 then groupSize s > 8 else gen = 2

/-- The admission that a descriptor asks for, accepted in a step. -/
def descAdmit (s : State) (part step : Nat) (d : Bytes) (acorn : Option Word) : Admit :=
  let w := leAt d 0 4
  let out := leAt d 48 4
  { info :=
      { part := part, scoreMode := bitOf w 16, genSel := field w 17 2, genT := classFor s (field w 17 2), epoch := field w 19 2, tenant := field (leAt d 4 4) 0 10,
        seed := BitVec.ofNat 64 (leAt d 8 8), stream := wordAt d 16, outLimit := out,
        stop := (List.range (leAt d 68 1 % 16)).map fun i => leAt d (72 + 4 * i) 4,
        ladleBase := leAt d 104 8, ladleOrder := field (leAt d 112 4) 0 5, tag := BitVec.ofNat 16 (leAt d 116 2),
        admitStep := step, settings := descSettings d }
    countsAddr := leAt d 56 8, countsN := leAt d 64 4, acorn := acorn, jars := [], husk := false, draws := 0,
    windowLen := leAt d 52 2, outLeft := out, hasToken := false, ttft := 0, prod := 0, window := List.replicate 64 noIndex }

/-- The tenant is bound to the partition (R246). -/
def boundTo (s : State) (u p : Nat) : Bool := (tenantOf s u).any fun t => t.bound && t.part == p

/-- A drop of a handle that is accepted and not applied: it frees the handle from its step on (R256). -/
def pendingDrop (s : State) (p : Nat) (h : Word) : Bool :=
  s.held.any fun m => match m.item with | .acornDrop r g => r == p && g == h | _ => false

/-- The Acorn of a handle in use, none where the handle names none that every slice has loaded. -/
def acornOf (s : State) (p : Nat) (h : Word) : Option Acorn :=
  if pendingDrop s p h then none else s.acorns.find? fun a => a.part == p && a.handle == h && !a.dropped && a.ready

/-- The Acorn that an admission from a handle was accepted on at home slice `src`, dropped since or not (R256). -/
def acornHeld (s : State) (src p : Nat) (h : Word) (q : Nat) : Option Acorn :=
  s.acorns.find? fun a => a.part == p && a.handle == h && a.uses.contains (src, q)

/-- Dropped Acorns that no request shares, and no admission from which is being read, are freed, zeroed (R256). -/
def acornSweep (s : State) : State :=
  let gone := s.acorns.filter fun a =>
    a.dropped && !(a.uses.any fun u => (members s).contains u.1)
      && !(s.reqs.any fun e => e.info.part == a.part && e.sharing == some a.uid)
  gone.foldl (fun s a => freeLines a.part (.acorn a.uid) { s with acorns := s.acorns.erase a }) s

/-- An admission from a handle is being read at home slice `src`: it completes though the handle is dropped meanwhile (R256). -/
def useAcorn (src p : Nat) (h : Word) (q : Nat) (s : State) : State :=
  { s with acorns := updFirst (fun a => a.part == p && a.handle == h && !a.dropped) (fun a => { a with uses := a.uses ++ [(src, q)] }) s.acorns }

/-- That admission has begun, or has been refused. -/
def unuseAcorn (src p : Nat) (h : Word) (q : Nat) (s : State) : State :=
  let put := fun (a : Acorn) => if a.part == p && a.handle == h then { a with uses := a.uses.erase (src, q) } else a
  acornSweep { s with acorns := s.acorns.map put }

/-- The refusals of R224 that an admission shares with a husk resume, but for those of its source. -/
def admitRefusals (s : State) (q : Nat) (a : Admit) (prompt : Nat) : List (Bool × Status) :=
  let p := a.info.part
  let e := reqOf s q
  [((e.any fun x => x.info.part != p), .denied),
   ((e.any fun x => x.info.part == p), .busy),
   (sessionIn s p, .busy),
   (vocab s = 0, .badArg),
   (!(windowHolds s p q), .badArg),
   (prompt + a.outLeft > 15 * lmaxOf s p, .badArg),
   (!(settingsOk s p a.info.settings), .badArg),
   (a.info.stop.any fun t => t ≥ vocab s, .badArg),
   (a.info.stop.length > 8, .badArg),
   (!(boundTo s a.info.tenant p), .badArg),
   (a.info.ladleOrder < 4 || a.info.ladleOrder > 16 || a.info.ladleBase % 64 ≠ 0, .badArg),
   (!a.info.scoreMode && !(hasHead s p), .badArg)]

/-- The window that the home slice allocates at admission (R216). -/
def windowRefusal (s : State) (q p : Nat) : List (Bool × Status) :=
  match allocLines p (.window q) 4 s with
  | .ok _ => []
  | .error e => [(true, e.status)]

/-- The table entry of an admission as a slice holds it at first. -/
def admitEntry (q home : Nat) (a : Admit) : ReqEntry :=
  { req := q, info := a.info, state := .admitted, home := home, prior := .free, draws := a.draws, windowLen := a.windowLen,
    outLeft := a.outLeft, hasToken := a.hasToken, pred := Pred.cold, jars := [], sharing := none, mark0 := false, markJar := 0,
    loaded := [], loadStatus := 0, wasHusk := a.husk, cancelMark := false, lateCount := 0, stallSteps := 0, heldStep := none,
    allowance := 0, budgetRun := false, acceptedAt := 0, ttftUs := a.ttft, gapUs := 0, gapSteps := 0, lastCommitAt := 0,
    lastCommitStep := 0, clockOn := false, prod := a.prod, prodWritten := 0, issued := a.prod, issuedStep := 0, cons := a.prod, consStep := 0, consAlarmed := false,
    window := a.window, evictStage := 0, moveStage := 0, moveTo := 0, shares := [], released := false, workStep := 0, holders := [], usedField := none, sent := [], sentHome := [],
    written := [], cold := false, due := [], lost := false, lastOutcome := none }

/-- A slice reports the load of a request's counts to the home slice (R225). -/
def reportLoad (q : Nat) (st : BitVec 16) (s : State) : State :=
  let s := updReq q (fun e => { e with loaded := addOnce e.loaded (me s), loadStatus := if e.loadStatus = 0 then st else e.loadStatus }) s
  if homeOf s q = me s then s else send (homeOf s q) (.stateSync ⟨me s, stepNow s, .loadReport q st⟩) s

/-- An admission begins on a slice (R225, R254, R255, R263): its entry, the jars it starts from, the read of its count list. -/
def beginAdmit (q home : Nat) (a : Admit) (s : State) : State :=
  let rs := myRuns s
  let share := a.acorn.bind fun h => (acornHeld s home a.info.part h q).or (acornOf s a.info.part h)
  let jars := match share with
    | some x => x.jars
    | none => jarsIn rs (chunkPairs a.jars)
  let e := { admitEntry q home a with jars := jars, sharing := share.map (·.uid) }
  let s := { s with reqs := s.reqs ++ [e] }
  if a.countsN = 0 then reportLoad q 0 s
  else hmpRead a.info.part a.countsAddr (8 * a.countsN) .rdb (.counts q) s

/-- The count list of a request has been read on this slice: its share becomes jars, and the load is reported (R225, R226). -/
def countsArrived (q : Nat) (bs : Option Bytes) (s : State) : State :=
  match bs with
  | none => reportLoad q Status.busy.code s
  | some bs =>
    match countList (vocab s) bs (bs.length / 8) with
    | none => reportLoad q Status.badArg.code s
    | some l =>
      let mine := jarsIn (myRuns s) l
      reportLoad q 0 (updReq q (fun e => if mine.isEmpty then e else { e with jars := addJars e.jars mine, sharing := none }) s)

/-- An admission that was accepted at time t at the home slice (R225): window, entry, announcement; its clocks run from t (R67, R68), and it
completes at the stamp where PREFILL begins. -/
def admitAccepted (op : Op) (c : Cmd) (q t : Nat) (a : Admit) (s : State) : State :=
  let s := match allocLines a.info.part (.window q) 4 s with | .ok t => t | .error _ => s
  let s := announceOut (stepNow s)
    (.admitted q a.info a.countsAddr a.countsN a.acorn a.jars a.husk a.draws a.windowLen a.outLeft a.hasToken a.ttft) s
  let s := await op c (stepNow s) (.admission q) s
  let s := beginAdmit q (me s) a s
  updReq q (fun e => { e with acceptedAt := t, lastCommitAt := t, lastCommitStep := a.info.admitStep, clockOn := a.hasToken }) s

/-- An admission's entry that is not FREE and belongs to another partition: known before anything is read (R224, R325). -/
def entryDenied (s : State) (c : Cmd) : Bool := (reqOf s (arg c 0 % 16384)).any fun x => x.info.part != c.part

/-- The Acorn, if any, that an admission was accepted on is used by it no more: its request shares the lines, or it was refused. -/
def acornRelease (c : Cmd) (ac : Option Acorn) (s : State) : State :=
  match ac with
  | none => s
  | some a =>
    let q := arg c 0 % 16384
    unuseAcorn (me s) c.part a.handle q (announceOut (stepNow s) (.acornUse c.part a.handle q false) s)

/-- An admission from a handle in use is accepted: every slice keeps the Acorn for it (R256). -/
def acornClaim (op : Op) (c : Cmd) (s : State) : State :=
  let h := c.args.getD 3 0
  let q := arg c 0 % 16384
  if op = .reqAdmitAcorn && (acornOf s c.part h).isSome then
    useAcorn (me s) c.part h q (announceOut (stepNow s) (.acornUse c.part h q true) s)
  else s

/-- The descriptor of REQ_ADMIT or REQ_ADMIT_ACORN, accepted at a time and in a step, has been read (R223, R224, R254). -/
def admitRead (op : Op) (c : Cmd) (t step : Nat) (d : Bytes) (s : State) : State :=
  let q := arg c 0 % 16384
  let w := leAt d 0 4
  let ep := epochFor s (field w 19 2)
  let handle := if op = .reqAdmitAcorn then some (c.args.getD 3 0) else none
  let ac := handle.bind fun h => acornHeld s (me s) c.part h q
  let a := descAdmit s c.part step d (ac.map (·.handle))
  let prompt := a.countsN + ((ac.map (·.entries)).getD 0)
  acornRelease c ac <| judge op c
    ([(reservedSet c [(0, 14)], .badArg), (descReserved d, .badArg), (field w 0 14 ≠ q, .badArg), (field w 17 2 = 3, .badArg), (ep.isNone, .version),
      (a.info.outLimit = 0, .badArg), (a.countsAddr % 8 ≠ 0, .badArg), (handle.isSome && ac.isNone, .badArg)]
      ++ admitRefusals s q a prompt ++ windowRefusal s q c.part)
    (admitAccepted op c q t a) s

/-- REQ_ADMIT and REQ_ADMIT_ACORN at acceptance: the descriptor is read once (R223), and the refusals are judged with it, so that the first
of R325 answers; a descriptor that is not aligned is not read (log entry 135). -/
def admitCmd (op : Op) (c : Cmd) (s : State) : State :=
  judge op c [(entryDenied s c, .denied), (argPair c 1 % 64 ≠ 0, .badArg)]
    (fun s => hmpRead c.part (argPair c 1) 128 .rdb (.admission op c s.timer (stepNow s)) (acornClaim op c s)) s

/-! ## Husks (R261 to R263, R401) -/

/-- The key set of a partition on this slice. -/
def keySetOf (s : State) (p : Nat) : Option KeySet := s.sec.keySets.find? fun k => k.part == p

/-- AES-256-GCM ciphertext or plaintext: the key stream added (R401). -/
def gcmCrypt (key nonce body : Bytes) : Bytes := body.zipIdx.map fun b => b.1 ^^^ Config.gcmStream key nonce b.2

/-- The 16 tag bytes of R401. -/
def gcmTag (key nonce aad cipher : Bytes) : Bytes := (List.range 16).map fun i => Config.gcmTag key nonce aad cipher i

/-- Chunk records of a husk body from an offset (Table 12.4): none when one is malformed. -/
def huskChunks (v : Nat) : Nat → Bytes → Nat → Nat → Option (List ChunkRec × Nat)
  | 0, _, off, _ => some ([], off)
  | n + 1, b, off, lo =>
    let h := leAt b off 4
    let k := field h 0 14
    let m := field h 14 9
    let ws := (List.range m).map fun i => leAt b (off + 4 + 4 * i) 4
    let cs := ws.map fun w => (field w 0 8, field w 8 14)
    let rising := (cs.zip (cs.drop 1)).all fun p => p.1.1 < p.2.1
    if h / 2 ^ 23 ≠ 0 || m = 0 || m > 256 || k < lo || off + 4 + 4 * m > b.length
        || !(ws.all fun w => w / 2 ^ 22 = 0) || !(cs.all fun c => 1 ≤ c.2 && 256 * k + c.1 < v) || !rising then none
    else match huskChunks v n b (off + 4 + 4 * m) (k + 1) with
      | none => none
      | some r => some ({ chunk := k, counts := cs } :: r.1, r.2)

/-- Sampler settings of a request line (Table 7.2, bytes 0 to 27). -/
def lineSettings (b : Bytes) : Settings :=
  let w := leAt b 4 4
  plusZero { temp := wordAt b 0, topk := field w 0 11, logpMode := bitOf w 11, maskId := field w 16 8, biasId := field w 24 8,
             topp := wordAt b 8, minp := wordAt b 12, rep := wordAt b 16, freq := wordAt b 20, pres := wordAt b 24 }

/-- The admission that a husk asks for (R262, R263): header, plain body, resume arguments. -/
def huskAdmit (c : Cmd) (step : Nat) (hd body : Bytes) (chunks : List ChunkRec) : Admit :=
  let w := leAt hd 4 4
  let x := leAt body 52 4
  { info :=
      { part := c.part, scoreMode := bitOf w 10, genSel := 1 + b01 (bitOf w 11), genT := bitOf w 11, epoch := field w 8 2, tenant := field (arg c 0) 16 10,
        seed := BitVec.ofNat 64 (leAt body 32 8), stream := wordAt body 40, outLimit := leAt body 44 4,
        stop := (List.range (field x 17 4)).map fun i => leAt body (64 + 4 * i) 4,
        ladleBase := argPair c 3, ladleOrder := field (arg c 5) 0 5, tag := BitVec.ofNat 16 (field (arg c 5) 16 16),
        admitStep := step, settings := lineSettings body }
    countsAddr := 0, countsN := 0, acorn := none, jars := chunks, husk := true, draws := leAt body 28 4,
    windowLen := leAt body 52 2, outLeft := leAt body 44 4, hasToken := bitOf x 16, ttft := leAt body 56 4,
    prod := leAt body 48 4, window := (List.range 64).map fun i => leAt body (96 + 4 * i) 4 }

/-- A husk of version 1 whose header this slice can read on: magic, length, reserved bits (Table 12.3). -/
def huskHeaderOk (hd : Bytes) : Bool :=
  let len := leAt hd 8 4
  leAt hd 0 4 = 0x4B48534B && len % 16 = 0 && 432 ≤ len && field (leAt hd 4 4) 12 20 = 0 && leAt hd 14 2 = 0
    && allZero (sub hd 40 24)

/-- The refusals that a husk's header gives (R262). -/
def huskHeaderRefusals (s : State) (p : Nat) (hd : Bytes) : List (Bool × Status) :=
  let w := leAt hd 4 4
  let head := headIdOf s p
  [((keySetOf s p).all fun k => k.keyId != wordAt hd 36, .denied),
   (field w 0 8 ≠ 1, .version),
   (field w 8 2 = 0 || (epochFor s (field w 8 2)).isNone, .version),
   (!(bitOf w 10) && !(head.any fun h => h.headId.toNat == leAt hd 16 8 && h.blocks == leAt hd 12 2), .version),
   (!(huskHeaderOk hd), .badArg)]

/-- EPOCH, MODE and GEN of a husk's header and of the request line in its body agree (Tables 7.2, 12.3). -/
def huskAgrees (hd body : Bytes) : Bool :=
  let h := leAt hd 4 4
  let b := leAt body 4 4
  field b 12 2 = field h 8 2 && bitOf b 14 = bitOf h 11 && bitOf b 15 = bitOf h 10

/-- A reserved field of a husk body is set (Tables 11.3, 12.4): bits of word 52, stop entries at and above STOP_N. -/
def huskReserved (body : Bytes) : Bool :=
  let x := leAt body 52 4
  x / 2 ^ 21 ≠ 0 || (List.range 8).any fun i => field x 17 4 ≤ i && leAt body (64 + 4 * i) 4 ≠ 0

/-- Reserved bits of HUSK_RESUME's arguments (R318). -/
def huskArgsBad (c : Cmd) : Bool := field (arg c 0) 14 2 ≠ 0 || field (arg c 0) 26 6 ≠ 0 || field (arg c 5) 5 11 ≠ 0

/-- The whole husk of a command accepted at a time and in a step has been read: the first refusal of R325 answers it (R262, R401, R402). -/
def huskRead (c : Cmd) (t step : Nat) (bs : Bytes) (s : State) : State :=
  let q := arg c 0 % 16384
  let hd := bs.take 64
  let len := leAt hd 8 4
  let key := ((keySetOf s c.part).map (·.kHk)).getD []
  let nonce := sub bs 24 12
  let cipher := sub bs 64 (len - 80)
  let good := sub bs (len - 16) 16 == gcmTag key nonce hd cipher
  let body := gcmCrypt key nonce cipher
  let ch := huskChunks (vocab s) (min (leAt body 60 4) 16384) body 352 0
  let a := huskAdmit c step hd body ((ch.map (·.1)).getD [])
  let counted := total (a.jars.map fun r => r.counts.length)
  let s := if good then s else alarm 0x1F (BitVec.ofNat 64 (1 + c.part * 2 ^ 4)) s
  judge .huskResume c
    (huskHeaderRefusals s c.part hd
      ++ [(!good, .denied), (ch.isNone || leAt body 60 4 > 16384, .badArg),
          ((match ch with | some r => !(allZero (body.drop r.2)) || body.length - r.2 ≥ 16 | none => false), .badArg),
          (huskReserved body, .badArg), (huskArgsBad c, .badArg), (!(huskAgrees hd body), .badArg),
          (a.outLeft = 0, .badArg),
          (a.window.any fun t => t ≠ noIndex && t ≥ vocab s, .badArg)]
      ++ admitRefusals s q a counted ++ windowRefusal s q c.part)
    (admitAccepted .huskResume c q t a) s

/-- The header of a husk has been read. The rest is read, for the tag is checked before anything else but the key (R325); a header whose
LENGTH is no length of a husk leaves nothing to check, and refuses the command (log entry 135). -/
def huskHeaderRead (c : Cmd) (t step : Nat) (hd : Bytes) (s : State) : State :=
  let l := huskHeaderRefusals s c.part hd
  let len := leAt hd 8 4
  judge .huskResume c (if len % 16 = 0 && 432 ≤ len then l.filter fun x => x.2 == .denied else (huskArgsBad c, .badArg) :: l)
    (hmpRead c.part (argPair c 1) len .rdb (.husk c t step)) s

/-- HUSK_RESUME at acceptance. -/
def huskResumeCmd (c : Cmd) (s : State) : State :=
  judge .huskResume c [(entryDenied s c, .denied)] (hmpRead c.part (argPair c 1) 64 .rdb (.husk c s.timer (stepNow s))) s

/-! ## Commands on a request (R239, R259, R260, R229, R323) -/

/-- The refusals that a command on a request meets first: FREE, another partition's, terminal or marked, DRAINING or being evicted. -/
def onRequest (s : State) (c : Cmd) : List (Bool × Status) :=
  match reqOf s (arg c 0 % 16384) with
  | none => [(true, .noSuch)]
  | some e =>
    [(e.info.part != c.part, .denied), (e.state.terminal || e.cancelMark, .already),
     (e.state == .draining || e.evictStage != 0, .busy)]

/-- A change of a request waits for the commit stamp of its step (R58). -/
def change (q : Nat) (x : ReqChange) (s : State) : State :=
  { s with eocia := { s.eocia with changes := s.eocia.changes ++ [(q, x, stepNow s)] } }

/-- Settings of REQ_SETTINGS (R323). -/
def argSettings (c : Cmd) : Settings :=
  let w := arg c 2
  let f := fun n => c.args.getD n 0
  plusZero { temp := f 1, topk := field w 0 11, logpMode := bitOf w 11, maskId := field w 16 8, biasId := field w 24 8,
             topp := f 3, minp := f 4, rep := f 5, freq := f 6, pres := f 7 }

/-- REQ_SETTINGS (R148, R323). -/
def settingsCmd (c : Cmd) (s : State) : State :=
  let q := arg c 0 % 16384
  let x := argSettings c
  judge .reqSettings c
    (onRequest s c ++ [(reservedSet c [(0, 14)] || field (arg c 2) 12 4 ≠ 0, .badArg), (!(settingsOk s c.part x), .badArg)])
    (fun s => await .reqSettings c (stepNow s) (.stamp (stepNow s)) (change q (.settings x) s)) s

/-- Records of a request from a step before the last one stamped, or before the open one, are still being written under PUBLISH_LATE
(R64, R239). -/
def recordsLate (s : State) (q : Nat) : Bool :=
  (s.step.opened && !s.step.stamped && (reqOf s q).any fun e => e.prod != e.prodWritten && !e.state.terminal && e.state != .admitted)
    || (s.evt.late.any fun p => p.req == q && p.step < s.step.step && !p.records.isEmpty)
    || s.hmp.txns.any fun t => match t.after with | .ladleRecord r k => r == q && k < s.step.step | _ => false

/-- REQ_CANCEL (R239, R242): the mark at acceptance, told to every slice (log entry 136), the change at the stamp, the result with the final record. A cancel that
comes while earlier records are being written waits. -/
def cancelCmd (c : Cmd) (s : State) : State :=
  let q := arg c 0 % 16384
  if recordsLate s q then enqueue .reqCancel c s
  else
    judge .reqCancel c (onRequest s c ++ [(reservedSet c [(0, 14)], .badArg)])
      (fun s => await .reqCancel c (stepNow s) (.finalRecord q)
        (change q .cancel (announceOut (stepNow s) (.cancelMark q) (updReq q (fun e => { e with cancelMark := true }) s)))) s

/-- REQ_PAUSE (R259). -/
def pauseCmd (c : Cmd) (s : State) : State :=
  let q := arg c 0 % 16384
  let st := (reqOf s q).map (·.state)
  judge .reqPause c
    (onRequest s c ++ [(reservedSet c [(0, 14)], .badArg), (st == some .paused, .notPaused), (st == some .admitted, .busy)])
    (fun s => await .reqPause c (stepNow s) (.stamp (stepNow s)) (change q .pause s)) s

/-- REQ_RESUME (R259): the first gap after it runs from its acceptance (R68). -/
def resumeCmd (c : Cmd) (s : State) : State :=
  let q := arg c 0 % 16384
  let st := (reqOf s q).map (·.state)
  judge .reqResume c
    (onRequest s c ++ [(reservedSet c [(0, 14)], .badArg), (st != some .paused, .notPaused)])
    (fun s => await .reqResume c (stepNow s) (.stamp (stepNow s)) (change q .resume
      (updReq q (fun e => { e with lastCommitAt := s.timer, lastCommitStep := stepNow s, clockOn := e.hasToken }) s))) s

/-- REQ_EVICT (R260): every slice sends its jars at the first commit stamp, the husk is written at the next. -/
def evictCmd (c : Cmd) (s : State) : State :=
  let q := arg c 0 % 16384
  let st := (reqOf s q).map (·.state)
  judge .reqEvict c
    (onRequest s c ++ [(reservedSet c [(0, 14)], .badArg), (argPair c 1 % 64 ≠ 0, .badArg), (st != some .paused, .notPaused),
      ((keySetOf s c.part).all fun k => k.husks ≥ 2 ^ 32 - 1, .busy)])
    (fun s => announceOut (stepNow s) (.evict q)
      (await .reqEvict c (stepNow s) (.evicted q) (change q (.evict (argPair c 1) (arg c 3))
        (updReq q (fun e => { e with evictStage := 1, shares := [] }) s)))) s

/-- REQ_MOVE (R229): DRAINING at acceptance, two commit stamps, then the earlier state on the new home slice. -/
def moveCmd (c : Cmd) (s : State) : State :=
  let q := arg c 0 % 16384
  let n := arg c 1
  judge .reqMove c
    (onRequest s c ++ [(reservedSet c [(0, 14), (1, 6)], .badArg), (n ≥ groupSize s || isHole s n, .badArg)])
    (fun s => announce (stepNow s) (.outcome ⟨q, stepNow s, ReqState.draining.code, [], 0, 0, false, none, none, false, none, 0, []⟩)
      (await .reqMove c (stepNow s) (.moved q) (change q (.move n)
        (updReq q (fun e => { e with prior := e.state, state := .draining, moveStage := 1, moveTo := n }) s)))) s

/-- Words of REQ_QUERY (Table 11.7). -/
def queryWords (e : ReqEntry) (home : Nat) : List Word :=
  [BitVec.ofNat 32 (e.state.code + 2 ^ 4 * b01 (e.stallSteps > 0) + 2 ^ 5 * b01 e.cancelMark + 2 ^ 6 * e.lateCount
      + 2 ^ 9 * b01 e.hasToken + 2 ^ 16 * home + 2 ^ 22 * e.info.tenant),
   BitVec.ofNat 32 (if e.hasToken then e.ttftUs else 0), BitVec.ofNat 32 e.gapUs,
   BitVec.ofNat 32 (min 65535 e.gapSteps + 2 ^ 16 * (e.windowLen % 2 ^ 16)), BitVec.ofNat 32 e.draws, BitVec.ofNat 32 e.prodWritten,
   BitVec.ofNat 32 e.cons, BitVec.ofNat 32 e.outLeft]

/-- Result words numbered from 0. -/
def numbered (ws : List Word) : List (Nat × Word) := ws.zipIdx.map fun p => (p.2, p.1)

/-- REQ_QUERY (R241). -/
def queryCmd (c : Cmd) (s : State) : State :=
  let q := arg c 0 % 16384
  let e := reqOf s q
  judge .reqQuery c
    [(e.isNone, .noSuch), ((e.any fun x => x.info.part != c.part), .denied), (reservedSet c [(0, 14)], .badArg)]
    (fun s => complete .reqQuery c .ok (match e with | some x => numbered (queryWords x (homeOf s q)) | none => []) s) s

/-! ## Meanings -/

/-- REQ_ADMIT. -/
def execReqAdmit (c : Cmd) (s : State) : Host.Outcome State Fault Refusal := .next (takeUp .reqAdmit (admitCmd .reqAdmit) c s)

/-- REQ_ADMIT_ACORN. -/
def execReqAdmitAcorn (c : Cmd) (s : State) : Host.Outcome State Fault Refusal :=
  .next (takeUp .reqAdmitAcorn (admitCmd .reqAdmitAcorn) c s)

/-- REQ_SETTINGS. -/
def execReqSettings (c : Cmd) (s : State) : Host.Outcome State Fault Refusal := .next (takeUp .reqSettings settingsCmd c s)

/-- REQ_CANCEL. -/
def execReqCancel (c : Cmd) (s : State) : Host.Outcome State Fault Refusal := .next (takeUp .reqCancel cancelCmd c s)

/-- REQ_PAUSE. -/
def execReqPause (c : Cmd) (s : State) : Host.Outcome State Fault Refusal := .next (takeUp .reqPause pauseCmd c s)

/-- REQ_RESUME. -/
def execReqResume (c : Cmd) (s : State) : Host.Outcome State Fault Refusal := .next (takeUp .reqResume resumeCmd c s)

/-- REQ_EVICT. -/
def execReqEvict (c : Cmd) (s : State) : Host.Outcome State Fault Refusal := .next (takeUp .reqEvict evictCmd c s)

/-- HUSK_RESUME. -/
def execHuskResume (c : Cmd) (s : State) : Host.Outcome State Fault Refusal := .next (takeUp .huskResume huskResumeCmd c s)

/-- REQ_MOVE. -/
def execReqMove (c : Cmd) (s : State) : Host.Outcome State Fault Refusal := .next (takeUp .reqMove moveCmd c s)

/-- REQ_QUERY. -/
def execReqQuery (c : Cmd) (s : State) : Host.Outcome State Fault Refusal := .next (takeUp .reqQuery queryCmd c s)

end Sys2Proof.Machine
end

