-- ==== Sys2Proof/Machine/TenantCmds.lean ====
section
/-! DEFINITION. Tenant, Acorn and variant commands (Table 15.8; R244 to R258, R265). -/

namespace Sys2Proof.Machine

/-! ## Tenants (R245, R246) -/

/-- A tenant that was never bound (Table 12.1). -/
def Tenant.blank (u : Nat) : Tenant :=
  { tenant := u, part := 0, bound := false, reserve := 17, balance := 0, credited := 0, drained := 0, debited := 0,
    debitedAtTick := 0, committed := 0 }

/-- The record of tenant u. -/
def tenantRec (s : State) (u : Nat) : Tenant := (tenantOf s u).getD (Tenant.blank u)

/-- A tenant's record changed. -/
def updTenant (u : Nat) (f : Tenant → Tenant) (s : State) : State :=
  if s.tenants.any fun t => t.tenant == u then { s with tenants := updFirst (fun t => t.tenant == u) f s.tenants }
  else { s with tenants := s.tenants ++ [f (Tenant.blank u)] }

/-- A request that is not FREE and not terminal names the tenant, in an admission of step n or before. -/
def tenantNamed (s : State) (u n : Nat) : Bool :=
  s.reqs.any fun e => e.info.tenant == u && !e.state.terminal && e.info.admitStep ≤ n

/-- A change of tenant u that is accepted and not applied. -/
def pendingTenant (s : State) (u : Nat) (f : TenantChange → Bool) : Bool :=
  s.held.any fun m => match m.item with | .tenant v x => v == u && f x | _ => false

/-- Credits of tenant u accepted and not applied (R246). -/
def pendingCredits (s : State) (u : Nat) : Nat :=
  total (s.held.filterMap fun m => match m.item with | .tenant v (.credit a) => if v = u then some a else none | _ => none)

/-- The refusals that a tenant command meets first: reserved bits, a tenant of another partition. -/
def onTenant (s : State) (c : Cmd) : List (Bool × Status) :=
  let t := tenantRec s (arg c 0 % 1024)
  [(reservedSet c [(0, 10)], .badArg), (t.bound && t.part != c.part, .denied)]

/-- A tenant change accepted at the holder: announced for its step, complete at the given moment. -/
def tenantChange (op : Op) (c : Cmd) (x : TenantChange) (w : Nat → Wait) (s : State) : State :=
  let n := stepNow s
  await op c n (w n) (announce n (.tenant (arg c 0 % 1024) x) s)

/-- RESERVE of ARG1 within 1 to 17. -/
def reserveBad (c : Cmd) : Bool := arg c 1 < 1 || arg c 1 > 17

/-- TENANT_BIND. A bind that is accepted and not applied counts as bound (DESIGN CHOICE 30). -/
def bindCmd (c : Cmd) (s : State) : State :=
  let u := arg c 0 % 1024
  let pend := pendingTenant s u fun x => match x with | .bind .. => true | _ => false
  judge .tenantBind c (onTenant s c ++ [(reserveBad c, .badArg), ((tenantRec s u).bound || pend, .busy)])
    (tenantChange .tenantBind c (.bind c.part (arg c 1)) .stamp) s

/-- TENANT_CREDIT. -/
def creditCmd (c : Cmd) (s : State) : State :=
  let u := arg c 0 % 1024
  let t := tenantRec s u
  judge .tenantCredit c
    (onTenant s c ++ [(!t.bound, .badArg), (arg c 1 = 0, .badArg),
      (t.balance + pendingCredits s u + arg c 1 > 2 ^ 48 - 1, .badArg)])
    (tenantChange .tenantCredit c (.credit (arg c 1)) .stamp) s

/-- TENANT_DRAIN. -/
def drainCmd (c : Cmd) (s : State) : State :=
  judge .tenantDrain c (onTenant s c ++ [(!(tenantRec s (arg c 0 % 1024)).bound, .badArg)])
    (tenantChange .tenantDrain c (.drain (arg c 1)) .publish) s

/-- TENANT_RESERVE. -/
def reserveCmd (c : Cmd) (s : State) : State :=
  judge .tenantReserve c (onTenant s c ++ [(!(tenantRec s (arg c 0 % 1024)).bound || reserveBad c, .badArg)])
    (tenantChange .tenantReserve c (.reserve (arg c 1)) .stamp) s

/-- TENANT_UNBIND. -/
def unbindCmd (c : Cmd) (s : State) : State :=
  let u := arg c 0 % 1024
  judge .tenantUnbind c
    (onTenant s c ++ [(!(tenantRec s u).bound, .badArg), (tenantNamed s u (stepNow s), .busy)])
    (tenantChange .tenantUnbind c .unbind .publish) s

/-- Words of TENANT_QUERY (Table 12.1). -/
def tenantWords (t : Tenant) : List Word :=
  let w := fun n => BitVec.ofNat 32 n
  [w ((if t.bound then t.part else 0) + 2 ^ 4 * b01 t.bound + 2 ^ 5 * t.reserve), w (2 ^ 16 * (t.balance / 2 ^ 32)), w t.balance,
   w t.credited, w (t.credited / 2 ^ 32), w t.drained, w (t.drained / 2 ^ 32), w t.debited, w (t.debited / 2 ^ 32)]

/-- The words of an unbound tenant: BOUND 0, every other field as the last unbind left it (Table 12.2). -/
def tenantQueryWords (t : Tenant) : List Word :=
  if t.bound then tenantWords t
  else (tenantWords t).set 0 (BitVec.ofNat 32 (t.part + 2 ^ 5 * t.reserve))

/-- The record that TENANT_QUERY reports: all zero for a tenant not bound since reset (Table 12.2). -/
def tenantReport (s : State) (u : Nat) : List Word :=
  match tenantOf s u with
  | some t => tenantQueryWords t
  | none => List.replicate 9 0

/-- TENANT_QUERY (R245). -/
def tenantQueryCmd (c : Cmd) (s : State) : State :=
  judge .tenantQuery c (onTenant s c)
    (fun s => complete .tenantQuery c .ok (numbered (tenantReport s (arg c 0 % 1024))) s) s

/-- A tenant change of a step applied, with the amount drained (Table 12.2, R246). DESIGN CHOICE 140: a credit that was accepted after an
unbind which belongs to the same step is added to the balance and CREDITED of the unbound record; the spec is silent. -/
def applyTenant (u n : Nat) (x : TenantChange) (s : State) : State × Option Nat :=
  let t := tenantRec s u
  match x with
  | .bind p r =>
    (updTenant u (fun t => if t.bound then t else
      { t with part := p, bound := true, reserve := r, balance := 0, credited := 0, drained := 0, debited := 0,
               debitedAtTick := 0, committed := 0 }) s, some 0)
  | .credit a => (updTenant u (fun t => { t with balance := t.balance + a, credited := t.credited + a }) s, some 0)
  | .drain a =>
    let d := min a t.balance
    (updTenant u (fun t => { t with balance := t.balance - d, drained := t.drained + d }) s, some d)
  | .reserve r => (updTenant u (fun t => { t with reserve := r }) s, some 0)
  | .unbind =>
    if tenantNamed s u n then (s, none)
    else (updTenant u (fun t => { t with bound := false, balance := 0, drained := t.drained + t.balance }) s, some t.balance)

/-! ## Acorns (R252 to R256) -/

/-- ACORN_TAKE commands of a partition that are accepted and not applied, by handle. -/
def pendingTakes (s : State) (p : Nat) : List Word :=
  s.held.filterMap fun m => match m.item with | .acornTake r h _ => if r = p then some h else none | _ => none

/-- A handle is in use in a partition: an Acorn holds it, or a load or an accepted ACORN_TAKE is about to. An accepted ACORN_DROP has
freed it from its step on (R256). -/
def handleUsed (s : State) (p : Nat) (h : Word) : Bool :=
  (s.acorns.any fun a => a.part == p && a.handle == h && !a.dropped && !(a.ready && pendingDrop s p h)) || (pendingTakes s p).contains h

/-- The partition holds 4,096 Acorns, those of accepted commands counted (Table 12.6). -/
def acornsFull (s : State) (p : Nat) : Bool :=
  (s.acorns.filter fun a => a.part == p && !a.dropped).length + (pendingTakes s p).length ≥ 4096

/-- The Acorn of a handle that is being loaded. -/
def loadingOf (s : State) (p : Nat) (h : Word) : Option Acorn :=
  s.acorns.find? fun a => a.part == p && a.handle == h && !a.dropped && !a.ready

/-- The Acorn of a handle that is being loaded, changed. -/
def updLoading (p : Nat) (h : Word) (f : Acorn → Acorn) (s : State) : State :=
  { s with acorns := updFirst (fun a => a.part == p && a.handle == h && !a.dropped && !a.ready) f s.acorns }

/-- A uid that no Acorn of this slice has. -/
def nextUid (s : State) : Nat := s.acorns.foldl (fun n a => max n (a.uid + 1)) 0

/-- An Acorn on this slice before its load; a report may have made it already. -/
def acornNew (p : Nat) (h : Word) (s : State) : State :=
  if (loadingOf s p h).isSome then s
  else { s with acorns := s.acorns ++ [{ part := p, handle := h, uid := nextUid s, entries := 0, jars := [], reports := [], ready := false,
                                         dropped := false, uses := [] }] }

/-- An Acorn that some slice could not take is gone here, with its lines. -/
def acornFail (p : Nat) (h : Word) (s : State) : State :=
  match loadingOf s p h with
  | none => s
  | some a => freeLines p (.acorn a.uid) { s with acorns := s.acorns.erase a }

/-- A pending load of an Acorn. -/
def loadsAcorn (p : Nat) (h : Word) (x : PendCmd) : Bool := x.wait == .acornLoad h && x.cmd.part == p

/-- The verdict on a load is announced and waits for PUBLISH. -/
def acornDecided (s : State) (p : Nat) (h : Word) : Bool :=
  s.held.any fun m => match m.item with | .acornSettled r g _ _ => r == p && g == h | _ => false

/-- The holder decides once every member has reported: the Acorn belongs to the step of the last report and is applied in its PUBLISH
(R244; log entry 138), or the command ends with the first of R325's order and every slice drops what it loaded (R252). -/
def acornDecide (p : Nat) (h : Word) (s : State) : State :=
  match loadingOf s p h with
  | none => s
  | some a =>
    if acornDecided s p h || !((members s).all fun n => a.reports.any fun r => r.1 == n) then s
    else
      let code := a.reports.foldl (fun c r => worseOf c r.2.1) 0
      if code = 0 then announce (stepNow s) (.acornSettled p h 0 (a.reports.map fun r => (r.1, r.2.2))) s
      else acornFail p h (announceOut (stepNow s) (.acornSettled p h code []) (finish (loadsAcorn p h) (fun _ => loadStatus code) (fun _ => []) s))

/-- A slice's report of its load reaches the holder, before the holder's own load or after. -/
def acornReported (src p : Nat) (h : Word) (st : BitVec 16) (n : Nat) (s : State) : State :=
  acornDecide p h (updLoading p h (fun a => { a with reports := a.reports ++ [(src, st, n)] }) (acornNew p h s))

/-- This slice reports its load to the partition holder. -/
def reportAcorn (p : Nat) (h : Word) (st : BitVec 16) (n : Nat) (s : State) : State :=
  if holderOf s p = me s then acornReported (me s) p h st n s
  else send (holderOf s p) (.stateSync ⟨me s, stepNow s, .acornReport p h st n⟩) s

/-- This slice's share of an Acorn: its lines and jars, and the report (R252). -/
def acornLoaded (p : Nat) (h : Word) (jars : Except Status (List (Nat × Nat))) (s : State) : State :=
  match loadingOf s p h, jars with
  | none, _ => s
  | _, .error st => reportAcorn p h st.code 0 s
  | some a, .ok j =>
    match allocLines p (.acorn a.uid) (ceilDiv j.length 15) s with
    | .error e => reportAcorn p h e.status.code 0 s
    | .ok t => reportAcorn p h 0 j.length (updLoading p h (fun a => { a with jars := j }) t)

/-- The verdict on a load applied in PUBLISH: the Acorn is in every slice's table, and the holder's command completes. -/
def acornSettle (p : Nat) (h : Word) (shares : List (Nat × Nat)) (s : State) : State :=
  finish (loadsAcorn p h) (fun _ => .ok) (fun _ => [])
    (updLoading p h (fun a => { a with ready := true, entries := total (shares.map (·.2)), reports := shares.map fun x => (x.1, 0, x.2) }) s)

/-- The load of an Acorn begins on a slice (R252). -/
def acornBegin (p : Nat) (h : Word) (addr n : Nat) (s : State) : State :=
  let s := acornNew p h s
  if n = 0 then acornLoaded p h (.ok []) s
  else hmpRead p addr (8 * n) .rdb (.acornList p (((loadingOf s p h).map (·.uid)).getD 0)) s

/-- The list of an Acorn has been read on this slice. -/
def acornArrived (p u : Nat) (bs : Option Bytes) (s : State) : State :=
  match s.acorns.find? fun a => a.part == p && a.uid == u && !a.ready with
  | none => s
  | some a =>
    let j : Except Status (List (Nat × Nat)) := match bs with
      | none => .error .busy
      | some b => match countList (vocab s) b (b.length / 8) with
        | none => .error .badArg
        | some l => .ok (jarsIn (myRuns s) l)
    acornLoaded p a.handle j s

/-- ACORN_MAKE (R252). -/
def acornMakeCmd (c : Cmd) (s : State) : State :=
  let h := c.args.getD 0 0
  judge .acornMake c
    [(h = 0 || arg c 3 > 30720 || acornsFull s c.part, .badArg), (handleUsed s c.part h, .busy)]
    (fun s => acornBegin c.part h (argPair c 1) (arg c 3)
      (announceOut (stepNow s) (.acornMake c.part h (argPair c 1) (arg c 3))
        (await .acornMake c (stepNow s) (.acornLoad h) s))) s

/-- ACORN_TAKE (R229, R253). -/
def acornTakeCmd (c : Cmd) (s : State) : State :=
  let h := c.args.getD 0 0
  let e := reqOf s (arg c 1 % 16384)
  let mine := e.filter fun x => x.info.part == c.part
  judge .acornTake c
    [(mine.isNone, .noSuch), ((mine.any fun x => x.state.terminal || x.cancelMark), .already),
     (h = 0 || reservedSet c [(1, 14)] || acornsFull s c.part, .badArg),
     (handleUsed s c.part h || (mine.any fun x => x.state == .draining), .busy)]
    (fun s => await .acornTake c (stepNow s) (.acornLoad h) (announce (stepNow s) (.acornTake c.part h (arg c 1)) s)) s

/-- ACORN_TAKE applied in PUBLISH of its step: the request's counts after the step's outcome are captured here (R253); the handle is in
use for admissions once every slice has told that it could take its share (log entry 138). -/
def applyTake (p : Nat) (h : Word) (q : Nat) (s : State) : State :=
  let jars := ((reqOf s q).map (·.jars)).getD []
  acornLoaded p h (.ok jars) (acornNew p h s)

/-- ACORN_DROP (R256). DESIGN CHOICE 139: a handle that is not in use, or whose Acorn is still being loaded, answers BAD_ARG; the spec names
no status. -/
def acornDropCmd (c : Cmd) (s : State) : State :=
  let h := c.args.getD 0 0
  judge .acornDrop c [((acornOf s c.part h).isNone, .badArg)]
    (fun s => await .acornDrop c (stepNow s) (.stamp (stepNow s)) (announce (stepNow s) (.acornDrop c.part h) s)) s

/-- The Acorn of a handle is dropped. -/
def dropAcorn (p : Nat) (h : Word) (s : State) : State :=
  { s with acorns := updFirst (fun a => a.part == p && a.handle == h && !a.dropped && a.ready) (fun a => { a with dropped := true }) s.acorns }

/-- ACORN_DROP applied in PUBLISH of its step. -/
def applyAcornDrop (p : Nat) (h : Word) (s : State) : State := acornSweep (dropAcorn p h s)

/-- A slice has left: loads of Acorns cannot end, since its share of them is gone. The command answers BUSY (DESIGN CHOICE 138). -/
def acornsLost (s : State) : State :=
  let l := s.acorns.filter fun a => !a.ready && !a.dropped
  l.foldl (fun s a => acornFail a.part a.handle (finish (loadsAcorn a.part a.handle) (fun _ => .busy) (fun _ => []) s)) s

/-! ## Variants (R257, R258) -/

/-- A variant number is registered in a partition: its drop, if any, has not been applied. -/
def registered (s : State) (p n : Nat) : Bool := s.variants.any fun v => v.part == p && v.num == n && v.untilStep.isNone

/-- Registrations accepted and not applied. -/
def pendingRegs (s : State) (p : Nat) : List Nat :=
  s.held.filterMap fun m => match m.item with | .variantReg r n => if r = p then some n else none | _ => none

/-- A variant governs the rows of a step (R257, R258). -/
def variantGoverns (s : State) (p n step : Nat) : Bool :=
  s.variants.any fun v => v.part == p && v.num == n && v.fromStep ≤ step
    && (match v.untilStep with | none => true | some u => step < u)

/-- VARIANT_REG (R257). DESIGN CHOICE 141: a registration that is accepted and not applied counts as registered, for BUSY and toward the 64;
the spec speaks of registered variants only. -/
def variantRegCmd (c : Cmd) (s : State) : State :=
  let n := arg c 0
  let have_ := (s.variants.filter fun v => v.part == c.part && v.untilStep.isNone).length + (pendingRegs s c.part).length
  judge .variantReg c
    [(n = 0 || reservedSet c [(0, 12)], .badArg), (registered s c.part n || (pendingRegs s c.part).contains n, .busy),
     (have_ ≥ 64, .badArg)]
    (fun s => await .variantReg c (stepNow s) (.stamp (stepNow s)) (announce (stepNow s) (.variantReg c.part n) s)) s

/-- VARIANT_DROP (R258). -/
def variantDropCmd (c : Cmd) (s : State) : State :=
  let n := arg c 0
  judge .variantDrop c [(n = 0 || reservedSet c [(0, 12)] || !(registered s c.part n), .badArg)]
    (fun s => await .variantDrop c (stepNow s) (.stamp (stepNow s)) (announce (stepNow s) (.variantDrop c.part n) s)) s

/-! ## Meanings -/

/-- TENANT_BIND. -/
def execTenantBind (c : Cmd) (s : State) : Host.Outcome State Fault Refusal := .next (takeUp .tenantBind bindCmd c s)

/-- TENANT_CREDIT. -/
def execTenantCredit (c : Cmd) (s : State) : Host.Outcome State Fault Refusal := .next (takeUp .tenantCredit creditCmd c s)

/-- TENANT_DRAIN. -/
def execTenantDrain (c : Cmd) (s : State) : Host.Outcome State Fault Refusal := .next (takeUp .tenantDrain drainCmd c s)

/-- TENANT_RESERVE. -/
def execTenantReserve (c : Cmd) (s : State) : Host.Outcome State Fault Refusal := .next (takeUp .tenantReserve reserveCmd c s)

/-- TENANT_UNBIND. -/
def execTenantUnbind (c : Cmd) (s : State) : Host.Outcome State Fault Refusal := .next (takeUp .tenantUnbind unbindCmd c s)

/-- TENANT_QUERY. -/
def execTenantQuery (c : Cmd) (s : State) : Host.Outcome State Fault Refusal := .next (takeUp .tenantQuery tenantQueryCmd c s)

/-- ACORN_MAKE. -/
def execAcornMake (c : Cmd) (s : State) : Host.Outcome State Fault Refusal := .next (takeUp .acornMake acornMakeCmd c s)

/-- ACORN_TAKE. -/
def execAcornTake (c : Cmd) (s : State) : Host.Outcome State Fault Refusal := .next (takeUp .acornTake acornTakeCmd c s)

/-- ACORN_DROP. -/
def execAcornDrop (c : Cmd) (s : State) : Host.Outcome State Fault Refusal := .next (takeUp .acornDrop acornDropCmd c s)

/-- VARIANT_REG. -/
def execVariantReg (c : Cmd) (s : State) : Host.Outcome State Fault Refusal := .next (takeUp .variantReg variantRegCmd c s)

/-- VARIANT_DROP. -/
def execVariantDrop (c : Cmd) (s : State) : Host.Outcome State Fault Refusal := .next (takeUp .variantDrop variantDropCmd c s)

end Sys2Proof.Machine
end

