-- ==== Sys2Proof/Machine/Objects.lean ====
section
/-! DEFINITION. System and load commands (Table 15.6): INFO, PIP_PROBE, PART_BACKING, RANGE_LOAD, mask objects, bias lists, heads
and overlays (R15 to R19, R78, R85, R91, R107, R149 to R151, R319 to R322). -/

namespace Sys2Proof.Machine

/-! ## INFO and PIP_PROBE -/

/-- Result words of INFO (R319). -/
def infoWords (s : State) : List Word :=
  let w := fun n => BitVec.ofNat 32 n
  [w (3 + 2 * 2 ^ 16), 0x00030002#32,
   w (me s + 2 ^ 6 * s.group.size + 2 ^ 13 * tickMaster s + 2 ^ 19 * b01 s.group.solo),
   w (2 * (epochs s).toNat), w (features s).toNat, w (s.kit.pans - s.power.fenced.length)]

/-- INFO. -/
def infoCmd (c : Cmd) (s : State) : State :=
  judge .info c [] (fun s => complete .info c .ok (numbered (infoWords s)) s) s

/-- PIP_PROBE (R167 to R172). DESIGN CHOICE 143: its word is work done, so it counts in PIP_L_RUNS or PIP_T_WORDS (R179) and traces a
Pip-L run, with request 0; Table 15.6 says that the command has no side effect. -/
def pipProbeCmd (f : PipFault) (c : Cmd) (s : State) : State :=
  let p := arg c 3 % 256
  let seed := BitVec.ofNat 64 (argPair c 0)
  let w := pip s seed (c.args.getD 2 0) (BitVec.ofNat 8 p) (bitOf (arg c 3) 8) (c.args.getD 4 0) (c.args.getD 5 0)
  judge .pipProbe c [(reservedSet c [(3, 9)] || p = 0 || p > 4, .badArg)]
    (fun s => complete .pipProbe c .ok [(0, w)] (pipWork 0 (bitOf (arg c 3) 8) [arg c 5] (parityError f s))) s

/-! ## PART_BACKING (R107, R398, R416, R430) -/

/-- A slice's registration recorded, replacing an earlier one. -/
def registerBacking (b : Backing) (s : State) : State :=
  { s with backings := (s.backings.filter fun x => !(x.slice == b.slice && x.part == b.part)) ++ [b] }

/-- PART_BACKING. -/
def backingCmd (c : Cmd) (s : State) : State :=
  let first := arg c 2
  let n := arg c 3
  let holds := s.reqs.any fun e => e.info.part == c.part
  judge .partBacking c
    [(argPair c 0 % 128 ≠ 0 || reservedSet c [(2, 14), (3, 15), (4, 4)] || arg c 4 > 11, .badArg),
     (n < 1 || first + n > 16384, .badArg),
     (holds && !(s.group.idle.contains (me s)), .busy), ((keySetOf s c.part).isNone, .busy)]
    (fun s => complete .partBacking c .ok []
      (announceOut (stepNow s) (.backing c.part first n (2 ^ arg c 4))
        (registerBacking ⟨me s, c.part, argPair c 0, first, n, 2 ^ arg c 4⟩ s))) s

/-! ## RANGE_LOAD (R15 to R19, R322, R450, R454) -/

/-- The busy conditions of RANGE_LOAD (R322). -/
def rangeBusy (s : State) : Bool :=
  !s.heads.isEmpty || !s.announced.isEmpty || !s.reqs.isEmpty || s.training.isSome || s.group.regroup.isSome
    || s.group.nextTable.isSome

/-- A table keeps R15 to R17 for V: disjoint runs of at most 1,024 chunks that cover chunks 0 to C − 1 exactly; in solo
service one run within them (R450). -/
def tableOk (formed : Bool) (v : Nat) (t : List RangeEntry) : Bool :=
  let c := chunksOf v
  let runs := sortBy (fun (a b : RangeEntry) => a.first < b.first) (t.filter fun r => r.count > 0)
  256 ≤ v && v ≤ 4194304 && (t.all fun r => r.count ≤ 1024)
    && if formed then (runs.foldl (fun (a : Option Nat) r => if a == some r.first then some (r.first + r.count) else none) (some 0)) == some c
       else runs.all fun r => r.first + r.count ≤ c

/-- Entries of a range table (R322): none when a reserved bit is set. -/
def tableEntries (g : Nat) (bs : Bytes) : Option (List RangeEntry) :=
  let ws := (List.range g).map fun i => (leAt bs (8 * i) 4, leAt bs (8 * i + 4) 4)
  if ws.all fun w => w.1 / 2 ^ 25 = 0 && w.2 = 0 then
    some (ws.map fun w => { first := field w.1 0 14, count := field w.1 14 11 })
  else none

/-- This slice stores a table that does not govern yet (R322). -/
def storeTable (v : Nat) (t : List RangeEntry) (s : State) : State :=
  let ns := if s.group.nextTable == some (v, t) then addOnce s.group.nextStored (me s) else [me s]
  let s := { s with group := { s.group with nextTable := some (v, t), nextStored := ns } }
  announceOut (stepNow s) .rangeStored s

/-- A valid table is accepted: sent to every member, stored here (R322). `busy`: a BUSY condition held at acceptance. -/
def rangeAccepted (c : Cmd) (v : Nat) (busy : Bool) (t : List RangeEntry) (s : State) : State :=
  judge .rangeLoad c [(!(tableOk s.group.formed v t), .badArg), (busy || rangeBusy s, .busy)]
    (fun s => await .rangeLoad c (stepNow s) .range (storeTable v t (flood (.range v t) s))) s

/-- RANGE_LOAD at the tick master: a table that breaks R15 to R17 answers BAD_ARG before a BUSY condition does, so it is read (R325). -/
def rangeCmd (c : Cmd) (s : State) : State :=
  let addr := argPair c 0
  let v := arg c 2
  if s.group.formed && addr = 0 then rangeAccepted c v false (defaultRanges v s.group.size) s
  else
    judge .rangeLoad c [(v < 256 || v > 4194304, .badArg)]
      (hmpRead c.part addr (8 * groupSize s) .rdb (.rangeTable c v (rangeBusy s))) s

/-- The table of a RANGE_LOAD has been read. -/
def rangeRead (c : Cmd) (v : Nat) (busy : Bool) (bs : Bytes) (s : State) : State :=
  match tableEntries (groupSize s) bs with
  | some t => rangeAccepted c v busy t s
  | none => judge .rangeLoad c [(true, .badArg)] id s

/-- RANGE arrives at a slice. -/
def rangeArrives (v : Nat) (t : List RangeEntry) (s : State) : State := storeTable v t s

/-- A member has stored the table. -/
def rangeStoredBy (n : Nat) (s : State) : State := { s with group := { s.group with nextStored := addOnce s.group.nextStored n } }

/-! ## Mask objects and bias lists (R149 to R151, R321) -/

/-- The runs whose objects and strips a slice loads: those it serves, or its pending range (R430). -/
def loadRuns (s : State) : List RangeEntry :=
  if s.group.formed && s.group.idle.contains (me s) then ((s.group.ranges[me s]?).toList).filter fun r => r.count > 0
  else myRuns s

/-- The words of a mask object for runs, from those read at an address (R49, R149): none while some are missing. -/
def maskWords (m : MaskObj) (addr : Nat) : List RangeEntry → Option Bytes
  | [] => some []
  | r :: rs =>
    match m.came.find? fun x => x.1 == addr && x.2.1 == r, maskWords m addr rs with
    | some x, some rest => some (x.2.2 ++ rest)
    | _, _ => none

/-- Entries of a bias list (R150): none when it breaks the rule. -/
def biasList (v : Nat) (bs : Bytes) : Option (List (Nat × F32)) :=
  let l := (List.range (bs.length / 8)).map fun i => (leAt bs (8 * i) 4, wordAt bs (8 * i + 4))
  let rising := (l.zip (l.drop 1)).all fun p => p.1.1 < p.2.1
  let okBias := fun (b : F32) => b = negInf || inRange 0xC9800000#32 0x49800000#32 b
  if rising && l.all fun e => e.1 < v && okBias e.2 then some l else none

/-- A mask object before its first load. -/
def MaskObj.blank (p id : Nat) : MaskObj :=
  { part := p, id := id, cur := none, curAt := 0, next := none, nextAt := 0, load := none, came := [], deleting := false }

/-- A bias list before its first load. -/
def BiasObj.blank (p id : Nat) : BiasObj :=
  { part := p, id := id, cur := none, curAt := 0, curN := 0, next := none, nextAt := 0, nextN := 0, load := none, came := [], deleting := false }

/-- The mask object of an id. -/
def maskOf (s : State) (p id : Nat) : Option MaskObj := s.masks.find? fun m => m.part == p && m.id == id

/-- The bias list of an id. -/
def biasOf (s : State) (p id : Nat) : Option BiasObj := s.biases.find? fun m => m.part == p && m.id == id

/-- The mask object of an id changed, or made. -/
def updMask (p id : Nat) (f : MaskObj → MaskObj) (s : State) : State :=
  if (maskOf s p id).isSome then { s with masks := updFirst (fun m => m.part == p && m.id == id) f s.masks }
  else { s with masks := s.masks ++ [f (MaskObj.blank p id)] }

/-- The bias list of an id changed, or made. -/
def updBias (p id : Nat) (f : BiasObj → BiasObj) (s : State) : State :=
  if (biasOf s p id).isSome then { s with biases := updFirst (fun m => m.part == p && m.id == id) f s.biases }
  else { s with biases := s.biases ++ [f (BiasObj.blank p id)] }

/-- Objects without a version in force, coming or being loaded are no objects. -/
def sweepObjects (s : State) : State :=
  { s with masks := s.masks.filter fun m => m.cur.isSome || m.next.isSome || m.load.isSome
           biases := s.biases.filter fun m => m.cur.isSome || m.next.isSome || m.load.isSome }

/-- The version of an object that could not be taken everywhere is dropped. -/
def dropLoad (bias : Bool) (p id : Nat) (s : State) : State :=
  let s := freeUses (fun u => u.part == p && u.use == (if bias then .biasNew id else .maskNew id)) s
  sweepObjects (if bias then updBias p id (fun m => { m with load := none }) s else updMask p id (fun m => { m with load := none }) s)

/-- A pending load of an object that its holder has not decided. -/
def loadsObj (bias : Bool) (p id : Nat) (x : PendCmd) : Bool := x.wait == .objLoad bias id && x.cmd.part == p

/-- A pending load of an object that every slice is to apply. -/
def appliesObj (bias : Bool) (p id : Nat) (x : PendCmd) : Bool := x.wait == .objApplied bias id && x.cmd.part == p

/-- The holder decides a load once every member has reported (R151, R321): it belongs to the step of the last report, and its command then
waits until every slice has applied it. A refusal answers with the first status of R325's order. -/
def objDecide (bias : Bool) (p id : Nat) (s : State) : State :=
  match s.eocia.pending.find? (loadsObj bias p id) with
  | none => s
  | some x =>
    if !((members s).all fun n => x.reported.contains n) then s
    else if x.status = 0 then
      let n := stepNow s
      let put := fun (x : PendCmd) => { x with step := n, wait := .objApplied bias id, reported := [] }
      announce n (.objReport p id bias 0) { s with eocia := { s.eocia with pending := updFirst (loadsObj bias p id) put s.eocia.pending } }
    else
      dropLoad bias p id (announceOut (stepNow s) (.objReport p id bias x.status)
        (finish (loadsObj bias p id) (fun _ => loadStatus x.status) (fun _ => []) s))

/-- A member's report of its load reaches the holder. -/
def objReported (src : Nat) (bias : Bool) (p id : Nat) (st : BitVec 16) (s : State) : State :=
  let put := fun (x : PendCmd) => { x with reported := addOnce x.reported src, status := worseOf x.status st }
  objDecide bias p id { s with eocia := { s.eocia with pending := updFirst (loadsObj bias p id) put s.eocia.pending } }

/-- A slice reports its load to the partition holder. -/
def reportObj (bias : Bool) (p id : Nat) (st : BitVec 16) (s : State) : State :=
  if holderOf s p = me s then objReported (me s) bias p id st s
  else send (holderOf s p) (.stateSync ⟨me s, stepNow s, .objReport p id bias st⟩) s

/-- The load command completes once every slice has applied the load (R151). -/
def objAllApplied (bias : Bool) (p id : Nat) (s : State) : State :=
  finish (fun x => appliesObj bias p id x && (members s).all fun n => x.reported.contains n) (fun _ => .ok) (fun _ => []) s

/-- A member has applied the load. -/
def objAppliedBy (src : Nat) (bias : Bool) (p id : Nat) (s : State) : State :=
  let put := fun (x : PendCmd) => { x with reported := addOnce x.reported src }
  objAllApplied bias p id { s with eocia := { s.eocia with pending := updFirst (appliesObj bias p id) put s.eocia.pending } }

/-- This slice has applied the load, and the partition holder hears of it. -/
def tellApplied (bias : Bool) (p id : Nat) (s : State) : State :=
  if holderOf s p = me s then objAppliedBy (me s) bias p id s
  else send (holderOf s p) (.stateSync ⟨me s, stepNow s, .objApplied p id bias⟩) s

/-- The words of runs of a mask object are read, each slice those of its own runs (R321). -/
def maskFetch (p id addr : Nat) (rs : List RangeEntry) (s : State) : State :=
  rs.foldl (fun s r => hmpRead p (addr + 32 * r.first) (32 * r.count) .rdb (.maskImage p id addr r) s) s

/-- A slice begins to load a mask object: a block, then the words of its runs. -/
def maskBegin (p id addr : Nat) (s : State) : State :=
  match allocBlocks p (.maskNew id) 1 s with
  | .error e => reportObj false p id e.status.code s
  | .ok s =>
    let s := updMask p id (fun m => { m with load := some addr, came := m.came.filter fun x => x.1 != addr }) s
    if (loadRuns s).isEmpty then reportObj false p id 0 s else maskFetch p id addr (loadRuns s) s

/-- A bitmap over new runs: known runs keep their bits, and runs taken over have those read at the version's address (R149, R321); bits
that could not be read are free values (log entry 50). -/
def moveBits (n : Nat) (old new : List RangeEntry) (m : MaskObj) (addr : Nat) (b : Bytes) : Bytes :=
  new.zipIdx.flatMap fun r =>
    if old.contains r.1 then sub b (offsetIn old (256 * r.1.first) / 8) (32 * r.1.count)
    else match maskWords m addr [r.1] with
      | some w => w
      | none => (List.range (32 * r.1.count)).map fun i => Config.takenMask (n + r.2) i

/-- A slice's words of a mask object have been read: for its load, or for a run that it takes over or waits for. -/
def maskArrived (p id addr : Nat) (r : RangeEntry) (bs : Option Bytes) (s : State) : State :=
  match bs, maskOf s p id with
  | _, none => s
  | none, some m => if m.load = some addr then reportObj false p id Status.busy.code s else s
  | some b, some m =>
    let m := { m with came := m.came ++ [(addr, r, b)] }
    let s := updMask p id (fun _ => m) s
    if m.load = some addr then (if (maskWords m addr (loadRuns s)).isSome then reportObj false p id 0 s else s)
    else if m.curAt = addr && (loadRuns s).contains r then
      updMask p id (fun m => { m with cur := m.cur.map (moveBits s.fresh ((loadRuns s).filter fun x => x != r) (loadRuns s) m addr) }) s
    else s

/-- A slice begins to load a bias list. -/
def biasBegin (p id addr n : Nat) (s : State) : State :=
  match allocBlocks p (.biasNew id) 1 s with
  | .error e => reportObj true p id e.status.code s
  | .ok s =>
    hmpRead p addr (8 * n) .rdb (.biasImage p id addr n)
      (updBias p id (fun m => { m with load := some (addr, n), came := m.came.filter fun x => x.1 != addr }) s)

/-- The entries of a bias list that was read at an address, in runs. -/
def biasWords (m : BiasObj) (v addr : Nat) (rs : List RangeEntry) : Option (List (Nat × F32)) :=
  ((m.came.find? fun x => x.1 == addr).bind fun x => biasList v x.2).map fun l => l.filter fun e => inRuns rs e.1

/-- Bias entries over new runs: known runs keep their entries, and runs taken over have those read at the version's address (R150, R321);
entries that could not be read are free values (log entry 50). -/
def moveBias (n : Nat) (old new : List RangeEntry) (v : Nat) (m : BiasObj) (addr : Nat) (l : List (Nat × F32)) : List (Nat × F32) :=
  new.zipIdx.flatMap fun r =>
    if old.contains r.1 then l.filter fun e => inRuns [r.1] e.1
    else match biasWords m v addr [r.1] with
      | some w => w
      | none => (indicesOf [r.1] v).filterMap fun i => (Config.takenBias (n + r.2) i).map fun x => (i, x)

/-- A bias list has been read on a slice. -/
def biasArrived (p id addr : Nat) (bs : Option Bytes) (s : State) : State :=
  match bs, biasOf s p id with
  | _, none => s
  | none, some m => if (m.load.any fun x => x.1 == addr) then reportObj true p id Status.busy.code s else s
  | some b, some m =>
    let s := updBias p id (fun m => { m with came := m.came ++ [(addr, b)] }) s
    if m.load.any fun x => x.1 == addr then
      reportObj true p id (if (biasList (vocab s) b).isSome then 0 else Status.badArg.code) s
    else if m.curAt = addr then
      updBias p id (fun m => { m with cur := m.cur.map fun l => (biasWords m (vocab s) addr (loadRuns s)).getD l }) s
    else s

/-- The words of runs of every object in force are read over HMP: the slice is to serve these runs (R149, R150, R421; log entry 50). -/
def fetchObjects (rs : List RangeEntry) (s : State) : State :=
  let s := s.masks.foldl (fun s m =>
    let s := if m.cur.isSome then maskFetch m.part m.id m.curAt rs s else s
    if m.next.isSome then maskFetch m.part m.id m.nextAt rs s else s) s
  s.biases.foldl (fun s m =>
    let s := if m.cur.isSome then hmpRead m.part m.curAt (8 * m.curN) .rdb (.biasImage m.part m.id m.curAt m.curN) s else s
    if m.next.isSome then hmpRead m.part m.nextAt (8 * m.nextN) .rdb (.biasImage m.part m.id m.nextAt m.nextN) s else s) s

/-- A load of the object is under way. -/
def objLoading (bias : Bool) (p id : Nat) (s : State) : Bool :=
  s.eocia.pending.any (loadsObj bias p id)

/-- MOBJ_LOAD (R151, R321). A load of an id whose load is under way answers BUSY (DESIGN CHOICE 31). -/
def mobjLoadCmd (c : Cmd) (s : State) : State :=
  let id := arg c 0
  judge .mobjLoad c [(id = 0 || reservedSet c [(0, 8)], .badArg), (objLoading false c.part id s, .busy)]
    (fun s => maskBegin c.part id (argPair c 1) (announceOut (stepNow s) (.maskLoad c.part id (argPair c 1))
      (await .mobjLoad c (stepNow s) (.objLoad false id) s))) s

/-- BIAS_LOAD (R150, R151, R321). -/
def biasLoadCmd (c : Cmd) (s : State) : State :=
  let id := arg c 0
  let n := arg c 3
  judge .biasLoad c
    [(id = 0 || reservedSet c [(0, 8)] || n < 1 || n > 4096, .badArg), (objLoading true c.part id s, .busy)]
    (fun s => biasBegin c.part id (argPair c 1) n (announceOut (stepNow s) (.biasLoad c.part id (argPair c 1) n)
      (await .biasLoad c (stepNow s) (.objLoad true id) s))) s

/-- A request that is not terminal, of an admission of step n or before, names an object in its settings; at acceptance
settings that wait for their stamp count too (R165). -/
def objNamed (bias : Bool) (p id n : Nat) (s : State) : Bool :=
  let names := fun (x : Settings) => (if bias then x.biasId else x.maskId) == id
  (s.reqs.any fun e => e.info.part == p && !e.state.terminal && e.info.admitStep ≤ n && names e.info.settings)
    || s.eocia.changes.any fun h => match h.2.1 with
        | .settings x => (reqOf s h.1).any (fun e => e.info.part == p && !e.state.terminal) && names x
        | _ => false

/-- MOBJ_DELETE (R151). -/
def mobjDeleteCmd (c : Cmd) (s : State) : State :=
  let id := arg c 0
  judge .mobjDelete c
    [(id = 0 || reservedSet c [(0, 8)] || !(maskExists s c.part id), .badArg), (objNamed false c.part id (stepNow s) s, .busy)]
    (fun s => await .mobjDelete c (stepNow s) (.publish (stepNow s)) (announce (stepNow s) (.maskDelete c.part id) s)) s

/-- BIAS_DELETE (R151). -/
def biasDeleteCmd (c : Cmd) (s : State) : State :=
  let id := arg c 0
  judge .biasDelete c
    [(id = 0 || reservedSet c [(0, 8)] || !(biasExists s c.part id), .badArg), (objNamed true c.part id (stepNow s) s, .busy)]
    (fun s => await .biasDelete c (stepNow s) (.publish (stepNow s)) (announce (stepNow s) (.biasDelete c.part id) s)) s

/-- Whether a delete of a step is void in PUBLISH (R151). -/
def deleteVoid (bias : Bool) (p id n : Nat) (s : State) : Bool :=
  s.reqs.any fun e => e.info.part == p && !e.state.terminal && e.info.admitStep ≤ n
    && (if bias then e.info.settings.biasId else e.info.settings.maskId) == id

/-- The block of a version is now held for another use. -/
def reuse (p : Nat) (old new : Use) (s : State) : State :=
  { s with pot := { s.pot with uses := s.pot.uses.map fun u => if u.part = p && u.use = old then { u with use := new } else u } }

/-- A delete applied in PUBLISH: the object governs no row from the next TICK, nor does a version that was to govern from then; it is
void while a request names the object. -/
def applyDelete (bias : Bool) (p id n : Nat) (s : State) : State :=
  if deleteVoid bias p id n s then s
  else if bias then
    updBias p id (fun m => { m with deleting := true, next := none }) (freeUses (fun u => u.part == p && u.use == .biasNext id) s)
  else updMask p id (fun m => { m with deleting := true, next := none }) (freeUses (fun u => u.part == p && u.use == .maskNext id) s)

/-- A load's verdict applied in PUBLISH: the new version governs from the next TICK. -/
def applyLoad (bias : Bool) (p id : Nat) (s : State) : State :=
  if bias then
    let s := reuse p (.biasNew id) (.biasNext id) (freeUses (fun u => u.part == p && u.use == .biasNext id) s)
    updBias p id (fun m => match m.load with
      | none => m
      | some a => { m with next := some ((biasWords m (vocab s) a.1 (loadRuns s)).getD []), nextAt := a.1, nextN := a.2, load := none, deleting := false }) s
  else
    let s := reuse p (.maskNew id) (.maskNext id) (freeUses (fun u => u.part == p && u.use == .maskNext id) s)
    updMask p id (fun m => match m.load with
      | none => m
      | some a => { m with next := some (moveBits s.fresh [] (loadRuns s) m a []), nextAt := a, load := none, deleting := false }) s

/-! ## Heads and overlays (R78, R85, R91, R93, R320) -/

/-- FIRST of every strip of a list of runs below V, ascending by run (R320). -/
def stripFirsts (rs : List RangeEntry) (v : Nat) : List Nat :=
  ascending (rs.flatMap fun r => ((List.range (16 * r.count)).map fun j => 256 * r.first + 16 * j).filter (· < v))

/-- The identity that a list of base strips carries, when all carry one (R78). -/
def stripsId (l : List Strip) : Option HeadId :=
  let hs := l.map fun s => stripHdr s.image
  match hs with
  | some h :: _ =>
    if hs.all fun x => match x with
        | some y => !y.overlay && y.headId == h.headId && y.blocks == h.blocks && y.fmtCode == h.fmtCode && y.structCode == h.structCode
        | none => false
    then some { headId := h.headId, blocks := h.blocks, format := h.fmtCode, struct := h.structCode, addr := 0, len := 0 } else none
  | _ => none

/-- The identity of a slice that holds no strips: the one the members announce (R320). -/
def emptyHeadId (s : State) (p : Nat) : HeadId :=
  match headIdOf s p with
  | some h => { h with addr := 0, len := 0 }
  | none => { headId := 0, blocks := 0, format := 0, struct := 0, addr := 0, len := 0 }

/-- The busy conditions of HEAD_LOAD but for blocks (R320). -/
def headBusy (s : State) (p : Nat) : Bool :=
  (headOf s p).isSome || s.training.isSome || s.group.nextTable.isSome
    || s.hmp.jobs.any fun j => match j.purpose with | .headImage c false => c.part == p | _ => false

/-- A head is loaded on this slice: it governs from the next TICK, and its identity is announced (R91, R320). -/
def headPlaced (c : Cmd) (id : HeadId) (strips : List Strip) (s : State) : State :=
  let h : Head := { part := c.part, id := id, area := arg c 3, strips := [], next := some strips,
                    overlays := [], nextOverlays := [], maskVersion := 0, retired := [], lastPruned := 0, lastGrown := 0, newborn := [], places := [], rebuilding := [],
                    coming := none }
  let s := { s with heads := s.heads ++ [h], announced := s.announced ++ [(me s, c.part, id)] }
  complete .headLoad c .ok [(0, BitVec.ofNat 32 strips.length)] (announceOut (stepNow s) (.head c.part id) s)

/-- Blocks of a load at acceptance: the refusal that no command of this kind passes, and whether none is free, which answers BUSY. -/
def roomFor (p : Nat) (u : Use) (n : Nat) (s : State) : List (Bool × Status) × Bool :=
  match allocBlocks p u n s with
  | .ok _ => ([], false)
  | .error .full => ([], true)
  | .error e => ([(true, e.status)], false)

/-- The blocks of a load taken. -/
def takeBlocks (p : Nat) (u : Use) (n : Nat) (s : State) : State :=
  match allocBlocks p u n s with | .ok t => t | .error _ => s

/-- HEAD_LOAD at acceptance: the area, then the image over HMP. What the image breaks answers BAD_ARG before a BUSY condition does, so it
is read under one too, without an area (R325). -/
def headLoadCmd (c : Cmd) (s : State) : State :=
  let n := arg c 2
  let area := arg c 3
  let firsts := stripFirsts (loadRuns s) (vocab s)
  let room := roomFor c.part .head area s
  let busy := headBusy s c.part || room.2
  judge .headLoad c
    (([(vocab s = 0, .badArg), (n = 0 && !firsts.isEmpty, .badArg), (n ≠ 0 && firsts.isEmpty, .badArg),
      (area * 65536 < n && area < 64, .badArg), (firsts.length > 16384, .badArg), (n = 0 && busy, .busy)] : List (Bool × Status)) ++ room.1)
    (fun s =>
      let s := if busy then s else takeBlocks c.part .head area s
      if n = 0 then headPlaced c (emptyHeadId s c.part) [] s
      else hmpRead c.part (argPair c 0) n .rdb (.headImage c busy) s) s

/-- The head image has been read: checked as R78 and R320 say, then placed, or refused with the area freed. -/
def headArrived (c : Cmd) (busy : Bool) (bs : Option Bytes) (s : State) : State :=
  let fail := fun (st : Status) =>
    complete .headLoad c st [] (if busy then s else freeUses (fun u => u.part == c.part && u.use == .head) s)
  match bs with
  | none => fail .busy
  | some b =>
    match parseStrips b with
    | none => fail .badArg
    | some l =>
      match stripsId l with
      | none => fail .badArg
      | some id =>
        if (l.map (·.first)) ≠ stripFirsts (loadRuns s) (vocab s) then fail .badArg
        else if busy || s.group.nextTable.isSome || s.training.isSome then fail .busy
        else headPlaced c { id with addr := argPair c 0, len := arg c 2 } l s

/-- HEAD_UNLOAD (R320). -/
def headUnloadCmd (c : Cmd) (s : State) : State :=
  let used := s.reqs.any fun e => e.info.part == c.part && !e.info.scoreMode
  judge .headUnload c [((headOf s c.part).isNone, .badArg), (used || sessionIn s c.part, .busy)]
    (fun s => await .headUnload c (stepNow s) (.publish (stepNow s)) (announce (stepNow s) (.headUnload c.part) s)) s

/-- Whether a HEAD_UNLOAD of step n is void in PUBLISH (R320). -/
def unloadVoid (p n : Nat) (s : State) : Bool :=
  sessionIn s p || s.reqs.any fun e => e.info.part == p && !e.info.scoreMode && e.info.admitStep ≤ n

/-- Address and length of an overlay image, as a member announces them (R421). -/
def overlayAt (o : OverlayImage) (s : State) : State :=
  let l := s.overlayImages.filter fun x => !(x.slice == o.slice && x.part == o.part && x.variant == o.variant)
  { s with overlayImages := l ++ [o] }

/-- OVERLAY_LOAD at acceptance (R85, R257, R320): blocks for the image, then the image, read under a BUSY condition too (R325). -/
def overlayLoadCmd (c : Cmd) (s : State) : State :=
  let n := arg c 2
  let v := arg c 3
  let room := roomFor c.part (.overlay v) (ceilDiv n 65536) s
  let busy := s.group.nextTable.isSome || room.2
  judge .overlayLoad c
    (([(reservedSet c [(3, 12)] || !(registered s c.part v), .badArg), ((headOf s c.part).isNone, .badArg),
      (n = 0 && busy, .busy)] : List (Bool × Status)) ++ room.1)
    (fun s =>
      let s := if busy then s else takeBlocks c.part (.overlay v) (ceilDiv n 65536) s
      if n = 0 then
        complete .overlayLoad c .ok [(0, 0)] { s with heads := updFirst (fun h => h.part == c.part) (fun h =>
          { h with nextOverlays := (h.nextOverlays.filter fun o => o.variant != v) ++ [⟨v, []⟩] }) s.heads }
      else hmpRead c.part (argPair c 0) n .rdb (.overlayImage c busy) s) s

/-- An overlay strip fits a head and a variant (R85): same HEAD_ID and BLOCKS, same format family. -/
def overlayFits (h : Head) (v : Nat) (x : Strip) : Bool :=
  match stripHdr x.image with
  | some y => y.overlay && y.variant == v && y.headId == h.id.headId && y.blocks == h.id.blocks
      && (y.fmt.isMx == ((Fmt.ofCode h.id.format).any (·.isMx)))
  | none => false

/-- Overlay strips fit a head and a variant (R85), with ascending FIRST within the runs. -/
def overlayOk (s : State) (h : Head) (v : Nat) (l : List Strip) : Bool :=
  let firsts := l.map (·.first)
  (firsts == ascending firsts) && (firsts.all fun f => (stripFirsts (loadRuns s) (vocab s)).contains f) && l.all (overlayFits h v)

/-- The last block use that satisfies a test is freed. -/
def freeLastUse (f : BlockUse → Bool) (s : State) : State :=
  match (s.pot.uses.filter f).getLast? with
  | none => s
  | some u => freeUses (fun v => v == u) s

/-- The overlay image has been read; one whose variant has been dropped meanwhile is not loaded (R257, R264). -/
def overlayArrived (c : Cmd) (busy : Bool) (bs : Option Bytes) (s : State) : State :=
  let v := arg c 3
  let fail := fun (st : Status) =>
    complete .overlayLoad c st [] (if busy then s else freeLastUse (fun u => u.part == c.part && u.use == .overlay v) s)
  match bs, headOf s c.part with
  | some b, some h =>
    match parseStrips b with
    | none => fail .badArg
    | some l =>
      if !(overlayOk s h v l) || !(registered s c.part v) then fail .badArg
      else if busy then fail .busy
      else
        let s := overlayAt ⟨me s, c.part, v, argPair c 0, arg c 2⟩ (announceOut (stepNow s) (.overlay c.part v (argPair c 0) (arg c 2)) s)
        complete .overlayLoad c .ok [(0, BitVec.ofNat 32 l.length)]
        { s with heads := updFirst (fun h => h.part == c.part) (fun h =>
          { h with nextOverlays := (h.nextOverlays.filter fun o => o.variant != v) ++ [⟨v, l⟩] }) s.heads }
  | none, _ => fail .busy
  | _, none => fail .badArg

/-! ## Meanings -/

/-- INFO. -/
def execInfo (c : Cmd) (s : State) : Host.Outcome State Fault Refusal := .next (takeUp .info infoCmd c s)

/-- PIP_PROBE. -/
def execPipProbe (c : WithParity Cmd) (s : State) : Host.Outcome State Fault Refusal := .next (takeUp .pipProbe (pipProbeCmd c.parity) c.val s)

/-- PART_BACKING. -/
def execPartBacking (c : Cmd) (s : State) : Host.Outcome State Fault Refusal := .next (takeUp .partBacking backingCmd c s)

/-- HEAD_LOAD. -/
def execHeadLoad (c : Cmd) (s : State) : Host.Outcome State Fault Refusal := .next (takeUp .headLoad headLoadCmd c s)

/-- HEAD_UNLOAD. -/
def execHeadUnload (c : Cmd) (s : State) : Host.Outcome State Fault Refusal := .next (takeUp .headUnload headUnloadCmd c s)

/-- OVERLAY_LOAD. -/
def execOverlayLoad (c : Cmd) (s : State) : Host.Outcome State Fault Refusal := .next (takeUp .overlayLoad overlayLoadCmd c s)

/-- MOBJ_LOAD. -/
def execMobjLoad (c : Cmd) (s : State) : Host.Outcome State Fault Refusal := .next (takeUp .mobjLoad mobjLoadCmd c s)

/-- MOBJ_DELETE. -/
def execMobjDelete (c : Cmd) (s : State) : Host.Outcome State Fault Refusal := .next (takeUp .mobjDelete mobjDeleteCmd c s)

/-- BIAS_LOAD. -/
def execBiasLoad (c : Cmd) (s : State) : Host.Outcome State Fault Refusal := .next (takeUp .biasLoad biasLoadCmd c s)

/-- BIAS_DELETE. -/
def execBiasDelete (c : Cmd) (s : State) : Host.Outcome State Fault Refusal := .next (takeUp .biasDelete biasDeleteCmd c s)

/-- RANGE_LOAD. -/
def execRangeLoad (c : Cmd) (s : State) : Host.Outcome State Fault Refusal := .next (takeUp .rangeLoad rangeCmd c s)

/-- RANGE. -/
def execRange (v : Nat) (table : List RangeEntry) (s : State) : Host.Outcome State Fault Refusal := .next (rangeArrives v table s)

end Sys2Proof.Machine
end

