-- ==== Sys2Proof/Machine/Streams.lean ====
section
/-! DEFINITION. Strips of the slice's heads: their images, host addresses and heat, and the strips that stream through the staging region (R89 to
R91, R298, R302, R320, R421; Table 4.7). -/

namespace Sys2Proof.Machine

/-- The overlay strips in force for a variant (R86, R87). -/
def overlayOf (h : Head) (v : Nat) : List Strip :=
  if v = 0 then [] else ((h.overlays.find? fun o => o.variant == v).map (·.strips)).getD []

/-! ## Strips by identity -/

/-- The image of a strip in force. -/
def stripImage (s : State) (i : StripId) : Option Bytes :=
  (headOf s i.part).bind fun h =>
    let l := if i.variant = 0 then h.strips else overlayOf h i.variant
    (l.find? fun x => x.first == i.first).map (·.image)

/-- Strips of a partition in force, base strips first. -/
def stripsOf (s : State) (p : Nat) : List StripId :=
  match headOf s p with
  | none => []
  | some h => h.strips.map (fun x => ⟨p, 0, x.first⟩) ++ h.overlays.flatMap fun o => o.strips.map fun x => ⟨p, o.variant, x.first⟩

/-- Every strip of the slice. -/
def allStrips (s : State) : List StripId := s.heads.flatMap fun h => stripsOf s h.part

/-- Bytes of a strip. -/
def stripSize (s : State) (i : StripId) : Nat := ((stripImage s i).map (·.length)).getD 0

/-! ## Host addresses (R320, R421) -/

/-- The offset of a strip in the slice's host head image: ascending FIRST, one after the other (R320). -/
def imageOffset (strips : List Strip) (first : Nat) : Nat :=
  total ((strips.filter fun x => x.first < first).map (·.image.length))

/-- Strips of a list that this slice did not take over. -/
def ownStrips (h : Head) (v : Nat) (l : List Strip) : List Strip := l.filter fun x => !(h.places.any fun p => p.1 == v && p.2.1 == x.first)

/-- Host address of a strip: where a taken strip was read from, else its offset in this slice's image at `base` (R320, R421). -/
def imageAt (h : Head) (v base : Nat) (l : List Strip) (first : Nat) : Nat :=
  match h.places.find? fun p => p.1 == v && p.2.1 == first with
  | some p => p.2.2
  | none => base + imageOffset (ownStrips h v l) first

/-! ## Heat (R90) -/

/-- Heat of a strip over the last 16 steps. -/
def heatOf (s : State) (i : StripId) : Nat := ((s.place.heat.find? fun e => e.1 == i).map fun e => total e.2).getD 0

/-- The ranking of R90: hotter first, then base before overlay, then lower FIRST. -/
def hotter (s : State) (a b : StripId) : Bool :=
  let x := heatOf s a
  let y := heatOf s b
  x > y || (x == y && ((a.variant == 0 && b.variant != 0) || ((a.variant == 0) == (b.variant == 0) && a.first < b.first)))

/-! ## Streaming (R89) -/

/-- Bytes of the staging region (R89, Table 4.8). -/
def stagingSize : Nat := 4194304

/-- Strips of a head that its area cannot hold: the coldest, the 4 MiB staging region taken off the area (R89). -/
def streamedOf (s : State) (p : Nat) : List StripId :=
  match headOf s p with
  | none => []
  | some h =>
    let ids := (stripsOf s p).filter fun i => i.variant == 0
    let all := total (ids.map (stripSize s))
    if all ≤ h.area * 65536 then []
    else
      let room := h.area * 65536 - stagingSize
      let keep := (sortBy (hotter s) ids).foldl (fun (a : List StripId × Nat) i =>
        if a.2 + stripSize s i ≤ room then (a.1 ++ [i], a.2 + stripSize s i) else a) ([], 0)
      ids.filter fun i => !(keep.1.contains i)

/-- A strip may be read: it does not stream and no fetch of it runs, or its fetch of the step has ended and it is not released (R89, R91). -/
def stripReady (s : State) (i : StripId) : Bool :=
  match s.place.streams.find? fun x => x.1 == i with
  | some x => x.2
  | none => !(s.place.streamed.contains i)

/-- A pass may still read a strip for a serving row: the row is scored in the open step, or again, and the strip has not passed for it. -/
def rowNeeds (s : State) (i : StripId) (r : RowRec) : Bool :=
  r.part == i.part && r.kind == 0 && r.useStep == s.step.step && !r.lateArrival && (!r.sieved || r.rescore != 0) && !(r.passed.contains i.first)

/-- A training slot that scores runs in a partition. -/
def tokensNeed (s : State) (p : Nat) : Bool :=
  s.training.any fun t => t.part == p && t.micros.any fun m => !m.fwdCommitted || m.bwdStarted || !m.again.isEmpty

/-- Every row tile of the step that needs a streamed strip has been processed against it: after INGEST, when no row can come that needs it (R89). -/
def stripDone (s : State) (i : StripId) : Bool :=
  s.step.phase > 0 && !(s.rows.any (rowNeeds s i)) && (!(tokensNeed s i.part) || s.place.trained.contains i)

/-- Bytes of the staging region in use. -/
def stagingUsed (s : State) : Nat := total ((s.place.streams.filter fun x => s.place.streamed.contains x.1).map fun x => stripSize s x.1)

/-- Host address of a strip in force. -/
def stripHost (s : State) (h : Head) (i : StripId) : Nat :=
  let l := if i.variant = 0 then h.strips else overlayOf h i.variant
  let base := if i.variant = 0 then h.id.addr
    else ((s.overlayImages.find? fun o => o.slice == me s && o.part == i.part && o.variant == i.variant).map (·.addr)).getD 0
  imageAt h i.variant base l i.first

/-- A strip is read over RDA (R89, R91, Table 17.4). -/
def fetchStrip (i : StripId) (s : State) : State :=
  match headOf s i.part with
  | none => s
  | some h =>
    hmpRead i.part (stripHost s h i) (stripSize s i) .rda (.stream i)
      { s with place := { s.place with streams := s.place.streams.filter (fun x => x.1 != i) ++ [(i, false)] } }

/-- Strips of the staging region that are done are released, and further streamed strips that are needed are fetched while there is room: each
once in the step (R89), but for one that a re-score needs again (DESIGN CHOICE 149). -/
def streamGo (p : Nat) (s : State) : State :=
  let out := (s.place.streams.filter fun x => x.2 && x.1.part == p && s.place.streamed.contains x.1 && stripDone s x.1).map (·.1)
  let s := { s with place := { s.place with streams := s.place.streams.filter (fun x => !(out.contains x.1))
                                            released := s.place.released ++ out } }
  (s.place.streamed.filter (·.part == p)).foldl (fun s i =>
    let due := if s.place.released.contains i then s.rows.any (fun r => rowNeeds s i r && r.rescore != 0)
      else s.rows.any (rowNeeds s i) || (tokensNeed s p && !(s.place.trained.contains i))
    if !due || s.place.streams.any (fun x => x.1 == i) || stagingUsed s + stripSize s i > stagingSize then s else fetchStrip i s) s

/-- Streaming goes on in every partition. -/
def streamsGo (s : State) : State := ((s.place.streamed.map (·.part)).eraseDups).foldl (fun s p => streamGo p s) s

/-- A strip of a mask commit whose host image is still being written is rebuilt in the slice, from the retired strip and the plan (R302). -/
def fromPlan (s : State) (i : StripId) : Bool :=
  i.variant == 0 && (s.plans.any fun p => p.part == i.part && p.committed) && (headOf s i.part).any fun h => h.retired.any fun x => x.first == i.first

/-- The stockpot copy of a strip is lost: it is fetched from the host image again (R91), or rebuilt (R302). A streamed strip that the staging
region does not hold has none. -/
def refetchStrip (i : StripId) (s : State) : State :=
  let going := s.place.streams.any fun x => x.1 == i && !x.2
  let held := s.place.streams.any (fun x => x.1 == i) || !(s.place.streamed.contains i)
  if (stripImage s i).isNone || going || !held || fromPlan s i then s else fetchStrip i s

/-- The fetch of a strip has ended; one that failed leaves the strip to the next step (R91). -/
def streamArrived (i : StripId) (bs : Option Bytes) (s : State) : State :=
  let l := s.place.streams
  let done := if s.place.streamed.contains i then l.map (fun x => if x.1 = i then (i, true) else x) else l.filter fun x => x.1 != i
  if bs.isNone then s else { s with place := { s.place with streams := done } }

end Sys2Proof.Machine
end

