-- ==== Sys2Proof/Machine/Merge.lean ====
section
/-! DEFINITION. A row from its final scores to its verdict: sieving, the merge tree at this slice's nodes, cut, re-scores, shells,
survivors, draw, tree verification, token losses (R119 to R136, R153 to R162, R182 to R197, R204 to R217, R419). -/

namespace Sys2Proof.Machine

/-! ## Nodes (R183, R184, R419) -/

/-- The root of a row's tree: the request's home slice, or slice u mod G. -/
def rootOf (s : State) (k : RowKey) : Nat := if k.train then acting s (k.id % groupSize s) else homeOf s k.id

/-- The parent of a node of a row's tree. -/
def parentAt (s : State) (k : RowKey) (n : Nat) : Option Nat := parentOf (treeX s) (treeY s) n (rootOf s k)

/-- The children of a node, ascending. -/
def kidsAt (s : State) (k : RowKey) (n : Nat) : List Nat :=
  if groupSize s = 1 then [] else childrenOf (treeX s) (treeY s) n (rootOf s k)

/-- The row of a key in the open step on this slice. -/
def rowOf (s : State) (k : RowKey) : Option RowRec :=
  s.rows.find? fun r => rowKeyOf r == k && (k.train || r.useStep == s.step.step)

/-- A member needs the row itself: every member a hidden row, those that own an index below V a segment (R24, R25). Every member sends a
record all the same (R182). -/
def takesPart (s : State) (k : RowKey) (n : Nat) : Bool :=
  let score := !k.train && ((reqOf s k.id).map (·.info.scoreMode)).getD false
  (members s).contains n && (!score || (runsOf s n).any fun r => 256 * r.first < vocab s)

/-- Children from which a node waits for a record: all of them (R182, R184). -/
def dueKids (s : State) (k : RowKey) (n : Nat) : List Nat := kidsAt s k n

/-- The nodes of a row's tree that this slice plays: its own, and the holes it keeps. -/
def myNodes (s : State) : List Nat := me s :: s.group.holes.filter fun h => acting s h == me s

/-- The merge of a row at a node. -/
def mergeAt (s : State) (k : RowKey) (n : Nat) : Option Merge := s.merges.find? fun m => m.key == k && m.node == n

/-- A row's merge at a node before any record. -/
def freshMerge (k : RowKey) (n part : Nat) : Merge :=
  { key := k, node := n, part := part, summary := none, ownA := none, kidsA := [], sentA := false, cut := none, ownB := none,
    kidsB := [], sentB := false, edge := none, ownD := none, kidsD := [], sentD := false, closed := false, failed := false, spoilt := false,
    result := none, places := 0 }

/-- The partition that a row's records belong to. -/
def partOfRow (s : State) (k : RowKey) : Nat :=
  if k.train then (s.training.map (·.part)).getD 0 else ((reqOf s k.id).map (·.info.part)).getD 0

/-- The merge of a row at a node changed, begun where it was not. -/
def updMergeAt (k : RowKey) (n : Nat) (f : Merge → Merge) (s : State) : State :=
  if (mergeAt s k n).isSome then { s with merges := updFirst (fun m => m.key == k && m.node == n) f s.merges }
  else { s with merges := s.merges ++ [f (freshMerge k n (partOfRow s k))] }

/-- STEP of a record. -/
def step16 (s : State) : Nat := s.step.step % 65536

/-- The micro-batch whose training rows merge: the oldest that has not committed its forward, else the oldest with token records that a
lost tile has it form again (R283). -/
def forwardMicro (s : State) : Option Micro :=
  s.training.bind fun t => (t.micros.find? fun m => !m.fwdCommitted).orElse fun _ => t.micros.find? fun m => !m.again.isEmpty

/-- Steps whose training rows this slice holds open, by their low 16 bits: the step of the forward that runs, and of one that it is
about to apply (R185, log entry 129). -/
def trainSteps (s : State) : List Nat :=
  (forwardMicro s).toList.map (·.step % 65536)
    ++ (s.held.filterMap fun m => match m.item with | .trainForward _ => some (m.step % 65536) | _ => none)
    ++ (if publishing s then [(if s.step.opened && !s.step.stamped then s.step.step - 1 else s.step.step) % 65536] else [])

/-- STEP of this slice's records of a row (R185, log entry 129). -/
def rowStep16 (s : State) (k : RowKey) : Nat :=
  if k.train then ((forwardMicro s).map (·.step % 65536)).getD 0 else step16 s

/-- A record fits the step that this slice holds open for its row (R185). -/
def fits (s : State) (k : RowKey) (st : Nat) : Bool :=
  if k.train then (trainSteps s).contains st else s.step.opened && !s.step.stamped && st == step16 s

/-- A record discarded (R185). -/
def stale (s : State) : State := count (fun c => { c with mergeStale := c.mergeStale + 1 }) s

/-! ## Final scores of a row (R37, R72, R153 to R155, R208, R273) -/

/-- The bitmap in force of a mask object. -/
def maskBits (s : State) (p id : Nat) : List Bytes :=
  if id = 0 then [] else ((s.masks.find? fun m => m.part == p && m.id == id).bind (·.cur)).toList

/-- The list in force of a bias object. -/
def biasVals (s : State) (p id : Nat) : List (Nat × F32) :=
  if id = 0 then [] else (((s.biases.find? fun m => m.part == p && m.id == id).bind (·.cur))).getD []

/-- Tree descriptors of the rows of a request in the open step. -/
def treeRows (s : State) (q : Nat) : List TreeDesc :=
  (s.rows.filter fun r => ofReq q r && r.tree.spec && r.useStep == s.step.step).map (·.tree)

/-- The request has a tree of more than one node in the open step (R209). -/
def isTree (s : State) (q : Nat) : Bool := (treeRows s q).any fun t => t.last != 0

/-- A serving row's raw scores: (index, logit or segment score) over the slice's indices (R24, R72; stage 5 of R50). -/
def rawScores (s : State) (r : RowRec) (e : ReqEntry) : List Scored :=
  if e.info.scoreMode then (myIndices s).zipIdx.map fun p => (p.1, flush e.info.epoch (segScore r.format r.payload p.2))
  else match headOf s r.part, rowFmt r.format with
    | some h, some f =>
      let mx := (Fmt.ofCode h.id.format).any (·.isMx)
      let row := operandRow mx f (128 * h.id.blocks) r.payload
      (myIndices s).map fun v => (v, logitOf e.info.epoch mx h.id.blocks row h.strips (overlayOf h r.variant) v)
    | _, _ => []

/-- The Colander of a row (R149 to R155, R208). -/
def colanderOf (s : State) (r : RowRec) (e : ReqEntry) : Colander :=
  let drafts := if r.tree.spec then pathDrafts (treeRows s e.req) r.tree.node else []
  { epoch := e.info.epoch, set := e.info.settings,
    allowed := maskBits s r.part e.info.settings.maskId ++ maskBits s r.part r.mask,
    bias := biasVals s r.part e.info.settings.biasId,
    counts := addCounts (jarPairs s e.jars) drafts }

/-- Final scores of a serving row. -/
def finalScores (s : State) (r : RowRec) (e : ReqEntry) : List Scored :=
  let c := colanderOf s r e
  (rawScores s r e).map fun p => (p.1, colander c p.1 (offsetIn (myRuns s) p.1) p.2)

/-- The micro-batch whose training rows merge, changed. -/
def updForward (f : Micro → Micro) (s : State) : State :=
  match s.training, forwardMicro s with
  | some t, some x => { s with training := some { t with micros := updFirst (fun m => m.desc.seq == x.desc.seq) f t.micros } }
  | _, _ => s

/-- The strips that a micro-batch's mask version names: retired ones where a barrier has replaced them (R287, R298). -/
def stripsFor (h : Head) (mask : Word) : List Strip :=
  if mask = h.maskVersion then h.strips
  else h.strips.map fun x => (h.retired.find? fun r => r.first == x.first).getD x

/-- The dropout factor D = RNE(256 / (256 − q)) (R273). -/
def dropScale (q : Nat) : F32 := fDiv (fOfInt 256) (fOfInt (256 - q))

/-- Scores of a saved row of a training token over the slice's indices (R273, R276). -/
def trainScores (s : State) (t : Training) (x : SavedRow) (strips : List Strip) : List Scored :=
  match headOf s t.part with
  | none => []
  | some h =>
    let w := 128 * h.id.blocks
    let mx := (Fmt.ofCode h.id.format).any (·.isMx)
    let f := (rowFmt x.fmt).getD .e4m3
    let row := mxVals f (rowCodes f w x.data) (rowScales w x.data)
    (myIndices s).map fun v =>
      let l := logitOf t.epoch mx h.id.blocks row strips [] v
      (v, sanitise (if t.desc.dropQ = 0 then l else flush t.epoch (fMul l (dropScale t.desc.dropQ))))

/-! ## Marks on a request's merges -/

/-- Every merge of a request's rows is closed: nothing more comes of it in this step (R64). -/
def closeMerges (q : Nat) (s : State) : State :=
  { s with merges := s.merges.map fun m => if !m.key.train && m.key.id = q then { m with closed := true } else m }

/-- Places of the shell area taken; a row that does not fit takes what is left and stops (R111). -/
def takeShell (n : Nat) (s : State) : Bool × State :=
  (s.pot.shellUsed + n ≤ 1048576, { s with pot := { s.pot with shellUsed := min 1048576 (s.pot.shellUsed + n) } })

/-- Places of the shell area that row summaries hold over a commit stamp: those of training tokens whose phase B has not ended (R111, R128). -/
def shellKept (s : State) : Nat := total ((s.merges.filter fun m => m.key.train).map (·.places))

/-- A row that found the shell area full: its request is carried (R111). -/
def shellFull (k : RowKey) (s : State) : State :=
  let s := count (fun c => { c with shellFull := c.shellFull + 1 }) s
  { s with merges := s.merges.map fun m => if m.key = k then { m with closed := true } else m }

/-- Phase B of a row ends on this slice: its summary leaves the shell area (R128), and a row scored in its own step is no longer held for
a re-score (R134); what a carry needs is decided in PUBLISH (R62). -/
def phaseBEnds (k : RowKey) (s : State) : State :=
  let n := ((mergeAt s k (me s)).map (·.places)).getD 0
  let s := { s with pot := { s.pot with shellUsed := s.pot.shellUsed - n } }
  let s := if (mergeAt s k (me s)).isSome then updMergeAt k (me s) (fun m => { m with places := 0, summary := none }) s else s
  match (rowOf s k).filter fun r => r.kind != 2 && r.hold != .none && !r.carried with
  | none => s
  | some r =>
    let free := fun (x : RowRec) => if rowKeyOf x = k && x.useStep = r.useStep then { x with hold := .none, rescore := 0 } else x
    freeLines r.part (.row (rowKeyOf r) r.stepSeq) { s with rows := s.rows.map free }

/-! ## Duplicates (R194) -/

/-- ARG of MERGE_DUP and GEOMETRY_FAULT (Table 22.2). -/
def dupArg (k : RowKey) (d : Dup) : BitVec 64 :=
  BitVec.ofNat 64 (k.id + 2 ^ 17 * b01 k.train + 2 ^ 18 * d.index + 2 ^ 40 * d.src1 + 2 ^ 46 * d.src2)

/-- A duplicate met at a node: alarm, count, and the slices that GEOMETRY_FAULT names (R194, R427). -/
def onDup (k : RowKey) (s : State) (d : Dup) : State :=
  let s := count (fun c => { c with mergeDups := c.mergeDups + 1 }) s
  match d.kind with
  | .same => alarm 0x08 (dupArg k d) s
  | .differ =>
    let s := alarm 0x09 (dupArg k d) s
    { s with group := { s.group with geomNow := addOnce (addOnce s.group.geomNow d.src1) d.src2 } }

/-! ## Verdicts at the home slice (R162, R209 to R215) -/

/-- The verdict of a request recorded; a second one of the step changes nothing. -/
def setVerdict (v : Verdict) (s : State) : State :=
  if s.verdicts.any fun x => x.req == v.req then s else { s with verdicts := s.verdicts ++ [v] }

/-- Run written into the recent-token window at positions WINDOW_LEN onward (R217). -/
def writeWindow (e : ReqEntry) (run : List Nat) : ReqEntry :=
  { e with window := run.zipIdx.foldl (fun w t => w.set ((e.windowLen + t.2) % 64) t.1) e.window }

/-- A plain row's verdict (R162). -/
def plainVerdict (k : RowKey) (r : RowResult) (s : State) : State :=
  match reqOf s k.id with
  | none => s
  | some e =>
    match r.winner with
    | some w =>
      setVerdict ⟨k.id, [(w, rowLp16 e.info.settings.logpMode e.info.settings.temp r w)], [], true, false, r.kmax, kcutOf r⟩
        (updReq k.id (fun e => writeWindow e [w]) s)
    | none => if r.noCandidate then setVerdict ⟨k.id, [], [], false, true, 0, 0⟩ s else s

/-- A request's result for a tree row. -/
def treeResult (s : State) (q : Nat) (node : Nat) : Option RowResult :=
  (mergeAt s ⟨q, node, false⟩ (me s)).bind (·.result)

/-- The home slice verifies a tree once every row of it has its result (R207, R209, R210, R214, R215); a parity error in a word of one of
them carries the request (R179). -/
def verifyTree (q : Nat) (s : State) : State :=
  match reqOf s q with
  | none => s
  | some e =>
    let ts := treeRows s q
    let spoilt := ts.any fun t => (mergeAt s ⟨q, t.node, false⟩ (me s)).any (·.spoilt)
    if !(treeComplete ts) || spoilt || !(ts.all fun t => (treeResult s q t.node).isSome) then s
    else
      let set := e.info.settings
      let at_ := fun (p : BitVec 8) (t a : Nat) =>
        pip s e.info.seed e.info.stream p e.info.genT (BitVec.ofNat 32 t) (BitVec.ofNat 32 a)
      let usable := fun n => (treeResult s q n).bind fun r => if r.noCandidate then none else some r
      match usable 0 with
      | none => setVerdict ⟨q, [], [], false, true, 0, 0⟩ s
      | some r0 =>
        let w := verifyWalk e.info.epoch (set.temp = 0) ts usable (fun d c => at_ 0x02 (e.draws + d) c) (fun d i => at_ 0x01 (e.draws + d) i)
          18 0 0 [] []
        let lp := fun (n tok : Nat) => match usable n with
          | some r => rowLp16 set.logpMode set.temp r tok
          | none => 0xFFFF
        let drafts := w.accepted.map fun a => (a.1.draft, lp a.2 a.1.draft)
        let bonus := w.bonus.map fun b => (b, lp w.node b)
        let run := drafts ++ bonus.toList
        let s := pipWork q e.info.genT w.draws (pipWork q e.info.genT w.accepts s)
        let s := updReq q (fun e => writeWindow e (run.map (·.1))) s
        setVerdict ⟨q, run, w.accepted.map (·.1.node), bonus.isSome, bonus.isNone, r0.kmax, kcutOf r0⟩ s

/-- A row's result stands at its root: a plain row has its verdict, a tree waits for its other rows (R209). -/
def rowDone (k : RowKey) (r : RowResult) (s : State) : State :=
  let s := updMergeAt k (me s) (fun m => { m with result := some r }) s
  let s := trace 8 1 1 (BitVec.ofNat 32 k.id) (BitVec.ofNat 64 (r.winner.getD noIndex)) s
  if k.train then s
  else if isTree s k.id then verifyTree k.id s else plainVerdict k r s

/-! ## Records to parents and children -/

/-- The slice that plays a node. -/
def playerOf (s : State) (n : Nat) : Nat := if isHole s n then acting s n else n

/-- A record goes down to every child that is played elsewhere. -/
def sendDown (k : RowKey) (n : Nat) (m : Msg) (s : State) : State :=
  ((kidsAt s k n).map (playerOf s)).foldl (fun s d => send d m s) s

/-! ## The draw (R159, R193) -/

/-- MD_DRAW of this slice's survivors (R193): entries of its shell at or above the edge. -/
def ownDraw (s : State) (k : RowKey) (e : ReqEntry) (edge : MbEdge) (own : List ShellEntry) : MdDraw :=
  let last : ShellEntry := { key := edge.lastKey, index := edge.lastIndex, src := 0 }
  let mine := own.filter fun x => !(entryRanks last x)
  bestOf e.info.epoch k (step16 s) (mine.map fun x =>
    (x, pip s e.info.seed e.info.stream 0x01 e.info.genT (BitVec.ofNat 32 e.draws) (BitVec.ofNat 32 x.index)))

/-- Pip's work for a row's draws, from the moment that fixes its cut: one word for each entry of the slice's shell, none at T = 0 (R159,
R167, R190). -/
def drawWork (k : RowKey) (e : ReqEntry) (own : List ShellEntry) (s : State) : State :=
  pipWork k.id e.info.genT (if e.info.settings.temp = 0 then [] else own.map (·.index)) s

/-- The best draw of a node, its own record first, then its children's (R184, R193). -/
def nodeDraw (m : Merge) : MdDraw :=
  (m.kidsD.map (·.2)).foldl betterDraw (m.ownD.getD { key := m.key, step16 := 0, valid := false, y := 0, index := noIndex })

/-- The winner at the root (R193). -/
def drawDone (k : RowKey) (d : MdDraw) (s : State) : State :=
  match (mergeAt s k (me s)).bind (·.result) with
  | none => s
  | some r => if d.valid then rowDone k { r with winner := some d.index } s else s

/-- A node with every draw record sends its best on, or the root has its winner; records of nodes played here go straight on. -/
def advanceD (k : RowKey) : Nat → Nat → State → State
  | 0, _, s => s
  | f + 1, n, s =>
    match mergeAt s k n with
    | none => s
    | some m =>
      let own := n ≠ me s || m.ownD.isSome
      if m.closed || m.spoilt || m.sentD || !own || !((dueKids s k n).all fun c => m.kidsD.any fun x => x.1 == c) then s
      else
        let d := nodeDraw m
        let s := updMergeAt k n (fun m => { m with sentD := true }) s
        match parentAt s k n with
        | none => drawDone k d s
        | some p =>
          if playerOf s p = me s then
            advanceD k f p (updMergeAt k p (fun m => { m with kidsD := insertBy (fun a b => a.1 < b.1) (n, d) m.kidsD }) s)
          else send p (.mdDraw n d) s

/-- MB_EDGE at this slice: passed down, the end of the row's phase B; stored with a training token, answered with the slice's draw (R192,
R193, R197). -/
def applyEdge (edge : MbEdge) (s : State) : State :=
  let k := edge.key
  (myNodes s).foldl (fun s n =>
    match mergeAt s k n with
    | none => s
    | some m =>
      if m.closed || m.edge.isSome then s
      else
        let s := updMergeAt k n (fun m => { m with edge := some edge }) s
        let s := sendDown k n (.mbEdge edge) s
        let s := if n = me s then phaseBEnds k s else s
        if k.train then
          if n = me s then
            updForward (fun m => { m with records := m.records.filter (fun x => x.token != k.id) ++ [⟨k.id, edge.z, edge.refG, edge.n ≠ 0⟩]
                                          again := m.again.filter (· ≠ k.id) }) s
          else s
        else if edge.decided then s
        else match reqOf s k.id with
          | none => s
          | some e =>
            let own := if n = me s then ((m.ownB.map (·.entries)).getD []) else []
            advanceD k 130 n (if n = me s then updMergeAt k n (fun m => { m with ownD := some (ownDraw s k e edge own) }) s else s)) s

/-! ## Phase B (R191, R192, R194, R196, R197) -/

/-- The term of a training token's target at its root (R196): 0 for an excluded target. -/
def targetTerm (s : State) (k : RowKey) (b : MbShell) : Nat :=
  let epoch := (s.training.map (·.epoch)).getD 0
  let tgt := ((forwardMicro s).map fun m => (m.targets.getD k.id (0, true)).1).getD 0
  match b.entries.find? fun e => e.index == tgt with
  | some e => if e.key = keyNone then 0 else entryTerm epoch b.refG e
  | none => 0

/-- The loss of a training token at its root (R196, R274): recorded with the micro-batch; +0 for an ignored token. -/
def tokenLoss (k : RowKey) (b : MbShell) (s : State) : State :=
  let term := targetTerm s k b
  updForward (fun m =>
    let loss := if (m.targets.getD k.id (0, true)).2 then 0 else lossOf term b.nacc.toNat
    { m with losses := m.losses.filter (fun x => x.1 != k.id) ++ [(k.id, loss)] }) s

/-- The root's end of phase B: list, terms, survivors; then the edge goes down (R192). The edge of a tree's row is marked decided: the home
slice draws for the tree, and no MD_DRAW is exchanged (R209; DEDUCED 131). -/
def finishB (k : RowKey) (c : MaCut) (b : MbShell) (s : State) : State :=
  if b.failed then updMergeAt k (me s) (fun m => { m with failed := true, closed := true }) s
  else if k.train then
    -- N tells every slice whether the loss is finite, which R276 needs (DEDUCED 40)
    let edge : MbEdge := { key := k, step16 := c.step16, refG := c.refG, n := if targetTerm s k b = 0 then 0 else 1, decided := true,
                           lastKey := 0, lastIndex := 0, z := b.nacc }
    applyEdge edge (tokenLoss k b s)
  else match reqOf s k.id with
    | none => s
    | some e =>
      let r := resultOf e.info.epoch e.info.settings c b
      let decided := isTree s k.id || e.info.settings.temp = 0 || r.n ≤ 1
      let last := ((r.list.take r.n).getLast?).map (·.1)
      let edge : MbEdge := { key := k, step16 := c.step16, refG := c.refG, n := r.n, decided := decided,
                             lastKey := (last.map (·.key)).getD keyNone, lastIndex := (last.map (·.index)).getD noIndex, z := 0 }
      let s := if decided then rowDone k r s else updMergeAt k (me s) (fun m => { m with result := some r }) s
      applyEdge edge s

/-- The shell of a node: its own record first, then its children's (R184, R191, R194). -/
def nodeShell (kNeed : Nat) (m : Merge) (c : MaCut) : MbShell × List Dup :=
  let start : MbShell := (m.ownB).getD (neutralB m.key c.step16 c.refG)
  m.kidsB.foldl (fun a x => let r := combineB kNeed a.1 x.2; (r.1, a.2 ++ r.2)) (start, [])

/-- A node with every shell record merges them and sends the result on, or the root finishes. -/
def advanceB (k : RowKey) : Nat → Nat → State → State
  | 0, _, s => s
  | f + 1, n, s =>
    match mergeAt s k n with
    | none => s
    | some m =>
      match m.cut with
      | none => s
      | some c =>
        let own := n ≠ me s || m.ownB.isSome
        if m.closed || m.sentB || !own || !((dueKids s k n).all fun x => m.kidsB.any fun y => y.1 == x) then s
        else
          let r := nodeShell c.kNeed m c
          let s := r.2.foldl (onDup k) s
          let s := updMergeAt k n (fun m => { m with sentB := true }) s
          match parentAt s k n with
          | none => finishB k c r.1 s
          | some p =>
            if playerOf s p = me s then
              advanceB k f p (updMergeAt k p (fun m => { m with kidsB := insertBy (fun a b => a.1 < b.1) (n, r.1) m.kidsB }) s)
            else send p (.mbShell n r.1) s

/-- Every valid entry of a row on this slice, as a re-score reads it (R132). -/
def rowEntries (s : State) (k : RowKey) : List ShellEntry :=
  match rowOf s k, reqOf s k.id with
  | some r, some e => (validOf (finalScores s r e)).map (shellOf (me s))
  | _, _ => []

/-- The shell of a serving row goes into phase B, and Pip begins on its words (R131, R167, R190). -/
def shellReady (k : RowKey) (c : MaCut) (sum : Summary) (e : ReqEntry) (l : List ShellEntry) (s : State) : State :=
  let b : MbShell := { neutralB k c.step16 c.refG with nacc := partialAt sum c.refG, entries := l }
  advanceB k 130 (me s) (updMergeAt k (me s) (fun m => { m with ownB := some b }) (drawWork k e l s))

/-- This slice's part in phase B of a serving row: its shell at once where the capture covers the row; else the row's passes begin again
for one re-score or two (R131 to R133). A row without a hold is answered NO_SPACE, and its request is carried (R134). -/
def servingShell (k : RowKey) (c : MaCut) (sum : Summary) (e : ReqEntry) (s : State) : State :=
  let p := e.pred
  let n := rescores p sum c.jc c.kNeed
  if n = 0 then shellReady k c sum e (shellFrom p sum c.jc c.kNeed sum.capture) s
  else
    let close := fun (s : State) => updMergeAt k (me s) (fun m => { m with closed := true }) s
    match rowOf s k with
    | none => close s
    | some r =>
      if r.hold = .none then
        let s := rejectRow r .noSpace (count (fun c => { c with holdMiss := c.holdMiss + 1 }) s)
        close (rowGone k.id r.useStep { s with rows := s.rows.filter fun x => !(rowKeyOf x == k && x.useStep == r.useStep) })
      else
        let put := fun (x : RowRec) => { x with passed := [], rescore := n }
        streamGo r.part { s with rows := updFirst (fun x => rowKeyOf x == k && x.useStep == r.useStep) put s.rows }

/-- A re-score of a row whose passes are done (R132, R133): the first of the dense case compacts what lies above high(jc), the last one
gives the shell. One that finds the shell area full carries the request (R111). -/
def rescoreRow (k : RowKey) (r : RowRec) (c : MaCut) (sum : Summary) (e : ReqEntry) (s : State) : State :=
  let p := e.pred
  let all := rowEntries s k
  let dense := countThrough sum c.jc > 4096
  let l := rescored p sum c.jc c.kNeed all
  let first := if dense then min 1024 (aboveEdge p c.jc all).length else 0
  let more := if r.rescore > 1 then first else l.length - first
  let s := count (fun x => { x with rescore1 := if dense && r.rescore = 1 then x.rescore1 else x.rescore1 + 1
                                    rescore2 := if dense && r.rescore = 1 then x.rescore2 + 1 else x.rescore2 }) s
  let s := trace 7 2 1 (BitVec.ofNat 32 (k.id + 2 ^ 16 * (if dense && r.rescore = 1 then 2 else 1))) (BitVec.ofNat 64 (countThrough sum c.jc)) s
  let put := fun (x : RowRec) => { x with passed := [], rescore := x.rescore - 1 }
  let s := { s with rows := updFirst (fun x => rowKeyOf x == k && x.useStep == r.useStep) put s.rows }
  let t := takeShell more s
  if !t.1 then shellFull k t.2
  else if r.rescore > 1 then streamGo r.part t.2
  else shellReady k c sum e (shellFrom p sum c.jc c.kNeed l) t.2

/-- This slice's MB_SHELL of a training token: its partial, and the target's key where it owns the target (R196). -/
def trainShell (s : State) (k : RowKey) (c : MaCut) (sum : Option Summary) : MbShell :=
  let tgt := ((forwardMicro s).map fun m => m.targets.getD k.id (0, true)).getD (0, true)
  let key := match s.training, forwardMicro s with
    | some t, some m =>
      (match m.saved.find? fun x => x.token == k.id && !x.data.isEmpty, headOf s t.part with
       | some x, some h => ((trainScores s t x (stripsFor h m.mask)).find? fun y => y.1 == tgt.1).map fun y => skey y.2
       | _, _ => none)
    | _, _ => none
  { neutralB k c.step16 c.refG with
    nacc := match sum with | some x => partialAt x c.refG | none => 0
    entries := match key with | some y => [{ key := y, index := tgt.1, src := me s }] | none => [] }

/-- A row rejected because its tree's descriptors differ: every row of the tree has its own cut, which says so (R206). -/
def treeMismatch (k : RowKey) (s : State) : State :=
  let l := s.rows.filter fun r => rowKeyOf r == k && r.kind != 2 && r.useStep == s.step.step
  let s := l.foldl (fun s r => rejectRow r .tree s) s
  let s := if k.row = 0 then count (fun c => { c with treeReject := c.treeReject + 1 }) s else s
  let s := dropRows (fun r => rowKeyOf r == k && r.kind != 2 && r.useStep == s.step.step) s
  updMergeAt k (me s) (fun m => { m with closed := true }) (updReq k.id (fun e => { e with workStep := 0, heldStep := none }) s)

/-- MA_CUT at this slice: passed down; phase B starts, or the row ends here and its hold with it (R163, R190, R206). -/
def applyCut (c : MaCut) (s : State) : State :=
  let k := c.key
  (myNodes s).foldl (fun s n =>
    match mergeAt s k n with
    | none => s
    | some m =>
      if m.closed || m.cut.isSome then s
      else
        let s := updMergeAt k n (fun m => { m with cut := some c }) s
        let s := sendDown k n (.maCut c) s
        let s := trace 8 1 0 (BitVec.ofNat 32 (k.id + 2 ^ 16 * c.jc)) (BitVec.ofNat 64 c.kNeed) s
        if c.tmis then (if n = me s then treeMismatch k s else s)
        else if c.n = 0 && !k.train then (if n = me s then phaseBEnds k s else s)
        else if n ≠ me s then advanceB k 130 n s
        else if k.train then
          advanceB k 130 n (updMergeAt k n (fun m => { m with ownB := some (trainShell s k c m.summary) }) s)
        else match m.summary, reqOf s k.id with
          | some sum, some e => servingShell k c sum e s
          -- nothing to contribute (R182)
          | _, _ => advanceB k 130 n (updMergeAt k n (fun m => { m with ownB := some (neutralB k c.step16 c.refG) }) s)) s

/-! ## Phase A (R188 to R190) -/

/-- The record of a node: its own first, then its children's in ascending slice number (R184, R189). -/
def nodeSum (m : Merge) : MaSum :=
  match m.ownA.toList ++ m.kidsA.map (·.2) with
  | [] => neutralA m.key 0
  | r :: rs => rs.foldl combineA r

/-- The cut of a serving row goes out once every row of its tree has its merged record (R190, R206). A home slice without the tree's
descriptors fixes no cut, and the request is carried (R207; log entry 65); so is one whose row a record marks failed (log entry 132). -/
def cutRows (q : Nat) (s : State) : State :=
  match reqOf s q with
  | none => s
  | some e =>
    let ts := treeRows s q
    let keys := if ts.isEmpty then ((s.merges.filter fun m => !m.key.train && m.key.id == q && m.node == me s).map (·.key))
                else ts.map fun t => (⟨q, t.node, false⟩ : RowKey)
    let recs := keys.map fun k => (mergeAt s k (me s)).filter fun m => m.sentA && !m.closed
    let unknown := ts.isEmpty && recs.any fun m => m.any fun m => m.ownA.any (·.tdv)
    if (!ts.isEmpty && !(treeComplete ts)) || unknown || recs.any (·.isNone) then s
    else
      let ms := recs.filterMap id
      let tmis := ms.any fun m => (m.ownA.any (·.tmis))
      if ms.any fun m => m.ownA.any (·.failed) then s
      else ms.foldl (fun s m =>
        match m.ownA with
        | none => s
        | some r =>
          if m.cut.isSome then s
          else
            let c := { cutOf e.info.settings e.pred r with tmis := tmis }
            let s := applyCut c s
            if c.n = 0 && !tmis then
              rowDone m.key { list := [], z := 0, n := 0, s := 0, kmax := keyNone, refG := 0, winner := none, noCandidate := true } s
            else s) s

/-- CONS is read at most once in a step, after the request's first row completes phase A at the home slice (R234). -/
def readCons (q : Nat) (s : State) : State :=
  match reqOf s q with
  | none => s
  | some e =>
    if e.consStep = s.step.step || homeOf s q ≠ me s || (s.hmp.jobs.any fun j => j.purpose == .cons q) then s
    else hmpRead e.info.part (e.info.ladleBase + 8) 4 .rdb (.cons q) (updReq q (fun e => { e with consStep := s.step.step }) s)

/-- A node with every phase A record combines them and sends the result on, or the root fixes the cut. -/
def advanceA (k : RowKey) : Nat → Nat → State → State
  | 0, _, s => s
  | f + 1, n, s =>
    match mergeAt s k n with
    | none => s
    | some m =>
      let own := n ≠ me s || m.ownA.isSome
      if m.closed || m.sentA || !own || !((dueKids s k n).all fun c => m.kidsA.any fun x => x.1 == c) then s
      else
        let r := nodeSum m
        match parentAt s k n with
        | none =>
          let s := updMergeAt k n (fun m => { m with sentA := true, ownA := some r }) s
          if k.train then applyCut (cutTrain r) s else cutRows k.id (readCons k.id s)
        | some p =>
          let s := updMergeAt k n (fun m => { m with sentA := true }) s
          if playerOf s p = me s then
            advanceA k f p (updMergeAt k p (fun m => { m with kidsA := insertBy (fun a b => a.1 < b.1) (n, r) m.kidsA }) s)
          else send p (.maSum n r) s

/-! ## Sieving (R123 to R129, R188) -/

/-- Every strip of the head has passed for the row, or the row is a segment (R79, R80). -/
def passesDone (s : State) (r : RowRec) : Bool :=
  if r.kind = 1 then true
  else match headOf s r.part with
    | none => false
    | some h => h.strips.all fun x => r.passed.contains x.first

/-- Every change of the stamped step that a request's rows rest on has been applied here: all of them, or the outcomes of its home slice
where nothing else of the step is held, its partition and its tenant have announced all, and its head changes in nothing (R59, R220). -/
def settled (s : State) (e : ReqEntry) : Bool :=
  !(publishing s)
    || (!([homeOf s e.req, holderOf s e.info.part, holderOf s e.info.tenant].any fun n => s.step.syncsDue.contains n)
        && s.held.all (fun m => m.step ≥ stepNow s || (match m.item with | .outcome _ => true | _ => false))
        && (headOf s e.info.part).all fun h => h.next.isNone && h.nextOverlays.isEmpty)

/-- A row may be scored in this step: a THROTTLED request's only with an allowance (R250), a tree's once it is whole (R206, R208), none while the step sequencer is
halted (R469) or the request's outcome of the step before is not applied (R59). -/
def mayScore (s : State) (r : RowRec) (e : ReqEntry) : Bool :=
  s.step.opened && !s.step.stamped && settled s e && s.step.phase < 2 && !(s.dbg.halted.getLsbD 1)
    && !(e.state == .throttled && e.allowance == 0) && (!r.tree.spec || treeComplete (treeRows s e.req)) && r.useStep == s.step.step && !r.lateArrival && !e.cold && s.group.uncovered.isEmpty

/-- Digest of a tree row's descriptor (R206). -/
def treeDigest (r : RowRec) : Option (BitVec 16) := if r.tree.spec then some ((crc32 r.treeBytes).setWidth 16) else none

/-- Phase B of a row may still take a re-score here: its cut is known and its shell is due (R133). -/
def rescoring (s : State) (k : RowKey) : Option (MaCut × Summary) :=
  match mergeAt s k (me s) with
  | some m => if m.closed || m.ownB.isSome then none else (m.cut.bind fun c => m.summary.map fun x => (c, x))
  | none => none

/-- This slice's phase A record of a row without a summary: neutral; marked failed where it holds the row and its step sequencer is halted,
so that the request is carried (R182, Table 22.10; DESIGN CHOICE 132). -/
def neutralSum (k : RowKey) (failed : Bool) (s : State) : State :=
  if !(s.step.opened && !s.step.stamped) || (mergeAt s k (me s)).any (·.ownA.isSome) then s
  else advanceA k 130 (me s) (updMergeAt k (me s) (fun m => { m with ownA := some { neutralA k (step16 s) with failed := failed } }) s)

/-- A serving row is sieved (R188): summary, shell area, its MA_SUM; or a re-score of it is (R133). -/
def sieveRow (k : RowKey) (s : State) : State :=
  match (rowOf s k).filter (fun _ => takesPart s k (me s)), reqOf s k.id with
  | some r, some e =>
    if r.rescore ≠ 0 then
      match rescoring s k with
      | some (c, sum) => if passesDone s r && !(s.dbg.halted.getLsbD 1) then rescoreRow k r c sum e s else s
      | none => s
    else if !r.sieved && s.dbg.halted.getLsbD 1 && s.step.phase < 2 then neutralSum k true s
    else if r.sieved || !(passesDone s r) || !(mayScore s r e) then s
    else
      let valid := validOf (finalScores s r e)
      let masses := usesMasses e.info.settings
      let sum := summarise e.info.epoch e.pred masses (me s) valid
      let s := { s with rows := updFirst (fun x => rowKeyOf x == k && x.useStep == r.useStep) (fun x => { x with sieved := true }) s.rows }
      let s := count (fun c => { c with rowsScored := c.rowsScored + 1 }) s
      let s := trace 6 0 0 (BitVec.ofNat 32 k.id) (BitVec.ofNat 64 valid.length) s
      let s := trace 7 0 0 (BitVec.ofNat 32 k.id) (BitVec.ofNat 64 sum.kmax.toNat) s
      let s := updMergeAt k (me s) (fun m => { m with summary := some sum }) s
      let t := takeShell (summaryPlaces sum + capturedCount e.pred.gap valid) s
      if !t.1 then shellFull k t.2
      else
        advanceA k 130 (me s) (updMergeAt k (me s)
          (fun m => { m with ownA := some (ownA k (step16 s) masses (treeDigest r) sum), places := summaryPlaces sum }) t.2)
  -- no row is needed here: the neutral record (R24, R182). A member that needs the row and holds none sends nothing: the request is carried
  -- (R25, R64, the example of R68)
  | none, some _ => if takesPart s k (me s) then s else neutralSum k false s
  | _, none => s

/-- Training slots do not run between the start of a regroup and the end of its takeover (R284, R428). -/
def slotsHeld (s : State) : Bool := s.group.regroup.any fun r => r.phase != .resume

/-- A training token's saved row is sieved (R196); not while the step sequencer is halted (Table 22.10). A summary that finds no room
waits (R128; log entry 133). -/
def sieveToken (k : RowKey) (s : State) : State :=
  match s.training, forwardMicro s with
  | some t, some m =>
    match m.saved.find? fun x => x.token == k.id && !x.data.isEmpty, headOf s t.part with
    | some x, some h =>
      if slotsHeld s || (mergeAt s k (me s)).any (·.ownA.isSome) || !m.targetsRead || s.dbg.halted.getLsbD 1 || (m.fwdCommitted && !(m.again.contains k.id)) then s
      else
        let sum := summariseTrain t.epoch (validOf (trainScores s t x (stripsFor h m.mask)))
        let n := summaryPlaces sum
        if s.pot.shellUsed + n > 1048576 then count (fun c => { c with shellFull := c.shellFull + 1 }) s
        else
          advanceA k 130 (me s) (updMergeAt k (me s)
            (fun y => { y with summary := some sum, ownA := some (ownA k (rowStep16 s k) false none sum), places := n }) (takeShell n s).2)
    | _, _ => s
  | _, _ => s

/-! ## Pip parity (R179) -/

/-- A parity error while words of a row are formed: a serving request is carried, a training slot only takes longer. -/
def pipParity (k : RowKey) (f : PipFault) (s : State) : State :=
  if f = .none || !(s.merges.any fun m => m.key == k && !m.closed) then s
  else
    let s := parityError f s
    if k.train then s else { s with merges := s.merges.map fun m => if m.key = k then { m with spoilt := true } else m }

/-- The same while a row is sieved here, which may go on to its cut and its words at once (a root, a group of one). -/
def sieveParity (k : RowKey) (f : PipFault) (s : State) : State :=
  if f = .none || (rowOf s k).isNone || !(s.step.opened && !s.step.stamped) then s
  else pipParity k f (if k.train then s else updMergeAt k (me s) id s)

/-! ## Records that arrive -/

/-- The node of this slice that a child's record is for. -/
def nodeFor (s : State) (k : RowKey) (src : Nat) : Option Nat :=
  match parentAt s k src with
  | some p => if playerOf s p = me s then some p else none
  | none => none

/-- A record of a row of a partition under scrub is discarded (R395). -/
def scrubRow (s : State) (k : RowKey) : Bool := scrubbing s (partOfRow s k)

/-- MA_SUM arrives. -/
def maSumArrives (src : Nat) (r : MaSum) (s : State) : State :=
  let k := r.key
  match nodeFor s k src with
  | none => stale s
  | some n =>
    if scrubRow s k then s
    else if (!k.train && s.step.phase ≥ 3) || !(fits s k r.step16) || (mergeAt s k n).any fun m => m.closed || m.sentA || m.kidsA.any fun x => x.1 == src then stale s
    else advanceA k 130 n (updMergeAt k n (fun m => { m with kidsA := insertBy (fun a b => a.1 < b.1) (src, r) m.kidsA }) s)

/-- Phase B of a training token that met a GEOMETRY_FAULT starts again at this slice's nodes under the cut it had (R195; the spec names
the retry and gives no message for it, log entry 54). -/
def retryCut (c : MaCut) (s : State) : State :=
  let again := fun (m : Merge) =>
    if m.key = c.key && m.edge.isNone then
      { m with cut := none, ownB := none, kidsB := [], sentB := false, closed := false, failed := false }
    else m
  applyCut c { s with merges := s.merges.map again }

/-- At a step boundary the root of a failed training token tries again (R195). -/
def retryTokens (s : State) : State :=
  (s.merges.filter fun m => m.key.train && m.failed && m.node == me s && m.edge.isNone).foldl (fun s m =>
    match m.cut with | some c => retryCut c s | none => s) s

/-- MA_CUT arrives. -/
def maCutArrives (c : MaCut) (s : State) : State :=
  if scrubRow s c.key then s
  else if c.key.train && s.merges.any fun m => m.key == c.key && m.cut.isSome && m.edge.isNone then retryCut c s
  else if !(fits s c.key c.step16) || !(s.merges.any fun m => m.key == c.key && !m.closed && m.cut.isNone) then stale s
  else applyCut c s

/-- MB_SHELL arrives. -/
def mbShellArrives (src : Nat) (r : MbShell) (s : State) : State :=
  let k := r.key
  match nodeFor s k src with
  | none => stale s
  | some n =>
    if scrubRow s k then s
    else if (!k.train && s.step.phase ≥ 4) || !(fits s k r.step16) || (mergeAt s k n).any fun m => m.closed || m.sentB || m.kidsB.any fun x => x.1 == src then stale s
    else advanceB k 130 n (updMergeAt k n (fun m => { m with kidsB := insertBy (fun a b => a.1 < b.1) (src, r) m.kidsB }) s)

/-- MB_EDGE arrives. -/
def mbEdgeArrives (r : MbEdge) (s : State) : State :=
  if scrubRow s r.key then s
  else if !(fits s r.key r.step16) || !(s.merges.any fun m => m.key == r.key && !m.closed && m.edge.isNone) then stale s
  else applyEdge r s

/-- MD_DRAW arrives. -/
def mdDrawArrives (src : Nat) (r : MdDraw) (s : State) : State :=
  let k := r.key
  match nodeFor s k src with
  | none => stale s
  | some n =>
    if scrubRow s k then s
    else if !(fits s k r.step16) || (mergeAt s k n).any fun m => m.closed || m.sentD || m.kidsD.any fun x => x.1 == src then stale s
    else advanceD k 130 n (updMergeAt k n (fun m => { m with kidsD := insertBy (fun a b => a.1 < b.1) (src, r) m.kidsD }) s)

/-! ## Meanings -/

/-- ROW_SIEVED. -/
def execRowSieved (k : WithParity RowKey) (s : State) : Host.Outcome State Fault Refusal :=
  .next (if k.val.train then sieveToken k.val s else sieveRow k.val (sieveParity k.val k.parity s))

/-- MA_SUM. -/
def execMaSum (src : Nat) (r : WithParity MaSum) (s : State) : Host.Outcome State Fault Refusal :=
  .next (maSumArrives src r.val (pipParity r.val.key r.parity s))

/-- MA_CUT. -/
def execMaCut (r : MaCut) (f : PipFault) (s : State) : Host.Outcome State Fault Refusal := .next (maCutArrives r (pipParity r.key f s))

/-- MB_SHELL. -/
def execMbShell (src : Nat) (r : WithParity MbShell) (s : State) : Host.Outcome State Fault Refusal :=
  .next (mbShellArrives src r.val (pipParity r.val.key r.parity s))

/-- MB_EDGE. -/
def execMbEdge (r : MbEdge) (f : PipFault) (s : State) : Host.Outcome State Fault Refusal := .next (mbEdgeArrives r (pipParity r.key f s))

/-- MD_DRAW. -/
def execMdDraw (src : Nat) (r : MdDraw) (s : State) : Host.Outcome State Fault Refusal := .next (mdDrawArrives src r s)

end Sys2Proof.Machine
end

