-- ==== Sys2Proof/Machine/Layout.lean ====
section
/-! DEFINITION. The stored entries of a head share as training addresses them: slots of the host regions, gradients, the update,
conversion back to strip images, and building a strip image (R74 to R77, R83, R268, R273, R276 to R282, R295, R296). -/

namespace Sys2Proof.Machine

/-! ## Slots (R268) -/

/-- A stored base entry: chunk, slot number, index, hidden position, segment, element and scale codes. -/
structure Cell where
  chunk : Nat
  slot : Nat
  index : Nat
  pos : Nat
  seg : Nat
  code : Nat
  scale : Nat
  deriving DecidableEq, Repr

/-- E_b: stored entries per index per block (R268). -/
def StripHdr.perBlock (h : StripHdr) : Nat := 16 * h.struct.segs

/-- Slots of one chunk in a bank. -/
def chunkSlots (h : StripHdr) : Nat := 256 * h.blocks * h.perBlock

/-- The cells of lane i of a base strip, in ascending slot. -/
def laneCells (h : StripHdr) (img : Bytes) (segs : List SegAt) (i : Nat) : List Cell :=
  let v := h.first + i
  segs.flatMap fun s => (segEntries h img s i).zipIdx.map fun e =>
    { chunk := v / 256, index := v, pos := e.1.pos, seg := s.g, code := e.1.code, scale := e.1.scale
      slot := (v % 256 * h.blocks + s.g / h.struct.segs) * h.perBlock + 16 * (s.g % h.struct.segs) + e.2 }

/-- The cells of a base strip, in ascending slot. -/
def stripCells (x : Strip) : List Cell :=
  match stripHdr x.image with
  | none => []
  | some h => let segs := (baseSegs h x.image).1; (List.range 16).flatMap (laneCells h x.image segs)

/-- The cells of a share, in ascending chunk and slot. -/
def cellsOf (l : List Strip) : List Cell := (sortBy (fun (a b : Strip) => a.first < b.first) l).flatMap stripCells

/-- The exact value of a cell. -/
def cellVal (f : Fmt) (c : Cell) : Int × Int := (Entry.val f ⟨c.pos, c.code, c.scale⟩).getD (0, 0)

/-- The format and header that all strips of a share carry. -/
def shareHdr (l : List Strip) : Option StripHdr := l.head?.bind fun x => stripHdr x.image

/-- Bytes of a state slot: 16 for AdamW, 8 for SGD (R268). -/
def slotBytes (sgd : Bool) : Nat := if sgd then 8 else 16

/-- Host address of a slot: bank k of a region of C chunk spans (R268). -/
def slotAddr (base bank chunks es : Nat) (h : StripHdr) (c : Cell) : Nat :=
  base + bank * chunks * chunkSlots h * es + c.chunk * chunkSlots h * es + c.slot * es

/-- Writes merged where one ends as the next begins. -/
def joinWrites : List (Nat × Bytes) → List (Nat × Bytes)
  | [] => []
  | (a, b) :: rest =>
    match joinWrites rest with
    | (a', b') :: more => if a' = a + b.length then (a, b ++ b') :: more else (a, b) :: (a', b') :: more
    | [] => [(a, b)]

/-- Runs of cells at consecutive slots: chunk, first slot, count. -/
def slotRuns : List Cell → List (Nat × Nat × Nat)
  | [] => []
  | c :: cs =>
    match slotRuns cs with
    | (k, s, n) :: more => if k = c.chunk && s = c.slot + 1 then (k, c.slot, n + 1) :: more else (c.chunk, c.slot, 1) :: (k, s, n) :: more
    | [] => [(c.chunk, c.slot, 1)]

/-! ## Saved rows and operands (R27, R34, R273, R276) -/

/-- The saved row of a delivered training row: BF16 rounded stochastically, MXFP8 as it arrived, dropped elements +0 (R27, R34, R273). -/
def savedRow (tab : List Word) (t : Training) (seq : Word) (u w fmt : Nat) (payload : Bytes) : SavedRow :=
  let f := (rowFmt fmt).getD .e4m3
  let codes := rowCodes f w payload
  let r := if f.isMx then (codes, rowScales w payload)
    else convRow codes (some ((List.range w).map fun h => sroundNibble tab t.desc.seed t.desc.stream t.genT seq u h))
  let kept := if t.desc.dropQ = 0 then r.1
    else r.1.zipIdx.map fun c => if dropoutByte tab t.desc.seed t.desc.stream t.genT seq u c.2 < t.desc.dropQ then 0 else c.1
  { token := u, fmt := if f.isMx then fmt else 0x4, data := (kept ++ r.2).map fun c => BitVec.ofNat 8 c }

/-- The exact values of a saved row. -/
def savedVals (w : Nat) (x : SavedRow) : List (Int × Int) :=
  let f := (rowFmt x.fmt).getD .e4m3
  mxVals f (rowCodes f w x.data) (rowScales w x.data)

/-- A hidden element is dropped (R177). -/
def dropped (tab : List Word) (t : Training) (seq : Word) (u h : Nat) : Bool :=
  t.desc.dropQ ≠ 0 && dropoutByte tab t.desc.seed t.desc.stream t.genT seq u h < t.desc.dropQ

/-- F of R276. -/
def gradFactor (t : Training) : F32 := if t.desc.dropQ = 0 then t.desc.lossScale else fMul t.desc.lossScale (dropScale t.desc.dropQ)

/-- operand(u, v) before its conversion (R276). -/
def operandOf (t : Training) (r : TokenRec) (ignore : Bool) (target v : Nat) (score : F32) : F32 :=
  if ignore || !r.live || score = negInf then 0
  else
    let fl := flush t.epoch
    let p := fl (packRat .near false (termOf t.epoch r.refG score) (max 1 r.z.toNat) 0)
    let g := if v = target then fl (fSub p 0x3F800000#32) else p
    fl (fMul g (gradFactor t))

/-- d of a token over the slice's scored indices: each block of 32 to E4M3 (R276). -/
def gradRow (t : Training) (r : TokenRec) (tgt : Nat × Bool) (rs : List RangeEntry) (scores : List Scored) : List (Nat × (Int × Int)) :=
  rs.flatMap fun run => (List.range (8 * run.count)).flatMap fun j =>
    let v0 := 256 * run.first + 32 * j
    let raw := (List.range 32).map fun i =>
      match scores.find? fun e => e.1 == v0 + i with
      | some e => operandOf t r tgt.2 tgt.1 (v0 + i) e.2
      | none => 0
    let b := convBlockF32 raw
    b.2.zipIdx.map fun c =>
      let x := (elemVal .e4m3 c.1).getD (0, 0)
      (v0 + c.2, (x.1, x.2 + ((b.1 : Nat) : Int) - 127))

/-- What a backward slot uses of one token: its d and its saved elements. -/
structure TokenGrad where
  token : Nat
  d : List (Nat × (Int × Int))
  x : List (Int × Int)
  deriving DecidableEq, Repr

/-- d of an index. -/
def TokenGrad.at_ (g : TokenGrad) (v : Nat) : Int × Int := ((g.d.find? fun e => e.1 == v).map (·.2)).getD (0, 0)

/-- G of a position: the sum over tokens in ascending number; epoch 1 flushes the products (R278, R293). -/
def gradAt (epoch : Nat) (gs : List TokenGrad) (v h : Nat) : F32 :=
  gs.foldl (fun a g => fAdd a (prodF epoch (g.at_ v) (g.x.getD h (0, 0)))) 0

/-- chunk_partial of a chunk for a token and hidden position, over the cells of the share (R83). -/
def chunkSum (epoch : Nat) (f : Fmt) (cells : List Cell) (g : TokenGrad) (vocab chunk h : Nat) : F32 :=
  let l := (cells.filter fun c => c.chunk == chunk && c.pos == h && c.index < vocab)
  chunkPartial epoch (l.map (cellVal f)) (l.map fun c => g.at_ c.index)

/-- The slice's contribution to a hidden-gradient element: binary32 bits in FAST, XS96 in STRICT, and the clamps (R83, R200). -/
def slicePartial (epoch : Nat) (strict : Bool) (f : Fmt) (cells : List Cell) (chunks : List Nat) (vocab : Nat) (g : TokenGrad) (h : Nat) :
    BitVec 96 × Nat :=
  let ps := chunks.map fun c => chunkSum epoch f cells g vocab c h
  if strict then
    let xs := ps.map toXs96
    (xs.foldl (fun a x => a + x.1) 0, total (xs.map (·.2)))
  else ((ps.foldl (fun a p => flush epoch (fAdd a p)) 0).setWidth 96, 0)

/-- Two contributions of a stage added (R199, R200). -/
def rsAdd (strict : Bool) (a b : BitVec 96) : BitVec 96 :=
  if strict then a + b else (fAdd (a.setWidth 32) (b.setWidth 32)).setWidth 96

/-- The BF16 element of a finished sum (R199, R200). -/
def rsOut (strict : Bool) (a : BitVec 96) : Nat := toBf16 (if strict then ofXs96 a else a.setWidth 32)

/-! ## The update (R281, R282) -/

/-- Master, first and second moment after an update of one entry (R281). -/
def updateEntry (epoch : Nat) (sgd : Bool) (a : UpdateArgs) (acc w m v : F32) : F32 × F32 × F32 :=
  let r := flush epoch
  let mul := fun (x y : F32) => r (fMul x y)
  let add := fun (x y : F32) => r (fAdd x y)
  let g := mul acc a.gscale
  if sgd then
    let m := add (mul a.b1 m) g
    (r (fSub w (mul a.lr (add m (mul a.wd w)))), m, v)
  else
    let ob1 := r (fSub 0x3F800000#32 a.b1)
    let ob2 := r (fSub 0x3F800000#32 a.b2)
    let m := add (mul a.b1 m) (mul ob1 g)
    let v := add (mul a.b2 v) (mul ob2 (mul g g))
    let den := add (r (fSqrt (mul v a.bc2))) a.eps
    let u := r (fDiv (mul m a.bc1) den)
    (r (fSub w (mul a.lr (add u (mul a.wd w)))), m, v)

/-- Fraction bits, smallest step's exponent, emax and the code of the largest magnitude of an MX element format (R282, OCP MX). -/
def Fmt.shape : Fmt → Nat × Int × Int × Nat
  | .e2m1 => (1, -1, 2, 0x7)
  | .e2m3 => (3, -3, 2, 0x1F)
  | .e3m2 => (2, -4, 4, 0x1F)
  | .e4m3 => (3, -9, 8, 0x7E)
  | .e5m2 => (2, -16, 15, 0x7B)
  | .bf16 => (7, -133, 127, 0x7F7F)

/-- The element code of a scaled value m × 2^e by RNE, saturating at the largest magnitude (R282, R295). -/
def toElem (f : Fmt) (neg : Bool) (m : Nat) (e : Int) : Nat :=
  let (mb, kmin, _, top) := f.shape
  let s := if neg then 2 ^ (f.bits - 1) else 0
  if m = 0 then s
  else
    let g := toGrid mb kmin m 1 e
    let units := roundGrid .near false g * 2 ^ (g.k - kmin).toNat
    let l := Nat.log2 units
    s + min top (if units < 2 ^ (mb + 1) then units else (l - mb + 1) * 2 ^ mb + (units / 2 ^ (l - mb) - 2 ^ mb))

/-- The scale code of a group of values: floor(log2(amax)) − emax, no lower than 2^−127; 0x00 for zeros (R282). -/
def groupScale (f : Fmt) (vals : List F32) : Nat :=
  let logs := vals.filterMap fun v => let d := dyOf v; if d.1 = 0 then none else some (ratLog d.1.natAbs 1 + d.2)
  match logs with
  | [] => 0
  | l :: ls => (ls.foldl max l - f.shape.2.2.1 + 127).toNat

/-- The element of a binary32 value under a scale code; BF16 by RNE (R282). -/
def elemOf (f : Fmt) (scale : Nat) (v : F32) : Nat :=
  if f.isMx then let d := dyOf v; toElem f v.msb d.1.natAbs (d.2 - ((scale : Int) - 127)) else toBf16 v

/-- A stored weight rounded to binary32 (R290). -/
def weightF (f : Fmt) (c : Cell) : F32 := let v := cellVal f c; packDy .near v.1 v.2

/-! ## Building a strip image (R76, R77, R296) -/

/-- Codes of w bits each, the first lowest, as a little-endian bit stream. -/
def packBits (w : Nat) (codes : List Nat) : Bytes :=
  leBytes (ceilDiv (w * codes.length) 8) (codes.foldr (fun c a => c + 2 ^ w * a) 0)

/-- A stored segment to be written: number, and per lane its 16 entries in ascending position within each group. -/
structure SegOut where
  g : Nat
  lanes : List (List Entry)
  deriving DecidableEq, Repr

/-- Element and position bytes of a segment. -/
def segBytes (h : StripHdr) (s : SegOut) : Bytes :=
  let es := s.lanes.flatten
  let sb := h.struct.segs
  let start := 128 * (s.g / sb) + 128 / sb * (s.g % sb)
  packBits h.fmt.bits (es.map (·.code))
    ++ (if h.struct = .dense then [] else packBits h.struct.posBits (es.zipIdx.map fun e =>
        e.1.pos - start - h.struct.m * (e.2 % 16 / h.struct.n)))

/-- The record of pair j: scales, then its stored segments (Table 4.4). -/
def pairBytes (h : StripHdr) (segs : List SegOut) (j : Nat) : Bytes :=
  let mine := segs.filter fun s => s.g / 2 == j
  match mine with
  | [] => []
  | s :: _ => (if h.fmt.isMx then s.lanes.map fun l => BitVec.ofNat 8 ((l.head?.map (·.scale)).getD 0) else [])
      ++ mine.flatMap (segBytes h)

/-- A base strip image with the given stored segments, in ascending number: header of the old image, new bitmap, records, length and
CHECK (R76). -/
def buildImage (h : StripHdr) (old : Bytes) (segs : List SegOut) : Bytes :=
  let map_ := packBits 1 ((List.range (8 * h.mapBytes)).map fun g => b01 (segs.any fun s => s.g == g))
  let recs := (List.range (ceilDiv h.segCount 2)).flatMap (pairBytes h segs)
  let len := ceilDiv (64 + map_.length + recs.length) 16 * 16
  let body := padTo (len - 64) (map_ ++ recs)
  let hd := old.take 12 ++ leBytes 4 len ++ sub old 16 12 ++ leBytes 4 0 ++ sub old 32 32
  hd.take 28 ++ leBytes 4 (crc32 (hd ++ body)).toNat ++ sub hd 32 32 ++ body

/-- The stored segments of an image, as they would be written. -/
def segsOut (h : StripHdr) (img : Bytes) : List SegOut :=
  (baseSegs h img).1.map fun s => { g := s.g, lanes := (List.range 16).map (segEntries h img s) }

/-- New MASTER values of a strip's stored entries as an image (R282): `master i g e` for lane i, segment g, entry e. -/
def convertStrip (h : StripHdr) (img : Bytes) (master : Nat → Nat → Nat → F32) : Bytes :=
  let segs := segsOut h img
  let scale := fun (i j : Nat) => groupScale h.fmt ((segs.filter fun s => s.g / 2 == j).flatMap fun s =>
    (List.range 16).map fun e => master i s.g e)
  buildImage h img (segs.map fun s =>
    { s with lanes := s.lanes.zipIdx.map fun l =>
        let sc := if h.fmt.isMx then scale l.2 (s.g / 2) else 0
        l.1.zipIdx.map fun e => { e.1 with scale := sc, code := elemOf h.fmt sc (master l.2 s.g e.2) } })

end Sys2Proof.Machine
end

