-- ==== Sys2Proof/Machine/Training.lean ====
section
/-! DEFINITION. The training session: commands, slots, saved tiles, gathers, reduce-scatter and hidden gradients (R69, R70, R113,
R198 to R201, R266 to R285, R355, R380, R401). -/

namespace Sys2Proof.Machine

/-! ## The session -/

/-- The session changed. -/
def updTrain (f : Training → Training) (s : State) : State := { s with training := s.training.map f }

/-- The micro-batch of a SEQ. -/
def microOf (s : State) (seq : Word) : Option Micro := s.training.bind fun t => t.micros.find? fun m => m.desc.seq == seq

/-- The micro-batch of a SEQ changed. -/
def updMicro (seq : Word) (f : Micro → Micro) (s : State) : State :=
  updTrain (fun t => { t with micros := updFirst (fun m => m.desc.seq == seq) f t.micros }) s

/-- The refusals of Table 15.9 for every command but TRAIN_OPEN. -/
def needSession (s : State) (c : Cmd) : List (Bool × Status) :=
  [(s.training.isNone, .badArg), ((s.training.any fun t => t.part != c.part), .denied)]

/-- The session holder (R266). -/
def sessionHolder (s : State) : Nat := holderOf s ((s.training.map (·.part)).getD 0)

/-- An announced change of the session that has not been applied. -/
def heldItem (s : State) (f : Sync → Bool) : Bool := s.held.any fun m => f m.item

/-- An update slot runs, or is accepted (R280). -/
def updateRuns (s : State) : Bool :=
  (s.training.any fun t => t.updating.isSome) || heldItem s fun x => match x with | .trainUpdate _ => true | _ => false

/-- A mask barrier is accepted and has not committed (R296). -/
def barrierWaits (s : State) : Bool := s.plans.any (·.barrierWait)

/-- Forward slots that are in flight: started, or accepted for the step (R270). -/
def inFlight (s : State) : Nat :=
  ((s.training.map (·.micros.length)).getD 0)
    + (s.held.filter fun m => match m.item with | .trainForward _ => true | _ => false).length

/-- What a slice tells the session holder or the group of a slot (R69). -/
def slotMsg (k : SlotKind) (seq : Word) : Sync := .slotReady k seq

/-- Writes over HMP whose last response means a slot kind is done. -/
def slotWrites (part : Nat) (ws : List (Nat × Bytes)) (k : SlotKind) (seq : Word) (s : State) : State :=
  (joinWrites ws).foldl (fun s w => hmpWrite part w.1 w.2 (.slot k seq) s) s

/-! ## TRAIN_OPEN (R266 to R269) -/

/-- Fields of a session descriptor (Table 13.1). -/
def sessionFields (d : Bytes) : SessionDesc :=
  let w := leAt d 0 4
  { epoch := field w 0 2, strict := bitOf w 2, rs := bitOf w 3, genSel := field w 4 2, sgd := bitOf w 6, init := bitOf w 7,
    dropQ := field w 8 8, lossScale := wordAt d 4, seed := BitVec.ofNat 64 (leAt d 8 8), stream := wordAt d 16,
    stateBase := leAt d 24 8, gaccBase := leAt d 32 8, spillBase := leAt d 40 8, spillPart := leAt d 48 4 }

/-- The descriptor of TRAIN_OPEN has been read (R267). The epoch and the generator class are fixed later, by completion. -/
def openRead (c : Cmd) (d : Bytes) (s : State) : State :=
  let x := sessionFields d
  let ep := epochFor s x.epoch
  let pending := heldItem s fun i => match i with | .trainOpen .. => true | _ => false
  judge .trainOpen c
    [(field (leAt d 0 4) 16 16 ≠ 0 || leAt d 20 4 ≠ 0 || !(allZero (sub d 52 12)) || x.genSel = 3, .badArg),
     (!(isFinite x.lossScale) || !(fLt 0 x.lossScale), .badArg),
     (x.stateBase % 64 ≠ 0 || x.gaccBase % 64 ≠ 0 || x.spillBase % 64 ≠ 0 || x.spillPart % 65536 ≠ 0, .badArg),
     (!(hasHead s c.part) || (!x.rs && x.strict && groupSize s > 1), .badArg),
     (ep.isNone || (x.strict && x.rs && !((features s).getLsbD 5)), .version),
     (s.training.isSome || pending || s.reqs.any fun e => e.info.part == c.part, .busy),
     ((keySetOf s c.part).any fun k => k.sessions ≥ 65535, .busy)]
    (fun s =>
      let n := stepNow s
      await .trainOpen c n (if x.init then .slot .opened 0 else .stamp n) (announce n (.trainOpen c.part x) s)) s

/-- TRAIN_OPEN at acceptance. -/
def openCmd (c : Cmd) (s : State) : State :=
  judge .trainOpen c [(argPair c 0 % 64 ≠ 0, .badArg)] (hmpRead c.part (argPair c 0) 64 .rdb (.sessionDesc c)) s

/-- The session holder learns that a member's fill is complete. -/
def fillDone (src : Nat) (s : State) : State := updTrain (fun t => { t with filled := addOnce t.filled src }) s

/-- A slice's word to the session holder (R69): sent, or taken here by `here`. -/
def tellHolder (k : SlotKind) (seq : Word) (here : Nat → State → State) (s : State) : State :=
  if sessionHolder s = me s then here (me s) s
  else send (sessionHolder s) (.stateSync ⟨me s, stepNow s, slotMsg k seq⟩) s

/-- The values that INIT writes: MASTER exact, M and V +0 (R268). -/
def fillWrites (d : SessionDesc) (chunks : Nat) (strips : List Strip) : List (Nat × Bytes) :=
  match shareHdr strips with
  | none => []
  | some h =>
    let es := slotBytes d.sgd
    (cellsOf strips).map fun c =>
      (slotAddr d.stateBase 0 chunks es h c, padTo es (leBytes 4 (weightF h.fmt c).toNat))

/-- A session before its first command. Each member's spill part has its slice number (R269). -/
def Training.fresh (p : Nat) (d : SessionDesc) (epoch : Nat) (genT : Bool) (sessionNo : Nat) (parts : List (Nat × Nat)) : Training :=
  { part := p, desc := d, epoch := epoch, genT := genT, parts := parts, sessionNo := sessionNo, filled := [],
    seqs := [], waiting := none, waitingBwd := none, micros := [], backwards := 0, updates := 0,
    barriered := false, normDone := false, normBusy := false, normAddr := 0, normVals := [], normOwn := none, normSums := [],
    normWritten := false, updating := none, updAcc := [], updState := [], updWritten := false, updReady := [] }

/-- Completion of TRAIN_OPEN fixes the epoch and the generator class (R51, R173, R267). -/
def sessionOpens (s : State) : State :=
  updTrain (fun t => { t with epoch := (epochFor s t.desc.epoch).getD t.desc.epoch, genT := classFor s t.desc.genSel }) s

/-- A session opens on a slice in PUBLISH of its step (R266 to R269). With INIT, state is filled from the strips that the head has or that
govern from the next TICK. -/
def applyOpen (p : Nat) (d : SessionDesc) (s : State) : State :=
  let used := ((keySetOf s p).map (·.sessions)).getD 0 + 1
  let s := { s with sec := { s.sec with keySets := updFirst (fun k => k.part == p) (fun k => { k with sessions := used }) s.sec.keySets } }
  let t := Training.fresh p d d.epoch false used ((members s).map fun n => (n, n))
  let s := sessionOpens { s with training := some t }
  let strips := ((headOf s p).map fun h => h.next.getD h.strips).getD []
  let ws := if d.init then fillWrites d (chunksOf (vocab s)) strips else []
  if ws.isEmpty then tellHolder .fill 0 fillDone s else slotWrites p ws .fill 0 s

/-- The spill part of a slice: its slice number when the session opened; of one that joined since, the part that it took (R269). -/
def Training.partNo (t : Training) (n : Nat) : Nat := ((t.parts.find? fun x => x.1 == n).map (·.2)).getD n

/-- A slice joins while the session is open: it takes the lowest part that no member uses (R269). -/
def takePart (n : Nat) (s : State) : State :=
  let live := members s
  updTrain (fun t =>
    let l := t.parts.filter fun x => live.contains x.1 && x.1 ≠ n
    { t with parts := l ++ [(n, ((List.range 64).find? fun k => !(l.any fun x => x.2 == k)).getD n)] }) s

/-! ## TRAIN_FORWARD (R270 to R272) -/

/-- Fields of a micro-batch descriptor (Table 13.2). -/
def microFields (d : Bytes) : MicroDesc :=
  { seq := wordAt d 0, tokens := field (leAt d 4 4) 0 18, targetAddr := leAt d 8 8, lossAddr := leAt d 16 8 }

/-- An accepted forward is announced for its step. -/
def startForward (c : Cmd) (d : MicroDesc) (s : State) : State :=
  let n := stepNow s
  await .trainForward c n (.slot .forwardCommit d.seq) (announce n (.trainForward d) s)

/-- A SEQ counts toward the rule of R270. -/
def seqCounts (seq : Word) (s : State) : State := updTrain (fun t => { t with seqs := addOnce t.seqs seq }) s

/-- The descriptor of TRAIN_FORWARD has been read (R270); `busy`: what answers BUSY held at acceptance. -/
def forwardRead (c : Cmd) (busy : Bool) (d : Bytes) (s : State) : State :=
  let x := microFields d
  let last := s.training.bind fun t => t.seqs.getLast?
  let waits := barrierWaits s || inFlight s ≥ 8 || (s.training.any fun t => t.waiting.isSome)
  judge .trainForward c
    (needSession s c ++
      [(field (leAt d 4 4) 18 14 ≠ 0 || leAt d 24 8 ≠ 0, .badArg),
       (x.tokens < 128 || x.tokens > 131072 || x.tokens % 128 ≠ 0 || x.targetAddr % 64 ≠ 0 || x.lossAddr % 64 ≠ 0, .badArg),
       (last.any fun q => x.seq != q + 1, .badArg),
       (busy || updateRuns s || (s.training.any fun t => t.waiting.isSome), .busy)])
    (fun s =>
      let s := seqCounts x.seq s
      if waits then updTrain (fun t => { t with waiting := some (c, x) }) s else startForward c x s) s

/-- TRAIN_FORWARD at acceptance; the descriptor can still answer BAD_ARG ahead of BUSY (R325). -/
def forwardCmd (c : Cmd) (s : State) : State :=
  let busy := updateRuns s || (s.training.any fun t => t.waiting.isSome)
  judge .trainForward c (needSession s c) (hmpRead c.part (argPair c 0) 32 .rdb (.microDesc c busy)) s

/-- A forward that cannot run ends on the holder: the command completes, and the micro-batch is discarded everywhere (R271, R272). -/
def forwardFails (seq : Word) (st : Status) (s : State) : State :=
  if (s.eocia.pending.any fun x => x.wait == .slot .forwardCommit seq) then
    let s := finish (fun x => x.wait == .slot .forwardCommit seq) (fun _ => st) (fun _ => []) s
    announce (stepNow s) (slotMsg .discard seq) s
  else s

/-- Training rows' merges of a forward that ended, or gave way, leave (R196). -/
def dropTokens (s : State) : State := { s with merges := s.merges.filter fun m => !m.key.train }

/-- A forward slot starts on a slice in PUBLISH of its step n: record blocks, the target list, the mask version (R271, R272, R287). -/
def applyForward (n : Nat) (d : MicroDesc) (s : State) : State :=
  match s.training with
  | none => s
  | some t =>
    let m : Micro :=
      { desc := d, step := n, mask := ((headOf s t.part).map (·.maskVersion)).getD 0, targets := [], targetsRead := false, tiles := [], saved := [],
        records := [], losses := [], ownSum := none, gathered := [], headerDone := false, fwdCommitted := false,
        bwdStarted := false, rs := [], rsSent := [], beatToken := 0, bwdWritten := false, bwdReady := [], growing := false,
        accAsked := false, accVals := [], again := [] }
    -- a forward that runs goes on; merges of records that are formed again give way to the new one
    let s := if t.micros.any fun m => !m.fwdCommitted then s else dropTokens s
    let s := seqCounts d.seq (updTrain (fun t => { t with micros := t.micros ++ [m] }) s)
    let s := trace 15 1 0 0 (d.seq.setWidth 64) s
    match allocBlocks t.part (.record d.seq) (ceilDiv d.tokens 4096) s with
    | .error _ => tellHolder .forwardBusy d.seq (fun _ s => forwardFails d.seq .busy s) s
    | .ok s => hmpRead t.part d.targetAddr (4 * d.tokens) .rdb (.targets d.seq) s

/-- A micro-batch's blocks and records on this slice are freed, and the merges of its tokens, where it is the one whose rows merge. -/
def freeMicro (seq : Word) (s : State) : State :=
  let s := freeUses (fun u => match u.use with | .record q => q = seq | .tile q _ => q = seq | _ => false) s
  let s := if (forwardMicro s).any fun m => m.desc.seq == seq then dropTokens s else s
  updTrain (fun t => { t with micros := t.micros.filter fun m => m.desc.seq != seq }) s

/-- The target list has been read on a slice (R271). -/
def targetsArrived (seq : Word) (bs : Option Bytes) (s : State) : State :=
  match bs with
  | none => tellHolder .forwardBusy seq (fun _ s => forwardFails seq .busy s) s
  | some b =>
    let ws := (List.range (b.length / 4)).map fun i => leAt b (4 * i) 4
    let bad := ws.any fun w => field w 22 9 ≠ 0 || (!(bitOf w 31) && field w 0 22 ≥ vocab s)
    if bad then tellHolder .forwardBad seq (fun _ s => forwardFails seq .badArg s) s
    else updMicro seq (fun m => { m with targets := ws.map fun w => (field w 0 22, bitOf w 31), targetsRead := true }) s

/-! ## Saved tiles (R113, R269, R283, R401) -/

/-- Hidden width of the session's head. -/
def trainWidth (s : State) : Nat := 128 * ((s.training.bind fun t => headOf s t.part).map (·.id.blocks)).getD 0

/-- Bytes of a saved tile (R113). -/
def tileBytes (w : Nat) : Nat := 128 * (w + w / 32)

/-- Bytes of a spilled tile: ciphertext and tag in whole 64-byte units (R401). -/
def spillBytes (w : Nat) : Nat := ceilDiv (tileBytes w + 16) 64 * 64

/-- The lowest place of the spill part that no tile in flight uses (R269; DESIGN CHOICE 41). -/
def spillPlace (t : Training) (w : Nat) : Option Nat :=
  let n := spillBytes w
  let used := t.micros.flatMap fun m => m.tiles.filterMap (·.2)
  ((List.range (t.desc.spillPart / n)).map (· * n)).find? fun o => !(used.contains o)

/-- Host address of a spilled tile. -/
def spillAddr (t : Training) (part off : Nat) : Nat := t.desc.spillBase + part * t.desc.spillPart + off

/-- The nonce of a spilled tile (Table 19.4), little-endian. -/
def spillNonce (t : Training) (part : Nat) (seq : Word) (tile : Nat) : Bytes :=
  leBytes 12 (3 * 2 ^ 94 + t.part * 2 ^ 90 + t.sessionNo % 2 ^ 16 * 2 ^ 74 + seq.toNat * 2 ^ 42 + part % 64 * 2 ^ 36
    + tile % 1024 * 2 ^ 26)

/-- The additional data of a spilled tile: SEQ, tile number, spill part, host address (Table 19.4; layout DESIGN CHOICE 42). -/
def spillAad (part : Nat) (seq : Word) (tile addr : Nat) : Bytes :=
  leBytes 4 seq.toNat ++ leBytes 4 tile ++ leBytes 4 part ++ leBytes 8 addr

/-- K_SP of the session's partition. -/
def spillKey (s : State) (t : Training) : Bytes := ((keySetOf s t.part).map (·.kSp)).getD []

/-- Tokens of a tile. -/
def tileTokens (tile : Nat) : List Nat := (List.range 128).map (128 * tile + ·)

/-- The token records of a lost tile are formed again by a forward merge, on every slice (R283). -/
def tileAgain (seq : Word) (tile : Nat) (s : State) : State :=
  let us := tileTokens tile
  let s := updMicro seq (fun m => { m with records := m.records.filter (fun r => r.token / 128 ≠ tile), again := us.foldl addOnce m.again }) s
  if (forwardMicro s).any fun m => m.desc.seq == seq then
    { s with merges := s.merges.filter fun m => !(m.key.train && m.key.id / 128 == tile) }
  else s

/-- A lost tile (R283): alarm, count, its blocks freed; its 128 rows must come again, and every slice forms its records again. -/
def tileLost (seq : Word) (tile : Nat) (s : State) : State :=
  let s := alarm 0x0A (BitVec.ofNat 64 (seq.toNat + 128 * tile * 2 ^ 32)) (count (fun c => { c with tileLost := c.tileLost + 1 }) s)
  let s := freeUses (fun u => u.use == .tile seq tile) s
  let s := updMicro seq (fun m =>
    { m with tiles := m.tiles.filter fun x => x.1 ≠ tile, saved := m.saved.filter fun r => r.token / 128 ≠ tile }) s
  tileAgain seq tile (announceOut (stepNow s) (.tileLost seq tile) s)

/-- A place for a tile: blocks of the partition, else the spill part (R113); none loses the tile (R283). -/
def placeTile (t : Training) (seq : Word) (tile : Nat) (s : State) : Option State :=
  let w := trainWidth s
  match allocBlocks t.part (.tile seq tile) (ceilDiv (tileBytes w) 65536) s with
  | .ok s => some (updMicro seq (fun m => { m with tiles := m.tiles ++ [(tile, none)] }) s)
  | .error _ =>
    match spillPlace t w with
    | some o => some (updMicro seq (fun m => { m with tiles := m.tiles ++ [(tile, some o)] }) s)
    | none => none

/-- Rows of a tile that are saved. -/
def tileRows (m : Micro) (tile : Nat) : List SavedRow :=
  sortBy (fun (a b : SavedRow) => a.token < b.token) (m.saved.filter fun r => r.token / 128 == tile)

/-- A complete spilled tile leaves encrypted over HMP (R113, R401). -/
def spillTile (seq : Word) (tile : Nat) (s : State) : State :=
  match s.training, microOf s seq with
  | some t, some m =>
    (match m.tiles.find? fun x => x.1 == tile with
     | some (_, some off) =>
       let n := t.partNo (me s)
       let addr := spillAddr t n off
       let key := spillKey s t
       let nonce := spillNonce t n seq tile
       let cipher := gcmCrypt key nonce ((tileRows m tile).flatMap (·.data))
       let data := padTo (spillBytes (trainWidth s)) (cipher ++ gcmTag key nonce (spillAad n seq tile addr) cipher)
       hmpWrite t.part addr data .spill s
     | _ => s)
  | _, _ => s

/-- Every row of a micro-batch is saved and at hand, and no record of it is being formed again (R283). -/
def rowsAtHand (m : Micro) : Bool := m.saved.length = m.desc.tokens && m.again.isEmpty && m.saved.all fun r => !r.data.isEmpty

/-- Spilled tiles whose forward pass is over are held in host memory alone (DESIGN CHOICE 41). -/
def dropSpilled (m : Micro) : Micro :=
  let out := m.tiles.filterMap fun x => if x.2.isSome then some x.1 else none
  { m with saved := m.saved.map fun r => if out.contains (r.token / 128) then { r with data := [] } else r }

/-! ## The gathers of losses and norms (R275, R279, R184) -/

/-- Two loss or norm sums combined; FAST norms add in binary32 in the order of R184. -/
def trAdd (a b : TrSum) : TrSum :=
  { a with counted := a.counted + b.counted, infCount := a.infCount + b.infCount, ignored := a.ignored + b.ignored,
           sum := a.sum + b.sum, sumsq := if b.sumsq = 0 then a.sumsq else if a.sumsq = 0 then b.sumsq else fAdd a.sumsq b.sumsq,
           sat := a.sat + b.sat }

/-- The neutral sum of a node whose slice is a hole. -/
def trNone (x : TrSum) : TrSum := { x with counted := 0, infCount := 0, ignored := 0, sum := 0, sumsq := 0, sat := 0 }

/-- One pass over the nodes played here: each complete one combines and passes its sum on; answers the sums held, the messages to
send (parent, node, sum), and the root's sum. -/
def trPass (s : State) (own : TrSum) : List Nat → List (Nat × TrSum) → List (Nat × Nat × TrSum) × List (Nat × TrSum) × Option TrSum
  | [], g => ([], g, none)
  | n :: ns, g =>
    let root := sessionHolder s
    let kids := if groupSize s = 1 then [] else childrenOf (treeX s) (treeY s) n root
    if (g.any fun x => x.1 == n) || !(kids.all fun k => g.any fun x => x.1 == k) then trPass s own ns g
    else
      let mine := if n = me s then own else trNone own
      let v := kids.foldl (fun a k => match g.find? fun x => x.1 == k with | some x => trAdd a x.2 | none => a) mine
      let r := trPass s own ns (g ++ [(n, v)])
      match parentOf (treeX s) (treeY s) n root with
      | none => (r.1, r.2.1, some v)
      | some p => (if playerOf s p = me s then r else ((p, n, v) :: r.1, r.2.1, r.2.2))

/-- The passes repeated until every node played here that can be complete is. -/
def trPasses (s : State) (own : TrSum) : Nat → List (Nat × TrSum) → List (Nat × Nat × TrSum) × List (Nat × TrSum) × Option TrSum
  | 0, g => ([], g, none)
  | f + 1, g =>
    let r := trPass s own (myNodes s) g
    if r.2.1.length = g.length then r
    else
      let q := trPasses s own f r.2.1
      (r.1 ++ q.1, q.2.1, r.2.2.orElse fun _ => q.2.2)

/-- Bytes of the loss header (Table 13.3). -/
def lossHeader (m : Micro) (v : TrSum) : Bytes :=
  let mean := if v.counted = 0 then 0 else packRat .near false v.sum.toNat v.counted (-64)
  padTo 64 (leBytes 4 v.seq.toNat ++ leBytes 4 v.counted ++ leBytes 4 v.infCount ++ leBytes 4 v.ignored ++ leBytes 12 v.sum.toNat
    ++ leBytes 4 mean.toNat ++ leBytes 4 m.mask.toNat)

/-- Bytes of the norm record (Table 13.4). -/
def normRecord (strict : Bool) (v : TrSum) : Bytes :=
  let sumsq := if strict then ofXs96 v.sum else v.sumsq
  padTo 32 (leBytes 4 sumsq.toNat ++ leBytes 4 (if strict then v.sat else 0) ++ leBytes 12 (if strict then v.sum.toNat else 0))

/-- The loss gather moves on (R275): sums go up, and the session holder writes the header. -/
def lossGather (seq : Word) (s : State) : State :=
  match s.training, microOf s seq with
  | some t, some m =>
    (match m.ownSum with
     | none => s
     | some own =>
       let r := trPasses s own 65 m.gathered
       let s := updMicro seq (fun m => { m with gathered := r.2.1 }) s
       let s := r.1.foldl (fun s x => send (playerOf s x.1) (.trSum x.2.1 x.2.2) s) s
       match r.2.2 with
       | some v => hmpWrite t.part m.desc.lossAddr (lossHeader m v) (.slot .forwardCommit seq) s
       | none => s)
  | _, _ => s

/-- The norm gather moves on (R279). -/
def normGather (s : State) : State :=
  match s.training with
  | none => s
  | some t =>
    match t.normOwn with
    | none => s
    | some own =>
      let r := trPasses s own 65 t.normSums
      let s := updTrain (fun t => { t with normSums := r.2.1 }) s
      let s := r.1.foldl (fun s x => send (playerOf s x.1) (.trSum x.2.1 x.2.2) s) s
      match r.2.2 with
      | some v => hmpWrite t.part t.normAddr (normRecord t.desc.strict v) (.slot .normCommit 0) s
      | none => s

/-- TR_SUM arrives from a child (R275, R279). -/
def trSumArrives (src : Nat) (r : TrSum) (s : State) : State :=
  if r.norm then
    match s.training with
    | none => stale s
    | some t =>
      -- a sum may come before this slice has applied the norm: it is kept
      if t.normSums.any fun x => x.1 == src then stale s
      else
        let s := updTrain (fun t => { t with normSums := t.normSums ++ [(src, r)] }) s
        if t.normBusy then normGather s else s
  else
    match microOf s r.seq with
    | none => stale s
    | some m =>
      if m.fwdCommitted || m.gathered.any fun x => x.1 == src then stale s
      else lossGather r.seq (updMicro r.seq (fun m => { m with gathered := m.gathered ++ [(src, r)] }) s)

/-- Tokens of a micro-batch rooted here (R183). -/
def ownTokens (s : State) (m : Micro) : List Nat :=
  (List.range m.desc.tokens).filter fun u => rootOf s ⟨u, 0, true⟩ == me s

/-- The forward work of a slice is complete: every row saved, every record stored, every loss rooted here formed (R275). -/
def forwardComplete (s : State) (m : Micro) : Bool :=
  m.targetsRead && m.saved.length == m.desc.tokens && m.records.length == m.desc.tokens && m.again.isEmpty
    && (ownTokens s m).all fun u => m.losses.any fun x => x.1 == u

/-- The loss of a token as recorded. -/
def lossAt (m : Micro) (u : Nat) : F32 := ((m.losses.find? fun x => x.1 == u).map (·.2)).getD 0

/-- A slice's loss sum: finite counted losses in XS96 at ref 0, and the three counts (R275). -/
def ownLosses (m : Micro) (us : List Nat) : TrSum :=
  let ign := us.filter fun u => (m.targets.getD u (0, true)).2
  let rest := us.filter fun u => !(m.targets.getD u (0, true)).2
  let inf := rest.filter fun u => !(isFinite (lossAt m u))
  let fin := rest.filter fun u => isFinite (lossAt m u)
  { norm := false, seq := m.desc.seq, counted := fin.length, infCount := inf.length, ignored := ign.length,
    sum := fin.foldl (fun a u => a + (toXs96 (lossAt m u)).1) 0, sumsq := 0, sat := 0 }

/-- FORWARD_SLOT_DONE on this slice: LOSS entries of its own tokens, then its part of the gather (R275). -/
def forwardDone (s : State) : State :=
  match s.training, forwardMicro s with
  | some t, some m =>
    if slotsHeld s || m.fwdCommitted || m.ownSum.isSome || !(forwardComplete s m) then s
    else
      let us := ownTokens s m
      let ws := us.map fun u => (m.desc.lossAddr + 64 + 4 * u, leBytes 4 (lossAt m u).toNat)
      let s := (joinWrites ws).foldl (fun s w => hmpWrite t.part w.1 w.2 .nothing s) s
      lossGather m.desc.seq (updMicro m.desc.seq (fun m => { m with ownSum := some (ownLosses m us) }) s)
  | _, _ => s

/-! ## Banks read over HMP (R268, R278 to R280) -/

/-- The slots of some cells of a bank are read, in runs of consecutive slots. -/
def readBank (t : Training) (base bank es : Nat) (h : StripHdr) (cells : List Cell) (why : Nat → Nat → Purpose) (s : State) : State :=
  (slotRuns cells).foldl (fun s r =>
    let c : Cell := { chunk := r.1, slot := r.2.1, index := 0, pos := 0, seg := 0, code := 0, scale := 0 }
    hmpRead t.part (slotAddr base bank (chunksOf (vocab s)) es h c) (es * r.2.2) .rda (why r.1 r.2.1) s) s

/-- The slots of a run that has been read: chunk, slot, bytes. -/
def slotsOf (chunk slot es : Nat) (b : Bytes) : List (Nat × Nat × Bytes) :=
  (List.range (b.length / es)).map fun i => (chunk, slot + i, sub b (es * i) es)

/-- The accumulators of a run that has been read: chunk, slot, value. -/
def accsOf (chunk slot : Nat) (b : Bytes) : List (Nat × Nat × F32) :=
  (slotsOf chunk slot 4 b).map fun x => (x.1, x.2.1, wordAt x.2.2 0)

/-- The value read for a cell's slot. -/
def slotVal {α : Type} (l : List (Nat × Nat × α)) (c : Cell) : Option α := (l.find? fun x => x.1 == c.chunk && x.2.1 == c.slot).map (·.2.2)

/-- Every cell's slot has been read. -/
def slotsRead {α : Type} (l : List (Nat × Nat × α)) (cells : List Cell) : Bool := cells.all fun c => (slotVal l c).isSome

/-! ## TRAIN_NORM (R279) -/

/-- TRAIN_NORM. -/
def normCmd (c : Cmd) (s : State) : State :=
  let busy := fun (t : Training) => t.normBusy || t.updating.isSome
  judge .trainNorm c
    (needSession s c ++ ([(argPair c 0 % 32 ≠ 0, .badArg), ((s.training.any fun t => t.backwards = 0), .badArg),
      (inFlight s > 0 || s.training.any busy, .busy)] : List (Bool × Status)))
    (fun s => await .trainNorm c (stepNow s) (.slot .normCommit 0) (announce (stepNow s) (.trainNorm (argPair c 0)) s)) s

/-- s_c of a chunk, and the slice's part of the norm (R279). -/
def normPart (t : Training) (chunks : List Nat) : TrSum :=
  let sc := fun (k : Nat) =>
    (sortBy (fun (a b : Nat × Nat × F32) => a.2.1 < b.2.1) (t.normVals.filter fun v => v.1 == k)).foldl
      (fun a v => fAdd a (fMul v.2.2 v.2.2)) (0 : F32)
  let cs := chunks.map sc
  let blank : TrSum := { norm := true, seq := 0, counted := 0, infCount := 0, ignored := 0, sum := 0, sumsq := 0, sat := 0 }
  if t.desc.strict then
    let xs := cs.map toXs96
    { blank with sum := xs.foldl (fun a x => a + x.1) 0, sat := total (xs.map (·.2)) }
  else { blank with sumsq := cs.foldl fAdd 0 }

/-- Chunks of this slice, ascending. -/
def myChunks (s : State) : List Nat := ascending ((myRuns s).flatMap fun r => (List.range r.count).map (r.first + ·))

/-- Cells of the session's head on this slice. -/
def trainCells (s : State) : List Cell := ((s.training.bind fun t => headOf s t.part).map fun h => cellsOf h.strips).getD []

/-- When every accumulator value of the slice has been read, its part of the norm is formed. -/
def normSettle (s : State) : State :=
  match s.training with
  | none => s
  | some t =>
    if slotsHeld s || !t.normBusy || t.normOwn.isSome || !(slotsRead t.normVals (trainCells s)) then s
    else normGather (updTrain (fun t => { t with normOwn := some (normPart t (myChunks s)) }) s)

/-- A norm starts on a slice: its accumulator slots of bank J mod 2 are read. -/
def applyNorm (addr : Nat) (s : State) : State :=
  match s.training with
  | none => s
  | some t =>
    let s := updTrain (fun t => { t with normBusy := true, normAddr := addr, normVals := [], normOwn := none, normWritten := false }) s
    match (headOf s t.part).bind fun h => shareHdr h.strips with
    | none => normSettle s
    | some h => normSettle (readBank t t.desc.gaccBase (t.backwards % 2) 4 h (trainCells s) .normAcc s)

/-- A norm that runs begins again over the runs that the slice now holds (R284). -/
def normAgain (s : State) : State :=
  match s.training with
  | none => s
  | some t => if t.normBusy then applyNorm t.normAddr s else s

/-- Accumulator values of a run have been read. -/
def normArrived (chunk slot : Nat) (b : Bytes) (s : State) : State :=
  normSettle (updTrain (fun t => { t with normVals := t.normVals ++ accsOf chunk slot b }) s)

/-! ## The hidden gradient (R83, R198 to R201, R277, R355, R380) -/

/-- What a backward slot uses of token u (R276). -/
def tokenGrad (s : State) (t : Training) (h : Head) (m : Micro) (u : Nat) : TokenGrad :=
  match m.saved.find? fun r => r.token == u, m.records.find? fun r => r.token == u with
  | some row, some r =>
    { token := u, d := gradRow t r (m.targets.getD u (0, true)) (myRuns s) (trainScores s t row (stripsFor h m.mask)),
      x := savedVals (128 * h.id.blocks) row }
  | _, _ => { token := u, d := [], x := [] }

/-- Position groups of the head (R199). -/
def posGroups (s : State) : List Nat := List.range (trainWidth s / 32)

/-- The reduce-scatter runs: set, in a group of more than one (R198). -/
def rsOn (s : State) (t : Training) : Bool := t.desc.rs && groupSize s > 1

/-- Column and row of a slice. -/
def coordOf (s : State) (n : Nat) : Nat × Nat := (n % treeX s, n / treeX s)

/-- Stage st of group g runs along X (R199). -/
def alongX (s : State) (g st : Nat) : Bool := treeY s == 1 || ((g % 2 == 0) == (st == 0))

/-- The owner of a position group: slice g mod G, or the keeper of that hole (R199, R419). -/
def groupOwner (s : State) (g : Nat) : Nat := acting s (g % groupSize s)

/-- Coordinates from o upward, with wrap-around. -/
def cyclic (n o : Nat) : List Nat := (List.range n).map fun i => (o + i) % n

/-- Sizes along a group's first and second dimension, and a slice's coordinates there. -/
def stageDims (s : State) (g : Nat) : Nat × Nat := if alongX s g 0 then (treeX s, treeY s) else (treeY s, treeX s)

/-- Coordinates of a slice along a group's first and second dimension. -/
def stageAt (s : State) (g n : Nat) : Nat × Nat := let c := coordOf s n; if alongX s g 0 then c else (c.2, c.1)

/-- The first-stage line of group g at second coordinate b, from the owner's coordinate upward: holes hold nothing and are left out; its
first slice is the stage owner (R199, R419; DESIGN CHOICE 144). -/
def firstLine (s : State) (g b : Nat) : List Nat :=
  let d := stageDims s g
  ((cyclic d.1 (stageAt s g (groupOwner s g)).1).map fun a => if alongX s g 0 then a + b * treeX s else b + a * treeX s).filter
    fun n => !(isHole s n)

/-- The line of slices that holds group g in a stage at this slice, the stage owner first (R199): in the second stage the first-stage owners. -/
def rsLine (s : State) (g st : Nat) : List Nat :=
  if st = 0 then firstLine s g (stageAt s g (me s)).2
  else (cyclic (stageDims s g).2 (stageAt s g (groupOwner s g)).2).filterMap fun b => (firstLine s g b).head?

/-- This slice's place in a line, the owner's being 0. -/
def rsPos (s : State) (g st : Nat) : Nat := (rsLine s g st).idxOf (me s)

/-- This slice takes part in stage st of group g: the second stage runs among the first's owners. -/
def rsTakes (s : State) (g st : Nat) : Bool := (st == 0 || treeY s != 1) && (rsLine s g st).contains (me s) && (rsLine s g st).length > 1

/-- The elements of a received stream at an index: token, group, position (R380). -/
def rsPlace (gs : List Nat) (first i : Nat) : Nat × Nat :=
  (first + i / (32 * gs.length), 32 * (gs.getD (i / 32 % gs.length) 0) + i % 32)

/-- Groups that a stage sends on a port (R199): not those it owns. -/
def rsOutGroups (s : State) (st port : Nat) : List Nat :=
  (posGroups s).filter fun g => rsTakes s g st && (if alongX s g st then port == 0 else port == 2) && rsPos s g st != 0

/-- Groups that a stage receives on a port: not those whose sum starts here. -/
def rsInGroups (s : State) (st port : Nat) : List Nat :=
  (posGroups s).filter fun g => rsTakes s g st && (if alongX s g st then port == 1 else port == 3) && rsPos s g st != 1

/-- Groups of a stage and port by stream: one stream, but where a slice stands in the lines of several owners' coordinates, one for each,
in ascending coordinate (DESIGN CHOICE 144). -/
def rsStreams (s : State) (st : Nat) (gs : List Nat) : List (List Nat) :=
  let lane := fun (g : Nat) => if st = 0 then 0 else (stageAt s g (groupOwner s g)).1
  (ascending ((gs.map lane).eraseDups)).map fun c => gs.filter fun g => lane g == c

/-- The stream that holds element i of a stage and port whose streams run one after the other, and i within it. -/
def streamAt (tokens : Nat) : List (List Nat) → Nat → Option (List Nat × Nat)
  | [], _ => none
  | gs :: rest, i => let n := tokens * gs.length * 32; if i < n then some (gs, i) else streamAt tokens rest (i - n)

/-- The value that this slice holds of an element after a stage: its own contribution with what has arrived (R199, R200). -/
def rsValue (s : State) (t : Training) (m : Micro) (own : Nat → Nat → BitVec 96) (st token pos : Nat) : Option (BitVec 96) :=
  let g := pos / 32
  let step := fun (st : Nat) (mine : Option (BitVec 96)) =>
    if !(rsTakes s g st) || rsPos s g st = 1 then mine
    else match mine, m.rs.find? fun e => e.stage == st && e.token == token && e.pos == pos with
      | some a, some e => some (rsAdd t.desc.strict e.bits a)
      | _, _ => none
  let first := step 0 (some (own token pos))
  if st = 0 then first else step 1 first

/-- The number of raw-flit elements of a form (R201). -/
def formElems : RsForm → Nat
  | .fast => 60 | .strict80 => 24 | .strict96 => 20

/-- Bytes of an element of a form. -/
def formBytes : RsForm → Nat
  | .fast => 4 | .strict80 => 10 | .strict96 => 12

/-- An XS96 value fits in 80 bits: its magnitude is below 2^15 (R201). -/
def fits80 (x : BitVec 96) : Bool := x.toInt.natAbs < 2 ^ 79

/-- The form and elements of the next flit of a stream. -/
def nextFlit (strict : Bool) (l : List (BitVec 96)) : RsForm × List (BitVec 96) :=
  if !strict then (.fast, l.take 60)
  else if (l.take 24).all fits80 then (.strict80, l.take 24) else (.strict96, l.take 20)

/-- Elements sent so far of a stream. -/
def rsCount (m : Micro) (st port : Nat) : Nat := ((m.rsSent.find? fun x => x.1 == st && x.2.1 == port).map (·.2.2)).getD 0

/-- Elements of a stream of a micro-batch. -/
def rsTotal (m : Micro) (gs : List Nat) : Nat := m.desc.tokens * gs.length * 32

/-- The next slice of a group's line, to which a stage sends: the neighbour on the port, past holes (R199, R366; log entry 144). -/
def rsNext (s : State) (g st : Nat) : Nat := let l := rsLine s g st; l.getD ((rsPos s g st + 1) % l.length) (me s)

/-- Raw flits of a stage's streams go out on a port while their elements are at hand; only the last of a stream may hold fewer (R380). -/
def rsStream (t : Training) (seq : Word) (own : Nat → Nat → BitVec 96) (st port : Nat) : Nat → State → State
  | 0, s => s
  | f + 1, s =>
    match microOf s seq with
    | none => s
    | some m =>
      let done := rsCount m st port
      match streamAt m.desc.tokens (rsStreams s st (rsOutGroups s st port)) done with
      | none => s
      | some (gs, at_) =>
        let all := rsTotal m gs
        let want := min 60 (all - at_)
        let l := ((List.range want).map fun i => let p := rsPlace gs 0 (at_ + i); rsValue s t m own st p.1 p.2)
        let have_ := (l.takeWhile (·.isSome)).filterMap id
        let need := if t.desc.strict then min 24 want else want
        if want = 0 || have_.length < need then s
        else
          let fl := nextFlit t.desc.strict have_
          let dest := rsNext s (gs.headD 0) st
          let s := if at_ = 0 then send dest (.rsBegin port ⟨seq, st = 1, 0, all⟩) s else s
          let s := send dest (.rsFlit port fl.1 (fl.2.flatMap fun x => leBytes (formBytes fl.1) x.toNat)) s
          let sent := m.rsSent.filter (fun x => !(x.1 == st && x.2.1 == port)) ++ [(st, port, done + fl.2.length)]
          rsStream t seq own st port f (updMicro seq (fun m => { m with rsSent := sent }) s)

/-- The streams of a stage and port have been sent. -/
def rsSentAll (s : State) (m : Micro) (st port : Nat) : Bool := rsCount m st port == rsTotal m (rsOutGroups s st port)

/-- The streams of a micro-batch: stage and port. On a port, the first stage's come first, and streams do not interleave (R380). -/
def rsOrder : List (Nat × Nat) := [(0, 0), (0, 2), (1, 0), (1, 2)]

/-- Streams go out in order, a port's second stage after its first. -/
def rsSend (t : Training) (seq : Word) (own : Nat → Nat → BitVec 96) (fuel : Nat) (s : State) : State :=
  rsOrder.foldl (fun s x =>
    if x.1 = 1 && !((microOf s seq).all fun m => rsSentAll s m 0 x.2) then s else rsStream t seq own x.1 x.2 fuel s) s

/-- Every stream of a micro-batch has been sent. -/
def rsAllSent (s : State) (m : Micro) : Bool :=
  rsOrder.all fun x => rsSentAll s m x.1 x.2

/-- The groups that this slice sends over GBP (R199, R355). -/
def gbpGroups (s : State) (t : Training) : List Nat :=
  if rsOn s t then (posGroups s).filter fun g => groupOwner s g == me s else posGroups s

/-- The finished value of an element at its sender. -/
def finalValue (s : State) (t : Training) (m : Micro) (own : Nat → Nat → BitVec 96) (token pos : Nat) : Option (BitVec 96) :=
  if rsOn s t then rsValue s t m own (if treeY s = 1 then 0 else 1) token pos else some (own token pos)

/-- The 64 bytes of one position group of a token (R277, R355); none while a sum is missing. -/
def groupBytes (s : State) (t : Training) (m : Micro) (own : Nat → Nat → BitVec 96) (u g : Nat) : Option Bytes :=
  let l := (List.range 32).map fun i => (finalValue s t m own u (32 * g + i)).map fun x =>
    if dropped s.pipTable t m.desc.seq u (32 * g + i) then 0 else rsOut t.desc.strict x
  if l.all (·.isSome) then some (l.flatMap fun x => leBytes 2 (x.getD 0)) else none

/-- Pairs of groups, in ascending order. -/
def pairUp : List Nat → List (Nat × Option Nat)
  | a :: b :: rest => (a, some b) :: pairUp rest
  | [a] => [(a, none)]
  | [] => []

/-- The beats of one token (R355); none while a sum is missing. `clamp` counts the clamps of a group's elements on this slice. -/
def tokenBeats (s : State) (t : Training) (m : Micro) (own : Nat → Nat → BitVec 96) (clamp : Nat → Nat → Nat) (u : Nat) : Option (List GbpBeat) :=
  let ps := pairUp (gbpGroups s t)
  let n := ps.length
  let l := ps.zipIdx.map fun p =>
    let second := match p.1.2 with | none => some (List.replicate 64 0) | some g => groupBytes s t m own u g
    match groupBytes s t m own u p.1.1, second with
    | some a, some b =>
      some (GbpBeat.mk m.desc.seq u p.1.1 p.1.2 (a ++ b)
        (min 255 (clamp u p.1.1 + ((p.1.2.map (clamp u)).getD 0))) (u + 2 ≥ m.desc.tokens && p.2 + 1 = n))
    | _, _ => none
  if l.all (·.isSome) then some (l.filterMap id) else none

/-- Clamps that the other slices made count too, and no flit brings their number: it is a free value of each beat (R200; log entry 75). -/
def withClamps (n : Nat) (bs : List GbpBeat) : List GbpBeat :=
  bs.zipIdx.map fun b => { b.1 with sat := min 255 (b.1.sat + Config.otherClamps (n + b.2)) }

/-- Beats of further tokens, in ascending token, join their channels while they are at hand (R355). -/
def makeBeats (t : Training) (seq : Word) (own : Nat → Nat → BitVec 96) (clamp : Nat → Nat → Nat) : Nat → State → State
  | 0, s => s
  | f + 1, s =>
    match microOf s seq with
    | none => s
    | some m =>
      if m.beatToken ≥ m.desc.tokens then s
      else match tokenBeats s t m own clamp m.beatToken with
        | none => s
        | some bs =>
          let bs := if rsOn s t && t.desc.strict then withClamps s.fresh bs else bs
          let put := fun (p : GbpPort) => { p with waiting := p.waiting ++ bs }
          let s := { s with fresh := s.fresh + bs.length }
          let s := if m.beatToken % 2 = 0 then { s with gbpA := put s.gbpA } else { s with gbpB := put s.gbpB }
          makeBeats t seq own clamp f (updMicro seq (fun m => { m with beatToken := m.beatToken + 1 }) s)

/-- The hidden gradient of a micro-batch moves on: streams of the reduce-scatter, then beats (R198, R199). -/
def gradAdvance (seq : Word) (s : State) : State :=
  match s.training, microOf s seq with
  | some t, some m =>
    (match headOf s t.part with
     | none => s
     | some h =>
       let first := (t.micros.find? fun x => x.bwdStarted && !(rsAllSent s x)).all fun x => x.desc.seq == seq
       if slotsHeld s || !m.bwdStarted || m.bwdWritten || !(rowsAtHand m) || !h.rebuilding.isEmpty then s
       else
         let strips := stripsFor h m.mask
         let f := ((shareHdr strips).map (·.fmt)).getD .bf16
         let cells := cellsOf strips
         let grads := (List.range m.desc.tokens).map (tokenGrad s t h m)
         let part := fun (u p : Nat) => match grads[u]? with
           | some g => slicePartial t.epoch t.desc.strict f cells (myChunks s) (vocab s) g p
           | none => (0, 0)
         let own := fun u p => (part u p).1
         let clamp := fun (u g : Nat) => total ((List.range 32).map fun i => (part u (32 * g + i)).2)
         let fuel := rsTotal m (posGroups s) + 1
         let s := if rsOn s t && first then rsSend t seq own fuel s else s
         makeBeats t seq own clamp (m.desc.tokens + 1) s)
  | _, _ => s

/-- Every backward slot that has started moves on, oldest first. -/
def gradsAdvance (s : State) : State :=
  (((s.training.map (·.micros)).getD []).filter (·.bwdStarted)).foldl (fun s m => gradAdvance m.desc.seq s) s

/-- RS_BEGIN opens a stream on a port (R380). -/
def rsBeginArrives (port : Nat) (r : RsBegin) (s : State) : State :=
  { s with link := { s.link with ports := updAt s.link.ports port fun p => { p with rsOpen := some r, rsElems := 0 } } }

/-- The elements of a raw flit (R201). -/
def flitElems (form : RsForm) (body : Bytes) : List (BitVec 96) :=
  let n := formBytes form
  (List.range (min (formElems form) (body.length / n))).map fun i =>
    let v := leAt body (n * i) n
    match form with
    | .fast => BitVec.ofNat 96 v
    | .strict80 => (BitVec.ofNat 80 v).signExtend 96
    | .strict96 => BitVec.ofNat 96 v

/-- A raw flit's elements join their stage (R199, R380). -/
def rsFlitArrives (port : Nat) (form : RsForm) (body : Bytes) (s : State) : State :=
  match s.link.ports[port]? with
  | none => s
  | some p =>
    match p.rsOpen with
    | none => s
    | some r =>
      let st := b01 r.second
      -- the stream that is due on the port: the first that is not whole (log entry 144)
      let tokens := ((microOf s r.seq).map (·.desc.tokens)).getD 0
      let got := fun (gs : List Nat) =>
        (((microOf s r.seq).map (·.rs)).getD []).countP fun e => e.stage == st && gs.contains (e.pos / 32)
      let gs := ((rsStreams s st (rsInGroups s st port)).find? fun gs => got gs < tokens * gs.length * 32).getD []
      let es := (flitElems form body).take (r.elements - p.rsElems)
      let got := es.zipIdx.map fun e =>
        let q := rsPlace gs r.firstToken (p.rsElems + e.2)
        RsElem.mk st q.1 q.2 e.1
      let done := p.rsElems + es.length
      let s := { s with link := { s.link with ports := updAt s.link.ports port fun p =>
        { p with rsElems := done, rsOpen := if done ≥ r.elements then none else some r } } }
      gradsAdvance (updMicro r.seq (fun m => { m with rs := m.rs ++ got }) s)

/-! ## TRAIN_BACKWARD (R276) -/

/-- A backward of a micro-batch is accepted and has not started here. -/
def bwdHeld (s : State) (seq : Word) : Bool := heldItem s fun x => match x with | .trainBackward q _ => q = seq | _ => false

/-- The next micro-batch: the oldest whose backward has not started (R276). -/
def nextBackward (s : State) : Option Micro :=
  s.training.bind fun t => t.micros.find? fun m => !m.bwdStarted && !(bwdHeld s m.desc.seq)

/-- SEQ of the next micro-batch where its forward is accepted and has not started here, or waits: the oldest of those, when every
micro-batch that has started here has its backward (R276). -/
def nextHeld (s : State) : Option Word :=
  if (nextBackward s).isSome then none
  else (s.held.findSome? fun m => match m.item with | .trainForward d => some d.seq | _ => none).orElse
    fun _ => s.training.bind fun t => t.waiting.map (·.2.seq)

/-- The plan of the session's partition. -/
def planOf (s : State) (p : Nat) : Option Plan := s.plans.find? fun x => x.part == p

/-- An accepted backward is announced for its step; it computes regrowth where a grow names it (R292). -/
def startBackward (c : Cmd) (seq : Word) (s : State) : State :=
  let n := stepNow s
  let grow := (planOf s c.part).any fun p => p.growSeq == some seq && !p.growDone
  await .trainBackward c n (.slot .backwardCommit seq) (announce n (.trainBackward seq grow) s)

/-- TRAIN_BACKWARD. -/
def backwardCmd (c : Cmd) (s : State) : State :=
  let seq := c.args.getD 0 0
  let next := nextBackward s
  judge .trainBackward c
    (needSession s c ++
      [((next.all fun m => m.desc.seq != seq) && nextHeld s != some seq, .badArg),
       ((next.any fun m => m.desc.seq == seq && !m.fwdCommitted) || nextHeld s == some seq, .busy),
       (updateRuns s || (s.training.any fun t => t.waitingBwd.isSome), .busy)])
    (fun s => if barrierWaits s then updTrain (fun t => { t with waitingBwd := some c }) s else startBackward c seq s) s

/-- Blocks of a list of n spill entries of 16 bytes (R142, R294, Table 6.4). -/
def spillBlocks (n : Nat) : Nat := ceilDiv (16 * n) 65536

/-- Entries of a plan's grow list on this slice, at most (R293, R294). -/
def growSize (p : Plan) : Nat := if p.perSlice || !p.tile then p.pruneList.length else p.pruned

/-- What a refused allocation answers (R142). -/
def growRefused : AllocFail → SlotKind
  | .full => .growBusy
  | _ => .growBad

/-- A grow that a slice cannot hold ends on the holder: MASK_GROW completes, and every slice drops the growth (R142, R294). -/
def growFails (seq : Word) (st : Status) (s : State) : State :=
  let mine := fun (x : PendCmd) => x.op == .maskGrow && x.wait == .slot .backwardCommit seq
  if s.eocia.pending.any mine then announce (stepNow s) (slotMsg .growDrop seq) (finish mine (fun _ => st) (fun _ => []) s) else s

/-- The growth of a backward slot is dropped on a slice: the slot goes on without it, and the plan is PRUNED. -/
def dropGrowth (seq : Word) (s : State) : State :=
  let mine := fun (p : Plan) => p.growSeq == some seq && !p.committed
  let ps := (s.plans.filter mine).map (·.part)
  let s := freeUses (fun u => ps.contains u.part && (u.use == .grow || u.use == .selection)) s
  let s := { s with plans := s.plans.map fun p => if mine p then { p with growSeq := none, growDone := false, growList := [], select := none } else p }
  updMicro seq (fun m => { m with growing := false }) s

/-- A grow names a micro-batch (R292): the grow list takes its blocks, and in TILE mode the large selection of direction TOP starts on this
slice, with those of its sort (R142, R294). -/
def growBegins (seq : Word) (s : State) : State :=
  let sel := fun (p : Plan) => if p.tile then
      some { k := if p.perSlice then p.pruneList.length else p.pruned, top := true, grp := !p.perSlice, pass := 1, lo := 0, hi := 2 ^ 32 - 1,
             w := 23, need := if p.perSlice then p.pruneList.length else p.pruned, count := 0, taken := [], tieKey := none, tieCut := none,
             final := none }
    else none
  let mine := fun (p : Plan) => (s.training.any fun t => t.part == p.part) && !p.growDone && !p.committed
  match s.plans.find? mine with
  | none => s
  | some p =>
    let n := growSize p
    let set := fun (x : Plan) => if mine x then { x with growSeq := some seq, select := sel x } else x
    let t := { s with plans := s.plans.map set }
    let room := (allocBlocks p.part .grow (spillBlocks n) t).bind fun t => if p.tile then allocBlocks p.part .selection (spillBlocks n) t else .ok t
    match room with
    | .ok t => t
    | .error e =>
      let t := { s with plans := s.plans.map fun x => if mine x then { x with growSeq := some seq, select := none } else x }
      tellHolder (growRefused e) seq (fun _ => growFails seq (if growRefused e = .growBusy then .busy else .badArg)) t

/-- A backward slot starts on a slice: spilled tiles are read back (R113). -/
def applyBackward (seq : Word) (grow : Bool) (s : State) : State :=
  match s.training, microOf s seq with
  | some t, some m =>
    let s := updMicro seq (fun m => { m with bwdStarted := true, growing := grow }) s
    let s := if grow then growBegins seq s else s
    let s := trace 15 1 0 1 (seq.setWidth 64) s
    let s := m.tiles.foldl (fun s x => match x.2 with
      | some off => hmpRead t.part (spillAddr t (t.partNo (me s)) off) (spillBytes (trainWidth s)) .rda (.spill seq x.1) s
      | none => s) s
    gradAdvance seq s
  | _, _ => s

/-- A spilled tile has been read back: decrypted, or lost where its tag check fails (R283, R402). -/
def spillArrived (seq : Word) (tile : Nat) (bs : Option Bytes) (s : State) : State :=
  match s.training, microOf s seq with
  | some t, some m =>
    (match bs, m.tiles.find? fun x => x.1 == tile with
     | some b, some (_, some off) =>
       let w := trainWidth s
       let n := tileBytes w
       let part := t.partNo (me s)
       let key := spillKey s t
       let nonce := spillNonce t part seq tile
       let cipher := b.take n
       if sub b n 16 ≠ gcmTag key nonce (spillAad part seq tile (spillAddr t part off)) cipher then
         tileLost seq tile (alarm 0x1F (BitVec.ofNat 64 (2 + t.part * 2 ^ 4)) s)
       else
         let plain := gcmCrypt key nonce cipher
         let len := w + w / 32
         gradAdvance seq (updMicro seq (fun m => { m with saved := m.saved.map fun r =>
           if r.token / 128 = tile then { r with data := sub plain (len * (r.token % 128)) len } else r }) s)
     | none, _ => tileLost seq tile s
     | _, _ => s)
  | _, _ => s

/-- A training row delivered over HIP: converted and saved in its tile, or its tile is lost, which its first row reports (R34, R113, R283; log
entry 145). The request of the Pip-L trace is the token number, since no request has the word (DESIGN CHOICE 143). -/
def saveToken (seq : Word) (u fmt : Nat) (payload : Bytes) (s : State) : State :=
  match s.training, microOf s seq with
  | some t, some m =>
    let tile := u / 128
    let placed := if m.tiles.any fun x => x.1 == tile then some s else placeTile t seq tile s
    (match placed with
     | none => if u % 128 = 0 || !(m.again.contains u) then tileLost seq tile s else s
     | some s =>
       let w := trainWidth s
       let row := savedRow s.pipTable t seq u w fmt payload
       let rounds := if ((rowFmt fmt).getD .e4m3).isMx then [] else (List.range (ceilDiv w 8)).map (u * 4096 + ·)
       let drops := if t.desc.dropQ = 0 then [] else (List.range (ceilDiv w 4)).map (u * 8192 + ·)
       let s := if rounds.isEmpty then s else pipWork u t.genT rounds s
       let s := if drops.isEmpty then s else pipWork u t.genT drops s
       let s := updMicro seq (fun m => { m with saved := m.saved ++ [row] }) s
       let full := ((microOf s seq).map fun m => (tileRows m tile).length).getD 0 = 128
       gradAdvance seq (if full then spillTile seq tile s else s))
  | _, _ => s

/-! ## BACKWARD_SLOT_DONE (R69, R277, R278, R299) -/

/-- No beat of a micro-batch waits or is unacknowledged (R277). -/
def beatsDone (s : State) (seq : Word) : Bool :=
  [s.gbpA, s.gbpB].all fun p => (p.waiting ++ p.unacked).all fun b => b.seq != seq

/-- Accumulator values after a backward slot: RNE(A + G_mb) where both versions store the entry, else A (R278, R299); A is what was read
of bank j mod 2. -/
def newAccs (s : State) (t : Training) (h : Head) (m : Micro) (j : Nat) : List (Cell × F32) :=
  let grads := (List.range m.desc.tokens).map (tokenGrad s t h m)
  let old := cellsOf (stripsFor h m.mask)
  (cellsOf h.strips).map fun c =>
    let a := if j = 0 then 0 else (slotVal m.accVals c).getD 0
    if m.mask = h.maskVersion || old.any fun o => o.index == c.index && o.pos == c.pos then (c, fAdd a (gradAt t.epoch grads c.index c.pos))
    else (c, a)

/-- The oldest backward slot that has not written its accumulators. -/
def backwardMicro (s : State) : Option Micro := s.training.bind fun t => t.micros.find? fun m => m.bwdStarted && !m.bwdWritten

/-- The holder learns that a member's backward slot is complete. -/
def backwardReady (seq : Word) (src : Nat) (s : State) : State :=
  updMicro seq (fun m => { m with bwdReady := addOnce m.bwdReady src }) s

/-- The work of a backward slot is over on this slice: rows at hand, gradients sent and acknowledged, growth made where asked (R69, R277,
R292). -/
def backwardOver (s : State) (t : Training) (h : Head) (m : Micro) : Bool :=
  let grown := (planOf s t.part).any fun p => (spillBlocks (growSize p) = 0 || s.pot.uses.any fun u => u.part == t.part && u.use == .grow) && (!p.tile || p.growDone)
  !(slotsHeld s) && rowsAtHand m && h.rebuilding.isEmpty && m.beatToken ≥ m.desc.tokens && beatsDone s m.desc.seq
    && (!(rsOn s t) || rsAllSent s m) && (!m.growing || grown)

/-- Backward slots since the last update that come before this one: its number j (R278). -/
def slotNumber (t : Training) : Nat := t.backwards + (t.micros.filter (·.bwdWritten)).length

/-- The accumulators of a backward slot are written to bank (j + 1) mod 2 (R278). -/
def writeAccs (t : Training) (h : Head) (hd : StripHdr) (m : Micro) (s : State) : State :=
  let j := slotNumber t
  let s := updMicro m.desc.seq (fun m => { m with bwdWritten := true }) s
  let ws := (newAccs s t h m j).map fun x => (slotAddr t.desc.gaccBase ((j + 1) % 2) (chunksOf (vocab s)) 4 hd x.1, leBytes 4 x.2.toNat)
  if ws.isEmpty then tellHolder .backward m.desc.seq (backwardReady m.desc.seq) s else slotWrites t.part ws .backward m.desc.seq s

/-- BACKWARD_SLOT_DONE: with the slot's work over, bank j mod 2 is read, but for j = 0, and the accumulators are written (R277, R278). An
earlier slot has committed first, since this one writes that slot's source bank (R284). -/
def backwardDone (grown : State → State) (s : State) : State :=
  match s.training, backwardMicro s with
  | some t, some m =>
    (match headOf s t.part with
     | none => s
     | some h =>
       if m.accAsked || !(backwardOver s t h m) || t.micros.any (·.bwdWritten) then s
       else
         let s := if m.growing then grown s else s
         let s := updMicro m.desc.seq (fun m => { m with accAsked := true }) s
         match shareHdr h.strips with
         | none => tellHolder .backward m.desc.seq (backwardReady m.desc.seq) (updMicro m.desc.seq (fun m => { m with bwdWritten := true }) s)
         | some hd =>
           if slotNumber t = 0 then writeAccs t h hd m s
           else readBank t t.desc.gaccBase (slotNumber t % 2) 4 hd (cellsOf h.strips) (.bankAcc (some m.desc.seq)) s)
  | _, _ => s

/-- Accumulators that a backward slot asked for have been read; with all of them, it writes (R278). -/
def accArrived (seq : Word) (chunk slot : Nat) (b : Bytes) (s : State) : State :=
  let s := updMicro seq (fun m => { m with accVals := m.accVals ++ accsOf chunk slot b }) s
  match s.training, microOf s seq with
  | some t, some m =>
    (match (headOf s t.part).bind fun h => (shareHdr h.strips).map fun hd => (h, hd) with
     | some (h, hd) =>
       if slotsHeld s || !m.accAsked || m.bwdWritten || !(slotsRead m.accVals (cellsOf h.strips)) then s else writeAccs t h hd m s
     | none => s)
  | _, _ => s

/-- A micro-batch's backward slot before it starts. -/
def Micro.unstarted (m : Micro) : Micro :=
  { m with bwdStarted := false, rs := [], rsSent := [], beatToken := 0, bwdWritten := false, bwdReady := [], growing := false,
           accAsked := false, accVals := [] }

/-- A backward slot that is given up on a slice, because a bank could not be read: its command has completed with BUSY (Table 17.5; log
entry 146). -/
def dropBackward (seq : Word) (s : State) : State :=
  let drop := fun (g : GbpPort) => { g with waiting := g.waiting.filter fun b => b.seq != seq }
  updMicro seq Micro.unstarted (dropGrowth seq { s with gbpA := drop s.gbpA, gbpB := drop s.gbpB })

/-- A bank of a backward slot cannot be read on a member: the holder's command completes with BUSY, and every slice gives the slot up. -/
def backwardFails (seq : Word) (s : State) : State :=
  let mine := fun (x : PendCmd) => x.wait == .slot .backwardCommit seq
  if s.eocia.pending.any mine then announce (stepNow s) (slotMsg .backwardDrop seq) (finish mine (fun _ => .busy) (fun _ => []) s) else s

/-! ## TRAIN_UPDATE (R280 to R282, R300) -/

/-- Arguments of TRAIN_UPDATE. -/
def updateArgs (c : Cmd) : UpdateArgs :=
  let f := fun n => c.args.getD n 0
  { gscale := f 0, lr := f 1, wd := f 2, b1 := f 3, b2 := f 4, bc1 := f 5, bc2 := f 6, eps := f 7 }

/-- A value lies in [0, 1). -/
def unitRange (x : F32) : Bool := fLe 0 x && fLt x 0x3F800000#32

/-- The argument refusals of R280; B2, BC1, BC2 and EPS are checked for SGD too (DEDUCED 43). -/
def updateBad (a : UpdateArgs) : Bool :=
  !([a.gscale, a.lr, a.wd, a.b1, a.b2, a.bc1, a.bc2, a.eps].all isFinite)
    || fLt a.lr 0 || fLt a.wd 0 || !(unitRange a.b1) || !(unitRange a.b2) || !(fLt 0 a.eps) || fLt a.bc1 0x3F800000#32
    || fLt a.bc2 0x3F800000#32

/-- A norm is accepted and has not started here. -/
def normHeld (s : State) : Bool := heldItem s fun x => match x with | .trainNorm _ => true | _ => false

/-- TRAIN_UPDATE. -/
def updateCmd (c : Cmd) (s : State) : State :=
  let a := updateArgs c
  judge .trainUpdate c
    (needSession s c ++
      [(updateBad a || arg c 8 ≠ 0, .badArg), ((s.training.any fun t => t.backwards = 0), .badArg),
       (inFlight s > 0 || (s.training.any fun t => !t.normDone || t.normBusy || t.waiting.isSome) || normHeld s || updateRuns s || barrierWaits s, .busy)])
    (fun s => await .trainUpdate c (stepNow s) (.slot .updateCommit 0) (announce (stepNow s) (.trainUpdate a) s)) s

/-- The holder learns that a member's update slot is complete. -/
def updateReady (src : Nat) (s : State) : State := updTrain (fun t => { t with updReady := addOnce t.updReady src }) s

/-- The strips whose layout the state bank of the last update has (R300). -/
def stateStrips (h : Head) : List Strip :=
  if h.retired.isEmpty then h.strips else h.strips.map fun x => (h.retired.find? fun r => r.first == x.first).getD x

/-- An entry's MASTER, M and V before the update: from its old slot, or the initial values of a grown one (R295, R300). -/
def stateBefore (h : Head) (f : Fmt) (old : List (Cell × F32 × F32 × F32)) (c : Cell) : F32 × F32 × F32 :=
  if h.newborn.any fun n => n.index == c.index && n.pos == c.pos then (weightF f c, 0, 0)
  else match old.find? fun o => o.1.index == c.index && o.1.pos == c.pos with
    | some o => o.2
    | none => (weightF f c, 0, 0)

/-- The source banks of an update are read on a slice (R280). -/
def readUpdate (s : State) : State :=
  match s.training, s.training.bind fun t => headOf s t.part with
  | some t, some h =>
    (match shareHdr h.strips with
     | none => s
     | some hd =>
       readBank t t.desc.stateBase (t.updates % 2) (slotBytes t.desc.sgd) hd (cellsOf (stateStrips h)) .bankState
         (readBank t t.desc.gaccBase (t.backwards % 2) 4 hd (cellsOf h.strips) (.bankAcc none) s))
  | _, _ => s

/-- An update slot starts on a slice: accumulator bank J mod 2 is read, and state bank U mod 2 in the layout that the last update wrote (R280,
R300). -/
def applyUpdate (a : UpdateArgs) (s : State) : State :=
  readUpdate (trace 15 1 0 2 0 (updTrain (fun t => { t with updating := some a, updAcc := [], updState := [], updWritten := false, updReady := [] }) s))

/-- Accumulators of the update have been read. -/
def updAccArrived (chunk slot : Nat) (b : Bytes) (s : State) : State :=
  updTrain (fun t => { t with updAcc := t.updAcc ++ accsOf chunk slot b }) s

/-- State slots of the update have been read. -/
def updStateArrived (chunk slot : Nat) (b : Bytes) (s : State) : State :=
  updTrain (fun t => { t with updState := t.updState ++ slotsOf chunk slot (slotBytes t.desc.sgd) b }) s

/-- An update is given up on a slice, because a bank could not be read: its command has completed with BUSY (Table 17.5; log entry 146). -/
def dropUpdate (s : State) : State :=
  match s.training with
  | none => s
  | some t =>
    updTrain (fun t => { t with updating := none, updAcc := [], updState := [], updWritten := false, updReady := [] })
      { s with heads := updFirst (fun h => h.part == t.part) (fun h => { h with coming := none }) s.heads }

/-- A bank of the update cannot be read on a member: the holder's command completes with BUSY, and every slice gives the update up. -/
def updateFails (s : State) : State :=
  let mine := fun (x : PendCmd) => x.wait == .slot .updateCommit 0
  if s.eocia.pending.any mine then announce (stepNow s) (slotMsg .updateDrop 0) (finish mine (fun _ => .busy) (fun _ => []) s) else s

/-- Writes of strip images into the host head image, a taken strip's into the image that it came from (R89, R421; log entry 148). -/
def imageWrites (h : Head) (strips changed : List Strip) : List (Nat × Bytes) :=
  changed.map fun x => (imageAt h 0 h.id.addr strips x.first, x.image)

/-- MASTER, M and V of a state slot (R268). -/
def stateVals (sgd : Bool) (b : Bytes) : F32 × F32 × F32 := (wordAt b 0, wordAt b 4, if sgd then 0 else wordAt b 8)

/-- New values of an update over the stored entries (R281, R300). -/
def updated (t : Training) (a : UpdateArgs) (h : Head) (f : Fmt) : List (Cell × F32 × F32 × F32) :=
  let before := (cellsOf (stateStrips h)).map fun c => (c, stateVals t.desc.sgd ((slotVal t.updState c).getD []))
  (cellsOf h.strips).map fun c =>
    let b := stateBefore h f before c
    (c, updateEntry t.epoch t.desc.sgd a ((slotVal t.updAcc c).getD 0) b.1 b.2.1 b.2.2)

/-- Bytes of a state slot's values. -/
def stateBytes (sgd : Bool) (x : F32 × F32 × F32) : Bytes :=
  leBytes 4 x.1.toNat ++ leBytes 4 x.2.1.toNat ++ (if sgd then [] else leBytes 4 x.2.2.toNat)

/-- A strip with new MASTER values (R282). -/
def withMaster (vals : List (Cell × F32)) (x : Strip) : Strip :=
  let masterOf := fun (i g e : Nat) => (((vals.filter fun v => v.1.index == x.first + i && v.1.seg == g)[e]?).map (·.2)).getD 0
  { x with image := match stripHdr x.image with | some y => convertStrip y x.image masterOf | none => x.image }

/-- UPDATE_SLOT_DONE (R281, R282): with both banks read, state bank (U + 1) mod 2 and the new strip images are written. -/
def updateDone (s : State) : State :=
  match s.training with
  | none => s
  | some t =>
    match t.updating, headOf s t.part with
    | some a, some h =>
      if slotsHeld s || t.updWritten || !h.rebuilding.isEmpty || !(slotsRead t.updAcc (cellsOf h.strips)) || !(slotsRead t.updState (cellsOf (stateStrips h))) then s
      else
        let s := updTrain (fun t => { t with updWritten := true }) s
        match shareHdr h.strips with
        | none => tellHolder .update 0 updateReady s
        | some hd =>
          let after := updated t a h hd.fmt
          let bank := (t.updates + 1) % 2
          let ws := after.map fun x =>
            (slotAddr t.desc.stateBase bank (chunksOf (vocab s)) (slotBytes t.desc.sgd) hd x.1, stateBytes t.desc.sgd x.2)
          let strips := h.strips.map (withMaster (after.map fun x => (x.1, x.2.1)))
          let s := { s with heads := updFirst (fun x => x.part == t.part) (fun x => { x with coming := some strips }) s.heads }
          slotWrites t.part (imageWrites h strips strips) .update 0 (slotWrites t.part ws .update 0 s)
    | _, _ => s

/-! ## Retired strips rebuilt (R298, R302) -/

/-- A retired strip is lost: its MASTER values are read from state bank U mod 2, which the last update wrote in its layout (R298). -/
def rebuildRetired (p first : Nat) (s : State) : State :=
  match s.training, headOf s p with
  | some t, some h =>
    (match h.retired.find? fun x => x.first == first with
     | some x =>
       (match stripHdr x.image with
        | some hd =>
          let put := fun (h : Head) => { h with rebuilding := h.rebuilding.filter (fun r => r.1 != first) ++ [(first, [])] }
          readBank t t.desc.stateBase (t.updates % 2) (slotBytes t.desc.sgd) hd (stripCells x) (.retiredBank p first)
            { s with heads := updFirst (fun h => h.part == p) put s.heads }
        | none => s)
     | none => s)
  | _, _ => s

/-- MASTER values of a retired strip have been read; with all of them it is converted by R282 (R298). A read that failed twice starts again. -/
def retiredArrived (p first chunk slot : Nat) (bs : Option Bytes) (s : State) : State :=
  match bs, s.training, headOf s p with
  | some b, some t, some h =>
    (match h.rebuilding.find? (fun r => r.1 == first), h.retired.find? fun x => x.first == first with
     | some r, some x =>
       let vals := r.2 ++ (slotsOf chunk slot (slotBytes t.desc.sgd) b).map fun v => (v.1, v.2.1, wordAt v.2.2 0)
       let cells := stripCells x
       let ended := slotsRead vals cells
       let new := withMaster (cells.map fun c => (c, (slotVal vals c).getD 0)) x
       let put := fun (h : Head) =>
         { h with rebuilding := h.rebuilding.filter (fun r => r.1 != first) ++ (if ended then [] else [(first, vals)])
                  retired := if ended then h.retired.map fun y => if y.first = first then new else y else h.retired }
       let s := { s with heads := updFirst (fun h => h.part == p) put s.heads }
       if ended then gradsAdvance s else s
     | _, _ => s)
  | none, _, _ => rebuildRetired p first s
  | _, _, _ => s

/-! ## TRAIN_CLOSE (R285) -/

/-- TRAIN_CLOSE. -/
def closeCmd (c : Cmd) (s : State) : State :=
  let busy := fun (t : Training) => t.waiting.isSome || t.waitingBwd.isSome || t.normBusy
  judge .trainClose c
    (needSession s c ++ [(inFlight s > 0 || updateRuns s || (s.training.any busy) || s.plans.any fun p => p.part == c.part, .busy)])
    (fun s => await .trainClose c (stepNow s) (.stamp (stepNow s)) (announce (stepNow s) .trainClose s)) s

/-- The session ends on a slice: record blocks, saved tiles, plan and retired strips are freed (R285, Table 14.4). -/
def endSession (s : State) : State :=
  match s.training with
  | none => s
  | some t =>
    let s := freeUses (fun u => match u.use with
      | .record _ | .tile _ _ => true
      | .selection | .plan | .grow | .build | .headMore | .retired => u.part == t.part
      | _ => false) s
    let s := { s with training := none, plans := s.plans.filter fun p => p.part != t.part, merges := s.merges.filter fun m => !m.key.train }
    { s with heads := updFirst (fun h => h.part == t.part) (fun h => { h with retired := [], newborn := [], rebuilding := [], coming := none }) s.heads }

/-! ## Commits (R69, R275, R277, R282) -/

/-- Waiting training commands start when nothing holds them back (R270, R296). -/
def startWaiting (s : State) : State :=
  match s.training with
  | none => s
  | some t =>
    if barrierWaits s || updateRuns s then s
    else
      let s := match t.waiting with
        | some (c, d) => if inFlight s < 8 then startForward c d (updTrain (fun t => { t with waiting := none }) s) else s
        | none => s
      match t.waitingBwd with
      | some c => startBackward c (c.args.getD 0 0) (updTrain (fun t => { t with waitingBwd := none }) s)
      | none => s

/-- What the session holder announces at its commit stamp of step n: at most one forward and one backward commit, and what else is
complete (R69). -/
def trainStamp (n : Nat) (s : State) : State :=
  match s.training with
  | none => s
  | some t =>
    if sessionHolder s ≠ me s then s
    else
      -- an idle member has no range, and takes no part in slots that started before it joined
      let all := fun (l : List Nat) => (members s).all fun x => s.group.idle.contains x || l.contains x
      let s := match t.micros.find? fun m => !m.fwdCommitted with
        | some m => if m.headerDone then announce n (slotMsg .forwardCommit m.desc.seq) s else s
        | none => s
      let s := match t.micros.find? (·.bwdStarted) with
        | some m => if all m.bwdReady then announce n (slotMsg .backwardCommit m.desc.seq) s else s
        | none => s
      let s := if t.updating.isSome && all t.updReady then announce n (slotMsg .updateCommit 0) s else s
      let s := if t.normBusy && t.normWritten then announce n (slotMsg .normCommit 0) s else s
      let opening := fun (x : PendCmd) => x.wait == .slot .opened 0
      if all t.filled && s.eocia.pending.any opening then announce n (slotMsg .opened 0) (finish opening (fun _ => .ok) (fun _ => []) s) else s

/-- A forward slot commits on a slice. Older SEQs count no more toward the rule of R270. -/
def forwardCommits (seq : Word) (s : State) : State :=
  let s := updMicro seq (fun m => dropSpilled { m with fwdCommitted := true }) s
  let s := updTrain (fun t => { t with seqs := t.seqs.dropWhile (· != seq) }) s
  let s := trace 15 1 1 0 (seq.setWidth 64) (dropTokens s)
  finish (fun x => x.wait == .slot .forwardCommit seq) (fun _ => .ok) (fun _ => []) s

/-- A backward slot commits on a slice: its tiles and records are freed; a plan that it grew is GROWN (R292). -/
def backwardCommits (seq : Word) (s : State) : State :=
  let grown := ((s.training.bind fun t => planOf s t.part).map (·.pruned)).getD 0
  let s := { s with plans := s.plans.map fun p =>
    if p.growSeq = some seq then { p with st := .grown, grown := p.pruned, updated := false } else p }
  let s := trace 15 1 1 1 (seq.setWidth 64) (freeMicro seq s)
  let s := updTrain (fun t => { t with backwards := t.backwards + 1, normDone := false }) s
  let s := finish (fun x => x.wait == .slot .backwardCommit seq) (fun _ => .ok)
    (fun x => if x.op = .maskGrow then [(0, BitVec.ofNat 32 grown)] else []) s
  startWaiting s

/-- An update commits on a slice: the new image governs from the next TICK; retired strips are freed (R282, R300). -/
def updateCommits (s : State) : State :=
  match s.training with
  | none => s
  | some t =>
    let s := freeUses (fun u => u.part == t.part && u.use == .retired) s
    let s := { s with
      heads := updFirst (fun h => h.part == t.part) (fun h => { h with next := h.coming, coming := none, retired := [], newborn := [], rebuilding := [] }) s.heads
      plans := s.plans.map fun p => if p.part = t.part && p.st = .grown then { p with updated := true } else p }
    let s := updTrain (fun t => { t with updating := none, updates := t.updates + 1, backwards := 0, normDone := false, barriered := false
                                         updAcc := [], updState := [] }) s
    startWaiting (finish (fun x => x.wait == .slot .updateCommit 0) (fun _ => .ok) (fun _ => []) (trace 15 1 1 2 0 s))

/-- A norm commits on a slice. -/
def normCommits (s : State) : State :=
  finish (fun x => x.wait == .slot .normCommit 0) (fun _ => .ok) (fun _ => [])
    (updTrain (fun t => { t with normBusy := false, normDone := true, normSums := [] }) s)

/-- A forward that could not start leaves no trace on a slice, and counts toward no rule (R271). -/
def discardForward (seq : Word) (s : State) : State :=
  startWaiting (freeMicro seq (updTrain (fun t => { t with seqs := t.seqs.filter (· != seq) }) s))

/-! ## Meanings -/

/-- TRAIN_OPEN. -/
def execTrainOpen (c : Cmd) (s : State) : Host.Outcome State Fault Refusal := .next (takeUp .trainOpen openCmd c s)

/-- TRAIN_FORWARD. -/
def execTrainForward (c : Cmd) (s : State) : Host.Outcome State Fault Refusal := .next (takeUp .trainForward forwardCmd c s)

/-- TRAIN_BACKWARD. -/
def execTrainBackward (c : Cmd) (s : State) : Host.Outcome State Fault Refusal := .next (takeUp .trainBackward backwardCmd c s)

/-- TRAIN_NORM. -/
def execTrainNorm (c : Cmd) (s : State) : Host.Outcome State Fault Refusal := .next (takeUp .trainNorm normCmd c s)

/-- TRAIN_UPDATE. -/
def execTrainUpdate (c : Cmd) (s : State) : Host.Outcome State Fault Refusal := .next (takeUp .trainUpdate updateCmd c s)

/-- TRAIN_CLOSE. -/
def execTrainClose (c : Cmd) (s : State) : Host.Outcome State Fault Refusal := .next (takeUp .trainClose closeCmd c s)

/-- TR_SUM. -/
def execTrSum (src : Nat) (r : TrSum) (s : State) : Host.Outcome State Fault Refusal := .next (trSumArrives src r s)

/-- RS_BEGIN. -/
def execRsBegin (port : Nat) (r : RsBegin) (s : State) : Host.Outcome State Fault Refusal := .next (rsBeginArrives port r s)

/-- RS_FLIT. -/
def execRsFlit (port : Nat) (form : RsForm) (body : Bytes) (s : State) : Host.Outcome State Fault Refusal :=
  .next (rsFlitArrives port form body s)

/-- FORWARD_SLOT_DONE. -/
def execForwardSlotDone (s : State) : Host.Outcome State Fault Refusal := .next (forwardDone s)

/-- The update slot that runs is the one named: its partition, its session's number, its number U and the state bank it writes (R280). -/
def runsUpdate (part session update bank : Nat) (s : State) : Bool :=
  s.training.any fun t => t.part == part && t.sessionNo == session && t.updates == update && (t.updates + 1) % 2 == bank

/-- UPDATE_SLOT_DONE, for the slot that it names; none is running for another. -/
def execUpdateSlotDone (part session update bank : Nat) (s : State) : Host.Outcome State Fault Refusal :=
  .next (if runsUpdate part session update bank s then updateDone s else s)

end Sys2Proof.Machine
end

