-- ==== Sys2Proof/Machine/Mask.lean ====
section
/-! DEFINITION. Mask evolution: plan, large selections, regrowth, barrier, status (R138 to R144, R286 to R303). -/

namespace Sys2Proof.Machine

/-! ## The plan -/

/-- A partition's plan changed. -/
def updPlan (p : Nat) (f : Plan → Plan) (s : State) : State :=
  { s with plans := updFirst (fun x => x.part == p) f s.plans }

/-- Mask version of a partition's head on this slice (R286). -/
def maskVersionOf (s : State) (p : Nat) : Word := ((headOf s p).map (·.maskVersion)).getD 0

/-- A plan is held: one that no barrier has consumed (R288, R296). -/
def planHeld (s : State) (p : Nat) : Option Plan := (planOf s p).filter fun x => !x.committed

/-- A plan before its selection. -/
def Plan.fresh (p : Nat) (tile perSlice : Bool) (k : Nat) : Plan :=
  { part := p, st := .pruning, tile := tile, perSlice := perSlice, k := k, pruned := 0, grown := 0, pruneList := [], growList := [],
    growSeq := none, growDone := false, updated := false, barrierWait := false, initConst := false, initC := 0, built := none, builtBy := [],
    committed := false, writtenBy := [],
    select := some { k := k, top := false, grp := !perSlice, pass := 1, lo := 0, hi := 2 ^ 32 - 1, w := 23, need := k, count := 0,
                     taken := [], tieKey := none, tieCut := none, final := none } }

/-! ## Candidates (Table 14.2) -/

/-- The magnitude of a float. -/
def fAbs (x : F32) : F32 := x &&& 0x7FFFFFFF#32

/-- Key of a candidate in the direction of its selection (R119, R142). -/
def candKey (top : Bool) (x : F32) : Key := let k := skey (sanitise x); if top then k else ~~~ k

/-- Cells in ascending index, then ascending position. -/
def byPosition (l : List Cell) : List Cell :=
  sortBy (fun a b => a.index < b.index || (a.index == b.index && a.pos < b.pos)) l

/-- Hidden position of the first entry of segment g. -/
def segStart (h : StripHdr) (g : Nat) : Nat := 128 * (g / h.struct.segs) + 128 / h.struct.segs * (g % h.struct.segs)

/-- Prune candidates of a slice (Table 14.2). -/
def pruneCands (tile : Bool) (vocab : Nat) (strips : List Strip) : List Cand :=
  strips.flatMap fun x => match stripHdr x.image with
    | none => []
    | some h =>
      let cells := stripCells x
      if !tile then
        (cells.filter fun c => c.index < vocab).map fun c => { key := candKey false (fAbs (weightF h.fmt c)), index := c.index, pos := c.pos }
      else if x.first ≥ vocab then []
      else (baseSegs h x.image).1.map fun s =>
        let sum := (byPosition (cells.filter fun c => c.seg == s.g)).foldl (fun a c => fAdd a (fAbs (weightF h.fmt c))) 0
        { key := candKey false sum, index := x.first, pos := segStart h s.g }

/-- G of a micro-batch in hand at an index and position (R293). -/
def gradsOf (s : State) (t : Training) (h : Head) (m : Micro) : List TokenGrad :=
  (List.range m.desc.tokens).map (tokenGrad s t h m)

/-- Grow candidates of TILE mode: segments absent from a strip's bitmap (Table 14.2, R294). -/
def growCands (epoch vocab : Nat) (gs : List TokenGrad) (strips : List Strip) : List Cand :=
  strips.flatMap fun x => match stripHdr x.image with
    | none => []
    | some h =>
      if x.first ≥ vocab then []
      else ((List.range h.segCount).filter fun g => !(segStored x.image g)).map fun g =>
        let w := 128 / h.struct.segs
        let sum := (List.range 16).foldl (fun a i => (List.range w).foldl (fun a j =>
          fAdd a (fAbs (gradAt epoch gs (x.first + i) (segStart h g + j)))) a) (0 : F32)
        { key := candKey true sum, index := x.first, pos := segStart h g }

/-- Grow entries of SWAP mode: in each group that lost r entries, the r free positions of highest key, ties to the lower (R293). -/
def swapGrow (epoch : Nat) (gs : List TokenGrad) (strips : List Strip) (pruned : List Cand) : List Cand :=
  strips.flatMap fun x => match stripHdr x.image with
    | none => []
    | some h =>
      let m := h.struct.m
      let cells := stripCells x
      let lost := pruned.filter fun c => x.first ≤ c.index && c.index < x.first + 16
      let groups := (sortBy candAsc lost).map fun c => (c.index, c.pos / m)
      groups.eraseDups.flatMap fun g =>
        let r := (lost.filter fun c => c.index == g.1 && c.pos / m == g.2).length
        let free := ((List.range m).map (m * g.2 + ·)).filter fun p => !(cells.any fun c => c.index == g.1 && c.pos == p)
        (sortBy candRanks (free.map fun p => { key := candKey true (fAbs (gradAt epoch gs g.1 p)), index := g.1, pos := p })).take r

/-! ## Passes of a large selection (R138 to R142) -/

/-- Bucket of a key in the layout of a pass: the row layout at first, then a subdivision of one bucket (R139). -/
def selBucket (x : Select) (key : Nat) : Nat :=
  if x.pass = 1 then bucket key (selKref x.top) 23 else min 255 ((x.hi - key) / 2 ^ (x.w - 8))

/-- Lowest and highest key of bucket j of the layout. -/
def selRange (x : Select) (j : Nat) : Nat × Nat :=
  if x.pass = 1 then
    let kref := selKref x.top
    (lowEdge kref 23 j, if j = 0 then 2 ^ 32 - 1 else highEdge kref 23 j)
  else (max x.lo (x.hi + 1 - (j + 1) * 2 ^ (x.w - 8)), x.hi - j * 2 ^ (x.w - 8))

/-- Candidates of a unit. -/
def inUnit (lo hi : Nat) (l : List Cand) : List Cand := l.filter fun c => lo ≤ c.key.toNat && c.key.toNat ≤ hi

/-- The outcome of a pass: the selection goes on, or it is over with this slice's entries and the count of the whole. -/
structure PassEnd where
  next : Option Select
  taken : List Cand
  count : Nat
  deriving DecidableEq, Repr

/-- One pass of large_select over a slice's candidates with what the other slices counted: ties are counted in one pass and compacted in the
next (R140, R141). -/
def selectPass (x : Select) (cands : List Cand) (o : SelMerge) : PassEnd :=
  let over_ := fun (l : List Cand) => { next := none, taken := sortBy candAsc l, count := x.count : PassEnd }
  match x.final, x.tieKey with
  | some r, _ => over_ (x.taken ++ inUnit r.1 r.2 cands)
  | none, some k =>
    let mine := cands.filter fun c => c.key == k
    match x.tieCut with
    | none =>
      let ties := tiesAdd (tiesOf mine) (if x.grp then o.ties else [])
      { next := some { x with pass := x.pass + 1, tieCut := some (tieBoundary x.need 0 ties) }, taken := [], count := 0 }
    | some b => over_ (x.taken ++ (mine.filter fun c => c.index / 256 < b.1)
      ++ ((sortBy candAsc (mine.filter fun c => c.index / 256 == b.1)).take b.2))
  | none, none =>
    let unit := inUnit x.lo x.hi cands
    let h := selAdd (selHist (selBucket x) unit) (if x.grp then o.hist else [])
    let n := total (h.map (·.1))
    if n ≤ x.need then
      { next := some { x with pass := x.pass + 1, final := some (x.lo, x.hi), count := x.count + n }, taken := [], count := 0 }
    else
      let j := firstReaching x.need 0 (h.map (·.1)) 0
      let above := total ((h.take j).map (·.1))
      let b := h.getD j (0, 0, 0)
      let r := selRange x j
      let y := { x with pass := x.pass + 1, need := x.need - above, count := x.count + above,
                        taken := x.taken ++ unit.filter (fun (c : Cand) => selBucket x c.key.toNat < j) }
      if b.1 = y.need then { next := some { y with final := some r, count := y.count + b.1 }, taken := [], count := 0 }
      else if b.2.1 = b.2.2 then { next := some { y with tieKey := some b.2.1, count := y.count + y.need }, taken := [], count := 0 }
      else { next := some { y with lo := r.1, hi := r.2, w := if x.pass = 1 then 23 else x.w - 8 }, taken := [], count := 0 }

/-- The selection of a plan ends: its list, and the plan's next state (R290, R294). -/
def selectEnds (p : Nat) (r : PassEnd) (s : State) : State :=
  match planOf s p with
  | none => s
  | some x =>
    if x.st = .pruning then
      let s := freeUses (fun u => u.part == p && u.use == .selection) s
      let s := updPlan p (fun x => { x with st := .pruned, pruned := r.count, pruneList := r.taken, select := none }) s
      finish (fun y => y.op == .maskPrune && y.cmd.part == p && y.wait == .selection) (fun _ => .ok)
        (fun _ => [(0, BitVec.ofNat 32 r.count)]) s
    else
      updPlan p (fun x => { x with growList := r.taken, growDone := true, select := none }) (freeUses (fun u => u.part == p && u.use == .selection) s)

/-- LARGE_SELECT_PASS: one pass over the slice's candidates, with what the others counted (R140 to R142). In SLICE scope the last pass
adds the others' counts, which `others.unitCount` brings (DESIGN CHOICE 44). -/
def passArrives (p : Nat) (others_ : SelMerge) (s : State) : State :=
  match planOf s p, headOf s p, s.training with
  | some x, some h, some t =>
    (match x.select with
     | none => s
     | some sel =>
       let m := x.growSeq.bind fun q => microOf s q
       let cands := if !sel.top then pruneCands x.tile (vocab s) h.strips
         else match m with
           | some m => growCands t.epoch (vocab s) (gradsOf s t h m) h.strips
           | none => []
       if sel.top && !(m.any rowsAtHand) then s
       else
         let r := selectPass sel cands others_
         match r.next with
         | some y => updPlan p (fun x => { x with select := some y }) s
         | none => selectEnds p (if sel.grp then r else { r with count := r.taken.length + others_.unitCount }) s)
  | _, _, _ => s

/-- A spill entry's 16 bytes (Table 6.4). -/
def spillEntry (c : SpillEntry) : Bytes := leBytes 4 c.key.toNat ++ leBytes 4 (c.index % 2 ^ 22) ++ leBytes 4 (c.pos % 2 ^ 15) ++ leBytes 4 0

/-- A spill list as its blocks hold it (R142). -/
def spillList (l : List SpillEntry) : Bytes := l.flatMap spillEntry

/-! ## MASK_PRUNE (R288 to R291) -/

/-- The expected version differs from the partition's (R288). -/
def staleVersion (s : State) (c : Cmd) : Bool := c.args.getD 0 0 != maskVersionOf s c.part

/-- The head is dense: SWAP has no free positions (R289). -/
def headDense (s : State) (p : Nat) : Bool := (headIdOf s p).any fun h => h.struct = 0

/-- MASK_PRUNE. -/
def pruneCmd (c : Cmd) (s : State) : State :=
  let k := arg c 2
  let tile := bitOf (arg c 1) 0
  let room := match allocBlocks c.part .selection (2 * spillBlocks k) s with
    | .ok _ => []
    | .error e => [(true, e.status)]
  let held := heldItem s fun i => match i with | .maskPrune .. => true | _ => false
  judge .maskPrune c
    (needSession s c ++
      ([(staleVersion s c, .maskVersion), (arg c 1 / 4 ≠ 0 || arg c 3 ≠ 0 || k < 1 || k > 1048576, .badArg),
        (!tile && headDense s c.part, .badArg),
        ((planHeld s c.part).isSome || held || (s.training.any (·.barriered)), .busy)] : List (Bool × Status)) ++ room)
    (fun s => await .maskPrune c (stepNow s) .selection (announce (stepNow s) (.maskPrune tile (bitOf (arg c 1) 1) k) s)) s

/-- A selection that a slice cannot hold ends on the holder: the command completes, and the plan goes on every slice (R142, R291). -/
def pruneFails (p : Nat) (st : Status) (s : State) : State :=
  let mine := fun (y : PendCmd) => y.op == .maskPrune && y.cmd.part == p && y.wait == .selection
  if s.eocia.pending.any mine then announce (stepNow s) (slotMsg .prune 0) (finish mine (fun _ => st) (fun _ => []) s) else s

/-- A refused selection's plan leaves a slice. -/
def dropPrune (s : State) : State :=
  match s.training with
  | none => s
  | some t =>
    let s := freeUses (fun u => u.part == t.part && (u.use == .selection || u.use == .plan)) s
    { s with plans := s.plans.filter fun p => p.part != t.part || p.st != .pruning }

/-- A plan begins on a slice in PUBLISH of its step, with the blocks of its list and of the sort; a refusal is told to the holder (R290,
R142, R291). -/
def applyPrune (tile perSlice : Bool) (k : Nat) (s : State) : State :=
  match s.training with
  | none => s
  | some t =>
    let begun := fun (x : Plan) (s : State) => { s with plans := (s.plans.filter fun p => p.part != t.part) ++ [x] }
    let x := Plan.fresh t.part tile perSlice k
    match (allocBlocks t.part .plan (spillBlocks k) s).bind (allocBlocks t.part .selection (spillBlocks k)) with
    | .ok u => begun x u
    | .error e =>
      let st := if e = .full then Status.busy else .badArg
      tellHolder (if e = .full then .pruneBusy else .pruneBad) 0 (fun _ => pruneFails t.part st) (begun { x with select := none } s)

/-! ## MASK_GROW (R292) -/

/-- MASK_GROW. -/
def growCmd (c : Cmd) (s : State) : State :=
  let seq := c.args.getD 1 0
  let m := microOf s seq
  let plan := planHeld s c.part
  judge .maskGrow c
    (needSession s c ++
      [(staleVersion s c || (m.any fun m => m.mask != maskVersionOf s c.part), .maskVersion),
       (m.isNone || (m.any (·.bwdStarted)) || bwdHeld s seq, .badArg),
       (!(plan.any fun p => p.st == .pruned && p.growSeq.isNone), .busy)])
    (fun s => await .maskGrow c (stepNow s) (.slot .backwardCommit seq) (updPlan c.part (fun p => { p with growSeq := some seq }) s)) s

/-- Regrowth in SWAP mode, inside the named backward slot (R293). -/
def growSwap (s : State) : State :=
  match s.training, backwardMicro s with
  | some t, some m =>
    (match headOf s t.part, planOf s t.part with
     | some h, some p =>
       if p.tile then s
       else updPlan t.part (fun p => { p with growList := swapGrow t.epoch (gradsOf s t h m) h.strips p.pruneList, growDone := true }) s
     | _, _ => s)
  | _, _ => s

/-! ## MASK_BARRIER (R295 to R298) -/

/-- Element of a grown entry under a scale (R295). -/
def grownCode (f : Fmt) (const : Bool) (c : F32) (scale : Nat) : Nat := if const then elemOf f scale c else 0

/-- A lane with its pruned entries gone and its grown ones in place, in ascending position (R74, R296). -/
def swapLane (h : StripHdr) (const : Bool) (c : F32) (v : Nat) (prune grow : List Cand) (l : List Entry) : List Entry :=
  let scale := (l.head?.map (·.scale)).getD 0
  let kept := l.filter fun e => !(prune.any fun x => x.index == v && x.pos == e.pos)
  let lo := l.map fun e => e.pos / h.struct.m
  let new := (grow.filter fun x => x.index == v && lo.contains (x.pos / h.struct.m)).map fun x =>
    { pos := x.pos, code := grownCode h.fmt const c scale, scale := scale : Entry }
  sortBy (fun a b => a.pos < b.pos) (kept ++ new)

/-- A grown segment of TILE mode: the lowest N positions of each group, under its pair partner's scales or new ones (R294, R295). -/
def grownSeg (h : StripHdr) (const : Bool) (c : F32) (kept : List SegOut) (g : Nat) : SegOut :=
  let partner := kept.find? fun s => s.g / 2 == g / 2
  { g := g, lanes := (List.range 16).map fun i =>
      let scale := if !h.fmt.isMx then 0 else match partner with
        | some s => (((s.lanes.getD i []).head?).map (·.scale)).getD 0
        | none => if const then groupScale h.fmt [c] else 0
      (List.range 16).map fun e =>
        { pos := segStart h g + h.struct.m * (e / h.struct.n) + e % h.struct.n, code := grownCode h.fmt const c scale, scale := scale } }

/-- A strip's new image under a plan; the old one where the plan does not touch it. -/
def rebuilt (p : Plan) (x : Strip) : Strip :=
  match stripHdr x.image with
  | none => x
  | some h =>
    let mine := fun (l : List Cand) => l.filter fun c => x.first ≤ c.index && c.index < x.first + 16
    let prune := mine p.pruneList
    let grow := mine p.growList
    if prune.isEmpty && grow.isEmpty then x
    else
      let segs := segsOut h x.image
      let out := if !p.tile then
          segs.map fun s => { s with lanes := s.lanes.zipIdx.map fun l => swapLane h p.initConst p.initC (x.first + l.2) prune grow l.1 }
        else
          let kept := segs.filter fun s => !(prune.any fun c => c.pos == segStart h s.g)
          let new := ((List.range h.segCount).filter fun g => grow.any fun c => c.pos == segStart h g).map
            (grownSeg h p.initConst p.initC kept)
          sortBy (fun a b => a.g < b.g) (kept ++ new)
      { x with image := buildImage h x.image out }

/-- The strips that a plan changes. -/
def changedStrips (old new : List Strip) : List Strip := new.filter fun x => !(old.contains x)

/-- A slice's builds fail or are done: what it tells the holder (R296, R297). -/
def buildBlocks (p : Nat) (h : Head) (new : List Strip) (s : State) : Except AllocFail State :=
  let bytes := total ((changedStrips h.strips new).map (·.image.length))
  let share := total (new.map (·.image.length))
  let extend := if h.area < 64 && share > h.area * 65536 then 64 - h.area else 0
  match allocBlocks p .build (ceilDiv bytes 65536) s with
  | .error e => .error e
  | .ok s => allocBlocks p .headMore extend s

/-- A barrier that cannot be built ends on the holder: the command completes, the plan returns to GROWN everywhere (R296). -/
def buildFails (p : Nat) (st : Status) (s : State) : State :=
  let mine := fun (x : PendCmd) => x.op == .maskBarrier && x.cmd.part == p
  if s.eocia.pending.any mine then announce (stepNow s) (slotMsg .barrierDrop 0) (finish mine (fun _ => st) (fun _ => []) s) else s

/-- The holder learns that a member has built its images. -/
def buildReady (src : Nat) (s : State) : State :=
  updPlan ((s.training.map (·.part)).getD 0) (fun p => { p with builtBy := addOnce p.builtBy src }) s

/-- A barrier begins on a slice in PUBLISH of its step: the new images are built (R296). -/
def applyBarrier (const : Bool) (c : F32) (s : State) : State :=
  match s.training with
  | none => s
  | some t =>
    let s := updPlan t.part (fun p => { p with barrierWait := true, initConst := const, initC := c }) s
    match planOf s t.part, headOf s t.part with
    | some p, some h =>
      let new := h.strips.map (rebuilt p)
      (match buildBlocks t.part h new s with
       | .error .full => tellHolder .buildBusy 0 (fun _ => buildFails t.part .busy) s
       | .error _ => tellHolder .buildBad 0 (fun _ => buildFails t.part .badArg) s
       | .ok s => tellHolder .build 0 buildReady (updPlan t.part (fun p => { p with built := some new }) s))
    | _, _ => tellHolder .build 0 buildReady s

/-- MASK_BARRIER. -/
def barrierCmd (c : Cmd) (s : State) : State :=
  let v := c.args.getD 2 0
  judge .maskBarrier c
    (needSession s c ++
      [(staleVersion s c, .maskVersion), (arg c 1 / 2 ≠ 0 || !(isFinite v), .badArg),
       (!((planHeld s c.part).any fun p => p.st == .grown && p.updated && !p.barrierWait) || updateRuns s, .busy)])
    (fun s => announce (stepNow s) (.maskBarrier (bitOf (arg c 1) 0) v)
      (await .maskBarrier c (stepNow s) .barrier (updPlan c.part (fun p => { p with barrierWait := true }) s))) s

/-- A built barrier commits at the first stamp of the holder at which every member has built and no slot runs (R296). -/
def barrierStamp (n : Nat) (s : State) : State :=
  match s.training with
  | none => s
  | some t =>
    let idle := t.micros.all fun m => m.fwdCommitted && !m.bwdStarted
    let quiet := !(heldItem s fun i => match i with | .trainForward _ => true | .trainBackward .. => true | _ => false)
    match planOf s t.part with
    | some p =>
      if p.barrierWait && !p.committed && idle && quiet && sessionHolder s = me s && (members s).all fun x => p.builtBy.contains x then
        announce n (slotMsg .barrierCommit 0) s
      else s
    | none => s

/-- Grown entries with their positions, from a plan's list (R294, R300). -/
def newbornOf (p : Plan) (strips : List Strip) : List SpillEntry :=
  if !p.tile then p.growList
  else (cellsOf strips).filterMap fun c =>
    if p.growList.any fun g => g.index = c.index / 16 * 16 && (match (strips.find? fun x => x.first == g.index).bind fun x => stripHdr x.image with
        | some h => g.pos = segStart h c.seg
        | none => false)
    then some { key := 0, index := c.index, pos := c.pos } else none

/-- The holder learns that a member's host image is written; with all of them the command completes (R296). -/
def imageWritten (src : Nat) (s : State) : State :=
  let p := (s.training.map (·.part)).getD 0
  let s := updPlan p (fun x => { x with writtenBy := addOnce x.writtenBy src }) s
  match planOf s p with
  | some x =>
    if x.committed && (members s).all fun n => x.writtenBy.contains n then
      finish (fun y => y.op == .maskBarrier && y.cmd.part == p) (fun _ => .ok) (fun _ => [])
        { s with plans := s.plans.filter fun y => y.part != p }
    else s
  | none => s

/-- This slice's writes of changed strips are acknowledged: its plan is freed, and the holder is told. -/
def hostImageDone (s : State) : State :=
  let p := (s.training.map (·.part)).getD 0
  let s := tellHolder .hostImage 0 imageWritten s
  if sessionHolder s = me s then s else { s with plans := s.plans.filter fun y => !(y.part == p && y.committed) }

/-- This slice's head has another length: every member learns it, for a takeover (R421). -/
def headTold (p : Nat) (id : HeadId) (s : State) : State :=
  let put := fun (a : Nat × Nat × HeadId) => if a.1 = me s && a.2.1 = p then (a.1, a.2.1, id) else a
  announceOut (stepNow s) (.head p id) { s with announced := s.announced.map put }

/-- A barrier commits on a slice (R286, R296 to R298): version, images, retired strips, the extended head area, host image. -/
def barrierCommits (s : State) : State :=
  match s.training with
  | none => s
  | some t =>
    match planOf s t.part, headOf s t.part with
    | some p, some h =>
      let new := p.built.getD h.strips
      let changed := changedStrips h.strips new
      let size := fun (l : List Strip) => total ((ownStrips h 0 l).map (·.image.length))
      let moved := if size new = size h.strips then changed
        else match ((ownStrips h 0 changed).head?).map (·.first) with
          | some f => changed ++ (ownStrips h 0 new).filter fun x => x.first ≥ f && !(changed.contains x)
          | none => changed
      let more := s.pot.uses.any fun u => u.part == t.part && u.use == .headMore
      let id := { h.id with len := size new }
      let upd := fun (x : Head) =>
        { x with maskVersion := x.maskVersion + 1, next := some new, lastPruned := p.pruned, lastGrown := p.grown,
                 newborn := newbornOf p new, retired := x.strips.filter (fun o => changed.any fun n => n.first == o.first),
                 id := id, area := if more then 64 else x.area }
      let s := { s with heads := updFirst (fun x => x.part == t.part) upd s.heads }
      let keep := fun (u : BlockUse) => if u.part ≠ t.part then u else if u.use = .build then { u with use := .retired }
        else if u.use = .headMore then { u with use := .head } else u
      let s := { s with pot := { s.pot with uses := s.pot.uses.map keep } }
      let s := freeUses (fun u => u.part == t.part && (u.use == .plan || u.use == .grow)) s
      let s := if id = h.id then s else headTold t.part id s
      let s := updPlan t.part (fun p => { p with committed := true, barrierWait := false, built := none }) s
      let s := updTrain (fun t => { t with barriered := true }) s
      let s := if moved.isEmpty then hostImageDone s
        else slotWrites t.part (imageWrites h new moved) .hostImage 0 s
      startWaiting s
    | _, _ => s

/-- A barrier is dropped on a slice: its build blocks are freed and the plan is GROWN again (R296, Table 14.4). -/
def barrierDrops (s : State) : State :=
  match s.training with
  | none => s
  | some t =>
    startWaiting (updPlan t.part (fun p => { p with barrierWait := false, built := none, builtBy := [] })
      (freeUses (fun u => u.part == t.part && (u.use == .build || u.use == .headMore)) s))

/-! ## MASK_DISCARD and MASK_STATUS (R288, R301) -/

/-- MASK_DISCARD. -/
def discardCmd (c : Cmd) (s : State) : State :=
  judge .maskDiscard c (needSession s c)
    (fun s => await .maskDiscard c (stepNow s) (.stamp (stepNow s)) (announce (stepNow s) .maskDiscard s)) s

/-- A plan is discarded on a slice: a selection or a growth stops and its command completes with OK, while the backward slot goes on; a waiting
barrier completes with BUSY (DESIGN CHOICE 45). -/
def applyDiscard (s : State) : State :=
  match s.training with
  | none => s
  | some t =>
    match planHeld s t.part with
    | none => s
    | some _ =>
      let s := freeUses (fun u => u.part == t.part && [Use.selection, .plan, .grow, .build, .headMore].contains u.use) s
      let s := updTrain (fun t => { t with micros := t.micros.map fun m => { m with growing := false } }) s
      let s := finish (fun x => x.op == .maskGrow && x.cmd.part == t.part) (fun _ => .ok) (fun _ => []) s
      let s := finish (fun x => x.op == .maskPrune && x.cmd.part == t.part && x.wait == .selection) (fun _ => .ok) (fun _ => []) s
      let s := finish (fun x => x.op == .maskBarrier && x.cmd.part == t.part) (fun _ => .busy) (fun _ => []) s
      startWaiting { s with plans := s.plans.filter fun p => p.part != t.part }

/-- PLAN of Table 14.3. -/
def planCode : PlanSt → Nat
  | .none => 0 | .pruning => 1 | .pruned => 2 | .grown => 3

/-- Words of MASK_STATUS (Table 14.3). -/
def statusWords (s : State) (p : Nat) : List Word :=
  let w := fun n => BitVec.ofNat 32 n
  let plan := planHeld s p
  let h := headOf s p
  [maskVersionOf s p,
   w (((plan.map fun x => planCode x.st).getD 0) + 4 * b01 (plan.any (·.tile)) + 8 * b01 (plan.any (·.perSlice))
      + 16 * b01 (h.any fun h => !h.retired.isEmpty) + 32 * b01 (plan.any (·.barrierWait))),
   w (match plan with | some x => x.pruned | none => (h.map (·.lastPruned)).getD 0),
   w (match plan with | some x => x.grown | none => (h.map (·.lastGrown)).getD 0)]

/-- MASK_STATUS. -/
def maskStatusCmd (c : Cmd) (s : State) : State :=
  judge .maskStatus c (needSession s c)
    (fun s => complete .maskStatus c .ok (numbered (statusWords s c.part)) s) s

/-! ## What members tell the holder, and what it commits (R69, R296) -/

/-- A norm that cannot be read ends everywhere, and its command completes with BUSY on the holder (Table 17.5). -/
def normFails (s : State) : State :=
  let s := if sessionHolder s = me s then
      announceOut (stepNow s) (slotMsg .normBusy 0) (finish (fun p => p.wait == .slot .normCommit 0) (fun _ => .busy) (fun _ => []) s)
    else s
  updTrain (fun t => { t with normBusy := false, normOwn := none, normSums := [] }) s

/-- A member's word of its training or mask work reaches the session holder. -/
def slotTold (src : Nat) (k : SlotKind) (seq : Word) (s : State) : State :=
  match k with
  | .fill => fillDone src s
  | .forwardBad => forwardFails seq .badArg s
  | .forwardBusy => forwardFails seq .busy s
  | .backward => backwardReady seq src s
  | .normBusy => normFails s
  | .update => updateReady src s
  | .build => buildReady src s
  | .buildBusy => buildFails ((s.training.map (·.part)).getD 0) .busy s
  | .buildBad => buildFails ((s.training.map (·.part)).getD 0) .badArg s
  | .hostImage => imageWritten src s
  | .pruneBusy => pruneFails ((s.training.map (·.part)).getD 0) .busy s
  | .pruneBad => pruneFails ((s.training.map (·.part)).getD 0) .badArg s
  | .growBusy => growFails seq .busy s
  | .growBad => growFails seq .badArg s
  | .backwardBusy => backwardFails seq s
  | .updateBusy => updateFails s
  | .growDrop | .backwardDrop | .updateDrop
  | .opened | .discard | .forwardCommit | .backwardCommit | .normCommit | .updateCommit | .prune | .barrierCommit | .barrierDrop => s

/-- Kinds that the holder announces for a step; the others are told to it. -/
def SlotKind.isCommit : SlotKind → Bool
  | .opened | .discard | .forwardCommit | .backwardCommit | .backwardDrop | .normCommit | .updateCommit | .updateDrop | .prune | .growDrop
  | .barrierCommit | .barrierDrop => true
  | _ => false

/-- What the holder announced of a step, applied in PUBLISH. -/
def slotCommits (k : SlotKind) (seq : Word) (s : State) : State :=
  match k with
  | .discard => discardForward seq s
  | .forwardCommit => forwardCommits seq s
  | .backwardCommit => backwardCommits seq s
  | .normCommit => normCommits s
  | .updateCommit => updateCommits s
  | .barrierCommit => barrierCommits s
  | .barrierDrop => barrierDrops s
  | .opened => sessionOpens s
  | .prune => dropPrune s
  | .growDrop => dropGrowth seq s
  | .backwardDrop => dropBackward seq s
  | .updateDrop => dropUpdate s
  | _ => s

/-- The last write of a slot kind is acknowledged on this slice (R268, R275, R278, R279, R282, R296). -/
def slotWritten (k : SlotKind) (seq : Word) (s : State) : State :=
  match k with
  | .fill => tellHolder .fill 0 fillDone s
  | .forwardCommit => updMicro seq (fun m => { m with headerDone := true }) s
  | .normCommit => updTrain (fun t => { t with normWritten := true }) s
  | .backward => tellHolder .backward seq (backwardReady seq) s
  | .update => tellHolder .update 0 updateReady s
  | .hostImage => hostImageDone s
  | _ => s

/-! ## Meanings -/

/-- MASK_PRUNE. -/
def execMaskPrune (c : Cmd) (s : State) : Host.Outcome State Fault Refusal := .next (takeUp .maskPrune pruneCmd c s)

/-- MASK_GROW. -/
def execMaskGrow (c : Cmd) (s : State) : Host.Outcome State Fault Refusal := .next (takeUp .maskGrow growCmd c s)

/-- MASK_BARRIER. -/
def execMaskBarrier (c : Cmd) (s : State) : Host.Outcome State Fault Refusal := .next (takeUp .maskBarrier barrierCmd c s)

/-- MASK_DISCARD. -/
def execMaskDiscard (c : Cmd) (s : State) : Host.Outcome State Fault Refusal := .next (takeUp .maskDiscard discardCmd c s)

/-- MASK_STATUS. -/
def execMaskStatus (c : Cmd) (s : State) : Host.Outcome State Fault Refusal := .next (takeUp .maskStatus maskStatusCmd c s)

/-- LARGE_SELECT_PASS. -/
def execLargeSelectPass (p : Nat) (others_ : SelMerge) (s : State) : Host.Outcome State Fault Refusal := .next (passArrives p others_ s)

/-- BACKWARD_SLOT_DONE, for the slot of the micro-batch that it names; none is running for another. -/
def execBackwardSlotDone (seq : Word) (s : State) : Host.Outcome State Fault Refusal :=
  .next (if (backwardMicro s).any fun m => m.desc.seq == seq then backwardDone growSwap s else s)

end Sys2Proof.Machine
end

