-- ==== Sys2Proof/Machine/Pans.lean ====
section
/-! DEFINITION. Pans and the placement of strips: passes and their admission to the Sieves, fences, heat, ramekin copies, streaming
(R79 to R82, R88 to R92, R411, R412, R436, R437; Tables 4.6 and 4.7). -/

namespace Sys2Proof.Machine

/-! ## Pans -/

/-- A pan is powered (R436). -/
def panOn (s : State) (n : Nat) : Bool := n < s.kit.pans && s.power.on.getLsbD n

/-- A pan takes passes: powered and not fenced (R92). -/
def panReady (s : State) (n : Nat) : Bool := panOn s n && !(s.power.fenced.contains n)

/-- Pans of the slice that are not fenced, in ascending number. -/
def unfenced (s : State) : List Nat := (List.range s.kit.pans).filter fun n => !(s.power.fenced.contains n)

/-- Copies of a pan dropped (R91, R92); their lines hold the partition's bytes until they are zeroed or written (R90). -/
def dropCopies (f : StripId → Nat → Bool) (s : State) : State :=
  let gone := (s.place.copies ++ s.place.inFlight).filter fun c => f c.1 c.2
  { s with place := { s.place with copies := s.place.copies.filter fun c => !(f c.1 c.2),
                                   inFlight := s.place.inFlight.filter fun c => !(f c.1 c.2)
                                   dirty := gone.foldl (fun l c => addOnce l (c.2, c.1.part)) s.place.dirty } }

/-- A pan fenced (R411, R412): its copies are dropped, PAN_FENCED is raised, and the slice falls silent with its last pan. -/
def fencePan (n : Nat) (s : State) : State :=
  if s.power.fenced.contains n || n ≥ s.kit.pans then s
  else
    let s := dropCopies (fun _ p => p == n) { s with power := { s.power with fenced := s.power.fenced ++ [n] } }
    let s := alarm 0x0E (BitVec.ofNat 64 (2 ^ n)) s
    if (unfenced s).isEmpty then { s with group := { s.group with silent := true } } else s

/-! ## Passes (R79, R80) -/

/-- A request's rows may be scored: not those of a THROTTLED request without an allowance (R250). -/
def mayPass (s : State) (q : Nat) : Bool := (reqOf s q).all fun e => !(e.state == .throttled && e.allowance == 0)

/-- A serving row that a pass may hold: a head-mode row of the open step that is not sieved, or is being re-scored (R133, R250). -/
def passRow (s : State) (k : RowKey) : Option RowRec :=
  (rowOf s k).filter fun r => r.kind == 0 && (!r.sieved || r.rescore != 0) && mayPass s r.id

/-- Partition and variant of a row key that a pass names: a held row's, or the session's with variant 0 (R87). -/
def passTag (s : State) (k : RowKey) : Option (Nat × Nat) :=
  if k.train then s.training.map fun t => (t.part, 0) else (passRow s k).map fun r => (r.part, r.variant)

/-- Stored segments per block of each strip of a pass, with the overlay of its variant (R80, R86). -/
def passSegs (h : Head) (variant : Nat) (strips : List Nat) (b : Nat) : List Nat :=
  let segs := fun (l : List Strip) (f : Nat) =>
    match l.find? fun x => x.first == f with
    | some x => (stripHdr x.image).elim 0 fun y => blockSegs y x.image b
    | none => 0
  strips.map fun f => segs h.strips f + segs (overlayOf h variant) f

/-- pass_cycles of a pass for each row of its tile (R80). -/
def passCycles (h : Head) (variant : Nat) (strips : List Nat) : Nat :=
  let c := ((Fmt.ofCode h.id.format).map (·.capacity)).getD 1
  passCyclesFrom (passSegs h variant strips) strips.length h.id.blocks c (h.id.blocks + 1) 0

/-- The pass observes the limits of R79 on this slice. -/
def passOk (s : State) (p : PassInfo) (tag : Nat × Nat) (h : Head) : Bool :=
  panReady s p.pan && !(s.dbg.halted.getLsbD 1) && p.strips.length ≤ 7 && p.rows.length ≤ 128
    && p.rows.all (fun k => passTag s k == some tag)
    && p.strips.all fun f => h.strips.any (fun x => x.first == f) && stripReady s ⟨tag.1, 0, f⟩
      && (!((overlayOf h tag.2).any fun x => x.first == f) || stripReady s ⟨tag.1, tag.2, f⟩)

/-- Heat of a strip in the open step grows by the rows of a pass that read it (R90). -/
def heatUp (i : StripId) (n : Nat) (s : State) : State :=
  let h := s.place.heat
  let h := if h.any fun e => e.1 == i then h.map fun e => if e.1 = i then (e.1, (e.2.headD 0 + n) :: e.2.drop 1) else e
           else h ++ [(i, [n])]
  { s with place := { s.place with heat := h } }

/-- PASS_DONE (R80, R411): the pass's scores count only without a mismatch; a mismatch fences the pan and the pass is reissued. -/
def passDone (p : PassInfo) (s : State) : State :=
  match p.rows.head?.bind (passTag s) with
  | none => s
  | some tag =>
    match headOf s tag.1 with
    | none => s
    | some h =>
      if !(passOk s p tag h) then s
      else
        let cycles := passCycles h tag.2 p.strips * p.rows.length
        let s := perf (8 * p.pan) cycles s
        let s := { s with power := { s.power with idle := s.power.idle.set p.pan 0 } }
        if p.mismatch then fencePan p.pan s
        else
          let s := p.strips.foldl (fun s f =>
            let s := heatUp ⟨tag.1, 0, f⟩ p.rows.length s
            if (overlayOf h tag.2).any (fun x => x.first == f) then heatUp ⟨tag.1, tag.2, f⟩ p.rows.length s else s) s
          let s := trace 14 0 0 (BitVec.ofNat 32 p.pan) (BitVec.ofNat 64 cycles) s
          let train := p.rows.any (·.train)
          let mark := fun (r : RowRec) => if p.rows.contains (rowKeyOf r) && r.kind = 0 && r.useStep = s.step.step then
              { r with passed := p.strips.foldl addOnce r.passed } else r
          streamGo tag.1 { s with
            rows := s.rows.map mark
            place := if train then { s.place with trained := (p.strips.map fun f => (⟨tag.1, 0, f⟩ : StripId)).foldl addOnce s.place.trained } else s.place }

/-! ## The placement loop (R90; the choice of pan is a DESIGN CHOICE, log entry 46) -/

/-- Bytes of a ramekin tile area (Table 4.8). -/
def tileArea : Nat := 212992

/-- Bytes that a pan's ramekin holds or is to hold. -/
def panUsed (s : State) (n : Nat) : Nat :=
  total (((s.place.copies ++ s.place.inFlight).filter fun c => c.2 == n).map fun c => stripSize s c.1)

/-- Copies of a strip, those in flight included. -/
def copyCount (s : State) (i : StripId) : Nat := ((s.place.copies ++ s.place.inFlight).filter fun c => c.1 == i).length

/-- A pan that can take a copy of a strip: the lowest powered one with room that holds none. -/
def panFor (s : State) (i : StripId) : Option Nat :=
  (List.range s.kit.pans).find? fun n =>
    panReady s n && panUsed s n + stripSize s i ≤ tileArea && !((s.place.copies ++ s.place.inFlight).any fun c => c.1 == i && c.2 == n)

/-- The coldest copied strip that is colder than a strip, by the ranking, among those with n copies or more. -/
def colderCopy (n : Nat) (s : State) (i : StripId) : Option (StripId × Nat) :=
  s.place.copies.foldl (fun m c =>
    if copyCount s c.1 ≥ n && hotter s i c.1 && heatOf s c.1 < heatOf s i then
      match m with
      | none => some c
      | some x => if hotter s x.1 c.1 then some c else m
    else m) none

/-- A copy of a strip starts into a pan; free lines that hold another partition's bytes are zeroed first (R90). -/
def startCopy (i : StripId) (n : Nat) (s : State) : State :=
  { s with place := { s.place with inFlight := s.place.inFlight ++ [(i, n)]
                                   dirty := s.place.dirty.filter fun x => x.1 != n || x.2 == i.part } }

/-- One copy planned, the n-th of its strip: into room, or in place of the coldest colder copy; a second copy never displaces an only one
(R90). Answers the bytes moved. -/
def planCopy (k : Nat) (i : StripId) (s : State) : State × Nat :=
  match panFor s i with
  | some n => (startCopy i n s, stripSize s i)
  | none =>
    match colderCopy k s i with
    | none => (s, 0)
    | some c =>
      let t := { s with place := { s.place with copies := s.place.copies.erase c, dirty := addOnce s.place.dirty (c.2, c.1.part) } }
      match panFor t i with
      | some n => (startCopy i n t, stripSize t i)
      | none => (s, 0)

/-- Copies planned in rank order for the strips that hold fewer than n, within 2 MiB moved (R90). -/
def planRound (n : Nat) : List StripId → Nat → State → State
  | [], _, s => s
  | i :: is, moved, s =>
    let z := stripSize s i
    if z > tileArea || copyCount s i ≥ n || moved + z > 2 * 1048576 then planRound n is moved s
    else
      let r := planCopy n i s
      planRound n is (moved + r.2) r.1

/-- Banks of the stockpot that hold blocks of a head. -/
def headBanks (s : State) (p : Nat) : List Nat :=
  ((s.pot.uses.filter fun u => u.part == p && (u.use == .head || u.use == .taken)).flatMap fun u => u.blocks.map bankOf).eraseDups

/-- Strips of a head in a bank. -/
def bankLoad (l : List (StripId × Nat)) (b : Nat) : Nat := (l.filter fun x => x.2 == b).length

/-- The bank with the fewest strips. -/
def leastBank (l : List (StripId × Nat)) (bs : List Nat) : Option Nat :=
  bs.foldl (fun m b => match m with
    | none => some b
    | some x => if bankLoad l b < bankLoad l x then some b else m) none

/-- The bank with the most strips. -/
def mostBank (l : List (StripId × Nat)) (bs : List Nat) : Option Nat :=
  bs.foldl (fun m b => match m with
    | none => some b
    | some x => if bankLoad l b > bankLoad l x then some b else m) none

/-- Stockpot copies moved from the fullest bank to the emptiest until no bank holds more than one strip above another, or the step's movement
is spent (R90). Answers the bytes moved. -/
def levelBanks (s : State) (bs : List Nat) : Nat → Nat → List (StripId × Nat) → List (StripId × Nat) × Nat
  | 0, moved, l => (l, moved)
  | f + 1, moved, l =>
    match mostBank l bs, leastBank l bs with
    | some a, some b =>
      if bankLoad l a ≤ bankLoad l b + 1 then (l, moved)
      else match l.find? fun x => x.2 == a with
        | none => (l, moved)
        | some x =>
          let z := stripSize s x.1
          if moved + z > 2 * 1048576 then (l, moved)
          else levelBanks s bs f (moved + z) (updFirst (fun y => y == x) (fun y => (y.1, b)) l)
    | _, _ => (l, moved)

/-- The stockpot banks of a head's resident strips: a strip new in the area goes to the bank with the fewest, and the banks are levelled. -/
def placeBanks (p : Nat) (r : List (StripId × Nat) × Nat) (s : State) : List (StripId × Nat) × Nat :=
  let bs := headBanks s p
  let ids := (stripsOf s p).filter fun i => i.variant == 0 && !(s.place.streamed.contains i)
  let old := (s.place.banks.filter fun x => ids.contains x.1 && bs.contains x.2)
  let all := (ids.filter fun i => !(old.any fun x => x.1 == i)).foldl (fun l i =>
    match leastBank l bs with | some b => l ++ [(i, b)] | none => l) old
  let x := levelBanks s bs all.length r.2 all
  (r.1 ++ x.1, x.2)

/-- Stockpot copies of every head at a TICK. Answers the bytes moved. -/
def stockpotPlan (s : State) : State × Nat :=
  let r := (s.heads.map (·.part)).foldl (fun r p => placeBanks p r s) ([], 0)
  ({ s with place := { s.place with banks := r.1 } }, r.2)

/-- The placement plan at a TICK: stockpot copies are levelled; first copies, then second copies once every strip that fits has one (R90). Eocia plans: nothing
starts while Whisk restarts, HOLD is 1 or the placement sequencer is halted (R410, R469). -/
def placementPlan (s : State) : State :=
  if s.regs.placeHold || s.dbg.halted.getLsbD 2 || !(eociaRuns s) then s
  else
    let ranked := sortBy (hotter s) (allStrips s)
    let b := stockpotPlan s
    let was := s.place.inFlight
    let s := planRound 1 ranked b.2 b.1
    if ranked.all fun i => stripSize s i > tileArea || copyCount s i ≥ 1 then
      planRound 2 ranked (b.2 + total ((s.place.inFlight.filter fun c => !(was.contains c)).map fun c => stripSize s c.1)) s
    else s

/-- A step's heat ends, after the ranking that it counts in: 16 steps are kept with the open one. -/
def ageHeat (s : State) : State :=
  { s with place := { s.place with heat :=
      (s.place.heat.map fun e => (e.1, 0 :: e.2.take 15)).filter fun e => e.2.any (· ≠ 0) } }

/-- Copies of strips that are in force no more are dropped (Table 4.7). -/
def dropStale (f : StripId → Bool) (s : State) : State := dropCopies (fun i _ => f i) s

/-- PLACEMENT_COPY_DONE (R90): the copy is readable. -/
def copyDone (i : StripId) (n : Nat) (s : State) : State :=
  if s.place.inFlight.contains (i, n) then
    trace 11 0 0 (BitVec.ofNat 32 i.first) (BitVec.ofNat 64 n)
      { s with place := { s.place with inFlight := s.place.inFlight.erase (i, n), copies := s.place.copies ++ [(i, n)] } }
  else s

/-! ## Meanings -/

/-- PASS_DONE. -/
def execPassDone (p : PassInfo) (s : State) : Host.Outcome State Fault Refusal := .next (passDone p s)

/-- PLACEMENT_COPY_DONE. -/
def execPlacementCopyDone (i : StripId) (n : Nat) (s : State) : Host.Outcome State Fault Refusal := .next (copyDone i n s)

end Sys2Proof.Machine
end

