-- ==== Sys2Proof/Machine/Power.lean ====
section
/-! DEFINITION. Power domains, the power-manager interface, the clocks and the voltage and frequency loop of the pan pairs
(R12, R435 to R444, R473; Tables 21.1 to 21.5, 23.3). -/

namespace Sys2Proof.Machine

/-! ## Domains (Tables 21.1 and 21.2) -/

/-- The slice has a domain: the coarse kit lacks some pans, ramekins and stockpot pairs (R435). -/
def domainExists (s : State) (d : Nat) : Bool :=
  if d < 48 then d < s.kit.pans
  else if d < 96 then d - 48 < s.kit.pans
  else if d < 120 then 2 * (d - 96) < s.kit.pans
  else d < 148

/-- Domains of the base set: PD_STK00, PD_CTL, PD_SEC (R435). -/
def baseSet (d : Nat) : Bool := d == 96 || d == 143 || d == 146

/-- Domains that must be on before a domain is switched on (Table 21.2). -/
def needs (d : Nat) : List Nat :=
  if baseSet d then []
  else if d < 48 then [48 + d, 141]
  else if d < 120 then [143]
  else if d < 136 then [96, 97, 98, 143]
  else if d < 140 then [143]
  else if d = 140 || d = 141 then [120, 143]
  else [143]

/-- A stockpot pair holds a control or shell bank, state cache, or a block that is not FREE (Table 21.2). -/
def stkInUse (s : State) (k : Nat) : Bool :=
  k < 3 || 2 * k + 1 ≥ s.kit.pans - 2 * s.regs.stcInForce
    || ((List.range s.pot.blocks.length).any fun b =>
      (bankOf b == 2 * k || bankOf b == 2 * k + 1) && s.pot.blocks.getD b .free != .free)

/-- The pans of solo service: the 12 lowest-numbered unfenced ones (Table 21.8). -/
def soloPans (s : State) : List Nat := (unfenced s).take 12

/-- A pan pair's ramekin must stay on: the pan is on, or it holds a strip copy (Table 21.2). -/
def ramekinInUse (s : State) (n : Nat) : Bool :=
  s.power.req.getLsbD n || (s.place.copies ++ s.place.inFlight).any fun c => c.2 == n

/-- Eocia wants a domain on, by the rules of Table 21.2; `pans` are the pans it wants. -/
def wanted (s : State) (pans : List Nat) (d : Nat) : Bool :=
  if !(domainExists s d) then false
  else if baseSet d then true
  else if d < 48 then pans.contains d
  else if d < 96 then pans.contains (d - 48) || ramekinInUse s (d - 48)
  else if d < 120 then stkInUse s (d - 96)
  else if d < 136 then s.group.formed || d < 124
  else if d < 140 then portFitted (s.straps.extractLsb' 13 2).toNat (d - 136)
  else if d = 147 then s.straps.getLsbD 17
  else true

/-! ## Pan pairs (R441, R443, R473) -/

/-- Voltage code of a pair at a frequency (Table 23.3). -/
def vcode (s : State) (mhz : Nat) : Nat :=
  if s.kit.coarse then 38 + 3 * ((mhz - 350) / 25) else 22 + 2 * ((mhz - 350) / 25)

/-- A pair changed. -/
def updPair (p : Nat) (f : Pair → Pair) (s : State) : State :=
  { s with power := { s.power with pairs := updAt s.power.pairs p f } }

/-- A pair's frequency, with the code for it and no raise under way. -/
def setPair (p mhz : Nat) (s : State) : State :=
  trace 13 1 0 (BitVec.ofNat 32 p) (BitVec.ofNat 64 mhz)
    (updPair p (fun x => { x with mhz := mhz, code := vcode s mhz, waitVack := false }) s)

/-- Pairs follow their pans: a pair with no pan requested takes code 0; one that wakes starts at 350 MHz (R443, R473). -/
def settlePairs (s : State) : State :=
  (List.range s.power.pairs.length).foldl (fun s p =>
    let x := s.power.pairs.getD p ⟨0, 0, false, 0⟩
    let live := s.power.req.getLsbD (2 * p) || s.power.req.getLsbD (2 * p + 1)
    if !live then updPair p (fun x => { x with mhz := 0, code := 0, waitVack := false }) s
    else if x.mhz = 0 then setPair p 350 s else s) s

/-- The ceiling of every pair: ACLK_CEIL, the solo ceiling, the alert (R443, R444, Table 21.8). -/
def ceiling (s : State) : Nat := if s.power.alert || s.group.solo then 350 else s.regs.aclkCeil

/-! ## Switching (R436, R437, R439) -/

/-- An address of a stockpot pair, whose lines are zeroed before they are read again when the pair has been off (R436). -/
def inPair (d a : Nat) : Bool :=
  96 ≤ d && d < 120 && stockpotBase + (d - 96) * 4194304 ≤ a && a < stockpotBase + (d - 95) * 4194304

/-- One domain's request against what Eocia wants: raised when its requirements are on, dropped when nothing that is requested
requires it. -/
def planDomain (pans : List Nat) (s : State) (d : Nat) : State :=
  let p := s.power
  if wanted s pans d then
    if p.req.getLsbD d || p.stopped || !((needs d).all fun n => p.on.getLsbD n) then s
    else { s with power := { p with req := p.req ||| BitVec.twoPow 148 d } }
  else if p.req.getLsbD d && !((List.range 148).any fun n => p.req.getLsbD n && (needs n).contains d) then
    let drop := ~~~(BitVec.twoPow 148 d)
    { s with power := { p with req := p.req &&& drop, ack := p.ack &&& drop, on := p.on &&& drop }
             dbg := { s.dbg with mem := cellDrop (inPair d) s.dbg.mem } }
  else s

/-- Requests follow the pans wanted and the rules of Table 21.2. -/
def planPower (pans : List Nat) (s : State) : State :=
  if !(eociaRuns s) then s else settlePairs ((List.range 148).foldl (planDomain pans) s)

/-- Rows or training work wait. -/
def workWaits (s : State) : Bool := !(s.rows.isEmpty) || s.training.any fun t => !(t.micros.isEmpty)

/-- Pans that Eocia wants as they stand: in solo service the solo pans; while work waits every unfenced pan that is on or not long idle
(R437; which pans wake is time only); else those requested and not fenced (R436). -/
def pansNow (s : State) : List Nat :=
  if s.group.solo then soloPans s
  else (unfenced s).filter fun n => s.power.req.getLsbD n || (workWaits s && s.power.idle.getD n 0 < 64)

/-- Requests follow the state. -/
def powerPlan (s : State) : State := planPower (pansNow s) s

/-- Pans wake for the work that waits: where every pan is off, none counts as idle any more (R437). -/
def wakePans (s : State) : State :=
  if workWaits s && (unfenced s).all (fun n => !(s.power.req.getLsbD n)) then
    powerPlan { s with power := { s.power with idle := List.replicate s.kit.pans 0 } }
  else powerPlan s

/-- PM_PWR_ACK of a domain: it is on, and what waited for it may be requested (R436, R439). -/
def pwrAck (d : Nat) (s : State) : State :=
  if !(s.power.req.getLsbD d) || d ≥ 148 then s
  else
    let bit := BitVec.twoPow 148 d
    wakePans { s with power := { s.power with ack := s.power.ack ||| bit, on := s.power.on ||| bit } }

/-- A pan that has taken no pass in 64 steps is switched off (R436). -/
def panIdleOff (n : Nat) (s : State) : State :=
  if s.group.solo || !(eociaRuns s) || !(s.power.req.getLsbD n) || n ≥ s.kit.pans then s
  else if s.power.idle.getD n 0 < 64 && !(s.power.fenced.contains n) then s
  else planPower ((pansNow s).filter (· ≠ n)) s

/-- One more step without a pass for every pan that is on (R436). -/
def agePans (s : State) : State := { s with power := { s.power with idle := s.power.idle.map (· + 1) } }

/-! ## The loop (R442 to R444, R455) -/

/-- A pair is fenced: both its pans (R411, R443). -/
def fencePair (p : Nat) (s : State) : State := powerPlan (fencePan (2 * p + 1) (fencePan (2 * p) s))

/-- One evaluation of a pair's loop (R443). -/
def vfLoop (p stretched cycles : Nat) (quiet : Bool) (s : State) : State :=
  match s.power.pairs[p]? with
  | none => s
  | some x =>
    if x.mhz = 0 then s
    else
      let top := ceiling s
      if s.power.alert then (if x.mhz ≠ 350 then setPair p 350 s else s)
      else if stretched * 1024 > cycles then
        if x.mhz - 25 < 350 then fencePair p s else setPair p (min top (x.mhz - 25)) s
      else if x.mhz > top then setPair p top s
      else if quiet && x.mhz < top && !x.waitVack then updPair p (fun x => { x with code := vcode s (x.mhz + 25), waitVack := true }) s
      else s

/-- PM_VACK of a pair: the raise that waited for it takes place, unless the ceiling has fallen (R443, R455). -/
def vackRises (p : Nat) (s : State) : State :=
  match s.power.pairs[p]? with
  | none => s
  | some x => if !x.waitVack then s else setPair p (if x.mhz + 25 ≤ ceiling s then x.mhz + 25 else x.mhz) s

/-- PM_ALERT rises: every pair runs at 350 MHz (R444). -/
def alertRise (s : State) : State :=
  let s := { s with power := { s.power with alert := true } }
  (List.range s.power.pairs.length).foldl (fun s p =>
    if (s.power.pairs.getD p ⟨0, 0, false, 0⟩).mhz = 0 then s else setPair p 350 s) s

/-- PM_ALERT falls: the pairs climb again under the loop (R444). -/
def alertFall (s : State) : State := { s with power := { s.power with alert := false } }

/-- A droop of a pair: its next cycles are stretched (R442). -/
def droop (p : Nat) (s : State) : State :=
  if p < s.power.pairs.length then
    perf (0x280 + 8 * p) 1 (updPair p (fun x => { x with stretches := x.stretches + 1 }) s)
  else s

/-- PM_PWR_EST takes a new value, which the spec bounds and does not give (R438, R475; log entry 12). -/
def pwrEst (s : State) : State :=
  { s with power := { s.power with est := Config.powerEst s.fresh }, fresh := s.fresh + 1 }

/-- PM_VREQ: the codes of the pairs, pair p in bits [8p + 7 : 8p] (R473). -/
def pmVreq (s : State) : BitVec 192 :=
  BitVec.ofNat 192 ((s.power.pairs.zipIdx.map fun x => x.1.code * 2 ^ (8 * x.2)).foldl (· + ·) 0)

/-! ## Meanings -/

/-- PM_VACK. -/
def execPmVack (p : Nat) (s : State) : Host.Outcome State Fault Refusal := .next (vackRises p s)

/-- PM_ALERT_RISE. -/
def execPmAlertRise (s : State) : Host.Outcome State Fault Refusal := .next (alertRise s)

/-- PM_ALERT_FALL. -/
def execPmAlertFall (s : State) : Host.Outcome State Fault Refusal := .next (alertFall s)

/-- VF_LOOP_EVAL. -/
def execVfLoopEval (p stretched cycles : Nat) (quiet : Bool) (s : State) : Host.Outcome State Fault Refusal :=
  .next (vfLoop p stretched cycles quiet s)

/-- DROOP. -/
def execDroop (p : Nat) (s : State) : Host.Outcome State Fault Refusal := .next (droop p s)

/-- PWR_EST_UPDATE. -/
def execPwrEstUpdate (s : State) : Host.Outcome State Fault Refusal := .next (pwrEst s)

/-- PAN_IDLE_OFF. -/
def execPanIdleOff (n : Nat) (s : State) : Host.Outcome State Fault Refusal := .next (panIdleOff n s)

end Sys2Proof.Machine
end

