-- ==== Sys2Proof/Machine/Hip.lean ====
section
/-! DEFINITION. Rows on HIP: credits, framing, malformed rows, acceptance, rejection, training rows (R22 to R27, R60 to R63, R82, R87,
R134, R152, R204 to R206, R227, R228, R348 to R351, R361 to R363, R365, R424). -/

namespace Sys2Proof.Machine

/-! ## Ports (R348) -/

/-- Port number of Table 17.9. -/
def hipNum : HipClass → Nat
  | .bulk => 0
  | .latency => 1

/-- The port of a class. -/
def hipPort (s : State) (c : HipClass) : HipPort := match c with | .bulk => s.hipB | .latency => s.hipL

/-- The port of a class changed. -/
def updHip (c : HipClass) (f : HipPort → HipPort) (s : State) : State :=
  match c with
  | .bulk => { s with hipB := f s.hipB }
  | .latency => { s with hipL := f s.hipL }

/-- Owed credits are returned: PD_HIP is on, the partner is not frozen, the event queue has a place, no boot hold (R348, R357, R363, R448). -/
def returnCredits (s : State) : State :=
  if s.regs.frozenHip || s.whisk == .hold || s.evt.queue.length ≥ 512 || !(s.power.on.getLsbD 145) then s
  else
    let back := fun (h : HipPort) => { h with returned := h.returned + h.owed, owed := 0 }
    { s with hipB := back s.hipB, hipL := back s.hipL }

/-- A HIP violation: PART and ID of the row whose header was read, else 0 (Table 17.9). -/
def hipViolation (c : HipClass) (code offset : Nat) (row : List Bytes) (s : State) : State :=
  let w := match row with | h :: _ => leAt h 0 4 | [] => 0
  violation .hip (hipNum c) (field w 17 4) code (field w 0 17) offset false s

/-! ## Headers (R349, R350) -/

/-- The tree descriptor of 16 bytes (Table 10.1). -/
def treeDesc (b : Bytes) : TreeDesc :=
  let t := leAt b 0 4
  { node := field t 0 6, parent := field t 6 6, depth := field t 12 5, last := field t 17 6, spec := bitOf t 23,
    draft := field (leAt b 4 4) 0 22, base := field (leAt b 8 4) 0 16 }

/-- The row that header and payload beats spell (Table 17.2, Table 10.1). -/
def rowOfBeats (c : HipClass) (h payload : Bytes) : RowRec :=
  let w := leAt h 0 4
  let v := leAt h 8 4
  { cls := c, part := field w 17 4, id := field w 0 17, kind := field w 21 2, format := field w 23 4, stepSeq := leAt h 4 4,
    variant := field v 0 12, mask := field v 12 8,
    tree := treeDesc (sub h 16 16)
    treeBytes := sub h 16 16, payload := payload.take (leAt h 12 4), hold := .none, passed := [], sieved := false, rescore := 0, useStep := 0,
    carried := false, lateArrival := false }

/-- Set reserved bits of a header, word by word in ascending offset: a serving row has ID [16:14] and STEP_SEQ [31:16] zero. -/
def reservedWords (h : Bytes) : List (Nat × Bool) :=
  let w := leAt h 0 4
  let serving := field w 21 2 < 2
  [(0, field w 27 5 ≠ 0 || (serving && field w 14 3 ≠ 0)), (4, serving && leAt h 6 2 ≠ 0), (8, field (leAt h 8 4) 20 12 ≠ 0),
   (16, field (leAt h 16 4) 24 8 ≠ 0), (20, field (leAt h 20 4) 22 10 ≠ 0), (24, leAt h 26 2 ≠ 0), (28, leAt h 28 4 ≠ 0)]
    ++ (List.range 7).map fun i => (36 + 4 * i, decide (leAt h (36 + 4 * i) 4 ≠ 0))

/-- Defined FORMAT codes of Table 17.2. -/
def formatDefined (f : Nat) : Bool := f = 1 || f = 4 || f = 5 || f = 8

/-- CHECK: CRC-32 over the header with the field zero and the LENGTH payload bytes (Table 17.2). -/
def rowCheck (h payload : Bytes) : Word := crc32 (h.take 32 ++ [0, 0, 0, 0] ++ h.drop 36 ++ payload.take (leAt h 12 4))

/-- What makes a complete row malformed, with its code and offset (R350, R360). -/
def malformed (h payload : Bytes) (beats : Nat) : Option (Nat × Nat) :=
  match (reservedWords h).find? (·.2) with
  | some r => some (0x02, r.1)
  | none =>
    let w := leAt h 0 4
    if field w 21 2 = 3 || !(formatDefined (field w 23 4)) then some (0x03, 0)
    else if beats ≠ ceilDiv (leAt h 12 4) 64 then some (0x04, 12)
    else if rowCheck h payload ≠ wordAt h 32 then some (0x05, 32)
    else none

/-! ## Acceptance (R227, R60, R351) -/

/-- A row of a state that takes rows (Table 11.4). -/
def ReqState.takesRows : ReqState → Bool
  | .prefill | .active | .late | .throttled => true
  | _ => false

/-- Which step a row of a step field is used in (R60): this step, the next, or this one for the outstanding step; none is STEP. -/
def rowStep (s : State) (e : ReqEntry) (f : Nat) : Option Nat :=
  let m := s.step.step
  match e.heldStep with
  | some k => if f = k % 65536 && (e.state == .late || e.state == .throttled) then some m else none
  | none => if !s.step.opened then none else if f = m % 65536 then some m else if f = (m + 1) % 65536 then some (m + 1) else none

/-- FORMAT allowed for the KIND (R351), and within solo service (Table 21.8). -/
def formatAllowed (s : State) (r : RowRec) : Bool :=
  let ok := match r.kind with
    | 0 => r.format = 1 || r.format = 4 || r.format = 5
    | 1 => r.format = 1 || r.format = 8
    | _ => r.format = 1 || r.format = 4 || r.format = 5
  ok && (!s.group.solo || r.kind = 2 || r.format = 1)

/-- A hidden row's width is the head's, and the partition has a head on the slice (R82). -/
def widthOk (s : State) (r : RowRec) : Bool :=
  match headOf s r.part, rowFmt r.format with
  | some h, some f => r.payload.length = rowLength f (128 * h.id.blocks) && h.id.blocks ≠ 0
  | _, _ => false

/-- A hidden row holds a value that R32 forbids. -/
def valueBad (r : RowRec) : Bool :=
  match rowFmt r.format with
  | some f => !(rowClean f (rowWidth f r.payload.length) r.payload)
  | none => true

/-- Bytes of a score segment (R24). -/
def segmentLength (s : State) (r : RowRec) : Nat := (myIndices s).length * (if r.format = 8 then 4 else 2)

/-- The descriptor checks of R206 at acceptance, but for a NODE held already. -/
def treeBad (s : State) (r : RowRec) : Bool :=
  let t := r.tree
  if t.spec then s.group.solo || t.depth > 16 || t.draft ≥ vocab s || (t.node = 0 && (t.parent ≠ 0 || t.depth ≠ 0 || t.draft ≠ 0))
  else !(allZero r.treeBytes)

/-- Rows of a request with the same step field. -/
def sameStep (s : State) (r : RowRec) : List RowRec := s.rows.filter fun x => ofReq r.id x && x.stepSeq % 65536 == r.stepSeq % 65536

/-- The reason that refuses a serving row of an entry for a step, the first of Table 17.3 (R351). -/
def servingReason (s : State) (r : RowRec) (e : ReqEntry) : Option Reason :=
  let use := rowStep s e (r.stepSeq % 65536)
  let n := use.getD 0
  let same := sameStep s r
  let l : List (Bool × Reason) :=
    [(e.info.part ≠ r.part || !e.state.takesRows || (r.kind = 1) ≠ e.info.scoreMode, .state),
     (use.isNone, .step),
     (!(formatAllowed s r) || (r.kind = 0 && valueBad r), .format),
     (r.kind = 1 && r.payload.length ≠ segmentLength s r, .length),
     (r.kind = 0 && !(widthOk s r), .width),
     (r.variant ≠ 0 && !(variantGoverns s r.part r.variant n), .variant),
     (!(maskExists s r.part r.mask), .mask),
     (treeBad s r || (r.tree.spec && same.any fun x => x.tree.spec && x.tree.node == r.tree.node), .tree),
     (same.any (fun x => !x.tree.spec || !r.tree.spec) || (n = s.step.step && e.usedField == some (r.stepSeq % 65536)), .dup),
     ((s.rows.filter fun x => x.kind != 2 && x.useStep == n).length ≥ 8192, .rowLimit)]
  (l.find? (·.1)).map (·.2)

/-- Lines that a row takes (R112). -/
def rowLines (r : RowRec) : Nat := ceilDiv r.payload.length 64

/-- An accepted row takes its lines (R134): a row held for later must have them (R62). -/
def holdRow (must : Bool) (r : RowRec) (s : State) : Except Reason State :=
  let n := rowLines r
  match allocLines r.part (.row (rowKeyOf r) r.stepSeq) n s with
  | .ok t => .ok { t with rows := t.rows ++ [{ r with hold := .lines n }] }
  | .error _ => if must then .error .noSpace else .ok { s with rows := s.rows ++ [r] }

/-- A row accepted for this step is reported where it must be: at once after the INGEST deadline (R65), else at the deadline (log entry 47). -/
def rowReported (q : Nat) (s : State) : State :=
  let n := s.step.step
  if homeOf s q = me s then rowTold (me s) q n s
  else if s.step.phase > 0 then send (homeOf s q) (.stateSync ⟨me s, n, .rowReport q n (rowTrees s q)⟩) s
  else s

/-- A slice that accepts a row of the outstanding step holds it for the carry, and says so (R60). -/
def carryReported (q k : Nat) (s : State) : State :=
  if homeOf s q = me s then rowTold (me s) q k s else send (homeOf s q) (.stateSync ⟨me s, stepNow s, .rowReport q k (rowTrees s q)⟩) s

/-- The tree of a request that the open step uses is checked once it is whole (R204, R206): a tree that fails, or whose rows differ in
LAST, BASE or variant, or whose BASE is not WINDOW_LEN, is rejected row by row, and the request has no work. -/
def treeCheck (q : Nat) (s : State) : State :=
  match reqOf s q with
  | none => s
  | some e =>
    let mine := fun (r : RowRec) => ofReq q r && r.tree.spec && r.useStep == s.step.step
    let l := s.rows.filter mine
    let ts := l.map (·.tree)
    if !(treeComplete ts) || (treeOk e.windowLen ts && l.all fun r => l.all fun x => x.variant == r.variant) then s
    else
      let s := l.foldl (fun s r => rejectRow r .tree s) s
      let s := dropRows mine (count (fun c => { c with treeReject := c.treeReject + 1 }) s)
      closeMerges q (updReq q (fun e => { e with workStep := 0, heldStep := none }) s)

/-- Another slice reports rows of a request (R65). The home slice of a score-mode request whose range holds no index below V keeps the
descriptors of the tree, for the walk (R24, R209; log entry 65). -/
def rowReportArrives (src q n : Nat) (trees : List Bytes) (s : State) : State :=
  let s := rowTold src q n s
  match reqOf s q with
  | none => s
  | some e =>
    if homeOf s q ≠ me s || !e.info.scoreMode || !(myIndices s).isEmpty then s
    else
      let row := fun (b : Bytes) =>
        ({ cls := .latency, part := e.info.part, id := q, kind := 1, format := 8, stepSeq := n % 65536, variant := 0, mask := 0,
           tree := treeDesc b, treeBytes := b, payload := [], hold := .none, passed := [], sieved := false, rescore := 0, useStep := s.step.step,
           carried := e.heldStep.isSome, lateArrival := false } : RowRec)
      let new := trees.filter fun b => !(s.rows.any fun r => ofReq q r && r.tree.spec && r.useStep == s.step.step && r.tree.node == (treeDesc b).node)
      cutRows q { s with rows := s.rows ++ new.map row }

/-- A serving row judged and accepted, or rejected (R350, R351); `late`: it arrived after the INGEST deadline of the open step (R57, R60). -/
def serveRow (late : Bool) (r : RowRec) (s : State) : State :=
  let node := if r.tree.spec then r.tree.node else 0
  let no := fun (w : Reason) => rejection r.cls r.part r.id r.stepSeq node w s
  if r.part ≥ 12 || scrubbing s r.part then no .state
  else match reqOf s r.id, s.group.regroup with
    | none, _ => no .state
    | some e, some g =>
      if e.info.part ≠ r.part || !e.state.takesRows || (r.kind = 1) ≠ e.info.scoreMode || g.holes.contains e.home then no .state else no .step
    | some e, none =>
      match servingReason s r e with
      | some w => no w
      | none =>
        let n := (rowStep s e (r.stepSeq % 65536)).getD 0
        let late := late && n = s.step.step
        let x := { r with useStep := n, carried := e.heldStep.isSome, lateArrival := late }
        -- a segment of length 0 changes nothing (R24); a tree's descriptors are kept for the walk (log entry 65)
        if r.kind = 1 && segmentLength s r = 0 then (if r.tree.spec then { s with rows := s.rows ++ [x] } else s)
        else match holdRow (n > s.step.step || late) x s with
        | .error w => no w
        | .ok s =>
          let s := trace (2 + (hipNum r.cls)) 0 0 (BitVec.ofNat 32 r.id) (BitVec.ofNat 64 r.payload.length) s
          if n = s.step.step then treeCheck r.id (streamGo r.part (match e.heldStep with | some k => carryReported r.id k s | none => rowReported r.id s)) else s

/-- A training row judged, and saved (R26, R27, R82, R271, R283; an unknown SEQ or token is STATE, log entry 48). -/
def trainRow (r : RowRec) (s : State) : State :=
  let seq : Word := BitVec.ofNat 32 r.stepSeq
  let no := fun (w : Reason) => rejection r.cls r.part r.id r.stepSeq 0 w s
  let open_ := s.training.any fun t => t.part == r.part
  let l : List (Bool × Reason) :=
    [(r.part ≥ 12 || scrubbing s r.part || !open_ || !((microOf s seq).any fun m => r.id < m.desc.tokens), .state),
     (!(formatAllowed s r) || valueBad r, .format), (!(widthOk s r), .width), (r.variant ≠ 0, .variant), (r.mask ≠ 0, .mask),
     (!(allZero r.treeBytes), .tree), ((microOf s seq).any fun m => m.saved.any fun x => x.token == r.id, .dup)]
  match l.find? (·.1) with
  | some w => no w.2
  | none =>
    saveToken seq r.id r.format r.payload (trace (2 + (hipNum r.cls)) 0 0 (BitVec.ofNat 32 r.id) (BitVec.ofNat 64 r.payload.length) s)

/-- A serving row waits while its request's outcome of the stamped step is due, and a row of the next step until the outcomes of this one
are applied (R220). -/
def rowEarly (s : State) (r : RowRec) : Bool :=
  (match reqOf s r.id with | some e => !(settled s e) | none => publishing s)
    || (s.step.opened && !s.step.stamped && s.group.regroup.isNone && r.stepSeq % 65536 == (s.step.step + 1) % 65536)

/-- A complete row: malformed, or judged at its last beat, unless it waits (R220). -/
def judgeRow (c : HipClass) (late : Bool) (row : List Bytes) (s : State) : State :=
  match row with
  | [] => s
  | h :: ps =>
    let payload := ps.flatMap id
    match malformed h payload ps.length with
    | some v => hipViolation c v.1 v.2 row s
    | none =>
      let r := rowOfBeats c h payload
      if r.kind = 2 then trainRow r s
      else if rowEarly s r then
        let w : WaitingRow := { step := s.step.step, late := late, row := row }
        updHip c (fun p => { p with waiting := p.waiting ++ [w] }) s
      else serveRow late r s

/-- A row arrives after the INGEST deadline of the open step (R57). -/
def arrivesLate (s : State) : Bool := s.step.opened && !s.step.stamped && s.step.phase > 0

/-- Rows that waited for the outcomes are judged, LATENCY class first, each as of its arrival (R57, R63, R220). -/
def judgeWaiting (s : State) : State :=
  let l := s.hipL.waiting.map (fun r => (HipClass.latency, r)) ++ s.hipB.waiting.map (fun r => (HipClass.bulk, r))
  let s := { s with hipL := { s.hipL with waiting := [] }, hipB := { s.hipB with waiting := [] } }
  l.foldl (fun s x => judgeRow x.1 (x.2.late && x.2.step == s.step.step) x.2.row s) s

/-! ## Beats (R348, R350) -/

/-- Framing of one beat that had its credit. -/
def frameBeat (c : HipClass) (b : HipBeat) (s : State) : State :=
  let p := hipPort s c
  let set := fun (row : List Bytes) (stray : Bool) (s : State) => updHip c (fun p => { p with row := row, stray := stray }) s
  if b.first then
    let s := if p.row.isEmpty then s else hipViolation c 0x0A 0 p.row (set [] false s)
    if s.regs.frozenHip then s
    else if b.last then judgeRow c (arrivesLate s) [b.data] (set [] false s) else set [b.data] false s
  else if p.stray then (if b.last then set [] false s else s)
  else if p.row.isEmpty then
    let s := set [] (!b.last) s
    hipViolation c 0x0A 0 [] s
  else
    let row := p.row ++ [b.data]
    if row.length - 1 > ceilDiv (leAt (p.row.headD []) 12 4) 64 then hipViolation c 0x04 12 row (set [] (!b.last) s)
    else if b.last then judgeRow c (arrivesLate s) row (set [] false s)
    else set row false s

/-- One HIP beat: dropped while frozen, an overrun without a credit, else framed; it leaves the buffer at once (R348, R363). -/
def hipBeat (c : HipClass) (b : HipBeat) (s : State) : State :=
  if s.regs.frozenHip then s
  else
    let p := hipPort s c
    if p.received ≥ p.returned then
      hipViolation c 0x01 0 p.row (updHip c (fun p => { p with nacks := p.nacks + 1, row := [], stray := !b.last }) s)
    else
      let s := perf (0x200 + 8 * (hipNum c)) 64 (updHip c (fun p => { p with received := p.received + 1, owed := p.owed + 1 }) s)
      returnCredits (frameBeat c b s)

/-- HIP_ROW: the beats in order. -/
def hipRow (c : HipClass) (bs : List HipBeat) (s : State) : State := bs.foldl (fun s b => hipBeat c b s) s

end Sys2Proof.Machine
end

