-- ==== Sys2Proof/Machine/Lines.lean ====
section
/-! DEFINITION. Request lines, jar lines, home records, backing slots and the written mark; Ladle records, PROD and doorbells
(R106 to R109, R114, R147, R230 to R237, R401, R414 to R416; Tables 5.4, 5.5, 7.2, 11.5, 11.6, 19.4, 20.3). -/

namespace Sys2Proof.Machine

/-! ## Lines (R109, R147, R415) -/

/-- The request line (Table 7.2). -/
def requestLine (e : ReqEntry) : Bytes :=
  let x := e.info.settings
  leBytes 4 x.temp.toNat
    ++ leBytes 4 (x.topk + 2 ^ 11 * b01 x.logpMode + 2 ^ 12 * e.info.epoch + 2 ^ 14 * b01 e.info.genT + 2 ^ 15 * b01 e.info.scoreMode
        + 2 ^ 16 * x.maskId + 2 ^ 24 * x.biasId)
    ++ leBytes 4 x.topp.toNat ++ leBytes 4 x.minp.toNat ++ leBytes 4 x.rep.toNat ++ leBytes 4 x.freq.toNat ++ leBytes 4 x.pres.toNat
    ++ leBytes 4 e.draws ++ leBytes 8 e.info.seed.toNat ++ leBytes 4 e.info.stream.toNat
    ++ leBytes 4 e.pred.kref ++ leBytes 4 e.pred.gap ++ leBytes 4 (e.pred.w + 2 ^ 16 * (e.windowLen % 65536)) ++ leBytes 8 0

/-- One jar line (Table 5.5). -/
def jarLine (js : List (Nat × Nat)) : Bytes :=
  padTo 64 (leBytes 4 js.length ++ js.flatMap fun j => leBytes 4 (j.1 + 2 ^ 18 * j.2))

/-- The jar lines of a request, 15 jars each. -/
def jarLines (js : List (Nat × Nat)) : List Bytes := (groupsOf 15 (js.length + 1) js).map jarLine

/-- The jars of a jar line: none when it breaks Table 5.5. -/
def lineJars (b : Bytes) : Option (List (Nat × Nat)) :=
  let n := leAt b 0 4
  if n > 15 then none
  else
    let l := (List.range n).map fun j => let w := leAt b (4 + 4 * j) 4; (field w 0 18, field w 18 14)
    if l.all (fun j => j.2 ≥ 1) && allZero (b.drop (4 + 4 * n)) then some l else none

/-- The lines of a request on this slice, by backing slot (R107). -/
def linesOfReq (e : ReqEntry) : List (Nat × Bytes) := ((requestLine e) :: jarLines e.jars).zipIdx.map fun p => (p.2, p.1)

/-- The home record (Table 20.3). -/
def homeRecord (e : ReqEntry) : Bytes :=
  leBytes 4 e.prodWritten ++ leBytes 4 e.cons ++ leBytes 4 e.ttftUs ++ leBytes 4 e.gapUs ++ leBytes 8 e.lastCommitStep
    ++ leBytes 4 (min 65535 e.gapSteps + 2 ^ 16 * e.lateCount + 2 ^ 19 * b01 e.cancelMark + 2 ^ 20 * b01 e.hasToken
        + 2 ^ 21 * e.stallSteps)
    ++ leBytes 4 e.state.code ++ leBytes 32 0

/-! ## Slots of the backing and shadow regions (R107, R401, R416) -/

/-- This slice's registration for a partition. -/
def myBacking (s : State) (p : Nat) : Option Backing := backingOf s (me s) p

/-- Host address of a slot of a request: the region, or the shadow region behind it. -/
def slotPlace (b : Backing) (shadow : Bool) (q slot : Nat) : Nat :=
  b.base + (if shadow then b.count * (1 + b.lmax) * 128 else 0) + (q - b.first) * (1 + b.lmax) * 128 + slot * 128

/-- A slot lies in a window (R107). -/
def inWindow (b : Backing) (q slot : Nat) : Bool := b.first ≤ q && q < b.first + b.count && slot ≤ b.lmax

/-- The nonce of a slot (Table 19.4): 0b01 for a backing slot, 0b00 for a shadow slot. -/
def slotNonce (shadow : Bool) (slice joinForm wcount : Nat) : Bytes :=
  leBytes 12 ((if shadow then 0 else 2 ^ 94) + slice * 2 ^ 88 + joinForm * 2 ^ 56 + wcount)

/-- Additional data of a slot (Table 19.4, R416; layout DESIGN CHOICE 42). -/
def slotAad (p q slot adm wcount joinForm addr : Nat) (src : Option Nat) : Bytes :=
  leBytes 4 p ++ leBytes 4 q ++ leBytes 4 slot ++ leBytes 8 adm ++ leBytes 8 wcount ++ leBytes 4 joinForm ++ leBytes 8 addr
    ++ (match src with | some n => leBytes 4 n | none => [])

/-- K_ST of a partition. -/
def slotKey (s : State) (p : Nat) : Bytes := ((keySetOf s p).map (·.kSt)).getD []

/-- The counter before a backing or shadow write (R401): at its end the slice leaves the group. -/
def nextWcount (s : State) : State :=
  let n := s.sec.wcount + 1
  let s := { s with sec := { s.sec with wcount := n } }
  if n ≥ 2 ^ 56 - 1 then { s with group := { s.group with silent := true } } else s

/-- One slot written, encrypted (Table 5.4). -/
def writeSlot (p q slot adm : Nat) (src : Option Nat) (line : Bytes) (after : AfterWrite) (s : State) : State :=
  match myBacking s p with
  | none => s
  | some b =>
    let s := nextWcount s
    let w := s.sec.wcount
    let addr := slotPlace b src.isSome q slot
    let key := slotKey s p
    let nonce := slotNonce src.isSome (me s) s.group.joinForm w
    let ct := gcmCrypt key nonce line
    let tag := gcmTag key nonce (slotAad p q slot adm w s.group.joinForm addr src) ct
    let bytes := ct ++ tag ++ leBytes 8 w ++ leBytes 8 adm ++ leBytes 4 s.group.joinForm ++ leBytes 4 (src.getD 0) ++ leBytes 24 0
    hmpWrite p addr bytes after s

/-- The line of a slot that has been read, when every check holds (R108, R416). -/
def openSlot (s : State) (p q slot adm : Nat) (src : Option Nat) (bytes : Bytes) : Option Bytes :=
  match myBacking s p with
  | none => none
  | some b =>
    let ct := bytes.take 64
    let w := leAt bytes 80 7
    let jf := leAt bytes 96 4
    let key := slotKey s p
    let nonce := slotNonce src.isSome (me s) jf w
    let aad := slotAad p q slot adm w jf (slotPlace b src.isSome q slot) src
    if w ≠ 0 && leAt bytes 88 8 = adm && sub bytes 64 16 == gcmTag key nonce aad ct
        && (match src with | some n => field (leAt bytes 100 4) 0 6 == n | none => true)
    then some (gcmCrypt key nonce ct) else none

/-! ## The state cache (R104, R106, R108) -/

/-- Lines of a request with every slot that was written: a jar slot that has fallen empty holds an empty line (R108, R109). -/
def slotLines (e : ReqEntry) : List (Nat × Bytes) :=
  let l := linesOfReq e
  l ++ (e.written.filter fun w => w.1 ≥ l.length).map fun w => (w.1, List.replicate 64 0)

/-- A line differs from what its slot holds. -/
def dirtyLines (e : ReqEntry) : List (Nat × Bytes) := (slotLines e).filter fun l => !(e.written.contains l)

/-- A line is written back to its slot, and the written mark follows (R108). -/
def writeLine (q : Nat) (l : Nat × Bytes) (s : State) : State :=
  match reqOf s q with
  | none => s
  | some e =>
    let s := trace 10 0 1 (BitVec.ofNat 32 q) (BitVec.ofNat 64 l.1) (writeSlot e.info.part q l.1 e.info.admitStep none l.2 (.backing q l.1) s)
    updReq q (fun e => { e with written := e.written.filter (fun w => w.1 != l.1) ++ [l], mark0 := e.mark0 || l.1 == 0
                                markJar := max e.markJar l.1 }) s

/-- The dirty lines of a request are written back (R108). -/
def writeBack (q : Nat) (s : State) : State :=
  match reqOf s q with
  | none => s
  | some e => (dirtyLines e).foldl (fun s l => writeLine q l s) s

/-- The whole cache is written back and invalidated (R104). -/
def flushCache (s : State) : State :=
  let l := s.reqs.filter fun e => !e.state.terminal && (myBacking s e.info.part).isSome
  l.foldl (fun s e => updReq e.req (fun e => { e with cold := true }) (writeBack e.req s)) { s with pot := { s.pot with cached := [] } }

/-- The set of a line, of the 4,096 that each 4 MiB step adds (R103, R106). -/
def lineSet (s : State) (l : Nat × Nat) : Nat :=
  Config.cacheSet (((reqOf s l.1).map (·.info.part)).getD 0) l.1 l.2 % (4096 * s.regs.stcInForce)

/-- A line leaves the cache: written back when it is dirty (R108). -/
def evictLine (l : Nat × Nat) (s : State) : State :=
  let s := { s with pot := { s.pot with cached := s.pot.cached.erase l } }
  match (reqOf s l.1).bind fun e => (dirtyLines e).find? fun d => d.1 == l.2 with
  | some d => writeLine l.1 d s
  | none => s

/-- A line joins its set as the most recently used. The least recently used line beyond 16 leaves that is not pinned by a row of the open
step; with every way pinned, the line itself goes straight to its slot (R106; the hash is free, log entry 150). -/
def accessLine (l : Nat × Nat) (s : State) : State :=
  let s := { s with pot := { s.pot with cached := l :: s.pot.cached.erase l } }
  if s.pot.cached.length ≤ 16 then s
  else
    let set := s.pot.cached.filter fun x => lineSet s x == lineSet s l
    let free := set.filter fun x => !(s.rows.any fun r => ofReq x.1 r && r.useStep == s.step.step)
    if set.length ≤ 16 then s else evictLine (free.getLast?.getD l) s

/-- A row's sampling reads the lines of its request. Those that the cache does not hold are fetched from their slots, at or below the written
mark; a slot above it holds nothing (R106, R108). -/
def fetchLines (q : Nat) (s : State) : State :=
  match reqOf s q with
  | none => s
  | some e =>
    if !e.due.isEmpty then s
    else
      match myBacking s e.info.part with
      | none => s
      | some b =>
        let slots := ((if e.mark0 then [0] else []) ++ (List.range e.markJar).map (· + 1)).filter fun k => !(s.pot.cached.contains (q, k))
        let s := ((linesOfReq e).map fun l => (q, l.1)).foldl (fun s l => accessLine l s) s
        let s := updReq q (fun e => { e with due := slots, cold := !slots.isEmpty }) s
        slots.foldl (fun s k =>
          hmpRead e.info.part (slotPlace b false q k) 128 .rdb (.backing q k)
            (trace 10 0 0 (BitVec.ofNat 32 q) (BitVec.ofNat 64 k) s)) s

/-- A line that cannot be read is restored with a fetch entry to the keeper; without one it is lost (R418, R426). The request is
carried in this step (Table 5.6). -/
def restoreLine (q slot : Nat) (s : State) : State :=
  match reqOf s q with
  | none => s
  | some e =>
    let s := closeMerges q (updReq q (fun e => { e with due := addOnce e.due slot, cold := true }) s)
    match keeperOf s (me s) with
    | none => updReq q (fun e => { e with lost := true }) s
    | some k => send k (.huskDelta ⟨me s, s.step.step, false, [⟨q, e.info.part, .fetch, slot, List.replicate 64 0⟩]⟩) s

/-- One line of a request stands in the cache again. -/
def lineBack (q slot : Nat) (s : State) : State :=
  updReq q (fun e => let l := e.due.erase slot; { e with due := l, cold := !l.isEmpty }) s

/-- A line put in place of the one held: the sampler state of a request line, or the jars of a jar line. -/
def putLine (q slot : Nat) (line : Bytes) (s : State) : State :=
  if slot = 0 then
    updReq q (fun e => { e with info := { e.info with settings := lineSettings line }, draws := leAt line 28 4,
                                windowLen := leAt line 54 2, pred := ⟨leAt line 44 4, leAt line 52 1 % 32, leAt line 48 4⟩ }) s
  else
    match lineJars line with
    | none => s
    | some js => updReq q (fun e =>
        { e with jars := e.jars.take (15 * (slot - 1)) ++ js ++ e.jars.drop (15 * slot) }) s

/-- A backing slot has been read (R108): its line, or a failed check, alarmed and restored (R402, Table 5.6). A line that changed since it
was written back keeps the change. -/
def backingArrived (q slot : Nat) (bs : Option Bytes) (s : State) : State :=
  match reqOf s q with
  | none => s
  | some e =>
    match bs.bind (openSlot s e.info.part q slot e.info.admitStep none) with
    | some line => lineBack q slot (if (dirtyLines e).any fun d => d.1 = slot then s else putLine q slot line s)
    | none =>
      let s := if bs.isSome then alarm 0x1F (BitVec.ofNat 64 (e.info.part * 2 ^ 4)) s else s
      let s := count (fun c => { c with eccUe := c.eccUe + 1 }) s
      restoreLine q slot s

/-! ## Ladle records (R230 to R237) -/

/-- Slots of a ring. -/
def ladleSlots (e : ReqEntry) : Nat := 2 ^ e.info.ladleOrder

/-- Empty slots (R234). -/
def emptySlots (e : ReqEntry) : Nat := ladleSlots e - (e.prod + 2 ^ 32 - e.cons % 2 ^ 32) % 2 ^ 32

/-- Free slots: the empty ones less the reserve (R235). -/
def freeSlots (e : ReqEntry) : Nat := emptySlots e - 1

/-- What a Ladle record says (Table 11.6). -/
structure LadleRec where
  token : Nat
  empty : Bool
  late : Bool
  final : Bool
  ending : Nat
  lp16 : Nat
  acceptLen : Nat
  acceptNode : Nat
  status : Status
  gapSteps : Nat
  deriving DecidableEq, Repr

/-- A record without a token. -/
def bareRecord : LadleRec :=
  { token := noIndex, empty := false, late := false, final := false, ending := 0, lp16 := 0xFFFF, acceptLen := 0, acceptNode := 0,
    status := .ok, gapSteps := 0 }

/-- The 16 bytes of record number `seq`. -/
def ladleBytes (seq : Nat) (r : LadleRec) : Bytes :=
  leBytes 4 seq
    ++ leBytes 4 (r.token + 2 ^ 22 * b01 r.empty + 2 ^ 23 * b01 r.late + 2 ^ 24 * b01 r.final + 2 ^ 25 * r.ending)
    ++ leBytes 4 (r.lp16 + 2 ^ 16 * r.acceptLen + 2 ^ 21 * r.acceptNode)
    ++ leBytes 4 (r.status.code.toNat + 2 ^ 16 * min 65535 r.gapSteps)

/-- A record written into its slot (R230, R232). -/
def writeRecord (e : ReqEntry) (n seq : Nat) (bytes : Bytes) (s : State) : State :=
  hmpWrite e.info.part (e.info.ladleBase + 64 + 16 * ((seq - 1) % ladleSlots e)) bytes (.ladleRecord e.req n) s

/-- Records of step n numbered from SEQ written into their slots (R230, R233); none for a partition under scrub (R395). -/
def writeRecords (e : ReqEntry) (n seq : Nat) (l : List Bytes) (s : State) : State :=
  if scrubbing s e.info.part then s
  else l.zipIdx.foldl (fun s r => writeRecord e n (seq + r.2) r.1 s) 
    (updReq e.req (fun e => { e with issued := seq - 1 + l.length, issuedStep := n }) s)

/-- Some HMP transaction waits for a moment. -/
def writing (s : State) (a : AfterWrite) : Bool := s.hmp.txns.any fun t => t.write && t.after == a

/-- A record of the request is being written. -/
def recordWriting (s : State) (q : Nat) : Bool :=
  s.hmp.txns.any fun t => t.write && match t.after with | .ladleRecord r _ => r == q | _ => false

/-- A PROD write of the request is under way. -/
def prodWriting (s : State) (q : Nat) : Bool :=
  s.hmp.txns.any fun t => t.write && match t.after with | .ladleProd r _ => r == q | _ => false

/-- A publication goes out: its records, then its doorbells. -/
def publishOne (p : Publication) (s : State) : State :=
  match reqOf s p.req with
  | none => s
  | some e =>
    let s := if p.records.isEmpty then s else writeRecords e p.step p.first p.records s
    p.bells.foldl (fun s b => doorbell e p.step b s) s

/-- A publication may go out: the event queue is not full, no earlier one of its request waits, and the PROD of the records before its own
is written (R64, R233, R357). -/
def mayPublish (kept : List Publication) (p : Publication) (s : State) : Bool :=
  evtRoom s && !(kept.any fun x => x.req == p.req) && (p.records.isEmpty || (reqOf s p.req).all fun e => e.issued == e.prodWritten)

/-- Publications that may go out do, in their order. -/
def drainPubs (s : State) : State :=
  let go := fun (a : State × List Publication) (p : Publication) =>
    if mayPublish a.2 p a.1 then (publishOne p a.1, a.2) else (a.1, a.2 ++ [p])
  let r := s.evt.late.foldl go ({ s with evt := { s.evt with late := [] } }, [])
  { r.1 with evt := { r.1.evt with late := r.2 } }

/-- A publication goes out, or waits behind those that wait (R357). -/
def publishOut (p : Publication) (s : State) : State := drainPubs { s with evt := { s.evt with late := s.evt.late ++ [p] } }

/-- PROD is written once the step's record writes and the keeper's delta are acknowledged (R233, R414). -/
def tryProd (q : Nat) (s : State) : State :=
  match reqOf s q with
  | none => s
  | some e =>
    if e.issued = e.prodWritten || homeOf s q ≠ me s || recordWriting s q || writing s (.husk q) || prodWriting s q || scrubbing s e.info.part
        || s.keeper.unacked.any (fun u => !u.2) || publishing s then s
    else hmpWrite e.info.part e.info.ladleBase (leBytes 4 e.issued) (.ladleProd q e.issued) s

/-- A record is written: late where the TICK after its step has come (R64, Table 16.6). -/
def recordOut (q n : Nat) (last : Bool) (s : State) : State :=
  let s := if s.step.step > n then count (fun c => { c with publishLate := c.publishLate + 1 }) s else s
  if last then tryProd q s else s

/-- A PROD write is acknowledged: a doorbell, and the commands that waited for the final record (R233, R239, R240, R260). -/
def prodDone (q n : Nat) (s : State) : State :=
  match reqOf s q with
  | none => s
  | some e =>
    let s := updReq q (fun e => { e with prodWritten := n, released := e.state.terminal && n = e.prod }) s
    let bell : Publication := { req := q, step := e.issuedStep, first := 0, records := [], bells := [Status.ok.code] }
    let s := drainPubs { s with evt := { s.evt with late := bell :: s.evt.late } }
    if e.state.terminal && n = e.prod then
      let s := finish (fun p => p.wait == .finalRecord q) (fun _ => .ok) (fun _ => []) s
      finish (fun p => p.wait == .evicted q) (fun _ => .ok) (fun p => [(0, BitVec.ofNat 32 (p.reported.headD 0))]) s
    else tryProd q s

/-- The CONS value of a request has been read (R234): a value that breaks the ring is ignored and alarmed once. -/
def consArrived (q : Nat) (bs : Option Bytes) (s : State) : State :=
  match bs, reqOf s q with
  | some b, some e =>
    let v := leAt b 0 4
    if (e.prod + 2 ^ 32 - v) % 2 ^ 32 > ladleSlots e then
      if e.consAlarmed then s
      else alarm 0x05 (BitVec.ofNat 64 (q + e.info.part * 2 ^ 16)) (updReq q (fun e => { e with consAlarmed := true }) s)
    else updReq q (fun e => { e with cons := v }) s
  | _, _ => s

end Sys2Proof.Machine
end

