-- ==== Sys2Proof/Machine/Ports.lean ====
section
/-! DEFINITION. GBP and the event port: credits, acknowledgements, beats, records, alarms and traces on the port, thaws
(R355 to R358, R361 to R365, R457, R459, R462, R463). -/

namespace Sys2Proof.Machine

/-! ## GBP (R355, R356) -/

/-- Port number of a GBP channel (Table 17.9). -/
def gbpNum : GbpCh → Nat
  | .a => 3
  | .b => 4

/-- The port of a channel. -/
def gbpPort (s : State) (c : GbpCh) : GbpPort := match c with | .a => s.gbpA | .b => s.gbpB

/-- The port of a channel changed. -/
def updGbp (c : GbpCh) (f : GbpPort → GbpPort) (s : State) : State :=
  match c with
  | .a => { s with gbpA := f s.gbpA }
  | .b => { s with gbpB := f s.gbpB }

/-- A credit pulse: ignored while frozen; one above 1,024 is a violation and is ignored (R356, R363). -/
def gbpCredit (c : GbpCh) (s : State) : State :=
  if s.regs.frozenGbp then s
  else if (gbpPort s c).credits ≥ 1024 then violation .gbp (gbpNum c) 0 0x01 0 0 false s
  else updGbp c (fun p => { p with credits := p.credits + 1, received := p.received + 1 }) s

/-- An acknowledgement: the oldest beat sent is consumed; one with no beat outstanding is a violation (R356). -/
def gbpAck (c : GbpCh) (s : State) : State :=
  if s.regs.frozenGbp then s
  else if (gbpPort s c).unacked.isEmpty then violation .gbp (gbpNum c) 0 0x08 0 0 false s
  else
    let off := match c with | .a => 0x228 | .b => 0x230
    perf off 128 (updGbp c (fun p => { p with unacked := p.unacked.drop 1, acks := p.acks + 1 }) s)

/-- Beats of a micro-batch on a channel (ARG1 of the END trace). -/
def beatsOn (s : State) (seq : Word) : Nat :=
  match s.training, microOf s seq with
  | some t, some m => m.desc.tokens / 2 * ceilDiv (gbpGroups s t).length 2
  | _, _ => 0

/-- A beat is sent once its data and a credit are at hand (R356, R363). -/
def gbpSend (c : GbpCh) (s : State) : State :=
  let p := gbpPort s c
  match p.waiting with
  | [] => s
  | b :: rest =>
    if s.regs.frozenGbp || p.credits = 0 then s
    else
      let s := updGbp c (fun p => { p with waiting := rest, unacked := p.unacked ++ [b], credits := p.credits - 1, sent := p.sent + 1,
                                           out := some b }) s
      if b.last then trace 5 1 0 b.seq (BitVec.ofNat 64 (beatsOn s b.seq)) s else s

/-- The GBP partner thawed: credits held are zero, every beat not acknowledged is sent again in order (Table 17.10). -/
def thawGbp (s : State) : State :=
  let back := fun (p : GbpPort) =>
    { p with credits := 0, received := 0, sent := 0, acks := 0, waiting := p.unacked ++ p.waiting, unacked := [] }
  { s with regs := { s.regs with frozenGbp := false }, gbpA := back s.gbpA, gbpB := back s.gbpB }

/-! ## The event port (R357, R459, R462) -/

/-- Bytes of an alarm record (Table 22.1). -/
def alarmBytes (s : State) (a : Alarm) : Bytes :=
  leBytes 4 (4 + a.code * 2 ^ 8 + me s * 2 ^ 16) ++ leBytes 4 a.count ++ leBytes 8 a.firstNs ++ leBytes 8 a.lastNs
    ++ leBytes 8 a.arg.toNat

/-- Bytes of a trace record (Table 22.5). -/
def traceBytes (s : State) (t : Trace) : Bytes :=
  leBytes 4 (5 + t.src * 2 ^ 4 + t.prio * 2 ^ 8 + t.event * 2 ^ 10 + me s * 2 ^ 16) ++ leBytes 4 t.arg0.toNat
    ++ leBytes 8 t.timeNs ++ leBytes 8 t.step ++ leBytes 8 t.arg1.toNat

/-- One record driven on EVT_DATA with a credit. -/
def evtOut (b : Bytes) (s : State) : State :=
  { s with evt := { s.evt with credits := s.evt.credits - 1, sent := s.evt.sent + 1, out := some b } }

/-- EVT_CREDIT: a credit beyond 512 is ignored, counted, and reported unless such a report waits (R357, R362). -/
def evtCredit (s : State) : State :=
  let s := { s with evt := { s.evt with received := s.evt.received + 1 } }
  if s.evt.credits < 512 then { s with evt := { s.evt with credits := s.evt.credits + 1 } }
  else
    let s := { s with evt := { s.evt with excess := s.evt.excess + 1 } }
    if s.evt.excessWaiting then s
    else event 3 (errorBytes s 5 0 0x01 1 0 0 false) { s with evt := { s.evt with excessWaiting := true } }

/-- An error record of the event port itself. -/
def isExcess (r : EvtRec) : Bool := r.kind = 3 && field (leAt r.bytes 0 4) 4 3 = 5

/-- A record sent: the queue of doorbells, rejections and errors first, and traces behind the queue and the alarms (R357, R456). -/
def eventSend (s : State) : State :=
  if s.evt.credits = 0 then s
  else match s.evt.queue with
    | r :: rest =>
      let s := evtOut r.bytes { s with evt := { s.evt with queue := rest } }
      let s := if isExcess r then { s with evt := { s.evt with excessWaiting := false } } else s
      returnCredits (drainPubs (evtRefill s))
    | [] =>
      if !s.evt.pendingList.isEmpty || (!s.tele.alarms.isEmpty && eociaRuns s) then s
      else match s.tele.traces with
        | [] => s
        | t :: rest => evtOut (traceBytes s t) { s with tele := { s.tele with traces := rest } }

/-- Eocia sends the oldest alarm, behind the queue (R459). -/
def alarmSend (s : State) : State :=
  if s.evt.credits = 0 || !(eociaRuns s) || !s.evt.queue.isEmpty || !s.evt.pendingList.isEmpty then s
  else match s.tele.alarms with
    | [] => s
    | a :: rest => evtOut (alarmBytes s a) { s with tele := { s.tele with alarms := rest } }

/-! ## Meanings -/

/-- GBP_CREDIT. -/
def execGbpCredit (c : GbpCh) (s : State) : Host.Outcome State Fault Refusal := .next (gbpCredit c s)

/-- GBP_ACK. -/
def execGbpAck (c : GbpCh) (s : State) : Host.Outcome State Fault Refusal := .next (gbpAck c s)

/-- GBP_SEND. -/
def execGbpSend (c : GbpCh) (s : State) : Host.Outcome State Fault Refusal := .next (gbpSend c s)

/-- EVT_CREDIT. -/
def execEvtCredit (s : State) : Host.Outcome State Fault Refusal := .next (evtCredit s)

/-- EVENT_SEND. -/
def execEventSend (s : State) : Host.Outcome State Fault Refusal := .next (eventSend s)

/-- ALARM_SEND. -/
def execAlarmSend (s : State) : Host.Outcome State Fault Refusal := .next (alarmSend s)

end Sys2Proof.Machine
end

