-- ==== Sys2Proof/Machine/Keeper.lean ====
section
/-! DEFINITION. Keepers: husk deltas sent and applied, shadow slots, fetches, snapshots; the husk of an evicted request
(R260, R261, R401, R402, R413 to R418, R433; Tables 12.3, 12.4, 20.2). -/

namespace Sys2Proof.Machine

/-! ## Deltas of this slice (R414, R417) -/

/-- Entries for the lines of a request that changed since they were last sent. -/
def lineEntries (e : ReqEntry) : List DeltaEntry :=
  ((linesOfReq e).filter fun l => !(e.sent.contains l)).map fun l => ⟨e.req, e.info.part, .line, l.1, l.2⟩

/-- The home record of a request homed here, when it changed. The old home slice of a move sends it with its last delta (R229). -/
def homeEntry (s : State) (e : ReqEntry) : List DeltaEntry :=
  if (homedHere s e || (e.state == .draining && !e.sentHome.isEmpty)) && homeRecord e ≠ e.sentHome then [⟨e.req, e.info.part, .home, 0, homeRecord e⟩] else []

/-- Messages of at most 818 entries each, LAST on the last one (Table 20.2). -/
def deltaMsgs (src step : Nat) (l : List DeltaEntry) : List HuskDelta :=
  let gs := groupsOf 818 (l.length + 1) l
  if gs.isEmpty then [⟨src, step, true, []⟩]
  else gs.zipIdx.map fun g => ⟨src, step, g.2 + 1 = gs.length, g.1⟩

/-- The husk delta of a step: changed lines and home records go to the keeper, and PROD waits for its acknowledgement (R414). -/
def sendDelta (n : Nat) (s : State) : State :=
  match keeperOf s (me s) with
  | none => s
  | some k =>
    let l := s.reqs.flatMap fun e => lineEntries e ++ homeEntry s e
    let s := (deltaMsgs (me s) n l).foldl (fun s d => send k (.huskDelta d) s) s
    let s := { s with keeper := { s.keeper with unacked := s.keeper.unacked ++ [(n, false)] } }
    { s with reqs := s.reqs.map fun e => { e with sent := linesOfReq e, sentHome := if homedHere s e then homeRecord e else [] } }

/-- A new keeper takes a snapshot: every line and home record goes again (R417). -/
def snapshot (s : State) : State :=
  sendDelta s.step.step { s with reqs := s.reqs.map fun e => { e with sent := [], sentHome := [] } }

/-! ## What a keeper does with a delta (R414, R416, R418) -/

/-- The shadow writes of a slice's step that are not acknowledged. -/
def shadowing (s : State) (src step : Nat) : Bool := writing s (.shadow src step)

/-- Every finished delta is acknowledged; the step is the last one acknowledged to the kept slice (R414, R423). -/
def ackDeltas (s : State) : State :=
  let fin := s.keeper.ackDue.filter fun a => !(shadowing s a.1 a.2)
  let s := { s with keeper := { s.keeper with ackDue := s.keeper.ackDue.filter fun a => shadowing s a.1 a.2
                                              ackedStep := fin.foldl (fun m a => max m a.2) s.keeper.ackedStep } }
  fin.foldl (fun s a => send a.1 (.huskDeltaAck a.2) s) s

/-- The written mark of a kept request raised by a slot (R416). -/
def markKept (q p slot : Nat) (s : State) : State :=
  let old := (s.keeper.marks.find? fun m => m.req == q).getD ⟨q, p, false, 0⟩
  let new : KeptMark := { old with slot0 := old.slot0 || slot == 0, jar := max old.jar slot }
  { s with keeper := { s.keeper with marks := s.keeper.marks.filter (fun m => m.req != q) ++ [new] } }

/-- A line or home record goes to the shadow region; one outside the window is discarded (R416). -/
def shadowEntry (src step : Nat) (x : DeltaEntry) (s : State) : State :=
  match myBacking s x.part with
  | none => alarm 0x11 (BitVec.ofNat 64 (x.req + x.part * 2 ^ 14 + x.slot * 2 ^ 18)) s
  | some b =>
    if !(inWindow b x.req x.slot) then alarm 0x11 (BitVec.ofNat 64 (x.req + x.part * 2 ^ 14 + x.slot * 2 ^ 18)) s
    else
      let adm := ((reqOf s x.req).map (·.info.admitStep)).getD 0
      writeSlot x.part x.req x.slot adm (some src) x.data (.shadow src step) (markKept x.req x.part x.slot s)

/-- A request line's predictor is cold after a restore, on every slice at the same stamp (R418). -/
def lineRestored (q slot : Nat) (line : Bytes) (s : State) : State :=
  let s := lineBack q slot (putLine q slot line s)
  if slot = 0 then announce (stepNow s) (.coldPred q) s else s

/-- A line goes back to the slice that fetched it (R418). -/
def returnLine (dest q p slot : Nat) (line : Bytes) (s : State) : State :=
  send dest (.huskDelta ⟨me s, s.step.step, false, [⟨q, p, .line, slot, line⟩]⟩) s

/-- A fetch entry: the request line from this slice's own copy, a jar line from its shadow slot (R418). -/
def fetchEntry (src : Nat) (x : DeltaEntry) (s : State) : State :=
  if x.slot = 0 then
    match reqOf s x.req with
    | some e => returnLine src x.req x.part 0 (requestLine e) s
    | none => s
  else
    match myBacking s x.part with
    | none => s
    | some b => hmpRead x.part (slotPlace b true x.req x.slot) 128 .rdb (.shadow x.req x.part x.slot true) s

/-- One entry of a delta. A line that this slice fetched is put in its place; a kept slice's line of slot 0 is not shadowed: slot 0
holds its home record (R416). -/
def deltaEntry (src step : Nat) (x : DeltaEntry) (s : State) : State :=
  match x.kind with
  | .line =>
    if (reqOf s x.req).any fun e => e.due.contains x.slot && keeperOf s (me s) == some src then lineRestored x.req x.slot x.data s
    else if x.slot = 0 then s
    else shadowEntry src step x s
  | .home => shadowEntry src step { x with slot := 0 } s
  | .command => { s with keeper := { s.keeper with commands := s.keeper.commands ++ [(step, x)] } }
  | .fetch => fetchEntry src x s

/-- The delta of a step ends the care for a command of that step; an eviction takes one step more (R264). -/
def keepsCommand (step : Nat) (c : Nat × DeltaEntry) : Bool :=
  c.1 > step || (c.1 = step && opOf (leAt c.2.data 4 4 % 65536) = some .reqEvict)

/-- HUSK_DELTA arrives (R414): commands are acknowledged at once, a step's delta when its writes are.
The first whole delta of a newly kept slice is its snapshot (R417). -/
def deltaArrives (d : HuskDelta) (s : State) : State :=
  let s := if s.keeper.source = d.src then s else
    { s with keeper := { s.keeper with source := d.src, kept := 64, marks := [], commands := [], ackedStep := 0 } }
  let s := d.entries.foldl (fun s x => deltaEntry d.src d.step x s) s
  let cmds := d.entries.filter fun x => x.kind == .command
  let s := cmds.foldl (fun s _ => send d.src (.huskDeltaAck d.step) s) s
  if d.last then ackDeltas { s with keeper := { s.keeper with ackDue := s.keeper.ackDue ++ [(d.src, d.step)]
                                                              kept := d.src
                                                              commands := s.keeper.commands.filter (keepsCommand d.step) } }
  else s

/-- A shadow slot read for a fetch: the line returns, unless a check fails (R416, R418). -/
def shadowFetched (q p slot : Nat) (bs : Option Bytes) (s : State) : State :=
  let adm := ((reqOf s q).map (·.info.admitStep)).getD 0
  match bs.bind (openSlot s p q slot adm (some s.keeper.source)) with
  | some line => returnLine s.keeper.source q p slot line s
  | none => if bs.isSome then alarm 0x1F (BitVec.ofNat 64 (3 + p * 2 ^ 4)) s else s

/-! ## The husk (R260, R261, R401, R402) -/

/-- The chunk records of a request, from every slice's share, ascending (R260). -/
def huskRecords (e : ReqEntry) : List ChunkRec :=
  sortBy (fun (a b : ChunkRec) => a.chunk < b.chunk) (e.shares.flatMap (·.2))

/-- Bytes of a chunk record (Table 12.4). -/
def chunkBytes (r : ChunkRec) : Bytes :=
  leBytes 4 (r.chunk + 2 ^ 14 * r.counts.length) ++ r.counts.flatMap fun c => leBytes 4 (c.1 + 2 ^ 8 * c.2)

/-- The husk's body before encryption (Table 12.4). -/
def huskBody (e : ReqEntry) (seqLast : Nat) : Bytes :=
  let recs := huskRecords e
  let stops := (List.range 8).map fun i => e.info.stop.getD i 0
  let plain := (requestLine e).take 28 ++ leBytes 4 e.draws ++ leBytes 8 e.info.seed.toNat ++ leBytes 4 e.info.stream.toNat
    ++ leBytes 4 e.outLeft ++ leBytes 4 seqLast
    ++ leBytes 4 (e.windowLen % 65536 + 2 ^ 16 * b01 e.hasToken + 2 ^ 17 * e.info.stop.length)
    ++ leBytes 4 e.ttftUs ++ leBytes 4 recs.length ++ stops.flatMap (leBytes 4) ++ e.window.flatMap (leBytes 4)
    ++ recs.flatMap chunkBytes
  padTo (ceilDiv plain.length 16 * 16) plain

/-- LENGTH of a husk with the given body (Table 12.3). -/
def huskLength (body : Bytes) : Nat := 80 + body.length

/-- The husk's header (Table 12.3). -/
def huskHeader (s : State) (e : ReqEntry) (len : Nat) (nonce : Bytes) : Bytes :=
  let head := if e.info.scoreMode then none else headIdOf s e.info.part
  let key := ((keySetOf s e.info.part).map (·.keyId)).getD 0
  padTo 64 (leBytes 4 0x4B48534B
    ++ leBytes 4 (1 + 2 ^ 8 * e.info.epoch + 2 ^ 10 * b01 e.info.scoreMode + 2 ^ 11 * b01 e.info.genT)
    ++ leBytes 4 len ++ leBytes 4 ((head.map (·.blocks)).getD 0) ++ leBytes 8 ((head.map (·.headId.toNat)).getD 0)
    ++ nonce ++ leBytes 4 key.toNat)

/-- A husk nonce (Table 19.4): 0b10 and 94 bits of the DRBG. -/
def huskNonce (s : State) : Bytes × State :=
  let r := drbg 12 s
  (leBytes 12 (2 * 2 ^ 94 + leNat r.1 % 2 ^ 94), r.2)

/-- The husk written into host memory (R260, R401); the count of husks under the key set rises (R402). -/
def writeHusk (q addr seqLast : Nat) (s : State) : State :=
  match reqOf s q with
  | none => s
  | some e =>
    let s := writeBack q s
    let p := e.info.part
    let r := huskNonce s
    let body := huskBody e seqLast
    let hd := huskHeader r.2 e (huskLength body) r.1
    let key := ((keySetOf s p).map (·.kHk)).getD []
    let ct := gcmCrypt key r.1 body
    let s := { r.2 with sec := { r.2.sec with keySets := updFirst (fun k => k.part == p) (fun k => { k with husks := k.husks + 1 }) r.2.sec.keySets } }
    hmpWrite p addr (hd ++ ct ++ gcmTag key r.1 hd ct) (.husk q) s

/-! ## Meanings -/

/-- HUSK_DELTA. -/
def execHuskDelta (d : HuskDelta) (s : State) : Host.Outcome State Fault Refusal := .next (deltaArrives d s)

end Sys2Proof.Machine
end

