-- ==== Sys2Proof/Machine/Outcome.lean ====
section
/-! DEFINITION. What a commit stamp decides for a request at its home slice, and how every slice applies it in PUBLISH
(R58, R62, R64, R65, R67, R68, R112, R136, R148, R160 to R164, R212 to R217, R222 to R240, R248 to R251, R255, R259, R260, R263, R426). -/

namespace Sys2Proof.Machine

/-! ## Fates -/

/-- What a stamp makes of a request: its entry, the run that commits, Ladle records, doorbells, merged keys, counts. -/
structure Fate where
  e : ReqEntry
  run : List Nat
  recs : List LadleRec
  bells : List Status
  kmax : Key
  kcut : Key
  stalls : Nat
  empties : Nat
  throttles : Nat
  carried : Bool
  deriving DecidableEq, Repr

/-- A request to which nothing more happens at the stamp. -/
def Fate.plain (e : ReqEntry) : Fate :=
  { e := e, run := [], recs := [], bells := [], kmax := 0, kcut := 0, stalls := 0, empties := 0, throttles := 0, carried := false }

/-- A request enters PAUSED: its clock stops, its counts and its run of steps without budget restart, nothing stays outstanding (R68, R251,
R259). -/
def toPaused (e : ReqEntry) : ReqEntry :=
  { e with state := .paused, lateCount := 0, stallSteps := 0, clockOn := false, heldStep := none, budgetRun := false }

/-- The step that stays outstanding for a request with work in step n (R60). -/
def keepStep (n : Nat) (work : Bool) (e : ReqEntry) : Option Nat :=
  match e.heldStep with
  | some k => some k
  | none => if work && !e.holders.isEmpty then some n else none

/-- The end of eight LATE stamps: PAUSED with a LATE record, or without a free slot with a RING_FULL doorbell (R65, R237). -/
def lateEnd (e : ReqEntry) : Fate :=
  if freeSlots e ≥ 1 then { Fate.plain (toPaused e) with recs := [{ bareRecord with late := true }] }
  else { Fate.plain (toPaused e) with bells := [.ringFull] }

/-- A carried request (R65). -/
def carryFate (n : Nat) (work : Bool) (e : ReqEntry) : Fate :=
  let x := { e with state := .late, lateCount := e.lateCount + 1, stallSteps := 0, heldStep := keepStep n work e }
  if x.lateCount < 8 then { Fate.plain x with carried := true } else lateEnd x

/-- The end of a ring stall of 256 steps (R236). -/
def stallEnd (e : ReqEntry) : Fate := { Fate.plain (toPaused e) with bells := [.ringFull] }

/-- A ring stall (R236): the request keeps its state and is carried. -/
def stallFate (n : Nat) (e : ReqEntry) : Fate :=
  let x := { e with stallSteps := e.stallSteps + 1, heldStep := keepStep n true e }
  let first := x.stallSteps = 1
  let f := if x.stallSteps ≥ 256 then stallEnd x else { Fate.plain x with carried := true }
  { f with bells := (if first then [.ringFull] else []) ++ f.bells, stalls := b01 first }

/-- The EMPTY record of a NO_CANDIDATE outcome (R162). -/
def emptyRecord : LadleRec := { bareRecord with empty := true, status := .noCandidate }

/-- NO_CANDIDATE (R162, R163, R237). -/
def noCandidateFate (n : Nat) (e : ReqEntry) : Fate :=
  if freeSlots e ≥ 1 then { Fate.plain (toPaused e) with recs := [emptyRecord], empties := 1 } else stallFate n e

/-! ## A run (R67, R68, R212 to R215, R238) -/

/-- The clocks at a stamp that commits a token: the entry, and the gap in steps for the record. -/
def clockCommit (now n : Nat) (e : ReqEntry) : ReqEntry × Nat :=
  let sat := fun (x : Nat) => min (2 ^ 32 - 1) x
  let x := { e with lastCommitAt := now, lastCommitStep := n, clockOn := true, hasToken := true }
  if !e.hasToken then ({ x with ttftUs := sat ((now - e.acceptedAt) / 1000) }, 0)
  else if e.clockOn then
    ({ x with gapUs := sat ((now - e.lastCommitAt) / 1000), gapSteps := n - e.lastCommitStep }, n - e.lastCommitStep)
  else (x, 0)

/-- Tokens through the first stop token (R238). -/
def throughStop (stop : List Nat) : List Nat → List Nat
  | [] => []
  | t :: ts => if stop.contains t then [t] else t :: throughStop stop ts

/-- A run of r tokens ends the request (R238). -/
def runEnds (e : ReqEntry) (run : List Nat) : Bool :=
  run.length ≥ e.outLeft || (run.getLast?).any fun t => e.info.stop.contains t

/-- The run as it is cut at the commit (R213, R235, R238). -/
def cutRun (e : ReqEntry) (run : List Nat) : List Nat :=
  let r := (throughStop e.info.stop run).take (min e.allowance e.outLeft)
  let free := freeSlots e
  if r.length ≤ free then r
  else if r.length ≤ emptySlots e && runEnds e r then r
  else r.take free

/-- The Ladle records of a run (R212, R231). -/
def runRecords (run : List (Nat × Nat)) (ends : Bool) (acceptLen acceptNode gap : Nat) : List LadleRec :=
  run.zipIdx.map fun t =>
    let last := t.2 + 1 = run.length
    { bareRecord with token := t.1.1, lp16 := t.1.2, final := last && ends, ending := if last && ends then 1 else 0,
                      acceptLen := if last then acceptLen else 0, acceptNode := if last then acceptNode else 0,
                      gapSteps := if last then gap else 0 }

/-- A commit (R212 to R214, R238): the cut run, DONE or ACTIVE, or PAUSED after a deeper row without a candidate. -/
def commitFate (now n : Nat) (v : Verdict) (e : ReqEntry) : Fate :=
  let run := cutRun e (v.run.map (·.1))
  if run.isEmpty then stallFate n (if e.state = .throttled then { e with state := .active } else e)
  else
    let ends := runEnds e run
    let drafts := v.run.length - b01 v.bonus
    let kept := min run.length drafts
    let node := if kept = 0 then 0 else v.nodes.getD (kept - 1) 0
    let emptyToo := v.noCandidate && run.length = v.run.length && !ends && freeSlots e ≥ run.length + 1
    let c := clockCommit now n e
    let x := { c.1 with lateCount := 0, stallSteps := 0, heldStep := none, state := if ends then .done else .active }
    let recs := runRecords (v.run.take run.length) ends kept node c.2
    if emptyToo then
      { Fate.plain (toPaused x) with run := run, recs := recs ++ [emptyRecord], kmax := v.kmax, kcut := v.kcut, empties := 1 }
    else { Fate.plain x with run := run, recs := recs, kmax := v.kmax, kcut := v.kcut }

/-! ## The stamp of one request (R64, R65, R222, R249 to R251, R259) -/

/-- A request has work in step n: some slice accepted a row, or its carried rows are retried (R65). -/
def hasWork (n : Nat) (e : ReqEntry) : Bool := e.workStep == n || e.heldStep.isSome

/-- The fate of a request that takes rows, by its allowance and its verdict (R162, R249 to R251). -/
def rowFate (now n : Nat) (v : Option Verdict) (e : ReqEntry) : Fate :=
  let work := hasWork n e
  let judged := fun (e : ReqEntry) =>
    match v with
    | some v => if v.run.isEmpty then noCandidateFate n (if e.state = .throttled then { e with state := .active } else e) else commitFate now n v e
    | none =>
      let x := { e with stallSteps := 0, state := if e.state = .throttled then .active else e.state }
      if work || e.state = .late then carryFate n work x else Fate.plain x
  match e.state with
  | .throttled => if e.allowance = 0 then Fate.plain { e with heldStep := keepStep n work e } else judged e
  | .prefill =>
    if e.allowance = 0 then
      { Fate.plain { e with budgetRun := true, heldStep := keepStep n work e } with bells := if e.budgetRun then [] else [.budget] }
    else judged { e with budgetRun := false }
  | _ =>
    if e.allowance = 0 then
      { Fate.plain { e with state := .throttled, lateCount := 0, stallSteps := 0, heldStep := keepStep n work e } with
        bells := [.budget], throttles := 1 }
    else judged e

/-- The fate of a failed request (R426). -/
def failFate (e : ReqEntry) : Fate :=
  { Fate.plain { e with state := .failed, heldStep := none } with recs := [{ bareRecord with final := true, ending := 3, status := .geometry }] }

/-- The fate of a cancelled request (R239). -/
def cancelFate (e : ReqEntry) : Fate :=
  { Fate.plain { e with state := .cancelled, clockOn := false } with recs := [{ bareRecord with final := true, ending := 2 }] }

/-- A pause accepted before the stamp (R259): no token; a NO_CANDIDATE outcome still has its record (Table 7.6). -/
def pauseFate (v : Option Verdict) (e : ReqEntry) : Fate :=
  if (v.any fun x => x.run.isEmpty) && freeSlots e ≥ 1 then
    { Fate.plain (toPaused e) with recs := [emptyRecord], empties := 1 }
  else Fate.plain (toPaused e)

/-- Changes of a request that belong to step n or before, in acceptance order. -/
def dueChanges (s : State) (q n : Nat) : List ReqChange :=
  (s.eocia.changes.filter fun c => c.1 == q && c.2.2 ≤ n).map (·.2.1)

/-- The last pause or resume of a list: true for a pause (R242: acceptance order). -/
def lastPause (l : List ReqChange) : Option Bool :=
  (l.filterMap fun c => match c with | .pause => some true | .resume => some false | _ => none).getLast?

/-- The settings of a list, in acceptance order. -/
def settingsIn (l : List ReqChange) : List Settings := l.filterMap fun c => match c with | .settings x => some x | _ => none

/-- The last settings of a list. -/
def lastSettings (l : List ReqChange) : Option Settings := (settingsIn l).getLast?

/-- A change of T, k, p or m (R148). -/
def coldChange (y x : Settings) : Bool := x.temp ≠ y.temp || x.topk ≠ y.topk || x.topp ≠ y.topp || x.minp ≠ y.minp

/-- Some settings of a list, each against those that the request would otherwise hold, change T, k, p or m (R148). -/
def anyCold (y : Settings) : List Settings → Bool
  | [] => false
  | x :: xs => coldChange y x || anyCold x xs

/-- A request resumed (R222, R259). -/
def resumed (e : ReqEntry) : ReqEntry := { e with state := if e.hasToken then .active else .prefill, lateCount := 0 }

/-- The fate of a live request at a stamp, admissions, moves and evictions apart; while Whisk is halted no token commits here (R344). -/
def fateOf (s : State) (n : Nat) (e : ReqEntry) : Fate :=
  let l := dueChanges s e.req n
  let v := if s.dbg.halted.getLsbD 0 then none else s.verdicts.find? fun x => x.req == e.req
  if s.group.failAll || e.lost then failFate e
  else if l.contains .cancel then cancelFate e
  else match lastPause l with
    | some true => pauseFate v e
    | some false => Fate.plain (resumed e)
    | none => if e.state = .paused then Fate.plain e else rowFate s.timer n v e

/-! ## The outcome goes out (R58, R231 to R233, R414) -/

/-- The records of a fate as bytes, from SEQ on. -/
def recordBytes (seq : Nat) (l : List LadleRec) : List Bytes := l.zipIdx.map fun r => ladleBytes (seq + r.2) r.1

/-- A fate fixed at the stamp of step n: the home's entry, records (held back for a husk), doorbells, counts, and the outcome for
every slice, with the settings of the step in acceptance order (R148) and what a completed admission fixes (R225). -/
def fixFate (n : Nat) (hold : Bool) (set : List Settings) (fixed : Option (Nat × Bool)) (old : ReqEntry) (f : Fate) (s : State) : State :=
  let q := old.req
  let bytes := recordBytes (old.prod + 1) f.recs
  let e := { f.e with prod := old.prod + f.recs.length }
  let o : ReqOutcome := { req := q, step := n, state := e.state.code, tokens := f.run, kmax := f.kmax, kcut := f.kcut,
                          predict := !f.run.isEmpty, heldStep := e.heldStep, settings := set.getLast?, cold := anyCold old.info.settings set
                          fixed := fixed, firstSeq := old.prod + 1, records := bytes }
  let s := updReq q (fun _ => e) s
  let s := count (fun c => { c with ladleStalls := c.ladleStalls + BitVec.ofNat 32 f.stalls
                                    sampleEmpty := c.sampleEmpty + BitVec.ofNat 32 f.empties
                                    budgetThrottles := c.budgetThrottles + BitVec.ofNat 32 f.throttles
                                    tokensHomed := c.tokensHomed + BitVec.ofNat 64 f.run.length }) s
  let p : Publication := { req := q, step := n, first := old.prod + 1, records := if hold then [] else bytes, bells := f.bells.map (·.code) }
  let s := if p.records.isEmpty && p.bells.isEmpty then s else publishOut p s
  if !f.carried && e.state = old.state && f.run.isEmpty && f.recs.isEmpty && e.heldStep = old.heldStep && set.isEmpty then s
  else announce n (.outcome o) s

/-! ## Admissions, moves and evictions at a stamp (R225, R226, R229, R242, R260, R263) -/

/-- The epoch and the generator class that a request takes when its admission completes: EPOCH 0 is the highest epoch that every slice
reports now, AUTO follows the group size now (R51, R173, R225); none while no epoch is common. -/
def admitFixes (s : State) (e : ReqEntry) : Option (Nat × Bool) :=
  (if e.info.epoch = 0 then epochFor s 0 else some e.info.epoch).map fun ep => (ep, classFor s e.info.genSel)

/-- The epoch and the class in an entry. -/
def putFixed (x : Nat × Bool) (e : ReqEntry) : ReqEntry := { e with info := { e.info with epoch := x.1, genT := x.2 } }

/-- An admission whose loads have all been reported: PREFILL, CANCELLED, or FREE again (R225, R226, R242). -/
def admitStamp (n : Nat) (e : ReqEntry) (s : State) : State :=
  let q := e.req
  if !((members s).all fun m => e.loaded.contains m) then s
  else if e.loadStatus ≠ 0 then
    let st : Status := if e.loadStatus = Status.busy.code then .busy else .badArg
    let s := finish (fun p => p.wait == .admission q) (fun _ => st) (fun _ => []) s
    let s := finish (fun p => p.wait == .finalRecord q) (fun _ => .noSuch) (fun _ => []) s
    fixFate n false [] none e (Fate.plain { e with state := .free }) s
  else match admitFixes s e with
    | none => s
    | some fx =>
      let s := finish (fun p => p.wait == .admission q) (fun _ => .ok) (fun _ => []) s
      let x := putFixed fx (if e.wasHusk then { e with prodWritten := e.prod, issued := e.prod } else e)
      let s := if e.wasHusk then hmpWrite e.info.part e.info.ladleBase (leBytes 4 e.prod) .nothing s else s
      let f := if s.group.failAll then failFate x
        else if (dueChanges s q n).contains .cancel then cancelFate x else Fate.plain { x with state := .prefill }
      fixFate n false (settingsIn (dueChanges s q n)) (some fx) e f s

/-- What a home slice hands over with a move: its home record with the state held before, PROD numbered, the clocks as elapsed
nanoseconds, and the load reports of an admission that has not completed (R225, R229). -/
def handOver (now : Nat) (e : ReqEntry) : Bytes :=
  homeRecord { e with state := e.prior } ++ leBytes 4 e.prod ++ leBytes 8 (now - e.lastCommitAt) ++ leBytes 8 (now - e.acceptedAt)
    ++ leBytes 1 (b01 e.clockOn) ++ leBytes 8 (e.loaded.foldl (fun a m => a ||| 2 ^ m) 0) ++ leBytes 2 e.loadStatus.toNat

/-- The first stamp of a move: the changes that its step accepted before the move are applied (R148, R259, Table 15.11), and the request
goes to its new home slice (R229). A move to the present home slice keeps the window's lines. -/
def moveOut (n : Nat) (e : ReqEntry) (s : State) : State :=
  let q := e.req
  let l := dueChanges s q n
  let e := match lastPause l with
    | some true => { toPaused e with state := .draining, prior := .paused }
    | some false => { resumed e with state := .draining, prior := (resumed e).state }
    | none => e
  let s := updReq q (fun _ => e) s
  let s := if (settingsIn l).isEmpty then s else fixFate n false (settingsIn l) none e (Fate.plain e) s
  let s := flood (.stateSync ⟨me s, stepNow s, .home q e.moveTo⟩) s
  let s := send e.moveTo (.stateSync ⟨me s, stepNow s, .homeState q (handOver s.timer e)⟩) s
  if e.moveTo = me s then updReq q (fun e => { e with moveStage := 2, window := List.replicate 64 noIndex }) s
  else updReq q (fun e => { e with home := e.moveTo, moveStage := 0 }) (freeLines e.info.part (.window q) s)

/-- A home slice takes a moved request over (R229): home values, clocks, load reports, an unwritten window. Where the window's lines cannot
be taken (R101) the request goes on without them: DESIGN CHOICE 137. -/
def moveIn (q : Nat) (d : Bytes) (s : State) : State :=
  let w := leAt d 24 4
  match reqOf s q with
  | none => s
  | some e =>
    let s := match allocLines e.info.part (.window q) 4 s with | .ok t => t | .error _ => s
    updReq q (fun e =>
      { e with home := me s, state := .draining, prior := ReqState.ofCode (field (leAt d 28 4) 0 4), moveStage := 2
               prodWritten := leAt d 0 4, issued := leAt d 64 4, cons := leAt d 4 4, ttftUs := leAt d 8 4, gapUs := leAt d 12 4, lastCommitStep := leAt d 16 8
               gapSteps := field w 0 16, lateCount := field w 16 3, cancelMark := bitOf w 19, hasToken := bitOf w 20
               stallSteps := field w 21 9, prod := leAt d 64 4, lastCommitAt := s.timer - leAt d 68 8
               acceptedAt := s.timer - leAt d 76 8, clockOn := leAt d 84 1 = 1
               loaded := (List.range 64).filter fun m => bitOf (leAt d 85 8) m, loadStatus := BitVec.ofNat 16 (leAt d 93 2), window := List.replicate 64 noIndex, holders := members s }) s

/-- The second stamp of a move: the earlier state on the new home slice (R229). -/
def moveEnd (n : Nat) (e : ReqEntry) (s : State) : State :=
  fixFate n false [] none e (Fate.plain { e with state := e.prior, moveStage := 0 }) s

/-- This slice's jars of a request as chunk records. -/
def ownShare (s : State) (e : ReqEntry) : List ChunkRec := chunkRecs (jarPairs s e.jars)

/-- Changes of a request that its stamp has consumed leave the list. -/
def dropChanges (q n : Nat) (keep : ReqChange → Bool) (s : State) : State :=
  { s with eocia := { s.eocia with changes := s.eocia.changes.filter fun c => !(c.1 == q && c.2.2 ≤ n) || keep c.2.1 } }

/-- A change is an eviction, whose address and capacity the second stamp needs. -/
def ReqChange.isEvict : ReqChange → Bool
  | .evict .. => true
  | _ => false

/-- The first stamp of an eviction at the home slice: the changes that its step accepted before it are applied (Table 15.11), and the slice's
own jars are taken (R260). -/
def evictBegins (n : Nat) (e : ReqEntry) (s : State) : State :=
  let q := e.req
  let l := dueChanges s q n
  let x := match lastPause l with | some false => resumed e | _ => e
  let s := if (settingsIn l).isEmpty && x.state = e.state then s else fixFate n false (settingsIn l) none e (Fate.plain x) s
  dropChanges q n ReqChange.isEvict (updReq q (fun x => { x with evictStage := 2, shares := x.shares ++ [(me s, ownShare s x)] }) s)

/-- The second stamp of an eviction (R260): with every share at the home slice, the husk and the final record, or BAD_ARG with the length
needed. -/
def evictEnds (n : Nat) (e : ReqEntry) (s : State) : State :=
  let q := e.req
  if !((members s).all fun m => e.shares.any fun x => x.1 == m) then s
  else
    let a := (((dueChanges s q n).filterMap fun c => match c with | .evict addr cap => some (addr, cap) | _ => none).getLast?).getD (0, 0)
    let len := huskLength (huskBody e (e.prod + 1))
    let word := BitVec.ofNat 32 len
    let s := dropChanges q n (fun _ => false) s
    if len > a.2 then
      finish (fun p => p.wait == .evicted q) (fun _ => .badArg) (fun _ => [(0, word)])
        (updReq q (fun x => { x with evictStage := 0, shares := [] }) s)
    else
      let s := { s with eocia := { s.eocia with pending := s.eocia.pending.map fun p => if p.wait = .evicted q then { p with reported := [len] } else p } }
      let s := fixFate n true [] none e
        { Fate.plain { e with state := .evicted, evictStage := 0 } with recs := [{ bareRecord with final := true, ending := 4 }] } s
      writeHusk q a.1 (e.prod + 1) s

/-- The stamps of an eviction at the home slice. -/
def evictStamp (n : Nat) (e : ReqEntry) (s : State) : State := if e.evictStage = 1 then evictBegins n e s else evictEnds n e s

/-- The husk of a request is written: its final record follows (R353). -/
def huskWritten (q : Nat) (s : State) : State :=
  match reqOf s q with
  | none => s
  | some e =>
    match e.lastOutcome with
    | some o => if e.state = .evicted then writeRecords e o.step o.firstSeq o.records s else s
    | none => s

/-- The stamp of step n for one request that this slice homes. -/
def stampReq (n : Nat) (q : Nat) (s : State) : State :=
  match reqOf s q with
  | none => s
  | some e =>
    if e.state.terminal || e.state = .free || scrubbing s e.info.part then s
    else if e.state = .admitted then
      let t := admitStamp n e s
      if ((reqOf t q).any fun x => x.state == .admitted) then
        dropChanges q n (fun c => c == .cancel)
          (if (settingsIn (dueChanges s q n)).isEmpty then t else fixFate n false (settingsIn (dueChanges s q n)) none e (Fate.plain e) t)
      else dropChanges q n (fun _ => false) t
    else if e.state = .draining then
      if s.group.failAll then fixFate n false [] none e (failFate e) s
      else if e.moveStage = 1 then dropChanges q n (fun _ => false) (moveOut n e s)
      else if e.moveStage = 2 then moveEnd n e s
      else s
    else if e.evictStage ≠ 0 && !s.group.failAll then evictStamp n e s
    else
      dropChanges q n (fun _ => false) (fixFate n false (settingsIn (dueChanges s q n)) none e (fateOf s n e) s)

/-! ## PUBLISH: an outcome applied on a slice (R59, R62, R136, R148, R164, R212, R217, R220) -/

/-- Settings in force: predictor cold after a change of T, k, p or m (R135, R148). -/
def putSettings (x : Settings) (cold : Bool) (e : ReqEntry) : ReqEntry :=
  { e with info := { e.info with settings := x }, pred := if cold then Pred.cold else e.pred }

/-- Jars bumped for the tokens in this slice's runs (R164, R255). -/
def bumpJars (s : State) (run : List Nat) (e : ReqEntry) : ReqEntry :=
  let mine := run.filter (inRuns (myRuns s))
  if mine.isEmpty then e
  else { e with jars := mine.foldl (fun j t => putJar (offsetIn (myRuns s) t) 1 j) e.jars, sharing := none }

/-- A request's entry, lines and rows released (R240). -/
def releaseReq (q : Nat) (s : State) : State :=
  match reqOf s q with
  | none => s
  | some e =>
    let s := dropReqRows q (freeLines e.info.part (.window q) s)
    acornSweep { s with reqs := s.reqs.filter fun x => x.req != q
                        pot := { s.pot with cached := s.pot.cached.filter fun l => l.1 != q }
                        keeper := { s.keeper with marks := s.keeper.marks.filter fun m => m.req != q } }

/-- A row of a carried request that was scored in place must now be held: without room it is rejected (R62). -/
def holdCarried (r : RowRec) (s : State) : State :=
  if r.hold ≠ .none then s
  else
    let n := rowLines r
    match allocLines r.part (.row (rowKeyOf r) r.stepSeq) n s with
    | .ok t => { t with rows := t.rows.map fun x => if x = r then { x with hold := .lines n } else x }
    | .error _ => rowGone r.id r.useStep (rejectRow r .noSpace { s with rows := s.rows.erase r })

/-- Rows of a request after its outcome of step n: freed with a commit, held with a carry (R62, R112). -/
def rowsAfter (o : ReqOutcome) (s : State) : State :=
  if !o.tokens.isEmpty then
    let used := fun (r : RowRec) => ofReq o.req r && r.useStep ≤ o.step
    let f := (s.rows.find? used).map fun r => r.stepSeq % 65536
    dropRows used (updReq o.req (fun e => { e with usedField := f }) s)
  else match o.heldStep with
    | some k => (s.rows.filter fun r => ofReq o.req r && r.useStep ≤ o.step && r.stepSeq % 65536 == k % 65536).foldl (fun s r => holdCarried r s) s
    | none => s

/-- Commands that wait for a change of state which another slice decided (R225, R229). -/
def stateWaits (q : Nat) (st : ReqState) (s : State) : State :=
  let s := if st = .free then finish (fun p => p.wait == .admission q) (fun _ => .badArg) (fun _ => []) s
    else if st ≠ .admitted && st ≠ .draining then finish (fun p => p.wait == .admission q) (fun _ => .ok) (fun _ => []) s else s
  if st ≠ .draining then finish (fun p => p.wait == .moved q) (fun _ => .ok) (fun _ => []) s else s

/-- An outcome applied on a slice. -/
def applyOutcome (o : ReqOutcome) (s : State) : State :=
  let q := o.req
  match reqOf s q with
  | none => s
  | some e =>
    let st := ReqState.ofCode o.state
    let s := stateWaits q st s
    if st = .free then releaseReq q s
    else
      let n := o.tokens.length
      let upd := fun (e : ReqEntry) =>
        let x := bumpJars s o.tokens { e with draws := (e.draws + n) % 2 ^ 32, windowLen := (e.windowLen + n) % 65536
                                              outLeft := e.outLeft - n, hasToken := e.hasToken || n ≠ 0
                                              pred := if o.predict then predictUpdate o.kmax o.kcut else e.pred }
        let x := { x with prior := if st = .draining && e.state ≠ .draining then e.state else e.prior
                          heldStep := if st = .draining then e.heldStep else o.heldStep, state := st, lastOutcome := some o }
        let x := match o.fixed with | some y => putFixed y x | none => x
        match o.settings with | some y => putSettings y o.cold x | none => x
      let s := updReq q upd s
      let s := if n = 0 then s else
        updTenant e.info.tenant (fun t => { t with balance := t.balance - n, debited := t.debited + n, committed := t.committed + n }) s
      rowsAfter o s

/-! ## The two limits as happenings of their own (R65, R236, R237) -/

/-- The step whose stamp a limit belongs to: the open one. -/
def limitStep (s : State) : Nat := s.step.step

/-- LATE_LIMIT: the eighth consecutive stamp without a token of a request homed here; one without an allowance becomes THROTTLED (R249). -/
def lateLimit (q : Nat) (s : State) : State :=
  match reqOf s q with
  | none => s
  | some e =>
    if e.state = .late && e.lateCount = 7 && homedHere s e && s.step.opened && !(scrubbing s e.info.part) then
      fixFate (limitStep s) false [] none e (if e.allowance = 0 then rowFate s.timer (limitStep s) none e else lateEnd e) s
    else s

/-- RING_STALL_LIMIT: the 256th consecutive stall of a request homed here; one without an allowance fares as R249 to R251 say. -/
def stallLimit (q : Nat) (s : State) : State :=
  match reqOf s q with
  | none => s
  | some e =>
    if e.stallSteps = 255 && e.state.takesRows && homedHere s e && s.step.opened && !(scrubbing s e.info.part) then
      fixFate (limitStep s) false [] none e (if e.allowance = 0 then rowFate s.timer (limitStep s) none e else stallEnd e) s
    else s

/-! ## Meanings -/

/-- LATE_LIMIT. -/
def execLateLimit (q : Nat) (s : State) : Host.Outcome State Fault Refusal := .next (lateLimit q s)

/-- RING_STALL_LIMIT. -/
def execRingStallLimit (q : Nat) (s : State) : Host.Outcome State Fault Refusal := .next (stallLimit q s)

end Sys2Proof.Machine
end

