-- ==== Sys2Proof/Machine/Partition.lean ====
section
/-! DEFINITION. What a partition holds, its keys, the kill and scrub of a partition, the authenticated unlock, and the state that
formation and a drain clear (R264, R326, R392 to R400, R403, R405, R407, R449, R453; Tables 19.3a, 19.8, 21.8). -/

namespace Sys2Proof.Machine

/-! ## Eocia runs again (R344, R410, R469) -/

/-- Log records held and results that waited are written and delivered when Eocia runs again. -/
def eociaResumes (s : State) : State :=
  let recs := s.tele.held
  let s := if s.dbg.halted.getLsbD 0 then s
    else recs.foldl (fun s r => logWrite r s) { s with tele := { s.tele with held := [] } }
  if !(eociaRuns s) then s
  else
    let l := s.eocia.ready
    l.foldl (fun s r => deliver r.2.1.part r.2.1.origin r.2.1.tag r.2.2.1 r.2.2.2
        (trace 1 2 1 (r.2.2.1.setWidth 32) (BitVec.ofNat 64 (Op.code r.1)) s))
      { s with eocia := { s.eocia with ready := [] } }

/-! ## Keys (R398 to R400) -/

/-- K_WRAP: HKDF with SHA-384 over FRK, salt FORM_ID, info "kydielle wrap" (R399). -/
def kWrap (s : State) : Bytes :=
  let info := leBytes 4 s.group.formId ++ "kydielle wrap".toList.map fun c => BitVec.ofNat 8 c.toNat
  (List.range 32).map fun i => Config.hkdfByte (leBytes 32 s.sec.fuses.frk.toNat) info i

/-- A key wrapped under K_WRAP: 40 bytes (Table 21.9). -/
def wrapKey (s : State) (k : Bytes) : Bytes := (List.range 40).map fun i => Config.wrapByte (kWrap s) k i

/-- A key set held by the slice; the same set again changes nothing. -/
def putKeys (k : KeySet) (s : State) : State :=
  if (keySetOf s k.part).any fun x => x.keyId == k.keyId then s
  else { s with sec := { s.sec with keySets := s.sec.keySets.filter (fun x => x.part != k.part) ++ [k] }
                regs := { s.regs with keys := s.regs.keys ||| BitVec.twoPow 12 k.part } }

/-- The first nonzero word of a list of draws; 1 when all are zero (KEY_ID is nonzero, R399; log entry 10). -/
def nonzeroWord (b : Bytes) : Word := (((List.range 8).map fun i => wordAt b (4 * i)).find? (· ≠ 0)).getD 1

/-- A new key set of a partition from the DRBG; none after a failed health test (R398, R399). -/
def newKeys (p : Nat) (s : State) : State :=
  if s.regs.secFault then s
  else
    let a := drbg 128 s
    putKeys ⟨p, nonzeroWord (sub a.1 96 32), sub a.1 0 32, sub a.1 32 32, sub a.1 64 32, 0, 0⟩ a.2

/-- A partition's key set as it travels (R399). -/
def wrapped (s : State) (k : KeySet) : WrappedKeys := ⟨k.part, k.keyId, [wrapKey s k.kSt, wrapKey s k.kHk, wrapKey s k.kSp]⟩

/-- The partition holder makes a key set and distributes it in STATE_SYNC (R399). -/
def renewKeys (p : Nat) (s : State) : State :=
  if holderOf s p ≠ me s then s
  else
    let s := newKeys p s
    match keySetOf s p with
    | some k => announceOut (stepNow s) (.keys (wrapped s k)) s
    | none => s

/-- A distributed key set unwrapped: none under another root key (R400). -/
def unwrapKeys (s : State) (k : WrappedKeys) : Option KeySet :=
  match (k.keys.map fun b => Config.unwrap (kWrap s) b) with
  | [some a, some b, some c] => some ⟨k.part, k.keyId, a, b, c, 0, 0⟩
  | _ => none

/-- A key set arrives: held, or SEC_ROOT_MISMATCH (R400). -/
def keysArrive (k : WrappedKeys) (s : State) : State :=
  match unwrapKeys s k with
  | some x => putKeys x s
  | none => alarm 0x1E (BitVec.ofNat 64 (me s)) s

/-- ENTROPY_FAIL: no key is made until PD_SEC is reset; the sets held stay in use (R398). -/
def entropyFail (s : State) : State := alarm 0x1D 0 { s with regs := { s.regs with secFault := true } }

/-! ## What a partition holds (Table 19.1) -/

/-- The partition that a change concerns. -/
def syncPart (s : State) : Sync → Option Nat
  | .outcome o => (reqOf s o.req).map (·.info.part)
  | .admitted _ i _ _ _ _ _ _ _ _ _ _ => some i.part
  | .loadReport q _ | .rowReport q _ _ | .rowLost q _ | .rowFreed q _ | .home q _ | .homeState q _ | .evict q | .cancelMark q | .coldPred q | .released q => (reqOf s q).map (·.info.part)
  | .tenant u (.bind p _) => some (((tenantOf s u).map (·.part)).getD p)
  | .tenant u _ => (tenantOf s u).map (·.part)
  | .maskLoad p _ _ | .maskDelete p _ | .biasLoad p _ _ _ | .biasDelete p _ | .objReport p _ _ _ | .objApplied p _ _ => some p
  | .acornMake p _ _ _ | .acornReport p _ _ _ | .acornSettled p _ _ _ | .acornUse p _ _ _ | .acornTake p _ _ | .acornDrop p _ => some p
  | .variantReg p _ | .variantDrop p _ | .head p _ | .headUnload p | .backing p _ _ _ | .kill p => some p
  | .trainOpen p _ => some p
  | .trainForward _ | .trainBackward _ _ | .trainNorm _ | .trainUpdate _ | .trainClose | .slotReady _ _
  | .maskPrune _ _ _ | .maskBarrier _ _ | .maskDiscard | .tileLost _ _ => s.training.map (·.part)
  | .keys k => some k.part
  | .overlay p _ _ _ | .copyVariant p _ _ _ | .copyObj _ p _ _ _ | .copyAcorn p _ _ | .copySession p _ _ _ _ _ _ _ _ _ => some p
  | .copyReq _ _ _ _ i _ _ _ _ => some i.part
  | .copyTenant _ p _ _ _ _ _ _ => some p
  | .rangeStored | .drain _ | .rejoin _ | .joining _ _ _ _ | .join _ | .stepEnd => none

/-- HMP traffic of a partition is given up: nothing waits for it any more and nothing new of it is issued (Table 19.3a, order 4). -/
def dropTraffic (p : Nat) (s : State) : State :=
  let kept := s.hmp.txns.filter fun t => t.part != p || (t.tag.isSome && !t.waiting)
  { s with hmp := { s.hmp with jobs := s.hmp.jobs.filter (fun j => j.part != p)
                               txns := kept.map fun t => if t.part = p then { t with after := .nothing } else t } }

/-- The command for which host memory is being read. -/
def purposeCmd : Purpose → Option (Op × Cmd)
  | .admission op c _ _ => some (op, c)
  | .headImage c _ => some (.headLoad, c)
  | .overlayImage c _ | .overlayVoid c => some (.overlayLoad, c)
  | .rangeTable c _ _ => some (.rangeLoad, c)
  | .husk c _ _ => some (.huskResume, c)
  | .fwImage c => some (.fwStage, c)
  | .sessionDesc c => some (.trainOpen, c)
  | .microDesc c _ => some (.trainForward, c)
  | _ => none

/-- Training commands that wait for their turn on the session holder. -/
def waitingCmds (s : State) : List (Op × Cmd) :=
  match s.training with
  | none => []
  | some t => (t.waiting.toList.map fun x => (Op.trainForward, x.1)) ++ t.waitingBwd.toList.map fun c => (Op.trainBackward, c)

/-- Acknowledgements of commands that are gone accept nothing: the marks of those commands, in order, say so no more (R414). -/
def voidMarks : List (Nat × Bool) → List Bool → List (Nat × Bool)
  | [], _ => []
  | u :: us, gs => match u.2, gs with
    | true, g :: gs => (u.1, !g) :: voidMarks us gs
    | _, _ => u :: voidMarks us gs

/-- Every command of a partition that has entered and not completed ends with a status. -/
def endCommands (p : Nat) (st : Status) (s : State) : State :=
  let mine := fun (x : Op × Cmd) => x.2.part == p
  let reading := (s.hmp.jobs.filter fun j => j.part == p).filterMap fun j => purposeCmd j.purpose
  let l := (s.eocia.inbox ++ s.eocia.awaitAck ++ s.eocia.deferred).filter mine ++ reading ++ (waitingCmds s).filter mine
  let rest := fun (l : List (Op × Cmd)) => l.filter fun x => !(mine x)
  let s := finish (fun x => x.cmd.part == p) (fun _ => st) (fun _ => []) s
  let gone := (s.eocia.awaitAck.filter fun x => !(readsOnly x.1)).map mine
  let s := { s with keeper := { s.keeper with unacked := voidMarks s.keeper.unacked gone }, eocia := { s.eocia with
    inbox := rest s.eocia.inbox, awaitAck := rest s.eocia.awaitAck, deferred := rest s.eocia.deferred
    ready := s.eocia.ready.map fun x => if x.2.1.part = p then (x.1, x.2.1, st.code, []) else x } }
  l.foldl (fun s x => complete x.1 x.2 st [] s) s

/-- Commands of a partition that this slice forwarded: their mailbox reads SCRUBBING, and their results find nothing (Table 15.11). -/
def endForwardedOf (p : Nat) (s : State) : State :=
  let l := s.eocia.forwarded.filter fun f => f.part = p
  l.foldl (fun s f => deliver p (match f.queue with | none => .mailbox | some b => .queue b) f.tag Status.scrub.code [] s)
    { s with eocia := { s.eocia with forwarded := s.eocia.forwarded.filter fun f => f.part != p } }

/-- Requests, rows, merges and announced changes of a partition end with no record (Table 19.3a, orders 3 and 5). -/
def clearRequests (p : Nat) (s : State) : State :=
  let qs := (s.reqs.filter fun e => e.info.part == p).map (·.req)
  { s with
    eocia := { s.eocia with changes := s.eocia.changes.filter fun c => !(qs.contains c.1) }
    held := s.held.filter fun m => syncPart s m.item != some p
    rows := s.rows.filter fun r => r.part != p
    merges := s.merges.filter fun m => m.part != p
    verdicts := s.verdicts.filter fun v => !(qs.contains v.req)
    keeper := { s.keeper with marks := s.keeper.marks.filter (fun m => m.part != p)
                              commands := s.keeper.commands.filter fun c => c.2.part != p }
    reqs := s.reqs.map fun e => if e.info.part = p then
      { e with state := .free, jars := [], sharing := none, window := [], shares := [], heldStep := none, released := true } else e }

/-- The training session of a partition closes; its beats that are not sent are dropped (Table 19.3a, orders 2 and 3). -/
def clearTraining (p : Nat) (s : State) : State :=
  let s := if sessionIn s p then
      endSession { s with gbpA := { s.gbpA with waiting := [] }, gbpB := { s.gbpB with waiting := [] } }
    else s
  { s with plans := s.plans.filter fun x => x.part != p }

/-- Tenants of a partition are unbound (Table 19.3a, order 3). -/
def clearTenants (p : Nat) (s : State) : State :=
  { s with tenants := s.tenants.map fun t =>
      if t.bound && t.part = p then { t with bound := false, balance := 0, drained := t.drained + t.balance } else t }

/-- Objects, heads, strip copies and backing registrations of a partition (Table 19.3a, orders 5 to 7). -/
def clearObjects (p : Nat) (s : State) : State :=
  { s with
    masks := s.masks.filter fun m => m.part != p
    biases := s.biases.filter fun m => m.part != p
    acorns := s.acorns.filter fun m => m.part != p
    variants := s.variants.filter fun m => m.part != p
    heads := s.heads.filter fun h => h.part != p
    announced := s.announced.filter fun a => a.2.1 != p
    backings := s.backings.filter fun b => b.part != p
    overlayImages := s.overlayImages.filter fun b => b.part != p
    place := { s.place with heat := s.place.heat.filter (fun x => x.1.part != p), copies := s.place.copies.filter (fun x => x.1.part != p)
                            inFlight := s.place.inFlight.filter (fun x => x.1.part != p)
                            banks := s.place.banks.filter (fun x => x.1.part != p), dirty := s.place.dirty.filter (fun x => x.2 != p)
                            streamed := s.place.streamed.filter (·.part != p), released := s.place.released.filter (·.part != p)
                            trained := s.place.trained.filter (·.part != p), streams := s.place.streams.filter fun x => x.1.part != p } }

/-- Scratch of a partition becomes LEAVING (Table 19.3a, order 5). -/
def leaveScratch (p : Nat) (s : State) : State :=
  { s with pot := { s.pot with blocks := s.pot.blocks.map fun b => if b = .owned p then .leaving p else b
                               uses := s.pot.uses.filter (fun u => u.part != p), lines := s.pot.lines.filter fun u => u.part != p } }

/-- LEAVING blocks of a partition become FREE, zeroed (Table 19.3a, orders 6 and 9). -/
def freeLeaving (p : Nat) (s : State) : State :=
  { s with pot := { s.pot with blocks := s.pot.blocks.map fun b => if b = .leaving p then .free else b } }

/-- The partition's key set is zeroised (Table 19.3a, order 7). -/
def clearKeys (p : Nat) (s : State) : State :=
  { s with sec := { s.sec with keySets := s.sec.keySets.filter fun k => k.part != p }
           regs := { s.regs with keys := s.regs.keys &&& ~~~(BitVec.twoPow 12 p) } }

/-- Orders 3 to 5 and 7 of Table 19.3a. Scratch becomes LEAVING before the session ends, so no block of a selection or a plan is freed (R102,
R144). -/
def clearPart (p : Nat) (s : State) : State :=
  clearKeys p (clearObjects p (clearTenants p (clearTraining p (leaveScratch p (clearRequests p (dropTraffic p s))))))

/-! ## The kill (R395, R396) -/

/-- Doorbells of a partition that are not sent yet go (Table 19.3a, order 2). -/
def dropDoorbells (p : Nat) (s : State) : State :=
  let keep := fun (r : EvtRec) => !(r.kind == 1 && field (leAt r.bytes 0 4) 8 4 == p)
  let other := fun (x : Publication) => (reqOf s x.req).all fun e => e.info.part != p
  { s with evt := { s.evt with queue := s.evt.queue.filter keep, pendingList := s.evt.pendingList.filter keep, late := s.evt.late.filter other } }

/-- A kill takes effect on a slice, on arrival (R395, Table 19.3a orders 1 to 7). -/
def applyKill (p : Nat) (s : State) : State :=
  if p ≥ 12 || scrubbing s p then s
  else
    let live := s.reqs.filter fun e => e.info.part == p && !e.state.terminal && e.state != .free && homedHere s e
    let bit := BitVec.twoPow 12 p
    let k : Kill := ⟨p, [], live.length⟩
    let s := { s with regs := { s.regs with scrub := s.regs.scrub ||| bit, frozenPart := s.regs.frozenPart &&& ~~~bit }
                      violations := s.violations.filter (fun v => v.1 != Master.part p)
                      sec := { s.sec with kills := s.sec.kills ++ [k] } }
    let s := dropFetch p { s with mbx := updAt s.mbx p fun m => { m with cqEn := false } }
    clearPart p (dropDoorbells p (endForwardedOf p (endCommands p .scrub s)))

/-- A kill starts on this slice: flooded, and applied here (R395). -/
def startKill (p : Nat) (s : State) : State :=
  if p ≥ 12 || scrubbing s p then s else applyKill p (announceOut (stepNow s) (.kill p) s)

/-- The end of a scrub, once every member has reported (Table 19.3a, order 9). -/
def finishKill (k : Kill) (s : State) : State :=
  let p := k.part
  let s := freeLeaving p s
  let s := { s with
    reqs := s.reqs.filter fun e => e.info.part != p
    mbx := updAt s.mbx p fun m => { Mailbox.reset with irqEn := m.irqEn }
    regs := { s.regs with scrub := s.regs.scrub &&& ~~~(BitVec.twoPow 12 p) }
    sec := { s.sec with kills := s.sec.kills.filter fun x => x.part != p } }
  renewKeys p (log 0x06 p (BitVec.ofNat 64 (p + (k.killedReqs % 65536) * 2 ^ 16)) s)

/-- Every kill that all members have reported ends (R396: survivors only, after a loss). -/
def checkKills (s : State) : State :=
  (s.sec.kills.filter fun k => (members s).all fun m => k.reported.contains m).foldl (fun s k => finishKill k s) s

/-- A slice reports the end of its scrub; this slice's own end is reported to every member (Table 19.3a, orders 6 and 8). -/
def scrubReported (n p : Nat) (s : State) : State :=
  match s.sec.kills.find? fun k => k.part == p with
  | none => s
  | some k =>
    if k.reported.contains n then s
    else
      let s := if n = me s then flood (.scrubDone p) s else s
      let l := updFirst (fun (k : Kill) => k.part == p) (fun k => { k with reported := addOnce k.reported n }) s.sec.kills
      checkKills { s with sec := { s.sec with kills := l } }

/-! ## The authenticated unlock (R405, R466) -/

/-- SLICE_ID as its register reads (Table 16.3). -/
def sliceIdWord (s : State) : Word :=
  BitVec.ofNat 32 (me s + s.regs.sliceOvr.toNat * 2 ^ 8 + b01 s.regs.sliceOvrEn * 2 ^ 15)

/-- Bits of bytes, least significant first. -/
def bitsOf (b : Bytes) : List Bool := b.flatMap fun x => (List.range 8).map fun i => x.getLsbD i

/-- UNLOCK Capture-DR: a fresh challenge in LOCKED, unless it is withheld (R405). -/
def unlockCapture (s : State) : State :=
  let zero := { s with dbg := { s.dbg with tapIr := 0x03, tapDr := List.replicate 1536 false } }
  if !s.sec.locked || s.sec.withheld || s.sec.unlocked then zero
  else
    let a := drbg 48 zero
    { a.2 with sec := { a.2.sec with challenge := some a.1 }
               dbg := { a.2.dbg with tapDr := bitsOf a.1 ++ List.replicate 1152 false } }

/-- A key and signature answer a challenge (R405, Table 19.5). -/
def unlockOk (s : State) (challenge key sig : Bytes) : Bool :=
  Config.sha384 key == s.sec.fuses.dbgRoot && Config.ecdsaOk key (challenge ++ leBytes 4 (sliceIdWord s).toNat) sig

/-- UNLOCK Update-DR: one attempt per challenge; a good one resumes halted targets and kills every partition (R405, R469). -/
def unlockUpdate (key sig : Bytes) (s : State) : State :=
  let s := { s with dbg := { s.dbg with tapIr := 0x03 } }
  match s.sec.challenge with
  | none => s
  | some ch =>
    let s := { s with sec := { s.sec with challenge := none } }
    if unlockOk s ch key sig then
      let s := eociaResumes { s with dbg := { s.dbg with halted := 0 }, sec := { s.sec with unlocking := true } }
      (List.range 12).foldl (fun s p => startKill p s) s
    else alarm 0x21 0 { s with sec := { s.sec with withheld := true } }

/-- UNLOCK_DONE: every scrub of the unlock has ended (R405). -/
def unlockDone (s : State) : State :=
  if s.sec.unlocking && s.regs.scrub = 0 then { s with sec := { s.sec with unlocking := false, unlocked := true } } else s

/-- The next challenge is available again (R405). -/
def holdoffEnds (s : State) : State := { s with sec := { s.sec with withheld := false } }

/-- FUSE Update-DR: in OPEN, with VDD_FUSE present, each 1 bit of the value is programmed (R403, R466, R472). -/
def fuseWrite (word : Nat) (v : BitVec 384) (vdd : Bool) (s : State) : State :=
  if s.sec.locked then { s with dbg := { s.dbg with tapIr := 0x04, tapDr := [false] } }
  else
    let s := { s with dbg := { s.dbg with tapIr := 0x04 } }
    let f := s.sec.fuses
    let put := fun (f : Fuses) => { s with sec := { s.sec with fuses := f } }
    if !vdd then s
    else if word = 0 then put { f with lifecycle := f.lifecycle ||| v.setWidth 2 }
    else if word = 1 then put { f with frk := f.frk ||| v.setWidth 256 }
    else if word = 2 then put { f with fwRoot := f.fwRoot ||| v }
    else if word = 3 then put { f with dbgRoot := f.dbgRoot ||| v }
    else if word = 4 then put { f with minSvn := f.minSvn ||| v.setWidth 64 }
    else s

/-! ## Service state as formation and a drain clear it (R449, R453, R454) -/

/-- Everything but registers of every partition goes, with no record; commands that have not completed answer BUSY. -/
def clearService (s : State) : State :=
  let s := (List.range 12).foldl (fun s p => freeLeaving p (clearPart p (endCommands p .busy s))) s
  { s with reqs := [], rows := [], merges := [], verdicts := [], held := [], tenants := []
           eocia := { s.eocia with changes := [], forwarded := [] }
           keeper := { source := 64, kept := 64, marks := [], commands := [], ackDue := [], unacked := [], ackedStep := 0, got := [], reading := 0 } }

/-- A command that this slice forwarded and that has no result ends with BUSY (Table 15.11). -/
def endForwarded (s : State) : State :=
  s.eocia.forwarded.foldl (fun s f =>
    deliver f.part (match f.queue with | none => .mailbox | some b => .queue b) f.tag Status.busy.code [] s)
    { s with eocia := { s.eocia with forwarded := [] } }

/-- Solo service begins (R449, R450): one slice, its own steps, its own keys, 12 pans at 350 MHz. A drain ends every fence. -/
def enterSolo (s : State) : State :=
  let s := clearService (endForwarded s)
  let g := Group.reset (me s) s.group.size
  let s := { s with
    group := { g with lastForm := s.group.lastForm, joinForm := s.group.joinForm, lastStep := max s.group.lastStep (if s.group.formed then s.step.step else 0)
                      peers := s.group.peers, formId := 0 }
    step := { StepSt.reset with period := s.regs.stepPeriod }
    power := { s.power with fenced := [], req := s.power.req &&& ~~~(BitVec.ofNat 148 (2 ^ 48 - 1))
                            ack := s.power.ack &&& ~~~(BitVec.ofNat 148 (2 ^ 48 - 1)), on := s.power.on &&& ~~~(BitVec.ofNat 148 (2 ^ 48 - 1)) } }
  powerPlan ((List.range 12).foldl (fun s p => newKeys p s) s)

/-! ## Meanings -/

/-- PART_SCRUB_DONE. -/
def execPartScrubDone (n p : Nat) (s : State) : Host.Outcome State Fault Refusal := .next (scrubReported n p s)

/-- ENTROPY_FAIL. -/
def execEntropyFail (s : State) : Host.Outcome State Fault Refusal := .next (entropyFail s)

/-- TAP_UNLOCK_CAPTURE. -/
def execTapUnlockCapture (s : State) : Host.Outcome State Fault Refusal := .next (unlockCapture s)

/-- TAP_UNLOCK_UPDATE. -/
def execTapUnlockUpdate (key sig : Bytes) (s : State) : Host.Outcome State Fault Refusal := .next (unlockUpdate key sig s)

/-- UNLOCK_DONE. -/
def execUnlockDone (s : State) : Host.Outcome State Fault Refusal := .next (unlockDone s)

/-- UNLOCK_HOLDOFF_EXPIRY. -/
def execUnlockHoldoffExpiry (s : State) : Host.Outcome State Fault Refusal := .next (holdoffEnds s)

/-- TAP_FUSE. -/
def execTapFuse (word : Nat) (v : BitVec 384) (vdd : Bool) (s : State) : Host.Outcome State Fault Refusal := .next (fuseWrite word v vdd s)

end Sys2Proof.Machine
end

