-- ==== Sys2Proof/Machine/Manage.lean ====
section
/-! DEFINITION. Ranges that move between slices: the division of a hole's runs, jars and strips handed over, SLICE_DRAIN, SLICE_REJOIN,
joining as an idle member; Eocia images and FW_STAGE (R18, R404, R420 to R422, R425, R429 to R431, R447; Tables 19.6, 20.5). -/

namespace Sys2Proof.Machine

/-! ## Division of a hole's runs (R420) -/

/-- The runs that the range table gives slice n, hole or not. -/
def tableRuns (s : State) (n : Nat) : List RangeEntry :=
  if s.group.idle.contains n then []
  else ((s.group.ranges[n]?).toList ++ (s.group.second.filter fun p => p.1 == n).map (·.2)).filter fun r => r.count > 0

/-- Chunks in runs. -/
def chunkCount (rs : List RangeEntry) : Nat := total (rs.map (·.count))

/-- A member holds one run: its range, which may be empty, and no second run (R16, R18). -/
def holdsOneRun (s : State) (n : Nat) : Bool :=
  !(isHole s n) && !(s.group.idle.contains n) && !(s.group.second.any fun p => p.1 == n && p.2.count > 0)

/-- Takers of slice h: the members that hold one run, from its successor on (R420). -/
def takersOf (s : State) (h : Nat) : List Nat :=
  ((List.range (s.group.size - 1)).map fun i => (h + 1 + i) % s.group.size).filter (holdsOneRun s)

/-- A run cut into m contiguous pieces, the first ones a chunk longer (R420, R19). -/
def cutRun' (r : RangeEntry) (m : Nat) : List RangeEntry :=
  let base := r.count / m
  let extra := r.count % m
  (List.range m).map fun i => { first := r.first + i * base + min i extra, count := base + (if i < extra then 1 else 0) }

/-- Pieces given to takers in order; a taker without room is passed over; what is left stays uncovered. -/
def givePieces (room : Nat → Nat) : List RangeEntry → List Nat → List (Nat × RangeEntry) × List RangeEntry × List Nat
  | [], ts => ([], [], ts)
  | r :: rs, ts =>
    match ts.dropWhile fun n => room n < r.count with
    | [] => let x := givePieces room rs []; (x.1, r :: x.2.1, x.2.2)
    | n :: ts => let x := givePieces room rs ts; ((n, r) :: x.1, x.2.1, x.2.2)

/-- The division of runs among takers: pieces by taker, and the uncovered pieces (R420, R425). -/
def divide (room : Nat → Nat) : List RangeEntry → List Nat → List (Nat × RangeEntry) × List RangeEntry
  | [], _ => ([], [])
  | r :: rs, ts =>
    let m := min 16 (min ts.length r.count)
    if m = 0 then let x := divide room rs ts; (x.1, r :: x.2)
    else
      let a := givePieces room (cutRun' r m) ts
      let x := divide room rs a.2.2
      (a.1 ++ x.1, a.2.1 ++ x.2)

/-- The division of slice h's runs. -/
def divisionOf (s : State) (h : Nat) : List (Nat × RangeEntry) × List RangeEntry :=
  divide (fun n => 1024 - chunkCount (runsOf s n)) (tableRuns s h) (takersOf s h)

/-- Slices whose runs are being handed over: the holes of a regroup, or a draining member. -/
def leavingSlices (s : State) : List Nat :=
  match s.group.regroup, s.group.drain with
  | some r, _ => r.holes
  | none, some d => if d.rejoin then [] else [d.slice]
  | none, none => []

/-- The division of several slices' runs, one after the other. -/
def divisionAll (s : State) : List Nat → List (Nat × RangeEntry) × List RangeEntry
  | [] => ([], [])
  | h :: hs =>
    let d := divisionOf s h
    let x := divisionAll { s with group := { s.group with second := (s.group.second.filter fun p => p.1 != h) ++ d.1 } } hs
    (d.1 ++ x.1, d.2 ++ x.2)

/-- Runs that are coming to this slice: pieces of a hole or a draining member, or the pending range of a rejoin. -/
def comingRuns (s : State) : List RangeEntry :=
  match leavingSlices s with
  | h :: hs => ((divisionAll s (h :: hs)).1.filter fun p => p.1 == me s).map (·.2)
  | [] =>
    match s.group.drain with
    | some d => if d.slice = me s then (s.group.ranges[me s]?).toList else []
    | none => []

/-! ## Jars handed over (R422, R429, R431) -/

/-- Chunk records that lie in runs. -/
def recordsIn (rs : List RangeEntry) (l : List ChunkRec) : List ChunkRec := l.filter fun r => inRuns rs (256 * r.chunk)

/-- This slice's jars of every request for some runs, sent to a slice. -/
def sendJars (dest : Nat) (rs : List RangeEntry) (s : State) : State :=
  s.reqs.foldl (fun s e =>
    let l := recordsIn rs (ownShare s e)
    if l.isEmpty then s else send dest (.jarShare e.req l) s) s

/-- JAR_SHARE arrives: records of runs that are coming to this slice are kept until the runs move, under the mark 64; any other share
is an eviction's (R260, R422). -/
def jarShareArrives (src q : Nat) (l : List ChunkRec) (s : State) : State :=
  let mine := comingRuns s
  let mark := if !mine.isEmpty && l.all (fun r => inRuns mine (256 * r.chunk)) then 64 else src
  updReq q (fun e => { e with shares := e.shares ++ [(mark, l)] }) s

/-! ## Strips read (R421) -/

/-- The slice whose image holds a run's strips: the one whose first run it lies in. -/
def imageOwner (s : State) (r : RangeEntry) : Nat :=
  ((List.range s.group.size).find? fun n => match s.group.ranges[n]? with | some x => inRuns [x] (256 * r.first) | none => false).getD 64

/-- Every strip that this slice takes is read from the images of the slices that leave and of the run's first owner (R421), and with them
the words of the mask objects and bias lists for its new run. -/
def readTaken (s : State) : State :=
  let mine := comingRuns s
  (fun s => if mine.isEmpty then s else fetchObjects mine s) <| mine.foldl (fun s r =>
    let hs := addOnce (leavingSlices s) (imageOwner s r)
    let s := (s.announced.filter fun a => hs.contains a.1 && a.2.2.len > 0).foldl (fun s a =>
      hmpRead a.2.1 a.2.2.addr a.2.2.len .rdb (.takeover a.2.1 0 a.2.2.addr r) s) s
    (s.overlayImages.filter fun o => hs.contains o.slice && o.len > 0).foldl (fun s o =>
      hmpRead o.part o.addr o.len .rdb (.takeover o.part o.variant o.addr r) s) s) s

/-- The slice holds every strip of a run, for each of its heads. -/
def stripsHeld (s : State) (r : RangeEntry) : Bool :=
  s.heads.all fun h => (stripFirsts [r] (vocab s)).all fun f => h.strips.any fun x => x.first == f

/-- Chunks that this slice cannot serve: RANGE_UNCOVERED, and no row is scored here until they are covered (R425). -/
def uncover (rs : List RangeEntry) (s : State) : State :=
  rs.foldl (fun s r => if s.group.uncovered.contains r then s else
    alarm 0x13 (BitVec.ofNat 64 (r.first + r.count * 2 ^ 14))
      { s with group := { s.group with uncovered := s.group.uncovered ++ [r] } }) s

/-- A second run of this slice whose strips are missing is uncovered; one whose strips are there is covered (R421, R425). -/
def coverCheck (s : State) : State :=
  let mine := (s.group.second.filter fun p => p.1 == me s).map (·.2)
  let s := { s with group := { s.group with uncovered := s.group.uncovered.filter fun r => !(mine.contains r && stripsHeld s r) } }
  uncover (mine.filter fun r => !(stripsHeld s r)) s

/-- A strip of a variant agrees with the head that it joins: HEAD_ID, BLOCKS, FORMAT, STRUCT, KIND and VARIANT (R78, R85, R320). -/
def stripFits (h : Head) (v : Nat) (x : Strip) : Bool :=
  stripOk x.image &&
    if v = 0 then
      match stripHdr x.image with
      | some y => !y.overlay && y.headId == h.id.headId && y.blocks == h.id.blocks && y.fmtCode == h.id.format && y.structCode == h.id.struct
      | none => false
    else overlayFits h v x

/-- Strips added to a variant's overlay, which a slice without one then has (R86). -/
def addOverlay (v : Nat) (l : List Strip) (os : List Overlay) : List Overlay :=
  if os.any fun o => o.variant == v then os.map fun o => if o.variant = v then { o with strips := o.strips ++ l } else o
  else if l.isEmpty then os else os ++ [⟨v, l⟩]

/-- Places of strips in the image that they were read from: variant, first index, host address. -/
def placesIn (v addr : Nat) : List Strip → List (Nat × Nat × Nat)
  | [] => []
  | x :: xs => (v, x.first, addr) :: placesIn v (addr + x.image.length) xs

/-- A base strip taken over while a barrier has committed since the last update: where that barrier changed it, its retired strip is rebuilt
from the state bank. Which strips it changed, and the layout that they had, are free values (R298, R302; log entry 147). -/
def retireTaken (p first : Nat) (s : State) : State :=
  match headOf s p, s.training with
  | some h, some t =>
    let x : Strip := ⟨first, Config.retiredImage s.fresh⟩
    if t.part ≠ p || !t.barriered then s
    else
      let s := { s with fresh := s.fresh + 1 }
      if !(stripFits h 0 x) || ((stripHdr x.image).all fun y => y.first != first) then s
      else rebuildRetired p first { s with heads := updFirst (fun h => h.part == p) (fun h => { h with retired := h.retired ++ [x] }) s.heads }
  | _, _ => s

/-- An image of a hole has been read: the strips of this slice's piece that pass their checks are placed (R78, R320, R421). -/
def takenArrived (p v addr : Nat) (r : RangeEntry) (bs : Option Bytes) (s : State) : State :=
  match bs.bind parseStrips, headOf s p with
  | some l, some h =>
    let old := if v = 0 then h.strips else overlayOf h v
    let mine := l.filter fun x => inRuns [r] x.first && stripFits h v x && !(old.any fun y => y.first == x.first)
    match allocBlocks p .taken (ceilDiv (total (mine.map fun x => x.image.length)) 65536) s with
    | .error _ => s
    | .ok s =>
      let at_ := (placesIn v addr l).filter fun x => mine.any fun y => y.first == x.2.1
      let add := fun (h : Head) => if v = 0 then { h with strips := h.strips ++ mine, places := h.places ++ at_ }
        else { h with overlays := addOverlay v mine h.overlays, places := h.places ++ at_ }
      let s := { s with heads := updFirst (fun h => h.part == p) add s.heads }
      coverCheck (if v = 0 then mine.foldl (fun s x => retireTaken p x.first s) s else s)
  | _, _ => s

/-! ## Runs move (R18, R420, R425, R431) -/

/-- Masks and bias lists follow a change of this slice's runs. -/
def moveObjects (old new : List RangeEntry) (s : State) : State :=
  if old = new then s
  else
    let n := s.fresh
    { s with
      masks := s.masks.map fun m => { m with cur := m.cur.map (moveBits n old new m m.curAt), next := m.next.map (moveBits n old new m m.nextAt) }
      biases := s.biases.map fun m => { m with cur := m.cur.map (moveBias n old new (vocab s) m m.curAt)
                                               next := m.next.map (moveBias n old new (vocab s) m m.nextAt) }
      fresh := n + new.length }

/-- Strips outside this slice's runs leave its heads. -/
def trimStrips (s : State) : State :=
  let keep := fun (l : List Strip) => l.filter fun x => inRuns (loadRuns s) x.first
  let heads := s.heads.map fun h =>
    { h with places := h.places.filter (fun x => inRuns (loadRuns s) x.2.1), retired := keep h.retired
             rebuilding := h.rebuilding.filter (fun x => inRuns (loadRuns s) x.1)
             strips := keep h.strips, next := h.next.map keep, overlays := h.overlays.map fun o => { o with strips := keep o.strips }
             nextOverlays := h.nextOverlays.map fun o => { o with strips := keep o.strips } }
  { s with heads := heads }

/-- The range assignment changes: jars follow their chunks, received jars join them, objects and strips follow. -/
def moveRuns (f : Group → Group) (s : State) : State :=
  let old := loadRuns s
  let t := { s with group := f s.group }
  let new := myRuns t
  let jars := fun (e : ReqEntry) =>
    let came := (e.shares.filter fun x => x.1 == 64).flatMap (·.2)
    { e with jars := addJars (jarsIn new (jarPairs s e.jars)) (jarsIn new (chunkPairs came))
             shares := e.shares.filter (fun x => x.1 != 64)
             sharing := if came.isEmpty then e.sharing else none }
  let share := fun (a : Acorn) => { a with jars := jarsIn new (jarPairs s a.jars) }
  let t := { t with reqs := t.reqs.map jars, acorns := t.acorns.map share }
  let t := if (t.group.second.any fun p => p.1 == me t) then t else freeUses (fun u => u.use == Use.taken) t
  trimStrips (moveObjects old (loadRuns t) t)

/-- Acorns with lines on a slice that leaves are dropped, and ACORN_LOST names each (R422). -/
def loseAcorns (h : Nat) (s : State) : State :=
  let gone := s.acorns.filter fun a => a.ready && !a.dropped && a.reports.any fun r => r.1 == h && r.2.2 > 0
  acornSweep (gone.foldl (fun s a =>
    alarm 0x12 (BitVec.ofNat 64 (a.part + a.handle.toNat * 2 ^ 32)) (dropAcorn a.part a.handle s)) s)

/-- Evictions that wait for shares begin again on the slices that remain (R264, R284). -/
def restartEvicts (s : State) : State :=
  (s.reqs.filter fun e => e.evictStage = 2 && homedHere s e).foldl (fun s e =>
    announceOut (stepNow s) (.evict e.req) (updReq e.req (fun e => { e with evictStage := 1, shares := [] }) s)) s

/-- Members leave: they are holes, and their pieces become second runs (R419, R420, R425). The images of a hole stay announced: its
strips are read again if a taker is lost. -/
def becomeHoles (hs : List Nat) (s : State) : State :=
  let d := divisionAll s hs
  let s := moveRuns (fun g => { g with holes := ascending (hs.foldl addOnce g.holes), idle := g.idle.filter (fun n => !(hs.contains n))
                                       second := (g.second.filter fun p => !(hs.contains p.1)) ++ d.1 }) s
  let s := coverCheck (uncover d.2 s)
  let s := { s with backings := s.backings.filter (fun b => !(hs.contains b.slice))
                    group := { s.group with seen := s.group.seen.filter fun x => !(hs.contains x.1) } }
  restartEvicts s

/-! ## SLICE_DRAIN (R429) -/

/-- A plan is held or a selection runs for some partition. -/
def plansHeld (s : State) : Bool := s.plans.any fun p => !p.committed

/-- A removal, a return or a regroup is under way. -/
def reshaping (s : State) : Bool :=
  s.group.regroup.isSome || s.group.drain.isSome

/-- Every live request homed here starts its move to the keeper (R429). -/
def moveAway (s : State) : State :=
  match keeperOf s (me s) with
  | none => s
  | some k =>
    let l := s.reqs.filter fun e => homedHere s e && !e.state.terminal && e.state != .free && e.state != .draining && e.evictStage = 0
    l.foldl (fun s e =>
      announce (stepNow s) (.outcome ⟨e.req, stepNow s, ReqState.draining.code, [], 0, 0, false, none, none, false, none, 0, []⟩)
        (updReq e.req (fun e => { e with prior := e.state, state := .draining, moveStage := 1, moveTo := k }) s)) s

/-- A drain is announced: the slice that leaves moves its requests away. -/
def drainBegins (n step : Nat) (s : State) : State :=
  let s := { s with group := { s.group with drain := some ⟨n, step, 0, false, false⟩ } }
  if n = me s then moveAway s else s

/-- SLICE_DRAIN. -/
def sliceDrainCmd (c : Cmd) (s : State) : State :=
  let n := arg c 0
  judge .sliceDrain c
    [(reservedSet c [(0, 6)] || !((members s).contains n) || (members s).length ≤ 1, .badArg),
     (reshaping s || (s.training.any fun t => !t.micros.isEmpty) || plansHeld s, .busy),
     (!((divisionOf s n).2.isEmpty), .busy)]
    (fun s => drainBegins n (stepNow s) (await .sliceDrain c (stepNow s) .drained (announceOut (stepNow s) (.drain n) s))) s

/-- What a drain does at a commit stamp on the slices that stay (R429): at the third, the slice becomes a hole and the command
completes; the keeper assignments change (R417). -/
def drainStamp (n : Nat) (s : State) : State :=
  match s.group.drain with
  | none => s
  | some d =>
    if d.rejoin || n < d.start then s
    else
      let s := { s with group := { s.group with drain := some { d with stage := d.stage + 1 } } }
      if d.slice = me s then (if d.stage + 1 < 3 then moveAway s else finish (fun p => p.wait == .drained) (fun _ => .ok) (fun _ => []) s)
      else if d.stage + 1 = 2 then readTaken s
      else if d.stage + 1 = 3 then
        let old := keeperOf s (me s)
        let s := finish (fun p => p.wait == .drained) (fun _ => .ok) (fun _ => []) s
        let s := becomeHoles [d.slice] (loseAcorns d.slice s)
        let s := normAgain (updTrain (fun t => { t with normSums := [] }) s)
        let s := { s with group := { s.group with drain := none } }
        if keeperOf s (me s) = old then s else snapshot s
      else s

/-! ## Eocia images (R404, R447, Table 19.6) -/

/-- Ones in a thermometer-coded word. -/
def ones (v : BitVec 64) : Nat := ((List.range 64).filter fun i => v.getLsbD i).length

/-- The step of R404 that an image fails; none when it passes. A header that Table 19.6 does not allow fails the first. -/
def imageFault (s : State) (img : Bytes) : Option Nat :=
  let body := img.drop 256
  let n := leAt img 8 4
  let key := sub img 16 96
  let hash := Config.sha384 key
  let open_ := !s.sec.locked
  let formed := img.length = 256 + n && n % 64 = 0 && n ≤ 524032 && leAt img 0 4 = 0x49434F45 && leAt img 7 1 = 0 && leAt img 12 4 = 0
    && allZero (sub img 208 48)
  if !formed || !(Config.ecdsaOk key (img.take 112 ++ body) (sub img 112 96)) then some 1
  else if !(hash == s.sec.fuses.fwRoot || (open_ && (hash == Config.devKeyHash || s.sec.fuses.fwRoot == 0))) then some 2
  else if s.sec.locked && leAt img 5 2 < ones s.sec.fuses.minSvn then some 3
  else none

/-- IFACE of an image. -/
def imageIface (img : Bytes) : Nat := leAt img 4 1

/-- FW_STAGE at acceptance: the image is read. -/
def fwStageCmd (c : Cmd) (s : State) : State :=
  judge .fwStage c [(arg c 2 < 256, .badArg)] (hmpRead c.part (argPair c 0) (arg c 2) .rdb (.fwImage c)) s

/-- The staged image has been read and is checked (R404). -/
def fwRead (c : Cmd) (bs : Option Bytes) (s : State) : State :=
  match bs with
  | none => complete .fwStage c .busy [] s
  | some b =>
    match imageFault s b with
    | some _ => complete .fwStage c .denied [] { s with regs := { s.regs with fwStagedOk := false } }
    | none =>
      complete .fwStage c .ok [(0, BitVec.ofNat 32 (imageIface b))]
        { s with regs := { s.regs with fwStaged := imageIface b, fwStagedOk := true }, dbg := { s.dbg with codeStaged := b } }

/-- The slice that was drained leaves at the end of PUBLISH of the third step: solo service, and Whisk restarts on a staged image (R429). -/
def leaveGroup (s : State) : State :=
  match s.group.drain with
  | some d =>
    if d.slice = me s && !d.rejoin && d.stage ≥ 3 then
      let ok := s.regs.fwStagedOk
      let s := enterSolo s
      if ok then { s with whisk := .restarting 3 false } else s
    else s
  | none => s

/-! ## Joining and SLICE_REJOIN (R430, R431) -/

/-- The interface version of a member, as far as it is known here. -/
def ifaceOf (s : State) (n : Nat) : Option Nat :=
  if n = me s then some s.regs.fwRunning else (s.group.peers.find? fun p => p.slice == n).map (·.iface)

/-- A slice that waits in a hole's number may join: its interface version lies within one of every member's (R430), and it implements every
epoch that a live request or the open session holds (R52). -/
def mayJoin (s : State) (iface : Nat) (e : BitVec 3) : Bool :=
  let near := (members s).all fun m => (ifaceOf s m).all fun i => i ≤ iface + 1 && iface ≤ i + 1
  let has := fun (k : Nat) => k = 0 || e.getLsbD (k - 1)
  near && (s.reqs.all fun x => x.state == .free || x.state.terminal || has x.info.epoch) && s.training.all fun t => has t.epoch

/-- The join of a slice in a hole's number, as a member tells it (R52, R430). -/
def joinTold (n iface : Nat) (e : BitVec 3) (f : BitVec 6) (s : State) : State :=
  if !s.group.formed || !(isHole s n) || !(mayJoin s iface e) then s
  else
    let peer : PeerInfo := ⟨n, iface, e, f⟩
    { s with group := { s.group with joining := addOnce s.group.joining n, peers := s.group.peers.filter (fun p => p.slice != n) ++ [peer] } }

/-- The copies that a joining slice takes: tenants, variants, objects, Acorns, requests, heads and backings of the group (R430; the spec
gives no message for them). -/
def sendCopies (dest : Nat) (s : State) : State :=
  let put := fun (i : Sync) (s : State) => send dest (.stateSync ⟨me s, stepNow s, i⟩) s
  let s := s.tenants.foldl (fun s t => put (.copyTenant t.tenant t.part t.bound t.reserve t.balance t.credited t.drained t.debited) s) s
  let s := s.variants.foldl (fun s v => put (.copyVariant v.part v.num v.fromStep v.untilStep) s) s
  let s := s.masks.foldl (fun s m => if m.cur.isSome then put (.copyObj false m.part m.id m.curAt 0) s else s) s
  let s := s.biases.foldl (fun s m => if m.cur.isSome then put (.copyObj true m.part m.id m.curAt m.curN) s else s) s
  let s := (s.acorns.filter fun a => a.ready && !a.dropped).foldl (fun s a => put (.copyAcorn a.part a.handle a.entries) s) s
  let s := s.reqs.foldl (fun s e =>
    put (.copyReq e.req e.home e.state.code e.prior.code e.info e.outLeft e.hasToken e.heldStep (requestLine e)) s) s
  let s := (s.training.toList).foldl (fun s t =>
    put (.copySession t.part { t.desc with epoch := t.epoch } t.genT t.sessionNo t.parts t.seqs t.backwards t.updates t.barriered t.normDone) s) s
  s.sec.keySets.foldl (fun s k => put (.keys (wrapped s k)) s) s

/-- What the members told of themselves, for a slice that joins (R52, R317). -/
def peersKnown (s : State) : List (Nat × Nat × BitVec 3 × BitVec 6) :=
  (me s, s.regs.fwRunning, epochsOf s (me s), featuresOf s (me s))
    :: (s.group.peers.filter fun p => (members s).contains p.slice && p.slice ≠ me s).map fun p => (p.slice, p.iface, p.epochs, p.features)

/-- At a TICK, slices that wait to join become idle members and FORM_ID advances; the tick master tells them the group's state (R430). -/
def joinTick (s : State) : State :=
  if s.group.joining.isEmpty then s
  else
    let js := s.group.joining
    let s := { s with group := { s.group with holes := s.group.holes.filter (fun n => !(js.contains n)), idle := ascending (s.group.idle ++ js)
                                              joining := [], formId := s.group.formId + 1, lastForm := s.group.formId + 1
                                              seen := s.group.seen ++ js.map fun n => (n, s.timer) } }
    let s := js.foldl (fun s n => takePart n s) s
    let own := s.announced.filter fun a => a.1 == me s
    let tell := fun (s : State) (n : Nat) =>
      let s := if tickMaster s = me s then
          let g := s.group
          sendCopies n (send n (.stateSync ⟨me s, s.step.step,
            .join ⟨g.formId, g.size, g.x, g.y, tickMaster s, g.holes, g.idle, g.vocab, g.ranges, g.second, s.step.step, peersKnown s⟩⟩) s)
        else s
      let s := own.foldl (fun s a => send n (.stateSync ⟨me s, stepNow s, .head a.2.1 a.2.2⟩) s) s
      let s := (s.overlayImages.filter fun o => o.slice == me s).foldl (fun s o =>
        send n (.stateSync ⟨me s, stepNow s, .overlay o.part o.variant o.addr o.len⟩) s) s
      (s.backings.filter fun b => b.slice == me s).foldl (fun s b =>
        send n (.stateSync ⟨me s, stepNow s, .backing b.part b.first b.count b.lmax⟩) s) s
    js.foldl tell s

/-- This slice joins as an idle member (R430): solo service ends, and nothing of it is kept but registers. -/
def joinGroup (j : JoinInfo) (s : State) : State :=
  if s.group.formed then s
  else
    let s := clearService s
    let g := s.group
    let s := { s with
      group := { g with formed := true, solo := false, size := j.size, x := j.x, y := j.y, master := j.master, formId := j.formId
                        lastForm := j.formId, joinForm := j.formId, holes := j.holes, idle := j.idle, vocab := j.vocab, ranges := j.ranges
                        second := j.second, soloVocab := 0, regroup := none, drain := none, forming := none, silent := false
                        peers := j.peers.map fun p => ⟨p.1, p.2.1, p.2.2.1, p.2.2.2⟩
                        seen := ((List.range j.size).filter fun n => n ≠ me s && !(j.holes.contains n)).map fun n => (n, s.timer) }
      step := { StepSt.reset with step := j.step, opened := true, period := s.regs.stepPeriod, tickAt := s.timer, phase := 0
                                  emittedStep := j.step } }
    powerPlan s

/-- A copy of the group's state taken by a joining slice. -/
def copyArrives (i : Sync) (s : State) : State :=
  match i with
  | .copyTenant u p b r bal cr dr de =>
    let t : Tenant := ⟨u, p, b, r, bal, cr, dr, de, de, 0⟩
    { s with tenants := s.tenants.filter (fun x => x.tenant != u) ++ [t] }
  | .copyVariant p n a b =>
    let v : Variant := ⟨p, n, a, b⟩
    { s with variants := s.variants ++ [v] }
  | .copyObj bias p id addr k =>
    -- the words of the pending range are read; until then its bits and entries are free values (log entry 50)
    let rs := loadRuns s
    let n := s.fresh
    let s := { s with fresh := n + rs.length }
    if bias then
      let m := BiasObj.blank p id
      hmpRead p addr (8 * k) .rdb (.biasImage p id addr k)
        (updBias p id (fun _ => { m with cur := some (moveBias n [] rs (vocab s) m addr []), curAt := addr, curN := k }) s)
    else
      let m := MaskObj.blank p id
      maskFetch p id addr rs (updMask p id (fun _ => { m with cur := some (moveBits n [] rs m addr []), curAt := addr }) s)
  | .copyAcorn p h n =>
    let a : Acorn := ⟨p, h, nextUid s, n, [], [], true, false, []⟩
    { s with acorns := s.acorns ++ [a] }
  | .copySession p d gen no parts seqs b u bar norm =>
    -- it takes no part in slots that started before it joined
    let t := Training.fresh p d d.epoch gen no parts
    { s with training := some { t with seqs := seqs, backwards := b, updates := u, barriered := bar, normDone := norm } }
  | .copyReq q home st prior info out ht held line =>
    let a : Admit := ⟨info, 0, 0, none, [], false, 0, 0, out, ht, 0, 0, []⟩
    let e := { admitEntry q home a with state := ReqState.ofCode st, prior := ReqState.ofCode prior, heldStep := held, loaded := [me s] }
    putLine q 0 line { s with reqs := s.reqs.filter (fun x => x.req != q) ++ [e] }
  | _ => s

/-- SLICE_REJOIN. -/
def sliceRejoinCmd (c : Cmd) (s : State) : State :=
  let n := arg c 0
  let parts := List.range 12
  let headless := parts.any fun p => match headIdOf s p with
    | some h => !(s.announced.any fun a => a.1 == n && a.2.1 == p && (a.2.2.len = 0 || (a.2.2.headId == h.headId && a.2.2.blocks == h.blocks)))
    | none => (headOf s p).isSome && !(s.announced.any fun a => a.1 == n && a.2.1 == p)
  let unbacked := parts.any fun p => (backingOf s (me s) p).isSome && (backingOf s n p).isNone
  judge .sliceRejoin c
    [(reservedSet c [(0, 6)] || !(s.group.idle.contains n), .badArg), (reshaping s || headless || unbacked, .busy)]
    (fun s =>
      let k := stepNow s
      await .sliceRejoin c k .rejoined (announceOut k (.rejoin n)
        { s with group := { s.group with drain := some ⟨n, k, 0, true, false⟩ } })) s

/-- The range that a rejoining slice takes back. -/
def returning (s : State) (n : Nat) : List RangeEntry := (s.group.ranges[n]?).toList

/-- Takers send the jars of the returned chunks once every earlier outcome has been applied here (R431). -/
def rejoinSend (s : State) : State :=
  match s.group.drain with
  | none => s
  | some d =>
    if !d.rejoin || d.sent || publishing s || d.slice = me s then s
    else
      let mine := (myRuns s).filter fun r => inRuns (returning s d.slice) (256 * r.first)
      let s := { s with group := { s.group with drain := some { d with sent := true } } }
      if mine.isEmpty then s else sendJars d.slice mine s

/-- A rejoin is announced. -/
def rejoinBegins (n step : Nat) (s : State) : State :=
  rejoinSend { s with group := { s.group with drain := some ⟨n, step, 0, true, false⟩ } }

/-- The commit stamp of a rejoin: second runs inside the returned range are dropped, and the slice holds its range again (R431). -/
def rejoinStamp (n : Nat) (s : State) : State :=
  match s.group.drain with
  | none => s
  | some d =>
    if !d.rejoin || n < d.start || d.stage ≠ 0 then s
    else
      let back := returning s d.slice
      let s := moveRuns (fun g => { g with second := g.second.filter (fun p => !(inRuns back (256 * p.2.first))), idle := g.idle.erase d.slice
                                           drain := some { d with stage := 1 } }) s
      { s with group := { s.group with uncovered := s.group.uncovered.filter fun r => !(inRuns back (256 * r.first)) } }

/-- The TICK from which a rejoined slice serves: the command completes and keepers change (R417, R431). -/
def rejoinTick (s : State) : State :=
  match s.group.drain with
  | none => s
  | some d =>
    if !d.rejoin || d.stage ≠ 1 then s
    else
      let s := { s with group := { s.group with drain := none } }
      let s := finish (fun p => p.wait == .rejoined) (fun _ => .ok) (fun _ => []) s
      if keeperOf s (me s) = some d.slice || d.slice = me s then snapshot s else s

/-- Shares of a draining slice go out once the second step's outcomes have been applied (R429). -/
def drainShares (s : State) : State :=
  match s.group.drain with
  | none => s
  | some d =>
    if d.rejoin || d.slice ≠ me s || d.stage ≠ 2 || d.sent then s
    else
      let s := { s with group := { s.group with drain := some { d with sent := true } } }
      (divisionOf s (me s)).1.foldl (fun s p => sendJars p.1 [p.2] s) s

/-! ## Meanings -/

/-- SLICE_DRAIN. -/
def execSliceDrain (c : Cmd) (s : State) : Host.Outcome State Fault Refusal := .next (takeUp .sliceDrain sliceDrainCmd c s)

/-- SLICE_REJOIN. -/
def execSliceRejoin (c : Cmd) (s : State) : Host.Outcome State Fault Refusal := .next (takeUp .sliceRejoin sliceRejoinCmd c s)

/-- FW_STAGE. -/
def execFwStage (c : Cmd) (s : State) : Host.Outcome State Fault Refusal := .next (takeUp .fwStage fwStageCmd c s)

/-- JAR_SHARE. -/
def execJarShare (src q : Nat) (l : List ChunkRec) (s : State) : Host.Outcome State Fault Refusal := .next (jarShareArrives src q l s)

end Sys2Proof.Machine
end

