-- ==== Sys2Proof/Machine/Accept.lean ====
section
/-! DEFINITION. Every Eocia command by its operation, and the acknowledgements that let commands be accepted and PROD be written
(R314, R316, R414). -/

namespace Sys2Proof.Machine

/-- What a command does once it is accepted (Tables 15.6 to 15.9). -/
def runCmd : Op → Cmd → State → State
  | .info => infoCmd | .pipProbe => pipProbeCmd .none | .partBacking => backingCmd | .headLoad => headLoadCmd
  | .headUnload => headUnloadCmd | .overlayLoad => overlayLoadCmd | .mobjLoad => mobjLoadCmd | .mobjDelete => mobjDeleteCmd
  | .biasLoad => biasLoadCmd | .biasDelete => biasDeleteCmd | .rangeLoad => rangeCmd | .sliceDrain => sliceDrainCmd
  | .sliceRejoin => sliceRejoinCmd | .fwStage => fwStageCmd
  | .reqAdmit => admitCmd .reqAdmit | .reqAdmitAcorn => admitCmd .reqAdmitAcorn | .reqSettings => settingsCmd
  | .reqCancel => cancelCmd | .reqPause => pauseCmd | .reqResume => resumeCmd | .reqEvict => evictCmd
  | .huskResume => huskResumeCmd | .reqMove => moveCmd | .reqQuery => queryCmd
  | .tenantBind => bindCmd | .tenantCredit => creditCmd | .tenantDrain => drainCmd | .tenantReserve => reserveCmd
  | .tenantUnbind => unbindCmd | .tenantQuery => tenantQueryCmd | .acornMake => acornMakeCmd | .acornTake => acornTakeCmd
  | .acornDrop => acornDropCmd | .variantReg => variantRegCmd | .variantDrop => variantDropCmd
  | .trainOpen => openCmd | .trainForward => forwardCmd | .trainBackward => backwardCmd | .trainNorm => normCmd
  | .trainUpdate => updateCmd | .trainClose => closeCmd
  | .maskPrune => pruneCmd | .maskGrow => growCmd | .maskBarrier => barrierCmd | .maskDiscard => discardCmd
  | .maskStatus => maskStatusCmd

/-- A command that has reached its moment of acceptance: forwarded once more if its target has moved (R314). -/
def runOp (op : Op) (c : Cmd) (s : State) : State :=
  let t := target op c s
  if t ≠ me s then sendOn op c t s else accept op (runCmd op) c s

/-- Commands that waited for the end of PUBLISH are accepted in order (R316). -/
def runDeferred (s : State) : State :=
  let l := s.eocia.deferred
  l.foldl (fun s x => runOp x.1 x.2 s) { s with eocia := { s.eocia with deferred := [] } }

/-- The oldest unacknowledged message of a step, by its kind: whether it is a command. -/
def oldestUnacked (step : Nat) : List (Nat × Bool) → Option (Bool × List (Nat × Bool))
  | [] => none
  | u :: us =>
    if u.1 = step then some (u.2, us)
    else (oldestUnacked step us).map fun x => (x.1, u :: x.2)

/-- With the oldest command that awaits its acknowledgement accepted, so are those behind it that only read: those to accept, and the rest
(R315). -/
def nextAccepted (l : List (Op × Cmd)) : List (Op × Cmd) × List (Op × Cmd) :=
  let reads := fun (x : Op × Cmd) => readsOnly x.1
  match l.dropWhile reads with
  | [] => (l, [])
  | x :: r => (l.takeWhile reads ++ x :: r.takeWhile reads, r.dropWhile reads)

/-- HUSK_DELTA_ACK: the oldest message of that step is acknowledged: a command is accepted, or PROD may follow (R414). -/
def deltaAcked (src step : Nat) (s : State) : State :=
  if keeperOf s (me s) ≠ some src then s
  else match oldestUnacked step s.keeper.unacked with
    | none => s
    | some (isCmd, rest) =>
      let s := { s with keeper := { s.keeper with unacked := rest } }
      if isCmd then
        let l := nextAccepted s.eocia.awaitAck
        l.1.foldl (fun s x => runOp x.1 x.2 s) { s with eocia := { s.eocia with awaitAck := l.2 } }
      else (s.reqs.filter fun e => homedHere s e).foldl (fun s e => tryProd e.req s) s

/-! ## Meanings -/

/-- HUSK_DELTA_ACK. -/
def execHuskDeltaAck (src step : Nat) (s : State) : Host.Outcome State Fault Refusal := .next (deltaAcked src step s)

end Sys2Proof.Machine
end

