-- ==== Sys2Proof/Machine/Regroup.lean ====
section
/-! DEFINITION. The loss of a slice and the regroup that follows: reconciliation, what the hole's keeper rebuilds, what the takers take,
training restarted (R284, R302, R388, R396, R412, R418 to R428, R433; Tables 20.4, 20.6). -/

namespace Sys2Proof.Machine

/-! ## Training (R284, R302, R428) -/

/-- A plan whose selection runs goes back to none; one that waits for its barrier goes back to GROWN (R302). -/
def restartPlan (s : State) (x : Plan) : State :=
  let p := x.part
  if x.committed then s
  else if x.st = .pruning || x.select.isSome then
    let s := finish (fun y => (y.op == .maskPrune || y.op == .maskGrow) && y.cmd.part == p) (fun _ => .busy) (fun _ => []) s
    let s := freeUses (fun u => u.part == p && [Use.selection, .plan, .grow].contains u.use) s
    updTrain (fun t => { t with micros := t.micros.map fun m => { m with growing := false } })
      { s with plans := s.plans.filter fun y => y.part != p }
  else if x.barrierWait then
    let s := finish (fun y => y.op == .maskBarrier && y.cmd.part == p) (fun _ => .busy) (fun _ => []) s
    let s := freeUses (fun u => u.part == p && (u.use == Use.build || u.use == Use.headMore)) s
    updPlan p (fun y => { y with barrierWait := false, built := none, builtBy := [] })
      { s with heads := updFirst (fun h => h.part == p) (fun h => { h with coming := none }) s.heads }
  else s

/-- What slots in flight have done so far is forgotten, but for the saved tiles and the committed records (R284). -/
def Micro.restarted (m : Micro) : Micro :=
  let f := if m.fwdCommitted then m else
    { m with records := [], losses := [], ownSum := none, gathered := [], headerDone := false }
  if f.bwdStarted then
    { f with rs := [], rsSent := [], beatToken := 0, bwdWritten := false, bwdReady := [], accAsked := false, accVals := [] }
  else f

/-- A read of a training region that a slot in flight asked for. -/
def Purpose.isBank : Purpose → Bool
  | .normAcc .. | .bankAcc .. | .bankState .. => true
  | _ => false

/-- A write of a slot in flight no longer counts as part of it. -/
def Txn.forgotten (x : Txn) : Txn :=
  match x.after with
  | .slot .backward _ | .slot .update _ | .slot .normCommit _ | .slot .forwardCommit _ => { x with after := .nothing }
  | _ => x

/-- A regroup begins: slots in flight are given up as far as they have gone (R284, R302). -/
def stopTraining (s : State) : State :=
  let s := s.plans.foldl restartPlan s
  match s.training with
  | none => s
  | some t =>
    let seqs := (t.micros.filter (·.bwdStarted)).map fun m => m.desc.seq
    let drop := fun (g : GbpPort) => { g with waiting := g.waiting.filter fun b => !(seqs.contains b.seq) }
    updTrain (fun t => { t with micros := t.micros.map Micro.restarted, normVals := [], normOwn := none, normSums := [], normWritten := false
                                updAcc := [], updState := [], updWritten := false, updReady := [] })
      { s with merges := s.merges.filter (fun m => !m.key.train), gbpA := drop s.gbpA, gbpB := drop s.gbpB
               hmp := { s.hmp with jobs := s.hmp.jobs.filter (fun j => !j.purpose.isBank), txns := s.hmp.txns.map Txn.forgotten } }

/-- With the runs of the takeover, slots in flight start again from the saved tiles and the untouched source banks (R284, R428). What other
slices have sent of them since they resumed stays. -/
def resumeTraining (s : State) : State :=
  match s.training with
  | none => s
  | some t =>
    let s := normAgain s
    gradsAdvance (if t.updating.isSome then readUpdate s else s)

/-! ## The start (R388, R419, R424, R426) -/

/-- A drain or rejoin meets the loss of a slice (R433): the command completes with BUSY. -/
def drainMeetsLoss (n : Nat) (s : State) : State :=
  match s.group.drain with
  | none => s
  | some d =>
    if d.rejoin then
      if d.stage = 0 then
        finish (fun p => p.wait == .rejoined) (fun _ => .busy) (fun _ => []) { s with group := { s.group with drain := none } }
      else s
    else if d.slice = n then
      finish (fun p => p.wait == .drained) (fun _ => .busy) (fun _ => []) { s with group := { s.group with drain := none } }
    else s

/-- A regroup for hole n begins on this slice under a new FORM_ID (R376, R424). One that is under way restarts with both holes (R424). -/
def beginRegroup (n f : Nat) (s : State) : State :=
  let old := (s.group.regroup.map (·.holes)).getD []
  if !s.group.formed || old.contains n || n = me s then s
  else
    let s := drainMeetsLoss n s
    let twice := old.any fun h => n == acting s h
    let isOutcome := fun (m : SyncMsg) => match m.item with | .outcome _ => true | _ => false
    let noMark := fun (e : ReqEntry) => { e with shares := e.shares.filter (fun x => x.1 != 64), holders := e.holders.erase n }
    let waits := fun (j : ReadJob) => match j.purpose with | .shadow _ _ _ false => false | .takeover .. => false | _ => true
    let s := { s with
      group := { s.group with holes := ascending (addOnce s.group.holes n), idle := s.group.idle.erase n, formId := f, lastForm := f
                              joining := s.group.joining.erase n, failAll := s.group.failAll || twice
                              seen := s.group.seen.filter (fun x => x.1 != n)
                              regroup := some { holes := old ++ [n], phase := .reconcile, reports := [], top := s.step.step } }
      regs := { s.regs with irqStatus := s.regs.irqStatus ||| 0b00100#5 }
      step := { s.step with syncsDue := s.step.syncsDue.erase n, acksDue := s.step.acksDue.erase n, ended := s.step.ended.erase n }
      held := s.held.filter fun m => m.src != n || isOutcome m
      reqs := s.reqs.map noMark
      keeper := { s.keeper with got := [], reading := 0 }
      hmp := { s.hmp with jobs := s.hmp.jobs.filter waits } }
    checkKills (stopTraining s)

/-- The loss of slice n is declared (R388): alarmed; its keeper starts the regroup, and a keeper without a whole snapshot cannot restore
anything (R426). -/
def declareLost (n : Nat) (s : State) : State :=
  if !s.group.formed || !((members s).contains n) || n = me s then s
  else
    let s := alarm 0x10 (BitVec.ofNat 64 (2 ^ n)) s
    let k := nextMember s n
    if k = some (me s) then
      let f := s.group.formId + 1
      let s := flood (.regroup (.start n f)) s
      let s := beginRegroup n f s
      if s.keeper.kept ≠ n then flood (.regroup .failAll) { s with group := { s.group with failAll := true } } else s
    else { s with group := { s.group with holes := ascending (addOnce s.group.holes n), seen := s.group.seen.filter fun x => x.1 != n }
                  step := { s.step with acksDue := s.step.acksDue.erase n } }

/-! ## Reconciliation (R423) -/

/-- Requests homed on the holes of the regroup, those that a final record is still due of among them (R240, R423). -/
def orphans (s : State) : List ReqEntry :=
  let hs := (s.group.regroup.map (·.holes)).getD []
  s.reqs.filter fun e => hs.contains e.home && !e.released && e.state != .free

/-- This slice tells the survivors which requests it holds rows of, for the carry (R60, R423, R424); a home slice ends the outstanding
step of a request whose rows no survivor holds. -/
def reportRows (s : State) : State :=
  let l := s.reqs.filter fun e => e.state.takesRows && s.rows.any fun r => ofReq e.req r && r.useStep == s.step.step
  let s := l.foldl (fun s e =>
    let n := e.heldStep.getD s.step.step
    flood (.stateSync ⟨me s, stepNow s, .rowReport e.req n (rowTrees s e.req)⟩) (rowTold (me s) e.req n s)) s
  (s.reqs.filter fun e => e.home == me s && e.heldStep.isSome && e.holders.isEmpty).foldl (fun s e =>
    let n := e.heldStep.getD 0
    flood (.stateSync ⟨me s, stepNow s, .rowFreed e.req n⟩) (rowFreed e.req n s)) s

/-- This slice tells the survivors what it has applied for the requests of the holes, and its step. -/
def reportApplied (s : State) : State :=
  let s := reportRows s
  let s := (orphans s).foldl (fun s e => match e.lastOutcome with
    | some o => flood (.regroup (.applied o)) s
    | none => s) s
  flood (.regroup (.reported (me s) s.step.step)) s

/-- An outcome that some survivor applied is applied here (R423). -/
def appliedArrives (o : ReqOutcome) (s : State) : State :=
  match reqOf s o.req with
  | none => s
  | some e =>
    if s.group.regroup.isSome && (e.lastOutcome.all fun x => x.step < o.step) && e.info.admitStep ≤ o.step then applyOutcome o s else s

/-- A step is void for a request: it is carried from its held rows and draws again (R423). -/
def voidArrives (q n : Nat) (s : State) : State :=
  if (s.rows.any fun r => ofReq q r && r.stepSeq % 65536 == n % 65536) || (reqOf s q).any fun e => e.workStep == n then
    updReq q (fun e => if e.state.takesRows && e.state != .throttled then { e with heldStep := some n, state := .late, lateCount := max 1 e.lateCount }
                       else { e with heldStep := some n }) s
  else s

/-- The keeper settles each request of its hole: a step that no survivor applied is void (R423). -/
def reconcile (s : State) : State :=
  let n := s.keeper.ackedStep + 1
  ((orphans s).filter fun e => acting s e.home == me s && !e.state.terminal).foldl (fun s e =>
    if (e.lastOutcome.any fun o => o.step ≥ n) then s
    else voidArrives e.req n (flood (.regroup (.void e.req n)) s)) s

/-- Shadow slots of every request that is not released are read by the hole's keeper (R422, R423). -/
def readShadows (s : State) : State :=
  let hs := (s.group.regroup.map (·.holes)).getD []
  if !(hs.contains s.keeper.kept) then s
  else
    let live := s.reqs.filter fun e => !e.released && e.state != .free
    live.foldl (fun s e =>
      match myBacking s e.info.part, s.keeper.marks.find? fun m => m.req == e.req with
      | some b, some m =>
        let slots := (if m.slot0 then [0] else []) ++ (List.range m.jar).map (· + 1)
        slots.foldl (fun s k =>
          hmpRead e.info.part (slotPlace b true e.req k) 128 .rdb (.shadow e.req e.info.part k false)
            { s with keeper := { s.keeper with reading := s.keeper.reading + 1 } }) s
      | _, _ => s) s

/-- The takeover phase begins: strips and shadow slots are read (R420 to R422). -/
def takeoverBegins (s : State) : State :=
  match s.group.regroup with
  | none => s
  | some r =>
    if r.phase ≠ .reconcile then s
    else readShadows (readTaken { s with group := { s.group with regroup := some { r with phase := .takeover } } })

/-- A survivor has reported. With every report in, keepers settle their requests, and the tick master lets the takeover begin. -/
def reportArrives (n step : Nat) (s : State) : State :=
  match s.group.regroup with
  | none => s
  | some r =>
    let r := { r with reports := addOnce r.reports n, top := max r.top step }
    let s := { s with group := { s.group with regroup := some r } }
    if r.phase = .reconcile && (members s).all (fun m => r.reports.contains m) then
      let s := reconcile s
      if tickMaster s = me s then takeoverBegins (flood (.regroup .takeover) s) else s
    else s

/-- This slice's part in the reconcile phase. -/
def reportNow (s : State) : State :=
  if s.group.regroup.isSome then reportArrives (me s) s.step.step (reportApplied s) else s

/-! ## What the keeper rebuilds (R416, R422, R433) -/

/-- A request whose state cannot be restored fails at the next stamp (R426, R433). -/
def lostLine (q : Nat) (s : State) : State := updReq q (fun e => { e with lost := true }) s

/-- The hole's jars of a request, from its shadow lines, as chunk records (R422). -/
def holeRecords (s : State) (h q : Nat) : List ChunkRec :=
  let lines := sortBy (fun (a b : DeltaEntry) => a.slot < b.slot) (s.keeper.got.filter fun x => x.req == q && x.slot > 0)
  let runs := tableRuns s h
  chunkRecs ((lines.flatMap fun x => (lineJars x.data).getD []).map fun j => (indexAt runs j.1, j.2))

/-- The takers' records of every request go out once all shadow slots have been read (R422). -/
def shareRebuilt (h : Nat) (s : State) : State :=
  let d := divisionAll s ((s.group.regroup.map (·.holes)).getD [])
  let live := s.reqs.filter fun e => !e.state.terminal && e.state != .free
  live.foldl (fun s e =>
    let recs := holeRecords s h e.req
    d.1.foldl (fun s p =>
      let l := recordsIn [p.2] recs
      if l.isEmpty then s
      else if p.1 = me s then updReq e.req (fun e => { e with shares := e.shares ++ [(64, l)] }) s
      else send p.1 (.jarShare e.req l) s) s) s

/-- A shadow slot has been read in a takeover; one that fails its checks is the loss of that line (R416, R433). -/
def shadowArrived (q p slot : Nat) (bs : Option Bytes) (s : State) : State :=
  let h := s.keeper.kept
  let adm := ((reqOf s q).map (·.info.admitStep)).getD 0
  let s := { s with keeper := { s.keeper with reading := s.keeper.reading - 1 } }
  let s : State := match bs.bind (openSlot s p q slot adm (some h)) with
    | some line =>
      let x : DeltaEntry := ⟨q, p, if slot = 0 then .home else .line, slot, line⟩
      { s with keeper := { s.keeper with got := s.keeper.got ++ [x] } }
    | none =>
      let s := if bs.isSome then alarm 0x1F (BitVec.ofNat 64 (3 + p * 2 ^ 4)) s else s
      lostLine q (flood (.regroup (.lostLine q)) s)
  if s.keeper.reading = 0 then shareRebuilt h s else s

/-- The window of a request on its new home slice: unwritten (R216). Where its lines cannot be taken (R101) the request goes on without
them: DESIGN CHOICE 137. -/
def windowAnew (e : ReqEntry) (s : State) : State :=
  updReq e.req (fun e => { e with window := List.replicate 64 noIndex })
    (match allocLines e.info.part (.window e.req) 4 s with | .ok t => t | .error _ => s)

/-- The records of the newest outcome are written again when PROD does not count them (R423); a terminal request whose PROD is whole is
released (R240). -/
def recordsAnew (q : Nat) (s : State) : State :=
  match reqOf s q with
  | none => s
  | some e =>
    match e.lastOutcome with
    | some o => if o.firstSeq - 1 + o.records.length > e.prodWritten then writeRecords e o.step o.firstSeq o.records s
                else updReq q (fun e => { e with released := e.state.terminal }) s
    | none => updReq q (fun e => { e with released := e.state.terminal }) s

/-- The home values of a request that its keeper takes over (R422): from the home record, the newest outcome, and an unwritten window.
The clocks run on for a request with a token that is not PAUSED (R68); their starts, which the record does not hold, are now (log entry
51). A terminal request without a home record is known from its last outcome. -/
def homeRebuilt (q : Nat) (s : State) : State :=
  match reqOf s q, s.keeper.got.find? fun x => x.req == q && x.kind == .home with
  | some e, some x =>
    let d := x.data
    let w := leAt d 24 4
    let prodW := leAt d 0 4
    let prod := match e.lastOutcome with | some o => o.firstSeq - 1 + o.records.length | none => prodW
    recordsAnew q (windowAnew e (updReq q (fun e =>
      { e with home := me s, prodWritten := prodW, prod := max prod prodW, issued := max prod prodW, cons := leAt d 4 4, ttftUs := leAt d 8 4
               gapUs := leAt d 12 4, lastCommitStep := leAt d 16 8, gapSteps := field w 0 16
               cancelMark := bitOf w 19, hasToken := e.hasToken || bitOf w 20, stallSteps := field w 21 9
               lateCount := if e.state = .late then max 1 (field w 16 3) else 0
               lastCommitAt := s.timer, acceptedAt := s.timer, clockOn := (e.hasToken || bitOf w 20) && e.state != .paused
               moveStage := if e.state = .draining then 2 else 0, evictStage := 0 }) s))
  | some e, none =>
    if e.state = .admitted then windowAnew e (updReq q (fun e => { e with home := me s, acceptedAt := s.timer }) s)
    else if e.state.terminal then
      let prod := match e.lastOutcome with | some o => o.firstSeq - 1 + o.records.length | none => 0
      recordsAnew q (updReq q (fun e => { e with home := me s, prod := prod, issued := prod
                                                 prodWritten := ((e.lastOutcome).map fun o => o.firstSeq - 1).getD 0 }) s)
    else lostLine q (updReq q (fun e => { e with home := me s }) s)
  | none, _ => s

/-- A COMMAND entry as the command that it was (Table 20.2, R381); one of this slice's own doors goes back to that door. -/
def keptCommand (s : State) (x : DeltaEntry) : Option (Op × Cmd × Nat × Word) :=
  let w := leAt x.data 0 4
  let v := leAt x.data 4 4
  let org := field w 16 6
  let ref := wordAt x.data 8
  let back := s.eocia.forwarded.find? fun f => f.ref == ref
  let o : Origin := if org = me s then
      (match back.bind (·.queue) with | some b => .queue b | none => .mailbox)
    else .fwd org ref (bitOf w 4)
  (opOf (v % 65536)).map fun op =>
    (op, ⟨field w 0 4, o, BitVec.ofNat 16 (v / 65536), (List.range 13).map (fun i => wordAt x.data (12 + 4 * i)) ++ [0]⟩, org, ref)

/-- An admission that every survivor has begun goes on at the new home, and so does a cancel that took effect; any other command is run
again (R422). -/
def runKept (x : DeltaEntry) (s : State) : State :=
  match keptCommand s x with
  | none => s
  | some (op, c, org, ref) =>
    let s := if org = me s then { s with eocia := { s.eocia with forwarded := s.eocia.forwarded.filter fun f => f.ref != ref } }
      else send org (.regroup (.kept ref (me s))) s
    if (opClass op == .h) && (reqOf s x.req).any (fun e => e.state == .admitted) && (op == .reqAdmit || op == .reqAdmitAcorn || op == .huskResume)
    then await op c (stepNow s) (.admission x.req) s
    else if op == .reqCancel && (reqOf s x.req).any (fun e => e.state == .cancelled && !e.released) then await op c (stepNow s) (.finalRecord x.req) s
    else runOp op c s

/-- The keeper completes the commands that its hole had accepted and not applied (R422). -/
def runKeptAll (s : State) : State :=
  let l := s.keeper.commands.map (·.2)
  l.foldl (fun s x => runKept x s) { s with keeper := { s.keeper with commands := [] } }

/-- Loads of requests in ADMITTED are reported again to their new home (R225, R422). -/
def reportAgain (s : State) : State :=
  ((s.reqs.filter fun e => e.state == .admitted && e.loaded.contains (me s)).foldl (fun s e => reportLoad e.req e.loadStatus s) s)

/-! ## The end of the takeover (R420 to R422, R426) -/

/-- The takeover's work is done on this slice: no strip, no word of an object and no shadow slot is still read. -/
def takeoverReady (s : State) : Bool :=
  s.keeper.reading = 0 && s.hmp.jobs.all fun j => match j.purpose with | .takeover .. | .maskImage .. | .biasImage .. => false | _ => true

/-- Loads of objects whose last report is there now that a slice has left (R151, R321). -/
def settleLoads (s : State) : State :=
  s.eocia.pending.foldl (fun s x => match x.wait with
    | .objLoad bias id => objDecide bias x.cmd.part id s
    | .objApplied bias id => objAllApplied bias x.cmd.part id s
    | _ => s) s

/-- The partition holder before slices left. -/
def formerHolder (s : State) (hs : List Nat) (p : Nat) : Nat :=
  holderOf { s with group := { s.group with holes := s.group.holes.filter fun n => !(hs.contains n) } } p

/-- Loads of objects whose holder has left are given up; its keeper runs their commands anew (R422). -/
def loadsLost (hs : List Nat) (s : State) : State :=
  let gone := fun (p : Nat) => hs.contains (formerHolder s hs p)
  let s := (s.masks.filter fun m => m.load.isSome && gone m.part).foldl (fun s m => dropLoad false m.part m.id s) s
  (s.biases.filter fun m => m.load.isSome && gone m.part).foldl (fun s m => dropLoad true m.part m.id s) s

/-- The takeover ends on this slice: runs, homes and keepers change; the group may resume. -/
def takeoverEnds (s : State) : State :=
  match s.group.regroup with
  | none => s
  | some r =>
    if r.phase ≠ .takeover || !(takeoverReady s) then s
    else
      let s := loadsLost r.holes (acornsLost (r.holes.foldl (fun s h => loseAcorns h s) s))
      let mine := ((orphans s).filter fun e => acting s e.home == me s).map (·.req)
      let s := becomeHoles r.holes s
      let s := mine.foldl (fun s q => homeRebuilt q s) s
      let rehome := fun (e : ReqEntry) => { e with home := acting s e.home }
      let s := { s with reqs := s.reqs.map rehome }
      let s := { s with group := { s.group with regroup := some { r with phase := .resume } } }
      let s := if r.holes.contains s.keeper.source then runKeptAll s else s
      resumeTraining (settleLoads (reportAgain s))

/-- A command forwarded to a hole and not kept by its keeper completes with BUSY (Table 15.11). -/
def endLostForwards (hs : List Nat) (s : State) : State :=
  let gone := s.eocia.forwarded.filter fun f => hs.contains f.dest
  gone.foldl (fun s f =>
    deliver f.part (match f.queue with | none => .mailbox | some b => .queue b) f.tag Status.busy.code [] s)
    { s with eocia := { s.eocia with forwarded := s.eocia.forwarded.filter fun f => !(hs.contains f.dest) } }

/-- The first TICK after a regroup: REGROUPED, and a snapshot to a keeper that is new (R417, R424). -/
def regroupTick (s : State) : State :=
  match s.group.regroup with
  | none => s
  | some r =>
    let s := endLostForwards r.holes { s with group := { s.group with regroup := none }
                                              regs := { s.regs with irqStatus := s.regs.irqStatus ||| 0b01000#5 } }
    if r.holes.any fun h => acting s h == (keeperOf s (me s)).getD 64 then snapshot s else s

/-! ## Messages -/

/-- A REGROUP message (R422 to R424). -/
def regroupMsg (m : RegroupMsg) (s : State) : State :=
  match m with
  | .start h f => if h = me s then s else beginRegroup h f s
  | .applied o => appliedArrives o s
  | .reported n k => reportArrives n k s
  | .void q k => voidArrives q k s
  | .takeover => takeoverBegins s
  | .lostLine q => lostLine q s
  | .kept ref n =>
    let upd := fun (f : FwdRef) => if f.ref = ref then { f with dest := n } else f
    { s with eocia := { s.eocia with forwarded := s.eocia.forwarded.map upd } }
  | .failAll => { s with group := { s.group with failAll := true } }

end Sys2Proof.Machine
end

