-- ==== Sys2Proof/Machine/Reads.lean ====
section
/-! DEFINITION. What happens when bytes that the slice read over HMP have arrived, or when a write is acknowledged (R233, R311, R320,
R352 to R354; Tables 17.4 and 17.5). -/

namespace Sys2Proof.Machine

/-- The command that waits for a read completes with BUSY after a second failure (Table 17.5). -/
def busyRead (op : Op) (c : Cmd) (s : State) : State := complete op c .busy [] s

/-- The log ring's consumer value has been read (R460). -/
def logConsArrived (bs : Option Bytes) (s : State) : State :=
  match bs with
  | none => s
  | some b =>
    let v := wordAt b 0
    if (v - s.tele.logCons).toNat ≤ (s.tele.logProd - s.tele.logCons).toNat then { s with tele := { s.tele with logCons := v } } else s

/-- A read job is done: its bytes, or none after a second failure. A completed queue entry stays until it may be fetched (R311). -/
def readDone (j : ReadJob) (bs : Option Bytes) (s : State) : State :=
  let d := bs.getD []
  let has := bs.isSome
  match j.purpose with
  | .queueEntry p => if has then takeEntry p s else dropFetch p s
  | .admission op c t k => if has then admitRead op c t k d s else busyRead op c s
  | .counts q => countsArrived q bs s
  | .headImage c b => headArrived c b bs s
  | .overlayImage c b => overlayArrived c b bs s
  | .overlayVoid c => complete .overlayLoad c .badArg [] s
  | .maskImage p i a r => maskArrived p i a r bs s
  | .biasImage p i a _ => biasArrived p i a bs s
  | .rangeTable c v b => if has then rangeRead c v b d s else busyRead .rangeLoad c s
  | .acornList p u => acornArrived p u bs s
  | .husk c t k => if !has then busyRead .huskResume c s else if j.len = 64 then huskHeaderRead c t k d s else huskRead c t k d s
  | .fwImage c => fwRead c bs s
  | .sessionDesc c => if has then openRead c d s else busyRead .trainOpen c s
  | .microDesc c b => if has then forwardRead c b d s else busyRead .trainForward c s
  | .targets seq => targetsArrived seq bs s
  | .cons q => consArrived q bs s
  | .logCons => logConsArrived bs s
  | .backing q k => backingArrived q k bs s
  | .stream i => streamArrived i bs s
  | .spill seq t => spillArrived seq t bs s
  | .shadow q p k f => if f then shadowFetched q p k bs s else shadowArrived q p k bs s
  | .takeover p v a r => takenArrived p v a r bs s
  | .normAcc c k => if has then normArrived c k d s else tellHolder .normBusy 0 (fun _ => normFails) s
  | .bankAcc (some q) c k => if has then accArrived q c k d s else tellHolder .backwardBusy q (fun _ => backwardFails q) s
  | .bankAcc none c k => if has then updAccArrived c k d s else tellHolder .updateBusy 0 (fun _ => updateFails) s
  | .bankState c k => if has then updStateArrived c k d s else tellHolder .updateBusy 0 (fun _ => updateFails) s
  | .retiredBank p f c k => retiredArrived p f c k bs s

/-- The read judges a command, which waits while the changes of an earlier step are still being applied (R316). -/
def judges (p : Purpose) : Bool :=
  match p with
  | .admission .. | .headImage .. | .overlayImage .. | .rangeTable .. | .husk .. | .fwImage _ | .sessionDesc _ | .microDesc _ _ => true
  | _ => false

/-- A read job that is complete leaves the list and goes on; one that judges a command waits for the end of PUBLISH, and while Eocia
does not run (R316, R344, R410). A queue entry stays. -/
def endJob (n : Nat) (s : State) : State :=
  match s.hmp.jobs.find? fun j => j.job == n with
  | none => s
  | some j =>
    match jobBytes j with
    | none => s
    | some bs =>
      match j.purpose with
      | .queueEntry p => takeEntry p s
      | _ =>
        if judges j.purpose && (publishing s || !(eociaRuns s)) then s
        else readDone j (some bs) { s with hmp := { s.hmp with jobs := s.hmp.jobs.filter fun x => x.job != n } }

/-- Complete jobs that waited go on. -/
def runJobs (s : State) : State := (s.hmp.jobs.map (·.job)).foldl (fun s n => endJob n s) s

/-- A job whose read failed twice (Table 17.5). Its other reads that are outstanding keep their tags until they are answered (R352). -/
def failJob (n : Nat) (s : State) : State :=
  match s.hmp.jobs.find? fun j => j.job == n with
  | none => s
  | some j =>
    readDone j none { s with hmp := { s.hmp with jobs := s.hmp.jobs.filter (fun x => x.job != n)
                                                 txns := s.hmp.txns.filter fun t => t.write || t.job != n || (t.tag.isSome && !t.waiting) } }

/-- No write of a job is outstanding. -/
def jobWritten (n : Nat) (s : State) : Bool := !(s.hmp.txns.any fun t => t.write && t.job == n)

/-- What a job's last acknowledged write lets happen (R233, R240, R260, R311, R353, R414, R460). -/
def writeDone (n : Nat) (a : AfterWrite) (s : State) : State :=
  let last := jobWritten n s
  match a with
  | .nothing | .spill | .backing _ _ => s
  | .ladleRecord q k => recordOut q k last s
  | .ladleProd q k => if last then prodDone q k s else s
  | .completion p noirq => if last then recordWritten p noirq s else s
  | .husk q => if last then huskWritten q s else s
  | .slot k seq => if writing s (.slot k seq) then s else slotWritten k seq s
  | .logRecord => if writing s .logRecord then s else hmpWrite 15 s.regs.logBase.toNat (leBytes 4 s.tele.logProd.toNat) .nothing s
  | .shadow _ _ => if last then ackDeltas s else s

end Sys2Proof.Machine
end

