-- ==== Sys2Proof/Machine/Hmp.lean ====
section
/-! DEFINITION. Responses on HMP: read data, write responses, the retry of a read, WINDOW, and what a freeze of the partner abandoned
(R352 to R354, R361 to R363, R365, R460; Table 17.5). -/

namespace Sys2Proof.Machine

/-! ## Transactions by tag -/

/-- The outstanding transaction of a tag: a read on its channel, or a write (R352). -/
def outstanding (s : State) (write : Bool) (ch : RdCh) (tag : Nat) : Option Txn :=
  s.hmp.txns.find? fun t => t.tag == some tag && t.write == write && !t.waiting && (write || t.ch == ch)

/-- A transaction changed. -/
def updTxn (t : Txn) (f : Txn → Txn) (s : State) : State :=
  { s with hmp := { s.hmp with txns := updFirst (fun x => x == t) f s.hmp.txns } }

/-- A transaction is answered: its tag is complete. -/
def answered (s : State) : State := { s with hmp := { s.hmp with completed := s.hmp.completed + 1 } }

/-- A transaction leaves the list. -/
def endTxn (t : Txn) (s : State) : State := answered { s with hmp := { s.hmp with txns := s.hmp.txns.erase t } }

/-- Lines of 128 bytes that a read touches (R352). -/
def linesTouched (t : Txn) : Nat := ceilDiv (t.addr % 128 + 64 * t.units) 128

/-- The bytes of a read from its beats: bytes outside the range are ignored (R352). -/
def readBytes (t : Txn) (beats : List Bytes) : Bytes := sub ((beats.take (linesTouched t)).flatMap id) (t.addr % 128 + t.lead) t.len

/-- Response code (Table 17.5). -/
def Resp.num : Resp → Nat
  | .ok => 0 | .slverr => 1 | .poison => 2 | .window => 3

/-- A violation of the HMP partner. -/
def hmpViolation (code tag : Nat) (s : State) : State := violation .hmp 2 0 code tag 0 false s

/-- An answer to a tag that is not outstanding: one abandoned by a freeze is discarded, any other is a violation (R361, R365). -/
def unknownTag (tag : Nat) (s : State) : State :=
  if s.hmp.lateTags.contains tag then { s with hmp := { s.hmp with lateTags := s.hmp.lateTags.erase tag } }
  else hmpViolation 0x06 tag s

/-- An answer while the partner is frozen is discarded (R363, R365). -/
def discardAnswer (tag : Nat) (s : State) : State :=
  { s with hmp := { s.hmp with lateTags := s.hmp.lateTags.erase tag } }

/-! ## Responses other than OK (R354, Table 17.5) -/

/-- SLVERR or POISON: the alarm HMP_ERROR. -/
def hmpError (t : Txn) (tag : Nat) (r : Resp) (s : State) : State :=
  alarm 0x0B (BitVec.ofNat 64 (tag + Resp.num r * 2 ^ 9 + t.part * 2 ^ 11)) s

/-- A response other than OK is traced. -/
def errorTrace (t : Txn) (r : Resp) (s : State) : State := trace 4 3 1 (BitVec.ofNat 32 (Resp.num r)) (BitVec.ofNat 64 t.addr) s

/-- WINDOW to traffic of the log ring: log writes stop until LOG_CFG is written again; no master is counted (R354, log entry 49). -/
def logWindow (t : Txn) (tag : Nat) (s : State) : State :=
  let s := endTxn t (event 3 (errorBytes s 2 15 0x09 1 tag 0 false) s)
  let s := { s with tele := { s.tele with logStopped := true }, hmp := { s.hmp with jobs := s.hmp.jobs.filter fun j => j.job != t.job } }
  if t.after == .logRecord then count (fun c => { c with logLost := c.logLost + 1 }) s else s

/-- WINDOW: the partition is frozen at once, and the transaction waits until the thaw (R354, R362). -/
def windowBreach (t : Txn) (tag : Nat) (s : State) : State :=
  if t.part = 15 then logWindow t tag s
  else violation (.part t.part) 2 t.part 0x09 tag 0 true (answered (updTxn t (fun x => { x with tag := none }) s))

/-! ## Read data (R352, R354) -/

/-- A read is complete: its bytes join its job. -/
def readOk (t : Txn) (beats : List Bytes) (s : State) : State :=
  let add := fun (j : ReadJob) => { j with parts := j.parts ++ [(t.offset, readBytes t beats)] }
  let s := endTxn t s
  endJob t.job { s with hmp := { s.hmp with jobs := updFirst (fun j => j.job == t.job) add s.hmp.jobs } }

/-- A read failed: retried once, 1 µs later; the second failure ends its job (Table 17.5). -/
def readFailed (t : Txn) (tag : Nat) (r : Resp) (s : State) : State :=
  let s := hmpError t tag r s
  if t.retried then failJob t.job (endTxn t s)
  else answered (updTxn t (fun x => { x with waiting := true }) s)

/-- HMP_READ_DATA. Data that end short of the read's lines break R352: a violation, counted with the code of FRAMING, and no answer to the
tag (R361; DESIGN CHOICE 83). -/
def readData (ch : RdCh) (tag : Nat) (r : Resp) (beats : List Bytes) (s : State) : State :=
  if s.regs.frozenHmp then discardAnswer tag s
  else match outstanding s false ch tag with
    | none => unknownTag tag s
    | some t =>
      match r with
      | .ok =>
        if beats.length < linesTouched t || beats.any (fun b => b.length ≠ 128) then hmpViolation 0x0A tag s
        else
          let s := readOk t beats s
          hmpIssue (if beats.length > linesTouched t then hmpViolation 0x07 tag s else s)
      | .window => hmpIssue (windowBreach t tag (errorTrace t r s))
      | x => hmpIssue (readFailed t tag x (errorTrace t x s))

/-- HMP_RETRY of a tag: the read is issued again, or waits for a thaw. -/
def retryRead (tag : Nat) (s : State) : State :=
  match s.hmp.txns.find? fun t => t.tag == some tag && t.waiting && !t.write with
  | none => s
  | some t =>
    let again := fun (x : Txn) => { x with waiting := false, retried := true }
    if partFrozen s t.part || s.regs.frozenHmp then updTxn t (fun x => { again x with tag := none }) s
    else { updTxn t again s with hmp := { (updTxn t again s).hmp with issued := s.hmp.issued + 1 } }

/-! ## Write responses (R354) -/

/-- A write failed: it is sent again at the following TICKs until its response is OK (Table 17.5). -/
def writeFailed (t : Txn) (tag : Nat) (r : Resp) (s : State) : State :=
  answered (updTxn t (fun x => { x with tag := none, waiting := true }) (hmpError t tag r s))

/-- HMP_WRITE_RESPONSE. -/
def writeResponse (tag : Nat) (r : Resp) (s : State) : State :=
  if s.regs.frozenHmp then discardAnswer tag s
  else match outstanding s true .rdb tag with
    | none => unknownTag tag s
    | some t =>
      match r with
      | .ok => hmpIssue (writeDone t.job t.after (endTxn t s))
      | .window => hmpIssue (windowBreach t tag (errorTrace t r s))
      | x => hmpIssue (writeFailed t tag x (errorTrace t x s))

/-- At a TICK, writes that failed are sent again (R64, Table 17.5). -/
def reissueWrites (s : State) : State :=
  let again := fun (t : Txn) => if t.write && t.waiting then { t with waiting := false, retried := true } else t
  hmpIssue { s with hmp := { s.hmp with txns := s.hmp.txns.map again } }

/-! ## Thaws (Table 17.10) -/

/-- The HMP partner is thawed: abandoned transactions are issued again, writes with the same data; a late response to an
abandoned tag is still discarded (Table 17.12). -/
def thawHmp (s : State) : State :=
  hmpIssue { s with regs := { s.regs with frozenHmp := false }
                    hmp := { s.hmp with txns := s.hmp.txns.map fun t => if t.write then t else { t with waiting := false } } }

/-! ## Meanings -/

/-- HMP_READ_DATA. -/
def execHmpReadData (ch : RdCh) (tag : Nat) (r : Resp) (beats : List Bytes) (s : State) : Host.Outcome State Fault Refusal :=
  .next (readData ch tag r beats s)

/-- HMP_WRITE_RESPONSE. -/
def execHmpWriteResponse (tag : Nat) (r : Resp) (s : State) : Host.Outcome State Fault Refusal := .next (writeResponse tag r s)

/-- HMP_RETRY. -/
def execHmpRetry (tag : Nat) (s : State) : Host.Outcome State Fault Refusal := .next (retryRead tag s)

end Sys2Proof.Machine
end

