-- ==== Sys2Proof/Machine/Wire.lean ====
section
/-! DEFINITION. Messages as bytes on the link: types, classes, bodies, headers and flits (R52, R370, R376 to R382, R452; Tables 9.3,
9.4, 12.4, 18.1, 18.3, 18.4, 18.6 to 18.10, 20.2, 21.9). -/

namespace Sys2Proof.Machine

/-! ## Types and classes (Tables 18.2, 18.4) -/

/-- TYPE of a message (Table 18.4); raw flits have none (R380). -/
def msgType : Msg → Nat
  | .tick _ => 0x01 | .commit _ => 0x02 | .commitAck _ _ => 0x03
  | .maSum _ _ => 0x10 | .maCut _ => 0x11 | .mbShell _ _ => 0x12 | .mbEdge _ => 0x13 | .mdDraw _ _ => 0x14 | .trSum _ _ => 0x15
  | .rsBegin _ _ => 0x20 | .jarShare _ _ => 0x21 | .huskDelta _ => 0x22 | .huskDeltaAck _ => 0x22
  | .hello _ _ => 0x30 | .heartbeat _ _ => 0x31 | .fwdCmd _ => 0x32 | .fwdResult _ => 0x33
  | .stateSync _ => 0x34 | .scrubDone _ => 0x34 | .range _ _ => 0x35
  | .formPropose _ => 0x36 | .formCommit _ => 0x36 | .formRefuse _ => 0x36 | .formKeys _ => 0x36 | .formDone => 0x36
  | .regroup _ => 0x37
  | .rsFlit _ _ _ => 0
  | .relay _ b _ => leAt b 0 1

/-- Class of a type (Table 18.4), as CLASS codes it (Table 18.1); none for an unknown type. -/
def classOfType (t : Nat) : Option Nat :=
  if 0x01 ≤ t && t ≤ 0x03 then some 0
  else if 0x10 ≤ t && t ≤ 0x15 then some 1
  else if 0x20 ≤ t && t ≤ 0x22 then some 2
  else if 0x30 ≤ t && t ≤ 0x37 then some 3
  else none

/-- Class of a message. -/
def msgClass (m : Msg) : Nat :=
  match m with
  | .rsFlit _ _ _ => 2
  | .relay c _ _ => c
  | _ => (classOfType (msgType m)).getD 3

/-! ## Bodies -/

/-- Word 0 of a Mortar record: ID, ROW and TRAIN (Table 9.3). -/
def keyBits (k : RowKey) : Nat := k.id % 2 ^ 17 + k.row % 64 * 2 ^ 17 + b01 k.train * 2 ^ 23

/-- A signed 16-bit field. -/
def signed16 (r : Int) : Nat := (BitVec.ofInt 16 r).toNat

/-- MA_SUM (Table 9.3). -/
def maSumBytes (r : MaSum) : Bytes :=
  let n := r.counts.length
  leBytes 4 (keyBits r.key + b01 r.empty * 2 ^ 24 + b01 r.masses * 2 ^ 25 + b01 r.trunc * 2 ^ 26 + b01 r.tmis * 2 ^ 27)
    ++ leBytes 4 (r.step16 + signed16 r.ref * 2 ^ 16) ++ leBytes 4 r.kmax.toNat
    ++ leBytes 4 (n + b01 r.tdv * 2 ^ 9 + r.tdig.toNat * 2 ^ 16) ++ leBytes 4 r.tail ++ leBytes 4 r.tailMhi.toNat
    ++ r.counts.flatMap (leBytes 4) ++ (r.mhi ++ r.mlo).flatMap fun x => leBytes 4 x.toNat

/-- MA_CUT (Table 18.6). -/
def maCutBytes (r : MaCut) : Bytes :=
  leBytes 4 (keyBits r.key) ++ leBytes 4 (r.step16 + signed16 r.refG * 2 ^ 16) ++ leBytes 4 r.kmax.toNat
    ++ leBytes 4 (r.jc + r.kNeed * 2 ^ 8) ++ leBytes 4 (r.n + b01 r.tmis * 2 ^ 23)

/-- MB_SHELL (Table 9.4). -/
def mbShellBytes (r : MbShell) : Bytes :=
  leBytes 4 (keyBits r.key) ++ leBytes 4 (r.step16 + signed16 r.refG * 2 ^ 16) ++ leBytes 12 r.nacc.toNat
    ++ leBytes 4 r.entries.length ++ r.entries.flatMap fun e => leBytes 4 e.key.toNat ++ leBytes 4 (e.index + e.src * 2 ^ 22)

/-- MB_EDGE (Table 18.7). -/
def mbEdgeBytes (r : MbEdge) : Bytes :=
  leBytes 4 (keyBits r.key) ++ leBytes 4 (r.step16 + signed16 r.refG * 2 ^ 16) ++ leBytes 4 (r.n + b01 r.decided * 2 ^ 11)
    ++ leBytes 4 r.lastKey.toNat ++ leBytes 4 r.lastIndex ++ leBytes 12 r.z.toNat

/-- MD_DRAW (Table 18.8). -/
def mdDrawBytes (r : MdDraw) : Bytes :=
  leBytes 4 (keyBits r.key) ++ leBytes 4 (r.step16 + b01 r.valid * 2 ^ 16) ++ leBytes 8 (BitVec.ofInt 64 r.y).toNat
    ++ leBytes 4 r.index

/-- TR_SUM (Table 18.9). -/
def trSumBytes (r : TrSum) : Bytes :=
  leBytes 4 (b01 r.norm) ++ leBytes 4 r.seq.toNat ++ leBytes 4 r.counted ++ leBytes 4 r.infCount ++ leBytes 4 r.ignored
    ++ leBytes 12 r.sum.toNat ++ leBytes 4 r.sumsq.toNat ++ leBytes 4 r.sat ++ leBytes 8 0

/-- RS_BEGIN (R380). -/
def rsBeginBytes (r : RsBegin) : Bytes :=
  leBytes 4 r.seq.toNat ++ leBytes 4 (b01 r.second) ++ leBytes 4 r.firstToken ++ leBytes 4 r.elements

/-- Chunk records (Table 12.4). -/
def chunkRecBytes (l : List ChunkRec) : Bytes :=
  l.flatMap fun r => leBytes 4 (r.chunk + r.counts.length * 2 ^ 14) ++ r.counts.flatMap fun c => leBytes 4 (c.1 + c.2 * 2 ^ 8)

/-- KIND of an entry (Table 20.2). -/
def deltaKindCode : DeltaKind → Nat
  | .line => 0 | .home => 1 | .command => 2 | .fetch => 3

/-- HUSK_DELTA (Table 20.2). -/
def huskDeltaBytes (step : Nat) (l : List DeltaEntry) (last ack : Bool) : Bytes :=
  leBytes 8 step ++ leBytes 4 (l.length + b01 last * 2 ^ 16 + b01 ack * 2 ^ 17) ++ leBytes 4 0
    ++ l.flatMap fun e => leBytes 4 (e.req + e.part * 2 ^ 14 + deltaKindCode e.kind * 2 ^ 18 + e.slot * 2 ^ 20) ++ leBytes 12 0
        ++ padTo 64 (e.data.take 64)

/-- HELLO (Table 18.10). -/
def helloBytes (h : Hello) : Bytes :=
  leBytes 4 (h.protoMin + h.protoMax * 2 ^ 8 + h.slice * 2 ^ 16 + h.groupSz * 2 ^ 22 + h.port * 2 ^ 29) ++ leBytes 4 h.lastForm
    ++ leBytes 4 (h.iface + h.epochs.toNat * 2 ^ 8 + h.features.toNat * 2 ^ 11) ++ leBytes 4 (h.crTick + h.crMerge * 2 ^ 16)
    ++ leBytes 4 (h.crMgmt + h.crBulk * 2 ^ 16) ++ leBytes 4 0

/-- FWD_CMD (R381). -/
def fwdCmdBytes (f : FwdCmd) : Bytes :=
  leBytes 4 (f.part + b01 f.queue * 2 ^ 4 + f.origin * 2 ^ 16) ++ leBytes 4 (f.opcode.toNat + f.tag.toNat * 2 ^ 16)
    ++ leBytes 4 f.ref.toNat ++ f.args.flatMap fun a => leBytes 4 a.toNat

/-- FWD_RESULT (R381). -/
def fwdResultBytes (r : FwdResult) : Bytes :=
  leBytes 4 r.ref.toNat ++ leBytes 4 (r.status.toNat + r.tag.toNat * 2 ^ 16) ++ r.words.flatMap fun a => leBytes 4 a.toNat

/-- REASON of a REFUSE (Table 21.9). -/
def reasonCode : FormReason → Nat
  | .duplicate => 1 | .size => 2 | .miswire => 3 | .version => 4 | .rootKey => 5 | .missing => 6

/-- What this slice says of itself in FORM (Table 21.9): READY while it holds no request and no session. -/
def ownForm (s : State) : FormBody :=
  { slice := me s, groupSz := s.group.size, x := s.group.x, y := s.group.y, iface := s.regs.fwRunning, epochs := epochsOf s (me s),
    features := featuresOf s (me s), ready := s.reqs.isEmpty && s.training.isNone, lastForm := s.group.lastForm, lastStep := s.group.lastStep }

/-- FORM (Table 21.9) up to offset 24: phase, the sender's fields, LAST_FORM, REASON. -/
def formBytes21 (phase : Nat) (b : FormBody) (lastForm reason : Nat) : Bytes :=
  leBytes 4 (phase + b.slice * 2 ^ 3 + b.groupSz * 2 ^ 9 + b.x * 2 ^ 16 + b.y * 2 ^ 23)
    ++ leBytes 4 (b.iface + b.epochs.toNat * 2 ^ 8 + b.features.toNat * 2 ^ 11 + b01 b.ready * 2 ^ 17)
    ++ leBytes 4 lastForm ++ leBytes 4 reason ++ leBytes 8 b.lastStep

/-- The new FORM_ID of a formation in progress. -/
def formingId (s : State) : Nat := ((s.group.forming.map (·.formId)).getD s.group.formId)

/-- A body without a layout (log entry 55). -/
def freeBody (n : Nat) : Bytes := (List.range (Config.bodyLen n % 65536)).map (Config.bodyByte n)

/-- The body of a message. -/
def bodyBytes (s : State) (m : Msg) : Bytes :=
  match m with
  | .tick t => leBytes 8 t.step ++ leBytes 4 (t.period % 2 ^ 16 + t.master * 2 ^ 16)
  | .commit c => leBytes 8 c.step ++ leBytes 4 c.master
  | .commitAck k n => leBytes 8 k ++ leBytes 4 n
  | .maSum _ r => maSumBytes r
  | .maCut r => maCutBytes r
  | .mbShell _ r => mbShellBytes r
  | .mbEdge r => mbEdgeBytes r
  | .mdDraw _ r => mdDrawBytes r
  | .trSum _ r => trSumBytes r
  | .rsBegin _ r => rsBeginBytes r
  | .rsFlit _ _ b => b
  | .jarShare _ l => chunkRecBytes l
  | .huskDelta d => huskDeltaBytes d.step d.entries d.last false
  | .huskDeltaAck k => huskDeltaBytes k [] false true
  | .hello _ h => helloBytes h
  | .heartbeat n k => leBytes 8 n ++ leBytes 8 k
  | .fwdCmd f => fwdCmdBytes f
  | .fwdResult r => fwdResultBytes r
  | .stateSync _ | .scrubDone _ | .regroup _ => freeBody s.fresh
  | .range _ t => t.flatMap fun r => leBytes 4 (r.first + r.count * 2 ^ 14) ++ leBytes 4 0
  | .formPropose b => formBytes21 0 b b.lastForm 0 ++ List.replicate 128 0
  | .formCommit f => formBytes21 1 (ownForm s) f 0 ++ List.replicate 128 0
  | .formRefuse r => formBytes21 2 (ownForm s) (formingId s) (reasonCode r) ++ List.replicate 128 0
  | .formKeys k => formBytes21 3 (ownForm s) (formingId s) 0 ++ leBytes 4 k.part ++ leBytes 4 k.keyId.toNat ++ k.keys.flatten
  | .formDone => formBytes21 4 (ownForm s) (formingId s) 0 ++ List.replicate 128 0
  | .relay _ b _ => b.drop 16

/-! ## Headers and flits -/

/-- FORM_ID of a message (R376, R452). -/
def msgFormId (s : State) : Msg → Nat
  | .hello _ _ => 0
  | .formPropose _ | .formRefuse _ => 0
  | .formCommit f => f
  | .formKeys _ | .formDone => formingId s
  | _ => s.group.formId

/-- SRC of a message: the tree node for a record that a keeper sends for a hole (R419), else this slice. -/
def msgSrc (s : State) : Msg → Nat
  | .maSum n _ | .mbShell n _ | .mdDraw n _ | .trSum n _ => n
  | _ => me s

/-- FAILED of a message header (Table 18.3). -/
def msgFailed : Msg → Bool
  | .maSum _ r => r.failed
  | .mbShell _ r => r.failed
  | _ => false

/-- The header of Table 18.3. -/
def headerBytes (s : State) (o : OutMsg) (len : Nat) : Bytes :=
  leBytes 4 (msgType o.msg + b01 o.dest.isNone * 2 ^ 8 + b01 (msgFailed o.msg) * 2 ^ 9 + len * 2 ^ 16) ++ leBytes 4 (msgFormId s o.msg)
    ++ leBytes 4 (msgSrc s o.msg + o.dest.getD 0 * 2 ^ 8) ++ leBytes 4 0

/-- Chunk records of at most 63 to a message, so that its LEN stays within 65,535 (R377). -/
def splitMsg (o : OutMsg) : List OutMsg :=
  match o.msg with
  | .jarShare q l =>
    if l.length ≤ 63 then [o] else (groupsOf 63 (l.length + 1) l).map fun g => ⟨o.dest, .jarShare q g⟩
  | _ => [o]

/-- Header and body of a message; a relayed message keeps its bytes. -/
def msgBytes (s : State) (o : OutMsg) : Bytes :=
  match o.msg with
  | .relay _ b _ => b
  | m => let b := bodyBytes s m; headerBytes s o b.length ++ b

/-- FORM code of a raw flit (Table 18.1). -/
def rsFormCode : RsForm → Nat
  | .fast => 0 | .strict80 => 1 | .strict96 => 2

/-- Bytes cut into bodies of 240. -/
def bodies : Nat → Bytes → List Bytes
  | 0, _ => []
  | n + 1, b => if b.length ≤ 240 then [b] else b.take 240 :: bodies n (b.drop 240)

/-- The flits of a message (R370, R376): SOM on the first, EOM on the last. A message to one slice, or on one port, stands whole on its
last flit until that is acknowledged (R387). -/
def flitsOf (s : State) (o : OutMsg) : List TxFlit :=
  match o.msg with
  | .rsFlit _ f b => [⟨2, false, false, true, rsFormCode f, b, none⟩]
  | m =>
    let bytes := msgBytes s o
    let bs := bodies (bytes.length + 1) bytes
    bs.zipIdx.map fun b =>
      let fin := b.2 + 1 = bs.length
      ⟨msgClass m, b.2 = 0, fin, false, 0, b.1, if fin && o.dest.isSome && msgType m ≠ 0x30 then some o else none⟩

/-- A flit as bytes (Table 18.1), with the link fields that it carries. -/
def flitBytes (f : TxFlit) (idle : Bool) (seq ack : Nat) (nak : Bool) (cr : List Nat) : Bytes :=
  let b := f.body.take 240
  let head := leBytes 4 (f.cls + b01 idle * 2 ^ 2 + b01 f.som * 2 ^ 3 + b01 f.eom * 2 ^ 4 + b01 f.raw * 2 ^ 5 + f.form * 2 ^ 6
        + b.length * 2 ^ 8)
    ++ leBytes 4 (seq + ack * 2 ^ 12 + b01 nak * 2 ^ 24)
    ++ leBytes 4 (cr.getD 0 0 + cr.getD 1 0 * 2 ^ 8 + cr.getD 3 0 * 2 ^ 16 + cr.getD 2 0 * 2 ^ 24) ++ padTo 240 b
  head ++ leBytes 4 (crc32 head).toNat

end Sys2Proof.Machine
end

