-- ==== Sys2Proof/Machine/Link.lean ====
section
/-! DEFINITION. The Broddel link below the messages: routing, flits, credits, retry, sessions, lanes and conservation
(R366 to R378, R382, R383, R385 to R387, R389, R390, R451; Tables 18.1 to 18.5, 18.11). -/

namespace Sys2Proof.Machine

/-! ## Ports -/

/-- A port. -/
def portOf (s : State) (n : Nat) : Port := s.link.ports.getD n (Port.reset false)

/-- A port changed. -/
def updPort (n : Nat) (f : Port → Port) (s : State) : State := { s with link := { s.link with ports := updAt s.link.ports n f } }

/-- A port is live (R383). -/
def portLive (s : State) (n : Nat) : Bool := (portOf s n).session == .active

/-- Live ports, ascending. -/
def livePorts (s : State) : List Nat := (List.range 4).filter (portLive s)

/-- A lane is fitted (Table 21.6). -/
def laneFitted (s : State) (n lane : Nat) : Bool :=
  (portOf s n).fitted && (lane = 0 || (lane = 1 && (s.straps.extractLsb' 13 2).toNat ≠ 3))

/-- Codes of Table 18.5 in a trace. -/
def sessionCode : Session → Nat
  | .down => 0 | .train => 1 | .hello => 2 | .active => 3 | .retrain => 4

/-- A session changes its state. -/
def setSession (n : Nat) (x : Session) (s : State) : State :=
  trace 12 3 1 (BitVec.ofNat 32 n) (BitVec.ofNat 64 (sessionCode x)) (updPort n (fun p => { p with session := x }) s)

/-! ## Routing (R183, R385, R386) -/

/-- The port of a step from a to b on a line of m: p where the step goes up, q where it goes down (R183, R366). -/
def dirPort (m a b p q : Nat) : Nat := if (b + m - a) % m ≤ (a + m - b) % m then p else q

/-- The entry for a slice (R385). -/
def routeTo (s : State) (d : Nat) : Route :=
  let c := coordOf s (me s)
  let e := coordOf s d
  let x := dirPort (treeX s) c.1 e.1 0 1
  let y := dirPort (treeY s) c.2 e.2 2 3
  if c.1 ≠ e.1 && c.2 ≠ e.2 then ⟨d, x, y⟩
  else if c.1 ≠ e.1 then ⟨d, x, if treeY s = 1 then 1 - x else 2⟩
  else ⟨d, y, 0⟩

/-- Eocia computes the table (R385, R410). -/
def reroute (s : State) : State :=
  if !(eociaRuns s) || !s.group.formed then s
  else { s with group := { s.group with routes := ((List.range s.group.size).filter (· ≠ me s)).map (routeTo s) } }

/-- The live port of an entry's port; in a ring, either port of its direction (R385). -/
def livePort (s : State) (n : Nat) : Option Nat :=
  if portLive s n then some n
  else if treeY s = 1 && portLive s (n + 2) then some (n + 2)
  else none

/-- The port toward a slice: the primary when it is live, and otherwise the alternate (R385, R386). -/
def portToward (s : State) (d : Nat) : Option Nat :=
  match s.group.routes.find? fun r => r.dest == d with
  | none => none
  | some r => match livePort s r.primary with
    | some n => some n
    | none => livePort s r.alternate

/-! ## Sending (R370 to R376, R378) -/

/-- Flits of a message queued on a port. -/
def queueOn (o : OutMsg) (s : State) (n : Nat) : State :=
  let fs := (splitMsg o).flatMap (flitsOf s)
  updPort n (fun p => { p with txq := p.txq ++ fs }) { s with fresh := s.fresh + 1 }

/-- The flits of a flooded message on each of some ports: the same bytes on every one. -/
def queueOnAll (o : OutMsg) (ns : List Nat) (s : State) : State :=
  let fs := (splitMsg o).flatMap (flitsOf s)
  ns.foldl (fun s n => updPort n (fun p => { p with txq := p.txq ++ fs }) s) { s with fresh := s.fresh + 1 }

/-- One message takes its way: to its port, over every live port, or by the table; one with no live way waits. -/
def routeOne (s : State) (o : OutMsg) : State :=
  let wait := fun (s : State) => { s with link := { s.link with out := s.link.out ++ [o] } }
  match o.msg with
  | .hello n _ => queueOn o s n
  | .rsBegin n _ | .rsFlit n _ _ => if portLive s n then queueOn o s n else s
  | .relay _ _ a =>
    (match o.dest with
     | none => queueOnAll o ((livePorts s).filter (· ≠ a)) s
     | some d => match portToward s d with | some n => queueOn o s n | none => wait s)
  | _ =>
    match o.dest with
    | none => queueOnAll o (livePorts s) s
    | some d => match portToward s d with | some n => queueOn o s n | none => wait s

/-- Every waiting message takes its way. -/
def routeOut (s : State) : State := s.link.out.foldl routeOne { s with link := { s.link with out := [] } }

/-- A flit of HELLO: it needs no credit (R382). -/
def isHelloFlit (f : TxFlit) : Bool := f.som && f.cls == 3 && leAt f.body 0 1 == 0x30

/-- The flit may go now (R372, R373, R383): a session in HELLO carries HELLO alone; others need a credit, a TICK flit one for each of its
two copies, and all but TICK a place in the replay buffer. -/
def maySend (p : Port) (f : TxFlit) : Bool :=
  let c := (p.acct.getD f.cls ⟨0, 0, 0, 0, 0, 0, 0, 0⟩).held
  if isHelloFlit f then true
  else if p.session ≠ .active then false
  else if f.cls = 0 then c ≥ 2
  else c ≥ 1 && p.replay.length < 512

/-- The next flit by strict priority (R375): the first of each class, TICK, MERGE, MGMT, BULK. -/
def nextTx (p : Port) : Option TxFlit :=
  let firstOf := fun (c : Nat) => (p.txq.find? fun f => f.cls == c).filter (maySend p)
  [0, 1, 3, 2].findSome? firstOf

/-- One flit on the port's lanes: both in turn, or the one that is up (R371, R387). It carries the ACK, a NAK that is due and the
credits to return, at most 255 of a class (R373). -/
def emitFlit (n : Nat) (f : TxFlit) (idle : Bool) (seq : Nat) (s : State) : State :=
  let p := portOf s n
  let both := p.lanes.getD 0 false && p.lanes.getD 1 false
  let lane := if both then b01 p.lane else if p.lanes.getD 0 false then 0 else 1
  let cr := p.acct.map fun a => min 255 a.owed
  let out : OutFlit := ⟨n, lane, flitBytes f idle seq ((p.rxSeq + 4095) % 4096) p.nakDue cr⟩
  let s := { s with link := { s.link with flits := s.link.flits ++ [out] } }
  updPort n (fun p => { p with lane := !p.lane, nakDue := false
                               acct := p.acct.map fun a => { a with owed := a.owed - min 255 a.owed } }) s

/-- Credits used by a first sending (R373). -/
def useCredits (cls k : Nat) (p : Port) : Port :=
  { p with acct := updAt p.acct cls fun a => { a with held := a.held - k, firstSent := a.firstSent + k } }

/-- One queued flit goes out: a TICK flit twice and without SEQ; another with the next SEQ, kept for replay (R372). -/
def sendFlit (n : Nat) (f : TxFlit) (s : State) : State :=
  let s := updPort n (fun p => { p with txq := p.txq.erase f }) s
  if f.cls = 0 then emitFlit n f false 0 (emitFlit n f false 0 (updPort n (useCredits 0 2) s))
  else
    let seq := (portOf s n).txSeq
    let s := updPort n (fun p =>
      let p := { p with txSeq := (seq + 1) % 4096, replay := p.replay ++ [(seq, 1, f)] }
      if isHelloFlit f then p else useCredits f.cls 1 p) s
    emitFlit n f false seq s

/-- Queued flits go out while they may. -/
def drainPort (n : Nat) : Nat → State → State
  | 0, s => s
  | k + 1, s => match nextTx (portOf s n) with
    | some f => drainPort n k (sendFlit n f s)
    | none => s

/-- The flit with no body (R370). -/
def idleFlit : TxFlit := ⟨0, false, false, false, 0, [], none⟩

/-- What every port may send goes out; port n, if it sends nothing else, sends one IDLE flit (R370). -/
def linkSend (n : Nat) (s : State) : State :=
  let s := routeOut s
  let s := (List.range 4).foldl (fun s k => drainPort k ((portOf s k).txq.length + 1) s) s
  let p := portOf s n
  if (p.session == .active || p.session == .hello) && p.lanes.any id && !(s.link.flits.any fun f => f.port == n) then
    emitFlit n idleFlit true 0 s
  else s

/-- The record of the flits driven, and of the messages completed, starts anew. -/
def linkStart (s : State) : State := { s with link := { s.link with flits := [], inbox := [] } }

/-! ## Leaving ACTIVE (R372, R374, R377, R383, R387, R389) -/

/-- A reduce-scatter message of a port. -/
def isRsOf (n : Nat) (o : OutMsg) : Bool :=
  match o.msg with
  | .rsBegin k _ | .rsFlit k _ _ => k == n
  | _ => false

/-- Streams of a port start again from RS_BEGIN (Table 18.11). -/
def restartStreams (n : Nat) (s : State) : State :=
  let upd := fun (m : Micro) => { m with rsSent := m.rsSent.filter fun x => x.2.1 != n }
  { s with training := s.training.map fun t => { t with micros := t.micros.map upd }
           link := { s.link with out := s.link.out.filter fun o => !(isRsOf n o) } }

/-- A port leaves ACTIVE or HELLO: messages to one slice that are not acknowledged go again by other ways, partial messages are
discarded, and buffers and sequence numbers start anew (R383, R387). -/
def leaveActive (n : Nat) (x : Session) (s : State) : State :=
  let p := portOf s n
  let again := ((p.replay.map (·.2.2)) ++ p.txq).filterMap (·.whole)
  let s := { s with link := { s.link with out := again ++ s.link.out } }
  let s := restartStreams n s
  let s := updPort n (fun p => { Port.reset p.fitted with marginAlarm := p.marginAlarm, peerSlice := p.peerSlice, peerPort := p.peerPort }) s
  reroute (setSession n x s)

/-- The session restarts (Table 18.5). -/
def retrain (n : Nat) (s : State) : State := if portLive s n then leaveActive n .retrain s else s

/-- Credit conservation failed on a port and class (R374, R389). -/
def conserveFails (n cls expected found : Nat) (s : State) : State :=
  retrain n (alarm 0x04 (BitVec.ofNat 64 (n + cls * 2 ^ 2 + expected % 2 ^ 24 * 2 ^ 16 + found % 2 ^ 24 * 2 ^ 40)) s)

/-- The check of one live port at a TICK (R389): the first class that fails restarts the session. -/
def conservePort (s : State) (n : Nat) : State :=
  if !(portLive s n) then s
  else
    let bad := (portOf s n).acct.zipIdx.filterMap fun a =>
      let x := a.1
      if x.returned + x.buffered ≠ x.accepted then some (a.2, x.accepted, x.returned + x.buffered)
      else if x.held + x.firstSent ≠ x.grant + x.creditsIn then some (a.2, x.grant + x.creditsIn, x.held + x.firstSent)
      else if x.held > x.grant then some (a.2, x.grant, x.held)
      else none
    match bad with
    | [] => s
    | b :: _ => conserveFails n b.1 b.2.1 b.2.2 s

/-- The check of every live port (R389). -/
def blConserve (s : State) : State := (List.range 4).foldl conservePort s

/-! ## Replay (R372) -/

/-- Every outstanding flit goes again; the session restarts when one has been sent 8 times. -/
def replayPort (n : Nat) (s : State) : State :=
  let p := portOf s n
  match p.replay with
  | [] => s
  | r :: _ =>
    if p.replay.any fun x => x.2.1 ≥ 8 then retrain n s
    else
      let s := updPort n (fun p => { p with replay := p.replay.map fun x => (x.1, x.2.1 + 1, x.2.2) }) s
      let s := trace 12 2 0 (BitVec.ofNat 32 n) (BitVec.ofNat 64 r.1) s
      p.replay.foldl (fun s x => emitFlit n x.2.2 false x.1 s) s

/-- An ACK covers every flit up to its SEQ. -/
def takeAck (ack : Nat) (p : Port) : Port :=
  match p.replay.findIdx? fun x => x.1 == ack with
  | some i => { p with replay := p.replay.drop (i + 1) }
  | none => p

/-- Credits that a flit returns (R373), in the class order of Table 18.1. -/
def takeCredits (w : Nat) (p : Port) : Port :=
  let cr := [field w 0 8, field w 8 8, field w 24 8, field w 16 8]
  { p with acct := p.acct.zipIdx.map fun a =>
      { a.1 with held := a.1.held + cr.getD a.2 0, creditsIn := a.1.creditsIn + cr.getD a.2 0 } }

/-! ## Receiving (R371 to R378, R385, R388) -/

/-- Receive buffers in the class order of Table 18.1 (Table 18.2). -/
def bufferSize (cls : Nat) : Nat := [16, 512, 1024, 64].getD cls 0

/-- One NAK for a discarded flit or a gap (R372). -/
def nakOnce (p : Port) : Port := if p.nakSent then p else { p with nakSent := true, nakDue := true }

/-- A malformed message: discarded and logged; the third in 100 ms restarts the session (R377). -/
def badMessage (n typ : Nat) (s : State) : State :=
  let s := log 0x05 0 (BitVec.ofNat 64 (n + typ * 2 ^ 8)) s
  let l := (portOf s n).malformed.filter (fun t => s.timer - t ≤ 100000000) ++ [s.timer]
  let s := updPort n (fun p => { p with malformed := l }) s
  if l.length ≥ 3 then retrain n s else s

/-- Bits that a body may not set, as (offset, mask) of 32-bit words, by type and phase (Tables 9.3, 9.4, 18.6 to 18.10, 21.9; R378,
R380, R381, R388). -/
def reservedBody (t : Nat) : List (Nat × Nat) :=
  let above := fun (n : Nat) => 2 ^ 32 - 2 ^ n
  match t with
  | 0x01 => [(8, above 22)]
  | 0x02 | 0x03 => [(8, above 6)]
  | 0x10 => [(0, above 28), (12, 0xFC00)]
  | 0x11 => [(0, above 24), (12, above 19), (16, above 24)]
  | 0x12 => [(0, above 24), (20, above 11)]
  | 0x13 => [(0, above 24), (8, above 12), (16, above 22)]
  | 0x14 => [(0, above 24), (4, above 17), (16, above 22)]
  | 0x15 => [(0, above 1), (40, above 0), (44, above 0)]
  | 0x20 => [(4, above 1), (8, above 17)]
  | 0x22 => [(8, above 18), (12, above 0)]
  | 0x30 => [(0, above 31), (8, above 17), (20, above 0)]
  | 0x31 => [(0, above 6), (4, above 0)]
  | 0x32 => [(0, above 22 + 0xFFE0)]
  | 0x36 => [(0, above 30), (4, above 18), (12, above 8), (24, above 4)]
  | _ => []

/-- Reserved bits of chunk records (Table 12.4). -/
def reservedChunks (b : Bytes) : Nat → Nat → List (Nat × Nat)
  | 0, _ => []
  | k + 1, off =>
    if off ≥ b.length then []
    else
      let n := field (leAt b off 4) 14 9
      (off - 16, 2 ^ 32 - 2 ^ 23) :: ((List.range n).map fun i => (off - 12 + 4 * i, 2 ^ 32 - 2 ^ 22))
        ++ reservedChunks b k (off + 4 + 4 * n)

/-- Reserved bits of the entries that a body repeats: shell entries, delta entries, ranges, chunk records (Tables 9.4, 12.4, 20.2; R322). -/
def reservedEntries (b : Bytes) : List (Nat × Nat) :=
  match leAt b 0 1 with
  | 0x12 => (List.range (field (leAt b 36 4) 0 11)).map fun i => (28 + 8 * i, 2 ^ 32 - 2 ^ 28)
  | 0x21 => reservedChunks b b.length 16
  | 0x22 => (List.range (leAt b 24 2)).flatMap fun j => [(20 + 80 * j, 2 ^ 32 - 1), (24 + 80 * j, 2 ^ 32 - 1), (28 + 80 * j, 2 ^ 32 - 1)]
  | 0x35 => (List.range ((b.length - 16) / 8)).flatMap fun j => [(8 * j, 2 ^ 32 - 2 ^ 25), (8 * j + 4, 2 ^ 32 - 1)]
  | _ => []

/-- A word has a bit of a mask. -/
def meets (w mask : Nat) : Bool := w &&& mask ≠ 0

/-- The message breaks R377: an unknown type, a wrong class, a reserved bit, a LEN that disagrees. -/
def isMalformed (cls : Nat) (b : Bytes) : Bool :=
  let t := leAt b 0 1
  let w := leAt b 0 4
  classOfType t != some cls || (cls ≠ 1 && bitOf w 9) || field w 10 6 ≠ 0 || field (leAt b 8 4) 19 13 ≠ 0 || leAt b 12 4 ≠ 0
    || b.length ≠ 16 + field w 16 16
    || (reservedBody t ++ reservedEntries b).any fun r => meets (leAt b (16 + r.1) 4) r.2

/-- A message without its HOPS field: two copies of one message are equal here. -/
def copyKey (b : Bytes) : Bytes :=
  b.take 8 ++ leBytes 4 (leAt b 8 4 - field (leAt b 8 4) 14 5 * 2 ^ 14) ++ b.drop 12

/-- The message with one more hop. -/
def oneHop (b : Bytes) : Bytes := b.take 8 ++ leBytes 4 (leAt b 8 4 + 2 ^ 14) ++ b.drop 12

/-- A flooded message or an acknowledgement was seen before: TICK and COMMIT by TYPE and STEP, others by content within 50 µs
(R372; log entry 53). The record of copies grows by a new one. -/
def seenBefore (b : Bytes) (s : State) : Bool × State :=
  let t := leAt b 0 1
  if t = 1 || t = 2 then
    let k := (t, leAt b 16 8)
    if s.link.tickSeen.contains k then (true, s)
    else (false, { s with link := { s.link with tickSeen := (s.link.tickSeen ++ [k]).drop (s.link.tickSeen.length - 15) } })
  else
    let k := copyKey b
    let recent := s.link.floodSeen.filter fun x => s.timer - x.2 ≤ 50000
    if recent.any fun x => x.1 == k then (true, { s with link := { s.link with floodSeen := recent } })
    else (false, { s with link := { s.link with floodSeen := recent ++ [(k, s.timer)] } })

/-- A message is stale (R376, R388): an old FORM_ID, or a hole as its source; sessions, formation and regroup are exempt. -/
def isStale (s : State) (b : Bytes) : Bool :=
  let t := leAt b 0 1
  let src := field (leAt b 8 4) 0 6
  !(t == 0x30 || t == 0x36 || t == 0x37)
    && (leAt b 4 4 ≠ s.group.formId || (s.group.formed && isHole s src && !(s.group.joining.contains src)))

/-- The message is kept as completed by this flit. -/
def keepMsg (n cls : Nat) (b : Bytes) (s : State) : State :=
  let m : InMsg := ⟨n, cls, b⟩
  { s with link := { s.link with inbox := s.link.inbox ++ [m] } }

/-- A message to relay joins the waiting messages (R378, R385). -/
def relayMsg (n cls : Nat) (dest : Option Nat) (b : Bytes) (s : State) : State :=
  let o : OutMsg := ⟨dest, .relay cls (oneHop b) n⟩
  { s with link := { s.link with out := s.link.out ++ [o] } }

/-- A flooded message: taken at its first copy and passed on (R378, R388). -/
def floodArrives (n cls : Nat) (b : Bytes) (s : State) : State :=
  let w := leAt b 8 4
  let r := seenBefore b s
  if r.1 || field w 0 6 = me s then r.2
  else
    let s := if field w 14 5 < 16 then relayMsg n cls none b r.2 else r.2
    keepMsg n cls b s

/-- A message for one slice: taken here, or relayed; BL_ROUTE after 16 hops (R385). -/
def unicastArrives (n cls : Nat) (b : Bytes) (s : State) : State :=
  let w := leAt b 8 4
  let dest := field w 8 6
  if leAt b 0 1 = 0x30 then keepMsg n cls b s
  else if dest = me s then
    if cls = 0 then
      let r := seenBefore b s
      if r.1 then r.2 else keepMsg n cls b r.2
    else keepMsg n cls b s
  else if field w 14 5 ≥ 16 then alarm 0x16 (BitVec.ofNat 64 (dest + leAt b 0 1 * 2 ^ 8)) s
  else relayMsg n cls (some dest) b s

/-- A whole message (R376, R377). -/
def messageIn (n cls : Nat) (b : Bytes) (s : State) : State :=
  let t := leAt b 0 1
  if isMalformed cls b then badMessage n t s
  else if isStale s b then log 0x04 0 (BitVec.ofNat 64 (n + t * 2 ^ 8 + leAt b 4 4 * 2 ^ 32)) s
  else if bitOf (leAt b 0 4) 8 then floodArrives n cls b s
  else unicastArrives n cls b s

/-- The message of a class that a port is receiving. -/
def partialOf (p : Port) (cls : Nat) : Option Bytes := (p.partials.find? fun x => x.1 == cls).map (·.2)

/-- The part of a class replaced. -/
def setPartial (cls : Nat) (b : Option Bytes) (p : Port) : Port :=
  { p with partials := p.partials.filter (fun x => x.1 != cls) ++ (b.map fun x => (cls, x)).toList }

/-- A flit with a body joins its message (R370, R376). A raw flit is whole in itself; its form stands before its elements. -/
def assemble (n cls : Nat) (w : Nat) (body : Bytes) (s : State) : State :=
  let p := portOf s n
  let len := field w 8 8
  let som := bitOf w 3
  let eom := bitOf w 4
  if bitOf w 5 then
    let form := field w 6 2
    if cls ≠ 2 || form = 3 || (form = 1 && p.proto < 3) || len > 240 then badMessage n 0 s
    else keepMsg n cls (BitVec.ofNat 8 form :: body.take len) s
  else
    let part := body.take (if eom then len else 240)
    match partialOf p cls, som with
    | none, false => badMessage n 0 s
    | old, _ =>
      let broken := som && old.isSome
      let whole := (if som then [] else old.getD []) ++ part
      let s := updPort n (setPartial cls (if eom then none else some whole)) s
      let s := if broken || len > 240 then badMessage n (leAt (old.getD []) 0 1) s else s
      if eom && len ≤ 240 then messageIn n cls whole s else s

/-- The flit has left its class buffer: accepted, and its credit to return (R373). HELLO has a place of its own (R382). -/
def acceptFlit (cls : Nat) (hello : Bool) (p : Port) : Port :=
  if hello then p
  else { p with acct := updAt p.acct cls fun a => { a with accepted := a.accepted + 1, returned := a.returned + 1, owed := a.owed + 1 } }

/-- A good flit with a body (R371 to R374). -/
def flitIn (n : Nat) (w seq : Nat) (body : Bytes) (s : State) : State :=
  let cls := field w 0 2
  let p := portOf s n
  let hello := bitOf w 3 && cls = 3 && leAt body 0 1 = 0x30
  let acct := p.acct.getD cls ⟨0, 0, 0, 0, 0, 0, 0, 0⟩
  let size := bufferSize cls
  if cls ≠ 0 && seq ≠ p.rxSeq then
    if (seq + 4096 - p.rxSeq) % 4096 < 2048 then updPort n nakOnce s else s
  else if !hello && acct.buffered + acct.owed ≥ size then conserveFails n cls size (size + 1) s
  else
    let s := updPort n (fun p =>
      let p := acceptFlit cls hello p
      if cls = 0 then p else { p with rxSeq := (p.rxSeq + 1) % 4096, nakSent := false }) s
    assemble n cls w body s

/-- A flit on a lane (R369 to R375): discarded with one NAK where the FEC or the CRC fails; else its ACK, NAK and credits act, and its
body joins its message. Set reserved bits of the header (Table 18.1) change nothing: DESIGN CHOICE 106. -/
def flitArrives (n lane : Nat) (b : Bytes) (fecOk : Bool) (s : State) : State :=
  let p := portOf s n
  if !(p.session == .active || p.session == .hello) || !(p.lanes.getD lane false) then s
  else if !fecOk || b.length ≠ 256 || (crc32 (b.take 252)).toNat ≠ leAt b 252 4 then
    linkSend n (updPort n nakOnce (linkStart s))
  else
    let w := leAt b 0 4
    let k := leAt b 4 4
    let s := linkStart s
    let s := updPort n (fun p => takeCredits (leAt b 8 4) (takeAck (field k 12 12) p)) s
    let s := if bitOf k 24 then replayPort n s else s
    let s := if bitOf w 2 || (portOf s n).session = .retrain then s else flitIn n w (field k 0 12) (sub b 12 240) s
    linkSend n s

/-! ## Sessions and lanes (R383, R387, R451) -/

/-- HELLO of a port (Table 18.10): every buffer place is granted, the HELLO place excepted. -/
def myHello (s : State) (n : Nat) : Hello :=
  { protoMin := 2, protoMax := 3, slice := me s, groupSz := s.group.size, port := n, lastForm := s.group.lastForm,
    iface := s.regs.fwRunning, epochs := epochsOf s (me s), features := featuresOf s (me s),
    crTick := 16, crMerge := 512, crMgmt := 63, crBulk := 1024 }

/-- Slice number, group size and expected topology for the next formation or join, read once at its start: the straps', or the overrides'
(Tables 16.3, 16.4, 16.10 and 21.6). -/
def takeNumbers (s : State) : State :=
  if s.group.formed || s.group.forming.isSome || s.group.numbered then s
  else
    let n := if s.regs.sliceOvrEn then s.regs.sliceOvr.toNat else (s.straps.extractLsb' 0 6).toNat
    let g := if s.regs.grpOvrEn then s.regs.grpSize.toNat else (s.straps.extractLsb' 6 7).toNat
    let want := fun (v : BitVec 7) => if s.regs.grpOvrEn then v.toNat else 0
    { s with group := { s.group with slice := n, size := g, wantX := want s.regs.grpX, wantY := want s.regs.grpY, numbered := true } }

/-- A port enters HELLO and sends HELLO once (R382). -/
def enterHello (n : Nat) (s : State) : State :=
  let s := takeNumbers s
  let o : OutMsg := ⟨some 0, .hello n (myHello s n)⟩
  let s := setSession n .hello s
  linkSend n (linkStart { s with link := { s.link with out := s.link.out ++ [o] } })

/-- A lane marked up or down. -/
def setLane (n lane : Nat) (up : Bool) (s : State) : State := updPort n (fun p => { p with lanes := p.lanes.set lane up }) s

/-- A lane's FEC locks: training ends for the port, or the lane joins it (R383, R387). -/
def laneLocks (n lane : Nat) (s : State) : State :=
  let p := portOf s n
  if !(laneFitted s n lane) then s
  else match p.session with
    | .train | .retrain => enterHello n (setLane n lane true s)
    | .hello | .active => setLane n lane true s
    | .down => s

/-- Both lanes of a port are lost (R387): RETRAIN from ACTIVE; a session in HELLO goes DOWN. -/
def portLost (n : Nat) (s : State) : State :=
  match (portOf s n).session with
  | .active => leaveActive n .retrain s
  | .hello => leaveActive n .down s
  | _ => s

/-- A lane fails (R387): the port goes on with the other one and replays, or is lost. -/
def laneLost (n lane : Nat) (s : State) : State :=
  let p := portOf s n
  if !(p.session == .active || p.session == .hello) || !(p.lanes.getD lane false) then s
  else
    let s := setLane n lane false s
    if (portOf s n).lanes.any id then
      let s := alarm 0x17 (BitVec.twoPow 64 (2 * n + lane)) s
      linkSend n (replayPort n (linkStart s))
    else portLost n s

/-- A port that is DOWN, fitted and powered trains (R383). -/
def trainPort (n : Nat) (s : State) : State :=
  let p := portOf s n
  if p.session = .down && p.fitted && s.power.on.getLsbD (136 + n) then setSession n .train s else s

/-- Training failed (R383). -/
def trainFails (n : Nat) (s : State) : State := if (portOf s n).session = .train then setSession n .down s else s

/-- Retraining failed: BL_PORT_DOWN (R383, R387). -/
def retrainFails (n : Nat) (s : State) : State :=
  if (portOf s n).session = .retrain then setSession n .down (alarm 0x18 (BitVec.twoPow 64 n) s) else s

/-- The image runs, or is being started again: no boot hold (R448). -/
def pastBoot (s : State) : Bool :=
  match s.whisk with
  | .running | .restarting _ _ => true
  | _ => false

/-- Training signal at a port that is DOWN during bring-up (R451). -/
def trainingSignal (n : Nat) (s : State) : State := if s.group.formed || !(pastBoot s) then s else trainPort n s

/-- Low margin of a lane: one alarm for the lane (R369). -/
def marginLow (n lane : Nat) (s : State) : State :=
  let p := portOf s n
  if !(p.lanes.getD lane false) || p.marginAlarm.getD lane true then s
  else alarm 0x15 (BitVec.twoPow 64 (2 * n + lane)) (updPort n (fun p => { p with marginAlarm := p.marginAlarm.set lane true }) s)

/-- A domain is acknowledged: what waited for it goes on, and a port's domain starts its training (R383, R436, R439). -/
def domainUp (d : Nat) (s : State) : State :=
  let was := s.power.on.getLsbD d
  let s := returnCredits (pwrAck d s)
  if !was && s.power.on.getLsbD d && 136 ≤ d && d < 140 && pastBoot s then trainPort (d - 136) s else s

/-! ## Meanings -/

/-- LINK_FLIT. -/
def execLinkFlit (n lane : Nat) (b : Bytes) (fecOk : Bool) (s : State) : Host.Outcome State Fault Refusal :=
  .next (flitArrives n lane b fecOk s)

/-- REPLAY_TIMEOUT. -/
def execReplayTimeout (n : Nat) (s : State) : Host.Outcome State Fault Refusal :=
  .next (if portLive s n && !(portOf s n).replay.isEmpty then linkSend n (replayPort n (linkStart s)) else s)

/-- LANE_FAIL. -/
def execLaneFail (n lane : Nat) (s : State) : Host.Outcome State Fault Refusal := .next (laneLost n lane s)

/-- LANE_SILENCE. -/
def execLaneSilence (n lane : Nat) (s : State) : Host.Outcome State Fault Refusal := .next (laneLost n lane s)

/-- LANE_LOCK. -/
def execLaneLock (n lane : Nat) (s : State) : Host.Outcome State Fault Refusal := .next (laneLocks n lane s)

/-- TRAIN_TIMEOUT. -/
def execTrainTimeout (n : Nat) (s : State) : Host.Outcome State Fault Refusal := .next (trainFails n s)

/-- RETRAIN_TIMEOUT. -/
def execRetrainTimeout (n : Nat) (s : State) : Host.Outcome State Fault Refusal := .next (retrainFails n s)

/-- PORT_RETRY. -/
def execPortRetry (n : Nat) (s : State) : Host.Outcome State Fault Refusal := .next (if eociaRuns s then trainPort n s else s)

/-- TRAINING_SIGNAL. -/
def execTrainingSignal (n : Nat) (s : State) : Host.Outcome State Fault Refusal := .next (trainingSignal n s)

/-- BL_MARGIN. -/
def execBlMargin (n lane : Nat) (s : State) : Host.Outcome State Fault Refusal := .next (marginLow n lane s)

/-- PM_PWR_ACK. -/
def execPmPwrAck (d : Nat) (s : State) : Host.Outcome State Fault Refusal := .next (domainUp d s)

end Sys2Proof.Machine
end

