-- ==== Sys2Proof/Machine/Boundary.lean ====
section
/-! DEFINITION. The boundary between two steps: what governs from a TICK on, rows kept and freed, trees, allowances, conservation checks,
the state cache, placement and power at a TICK, and HIP_ROW (R60, R62, R85, R90, R91, R102, R104, R112, R149 to R151, R206, R240, R247,
R248, R258, R259, R320, R322, R364, R430, R431, R437, R460). -/

namespace Sys2Proof.Machine

/-! ## What governs from a TICK on (R91, R149 to R151, R258, R320, R322) -/

/-- A range table that every member has stored governs, and its command completes (R322, R450). The entry of a hole or of an idle member governs
too: no slice serves its chunks, and they do not count as uncovered (DESIGN CHOICE 154). -/
def rangeGoverns (s : State) : State :=
  match s.group.nextTable with
  | none => s
  | some (v, t) =>
    if !((members s).all fun n => s.group.nextStored.contains n) then s
    else
      let put := fun (g : Group) =>
        if g.formed then { g with vocab := v, ranges := t, second := [], nextTable := none, nextStored := [] }
        else { g with soloVocab := v, soloRun := t.headD ⟨0, 0⟩, nextTable := none, nextStored := [] }
      finish (fun p => p.wait == .range) (fun _ => .ok) (fun _ => []) (moveRuns put s)

/-- Blocks of the overlays that newer ones replace are freed: all but the newest use, or every one of an empty overlay (R320). -/
def freeOldOverlay (p : Nat) (o : Overlay) (s : State) : State :=
  let mine := fun (u : BlockUse) => u.part == p && u.use == .overlay o.variant
  match (s.pot.uses.filter mine).getLast? with
  | none => s
  | some last => freeUses (fun u => mine u && (o.strips.isEmpty || u != last)) s

/-- A head at a TICK: its new strips and overlays are in force; copies of strips that changed are dropped (R91, R320). -/
def headTick (s : State) (h : Head) : State :=
  let p := h.part
  let new := h.next.getD h.strips
  let changed := (changedStrips h.strips new).map (·.first)
  let vs := h.nextOverlays.map (·.variant)
  let overlays := h.overlays.filter (fun o => !(vs.contains o.variant)) ++ h.nextOverlays.filter fun o => !o.strips.isEmpty
  let put := fun (x : Head) => { x with strips := new, next := none, overlays := overlays, nextOverlays := [] }
  let s := h.nextOverlays.foldl (fun s o => freeOldOverlay p o s) { s with heads := updFirst (fun x => x.part == p) put s.heads }
  dropStale (fun i => i.part == p && (if i.variant = 0 then changed.contains i.first else vs.contains i.variant)) s

/-- Every head at a TICK. -/
def headsGovern (s : State) : State := s.heads.foldl headTick s

/-- Mask objects and bias lists at a TICK: a new version governs, a deleted one goes (R151). -/
def objectsGovern (s : State) : State :=
  let s := s.masks.foldl (fun s m =>
    if m.next.isSome then
      let s := reuse m.part (.maskNext m.id) (.mask m.id) (freeUses (fun u => u.part == m.part && u.use == .mask m.id) s)
      updMask m.part m.id (fun x => { x with cur := x.next, curAt := x.nextAt, next := none, deleting := false
                                             came := x.came.filter fun c => x.load == some c.1 }) s
    else if m.deleting then
      updMask m.part m.id (fun x => { x with cur := none, deleting := false }) (freeUses (fun u => u.part == m.part && u.use == .mask m.id) s)
    else s) s
  let s := s.biases.foldl (fun s m =>
    if m.next.isSome then
      let s := reuse m.part (.biasNext m.id) (.bias m.id) (freeUses (fun u => u.part == m.part && u.use == .bias m.id) s)
      updBias m.part m.id (fun x => { x with cur := x.next, curAt := x.nextAt, curN := x.nextN, next := none, deleting := false
                                             came := x.came.filter fun c => x.load.any fun l => l.1 == c.1 }) s
    else if m.deleting then
      updBias m.part m.id (fun x => { x with cur := none, deleting := false }) (freeUses (fun u => u.part == m.part && u.use == .bias m.id) s)
    else s) s
  sweepObjects s

/-- Overlay images of a dropped variant that are still being read are not loaded (R264). -/
def voidOverlays (p v : Nat) (s : State) : State :=
  let put := fun (j : ReadJob) => match j.purpose with
    | .overlayImage c _ => if c.part = p && arg c 3 = v then { j with purpose := .overlayVoid c } else j
    | _ => j
  { s with hmp := { s.hmp with jobs := s.hmp.jobs.map put } }

/-- Variants dropped before this step go, with their overlays (R258). -/
def variantsGovern (s : State) : State :=
  let gone := s.variants.filter fun v => v.untilStep.any fun u => u ≤ s.step.step
  gone.foldl (fun s v =>
    let s := voidOverlays v.part v.num (freeUses (fun u => u.part == v.part && u.use == .overlay v.num) s)
    let drop := fun (h : Head) =>
      { h with overlays := h.overlays.filter (fun o => o.variant != v.num), nextOverlays := h.nextOverlays.filter fun o => o.variant != v.num }
    dropStale (fun i => i.part == v.part && i.variant == v.num)
      { s with variants := s.variants.erase v, heads := updFirst (fun h => h.part == v.part) drop s.heads
               overlayImages := s.overlayImages.filter fun o => !(o.part == v.part && o.variant == v.num) }) s

/-! ## Requests and rows (R60, R62, R112, R151, R240, R258) -/

/-- Terminal requests whose final record is written are FREE from this TICK on (R240). -/
def releases (s : State) : State :=
  let l := s.reqs.filter fun e => e.released && e.state.terminal && homedHere s e
  l.foldl (fun s e => releaseReq e.req (announceOut (stepNow s) (.released e.req) s)) s

/-- A row has the step that is outstanding for its request (R60). -/
def rowCarries (s : State) (r : RowRec) : Bool :=
  (reqOf s r.id).any fun e => e.heldStep.any fun k => k % 65536 == r.stepSeq % 65536

/-- A row held early for a request that is now carried: its step field is not the outstanding one (R60, log entry 57). -/
def rowStray (s : State) (r : RowRec) : Bool :=
  r.useStep ≥ s.step.step && !(rowCarries s r)
    && (reqOf s r.id).any fun e => e.heldStep.isSome && !e.state.terminal && e.state != .paused

/-- A row that came after the commit stamp of its step, for a request that was not carried: it is used in this step, unless the request
has another row for it (R60, R65, R228; log entry 66). -/
def rowWaits (s : State) (e : ReqEntry) (r : RowRec) : Bool :=
  r.useStep < s.step.step && e.heldStep.isNone && e.state.takesRows && !(s.rows.any fun x => ofReq e.req x && x.useStep ≥ s.step.step)

/-- A row stays for this step: one held early, one carried, or one of a terminal request that is not FREE yet (R60, R65, R240, R259). -/
def rowStays (s : State) (r : RowRec) : Bool :=
  match reqOf s r.id with
  | none => false
  | some e => e.state.terminal || (e.state != .paused && (rowCarries s r || (r.useStep ≥ s.step.step && e.heldStep.isNone) || rowWaits s e r))

/-- Early rows beyond the 8,192 of the step, carried rows counted first, the last to arrive first (R61). -/
def rowsOver (s : State) : List RowRec :=
  let l := s.rows.filter fun r => r.kind != 2 && r.useStep == s.step.step
  let early := l.filter fun r => !r.carried
  early.drop (8192 - (l.length - early.length))

/-- The rows beyond the limit are rejected, and not delivered (R61). -/
def limitRows (s : State) : State :=
  let l := rowsOver s
  let s := l.foldl (fun s r => rejectRow r .rowLimit s) s
  dropRows (fun r => l.contains r) s

/-- Rows at a TICK, of the requests that satisfy a test: freed, or carried into this step (R60, R61, R62). -/
def rowsTick (ok : Nat → Bool) (s : State) : State :=
  let mine := fun (r : RowRec) => r.kind == 2 || ok r.id
  let s := (s.rows.filter fun r => mine r && rowStray s r).foldl (fun s r => rejectRow r .step s) s
  let s := dropRows (fun r => mine r && !(rowStays s r)) s
  let m := s.step.step
  let upd := fun (r : RowRec) =>
    if !(mine r) then r
    else if rowCarries s r && r.useStep < m then
      { r with useStep := m, passed := [], sieved := false, rescore := 0, carried := true, lateArrival := false }
    else if r.kind != 2 && r.useStep < m && (reqOf s r.id).any (fun e => !e.state.terminal) then { r with useStep := m, lateArrival := false }
    else r
  limitRows { s with rows := s.rows.map upd }

/-- Held rows that name a variant or a mask which no longer governs are dropped, each with its rejection (R151, R258). -/
def rowsNaming (s : State) : State :=
  let why := fun (r : RowRec) =>
    if r.variant ≠ 0 && !(variantGoverns s r.part r.variant s.step.step) then some Reason.variant
    else if !(maskExists s r.part r.mask) then some Reason.mask else none
  let l := s.rows.filter fun r => (why r).isSome
  let s := dropRows (fun r => (why r).isSome) (l.foldl (fun s r => rejectRow r ((why r).getD .mask) s) s)
  (l.filter (rowCarries s)).foldl (fun s r => rowGone r.id r.useStep s) s

/-- The trees that this step uses are checked (R206). -/
def treesTick (s : State) : State :=
  let qs := (s.rows.filter fun r => r.tree.spec && r.useStep == s.step.step && r.tree.node == 0).map (·.id)
  qs.foldl (fun s q => treeCheck q s) s

/-! ## Allowances (R247) -/

/-- Allowances of a tenant's requests, in ascending id, from what is left. -/
def allowList (reserve : Nat) : Nat → List ReqEntry → List (Nat × Nat)
  | _, [] => []
  | left, e :: es =>
    let a := min left (min reserve e.outLeft)
    (e.req, a) :: allowList reserve (left - a) es

/-- Every request's allowance for the step. -/
def allowances (s : State) : List (Nat × Nat) :=
  (s.tenants.filter (·.bound)).flatMap fun t =>
    allowList t.reserve t.balance
      (sortBy (fun (a b : ReqEntry) => a.req < b.req) (s.reqs.filter fun e => e.info.tenant == t.tenant && e.state.takesRows))

/-- The allowances in force (R247). -/
def allowTick (s : State) : State :=
  let l := allowances s
  let put := fun (e : ReqEntry) => { e with allowance := ((l.find? fun x => x.1 == e.req).map (·.2)).getD 0 }
  { s with reqs := s.reqs.map put }

/-! ## Conservation (R102, R248, R364) -/

/-- The blocks that the uses of a partition name. -/
def usedBlocks (s : State) (p : Nat) : Nat := total ((s.pot.uses.filter fun u => u.part == p).map fun u => u.blocks.length)

/-- A partition frozen by a conservation check, unless it is frozen already (R102, R248, R362). The check concerns no port: PORT reads 0 in
the alarm and in ARG of the log record (DESIGN CHOICE 56). -/
def freezePart (p : Nat) (s : State) : State :=
  if partFrozen s p then s else freeze (.part p) 0 p (BitVec.ofNat 64 (leAt (errorBytes s 0 p 0 1 0 0 true) 0 8)) s

/-- STK_CONSERVE (R102): partition 15 stands for the sum of all. -/
def stkConserve (s : State) : State :=
  let bad := (List.range 12).filter fun p => usedBlocks s p ≠ ownedBy s p
  let s := bad.foldl (fun s p => freezePart p (alarm 0x01 (BitVec.ofNat 64 p) s)) s
  let all := ((List.range s.pot.blocks.length).filter (inScratch s s.regs.stcInForce)).length
  if freeCount s + leavingCount s + total ((List.range 12).map (ownedBy s)) ≠ all then alarm 0x01 15 s else s

/-- TENANT_CONSERVE (R248). -/
def tenantConserve (s : State) : State :=
  let bad := s.tenants.filter fun t =>
    t.bound && (t.balance + t.drained + t.debited ≠ t.credited || t.debitedAtTick + t.committed ≠ t.debited)
  let s := bad.foldl (fun s t => freezePart t.part (alarm 0x02 (BitVec.ofNat 64 t.tenant) s)) s
  let next := fun (t : Tenant) => { t with debitedAtTick := t.debited, committed := 0 }
  { s with tenants := s.tenants.map next }

/-- PORT_CONSERVE of one row of Table 17.11, and the freeze of its master (log entry 56 for the log's ARG). -/
def portFails (row expected found : Nat) (m : Option (Master × Nat)) (s : State) : State :=
  let s := alarm 0x03 (BitVec.ofNat 64 (row + expected % 2 ^ 24 * 2 ^ 16 + found % 2 ^ 24 * 2 ^ 40)) s
  match m with
  | some (m, port) => freeze m port 0 (BitVec.ofNat 64 (leAt (errorBytes s port 0 0 1 0 0 true) 0 8)) s
  | none => event 3 (errorBytes s 5 0 0 1 0 0 false) s

/-- One equality of Table 17.11, unless its master is frozen already. -/
def portHolds (ok : Bool) (row expected found : Nat) (m : Option (Master × Nat)) (s : State) : State :=
  if ok || (m.any fun x => masterFrozen s x.1) then s else portFails row expected found m s

/-- The conservation checks of Table 17.11 (R364). -/
def portsConserve (s : State) : State :=
  let hip := fun (c : HipClass) (s : State) =>
    let h := hipPort s c
    portHolds (h.returned + h.owed == 1024 + h.received && h.received ≤ h.returned) 1 (1024 + h.received) (h.returned + h.owed)
      (some (.hip, hipNum c)) s
  let hmp := fun (s : State) =>
    let out := (s.hmp.txns.filter fun t => t.tag.isSome && !t.waiting).length
    portHolds (s.hmp.issued == s.hmp.completed + out + s.hmp.abandoned) 2 s.hmp.issued (s.hmp.completed + out + s.hmp.abandoned)
      (some (.hmp, 2)) s
  let gbp := fun (c : GbpCh) (s : State) =>
    let g := gbpPort s c
    portHolds (g.received == g.sent + g.credits && g.acks ≤ g.sent) 3 g.received (g.sent + g.credits) (some (.gbp, gbpNum c)) s
  let evt := fun (s : State) =>
    portHolds (s.evt.received == s.evt.sent + s.evt.credits + s.evt.excess && s.evt.credits ≤ 512) 4 s.evt.received
      (s.evt.sent + s.evt.credits + s.evt.excess) none s
  evt (gbp .b (gbp .a (hmp (hip .latency (hip .bulk s)))))

/-- The checks of a TICK; while Eocia does not run, only the tenants' counts of the step begin anew. -/
def conserve (s : State) : State :=
  if eociaRuns s then tenantConserve (blConserve (portsConserve (stkConserve s)))
  else { s with tenants := s.tenants.map fun t => { t with debitedAtTick := t.debited, committed := 0 } }

/-! ## State cache, streams, power (R89, R104, R108, R437, R460) -/

/-- STC_CFG takes effect (R104): the pairs to be added are free and no scrub runs; the whole cache is written back and invalidated. -/
def cacheTick (s : State) : State :=
  let want := s.regs.stcSteps
  if want = s.regs.stcInForce || s.regs.scrub ≠ 0 then s
  else
    let joins := (List.range s.pot.blocks.length).filter fun b => inScratch s s.regs.stcInForce b && !(inScratch s want b)
    if joins.any fun b => s.pot.blocks.getD b .free != .free then s
    else
      let s := flushCache s
      { s with regs := { s.regs with stcInForce := want }
               dbg := { s.dbg with mem := cellDrop (inBlocks (List.range s.pot.blocks.length)) s.dbg.mem } }

/-- The lines of every request with a row of the open step are fetched (R108). -/
def fetchHeld (s : State) : State :=
  let qs := (s.rows.filter fun r => r.useStep == s.step.step).map (·.id)
  qs.foldl (fun s q => fetchLines q s) s

/-- Streaming at a TICK (R89): each head's streamed strips of the step are fixed and none of them is held; fetches that have not ended go on,
and failed ones are made again. -/
def streamsTick (s : State) : State :=
  if s.place.streamStep = s.step.step then streamsGo s
  else
    let open_ := s.place.streams.filter fun x => !x.2
    let going := fun (i : StripId) => s.hmp.jobs.any fun j => j.purpose == .stream i
    let s := { s with place := { s.place with streamStep := s.step.step, streamed := s.heads.flatMap (fun h => streamedOf s h.part)
                                              streams := open_.filter (fun x => going x.1), released := [], trained := [] } }
    streamsGo ((open_.filter fun x => !(going x.1)).foldl (fun s x => refetchStrip x.1 s) s)

/-- CONS of the log ring is read at each TICK (R460). -/
def logConsRead (s : State) : State :=
  if s.regs.logEn && !s.tele.logStopped && eociaRuns s then hmpRead 15 (s.regs.logBase.toNat + 8) 4 .rdb .logCons s else s

/-! ## The boundary -/

/-- What a TICK does once every outcome of the step before it has been applied here. -/
def boundary (s : State) : State :=
  let s := joinTick (rejoinTick (regroupTick s))
  let s := releases (rangeGoverns s)
  let s := variantsGovern (objectsGovern (headsGovern s))
  let s := rowsNaming (rowsTick (fun _ => true) (cacheTick s))
  let s := allowTick (treesTick s)
  let s := retryTokens (logConsRead (reissueWrites (conserve s)))
  let s := ageHeat (wakePans (placementPlan (agePans s)))
  fetchHeld (streamsTick s)

/-- A step has opened while changes of the one before are still due: the rows of the requests that rest on none of those changes go on,
with the allowances of the TICK (R59). -/
def earlyBoundary (s : State) : State :=
  let ok := fun (q : Nat) => (reqOf s q).any (settled s)
  let s := allowTick (treesTick (rowsNaming (rowsTick ok s)))
  fetchHeld (streamsTick (judgeWaiting s))

/-! ## Meanings -/

/-- Pip formed words between two states. -/
def pipWorked (s t : State) : Bool := t.cnt.pipLRuns != s.cnt.pipLRuns || t.cnt.pipTWords != s.cnt.pipTWords

/-- HIP_ROW; a parity error in the words of a training row, which is saved all the same (R179); pans that are off wake for its work, and the lines of its request are fetched (R108, R437). -/
def execHipRow (c : HipClass) (bs : WithParity (List HipBeat)) (s : State) : Host.Outcome State Fault Refusal :=
  let t := hipRow c bs.val s
  .next (fetchHeld (wakePans (if pipWorked s t then parityError bs.parity t else t)))

end Sys2Proof.Machine
end

