-- ==== Sys2Proof/Machine/Publish.lean ====
section
/-! DEFINITION. PUBLISH: the changes of a stamped step applied in order, the end of PUBLISH, what a STATE_SYNC message does when it
arrives, and the commit stamp (R58, R59, R66, R151, R220, R244, R316, R378, R414, R427). -/

namespace Sys2Proof.Machine

/-! ## One change applied in PUBLISH (R151, R220, R244, R253, R256 to R258, R320) -/

/-- The first pending command that satisfies a test completes. -/
def finishOne (f : PendCmd → Bool) (st : Status) (res : List (Nat × Word)) (s : State) : State :=
  match s.eocia.pending.find? f with
  | none => s
  | some p => complete p.op p.cmd st res { s with eocia := { s.eocia with pending := s.eocia.pending.erase p } }

/-- A pending command that waits for PUBLISH. -/
def waitsPublish (p : PendCmd) : Bool := match p.wait with | .publish _ => true | _ => false

/-- A tenant change applied, and the drain or unbind that waited for it (Table 12.2). -/
def tenantHeld (own : Bool) (n u : Nat) (x : TenantChange) (s : State) : State :=
  let r := applyTenant u n x s
  let mine := fun (op : Op) (p : PendCmd) => p.op == op && arg p.cmd 0 % 1024 == u && waitsPublish p
  match own, x with
  | true, .drain _ => finishOne (mine .tenantDrain) .ok [(0, BitVec.ofNat 32 (r.2.getD 0))] r.1
  | true, .unbind =>
    (match r.2 with
     | some d => finishOne (mine .tenantUnbind) .ok [(0, BitVec.ofNat 32 d), (1, BitVec.ofNat 32 (d / 2 ^ 32))] r.1
     | none => finishOne (mine .tenantUnbind) .busy [] r.1)
  | _, _ => r.1

/-- A delete applied, and the command that waited for it (R151). -/
def deleteHeld (own bias : Bool) (p id n : Nat) (s : State) : State :=
  let st : Status := if deleteVoid bias p id n s then .busy else .ok
  let s := applyDelete bias p id n s
  let op : Op := if bias then .biasDelete else .mobjDelete
  if own then finishOne (fun x => x.op == op && x.cmd.part == p && arg x.cmd 0 == id && waitsPublish x) st [] s else s

/-- A load applied, and the holder told: its command waits until every slice has applied it (R151). -/
def loadHeld (bias : Bool) (p id : Nat) (s : State) : State := tellApplied bias p id (applyLoad bias p id s)

/-- The blocks of one head: base image, overlays, taken strips, builds and retired strips. -/
def headUse : Use → Bool
  | .head | .overlay _ | .taken | .build | .retired => true
  | _ => false

/-- HEAD_UNLOAD of slice `src` applied in PUBLISH of step n: its announcement goes; on that slice the head and its blocks go (R320). -/
def applyUnload (src p n : Nat) (s : State) : State :=
  if unloadVoid p n s then s
  else
    let s := { s with announced := s.announced.filter fun a => !(a.1 == src && a.2.1 == p) }
    if src ≠ me s then s
    else
      let s := freeUses (fun u => u.part == p && headUse u.use) s
      dropStale (fun i => i.part == p) { s with heads := s.heads.filter fun x => x.part != p }

/-- A head unload applied, and the command that waited for it (R320). -/
def unloadHeld (own : Bool) (src p n : Nat) (s : State) : State :=
  let st : Status := if unloadVoid p n s then .busy else .ok
  let s := applyUnload src p n s
  if own then finishOne (fun x => x.op == .headUnload && x.cmd.part == p && waitsPublish x) st [] s else s

/-- A head whose range is empty carries the identity that the members with strips announce (R320). -/
def emptyHeadTakes (p : Nat) (s : State) : State :=
  let put := fun (x : Head) => { x with id := emptyHeadId s p }
  let up := fun (x : Head) => if x.part == p && x.id.len == 0 then put x else x
  { s with heads := s.heads.map up }

/-- An identity that a member announced replaces its earlier one; a head without strips follows it (R320). -/
def announceHead (src p : Nat) (h : HeadId) (s : State) : State :=
  emptyHeadTakes p { s with announced := s.announced.filter (fun a => !(a.1 == src && a.2.1 == p)) ++ [(src, p, h)] }

/-- A change of a step applied on this slice. -/
def applyHeld (s : State) (m : SyncMsg) : State :=
  let own := m.src == me s
  let n := m.step
  match m.item with
  | .outcome o => applyOutcome o s
  | .tenant u x => tenantHeld own n u x s
  | .maskDelete p id => deleteHeld own false p id n s
  | .biasDelete p id => deleteHeld own true p id n s
  | .objReport p id bias _ => loadHeld bias p id s
  | .headUnload p => unloadHeld own m.src p n s
  | .acornSettled p h _ l => acornSettle p h l s
  | .acornUse p h q on => if on then useAcorn m.src p h q s else unuseAcorn m.src p h q s
  | .acornTake p h q => applyTake p h q s
  | .acornDrop p h => applyAcornDrop p h s
  | .variantReg p v => { s with variants := s.variants ++ [(⟨p, v, n + 1, none⟩ : Variant)] }
  | .variantDrop p v =>
    let drop := fun (x : Variant) => { x with untilStep := some (n + 1) }
    { s with variants := updFirst (fun x => x.part == p && x.num == v && x.untilStep.isNone) drop s.variants }
  | .trainOpen p d => applyOpen p d s
  | .trainForward d => applyForward n d s
  | .trainBackward q g => applyBackward q g s
  | .trainNorm a => applyNorm a s
  | .trainUpdate u => applyUpdate u s
  | .trainClose => endSession s
  | .slotReady k q => slotCommits k q s
  | .maskPrune t p k => applyPrune t p k s
  | .maskBarrier b c => applyBarrier b c s
  | .maskDiscard => applyDiscard s
  | .coldPred q => updReq q (fun e => { e with pred := Pred.cold }) s
  | .keys k => keysArrive k s
  | .home q d => updReq q (fun e => { e with home := d }) s
  | .homeState q d => moveIn q d s
  -- these act when they arrive
  | .admitted .. | .head .. | .backing .. | .overlay .. | .loadReport .. | .rowReport .. | .rowLost .. | .rowFreed .. | .maskLoad .. | .biasLoad .. | .objApplied .. | .acornMake .. | .acornReport .. | .kill _
  | .rangeStored | .evict _ | .cancelMark _ | .drain _ | .rejoin _ | .released _ | .joining .. | .join _ | .copyReq .. | .copyTenant .. | .copyVariant ..
  | .copyObj .. | .copyAcorn .. | .copySession .. | .tileLost .. | .stepEnd => s

/-! ## The end of PUBLISH (R220, R244, R316) -/

/-- A held change is an outcome. -/
def isOutcome (m : SyncMsg) : Bool := match m.item with | .outcome _ => true | _ => false

/-- The step whose PUBLISH ends: the stamped one, or the one before a step that has opened meanwhile. -/
def publishStep (s : State) : Nat := if s.step.opened && !s.step.stamped then s.step.step - 1 else s.step.step

/-- Every change of a step or before is applied: outcomes first, then the others in order of arrival (R151, R253). -/
def applyStep (n : Nat) (s : State) : State :=
  let due := s.held.filter fun m => m.step ≤ n
  let s := { s with held := s.held.filter fun m => m.step > n }
  let s := (due.filter isOutcome).foldl applyHeld s
  (due.filter fun m => !(isOutcome m)).foldl applyHeld s

/-- A slice that was drained leaves, and its sessions end with it (R429, R430, log entry 61). -/
def drainEnds (s : State) : State :=
  let t := leaveGroup s
  if s.group.formed && !t.group.formed then (livePorts t).foldl (fun t n => leaveActive n .down t) t else t

/-- What follows once every change of a stamped step has been applied here: deltas, PROD, shares, a step that has opened, and the
rows, commands and reads that waited. -/
def publishEnd (s : State) : State :=
  let n := publishStep s
  let s := sendDelta n (applyStep n s)
  let s := (s.reqs.filter fun e => homedHere s e).foldl (fun s e => tryProd e.req s) s
  let s := drainEnds (rejoinSend (drainShares s))
  let s := if s.step.opened && !s.step.stamped then boundary s else s
  runJobs (runDeferred (fetchHeld (judgeWaiting s)))

/-- A change of the members or announcements that PUBLISH waits for may end it. -/
def publishIfDone (f : State → State) (s : State) : State :=
  let t := f s
  if publishing s && !(publishing t) then publishEnd t else t

/-! ## STATE_SYNC on arrival (R107, R151, R220, R225, R244, R252, R260, R320, R322, R395, R399, R429 to R431) -/

/-- An admission of another home slice begins here. -/
def admittedArrives (src q : Nat) (info : ReqInfo) (addr n : Nat) (acorn : Option Word) (jars : List ChunkRec) (husk : Bool)
    (draws windowLen outLeft : Nat) (hasToken : Bool) (ttft : Nat) (s : State) : State :=
  beginAdmit q src ⟨info, addr, n, acorn, jars, husk, draws, windowLen, outLeft, hasToken, ttft, 0, []⟩ s

/-- A slice's loading report reaches the home slice of an admission, by way of the slice that was its home before a move (R225, R229). -/
def loadReported (src q : Nat) (st : BitVec 16) (s : State) : State :=
  if homeOf s q ≠ me s then send (homeOf s q) (.stateSync ⟨src, stepNow s, .loadReport q st⟩) s
  else updReq q (fun e => { e with loaded := addOnce e.loaded src, loadStatus := if e.loadStatus = 0 then st else e.loadStatus }) s

/-- The keys of a slice that has no service yet or joins: another root key means no member (R400). -/
def joinKeys (k : WrappedKeys) (s : State) : State :=
  if (unwrapKeys s k).isSome then keysArrive k s else enterSolo (keysArrive k s)

/-- The outcomes that a member has announced are applied while other members' changes are still due: a request waits for its own home
slice only (R59). -/
def outcomesOf (src : Nat) (s : State) : State :=
  let n := publishStep s
  let mine := fun (m : SyncMsg) => m.src == src && m.step ≤ n && isOutcome m
  let due := s.held.filter mine
  let s := due.foldl applyHeld { s with held := s.held.filter fun m => !(mine m) }
  if s.step.opened && !s.step.stamped then earlyBoundary s else s

/-- A member's announcements of a step are complete (R220, R316). -/
def stepEnds (src n : Nat) (s : State) : State :=
  if s.step.stamped && n = s.step.step || n < s.step.step then
    publishIfDone (fun s =>
      let t := { s with step := { s.step with syncsDue := s.step.syncsDue.erase src } }
      if publishing t then outcomesOf src t else t) s
  else { s with step := { s.step with ended := addOnce s.step.ended src } }

/-- A change held for PUBLISH of its step; one of a step whose PUBLISH has ended here waits for the next. -/
def holdSync (m : SyncMsg) (s : State) : State := { s with held := s.held ++ [m] }

/-- STATE_SYNC arrives (R244). Nothing of a hole is heard but what a joining slice says, and outside a group only a join (R376, R430). -/
def syncArrives (m : SyncMsg) (s : State) : State :=
  let src := m.src
  let heard := match m.item with
    | .joining .. => s.group.formed
    | .join _ => !s.group.formed
    | _ => s.group.formed && !(isHole s src)
  if src = me s || !heard then s
  else match m.item with
    | .admitted q i a n ac js hu dr wl ol ht tt => admittedArrives src q i a n ac js hu dr wl ol ht tt s
    | .loadReport q st => loadReported src q st s
    | .head p h => announceHead src p h s
    | .backing p a k l => registerBacking ⟨src, p, 0, a, k, l⟩ s
    | .overlay p v a l => overlayAt ⟨src, p, v, a, l⟩ s
    | .rowReport q n ts => rowReportArrives src q n ts s
    | .rowLost q n => rowLost src q n s
    | .rowFreed q n => rowFreed q n s
    | .maskLoad p id a => maskBegin p id a s
    | .biasLoad p id a n => biasBegin p id a n s
    | .objReport p id bias st =>
      if holderOf s p = me s then objReported src bias p id st s
      else if st ≠ 0 then dropLoad bias p id s else holdSync m s
    | .objApplied p id bias => objAppliedBy src bias p id s
    | .acornMake p h a n => acornBegin p h a n s
    | .acornReport p h st n => acornReported src p h st n s
    | .acornSettled p h st _ => if st ≠ 0 then acornFail p h s else holdSync m s
    | .acornUse p h q on =>
      if publishing s then holdSync { m with step := publishStep s } s
      else if on then useAcorn src p h q s else unuseAcorn src p h q s
    | .rangeStored => rangeStoredBy src s
    | .evict q => updReq q (fun e => { e with evictStage := 1, shares := [] }) s
    | .cancelMark q => updReq q (fun e => { e with cancelMark := true }) s
    | .kill p => applyKill p s
    | .released q => releaseReq q s
    | .drain n => drainBegins n m.step s
    | .rejoin n => rejoinBegins n m.step s
    | .joining n i e f => joinTold n i e f s
    | .join j => joinGroup j s
    | .copyReq .. | .copyTenant .. | .copyVariant .. | .copyObj .. | .copyAcorn .. | .copySession .. => copyArrives m.item s
    | .tileLost q t => tileAgain q t s
    | .slotReady k q => if SlotKind.isCommit k then holdSync m s else slotTold src k q s
    | .keys k => if s.group.idle.contains (me s) then joinKeys k s else holdSync m s
    | .stepEnd => stepEnds src m.step s
    | _ => holdSync m s

/-! ## The times of a step (R57, Table 3.1) -/

/-- The tail reserve T of a step period of P µs, in ns. -/
def tailReserve (p : Nat) : Nat := max (125 * p) 128000

/-- The deadline of phase k as an offset from the TICK, in ns: INGEST, SCORE and SIEVE, MERGE phase A, MERGE phase B, DRAW with the emission of
COMMIT, and the next TICK. A deadline between two nanoseconds passes after the earlier one. -/
def phaseEnd (p : Nat) : Nat → Nat
  | 1 => 1000 * p - tailReserve p
  | 2 => (8 * (1000 * p) - 7 * tailReserve p) / 8
  | 3 => (4 * (1000 * p) - 3 * tailReserve p) / 4
  | 4 => (8 * (1000 * p) - 3 * tailReserve p) / 8
  | 5 => (4 * (1000 * p) - tailReserve p) / 4
  | _ => 1000 * p

/-- The step timer has reached the deadline of phase k: a row of the table that stands for it says so (log entry 4). -/
def reach (k : Nat) (s : State) : State := { s with timer := max s.timer (s.step.tickAt + phaseEnd s.step.period k) }

/-! ## The commit stamp (R58, R66, R427) -/

/-- The tick master emits the TICK of a step: every member's acknowledgement of it is then due (R56, R66). -/
def emitTick (n : Nat) (s : State) : State :=
  let m : TickMsg := ⟨n, s.regs.stepPeriod, me s⟩
  (if s.group.forming.isSome then floodForm else flood) (.tick m)
    { s with step := { s.step with emittedStep := n, acksDue := members s, slipSince := none, slipReported := false } }

/-- COMMIT_ACK of a step reaches the tick master; the last one of a slipped step lets the TICK out (R66). -/
def ackTaken (n src : Nat) (s : State) : State :=
  if n ≠ s.step.emittedStep then s
  else
    let s := { s with step := { s.step with acksDue := s.step.acksDue.erase src } }
    match s.step.slipSince with
    | none => s
    | some t =>
      if !s.step.acksDue.isEmpty || s.group.regroup.isSome then s
      else emitTick (n + 1) (count (fun c => { c with tickSlips := c.tickSlips + 1
                                                      tickSlipUs := c.tickSlipUs + BitVec.ofNat 32 ((s.timer - t) / 1000) }) s)

/-- This slice's COMMIT_ACK to the tick master (R59, R378). -/
def sendAck (s : State) : State := send (tickMaster s) (.commitAck s.step.step (me s)) s

/-- Consecutive steps in which a slice was named in GEOMETRY_FAULT (R427). -/
def geomStamp (s : State) : State :=
  let old := s.group.geomFaults
  let now := s.group.geomNow.map fun n => (n, ((old.find? fun x => x.1 == n).map (·.2)).getD 0 + 1)
  { s with group := { s.group with geomFaults := now, geomNow := [] } }

/-- A slice that does not home an evicted request sends its jar share to the home slice (R260). -/
def evictShares (s : State) : State :=
  let l := s.reqs.filter fun e => e.evictStage = 1 && !(homedHere s e)
  l.foldl (fun s e =>
    send (homeOf s e.req) (.jarShare e.req (ownShare s e)) (updReq e.req (fun e => { e with evictStage := 0 }) s)) s

/-- What a commit stamp leaves on the slice: the step is closed, its serving merges and shells are gone. -/
def closeStep (due : List Nat) (s : State) : State :=
  { s with
    step := { s.step with stamped := true, phase := 6, acking := true, ended := []
                          syncsDue := due.filter fun n => !(s.step.ended.contains n) }
    group := { s.group with failAll := false }
    merges := s.merges.filter fun m => m.key.train
    pot := { s.pot with shellUsed := shellKept s }
    verdicts := [] }

/-- A slice that a stamp makes tick master waits for the acknowledgements of that step (R66, R419). -/
def newMaster (was n : Nat) (s : State) : State :=
  if tickMaster s ≠ me s || was = me s then s
  else { s with step := { s.step with emittedStep := n, acksDue := members s, slipSince := none } }

/-- The commit stamp of step n: every outcome that this slice fixes, what begins and ends with the stamp, the acknowledgement. -/
def commitStamp (n : Nat) (s : State) : State :=
  let due := others s
  let was := tickMaster s
  let mine := (s.reqs.filter fun e => homedHere s e).map (·.req)
  let s := mine.foldl (fun s q => stampReq n q s) s
  let s := finish (fun p => match p.wait with | .stamp k => k ≤ n | _ => false) (fun _ => .ok) (fun _ => []) s
  let s := barrierStamp n (trainStamp n (evictShares s))
  let commits := (s.held.filter fun m => m.src == me s && match m.item with | .outcome o => !o.tokens.isEmpty | _ => false).length
  let carries := (s.reqs.filter fun e => homedHere s e && e.heldStep.isSome).length
  let s := trace 0 3 2 (BitVec.ofNat 32 commits) (BitVec.ofNat 64 carries) s
  let away := s.group.drain.any fun d => d.slice == me s
  let s := announceOut n .stepEnd (if away then drainStamp n s else s)
  let s := rejoinStamp n (if away then geomStamp s else drainStamp n (geomStamp s))
  let s := newMaster was n (closeStep due s)
  let s := if tickMaster s = me s then ackTaken n (me s) s else sendAck s
  if publishing s then outcomesOf (me s) s else publishEnd s

/-- COMMIT arrives (R58). A PUBLISH that has not ended by then ends with what has arrived. -/
def commitArrives (m : CommitMsg) (s : State) : State :=
  if !s.step.opened || s.step.stamped || m.step ≠ s.step.step || s.group.regroup.isSome then s
  else
    let s := if publishing s then publishEnd { s with step := { s.step with syncsDue := [] } } else s
    commitStamp m.step s

/-- The tick master emits COMMIT (R57). -/
def commitEmit (s : State) : State :=
  if tickMaster s = me s && s.step.opened && !s.step.stamped && s.group.regroup.isNone then
    flood (.commit ⟨s.step.step, me s⟩) (reach 5 s)
  else s

/-- COMMIT_ACK is sent again until the next TICK (R378). -/
def ackAgain (s : State) : State := if s.step.acking && s.step.stamped then sendAck s else s

/-! ## Meanings -/

/-- COMMIT_EMIT. -/
def execCommitEmit (s : State) : Host.Outcome State Fault Refusal := .next (commitEmit s)

/-- COMMIT. -/
def execCommit (m : CommitMsg) (s : State) : Host.Outcome State Fault Refusal := .next (commitArrives m s)

/-- COMMIT_ACK_RESEND. -/
def execCommitAckResend (s : State) : Host.Outcome State Fault Refusal := .next (ackAgain s)

/-- STATE_SYNC. -/
def execStateSync (m : SyncMsg) (s : State) : Host.Outcome State Fault Refusal := .next (syncArrives m s)

end Sys2Proof.Machine
end

