-- ==== Sys2Proof/Machine/Tick.lean ====
section
/-! DEFINITION. The step tick: TICK at its emission and its arrival, slips, the phase deadlines; heartbeats, the loss of a slice, the
messages of a regroup and its end (R54 to R57, R64 to R66, R388, R412, R424, R427, R454). -/

namespace Sys2Proof.Machine

/-! ## TICK at the tick master (R56, R66) -/

/-- The tick master's timer reaches P: the TICK of the next step, or a slip while an acknowledgement is missing. -/
def tickDue (s : State) : State :=
  if tickMaster s ≠ me s || s.group.regroup.isSome || s.group.forming.isSome || s.step.emittedStep > s.step.step then s
  else
  let s := reach 6 s
  if s.step.acksDue.isEmpty then emitTick (s.step.step + 1) s
  else if s.step.slipSince.isSome then s
  else { s with step := { s.step with slipSince := some s.timer } }

/-- Five milliseconds of a slip have passed: the silent slices are reported, once (R66). -/
def slipExpires (s : State) : State :=
  if s.step.slipSince.isSome && !s.step.acksDue.isEmpty then { s with step := { s.step with slipReported := true } } else s

/-! ## TICK at its arrival (R56, R424, R454) -/

/-- The first TICK of a formed group (R454): only registers and the new keys survive. -/
def formTick (f : Nat) (s : State) : State :=
  let keys := s.sec.keySets
  let bits := s.regs.keys
  let s := clearService (endForwarded s)
  let g := s.group.size
  let none_ : RangeEntry := ⟨0, 0⟩
  let s := { s with
    sec := { s.sec with keySets := keys }
    regs := { s.regs with keys := bits, irqStatus := s.regs.irqStatus ||| 0b00010#5 }
    group := { s.group with formed := true, solo := false, master := 0, formId := f, lastForm := f, joinForm := f, vocab := 0
                            ranges := List.replicate g none_, second := [], nextTable := none, nextStored := [], soloRun := none_, soloVocab := 0
                            holes := [], idle := [], joining := [], proposals := [], forming := none, uncovered := [], geomFaults := []
                            geomNow := [], failAll := false, regroup := none, drain := none
                            seen := ((List.range g).filter fun n => n ≠ me s).map fun n => (n, s.timer) } }
  powerPlan (reroute s)

/-- A step that has no commit stamp here, because a regroup came between: its rows are carried (R423, R424). -/
def abandonStep (s : State) : State :=
  if !s.step.opened || s.step.stamped then s
  else
    let k := s.step.step
    let keep := fun (e : ReqEntry) =>
      if e.state.takesRows && e.heldStep.isNone && (e.workStep == k || s.rows.any fun r => ofReq e.req r && r.useStep == k) then
        { e with heldStep := some k }
      else e
    { s with reqs := s.reqs.map keep, merges := s.merges.filter (fun m => m.key.train), verdicts := []
             pot := { s.pot with shellUsed := shellKept s }, step := { s.step with ended := [] } }

/-- A TICK that a slice takes: of its tick master, for a later step; the first of a formation; the one that ends a regroup (R56). -/
def tickTaken (m : TickMsg) (s : State) : Bool :=
  match s.group.forming with
  | some _ => m.master == 0 && m.step > s.group.lastStep
  | none => m.master == tickMaster s && m.step > s.step.step && s.group.regroup.all fun r => r.phase == .resume

/-- The step opens: STEP_COUNT, the period, the phases (R54 to R57). -/
def openStep (m : TickMsg) (s : State) : State :=
  let s := { s with
    step := { s.step with step := m.step, opened := true, period := m.period, tickAt := s.timer, phase := 0, stamped := false, acking := false }
    group := { s.group with lastStep := if s.group.formed then m.step else s.group.lastStep } }
  trace 0 3 0 (BitVec.ofNat 32 m.period) 0 s

/-- TICK arrives (R56). -/
def tickArrives (m : TickMsg) (s : State) : State :=
  if !(tickTaken m s) then s
  else
    let s := match s.group.forming with
      | some f => formTick f.formId s
      | none => abandonStep s
    let s := openStep m s
    if publishing s then earlyBoundary s else judgeWaiting (boundary s)

/-! ## Deadlines (R57, R64) -/

/-- A deadline passes: the phase moves on. -/
def passDeadline (k : Nat) (s : State) : State :=
  let s := reach k s
  trace 0 2 1 (BitVec.ofNat 32 k) 0 { s with step := { s.step with phase := k } }

/-- A deadline of phase k may pass: the phase before it is the step's. -/
def deadlineDue (k : Nat) (s : State) : Bool := s.step.opened && !s.step.stamped && s.step.phase == k - 1

/-- INGEST: the home slices learn which requests have a row here (R65), and streamed strips that no row needs any more are released (R89). -/
def ingestEnds (s : State) : State :=
  if !(deadlineDue 1 s) then s
  else
    let n := s.step.step
    let qs := ((s.rows.filter fun r => r.useStep == n && !r.carried && r.kind != 2).map (·.id)).foldl addOnce []
    let tell := fun (s : State) (q : Nat) =>
      if homeOf s q = me s then rowTold (me s) q n s else send (homeOf s q) (.stateSync ⟨me s, n, .rowReport q n (rowTrees s q)⟩) s
    streamsGo (passDeadline 1 (qs.foldl tell s))

/-- SCORE and SIEVE: rows that are not sieved stay unfinished. -/
def sieveEnds (s : State) : State := if deadlineDue 2 s then passDeadline 2 s else s

/-- Serving merges that satisfy a test are closed: their requests are carried (R64). -/
def closeUnless (ok : Merge → Bool) (s : State) : State :=
  let upd := fun (m : Merge) => if m.key.train || ok m then m else { m with closed := true }
  { s with merges := s.merges.map upd }

/-- MERGE phase A: merges without a cut are closed. -/
def mergeAEnds (s : State) : State :=
  if deadlineDue 3 s then passDeadline 3 (closeUnless (fun m => m.cut.isSome) s) else s

/-- MERGE phase B: merges whose shell is not merged are closed. -/
def mergeBEnds (s : State) : State :=
  if deadlineDue 4 s then passDeadline 4 (closeUnless (fun m => m.sentB) s) else s

/-- DRAW. -/
def drawEnds (s : State) : State := if deadlineDue 5 s then passDeadline 5 s else s

/-! ## Liveness (R388, R412, R427) -/

/-- HEARTBEAT of a member. -/
def heartbeat (n : Nat) (s : State) : State :=
  if !s.group.formed || n = me s || !((members s).contains n) then s
  else { s with group := { s.group with seen := s.group.seen.filter (fun x => x.1 != n) ++ [(n, s.timer)] } }

/-- This slice's HEARTBEAT, unless it has stopped. -/
def heartbeatDue (s : State) : State :=
  if s.group.formed && !s.group.silent then flood (.heartbeat (me s) s.step.step) s else s

/-- A member is declared lost, and this slice takes its part in the regroup that this starts (R388, R424). -/
def sliceLost (n : Nat) (s : State) : State := reportNow (publishIfDone (declareLost n) s)

/-- A REGROUP message; a start is followed by this slice's report (R422 to R424). -/
def regroupArrives (m : RegroupMsg) (s : State) : State :=
  if !s.group.formed then s
  else match m with
    | .start _ _ => reportNow (publishIfDone (regroupMsg m) s)
    | _ => regroupMsg m s

/-- The takeover is done here; the tick master lets the group resume (R424). -/
def takeoverDone (s : State) : State :=
  let s := takeoverEnds s
  match s.group.regroup with
  | some r => if r.phase = .resume && tickMaster s = me s then emitTick (r.top + 1) s else s
  | none => s

/-- A slice named in GEOMETRY_FAULT for 8 consecutive steps is expelled (R427). -/
def expel (n : Nat) (s : State) : State :=
  if !s.group.formed || !(s.group.geomFaults.any fun x => x.1 == n && x.2 ≥ 8) then s
  else
    let s := { s with group := { s.group with geomFaults := s.group.geomFaults.filter fun x => x.1 != n } }
    if n = me s then { s with group := { s.group with silent := true } } else sliceLost n s

/-! ## Meanings -/

/-- TICK_EMIT. -/
def execTickEmit (s : State) : Host.Outcome State Fault Refusal := .next (tickDue s)

/-- SLIP_SILENCE_EXPIRY. -/
def execSlipSilenceExpiry (s : State) : Host.Outcome State Fault Refusal := .next (slipExpires s)

/-- TICK. -/
def execTick (m : TickMsg) (s : State) : Host.Outcome State Fault Refusal := .next (tickArrives m s)

/-- INGEST_DEADLINE. -/
def execIngestDeadline (s : State) : Host.Outcome State Fault Refusal := .next (ingestEnds s)

/-- SIEVE_DEADLINE. -/
def execSieveDeadline (s : State) : Host.Outcome State Fault Refusal := .next (sieveEnds s)

/-- MERGE_A_DEADLINE. -/
def execMergeADeadline (s : State) : Host.Outcome State Fault Refusal := .next (mergeAEnds s)

/-- MERGE_B_DEADLINE. -/
def execMergeBDeadline (s : State) : Host.Outcome State Fault Refusal := .next (mergeBEnds s)

/-- DRAW_DEADLINE. -/
def execDrawDeadline (s : State) : Host.Outcome State Fault Refusal := .next (drawEnds s)

/-- COMMIT_ACK. -/
def execCommitAck (step slice : Nat) (s : State) : Host.Outcome State Fault Refusal :=
  .next (if tickMaster s = me s then ackTaken step slice s else s)

/-- HEARTBEAT. -/
def execHeartbeat (slice _step : Nat) (s : State) : Host.Outcome State Fault Refusal := .next (heartbeat slice s)

/-- HEARTBEAT_SEND. -/
def execHeartbeatSend (s : State) : Host.Outcome State Fault Refusal := .next (heartbeatDue s)

/-- SLICE_LOST. -/
def execSliceLost (n : Nat) (s : State) : Host.Outcome State Fault Refusal := .next (sliceLost n s)

/-- REGROUP. -/
def execRegroup (m : RegroupMsg) (s : State) : Host.Outcome State Fault Refusal := .next (regroupArrives m s)

/-- TAKEOVER_DONE. -/
def execTakeoverDone (s : State) : Host.Outcome State Fault Refusal := .next (takeoverDone s)

/-- EXPEL. -/
def execExpel (n : Nat) (s : State) : Host.Outcome State Fault Refusal := .next (expel n s)

end Sys2Proof.Machine
end

