-- ==== Sys2Proof/Machine/Formation.lean ====
section
/-! DEFINITION. HELLO and the formation of a group (R13, R14, R17, R366, R367, R382, R383, R399, R400, R430, R449 to R454;
Tables 18.5, 18.10, 21.9, 21.10). -/

namespace Sys2Proof.Machine

/-! ## Topology from HELLO (R366, R367) -/

/-- Group size for formation. -/
def formSize (s : State) : Nat := s.group.size

/-- A port's HELLO has been checked. -/
def helloDone (s : State) (n : Nat) : Bool := (portOf s n).session == .active

/-- X as port 2 shows it: the ring's length, or the distance of the +Y neighbour; none while port 2 is fitted and has no HELLO. A formed
group keeps its own. -/
def foundX (s : State) : Option Nat :=
  let g := formSize s
  if s.group.formed then some s.group.x
  else if g = 1 || !(portOf s 2).fitted then some g
  else if !(helloDone s 2) then none
  else
    let d := ((portOf s 2).peerSlice + g - me s) % g
    if d = 1 then some g else some d

/-- Y for an X. -/
def foundY (s : State) (x : Nat) : Nat := if x = formSize s then 1 else formSize s / max 1 x

/-- A topology that R14, R366 and R367 allow, with the expected values of GROUP_OVR as they were read at the start of the formation (R345). -/
def topologyOk (s : State) (x : Nat) : Bool :=
  let g := formSize s
  let y := foundY s x
  g ≥ 1 && x > 0 && g % x == 0 && (if x = g then g ≤ 16 else x ≥ 2 && y ≥ 2)
    && (s.group.formed || ((s.group.wantX == 0 || s.group.wantX == x) && (s.group.wantY == 0 || s.group.wantY == y)))

/-- The slice and the port that R366 puts at the other end of a port. -/
def expectedPeer (s : State) (x n : Nat) : Nat × Nat :=
  let g := formSize s
  let m := me s
  let ring := x = g
  let y := foundY s x
  let cx := m % x
  let cy := m / x
  match n with
  | 0 => ((cx + 1) % x + x * cy, 1)
  | 1 => ((cx + x - 1) % x + x * cy, 0)
  | 2 => (if ring then (m + 1) % g else cx + x * ((cy + 1) % y), 3)
  | _ => (if ring then (m + g - 1) % g else cx + x * ((cy + y - 1) % y), 2)

/-- A port whose peer is not the one that R366 names; in a group of one the ports carry no traffic (Table 21.6). -/
def miswired (s : State) (x n : Nat) : Bool :=
  let p := portOf s n
  formSize s != 1 && (!(topologyOk s x) || expectedPeer s x n != (p.peerSlice, p.peerPort))

/-- A miswired port: alarmed, and down (R367, Table 18.5). -/
def miswire (n : Nat) (s : State) : State :=
  let p := portOf s n
  leaveActive n .down (alarm 0x14 (BitVec.ofNat 64 (n + p.peerSlice * 2 ^ 2 + p.peerPort * 2 ^ 8)) s)

/-- Every port with a HELLO is checked once X is known. -/
def wireCheck (s : State) : State :=
  match foundX s with
  | none => s
  | some x =>
    let s := ((List.range 4).filter fun n => helloDone s n && miswired s x n).foldl (fun s n => miswire n s) s
    if s.group.formed then s else { s with group := { s.group with x := x, y := foundY s x } }

/-! ## Proposals (R450 to R453) -/

/-- Every fitted port has finished HELLO; a group of one needs none. -/
def portsReady (s : State) : Bool := formSize s == 1 || (List.range 4).all fun n => !(portOf s n).fitted || helloDone s n

/-- The alarm and the state of a formation that ends (R453): solo service goes on, or begins anew where it had been scrubbed. -/
def formEnds (slice : Nat) (r : FormReason) (s : State) : State :=
  let s := alarm 0x1A (BitVec.ofNat 64 (reasonCode r + slice * 2 ^ 8)) { s with group := { s.group with proposals := [], numbered := false } }
  if s.group.forming.isSome then
    enterSolo { s with group := { s.group with forming := none } }
  else s

/-- This slice refuses: every slice hears of it (R453). -/
def refuse (r : FormReason) (s : State) : State := formEnds (me s) r (floodForm (.formRefuse r) s)

/-- Numbers of the group that have not proposed, or are not READY. -/
def absent (s : State) : List Nat :=
  (List.range (formSize s)).filter fun n => !(s.group.proposals.any fun b => b.slice == n && b.ready)

/-- Why slice 0 refuses the proposals of every number (R13, R366, R453). -/
def proposalFault (s : State) : Option FormReason :=
  let l := s.group.proposals
  let lo : Nat := l.foldl (fun (a : Nat) (b : FormBody) => min a b.iface) 255
  let hi : Nat := l.foldl (fun (a : Nat) (b : FormBody) => max a b.iface) 0
  if l.any fun b => b.groupSz != formSize s || b.slice ≥ formSize s then some .size
  else if l.any (fun b => b.x != s.group.x || b.y != s.group.y) || !(topologyOk s s.group.x) then some .miswire
  else if hi > lo + 1 then some .version
  else none

/-- A key set taken during formation; with all twelve the slice is done (R453). -/
def keyTaken (p : Nat) (s : State) : State :=
  match s.group.forming with
  | none => s
  | some f =>
    let f := { f with keysHeld := addOnce f.keysHeld p }
    let s := { s with group := { s.group with forming := some f } }
    if !((List.range 12).all fun q => f.keysHeld.contains q) || f.done.contains (me s) then s
    else floodForm .formDone { s with group := { s.group with forming := some { f with done := addOnce f.done (me s) } } }

/-- With every DONE, slice 0 emits the first TICK: one more than the highest step that any member reports (R56, R453). -/
def formTickDue (s : State) : State :=
  match s.group.forming with
  | none => s
  | some f =>
    if me s ≠ 0 || !((List.range (formSize s)).all fun n => f.done.contains n) || s.step.emittedStep ≠ 0 then s
    else
      let top := s.group.proposals.foldl (fun a b => max a b.lastStep) 0
      let s := emitTick (top + 1) s
      { s with step := { s.step with acksDue := List.range (formSize s) } }

/-- A holder's key sets are made and sent (R399, R453). -/
def formKeysMade (s : State) : State :=
  ((List.range 12).filter fun p => p % formSize s == me s).foldl (fun s p =>
    let s := newKeys p s
    match keySetOf s p with
    | some k => keyTaken p (floodForm (.formKeys (wrapped s k)) s)
    | none => s) s

/-- A formation COMMIT at a member (R453): its own proposal still holds, or it refuses; the partitions are scrubbed with no record. -/
def formCommits (f : Nat) (s : State) : State :=
  if s.group.formed then s
  else if !(ownForm s).ready || !(portsReady s) then refuse .missing s
  else
    let g := s.group
    let s := clearService (endForwarded s)
    let fresh_ : Forming := ⟨f, [], []⟩
    let s := { s with group := { g with formId := f, lastForm := f, forming := some fresh_ }
                      step := { StepSt.reset with period := s.regs.stepPeriod } }
    formTickDue (formKeysMade s)

/-- Slice 0 begins when every number has proposed and is READY (R453). -/
def coordinate (s : State) : State :=
  if me s ≠ 0 || s.group.formed || s.group.forming.isSome || !((absent s).isEmpty) then s
  else match proposalFault s with
    | some r => refuse r s
    | none =>
      let f := s.group.proposals.foldl (fun a b => max a b.lastForm) 0 + 1
      formCommits f (floodForm (.formCommit f) s)

/-- A proposal kept, the newest of its slice, with what it says of the sender's version, epochs and features (R52, R317). -/
def keepProposal (b : FormBody) (s : State) : State :=
  let peer : PeerInfo := ⟨b.slice, b.iface, b.epochs, b.features⟩
  { s with group := { s.group with proposals := s.group.proposals.filter (fun x => x.slice != b.slice) ++ [b]
                                   peers := s.group.peers.filter (fun p => p.slice != b.slice) ++ [peer] } }

/-- This slice proposes itself once its fitted ports have finished HELLO (R453); an attempt that has not ended by the retry is given up
(DEDUCED, log entry 60). -/
def propose (s : State) : State :=
  if s.group.formed then s
  else
    let s := if s.group.forming.isSome then enterSolo { s with group := { s.group with forming := none } } else s
    let s := wireCheck (takeNumbers s)
    if formSize s = 0 || formSize s > 64 || !(portsReady s) then s
    else
      let b := ownForm s
      coordinate (keepProposal b (floodForm (.formPropose b) s))

/-- PROPOSE arrives: one with this slice's own number is a duplicate (R13). -/
def proposeArrives (b : FormBody) (s : State) : State :=
  if s.group.formed then s
  else if b.slice = me s then refuse .duplicate s
  else coordinate (keepProposal b s)

/-- REFUSE arrives (R453). -/
def refuseArrives (slice : Nat) (r : FormReason) (s : State) : State := if s.group.formed then s else formEnds slice r s

/-- KEYS arrives: held, or refused under another root key (R400, R453). -/
def formKeysArrive (k : WrappedKeys) (s : State) : State :=
  if s.group.formed || s.group.forming.isNone then s
  else match unwrapKeys s k with
    | some x => formTickDue (keyTaken k.part (putKeys x s))
    | none => refuse .rootKey (keysArrive k s)

/-- DONE arrives at slice 0. -/
def formDoneArrives (n : Nat) (s : State) : State :=
  match s.group.forming with
  | none => s
  | some f => formTickDue { s with group := { s.group with forming := some { f with done := addOnce f.done n } } }

/-- Every 10 s slice 0 names the members that are absent or not READY (R453). -/
def formWaits (s : State) : State :=
  if me s ≠ 0 || s.group.formed || (absent s).isEmpty then s
  else alarm 0x1B (BitVec.ofNat 64 (total ((absent s).map fun n => 2 ^ n))) s

/-! ## HELLO (R382, R383, R430) -/

/-- A slice that waits in a hole's number is announced, unless its interface version or its epochs refuse it: VERSION_MISMATCH, which the
alarm BL_VERSION shows (R52, R430). -/
def holeHello (n : Nat) (h : Hello) (s : State) : State :=
  if mayJoin s h.iface h.epochs then
    announceOut (stepNow s) (.joining h.slice h.iface h.epochs h.features) (joinTold h.slice h.iface h.epochs h.features s)
  else alarm 0x19 (BitVec.ofNat 64 (n + h.protoMin * 2 ^ 8 + h.protoMax * 2 ^ 16 + h.iface * 2 ^ 24)) s

/-- A session becomes ACTIVE (R373, R383, R385): grants, protocol version, routes; what waited goes out. -/
def helloOk (n : Nat) (h : Hello) (s : State) : State :=
  let grants := [h.crTick, h.crMerge, h.crBulk, h.crMgmt]
  let acct := fun (a : Nat × ClassAcct) =>
    let g := grants.getD a.1 0
    { a.2 with grant := g, held := g + a.2.creditsIn - a.2.firstSent }
  let upd := fun (p : Port) =>
    { p with proto := min 3 h.protoMax, peerSlice := h.slice, peerPort := h.port
             acct := (p.acct.zipIdx.map fun x => (x.2, x.1)).map acct }
  let peer : PeerInfo := ⟨h.slice, h.iface, h.epochs, h.features⟩
  let s := setSession n .active (updPort n upd s)
  let s := { s with group := { s.group with peers := s.group.peers.filter (fun p => p.slice != h.slice) ++ [peer] } }
  reroute (wireCheck s)

/-- HELLO arrives on a port in HELLO (R382, R383). -/
def helloArrives (n : Nat) (h : Hello) (s : State) : State :=
  if n ≥ 4 || (portOf s n).session ≠ .hello then s
  else if min 3 h.protoMax < max 2 h.protoMin then
    leaveActive n .down (alarm 0x19 (BitVec.ofNat 64 (n + h.protoMin * 2 ^ 8 + h.protoMax * 2 ^ 16 + h.iface * 2 ^ 24)) s)
  else
    let s := helloOk n h s
    if !(helloDone s n) then s
    else if s.group.formed then
      let s := if isHole s h.slice then holeHello n h s else s
      linkSend n (linkStart (gradsAdvance s))
    else linkSend n (linkStart (if portsReady s then propose s else s))

/-! ## Meanings -/

/-- HELLO. -/
def execHello (port : Nat) (h : Hello) (s : State) : Host.Outcome State Fault Refusal := .next (helloArrives port h s)

/-- FORM_PROPOSE. -/
def execFormPropose (b : FormBody) (s : State) : Host.Outcome State Fault Refusal := .next (proposeArrives b s)

/-- FORM_COMMIT. -/
def execFormCommit (f : Nat) (s : State) : Host.Outcome State Fault Refusal := .next (formCommits f s)

/-- FORM_REFUSE. -/
def execFormRefuse (slice : Nat) (r : FormReason) (s : State) : Host.Outcome State Fault Refusal := .next (refuseArrives slice r s)

/-- FORM_KEYS. -/
def execFormKeys (k : WrappedKeys) (s : State) : Host.Outcome State Fault Refusal := .next (formKeysArrive k s)

/-- FORM_DONE. -/
def execFormDone (slice : Nat) (s : State) : Host.Outcome State Fault Refusal := .next (formDoneArrives slice s)

/-- PROPOSE_RETRY: a new round, which reads the overrides anew (R337, R453). -/
def execProposeRetry (s : State) : Host.Outcome State Fault Refusal := .next (propose { s with group := { s.group with numbered := false } })

/-- FORM_WAIT. -/
def execFormWait (s : State) : Host.Outcome State Fault Refusal := .next (formWaits s)

end Sys2Proof.Machine
end

