-- ==== Sys2Proof/Machine/Reset.lean ====
section
/-! DEFINITION. Reset, the boot of Whisk, boot hold, and the restart of Eocia (R404, R409, R410, R438, R445 to R449; Tables 21.6, 21.7). -/

namespace Sys2Proof.Machine

/-! ## Reset (R438, R445, R446) -/

/-- The state that RST_N leaves: fuses and the queue of waiting commands stay (the counter of free values is the model's own). -/
def resetTo (straps : BitVec 19) (s : State) : State :=
  { State.afterReset s.kit straps s.sec.fuses with fresh := s.fresh, pending := s.pending }

/-- RST_N rises: straps sampled, LIFECYCLE read; a group size of 0 or above 64 raises STRAP_BAD (R445). -/
def resetRises (straps : BitVec 19) (s : State) : State :=
  let s := resetTo straps s
  if s.group.size = 0 || s.group.size > 64 then alarm 0x1C (straps.setWidth 64) s else s

/-- RST_N falls: the whole slice is reset and stays so until it rises (R438). -/
def resetFalls (s : State) : State := { resetTo s.straps s with inReset := true }

/-! ## Boot (R172, R446 to R449) -/

/-- Boot hold after an image that failed a step of R404 (R448). -/
def enterHold (fault : Nat) (s : State) : State := alarm 0x20 (BitVec.ofNat 64 fault) { s with whisk := .hold }

/-- STRAP_BOOT names a second image (Table 21.6). -/
def secondImage (s : State) : Bool := s.straps.extractLsb' 15 2 == 2#2

/-- An image that passed runs (R447). -/
def imageRuns (img : Bytes) (s : State) : State :=
  { s with whisk := .running, regs := { s.regs with fwRunning := imageIface img }, dbg := { s.dbg with codeRun := img } }

/-- Eocia runs for the first time: the Pip-T table stands, domains are requested, solo service begins with keys of its own, and the
slice proposes itself if no port has to finish HELLO first (R172, R398, R449, R453). -/
def eociaStarts (img : Bytes) (s : State) : State :=
  let s := imageRuns img { s with pipTable := pipExpand, step := { StepSt.reset with period := s.regs.stepPeriod } }
  let s := powerPlan ((List.range 12).foldl (fun s p => newKeys p s) s)
  if portsReady s then propose s else s

/-- A boot image is checked (R404, R448): the second image, where there is one, is read after the first has failed. -/
def imageBoots (img : Bytes) (second : Bool) (s : State) : State :=
  match imageFault s img with
  | none => eociaStarts img s
  | some n => if secondImage s && !second then { s with whisk := .booting true } else enterHold n s

/-- BOOT_CHECK. -/
def bootChecked (img : Bytes) (s : State) : State :=
  match s.whisk with
  | .booting second => if s.inReset then s else imageBoots img second s
  | _ => s

/-- The image that a debug load has written: its header says how long it is (R447, Table 19.6). -/
def loadedImage (s : State) : Bytes := s.dbg.codeRun.take (256 + leAt s.dbg.codeRun 8 4)

/-- Target 0 resumes in the boot ROM: the loaded image is checked as from any other source (R447). -/
def debugLoaded (s : State) : State :=
  match imageFault s (loadedImage s) with
  | none => eociaStarts (loadedImage s) s
  | some n => enterHold n s

/-! ## A restart of Whisk (R409, R410; Table 15.11) -/

/-- Commands issued and not accepted, which answer BUSY after the restart (Table 15.11). One that waits for the end of PUBLISH has been accepted
(R316). -/
def unaccepted (s : State) : List (Op × Cmd) := s.eocia.inbox ++ s.eocia.awaitAck

/-- A Whisk fault: the alarm, and Whisk is reset; a halt of it ends, and no register and no control-bank entry is cleared
(R409, R410, R470). -/
def whiskFault (cause : Nat) (s : State) : State :=
  if s.whisk ≠ .running then s
  else
    let busy := (unaccepted s).map fun x => (x.1, x.2, Status.busy.code, ([] : List (Nat × Word)))
    let s := alarm 0x0D (BitVec.ofNat 64 cause) s
    let s := { s with
      whisk := .restarting cause false
      eocia := { s.eocia with inbox := [], awaitAck := [], ready := s.eocia.ready ++ busy }
      keeper := { s.keeper with unacked := s.keeper.unacked.map fun u => (u.1, false) }
      dbg := { s.dbg with halted := s.dbg.halted &&& 0b1110#4 } }
    eociaResumes s

/-- A home record returned by the keeper, put in place of the entry's values (R409, Table 20.3). -/
def homeRepaired (q : Nat) (d : Bytes) (s : State) : State :=
  let w := leAt d 24 4
  updReq q (fun e => { e with cons := leAt d 4 4, ttftUs := leAt d 8 4, gapUs := leAt d 12 4, lastCommitStep := leAt d 16 8
                              gapSteps := field w 0 16, cancelMark := bitOf w 19, hasToken := e.hasToken || bitOf w 20
                              stallSteps := field w 21 9 }) s

/-- One entry as the keeper holds it (R409): an entry that agrees with it does not change. -/
def entryRepaired (x : DeltaEntry) (s : State) : State :=
  match x.kind with
  | .line => lineBack x.req x.slot (putLine x.req x.slot x.data s)
  | .home => if (reqOf s x.req).any (homedHere s) then homeRepaired x.req x.data s else s
  | .command | .fetch => s

/-- What had waited for Eocia goes on (R344, R410). -/
def eociaGoesOn (s : State) : State := reroute (powerPlan (runJobs (runDeferred (eociaResumes s))))

/-- Eocia runs again after a fault: counted, told and logged; its entries are repaired (R409). Cause 3 is the restart on a staged image
after a drain, which is no fault (R429). -/
def eociaRestarts (cause : Nat) (img : Bytes) (repairs : List DeltaEntry) (s : State) : State :=
  let s := imageRuns img s
  let s := { s with regs := { s.regs with fwRestarts := min 255 (s.regs.fwRestarts + 1) } }
  let s := if cause < 3 then
      log 0x08 0 (BitVec.ofNat 64 cause)
        (repairs.foldl (fun s x => entryRepaired x s) { s with regs := { s.regs with irqStatus := s.regs.irqStatus ||| 0b10000#5 } })
    else s
  eociaGoesOn s

/-- WHISK_RESTART_DONE (R409, R429, R448): the image, from the boot source or the staged one, is checked; one that fails leaves the slice
in boot hold, without HEARTBEAT. -/
def restartDone (image : Bytes) (repairs : List DeltaEntry) (s : State) : State :=
  match s.whisk with
  | .restarting cause second =>
    let img := if cause = 3 then s.dbg.codeStaged else image
    match imageFault s img with
    | none => eociaRestarts cause img repairs s
    | some n =>
      if secondImage s && !second && cause ≠ 3 then { s with whisk := .restarting cause true }
      else enterHold n { s with group := { s.group with silent := true } }
  | _ => s

/-- The watchdog of Eocia runs out; it is paused while target 0 is halted (R409, R468). -/
def watchdogExpires (s : State) : State := if s.dbg.halted.getLsbD 0 then s else whiskFault 0 s

/-- Eocia's fatal handler takes a trap; a halted Whisk takes none (R409). -/
def trapTaken (s : State) : State := if s.dbg.halted.getLsbD 0 then s else whiskFault 1 s

/-! ## Meanings -/

/-- RESET. -/
def execReset (straps : BitVec 19) (s : State) : Host.Outcome State Fault Refusal := .next (resetRises straps s)

/-- RST_N_ASSERT. -/
def execRstNAssert (s : State) : Host.Outcome State Fault Refusal := .next (resetFalls s)

/-- BOOT_CHECK. -/
def execBootCheck (image : Bytes) (s : State) : Host.Outcome State Fault Refusal := .next (bootChecked image s)

/-- WATCHDOG_EXPIRY. -/
def execWatchdogExpiry (s : State) : Host.Outcome State Fault Refusal := .next (watchdogExpires s)

/-- WHISK_TRAP. -/
def execWhiskTrap (s : State) : Host.Outcome State Fault Refusal := .next (trapTaken s)

/-- WHISK_RESTART_DONE. -/
def execWhiskRestartDone (image : Bytes) (repairs : List DeltaEntry) (s : State) : Host.Outcome State Fault Refusal :=
  .next (restartDone image repairs s)

end Sys2Proof.Machine
end

