-- ==== Sys2Proof/Machine/Faults.lean ====
section
/-! DEFINITION. Faults of power domains and clocks, and ECC errors (R91, R114 to R116, R411, R439, R440, R480; Tables 5.6, 21.4). -/

namespace Sys2Proof.Machine

/-! ## ECC errors (R114, Table 5.6) -/

/-- An alarm n times over (R459). -/
def alarmMany (code : Nat) (arg : BitVec 64) : Nat → State → State
  | 0, s => s
  | 1, s => alarm code arg s
  | n + 2, s =>
    let s := alarm code arg s
    let k := BitVec.ofNat 32 (n + 1)
    let s := count (fun c => { c with alarmGen := c.alarmGen + k, alarmCoalesced := c.alarmCoalesced + k }) s
    let upd := fun (a : Alarm) => if a.code = code then { a with count := min (2 ^ 32 - 1) (a.count + n + 1) } else a
    { s with tele := { s.tele with alarms := s.tele.alarms.map upd } }

/-- n uncorrectable errors of a unit: counted and alarmed; the line address is a free value (Table 22.2; log entry 62). -/
def uncorrectable (unit n : Nat) (s : State) : State :=
  let arg := BitVec.ofNat 64 (unit + (Config.eccLine s.fresh).toNat * 2 ^ 8)
  alarmMany 0x06 arg n (count (fun c => { c with eccUe := c.eccUe + BitVec.ofNat 32 n }) { s with fresh := s.fresh + 1 })

/-- The unit of ECC_UE (Table 22.2). -/
def eccUnit : EccWhere → Nat
  | .stripRamekin _ _ => 0
  | .cacheLine _ _ _ => 2
  | .control _ => 3
  | .stripStockpot _ | .backingSlot _ _ | .shell _ | .heldRow _ _ _ | .savedTile _ _ | .record _ _ | .retired _ _ | .freeBlock => 1

/-- A clean line is dropped from the cache and read from its slot again; time only (Table 5.6, R108). -/
def refetchLine (q slot : Nat) (s : State) : State :=
  match reqOf s q with
  | none => s
  | some e =>
    match myBacking s e.info.part with
    | none => s
    | some b =>
      let above := if slot = 0 then !e.mark0 else slot > e.markJar
      if above || e.due.contains slot then s
      else hmpRead e.info.part (slotPlace b false q slot) 128 .rdb (.backing q slot)
        (updReq q (fun e => { e with due := addOnce e.due slot, cold := true }) s)

/-- A held row is dropped with a rejection record of reason ECC, and its request is carried: in the open step, where the row is of that step
(Table 5.6). -/
def rowSpoiled (r : RowRec) (s : State) : State :=
  let t := rowGone r.id r.useStep (dropRows (fun x => rowKeyOf x == rowKeyOf r && x.useStep == r.useStep) (rejectRow r .ecc s))
  if r.useStep = s.step.step then closeMerges r.id t else t

/-- A block of 4,096 token records is lost: every tile that has its records there is (R272, R283; DESIGN CHOICE 152). -/
def recordSpoiled (seq : Word) (block : Nat) (s : State) : State :=
  match microOf s seq with
  | none => s
  | some m => ((List.range (ceilDiv m.desc.tokens 128)).filter fun t => t / 32 = block).foldl (fun s t => tileLost seq t s) s

/-- A control-bank error: a Whisk fault; the request whose entry held it is carried until its repair, and fails where no keeper has a
copy (R409, R410, R426). -/
def controlSpoiled (q : Option Nat) (s : State) : State :=
  let s : State := match q with
    | none => s
    | some q =>
      let s := closeMerges q (updReq q (fun e => { e with due := addOnce e.due 0, cold := true }) s)
      if (keeperOf s (me s)).isNone then updReq q (fun e => { e with lost := true }) s else s
  whiskFault 2 s

/-- Outcome of an uncorrectable error (Table 5.6, Table 4.7). -/
def spoiled (w : EccWhere) (s : State) : State :=
  match w with
  | .stripRamekin i n => dropCopies (fun x p => x == i && p == n) s
  | .stripStockpot i => refetchStrip i s
  | .cacheLine q slot dirty => if dirty then restoreLine q slot s else refetchLine q slot s
  | .backingSlot q slot => restoreLine q slot s
  | .shell k => { s with merges := s.merges.map fun m => if m.key = k then { m with closed := true } else m }
  | .heldRow p k n => (s.rows.filter fun r => rowKeyOf r == k && r.part == p && r.useStep == n).foldl (fun s r => rowSpoiled r s) s
  | .savedTile seq tile => tileLost seq tile s
  | .record seq b => recordSpoiled seq b s
  | .retired p first => rebuildRetired p first s
  | .control q => controlSpoiled q s
  | .freeBlock => s

/-- PATROL_SCRUB: what a read of a line finds (R94, R114, R115). A write of the same merge window mends the words that it covers: the error is
counted, and has its outcome only where a word that it hit is not covered (R116, log entry 151). -/
def lineRead (w : EccWhere) (k : EccKind) (s : State) : State :=
  match k with
  | .none => s
  | .correctable => count (fun c => { c with eccCe := c.eccCe + 1 }) s
  | .uncorrectable bad written =>
    let t := uncorrectable (eccUnit w) 1 s
    if bad &&& ~~~written = 0 then t else spoiled w t

/-! ## Domain faults (R440, Table 21.4) -/

/-- A scratch block lies in a stockpot pair. -/
def blockInPair (k b : Nat) : Bool := bankOf b == 2 * k || bankOf b == 2 * k + 1

/-- What it means for a use that its blocks in stockpot pair k are lost (Table 5.6; objects that the table does not name are counted only,
log entry 63). -/
def useSpoiled (k : Nat) (u : BlockUse) (s : State) : State :=
  match u.use with
  | .head => (stripsOf s u.part).foldl (fun s i => if i.variant = 0 then refetchStrip i s else s) s
  | .overlay v => (stripsOf s u.part).foldl (fun s i => if i.variant = v then refetchStrip i s else s) s
  | .taken =>
    let taken := fun (i : StripId) => (headOf s u.part).any fun h => h.places.any fun p => p.1 == i.variant && p.2.1 == i.first
    ((stripsOf s u.part).filter taken).foldl (fun s i => refetchStrip i s) s
  | .tile seq tile => tileLost seq tile s
  | .record seq => (u.blocks.zipIdx.filter fun b => blockInPair k b.1).foldl (fun s b => recordSpoiled seq b.2 s) s
  | .retired => (((headOf s u.part).map (·.retired)).getD []).foldl (fun s x => rebuildRetired u.part x.first s) s
  | .packed =>
    let hit := fun (r : RowRec) => s.pot.lines.any fun l =>
      l.part == u.part && l.use == .row (rowKeyOf r) r.stepSeq && l.places.any fun b => u.blocks.contains b.1 && blockInPair k b.1
    (s.rows.filter fun r => r.part == u.part && hit r).foldl (fun s r => rowSpoiled r s) s
  | .row key n => (s.rows.filter fun r => rowKeyOf r == key && r.stepSeq == n).foldl (fun s r => rowSpoiled r s) s
  | _ => s

/-- Dirty lines of every request, when a pair of the state cache is lost: which lines it held is not known (log entry 63). -/
def cacheSpoiled (s : State) : State :=
  let l := s.reqs.filter fun e => !e.state.terminal && e.state != .free
  l.foldl (fun s e => (dirtyLines e).foldl (fun s x => restoreLine e.req x.1 s) s) s

/-- Every line of a stockpot pair is an uncorrectable error: 65,536 lines (Tables 5.1, 21.4). -/
def pairSpoiled (k : Nat) (s : State) : State :=
  let s := uncorrectable 1 65536 s
  if 2 * k + 1 ≥ s.kit.pans - 2 * s.regs.stcInForce then cacheSpoiled s
  else (s.pot.uses.filter fun u => u.blocks.any (blockInPair k)).foldl (fun s u => useSpoiled k u s) s

/-- PD_DBG is off: bank 15 reads zero, and halted targets are released (R333, R469, R470). -/
def debugOff (s : State) : State :=
  let drop := ~~~(BitVec.twoPow 148 147)
  let was := s.dbg.halted.getLsbD 0
  let s := { s with power := { s.power with req := s.power.req &&& drop, ack := s.power.ack &&& drop, on := s.power.on &&& drop }
                    dbg := { s.dbg with halted := 0, bpLo := List.replicate 4 0, bp := List.replicate 4 0, memAddrLo := 0, memAddr := 0
                                        memErr := 0, latchHi := none } }
  if was then eociaGoesOn s else s

/-- The slice serves on and sends no HEARTBEAT; nothing outside the base set is requested any more (Table 21.4). -/
def domainLost (s : State) : State :=
  { s with group := { s.group with silent := true }, power := { s.power with stopped := true } }

/-- A fault of a domain that the slice has (R435, R440, Table 21.4). -/
def domainFault (d : Nat) (s : State) : State :=
  if !(domainExists s d) then s
  else
    let s := alarm 0x0F (BitVec.ofNat 64 d) s
    if d < 48 then powerPlan (fencePan d s)
    else if d < 96 then powerPlan (fencePan (d - 48) s)
    else if d < 99 then domainLost s
    else if d < 120 then pairSpoiled (d - 96) s
    else if d < 136 then s
    else if d < 140 then portLost (d - 136) s
    else if d = 147 then debugOff s
    else domainLost s

/-- PWR_ACK_TIMEOUT: a missing acknowledgement, of a domain or of a pair's voltage, is a fault (R439, R480). -/
def ackMissing (d : Nat) (s : State) : State :=
  if s.power.req.getLsbD d && !(s.power.ack.getLsbD d) then domainFault d s
  else if d < 48 && (s.power.pairs.getD (d / 2) ⟨0, 0, false, 0⟩).waitVack then domainFault (2 * (d / 2) + 1) (domainFault (2 * (d / 2)) s)
  else s

/-! ## Meanings -/

/-- PATROL_SCRUB. -/
def execPatrolScrub (w : EccWhere) (k : EccKind) (s : State) : Host.Outcome State Fault Refusal := .next (lineRead w k s)

/-- PM_FAULT. -/
def execPmFault (d : Nat) (s : State) : Host.Outcome State Fault Refusal := .next (domainFault d s)

/-- PWR_ACK_TIMEOUT. -/
def execPwrAckTimeout (d : Nat) (s : State) : Host.Outcome State Fault Refusal := .next (ackMissing d s)

/-- PLL_LOCK_LOSS: a fault of PD_CTL (R480). -/
def execPllLockLoss (s : State) : Host.Outcome State Fault Refusal := .next (domainFault 143 s)

end Sys2Proof.Machine
end

