-- ==== Sys2Proof/Machine/Debug.lean ====
section
/-! DEFINITION. The debug unit: targets, breakpoints, the debug address space, bank 15 and the TAP (R344, R447, R464 to R469;
Tables 16.9, 22.7 to 22.10). -/

namespace Sys2Proof.Machine

/-! ## Access (R333, R344, R405) -/

/-- PD_DBG is on. -/
def debugOn (s : State) : Bool := s.power.on.getLsbD 147

/-- Bank 15 is open: PD_DBG is on, and the lifecycle is OPEN or unlocked. -/
def debugOpen (s : State) : Bool := debugOn s && (!s.sec.locked || s.sec.unlocked)

/-! ## Targets (R447, R468) -/

/-- Address of Whisk's state (Table 22.7). -/
def inWhisk (a : Nat) : Bool := 0x100000 ≤ a && a < 0x110000

/-- What the debug port wrote into Whisk's state holds no longer once Whisk executes (log entry 13). -/
def whiskMoves (s : State) : State := { s with dbg := { s.dbg with mem := cellDrop inWhisk s.dbg.mem } }

/-- A write of DBG_CTRL (R330, R468): Eocia goes on when target 0 resumes, and a debug load is checked (R447). -/
def haltWrite (v : Word) (s : State) : State :=
  let mask := v.extractLsb' 16 4
  let new := v.setWidth 4
  let was := s.dbg.halted.getLsbD 0
  let s := { s with dbg := { s.dbg with halted := (s.dbg.halted &&& ~~~mask) ||| (new &&& mask) } }
  if mask.getLsbD 0 && !(new.getLsbD 0) then
    if s.whisk = .loading then debugLoaded (whiskMoves s) else if was then eociaGoesOn (whiskMoves s) else s
  else s

/-- A write of DBG_STEP: a halted target makes one step, of which only Whisk's shows in its registers (R468). -/
def stepWrite (v : Word) (s : State) : State :=
  if (v.setWidth 2).toNat = 0 && s.dbg.halted.getLsbD 0 then whiskMoves s else s

/-- Whisk reaches an enabled breakpoint (R468). -/
def breakHit (n : Nat) (s : State) : State :=
  if (s.dbg.bp.getD n 0).getLsbD 0 then { s with dbg := { s.dbg with halted := s.dbg.halted ||| 0b0001#4 } } else s

/-! ## The debug address space (R464, R465, Table 22.7) -/

/-- Regions of the debug address space. -/
inductive Region where
  | code (off : Nat)
  | whisk (off : Nat)
  | sequencer (t : Nat)
  | thresh (n : Nat)
  | perf (off : Nat)
  | pot (bank off : Nat)
  | ramekin (pan : Nat)
  | unmapped
  deriving DecidableEq, Repr

/-- The region of an address; banks and ramekins that the kit lacks are unmapped. -/
def regionOf (s : State) (a : Nat) : Region :=
  if a < 0x100000 then .code a
  else if a < 0x110000 then .whisk (a - 0x100000)
  else if 0x200000 ≤ a && a < 0x203000 then .sequencer ((a - 0x200000) / 4096 + 1)
  else if 0x300000 ≤ a && a < 0x300040 then .thresh ((a - 0x300000) / 4)
  else if 0x310000 ≤ a && a < 0x310400 then .perf (a - 0x310000)
  else if stockpotBase ≤ a && a < stockpotBase + s.kit.pans * 2097152 then
    .pot ((a - stockpotBase) / 2097152) ((a - stockpotBase) % 2097152)
  else if 0x200000000 ≤ a && a < 0x200000000 + s.kit.pans * 262144 then .ramekin ((a - 0x200000000) / 262144)
  else .unmapped

/-- A word that no rule gives (log entry 13). -/
def freeWord (s : State) : Word × Nat × State := (Config.debugWord s.fresh, 0, { s with fresh := s.fresh + 1 })

/-- A word of bytes written by the debug port, or zero by rule; none where no rule gives one. -/
def cellWord (m : List Host.Cell) (a : Nat) : Option Word :=
  match cellAt m a, cellAt m (a + 1), cellAt m (a + 2), cellAt m (a + 3) with
  | some b, some c, some d, some e => some (wordAt [b, c, d, e] 0)
  | _, _, _, _ => none

/-- The state of the scratch block at a place of a bank: none outside scratch. -/
def blockAt (s : State) (bank off : Nat) : Option Blk :=
  let b := (bank - 5) * 32 + off / 65536
  if bank < 5 || !(inScratch s s.regs.stcInForce b) then none else s.pot.blocks[b]?

/-- Code memory: the running image at 0, the staged one at 0x80000 (Table 22.7). -/
def codeWord (s : State) (off : Nat) : Option Word :=
  let l := if off < 0x80000 then s.dbg.codeRun else s.dbg.codeStaged
  let o := off % 0x80000
  if o + 4 ≤ l.length then some (wordAt l o) else none

/-- A 64-bit value is read low word first; the low word's read latches the high word (R464). -/
def latched (a : Nat) (lo hi : Word) (s : State) : Word × Nat × State :=
  if a % 8 = 0 then (lo, 0, { s with dbg := { s.dbg with latchHi := some (BitVec.ofNat 64 (a + 4), hi) } })
  else
    match s.dbg.latchHi with
    | some x => if x.1.toNat = a then (x.2, 0, s) else (hi, 0, s)
    | none => (hi, 0, s)

/-- Whisk's state word by word: x0 is zero; what the port has written while Whisk is halted; else a free value. -/
def whiskWord (s : State) (a : Nat) : Word :=
  if a - 0x100000 < 8 then 0 else (cellWord s.dbg.mem a).getD (Config.debugWord (s.fresh + a % 8 / 4))

/-- One read: value, ERR, next state. -/
def debugFetch (a : Nat) (s : State) : Word × Nat × State :=
  match regionOf s a with
  | .code off => match codeWord s off with | some w => (w, 0, s) | none => freeWord s
  | .whisk _ =>
    if !(s.dbg.halted.getLsbD 0) then (0, 3, s)
    else
      let b := a / 8 * 8
      latched a (whiskWord s b) (whiskWord s (b + 4)) { s with fresh := s.fresh + 2 }
  | .sequencer t => if s.dbg.halted.getLsbD t then freeWord s else (0, 3, s)
  | .thresh n => ((s.tele.thresh.getD n 0).setWidth 32, 0, s)
  | .perf off =>
    let v := ((s.tele.perf.find? fun p => p.1 == off / 8 * 8).map (·.2)).getD 0
    latched a (v.setWidth 32) (v.extractLsb' 32 32) s
  | .pot bank off =>
    match blockAt s bank off with
    | some (.leaving _) => (0, 2, s)
    | some .free => match cellWord s.dbg.mem a with | some w => (w, 0, s) | none => freeWord s
    | _ => freeWord s
  | .ramekin _ => freeWord s
  | .unmapped => (0, 1, s)

/-- A word of an image being loaded (R447). -/
def codePut (off : Nat) (v : Word) (l : Bytes) : Bytes :=
  let l := padTo (off + 4) l
  l.take off ++ leBytes 4 v.toNat ++ l.drop (off + 4)

/-- Code memory takes writes in boot hold under debug load (R447, Table 22.7). -/
def loadOpen (s : State) : Bool := (s.whisk == .loading || s.whisk == .hold) && debugLoad s.straps s.sec.fuses

/-- Bytes of a word written over the debug port. -/
def putWord (a : Nat) (v : Word) (s : State) : State :=
  { s with dbg := { s.dbg with mem := cellsPut a (leBytes 4 v.toNat) s.dbg.mem } }

/-- One write: ERR, next state. A write into data whose layout no rule gives leaves no trace in the model (log entry 13). -/
def debugStore (a : Nat) (v : Word) (s : State) : Nat × State :=
  match regionOf s a with
  | .code off =>
    if !(loadOpen s) || off ≥ 0x80000 then (3, s) else (0, { s with dbg := { s.dbg with codeRun := codePut off v s.dbg.codeRun } })
  | .whisk off => if !(s.dbg.halted.getLsbD 0) then (3, s) else (0, if off < 8 then s else putWord a v s)
  | .sequencer _ | .perf _ => (3, s)
  | .thresh n => (0, { s with tele := { s.tele with thresh := s.tele.thresh.set n (v.setWidth 3) } })
  | .pot bank off =>
    match blockAt s bank off with
    | some (.leaving _) => (2, s)
    | some .free => (0, putWord a v s)
    | _ => (0, s)
  | .ramekin _ => (0, s)
  | .unmapped => (1, s)

/-- After an access the address advances by 4, and DBG_MEM_STATUS tells of it (Table 16.9). -/
def advance (err : Nat) (s : State) : State :=
  let a := s.dbg.memAddr + 4
  { s with dbg := { s.dbg with memErr := err, memAddr := a, memAddrLo := a.setWidth 32 } }

/-- The address of the next access: bits [1:0] are ignored. -/
def memAt (s : State) : Nat := s.dbg.memAddr.toNat / 4 * 4

/-- A read of DBG_MEM_DATA. -/
def memRead (s : State) : Word × State :=
  let r := debugFetch (memAt s) s
  (r.1, advance r.2.1 r.2.2)

/-- A write of DBG_MEM_DATA. -/
def memWrite (v : Word) (s : State) : State :=
  let r := debugStore (memAt s) v s
  advance r.1 r.2

/-! ## Bank 15 (Table 16.9) -/

/-- DBG_STATUS. -/
def debugStatus (s : State) : Word := s.dbg.halted.setWidth 32 ||| (if debugOpen s then 0x100#32 else 0)

/-- A read of bank 15 that changes nothing: every register but DBG_MEM_DATA. -/
def debugReg (s : State) (off : Nat) : Word :=
  if !(debugOpen s) then 0
  else if off = 0x000 then debugStatus s
  else if off = 0x004 then s.dbg.halted.setWidth 32
  else if 0x010 ≤ off && off < 0x030 then
    if off % 8 = 0 then s.dbg.bpLo.getD ((off - 0x010) / 8) 0 else (s.dbg.bp.getD ((off - 0x010) / 8) 0).extractLsb' 32 32
  else if off = 0x030 then s.dbg.memAddrLo
  else if off = 0x034 then s.dbg.memAddr.extractLsb' 32 32
  else if off = 0x03C then BitVec.ofNat 32 s.dbg.memErr
  else 0

/-- A read of bank 15. -/
def debugRead (off : Nat) (s : State) : Word × State :=
  if off = 0x038 && debugOpen s then memRead s else (debugReg s off, s)

/-- A write of a breakpoint's or the address register's high half: the staged pair takes effect (R332). -/
def breakWrite (n : Nat) (v : Word) (s : State) : State :=
  { s with dbg := { s.dbg with bp := s.dbg.bp.set n (v ++ s.dbg.bpLo.getD n 0) } }

/-- A write of bank 15; ignored while it is not open (R333, R344). -/
def debugWrite (off : Nat) (v : Word) (s : State) : State :=
  if !(debugOpen s) then s
  else if off = 0x004 then haltWrite v s
  else if off = 0x008 then stepWrite v s
  else if 0x010 ≤ off && off < 0x030 then
    if off % 8 = 0 then { s with dbg := { s.dbg with bpLo := s.dbg.bpLo.set ((off - 0x010) / 8) v } }
    else breakWrite ((off - 0x010) / 8) v s
  else if off = 0x030 then { s with dbg := { s.dbg with memAddrLo := v } }
  else if off = 0x034 then { s with dbg := { s.dbg with memAddr := v ++ s.dbg.memAddrLo } }
  else if off = 0x038 then memWrite v s
  else s

/-! ## The TAP (R466, R467, Table 22.9) -/

/-- n low bits of a number, least significant first. -/
def lowBits (n v : Nat) : List Bool := (List.range n).map fun i => bitOf v i

/-- IDCODE. -/
def idcode : Word := 0x3#4 ++ 0x4B32#16 ++ Config.manufacturer ++ 1#1

/-- What DBG_REG captures: DATA, DONE, DENIED. -/
def debugCapture (d : Debug) : Nat := d.tapData.toNat + b01 d.tapDone * 2 ^ 32 + b01 d.tapDenied * 2 ^ 33

/-- DBG_REG Update-DR: one access in bank 15, complete when its capture is loaded; denied while the bank is not open. -/
def tapAccess (write : Bool) (off : Nat) (v : Word) (s : State) : State :=
  let r : Word × State := if write then (0, debugWrite off v s) else debugRead off s
  let t := r.2
  let d := { t.dbg with tapIr := 0x02, tapData := r.1, tapDone := true, tapDenied := !(debugOpen s) }
  { t with dbg := { d with tapDr := lowBits 46 (debugCapture d) } }

/-! ## Meanings -/

/-- BREAKPOINT_HIT. -/
def execBreakpointHit (n : Nat) (s : State) : Host.Outcome State Fault Refusal := .next (breakHit n s)

/-- TAP_RESET: Test-Logic-Reset selects IDCODE. -/
def execTapReset (s : State) : Host.Outcome State Fault Refusal := .next { s with dbg := { s.dbg with tapIr := 0x01 } }

/-- TAP_IDCODE. -/
def execTapIdcode (s : State) : Host.Outcome State Fault Refusal :=
  .next { s with dbg := { s.dbg with tapIr := 0x01, tapDr := lowBits 32 idcode.toNat } }

/-- TAP_DBG_REG. -/
def execTapDbgReg (write : Bool) (off : BitVec 12) (v : Word) (s : State) : Host.Outcome State Fault Refusal :=
  .next (tapAccess write (off.toNat / 4 * 4) v s)

end Sys2Proof.Machine
end

