-- ==== Sys2Proof/Machine/Regs.lean ====
section
/-! DEFINITION. The CSR port: source rights, address decoding, and the registers of every bank (R6 to R9, R55, R90, R101, R103,
R327 to R345, R393, R394; Tables 16.1 to 16.10, 19.2). -/

namespace Sys2Proof.Machine

/-! ## Decoding and rights (R328, R393) -/

/-- The size of a bank's decoded set (Table 16.1). -/
def bankSize (bank : Nat) : Nat :=
  if bank = 0 || bank = 14 then 0x800 else if bank = 1 then 0x200 else if bank < 14 then 0x100 else 0x1000

/-- Bank of a window offset. -/
def bankOfCsr (off : Nat) : Nat := off / 4096

/-- The offset that a bank decodes: bits [1:0] and those above its set are dropped. -/
def decoded (off : Nat) : Nat := off % bankSize (bankOfCsr off) / 4 * 4

/-- Registers of bank 1 that a partition agent reads: LIFECYCLE, PART_SCRUB, FW_STATE, SEC_STATUS (Table 19.2). -/
def partReads (o : Nat) : Bool := o == 0x000 || o == 0x00C || o == 0x010 || o == 0x014

/-- Table 19.2: may a source make an access? `v` is the value written. -/
def csrAllowed (src : Nat) (off : Nat) (write : Bool) (v : Word) : Bool :=
  let bank := bankOfCsr off
  let o := decoded off
  if src = 15 then true
  else if src ≥ 12 then false
  else if bank = 0 || bank = 14 then !write
  else if bank = 1 then (if write then o == 0x008 && (v.setWidth 4).toNat == src else partReads o)
  else bank == src + 2

/-- A denied access is logged (R393, Table 22.4). -/
def csrDenied (src off : Nat) (write : Bool) (s : State) : State :=
  log 0x03 0 (BitVec.ofNat 64 (src + off * 2 ^ 4 + b01 write * 2 ^ 20)) s

/-! ## Interrupt lines (R335) -/

/-- IRQ_ALARM. -/
def irqAlarm (s : State) : Bool := (s.regs.irqStatus &&& s.regs.irqEn).getLsbD 0

/-- IRQ_GROUP. -/
def irqGroup (s : State) : Bool := (s.regs.irqStatus &&& s.regs.irqEn) &&& 0b11110#5 ≠ 0

/-! ## Bank 0 (Table 16.3) -/

/-- STEP_PERIOD.US clamps to 250 to 65,000 (R55). -/
def clampPeriod (n : Nat) : Nat := max 250 (min 65000 n)

/-- The largest state cache of a kit, in steps (R29, R103). -/
def maxCache (k : Kit) : Nat := if !k.coarse then 8 else if k.pans ≤ 12 then 3 else if k.pans ≤ 24 then 6 else 8

/-- STC_CFG.STEPS as it is stored (R103). -/
def clampCache (k : Kit) (n : Nat) : Nat := max 1 (min (maxCache k) n)

/-- ACLK_CEIL.MHZ as it is stored (R336). -/
def clampCeiling (n : Nat) : Nat := max 350 (min 700 (n / 25 * 25))

/-- ACLK_CEIL: every pan pair above the ceiling is lowered to it; none is raised (R336). -/
def ceilWrite (v : Word) (s : State) : State :=
  let s := { s with regs := { s.regs with aclkCeil := clampCeiling (v.setWidth 10).toNat } }
  (List.range s.power.pairs.length).foldl (fun s p =>
    if (s.power.pairs.getD p ⟨0, 0, false, 0⟩).mhz > ceiling s then setPair p (ceiling s) s else s) s

/-- The HIP partner is thawed: credit counts begin anew and 1,024 credits are returned per class (R348, R363). -/
def thawHip (s : State) : State :=
  let anew := fun (h : HipPort) => { h with received := 0, returned := 0, owed := 1024 }
  returnCredits { s with regs := { s.regs with frozenHip := false }, hipB := anew s.hipB, hipL := anew s.hipL }

/-- A partition is thawed. -/
def thawPart (p : Nat) (s : State) : State :=
  hmpIssue { s with regs := { s.regs with frozenPart := s.regs.frozenPart &&& ~~~(BitVec.twoPow 12 p) } }

/-- THAW_MASTER (R337): logged; a code of a master that is not frozen, or of a partition under scrub, has no effect (R407). -/
def thawWrite (v : Word) (s : State) : State :=
  let c := (v.setWidth 5).toNat
  let s' := log 0x07 (if c < 12 then c else 0) (BitVec.ofNat 64 c) s
  if c < 12 then (if partFrozen s c && !(scrubbing s c) then thawPart c s' else s)
  else if c = 16 then (if s.regs.frozenHip then thawHip s' else s)
  else if c = 17 then (if s.regs.frozenHmp then thawHmp s' else s)
  else if c = 18 then (if s.regs.frozenGbp then thawGbp s' else s)
  else s

/-- A write-masked register: bits whose mask bit is 1 take the new value (R330). -/
def maskedWrite (n : Nat) (old : BitVec n) (v : Word) : BitVec n :=
  let m : BitVec n := (v.extractLsb' 16 16).setWidth n
  (old &&& ~~~m) ||| (v.setWidth n &&& m)

/-- A write of bank 0. -/
def bank0Write (o : Nat) (v : Word) (s : State) : State :=
  let put := fun (f : Regs → Regs) => { s with regs := f s.regs }
  if o = 0x004 then put fun r => { r with sliceOvr := v.extractLsb' 8 6, sliceOvrEn := v.getLsbD 15 }
  else if o = 0x00C then
    put fun r => { r with grpSize := v.extractLsb' 0 7, grpX := v.extractLsb' 7 7, grpY := v.extractLsb' 14 7, grpOvrEn := v.getLsbD 31 }
  else if o = 0x014 then put fun r => { r with stepPeriod := clampPeriod (v.setWidth 16).toNat }
  else if o = 0x024 then thawWrite v s
  else if o = 0x028 then put fun r => { r with irqStatus := r.irqStatus &&& ~~~(v.setWidth 5) }
  else if o = 0x02C then put fun r => { r with irqEn := v.setWidth 5 }
  else if o = 0x030 then put fun r => { r with placeHold := (maskedWrite 1 (if r.placeHold then 1#1 else 0#1) v) == 1#1 }
  else if o = 0x034 then put fun r => { r with stcSteps := clampCache s.kit (v.setWidth 4).toNat }
  else if o = 0x040 then ceilWrite v s
  else if 0x080 ≤ o && o < 0x0B0 then put fun r => { r with quota := r.quota.set ((o - 0x080) / 4) (v.setWidth 16).toNat }
  else s

/-- Microseconds since the TICK arrival, saturating (Table 16.3). -/
def elapsedUs (s : State) : Nat := if s.step.step = 0 then 0 else min 65535 ((s.timer - s.step.tickAt) / 1000)

/-- A read of bank 0. -/
def bank0Read (s : State) (o : Nat) : Word :=
  let g := s.group
  if o = 0x000 then 0x00030002#32
  else if o = 0x004 then sliceIdWord s
  else if o = 0x008 then
    BitVec.ofNat 32 (g.size + (if g.formed then g.x * 2 ^ 7 + g.y * 2 ^ 14 else 0) + g.master * 2 ^ 21 + b01 g.formed * 2 ^ 27 + b01 g.solo * 2 ^ 28)
  else if o = 0x00C then
    BitVec.ofNat 32 (s.regs.grpSize.toNat + s.regs.grpX.toNat * 2 ^ 7 + s.regs.grpY.toNat * 2 ^ 14 + b01 s.regs.grpOvrEn * 2 ^ 31)
  else if o = 0x010 then s.straps.setWidth 32
  else if o = 0x014 then BitVec.ofNat 32 s.regs.stepPeriod
  else if o = 0x018 then BitVec.ofNat 32 (s.step.step / 2 ^ 32)
  else if o = 0x01C then BitVec.ofNat 32 s.step.step
  else if o = 0x020 then BitVec.ofNat 32 (s.step.phase + elapsedUs s * 2 ^ 16)
  else if o = 0x028 then s.regs.irqStatus.setWidth 32
  else if o = 0x02C then s.regs.irqEn.setWidth 32
  else if o = 0x030 then BitVec.ofNat 32 (b01 s.regs.placeHold)
  else if o = 0x034 then BitVec.ofNat 32 s.regs.stcSteps
  else if o = 0x038 then BitVec.ofNat 32 (s.regs.stcInForce + b01 (s.regs.stcInForce != s.regs.stcSteps) * 2 ^ 4)
  else if o = 0x03C then BitVec.ofNat 32 (freeCount s + leavingCount s * 2 ^ 16)
  else if o = 0x040 then BitVec.ofNat 32 s.regs.aclkCeil
  else if o = 0x044 then
    BitVec.ofNat 32 (s.regs.frozenPart.toNat + b01 s.regs.frozenHip * 2 ^ 16 + b01 s.regs.frozenHmp * 2 ^ 17 + b01 s.regs.frozenGbp * 2 ^ 18)
  else if 0x080 ≤ o && o < 0x0B0 then BitVec.ofNat 32 (s.regs.quota.getD ((o - 0x080) / 4) 0)
  else 0

/-! ## Bank 1 (Table 16.5) -/

/-- PART_KILL (R339). -/
def killWrite (v : Word) (s : State) : State :=
  if v.extractLsb' 16 16 = 0x5C0B#16 then startKill (v.setWidth 4).toNat s else s

/-- A write of bank 1. -/
def bank1Write (o : Nat) (v : Word) (s : State) : State :=
  if o = 0x004 then { s with regs := { s.regs with mgmtParts := maskedWrite 12 s.regs.mgmtParts v } }
  else if o = 0x008 then killWrite v s
  else s

/-- A read of bank 1. -/
def bank1Read (s : State) (o : Nat) : Word :=
  if o = 0x000 then BitVec.ofNat 32 (b01 s.sec.locked + b01 s.sec.unlocked * 2 ^ 2)
  else if o = 0x004 then s.regs.mgmtParts.setWidth 32
  else if o = 0x00C then s.regs.scrub.setWidth 32
  else if o = 0x010 then
    BitVec.ofNat 32 (s.regs.fwRunning % 256 + s.regs.fwStaged % 256 * 2 ^ 8 + b01 s.regs.fwStagedOk * 2 ^ 16 + s.regs.fwRestarts * 2 ^ 24)
  else if o = 0x014 then BitVec.ofNat 32 (s.regs.keys.toNat + b01 s.regs.secFault * 2 ^ 16)
  else 0

/-! ## Bank 14 (Tables 16.6, 16.8) -/

/-- The log ring starts again at its first record (R343). -/
def ringAnew (s : State) : State := { s with tele := { s.tele with logProd := 0, logCons := 0 } }

/-- LOG_CFG: an order outside 6 to 20 leaves EN at 0; log writes that WINDOW had stopped go on (R343, R354). -/
def logCfgWrite (v : Word) (s : State) : State :=
  let order := v.extractLsb' 1 5
  let en := v.getLsbD 0 && 6 ≤ order.toNat && order.toNat ≤ 20
  let s := { s with regs := { s.regs with logEn := en, logOrder := order }, tele := { s.tele with logStopped := false } }
  ringAnew s

/-- LOG_BASE_HI: the staged base takes effect, and restarts the ring while EN is 1 (R332, R343). -/
def logBaseWrite (v : Word) (s : State) : State :=
  let s := { s with regs := { s.regs with logBase := v ++ s.regs.logBaseLo } }
  if s.regs.logEn then ringAnew s else s

/-- A write of bank 14. -/
def bank14Write (o : Nat) (v : Word) (s : State) : State :=
  if o = 0x200 then { s with regs := { s.regs with logBaseLo := v &&& 0xFFFFFFC0#32 } }
  else if o = 0x204 then logBaseWrite v s
  else if o = 0x208 then logCfgWrite v s
  else s

/-- A half of a pair: bits [31:0] at the even offset. -/
def halfOf (v : BitVec 64) (hi : Bool) : Word := if hi then v.extractLsb' 32 32 else v.setWidth 32

/-- The 32-bit counters of bank 14, from offset 0. -/
def counterWords (c : Counters) : List Word :=
  [c.tickSlips, c.tickSlipUs, c.publishLate, c.shellFull, c.rescore1, c.rescore2, c.holdMiss, c.sampleEmpty, c.eccCe, c.eccUe,
   c.pipParity, c.mergeStale, c.mergeDups, c.treeReject, c.ladleStalls, c.budgetThrottles, c.tileLost]

/-- The pairs from offset 0x080. -/
def counterPairs (c : Counters) : List (BitVec 64) := [c.pipLRuns, c.pipTWords, c.rowsScored, c.tokensHomed]

/-- The record counters from offset 0x100. -/
def recordCounters (c : Counters) : List Word := [c.alarmGen, c.alarmCoalesced, c.logGen, c.logLost, c.traceGen, c.traceDrop]

/-- Clock of a pan pair; 0 while no pan of it that is not fenced is on (Table 16.6). -/
def pairClock (s : State) (p : Nat) : Nat :=
  if [2 * p, 2 * p + 1].any fun n => s.power.on.getLsbD n && !(s.power.fenced.contains n) then ((s.power.pairs[p]?).map (·.mhz)).getD 0 else 0

/-- A read of bank 14. -/
def bank14Read (s : State) (o : Nat) : Word :=
  if o < 0x044 then (counterWords s.cnt).getD (o / 4) 0
  else if 0x080 ≤ o && o < 0x0A0 then halfOf ((counterPairs s.cnt).getD ((o - 0x080) / 8) 0) (o % 8 == 4)
  else if 0x100 ≤ o && o < 0x118 then (recordCounters s.cnt).getD ((o - 0x100) / 4) 0
  else if 0x120 ≤ o && o < 0x160 then s.cnt.traceDropS.getD ((o - 0x120) / 4) 0
  else if 0x180 ≤ o && o < 0x1E0 then BitVec.ofNat 32 (pairClock s ((o - 0x180) / 4))
  else if o = 0x200 then s.regs.logBaseLo
  else if o = 0x204 then s.regs.logBase.extractLsb' 32 32
  else if o = 0x208 then BitVec.ofNat 32 (b01 s.regs.logEn + s.regs.logOrder.toNat * 2)
  else 0

/-! ## The port (R327 to R329) -/

/-- What a read of a window offset shows; DBG_MEM_DATA, whose read acts, is DBG_MEM_DATA's row. -/
def csrRead (s : State) (off : Nat) : Word :=
  let bank := bankOfCsr off
  let o := decoded off
  if bank = 0 then bank0Read s o
  else if bank = 1 then bank1Read s o
  else if bank < 14 then mbxRead (s.mbx.getD (bank - 2) Mailbox.reset) o
  else if bank = 14 then bank14Read s o
  else debugReg s o

/-- A write that its source may make, at a window offset. -/
def csrPut (off : Nat) (v : Word) (s : State) : State :=
  let bank := bankOfCsr off
  let o := decoded off
  if bank = 0 then bank0Write o v s
  else if bank = 1 then bank1Write o v s
  else if bank < 14 then mbxWrite (bank - 2) o v s
  else if bank = 14 then bank14Write o v s
  else debugWrite o v s

/-- A write on the CSR port: nothing while RST_N is low; a denied one is logged (R393, R438). -/
def csrWrite (src : BitVec 4) (off : Nat) (v : Word) (s : State) : State :=
  if s.inReset then s
  else if csrAllowed src.toNat off true v then csrPut off v s
  else csrDenied src.toNat off true s

/-- A read of DBG_MEM_DATA on the CSR port; the word stands on the port's read data (R393, Table 16.9). -/
def csrMemRead (src : BitVec 4) (s : State) : State :=
  let show_ := fun (w : Word) (s : State) => { s with dbg := { s.dbg with rdata := w } }
  if s.inReset then s
  else if csrAllowed src.toNat 0xF038 false 0 then
    let r := debugRead 0x038 s
    show_ r.1 r.2
  else show_ 0 (csrDenied src.toNat 0xF038 false s)

/-- A write of a mailbox register of a partition's bank; there are twelve banks. -/
def partWrite (src : BitVec 4) (p off : Nat) (v : Word) (s : State) : State :=
  if p < 12 then csrWrite src (0x2000 + 0x1000 * p + off) v s else s

/-! ## Meanings -/

/-- MBX_DOORBELL. -/
def execMbxDoorbell (src : BitVec 4) (p : Nat) (v : Word) (s : State) : Host.Outcome State Fault Refusal := .next (partWrite src p 0x3C v s)

/-- MBX_ACK. -/
def execMbxAck (src : BitVec 4) (p : Nat) (v : Word) (s : State) : Host.Outcome State Fault Refusal := .next (partWrite src p 0x44 v s)

/-- MBX_IRQ_STATUS. -/
def execMbxIrqStatus (src : BitVec 4) (p : Nat) (v : Word) (s : State) : Host.Outcome State Fault Refusal := .next (partWrite src p 0x48 v s)

/-- MBX_IRQ_EN. -/
def execMbxIrqEn (src : BitVec 4) (p : Nat) (v : Word) (s : State) : Host.Outcome State Fault Refusal := .next (partWrite src p 0x4C v s)

/-- CQ_CFG. -/
def execCqCfg (src : BitVec 4) (p : Nat) (v : Word) (s : State) : Host.Outcome State Fault Refusal := .next (partWrite src p 0x58 v s)

/-- CQ_TAIL. -/
def execCqTail (src : BitVec 4) (p : Nat) (v : Word) (s : State) : Host.Outcome State Fault Refusal := .next (partWrite src p 0x5C v s)

/-- CC_CONS. -/
def execCcCons (src : BitVec 4) (p : Nat) (v : Word) (s : State) : Host.Outcome State Fault Refusal := .next (partWrite src p 0x70 v s)

/-- STEP_PERIOD. -/
def execStepPeriod (src : BitVec 4) (v : Word) (s : State) : Host.Outcome State Fault Refusal := .next (csrWrite src 0x0014 v s)

/-- THAW_MASTER. -/
def execThawMaster (src : BitVec 4) (v : Word) (s : State) : Host.Outcome State Fault Refusal := .next (csrWrite src 0x0024 v s)

/-- GLB_IRQ_STATUS. -/
def execGlbIrqStatus (src : BitVec 4) (v : Word) (s : State) : Host.Outcome State Fault Refusal := .next (csrWrite src 0x0028 v s)

/-- GLB_IRQ_EN. -/
def execGlbIrqEn (src : BitVec 4) (v : Word) (s : State) : Host.Outcome State Fault Refusal := .next (csrWrite src 0x002C v s)

/-- PLACE_CTL. -/
def execPlaceCtl (src : BitVec 4) (v : Word) (s : State) : Host.Outcome State Fault Refusal := .next (csrWrite src 0x0030 v s)

/-- STC_CFG. -/
def execStcCfg (src : BitVec 4) (v : Word) (s : State) : Host.Outcome State Fault Refusal := .next (csrWrite src 0x0034 v s)

/-- STK_QUOTA of a partition. -/
def execStkQuota (src : BitVec 4) (p : Nat) (v : Word) (s : State) : Host.Outcome State Fault Refusal :=
  .next (if p < 12 then csrWrite src (0x0080 + 4 * p) v s else s)

/-- ACLK_CEIL. -/
def execAclkCeil (src : BitVec 4) (v : Word) (s : State) : Host.Outcome State Fault Refusal := .next (csrWrite src 0x0040 v s)

/-- MGMT_PARTS. -/
def execMgmtParts (src : BitVec 4) (v : Word) (s : State) : Host.Outcome State Fault Refusal := .next (csrWrite src 0x1004 v s)

/-- PART_KILL. -/
def execPartKill (src : BitVec 4) (v : Word) (s : State) : Host.Outcome State Fault Refusal := .next (csrWrite src 0x1008 v s)

/-- LOG_BASE_HI. -/
def execLogBaseHi (src : BitVec 4) (v : Word) (s : State) : Host.Outcome State Fault Refusal := .next (csrWrite src 0xE204 v s)

/-- LOG_CFG. -/
def execLogCfg (src : BitVec 4) (v : Word) (s : State) : Host.Outcome State Fault Refusal := .next (csrWrite src 0xE208 v s)

/-- REG_WRITE. -/
def execRegWrite (src : BitVec 4) (off : BitVec 16) (v : Word) (s : State) : Host.Outcome State Fault Refusal :=
  .next (csrWrite src off.toNat v s)

/-- DBG_CTRL. -/
def execDbgCtrl (src : BitVec 4) (v : Word) (s : State) : Host.Outcome State Fault Refusal := .next (csrWrite src 0xF004 v s)

/-- DBG_STEP. -/
def execDbgStep (src : BitVec 4) (v : Word) (s : State) : Host.Outcome State Fault Refusal := .next (csrWrite src 0xF008 v s)

/-- DBG_BP: the high half of a breakpoint. -/
def execDbgBp (src : BitVec 4) (n : Nat) (v : Word) (s : State) : Host.Outcome State Fault Refusal :=
  .next (if n < 4 then csrWrite src (0xF014 + 8 * n) v s else s)

/-- DBG_MEM_ADDR: the high half of the address. -/
def execDbgMemAddr (src : BitVec 4) (v : Word) (s : State) : Host.Outcome State Fault Refusal := .next (csrWrite src 0xF034 v s)

/-- DBG_MEM_DATA. -/
def execDbgMemData (src : BitVec 4) (write : Bool) (v : Word) (s : State) : Host.Outcome State Fault Refusal :=
  .next (if write then csrWrite src 0xF038 v s else csrMemRead src s)

end Sys2Proof.Machine
end

