-- ==== Sys2Proof/Machine/Dispatch.lean ====
section
/-! DEFINITION. The effect of every command on everything but the queue: one arm per row of spec/opcode_table.json. -/

namespace Sys2Proof.Machine

/-- The command's effect. -/
def exec (i : Instr) (s : State) : Host.Outcome State Fault Refusal :=
  match i with
  | .info c => Sys2Proof.Machine.execInfo c s
  | .pipProbe c => Sys2Proof.Machine.execPipProbe c s
  | .partBacking c => Sys2Proof.Machine.execPartBacking c s
  | .headLoad c => Sys2Proof.Machine.execHeadLoad c s
  | .headUnload c => Sys2Proof.Machine.execHeadUnload c s
  | .overlayLoad c => Sys2Proof.Machine.execOverlayLoad c s
  | .mobjLoad c => Sys2Proof.Machine.execMobjLoad c s
  | .mobjDelete c => Sys2Proof.Machine.execMobjDelete c s
  | .biasLoad c => Sys2Proof.Machine.execBiasLoad c s
  | .biasDelete c => Sys2Proof.Machine.execBiasDelete c s
  | .rangeLoad c => Sys2Proof.Machine.execRangeLoad c s
  | .sliceDrain c => Sys2Proof.Machine.execSliceDrain c s
  | .sliceRejoin c => Sys2Proof.Machine.execSliceRejoin c s
  | .fwStage c => Sys2Proof.Machine.execFwStage c s
  | .reqAdmit c => Sys2Proof.Machine.execReqAdmit c s
  | .reqAdmitAcorn c => Sys2Proof.Machine.execReqAdmitAcorn c s
  | .reqSettings c => Sys2Proof.Machine.execReqSettings c s
  | .reqCancel c => Sys2Proof.Machine.execReqCancel c s
  | .reqPause c => Sys2Proof.Machine.execReqPause c s
  | .reqResume c => Sys2Proof.Machine.execReqResume c s
  | .reqEvict c => Sys2Proof.Machine.execReqEvict c s
  | .huskResume c => Sys2Proof.Machine.execHuskResume c s
  | .reqMove c => Sys2Proof.Machine.execReqMove c s
  | .reqQuery c => Sys2Proof.Machine.execReqQuery c s
  | .tenantBind c => Sys2Proof.Machine.execTenantBind c s
  | .tenantCredit c => Sys2Proof.Machine.execTenantCredit c s
  | .tenantDrain c => Sys2Proof.Machine.execTenantDrain c s
  | .tenantReserve c => Sys2Proof.Machine.execTenantReserve c s
  | .tenantUnbind c => Sys2Proof.Machine.execTenantUnbind c s
  | .tenantQuery c => Sys2Proof.Machine.execTenantQuery c s
  | .acornMake c => Sys2Proof.Machine.execAcornMake c s
  | .acornTake c => Sys2Proof.Machine.execAcornTake c s
  | .acornDrop c => Sys2Proof.Machine.execAcornDrop c s
  | .variantReg c => Sys2Proof.Machine.execVariantReg c s
  | .variantDrop c => Sys2Proof.Machine.execVariantDrop c s
  | .trainOpen c => Sys2Proof.Machine.execTrainOpen c s
  | .trainForward c => Sys2Proof.Machine.execTrainForward c s
  | .trainBackward c => Sys2Proof.Machine.execTrainBackward c s
  | .trainNorm c => Sys2Proof.Machine.execTrainNorm c s
  | .trainUpdate c => Sys2Proof.Machine.execTrainUpdate c s
  | .trainClose c => Sys2Proof.Machine.execTrainClose c s
  | .maskPrune c => Sys2Proof.Machine.execMaskPrune c s
  | .maskGrow c => Sys2Proof.Machine.execMaskGrow c s
  | .maskBarrier c => Sys2Proof.Machine.execMaskBarrier c s
  | .maskDiscard c => Sys2Proof.Machine.execMaskDiscard c s
  | .maskStatus c => Sys2Proof.Machine.execMaskStatus c s
  | .mbxDoorbell src part v => Sys2Proof.Machine.execMbxDoorbell src part v s
  | .mbxAck src part v => Sys2Proof.Machine.execMbxAck src part v s
  | .mbxIrqStatus src part v => Sys2Proof.Machine.execMbxIrqStatus src part v s
  | .mbxIrqEn src part v => Sys2Proof.Machine.execMbxIrqEn src part v s
  | .cqCfg src part v => Sys2Proof.Machine.execCqCfg src part v s
  | .cqTail src part v => Sys2Proof.Machine.execCqTail src part v s
  | .ccCons src part v => Sys2Proof.Machine.execCcCons src part v s
  | .cqFetch part => Sys2Proof.Machine.execCqFetch part s
  | .stepPeriod src v => Sys2Proof.Machine.execStepPeriod src v s
  | .thawMaster src v => Sys2Proof.Machine.execThawMaster src v s
  | .glbIrqStatus src v => Sys2Proof.Machine.execGlbIrqStatus src v s
  | .glbIrqEn src v => Sys2Proof.Machine.execGlbIrqEn src v s
  | .placeCtl src v => Sys2Proof.Machine.execPlaceCtl src v s
  | .stcCfg src v => Sys2Proof.Machine.execStcCfg src v s
  | .stkQuota src part v => Sys2Proof.Machine.execStkQuota src part v s
  | .aclkCeil src v => Sys2Proof.Machine.execAclkCeil src v s
  | .mgmtParts src v => Sys2Proof.Machine.execMgmtParts src v s
  | .partKill src v => Sys2Proof.Machine.execPartKill src v s
  | .logBaseHi src v => Sys2Proof.Machine.execLogBaseHi src v s
  | .logCfg src v => Sys2Proof.Machine.execLogCfg src v s
  | .regWrite src offset v => Sys2Proof.Machine.execRegWrite src offset v s
  | .dbgCtrl src v => Sys2Proof.Machine.execDbgCtrl src v s
  | .dbgStep src v => Sys2Proof.Machine.execDbgStep src v s
  | .dbgBp src n v => Sys2Proof.Machine.execDbgBp src n v s
  | .dbgMemAddr src v => Sys2Proof.Machine.execDbgMemAddr src v s
  | .dbgMemData src write v => Sys2Proof.Machine.execDbgMemData src write v s
  | .breakpointHit n => Sys2Proof.Machine.execBreakpointHit n s
  | .tapReset => Sys2Proof.Machine.execTapReset s
  | .tapIdcode => Sys2Proof.Machine.execTapIdcode s
  | .tapDbgReg write offset v => Sys2Proof.Machine.execTapDbgReg write offset v s
  | .tapUnlockCapture => Sys2Proof.Machine.execTapUnlockCapture s
  | .tapUnlockUpdate key sig => Sys2Proof.Machine.execTapUnlockUpdate key sig s
  | .unlockDone => Sys2Proof.Machine.execUnlockDone s
  | .unlockHoldoffExpiry => Sys2Proof.Machine.execUnlockHoldoffExpiry s
  | .tapFuse word value vddFuse => Sys2Proof.Machine.execTapFuse word value vddFuse s
  | .hipRow cls beats => Sys2Proof.Machine.execHipRow cls beats s
  | .hmpReadData ch tag resp beats => Sys2Proof.Machine.execHmpReadData ch tag resp beats s
  | .hmpWriteResponse tag resp => Sys2Proof.Machine.execHmpWriteResponse tag resp s
  | .hmpRetry tag => Sys2Proof.Machine.execHmpRetry tag s
  | .gbpCredit ch => Sys2Proof.Machine.execGbpCredit ch s
  | .gbpAck ch => Sys2Proof.Machine.execGbpAck ch s
  | .gbpSend ch => Sys2Proof.Machine.execGbpSend ch s
  | .evtCredit => Sys2Proof.Machine.execEvtCredit s
  | .eventSend => Sys2Proof.Machine.execEventSend s
  | .alarmSend => Sys2Proof.Machine.execAlarmSend s
  | .tickEmit => Sys2Proof.Machine.execTickEmit s
  | .slipSilenceExpiry => Sys2Proof.Machine.execSlipSilenceExpiry s
  | .tick m => Sys2Proof.Machine.execTick m s
  | .ingestDeadline => Sys2Proof.Machine.execIngestDeadline s
  | .sieveDeadline => Sys2Proof.Machine.execSieveDeadline s
  | .mergeADeadline => Sys2Proof.Machine.execMergeADeadline s
  | .mergeBDeadline => Sys2Proof.Machine.execMergeBDeadline s
  | .drawDeadline => Sys2Proof.Machine.execDrawDeadline s
  | .commitEmit => Sys2Proof.Machine.execCommitEmit s
  | .commit m => Sys2Proof.Machine.execCommit m s
  | .commitAck step slice => Sys2Proof.Machine.execCommitAck step slice s
  | .commitAckResend => Sys2Proof.Machine.execCommitAckResend s
  | .lateLimit req => Sys2Proof.Machine.execLateLimit req s
  | .ringStallLimit req => Sys2Proof.Machine.execRingStallLimit req s
  | .passDone p => Sys2Proof.Machine.execPassDone p s
  | .rowSieved key => Sys2Proof.Machine.execRowSieved key s
  | .maSum src r => Sys2Proof.Machine.execMaSum src r s
  | .maCut r parity => Sys2Proof.Machine.execMaCut r parity s
  | .mbShell src r => Sys2Proof.Machine.execMbShell src r s
  | .mbEdge r parity => Sys2Proof.Machine.execMbEdge r parity s
  | .mdDraw src r => Sys2Proof.Machine.execMdDraw src r s
  | .trSum src r => Sys2Proof.Machine.execTrSum src r s
  | .rsBegin port r => Sys2Proof.Machine.execRsBegin port r s
  | .rsFlit port form body => Sys2Proof.Machine.execRsFlit port form body s
  | .jarShare src req records => Sys2Proof.Machine.execJarShare src req records s
  | .huskDelta d => Sys2Proof.Machine.execHuskDelta d s
  | .huskDeltaAck src step => Sys2Proof.Machine.execHuskDeltaAck src step s
  | .hello port h => Sys2Proof.Machine.execHello port h s
  | .heartbeat slice step => Sys2Proof.Machine.execHeartbeat slice step s
  | .heartbeatSend => Sys2Proof.Machine.execHeartbeatSend s
  | .sliceLost slice => Sys2Proof.Machine.execSliceLost slice s
  | .fwdCmd f => Sys2Proof.Machine.execFwdCmd f s
  | .fwdResult r => Sys2Proof.Machine.execFwdResult r s
  | .stateSync m => Sys2Proof.Machine.execStateSync m s
  | .partScrubDone slice part => Sys2Proof.Machine.execPartScrubDone slice part s
  | .range v table => Sys2Proof.Machine.execRange v table s
  | .formPropose b => Sys2Proof.Machine.execFormPropose b s
  | .formCommit formId => Sys2Proof.Machine.execFormCommit formId s
  | .formRefuse slice reason => Sys2Proof.Machine.execFormRefuse slice reason s
  | .formKeys k => Sys2Proof.Machine.execFormKeys k s
  | .formDone slice => Sys2Proof.Machine.execFormDone slice s
  | .proposeRetry => Sys2Proof.Machine.execProposeRetry s
  | .formWait => Sys2Proof.Machine.execFormWait s
  | .regroup m => Sys2Proof.Machine.execRegroup m s
  | .takeoverDone => Sys2Proof.Machine.execTakeoverDone s
  | .expel slice => Sys2Proof.Machine.execExpel slice s
  | .linkFlit port lane flit fecOk => Sys2Proof.Machine.execLinkFlit port lane flit fecOk s
  | .replayTimeout port => Sys2Proof.Machine.execReplayTimeout port s
  | .laneFail port lane => Sys2Proof.Machine.execLaneFail port lane s
  | .laneSilence port lane => Sys2Proof.Machine.execLaneSilence port lane s
  | .laneLock port lane => Sys2Proof.Machine.execLaneLock port lane s
  | .trainTimeout port => Sys2Proof.Machine.execTrainTimeout port s
  | .retrainTimeout port => Sys2Proof.Machine.execRetrainTimeout port s
  | .portRetry port => Sys2Proof.Machine.execPortRetry port s
  | .trainingSignal port => Sys2Proof.Machine.execTrainingSignal port s
  | .blMargin port lane => Sys2Proof.Machine.execBlMargin port lane s
  | .placementCopyDone id pan => Sys2Proof.Machine.execPlacementCopyDone id pan s
  | .patrolScrub loc kind => Sys2Proof.Machine.execPatrolScrub loc kind s
  | .largeSelectPass part others => Sys2Proof.Machine.execLargeSelectPass part others s
  | .forwardSlotDone => Sys2Proof.Machine.execForwardSlotDone s
  | .backwardSlotDone seq => Sys2Proof.Machine.execBackwardSlotDone seq s
  | .updateSlotDone part session update bank => Sys2Proof.Machine.execUpdateSlotDone part session update bank s
  | .watchdogExpiry => Sys2Proof.Machine.execWatchdogExpiry s
  | .whiskTrap => Sys2Proof.Machine.execWhiskTrap s
  | .whiskRestartDone image repairs => Sys2Proof.Machine.execWhiskRestartDone image repairs s
  | .reset straps => Sys2Proof.Machine.execReset straps s
  | .bootCheck image => Sys2Proof.Machine.execBootCheck image s
  | .entropyFail => Sys2Proof.Machine.execEntropyFail s
  | .pmPwrAck domain => Sys2Proof.Machine.execPmPwrAck domain s
  | .pwrAckTimeout domain => Sys2Proof.Machine.execPwrAckTimeout domain s
  | .pmFault domain => Sys2Proof.Machine.execPmFault domain s
  | .pmVack pair => Sys2Proof.Machine.execPmVack pair s
  | .pmAlertRise => Sys2Proof.Machine.execPmAlertRise s
  | .pmAlertFall => Sys2Proof.Machine.execPmAlertFall s
  | .vfLoopEval pair stretched cycles quiet => Sys2Proof.Machine.execVfLoopEval pair stretched cycles quiet s
  | .droop pair => Sys2Proof.Machine.execDroop pair s
  | .pwrEstUpdate => Sys2Proof.Machine.execPwrEstUpdate s
  | .panIdleOff pan => Sys2Proof.Machine.execPanIdleOff pan s
  | .rstNAssert => Sys2Proof.Machine.execRstNAssert s
  | .pllLockLoss => Sys2Proof.Machine.execPllLockLoss s

end Sys2Proof.Machine
end

