-- ==== Sys2Proof/Safety.lean ====
section
/-! DEFINITION. What a safe run of the block keeps: the credits and queue limits of its ports and the canonical form of the bytes that the
debug port wrote (R348, R356, R357, R464). -/

namespace Sys2Proof.Machine

/-- The event port within its limits: at most 512 credits, a queue of at most 512 records (R357). -/
def EvtOk (e : EvtPort) : Prop := e.credits ≤ 512 ∧ e.queue.length ≤ 512

/-- A HIP class within its buffer: no beat is taken beyond the credits returned, and the credits in the partner's hands, with those owed
to it, never exceed the 1,024 beats of the buffer (R348). -/
def HipOk (h : HipPort) : Prop := h.received ≤ h.returned ∧ h.returned + h.owed ≤ h.received + 1024

/-- A GBP channel holds at most 1,024 credits (R356). -/
def GbpOk (g : GbpPort) : Prop := g.credits ≤ 1024

/-- The parts of the state that `Inv` speaks of. -/
def PortsOk (e : EvtPort) (b l : HipPort) (x y : GbpPort) (d : Debug) : Prop :=
  EvtOk e ∧ HipOk b ∧ HipOk l ∧ GbpOk x ∧ GbpOk y ∧ Memory.wf d.mem = true

/-- A later fuse bank has every bit that an earlier one has programmed (R403). -/
def FusesKept (a b : Fuses) : Prop :=
  a.lifecycle ||| b.lifecycle = b.lifecycle ∧ a.frk ||| b.frk = b.frk ∧ a.fwRoot ||| b.fwRoot = b.fwRoot
    ∧ a.dbgRoot ||| b.dbgRoot = b.dbgRoot ∧ a.minSvn ||| b.minSvn = b.minSvn

/-- The invariant that every step keeps. -/
def Inv (s : State) : Prop := PortsOk s.evt s.hipB s.hipL s.gbpA s.gbpB s.dbg

end Sys2Proof.Machine
end

