-- ==== Sys2Proof/Certificates/Slice0/Obligations.lean ====
section
/-! DEFINITION. The statements for the provers: what the commands do, what they leave alone, and what every step keeps. The words that the
statements share stand first, in `Sys2Proof.Claims`. -/

namespace Sys2Proof.Claims

open Sys2Proof.Machine

/-- No keeper has to acknowledge the command before it is judged: it only reads and none waits for an acknowledgement, or it changes state and
this slice has no keeper (R315, R414). -/
def NoAckDue (op : Op) (s : State) : Prop :=
  (readsOnly op = true → s.eocia.awaitAck = []) ∧ (readsOnly op = false → keeperOf s (me s) = none)

/-- Eocia takes the command up and judges it at once (R314 to R316, R414): Eocia runs, no earlier command of the same door and target waits,
this slice is the target, every change of an earlier step has been applied, no keeper has to acknowledge first, and no refusal that every
command can meet applies. -/
def Ready (op : Op) (c : Cmd) (s : State) : Prop :=
  eociaRuns s = true ∧ behind op c s = false ∧ target op c s = me s ∧ publishing s = false ∧ NoAckDue op s ∧ commonRefusals op c s = []

/-- Eocia takes the command up, and its keeper k acknowledges it before it is judged (R314, R316, R414): as `Ready`, for a slice whose keeper
owes it no other acknowledgement. -/
def Kept (op : Op) (c : Cmd) (k : Nat) (s : State) : Prop :=
  eociaRuns s = true ∧ behind op c s = false ∧ target op c s = me s ∧ publishing s = false ∧ readsOnly op = false ∧ keeperOf s (me s) = some k
    ∧ commonRefusals op c s = [] ∧ s.eocia.awaitAck = [] ∧ s.keeper.unacked = []

/-- The state in which a command that is not refused has its effect: it is off Eocia's list, and its acceptance is traced. -/
def accepted (op : Op) (c : Cmd) (s : State) : State :=
  trace 1 2 0 (BitVec.ofNat 32 (Op.code op + c.tag.toNat * 2 ^ 16)) (BitVec.ofNat 64 c.part) (unqueue op c s)

/-- The row of the table that an operation is. -/
def row : Op → Cmd → Instr
  | .info => .info | .pipProbe => fun c => .pipProbe ⟨c, .none⟩ | .partBacking => .partBacking | .headLoad => .headLoad | .headUnload => .headUnload
  | .overlayLoad => .overlayLoad | .mobjLoad => .mobjLoad | .mobjDelete => .mobjDelete | .biasLoad => .biasLoad
  | .biasDelete => .biasDelete | .rangeLoad => .rangeLoad | .sliceDrain => .sliceDrain | .sliceRejoin => .sliceRejoin
  | .fwStage => .fwStage | .reqAdmit => .reqAdmit | .reqAdmitAcorn => .reqAdmitAcorn | .reqSettings => .reqSettings
  | .reqCancel => .reqCancel | .reqPause => .reqPause | .reqResume => .reqResume | .reqEvict => .reqEvict
  | .huskResume => .huskResume | .reqMove => .reqMove | .reqQuery => .reqQuery | .tenantBind => .tenantBind
  | .tenantCredit => .tenantCredit | .tenantDrain => .tenantDrain | .tenantReserve => .tenantReserve
  | .tenantUnbind => .tenantUnbind | .tenantQuery => .tenantQuery | .acornMake => .acornMake | .acornTake => .acornTake
  | .acornDrop => .acornDrop | .variantReg => .variantReg | .variantDrop => .variantDrop | .trainOpen => .trainOpen
  | .trainForward => .trainForward | .trainBackward => .trainBackward | .trainNorm => .trainNorm | .trainUpdate => .trainUpdate
  | .trainClose => .trainClose | .maskPrune => .maskPrune | .maskGrow => .maskGrow | .maskBarrier => .maskBarrier
  | .maskDiscard => .maskDiscard | .maskStatus => .maskStatus

/-- A change accepted now: announced for its step, and the command waits for its completion moment (R58, R316). -/
def taken (op : Op) (c : Cmd) (x : Sync) (w : Wait) (s : State) : State :=
  await op c (stepNow s) w (announce (stepNow s) x (accepted op c s))

/-- A change of a request accepted now; it waits for the commit stamp of its step (R58). -/
def takenChange (op : Op) (c : Cmd) (q : Nat) (x : ReqChange) (w : Wait) (f : ReqEntry → ReqEntry) (s : State) : State :=
  await op c (stepNow s) w (change q x (updReq q f (accepted op c s)))

/-- The live request of a command's partition: not terminal, no cancel mark, not DRAINING, not being evicted (R229, R239, R323). -/
def Live (c : Cmd) (e : ReqEntry) (s : State) : Prop :=
  arg c 0 < 16384 ∧ reqOf s (arg c 0) = some e ∧ e.info.part = c.part ∧ e.state.terminal = false ∧ e.cancelMark = false
    ∧ e.state ≠ .draining ∧ e.evictStage = 0

/-- The mailbox of a partition. -/
def mailbox (s : State) (p : Nat) : Mailbox := s.mbx.getD p Mailbox.reset

/-- A row that this slice's merge of a key has open, in the current phase (R180 to R193). -/
def Open (s : State) (k : RowKey) (m : Merge) (n : Nat) : Prop := mergeAt s k n = some m ∧ m.closed = false

end Sys2Proof.Claims

open Sys2Proof Sys2Proof.Machine Sys2Proof.Claims

/-! ## The block as a whole -/

/-- A step takes the command at the front of the queue and runs it on the state with the queue's rest. -/
def Obligations.StepRunsTheFrontCommand : Prop :=
  ∀ (c : Instr) (rest : List Instr) (s : State), step { s with pending := c :: rest } = exec c { s with pending := rest }

/-- On an empty queue a step lets one nanosecond pass on the free-running timer and changes nothing else. The model's choice: log entry 4
(the spec gives the timer its unit, R54, and no row for its passing). -/
def Obligations.IdleStepCountsOneNanosecond : Prop :=
  ∀ s : State, s.pending = [] → step s = .next { s with timer := s.timer + 1 }

/-- No command ends the run: every command has an effect in every state, and leaves the waiting commands and the hardening kit alone. -/
def Obligations.EveryCommandRunsAndLeavesTheQueue : Prop :=
  ∀ (c : Instr) (s : State), ∃ t, exec c s = .next t ∧ t.pending = s.pending ∧ t.kit = s.kit

/-- The limits of the ports (R348, R356, R357) and the canonical form of the debug port's bytes hold after reset. -/
def Obligations.ResetKeepsTheLimits : Prop := Inv State.reset

/-- Every step keeps the limits of the ports: HIP beats within the credits returned and within the 1,024 beats of a buffer (R348), at most
1,024 GBP credits (R356), at most 512 event credits and 512 queued event records (R357), and the canonical form of the debug port's bytes. -/
def Obligations.EveryStepKeepsTheLimits : Prop := ∀ s t : State, Inv s → step s = .next t → Inv t

/-- A fuse bit that is programmed stays programmed: no step clears one (R403). -/
def Obligations.EveryStepKeepsProgrammedFuses : Prop := ∀ s t : State, step s = .next t → FusesKept s.sec.fuses t.sec.fuses

/-- What reset leaves, where the spec gives the value: step period 4,000 µs (R55), every quota 0 (R101), a state cache of 2 steps asked for
and in force (R103), no interrupt status set and every enable of bank 0 set (Table 16.3), log ring off (R343), no frozen master, mailboxes IDLE (R305), no request, no row,
no head, 1,024 credits owed on each HIP class (R348), none held on GBP and the event port, step 0 with none open (R56). -/
def Obligations.ResetValues : Prop :=
  let s := State.reset
  s.regs.stepPeriod = 4000 ∧ s.regs.quota = List.replicate 12 0 ∧ s.regs.stcSteps = 2 ∧ s.regs.stcInForce = 2 ∧ s.regs.irqStatus = 0
    ∧ s.regs.irqEn = 0b11111#5 ∧ s.regs.logEn = false ∧ s.regs.frozenPart = 0 ∧ s.regs.frozenHip = false ∧ s.regs.frozenHmp = false
    ∧ s.regs.frozenGbp = false ∧ (∀ m ∈ s.mbx, m.st = .idle ∧ m.resStatus = 0 ∧ m.irqStatus = 0 ∧ m.irqEn = 0b00100#5 ∧ m.cqEn = false)
    ∧ s.reqs = [] ∧ s.rows = [] ∧ s.heads = [] ∧ s.hipB.owed = 1024 ∧ s.hipL.owed = 1024 ∧ s.hipB.returned = 0 ∧ s.hipL.returned = 0
    ∧ s.gbpA.credits = 0 ∧ s.gbpB.credits = 0 ∧ s.evt.credits = 0 ∧ s.evt.queue = [] ∧ s.step.step = 0 ∧ s.step.opened = false
    ∧ s.dbg.halted = 0 ∧ s.dbg.tapIr = 0x01 ∧ s.tele.alarms = [] ∧ s.tele.traces = [] ∧ s.pending = []

/-! ## Commands of Eocia: how they are taken up -/

/-- Where a command goes when Eocia takes it up (R314 to R316, R344, R410, R414): it waits while Eocia does not run or an earlier command of
its door and target waits, it is sent on to its target, it waits for this step's changes, its keeper gets a COMMAND entry first and it waits
for the acknowledgement, after which it is judged, one that only reads waits behind those, or it is judged at once. -/
def Obligations.CommandsGoWhereTheyBelong : Prop :=
  ∀ (op : Op) (c : Cmd) (s : State),
    ((eociaRuns s = false ∨ behind op c s = true) → s.eocia.inbox.contains (op, c) = false →
      exec (row op c) s = .next { s with eocia := { s.eocia with inbox := s.eocia.inbox ++ [(op, c)] } })
    ∧ (eociaRuns s = true → behind op c s = false → target op c s ≠ me s →
      exec (row op c) s = .next (sendOn op c (target op c s) (unqueue op c s)))
    ∧ (eociaRuns s = true → behind op c s = false → target op c s = me s → readsOnly op = false → ∀ k, keeperOf s (me s) = some k →
      ∃ t, exec (row op c) s = .next t ∧ t.eocia.awaitAck = s.eocia.awaitAck ++ [(op, c)]
        ∧ t.keeper.unacked = s.keeper.unacked ++ [(stepNow s, true)]
        ∧ t.link.out = s.link.out ++ [⟨some k, .huskDelta ⟨me s, stepNow s, false, [commandEntry op c s]⟩⟩]
        ∧ t = { s with eocia := t.eocia, keeper := t.keeper, link := t.link })
    ∧ (eociaRuns s = true → behind op c s = false → target op c s = me s → readsOnly op = true → s.eocia.awaitAck ≠ [] →
      exec (row op c) s = .next { unqueue op c s with eocia :=
        { (unqueue op c s).eocia with awaitAck := s.eocia.awaitAck ++ [(op, c)] } })
    ∧ (eociaRuns s = true → behind op c s = false → target op c s = me s → NoAckDue op s → publishing s = true →
      ∃ t, exec (row op c) s = .next t ∧ t.eocia.deferred = s.eocia.deferred ++ [(op, c)]
        ∧ t = { s with eocia := t.eocia })
    ∧ (Ready op c s → exec (row op c) s = .next (runCmd op c (unqueue op c s)))
    ∧ (∀ k, Kept op c k s → ∃ t, exec (row op c) s = .next t
      ∧ exec (.huskDeltaAck k (stepNow s)) t = .next (runCmd op c { unqueue op c s with link := t.link }))

/-- The refusals that every command can meet, in their order: a partition under scrub, a management command without its MGMT_PARTS bit, a
frozen partition (R313, R325, R326). A refused command answers the status and has no other effect than the result's delivery. -/
def Obligations.CommonRefusalsAnswer : Prop :=
  ∀ (op : Op) (c : Cmd) (l : List (Bool × Status)) (eff : State → State) (s : State),
    (scrubbing s c.part = true → judge op c l eff s = complete op c .scrub [] s)
    ∧ (scrubbing s c.part = false → (opClass op = .m ∨ op = .fwStage) → s.regs.mgmtParts.getLsbD c.part = false →
        judge op c l eff s = complete op c .denied [] s)
    ∧ (scrubbing s c.part = false → (opClass op ≠ .m ∧ op ≠ .fwStage ∨ s.regs.mgmtParts.getLsbD c.part = true) →
        partFrozen s c.part = true → (∀ x ∈ l, x.1 = true → x.2 ≠ .denied) → (∀ x ∈ l, x.1 = true → x.2 ≠ .scrub) →
        judge op c l eff s = complete op c .frozen [] s)

/-- When more than one refusal applies, the first in the order SCRUBBING, DENIED, FROZEN, NO_SUCH_REQUEST, ALREADY_DONE, VERSION_MISMATCH,
BAD_ARG, NOT_PAUSED, MASK_VERSION, BUSY answers (R325). -/
def Obligations.FirstRefusalAnswers : Prop :=
  (∀ l : List Status, l ≠ [] → ∃ a ∈ l, firstRefusal l = some a ∧ ∀ b ∈ l, a.rank ≤ b.rank)
    ∧ (∀ l : List Status, firstRefusal l = none → l = [])
    ∧ Status.scrub.rank < Status.denied.rank ∧ Status.denied.rank < Status.frozen.rank ∧ Status.frozen.rank < Status.noSuch.rank
    ∧ Status.noSuch.rank < Status.already.rank ∧ Status.already.rank < Status.version.rank ∧ Status.version.rank < Status.badArg.rank
    ∧ Status.badArg.rank < Status.notPaused.rank ∧ Status.notPaused.rank < Status.maskVersion.rank
    ∧ Status.maskVersion.rank < Status.busy.rank

/-- A result goes where its command entered (R306, R308, R311, R314): a PENDING mailbox becomes DONE with the words the opcode names over its
arguments and DONE set, a queue command's record is written over HMP in the next slot of the completion ring, a forwarded command's
result goes back to the slice that issued it. -/
def Obligations.ResultsAreDelivered : Prop :=
  ∀ (op : Op) (c : Cmd) (st : Status) (ws : List (Nat × Word)) (s : State), eociaRuns s = true →
    (c.origin = .mailbox → c.part < s.mbx.length → (mailbox s c.part).st = .pending →
      ∃ t, complete op c st ws s = t ∧ (mailbox t c.part).st = .done ∧ (mailbox t c.part).resStatus = st.code
        ∧ (mailbox t c.part).resTag = c.tag ∧ (mailbox t c.part).args = overArgs ws (mailbox s c.part).args
        ∧ (mailbox t c.part).irqStatus = (mailbox s c.part).irqStatus ||| 1 ∧ (∀ p, p ≠ c.part → mailbox t p = mailbox s p)
        ∧ t = { s with mbx := t.mbx, tele := t.tele, cnt := t.cnt })
    ∧ (∀ n ref q, c.origin = .fwd n ref q → n ≠ me s →
      ∃ t, complete op c st ws s = t ∧ t.link.out = s.link.out ++ [⟨some n, .fwdResult ⟨ref, st.code, c.tag, resWords ws⟩⟩]
        ∧ t = { s with link := t.link, tele := t.tele, cnt := t.cnt })
    ∧ (∀ b, c.origin = .queue b → scrubbing s c.part = false →
      ∃ u, complete op c st ws s = hmpWrite c.part ((mailbox s c.part).lcBase + 64 * ((mailbox s c.part).cseq % 2 ^ (mailbox s c.part).lcOrder))
          (completionBytes st.code c.tag ((mailbox s c.part).cseq + 1) (resWords ws)) (.completion c.part b) u
        ∧ u.mbx = updAt s.mbx c.part (fun m => { m with cseq := (mailbox s c.part).cseq + 1 })
        ∧ u = { s with mbx := u.mbx, tele := u.tele, cnt := u.cnt })

/-! ## Commands of Eocia: what each does -/

/-- Commands that only report values answer at acceptance with the words of their tables: INFO (R319), PIP_PROBE (R167 to R172),
REQ_QUERY (R241), TENANT_QUERY (R246), MASK_STATUS (Table 14.3). -/
def Obligations.QueriesAnswerAtOnce : Prop :=
  ∀ (c : Cmd) (s : State),
    (Ready .info c s → exec (.info c) s = .next (complete .info c .ok
      [(0, 0x00020003#32), (1, 0x00030002#32),
       (2, BitVec.ofNat 32 (me s + 2 ^ 6 * s.group.size + 2 ^ 13 * tickMaster s + 2 ^ 19 * b01 s.group.solo)),
       (3, BitVec.ofNat 32 (2 * (epochs s).toNat)), (4, BitVec.ofNat 32 (features s).toNat),
       (5, BitVec.ofNat 32 (s.kit.pans - s.power.fenced.length))] (accepted .info c s)))
    ∧ (Ready .pipProbe c s → arg c 3 < 512 → 1 ≤ arg c 3 % 256 → arg c 3 % 256 ≤ 4 →
      ∀ f, exec (.pipProbe ⟨c, f⟩) s = .next (complete .pipProbe c .ok
        [(0, pip s (BitVec.ofNat 64 (argPair c 0)) (c.args.getD 2 0) (BitVec.ofNat 8 (arg c 3 % 256)) (bitOf (arg c 3) 8)
            (c.args.getD 4 0) (c.args.getD 5 0))] (pipWork 0 (bitOf (arg c 3) 8) [arg c 5] (parityError f (accepted .pipProbe c s)))))
    ∧ (∀ e, Ready .reqQuery c s → arg c 0 < 16384 → reqOf s (arg c 0) = some e → e.info.part = c.part →
      exec (.reqQuery c) s = .next (complete .reqQuery c .ok (numbered (queryWords e (homeOf s (arg c 0)))) (accepted .reqQuery c s)))
    ∧ (Ready .tenantQuery c s → arg c 0 < 1024 → (∀ t, tenantOf s (arg c 0) = some t → t.bound = true → t.part = c.part) →
      exec (.tenantQuery c) s = .next (complete .tenantQuery c .ok (numbered (tenantReport s (arg c 0))) (accepted .tenantQuery c s)))
    ∧ (∀ t, Ready .maskStatus c s → s.training = some t → t.part = c.part →
      exec (.maskStatus c) s = .next (complete .maskStatus c .ok (numbered (statusWords s c.part)) (accepted .maskStatus c s)))

/-- Tenant commands on a tenant of the partition are accepted for the step under way and announced (R58, R244, R246). -/
def Obligations.TenantCommandsAreAccepted : Prop :=
  ∀ (c : Cmd) (s : State), arg c 0 < 1024 → ((tenantRec s (arg c 0)).bound = true → (tenantRec s (arg c 0)).part = c.part) →
    (Ready .tenantBind c s → 1 ≤ arg c 1 → arg c 1 ≤ 17 → (tenantRec s (arg c 0)).bound = false → (∀ m ∈ s.held, ∀ p r, m.item ≠ .tenant (arg c 0) (.bind p r)) →
      exec (.tenantBind c) s = .next (taken .tenantBind c (.tenant (arg c 0) (.bind c.part (arg c 1))) (.stamp (stepNow s)) s))
    ∧ ((tenantRec s (arg c 0)).bound = true →
      (Ready .tenantCredit c s → 1 ≤ arg c 1 → (tenantRec s (arg c 0)).balance + pendingCredits s (arg c 0) + arg c 1 ≤ 2 ^ 48 - 1 →
        exec (.tenantCredit c) s = .next (taken .tenantCredit c (.tenant (arg c 0) (.credit (arg c 1))) (.stamp (stepNow s)) s))
      ∧ (Ready .tenantDrain c s →
        exec (.tenantDrain c) s = .next (taken .tenantDrain c (.tenant (arg c 0) (.drain (arg c 1))) (.publish (stepNow s)) s))
      ∧ (Ready .tenantReserve c s → 1 ≤ arg c 1 → arg c 1 ≤ 17 →
        exec (.tenantReserve c) s = .next (taken .tenantReserve c (.tenant (arg c 0) (.reserve (arg c 1))) (.stamp (stepNow s)) s))
      ∧ (Ready .tenantUnbind c s → tenantNamed s (arg c 0) (stepNow s) = false →
        exec (.tenantUnbind c) s = .next (taken .tenantUnbind c (.tenant (arg c 0) .unbind) (.publish (stepNow s)) s)))

/-- What a tenant change does when PUBLISH of its step applies it, and what it leaves alone (Table 12.2 of R246). -/
def Obligations.TenantChangesApply : Prop :=
  ∀ (u n : Nat) (s : State),
    (∀ a, tenantRec (applyTenant u n (.credit a) s).1 u
        = { tenantRec s u with balance := (tenantRec s u).balance + a, credited := (tenantRec s u).credited + a })
    ∧ (∀ a, (applyTenant u n (.drain a) s).2 = some (min a (tenantRec s u).balance)
      ∧ tenantRec (applyTenant u n (.drain a) s).1 u
        = { tenantRec s u with balance := (tenantRec s u).balance - min a (tenantRec s u).balance,
                               drained := (tenantRec s u).drained + min a (tenantRec s u).balance })
    ∧ (∀ r, tenantRec (applyTenant u n (.reserve r) s).1 u = { tenantRec s u with reserve := r })
    ∧ (∀ p r, (tenantRec s u).bound = false → (tenantRec (applyTenant u n (.bind p r) s).1 u).bound = true
      ∧ (tenantRec (applyTenant u n (.bind p r) s).1 u).part = p ∧ (tenantRec (applyTenant u n (.bind p r) s).1 u).reserve = r
      ∧ (tenantRec (applyTenant u n (.bind p r) s).1 u).balance = 0)
    ∧ (tenantNamed s u n = false → (applyTenant u n .unbind s).2 = some (tenantRec s u).balance
      ∧ (tenantRec (applyTenant u n .unbind s).1 u).bound = false ∧ (tenantRec (applyTenant u n .unbind s).1 u).balance = 0)
    ∧ (tenantNamed s u n = true → applyTenant u n .unbind s = (s, none))
    ∧ (∀ x v, v ≠ u → tenantOf (applyTenant u n x s).1 v = tenantOf s v)
    ∧ (∀ x, (applyTenant u n x s).1 = { s with tenants := (applyTenant u n x s).1.tenants })

/-- Acorn and variant commands are accepted for the step under way and announced (R252, R253, R256 to R258). -/
def Obligations.AcornAndVariantCommandsAreAccepted : Prop :=
  ∀ (c : Cmd) (s : State),
    (Ready .acornMake c s → c.args.getD 0 0 ≠ 0 → arg c 3 ≤ 30720 → acornsFull s c.part = false →
      handleUsed s c.part (c.args.getD 0 0) = false →
      exec (.acornMake c) s = .next (acornBegin c.part (c.args.getD 0 0) (argPair c 1) (arg c 3)
        (announceOut (stepNow s) (.acornMake c.part (c.args.getD 0 0) (argPair c 1) (arg c 3))
          (await .acornMake c (stepNow s) (.acornLoad (c.args.getD 0 0)) (accepted .acornMake c s)))))
    ∧ (∀ e, Ready .acornTake c s → arg c 1 < 16384 → reqOf s (arg c 1) = some e → e.info.part = c.part → e.state.terminal = false →
      e.cancelMark = false → e.state ≠ .draining → c.args.getD 0 0 ≠ 0 → acornsFull s c.part = false → handleUsed s c.part (c.args.getD 0 0) = false →
      exec (.acornTake c) s = .next (taken .acornTake c (.acornTake c.part (c.args.getD 0 0) (arg c 1)) (.acornLoad (c.args.getD 0 0)) s))
    ∧ (Ready .acornDrop c s → (acornOf s c.part (c.args.getD 0 0)).isSome = true →
      exec (.acornDrop c) s = .next (taken .acornDrop c (.acornDrop c.part (c.args.getD 0 0)) (.stamp (stepNow s)) s))
    ∧ (Ready .variantReg c s → 1 ≤ arg c 0 → arg c 0 < 4096 → registered s c.part (arg c 0) = false →
      (pendingRegs s c.part).contains (arg c 0) = false →
      (s.variants.filter fun v => v.part == c.part && v.untilStep.isNone).length + (pendingRegs s c.part).length < 64 →
      exec (.variantReg c) s = .next (taken .variantReg c (.variantReg c.part (arg c 0)) (.stamp (stepNow s)) s))
    ∧ (Ready .variantDrop c s → 1 ≤ arg c 0 → arg c 0 < 4096 → registered s c.part (arg c 0) = true →
      exec (.variantDrop c) s = .next (taken .variantDrop c (.variantDrop c.part (arg c 0)) (.stamp (stepNow s)) s))

/-- Commands on a live request are accepted, and the change is noted for the commit stamp of their step (R58, R229, R239, R259, R260, R323): a cancel marks the request at once and tells every slice, and waits while records of an earlier step are late, a resume starts its
clock, an eviction asks for jars, a move makes it DRAINING. -/
def Obligations.RequestCommandsAreAccepted : Prop :=
  ∀ (c : Cmd) (e : ReqEntry) (s : State), Live c e s →
    (Ready .reqSettings c s → field (arg c 2) 12 4 = 0 → settingsOk s c.part (argSettings c) = true →
      exec (.reqSettings c) s = .next (takenChange .reqSettings c (arg c 0) (.settings (argSettings c)) (.stamp (stepNow s)) id s))
    ∧ (Ready .reqCancel c s → recordsLate s (arg c 0) = false →
      exec (.reqCancel c) s = .next (await .reqCancel c (stepNow s) (.finalRecord (arg c 0)) (change (arg c 0) .cancel
        (announceOut (stepNow s) (.cancelMark (arg c 0)) (updReq (arg c 0) (fun e => { e with cancelMark := true }) (accepted .reqCancel c s))))))
    ∧ (Ready .reqCancel c s → recordsLate s (arg c 0) = true →
      exec (.reqCancel c) s = .next (enqueue .reqCancel c (unqueue .reqCancel c s)))
    ∧ (Ready .reqPause c s → e.state ≠ .paused → e.state ≠ .admitted →
      exec (.reqPause c) s = .next (takenChange .reqPause c (arg c 0) .pause (.stamp (stepNow s)) id s))
    ∧ (Ready .reqResume c s → e.state = .paused →
      exec (.reqResume c) s = .next (takenChange .reqResume c (arg c 0) .resume (.stamp (stepNow s))
        (fun e => { e with lastCommitAt := s.timer, lastCommitStep := stepNow s, clockOn := e.hasToken }) s))
    ∧ (Ready .reqEvict c s → e.state = .paused → argPair c 1 % 64 = 0 → (∃ k, keySetOf s c.part = some k ∧ k.husks < 2 ^ 32 - 1) →
      exec (.reqEvict c) s = .next (announceOut (stepNow s) (.evict (arg c 0))
        (takenChange .reqEvict c (arg c 0) (.evict (argPair c 1) (arg c 3)) (.evicted (arg c 0)) (fun e => { e with evictStage := 1, shares := [] }) s)))
    ∧ (Ready .reqMove c s → arg c 1 < 64 → arg c 1 < groupSize s → isHole s (arg c 1) = false →
      exec (.reqMove c) s = .next (announce (stepNow s)
        (.outcome ⟨arg c 0, stepNow s, ReqState.draining.code, [], 0, 0, false, none, none, false, none, 0, []⟩)
        (takenChange .reqMove c (arg c 0) (.move (arg c 1)) (.moved (arg c 0))
          (fun e => { e with prior := e.state, state := .draining, moveStage := 1, moveTo := arg c 1 }) s)))

/-- Commands that read an object of host memory first: the descriptor of an admission (R223), from a handle after the Acorn is claimed on every
slice (R256), a husk's header (R262), the descriptor of a session (R266) or of a micro-batch (R270), a firmware image (R404), a range table
(R322), a head's image with its blocks already taken, or without them where a BUSY condition holds that the image may outrank, an overlay's
(R320, R325). -/
def Obligations.DescriptorsAreRead : Prop :=
  ∀ (c : Cmd) (s : State),
    (Ready .reqAdmit c s → entryDenied s c = false → argPair c 1 % 64 = 0 →
      exec (.reqAdmit c) s = .next (hmpRead c.part (argPair c 1) 128 .rdb (.admission .reqAdmit c s.timer (stepNow s)) (accepted .reqAdmit c s)))
    ∧ (Ready .reqAdmitAcorn c s → entryDenied s c = false → argPair c 1 % 64 = 0 →
      exec (.reqAdmitAcorn c) s = .next (hmpRead c.part (argPair c 1) 128 .rdb (.admission .reqAdmitAcorn c s.timer (stepNow s))
        (acornClaim .reqAdmitAcorn c (accepted .reqAdmitAcorn c s))))
    ∧ (Ready .huskResume c s → entryDenied s c = false →
      exec (.huskResume c) s = .next (hmpRead c.part (argPair c 1) 64 .rdb (.husk c s.timer (stepNow s)) (accepted .huskResume c s)))
    ∧ (Ready .trainOpen c s → argPair c 0 % 64 = 0 →
      exec (.trainOpen c) s = .next (hmpRead c.part (argPair c 0) 64 .rdb (.sessionDesc c) (accepted .trainOpen c s)))
    ∧ (∀ t, Ready .trainForward c s → s.training = some t → t.part = c.part →
      exec (.trainForward c) s
        = .next (hmpRead c.part (argPair c 0) 32 .rdb (.microDesc c (updateRuns s || t.waiting.isSome)) (accepted .trainForward c s)))
    ∧ (Ready .fwStage c s → 256 ≤ arg c 2 →
      exec (.fwStage c) s = .next (hmpRead c.part (argPair c 0) (arg c 2) .rdb (.fwImage c) (accepted .fwStage c s)))
    ∧ (Ready .rangeLoad c s → (s.group.formed = false ∨ argPair c 0 ≠ 0) → 256 ≤ arg c 2 → arg c 2 ≤ 4194304 →
      exec (.rangeLoad c) s
        = .next (hmpRead c.part (argPair c 0) (8 * groupSize s) .rdb (.rangeTable c (arg c 2) (rangeBusy s)) (accepted .rangeLoad c s)))
    ∧ (Ready .headLoad c s → vocab s ≠ 0 → arg c 2 ≠ 0 → stripFirsts (loadRuns s) (vocab s) ≠ [] →
      (arg c 2 ≤ arg c 3 * 65536 ∨ 64 ≤ arg c 3) → (stripFirsts (loadRuns s) (vocab s)).length ≤ 16384 →
      (∀ t, headBusy s c.part = false → allocBlocks c.part .head (arg c 3) (accepted .headLoad c s) = .ok t →
        exec (.headLoad c) s = .next (hmpRead c.part (argPair c 0) (arg c 2) .rdb (.headImage c false) t))
      ∧ (headBusy s c.part = true → (roomFor c.part .head (arg c 3) s).1 = [] →
        exec (.headLoad c) s = .next (hmpRead c.part (argPair c 0) (arg c 2) .rdb (.headImage c true) (accepted .headLoad c s))))
    ∧ (∀ t, Ready .overlayLoad c s → arg c 3 < 4096 → registered s c.part (arg c 3) = true → (headOf s c.part).isSome = true →
      s.group.nextTable = none → arg c 2 ≠ 0 →
      allocBlocks c.part (.overlay (arg c 3)) (ceilDiv (arg c 2) 65536) (accepted .overlayLoad c s) = .ok t →
      exec (.overlayLoad c) s = .next (hmpRead c.part (argPair c 0) (arg c 2) .rdb (.overlayImage c false) t))

/-- PART_BACKING records this slice's region and announces its window to the members, and completes at acceptance (R107); a RANGE_LOAD without
a table gives every slice the default assignment, sent to every member and stored here (R19, R322). -/
def Obligations.BackingAndRangesAreTaken : Prop :=
  ∀ (c : Cmd) (s : State),
    (Ready .partBacking c s → argPair c 0 % 128 = 0 → arg c 2 < 16384 → arg c 3 < 32768 → arg c 4 ≤ 11 →
      1 ≤ arg c 3 → arg c 2 + arg c 3 ≤ 16384 → (∀ e ∈ s.reqs, e.info.part ≠ c.part) → (keySetOf s c.part).isSome = true →
      exec (.partBacking c) s = .next (complete .partBacking c .ok []
        (announceOut (stepNow s) (.backing c.part (arg c 2) (arg c 3) (2 ^ arg c 4))
          (registerBacking ⟨me s, c.part, argPair c 0, arg c 2, arg c 3, 2 ^ arg c 4⟩ (accepted .partBacking c s)))))
    ∧ (Ready .rangeLoad c s → s.group.formed = true → argPair c 0 = 0 → rangeBusy s = false →
      tableOk true (arg c 2) (defaultRanges (arg c 2) s.group.size) = true →
      exec (.rangeLoad c) s = .next (await .rangeLoad c (stepNow s) .range
        (storeTable (arg c 2) (defaultRanges (arg c 2) s.group.size)
          (flood (.range (arg c 2) (defaultRanges (arg c 2) s.group.size)) (accepted .rangeLoad c s)))))

/-- Loads and deletes of mask objects and bias lists are accepted (R151, R321). -/
def Obligations.ObjectCommandsAreAccepted : Prop :=
  ∀ (c : Cmd) (s : State), 1 ≤ arg c 0 → arg c 0 < 256 →
    (Ready .mobjLoad c s → objLoading false c.part (arg c 0) s = false →
      exec (.mobjLoad c) s = .next (maskBegin c.part (arg c 0) (argPair c 1) (announceOut (stepNow s) (.maskLoad c.part (arg c 0) (argPair c 1))
        (await .mobjLoad c (stepNow s) (.objLoad false (arg c 0)) (accepted .mobjLoad c s)))))
    ∧ (Ready .biasLoad c s → 1 ≤ arg c 3 → arg c 3 ≤ 4096 → objLoading true c.part (arg c 0) s = false →
      exec (.biasLoad c) s = .next (biasBegin c.part (arg c 0) (argPair c 1) (arg c 3)
        (announceOut (stepNow s) (.biasLoad c.part (arg c 0) (argPair c 1) (arg c 3))
          (await .biasLoad c (stepNow s) (.objLoad true (arg c 0)) (accepted .biasLoad c s)))))
    ∧ (Ready .mobjDelete c s → maskExists s c.part (arg c 0) = true → objNamed false c.part (arg c 0) (stepNow s) s = false →
      exec (.mobjDelete c) s = .next (taken .mobjDelete c (.maskDelete c.part (arg c 0)) (.publish (stepNow s)) s))
    ∧ (Ready .biasDelete c s → biasExists s c.part (arg c 0) = true → objNamed true c.part (arg c 0) (stepNow s) s = false →
      exec (.biasDelete c) s = .next (taken .biasDelete c (.biasDelete c.part (arg c 0)) (.publish (stepNow s)) s))

/-- HEAD_UNLOAD of a head that no request uses is accepted (R320); SLICE_DRAIN of a member and SLICE_REJOIN of an idle one go to the keeper and are
accepted when it acknowledges (R414, R429, R431). -/
def Obligations.UnloadDrainAndRejoinAreAccepted : Prop :=
  ∀ (c : Cmd) (s : State),
    (Ready .headUnload c s → (headOf s c.part).isSome = true → (∀ e ∈ s.reqs, e.info.part = c.part → e.info.scoreMode = true) →
      sessionIn s c.part = false →
      exec (.headUnload c) s = .next (taken .headUnload c (.headUnload c.part) (.publish (stepNow s)) s))
    ∧ (∀ k, Kept .sliceDrain c k s → arg c 0 < 64 → (members s).contains (arg c 0) = true → 2 ≤ (members s).length → reshaping s = false →
      (∀ t, s.training = some t → t.micros = []) → plansHeld s = false → (divisionOf s (arg c 0)).2 = [] →
      ∃ t, exec (.sliceDrain c) s = .next t
        ∧ exec (.huskDeltaAck k (stepNow s)) t = .next (drainBegins (arg c 0) (stepNow s) (await .sliceDrain c (stepNow s) .drained
            (announceOut (stepNow s) (.drain (arg c 0)) (accepted .sliceDrain c { s with link := t.link })))))
    ∧ (∀ k, Kept .sliceRejoin c k s → arg c 0 < 64 → s.group.idle.contains (arg c 0) = true → reshaping s = false →
      (∀ p, p < 12 → (headIdOf s p = none ∧ headOf s p = none)) → (∀ p, p < 12 → backingOf s (me s) p = none) →
      ∃ t u, exec (.sliceRejoin c) s = .next t ∧ exec (.huskDeltaAck k (stepNow s)) t = .next u
        ∧ u.group = { s.group with drain := some ⟨arg c 0, stepNow s, 0, true, false⟩ }
        ∧ u.eocia.pending = s.eocia.pending ++ [⟨.sliceRejoin, c, stepNow s, .rejoined, [], 0⟩]
        ∧ u = { s with group := u.group, eocia := u.eocia, link := u.link, tele := u.tele, cnt := u.cnt })

/-- Training and mask commands of the partition that holds the session are accepted for the step under way (R276, R279, R280, R285,
R288, R290, R292, R296, R302). -/
def Obligations.TrainingCommandsAreAccepted : Prop :=
  ∀ (c : Cmd) (s : State) (t : Training), s.training = some t → t.part = c.part →
    (∀ m, Ready .trainBackward c s → nextBackward s = some m → m.desc.seq = c.args.getD 0 0 → m.fwdCommitted = true → updateRuns s = false →
      t.waitingBwd = none → barrierWaits s = false →
      exec (.trainBackward c) s = .next (startBackward c (c.args.getD 0 0) (accepted .trainBackward c s)))
    ∧ (Ready .trainNorm c s → argPair c 0 % 32 = 0 → t.backwards ≠ 0 → inFlight s = 0 → t.normBusy = false → t.updating = none →
      exec (.trainNorm c) s = .next (taken .trainNorm c (.trainNorm (argPair c 0)) (.slot .normCommit 0) s))
    ∧ (Ready .trainUpdate c s → updateBad (updateArgs c) = false → arg c 8 = 0 → t.backwards ≠ 0 → inFlight s = 0 → t.normDone = true →
      t.normBusy = false → normHeld s = false → t.waiting = none → updateRuns s = false → barrierWaits s = false →
      exec (.trainUpdate c) s = .next (taken .trainUpdate c (.trainUpdate (updateArgs c)) (.slot .updateCommit 0) s))
    ∧ (Ready .trainClose c s → inFlight s = 0 → updateRuns s = false → t.waiting = none → t.waitingBwd = none → t.normBusy = false →
      (∀ p ∈ s.plans, p.part ≠ c.part) →
      exec (.trainClose c) s = .next (taken .trainClose c .trainClose (.stamp (stepNow s)) s))
    ∧ (∀ u, Ready .maskPrune c s → staleVersion s c = false → arg c 1 < 4 → arg c 3 = 0 → 1 ≤ arg c 2 → arg c 2 ≤ 1048576 →
      (bitOf (arg c 1) 0 = true ∨ headDense s c.part = false) → planHeld s c.part = none →
      (∀ m ∈ s.held, ∀ a b k, m.item ≠ .maskPrune a b k) → t.barriered = false →
      allocBlocks c.part .selection (2 * spillBlocks (arg c 2)) s = .ok u →
      exec (.maskPrune c) s = .next (taken .maskPrune c (.maskPrune (bitOf (arg c 1) 0) (bitOf (arg c 1) 1) (arg c 2)) .selection s))
    ∧ (∀ m p, Ready .maskGrow c s → staleVersion s c = false → microOf s (c.args.getD 1 0) = some m → m.mask = maskVersionOf s c.part →
      m.bwdStarted = false → bwdHeld s (c.args.getD 1 0) = false → planHeld s c.part = some p → p.st = .pruned → p.growSeq = none →
      exec (.maskGrow c) s = .next (await .maskGrow c (stepNow s) (.slot .backwardCommit (c.args.getD 1 0))
        (updPlan c.part (fun p => { p with growSeq := some (c.args.getD 1 0) }) (accepted .maskGrow c s))))
    ∧ (∀ p, Ready .maskBarrier c s → staleVersion s c = false → arg c 1 < 2 → isFinite (c.args.getD 2 0) = true → planHeld s c.part = some p →
      p.st = .grown → p.updated = true → p.barrierWait = false → updateRuns s = false →
      exec (.maskBarrier c) s = .next (announce (stepNow s) (.maskBarrier (bitOf (arg c 1) 0) (c.args.getD 2 0))
        (await .maskBarrier c (stepNow s) .barrier (updPlan c.part (fun p => { p with barrierWait := true }) (accepted .maskBarrier c s)))))
    ∧ (Ready .maskDiscard c s →
      exec (.maskDiscard c) s = .next (taken .maskDiscard c .maskDiscard (.stamp (stepNow s)) s))

/-! ## Mailboxes, queues and forwarded commands -/

/-- A doorbell: with GO and an IDLE mailbox the command is issued from the moment of the write, the mailbox PENDING and its result word the
tag with status PENDING (R306); in boot hold it completes at once with BUSY (R448); GO = 0 does nothing. -/
def Obligations.DoorbellIssuesTheCommand : Prop :=
  ∀ (src : BitVec 4) (p : Nat) (v : Word) (s : State), s.inReset = false → p < 12 → p < s.mbx.length → (src = 15 ∨ src.toNat = p) →
    (v.getLsbD 0 = false → exec (.mbxDoorbell src p v) s = .next s)
    ∧ (v.getLsbD 0 = true → (mailbox s p).st = .idle →
      ∃ u, u = { s with mbx := u.mbx } ∧ (∀ q, q ≠ p → mailbox u q = mailbox s q)
        ∧ mailbox u p = { mailbox s p with st := .pending, resTag := (mailbox s p).tag, resStatus := Status.pending.code }
        ∧ exec (.mbxDoorbell src p v) s = .next (if s.whisk = .hold then deliver p .mailbox (mailbox s p).tag Status.busy.code [] u
            else issue p .mailbox (mailbox s p).opcode (mailbox s p).tag (mailbox s p).args u))

/-- A write of GO = 1 while STATE is PENDING or DONE issues nothing, leaves the mailbox unchanged and sets DB_LOST (R307). -/
def Obligations.DoorbellWhileBusyIsLost : Prop :=
  ∀ (src : BitVec 4) (p : Nat) (v : Word) (s : State), s.inReset = false → p < 12 → p < s.mbx.length → (src = 15 ∨ src.toNat = p) →
    v.getLsbD 0 = true → (mailbox s p).st ≠ .idle →
    ∃ t, exec (.mbxDoorbell src p v) s = .next t ∧ mailbox t p = { mailbox s p with irqStatus := (mailbox s p).irqStatus ||| 0b01000#5 }
      ∧ (∀ q, q ≠ p → mailbox t q = mailbox s q) ∧ t = { s with mbx := t.mbx }

/-- The other mailbox registers (R305, R306, R310): ACK returns a DONE mailbox to IDLE with a zero result and does nothing otherwise, ones
clear MBX_IRQ_STATUS, MBX_IRQ_EN is stored, CQ_TAIL and CC_CONS are stored when they stay within their rings and set CQ_ERR otherwise. -/
def Obligations.MailboxRegisterWrites : Prop :=
  ∀ (src : BitVec 4) (p : Nat) (v : Word) (s : State), s.inReset = false → p < 12 → p < s.mbx.length → (src = 15 ∨ src.toNat = p) →
    let only := fun (t : State) (m : Mailbox) => mailbox t p = m ∧ (∀ q, q ≠ p → mailbox t q = mailbox s q) ∧ t = { s with mbx := t.mbx }
    let m := mailbox s p
    let qo := if m.cqEn then m.lqOrder else m.qOrder.toNat
    let co := if m.cqEn then m.lcOrder else m.cOrder.toNat
    (v.getLsbD 0 = true → m.st = .done →
      ∃ t, exec (.mbxAck src p v) s = .next t ∧ only t { m with st := .idle, resTag := 0, resStatus := 0 })
    ∧ ((v.getLsbD 0 = false ∨ m.st ≠ .done) → exec (.mbxAck src p v) s = .next s)
    ∧ (∃ t, exec (.mbxIrqStatus src p v) s = .next t ∧ only t { m with irqStatus := m.irqStatus &&& ~~~(v.setWidth 5) })
    ∧ (∃ t, exec (.mbxIrqEn src p v) s = .next t ∧ only t { m with irqEn := v.setWidth 5 })
    ∧ ((v - m.cqHead).toNat ≤ 2 ^ qo → ∃ t, exec (.cqTail src p v) s = .next t ∧ only t { m with cqTail := v })
    ∧ (2 ^ qo < (v - m.cqHead).toNat → ∃ t, exec (.cqTail src p v) s = .next t ∧ only t { m with irqStatus := m.irqStatus ||| 0b10000#5 })
    ∧ ((m.ccProd - v).toNat ≤ 2 ^ co → ∃ t, exec (.ccCons src p v) s = .next t ∧ only t { m with ccCons := v })
    ∧ (2 ^ co < (m.ccProd - v).toNat → ∃ t, exec (.ccCons src p v) s = .next t ∧ only t { m with irqStatus := m.irqStatus ||| 0b10000#5 })

/-- A write of CQ_CFG (R310): EN = 1 from 0 with both orders in 4 to 12 latches bases and orders and zeroes the four counters, with an
order outside sets CQ_ERR and leaves EN at 0; EN = 0 stops fetching; while EN is 1 a write changes only the registers. -/
def Obligations.QueueIsEnabled : Prop :=
  ∀ (src : BitVec 4) (p : Nat) (v : Word) (s : State), s.inReset = false → p < 12 → p < s.mbx.length → (src = 15 ∨ src.toNat = p) →
    let q := v.extractLsb' 1 4
    let c := v.extractLsb' 5 4
    let m := { mailbox s p with qOrder := q, cOrder := c }
    (v.getLsbD 0 = true → m.cqEn = false → 4 ≤ q.toNat → q.toNat ≤ 12 → 4 ≤ c.toNat → c.toNat ≤ 12 →
      ∃ t, exec (.cqCfg src p v) s = .next t ∧ t = { s with mbx := t.mbx } ∧ (∀ r, r ≠ p → mailbox t r = mailbox s r)
        ∧ mailbox t p = { m with cqEn := true, cqTail := 0, cqHead := 0, ccProd := 0, ccCons := 0, cseq := 0, fetching := false
                                 lqBase := (m.cqBaseLo.toNat + m.cqBaseHi.toNat * 2 ^ 32)
                                 lcBase := (m.ccBaseLo.toNat + m.ccBaseHi.toNat * 2 ^ 32), lqOrder := q.toNat, lcOrder := c.toNat })
    ∧ (v.getLsbD 0 = true → m.cqEn = false → (q.toNat < 4 ∨ 12 < q.toNat ∨ c.toNat < 4 ∨ 12 < c.toNat) →
      ∃ t, exec (.cqCfg src p v) s = .next t ∧ t = { s with mbx := t.mbx }
        ∧ mailbox t p = { m with irqStatus := m.irqStatus ||| 0b10000#5 })
    ∧ (v.getLsbD 0 = true → m.cqEn = true → ∃ t, exec (.cqCfg src p v) s = .next t ∧ t = { s with mbx := t.mbx } ∧ mailbox t p = m)
    ∧ (v.getLsbD 0 = false → ∃ t, exec (.cqCfg src p v) s = .next t ∧ t = { s with mbx := t.mbx, hmp := t.hmp }
        ∧ mailbox t p = { m with cqEn := false, fetching := false })

/-- Eocia reads entry CQ_HEAD once, when EN is 1, the ring is not empty, CQ_PENDING is below 256 and the empty completion slots exceed it
(R311); an entry that has been read and whose FENCE allows it is issued with its tag and arguments, CQ_HEAD and CQ_PENDING counted. -/
def Obligations.QueueEntryIsFetched : Prop :=
  ∀ (p : Nat) (s : State), eociaRuns s = true → scrubbing s p = false → p < 12 → p < s.mbx.length → (mailbox s p).cqEn = true →
    (mailbox s p).cqTail ≠ (mailbox s p).cqHead → (mailbox s p).cqPending < 256 →
    (mailbox s p).cqPending < 2 ^ (mailbox s p).lcOrder - ((mailbox s p).ccProd - (mailbox s p).ccCons).toNat →
    ((mailbox s p).fetching = false →
      exec (.cqFetch p) s = .next (hmpRead p ((mailbox s p).lqBase + 64 * ((mailbox s p).cqHead.toNat % 2 ^ (mailbox s p).lqOrder)) 64 .rdb
        (.queueEntry p) { s with mbx := updAt s.mbx p fun m => { m with fetching := true } }))
    ∧ (∀ j bs, (mailbox s p).fetching = true → s.hmp.jobs.find? (fun j => j.purpose == .queueEntry p) = some j → jobBytes j = some bs →
      (bitOf (leAt bs 60 4) 0 = false ∨ (mailbox s p).cqPending = 0) → leAt bs 60 4 < 4 →
      ∃ u, exec (.cqFetch p) s = .next (issue p (.queue (bitOf (leAt bs 60 4) 1)) (BitVec.ofNat 16 (leAt bs 0 2))
          (BitVec.ofNat 16 (leAt bs 2 2)) ((List.range 14).map fun j => wordAt bs (4 + 4 * j)) u)
        ∧ mailbox u p = { mailbox s p with fetching := false, cqHead := (mailbox s p).cqHead + 1, cqPending := (mailbox s p).cqPending + 1 }
        ∧ u.hmp.jobs = s.hmp.jobs.filter (fun j => j.purpose != .queueEntry p) ∧ u = { s with mbx := u.mbx, hmp := u.hmp })

/-- A command entry that arrives from another slice is issued here with its origin kept; a result that arrives closes its entry and is
delivered where the command entered, with the words its opcode defines (R314, R381). -/
def Obligations.ForwardedCommandsAndResults : Prop :=
  (∀ (f : FwdCmd) (s : State), exec (.fwdCmd f) s = .next (issue f.part (.fwd f.origin f.ref f.queue) f.opcode f.tag f.args s))
    ∧ (∀ (r : FwdResult) (x : FwdRef) (op : Op) (s : State), s.eocia.forwarded.find? (fun g => g.ref == r.ref) = some x →
        opOf x.op.toNat = some op →
        exec (.fwdResult r) s = .next (deliver x.part (match x.queue with | none => .mailbox | some b => .queue b) r.tag r.status
          (forwardedWords op r.status r.words)
          { s with eocia := { s.eocia with forwarded := s.eocia.forwarded.filter fun g => g.ref != r.ref } }))
    ∧ (∀ (r : FwdResult) (s : State), s.eocia.forwarded.find? (fun g => g.ref == r.ref) = none → exec (.fwdResult r) s = .next s)

/-! ## Registers of banks 0, 1, 14 and 15 -/

/-- STEP_PERIOD, GLB_IRQ_STATUS, GLB_IRQ_EN, STC_CFG and STK_QUOTA written by source 15 take the value their tables give, clamped where the
spec clamps (R55, R101, R103, R335, R337), and nothing else changes. -/
def Obligations.GlobalRegisterWrites : Prop :=
  ∀ (v : Word) (s : State), s.inReset = false →
    exec (.stepPeriod 15 v) s = .next { s with regs := { s.regs with stepPeriod := (if v.toNat % 65536 < 250 then 250
        else if v.toNat % 65536 > 65000 then 65000 else v.toNat % 65536) } }
    ∧ exec (.glbIrqStatus 15 v) s = .next { s with regs := { s.regs with irqStatus := s.regs.irqStatus &&& ~~~(v.setWidth 5) } }
    ∧ exec (.glbIrqEn 15 v) s = .next { s with regs := { s.regs with irqEn := v.setWidth 5 } }
    ∧ exec (.stcCfg 15 v) s = .next { s with regs := { s.regs with stcSteps := (if v.toNat % 16 = 0 then 1
        else if v.toNat % 16 > maxCache s.kit then maxCache s.kit else v.toNat % 16) } }
    ∧ (∀ p, p < 12 → exec (.stkQuota 15 p v) s = .next { s with regs := { s.regs with quota := s.regs.quota.set p (v.toNat % 65536) } })

/-- The WM registers MGMT_PARTS, PLACE_CTL and DBG_CTRL take a new value in exactly the bits whose mask bit in [31:16] is one; a write whose
bits [31:16] are all zero changes nothing; they hold no field above bit 15, at their offsets 0x1004, 0x0030 and 0xF004
(R330). A target 0 that resumes goes on. -/
def Obligations.MaskedRegisterWrites : Prop :=
  ∀ (v : Word) (s : State), s.inReset = false →
    (∀ o, o = 0x1004 ∨ o = 0x0030 ∨ o = 0xF004 → (csrRead s o).extractLsb' 16 16 = 0)
    ∧ (∃ t, exec (.mgmtParts 15 v) s = .next t ∧ t = { s with regs := { s.regs with mgmtParts := t.regs.mgmtParts } }
      ∧ ∀ i, i < 12 → t.regs.mgmtParts.getLsbD i = if v.getLsbD (16 + i) then v.getLsbD i else s.regs.mgmtParts.getLsbD i)
    ∧ (∃ t, exec (.placeCtl 15 v) s = .next t ∧ t = { s with regs := { s.regs with placeHold := t.regs.placeHold } }
      ∧ t.regs.placeHold = if v.getLsbD 16 then v.getLsbD 0 else s.regs.placeHold)
    ∧ (v.extractLsb' 16 16 = 0 →
      exec (.mgmtParts 15 v) s = .next s ∧ exec (.placeCtl 15 v) s = .next s ∧ exec (.dbgCtrl 15 v) s = .next s)
    ∧ (debugOpen s = true → ∃ u : State, u = { s with dbg := { s.dbg with halted := u.dbg.halted } }
      ∧ (∀ i, i < 4 → u.dbg.halted.getLsbD i = if v.getLsbD (16 + i) then v.getLsbD i else s.dbg.halted.getLsbD i)
      ∧ exec (.dbgCtrl 15 v) s = .next (if v.getLsbD 16 = true ∧ v.getLsbD 0 = false then
          (if s.whisk = .loading then debugLoaded (whiskMoves u) else if s.dbg.halted.getLsbD 0 then eociaGoesOn (whiskMoves u) else u) else u))

/-- IRQ_ALARM is high while the ALARM status and its enable are both 1, IRQ_GROUP while any of the status bits [4:1] is 1 with its enable bit
set; setting an enable bit whose status bit is already 1 raises the line at once (R335). -/
def Obligations.InterruptLines : Prop :=
  (∀ s : State, irqAlarm s = (s.regs.irqStatus.getLsbD 0 && s.regs.irqEn.getLsbD 0))
    ∧ (∀ s : State, irqGroup s = true ↔ ∃ i, 1 ≤ i ∧ i ≤ 4 ∧ s.regs.irqStatus.getLsbD i = true ∧ s.regs.irqEn.getLsbD i = true)
    ∧ (∀ (v : Word) (s : State), s.inReset = false → ∃ t, exec (.glbIrqEn 15 v) s = .next t
        ∧ (s.regs.irqStatus.getLsbD 0 = true → v.getLsbD 0 = true → irqAlarm t = true)
        ∧ (∀ i, 1 ≤ i → i ≤ 4 → s.regs.irqStatus.getLsbD i = true → v.getLsbD i = true → irqGroup t = true))

/-- ACLK_CEIL stores the value rounded down to a multiple of 25 and limited to 350 to 700; every pan pair above the ceiling is lowered to
it, and the write raises none (R336). -/
def Obligations.ClockCeilingWrites : Prop :=
  ∀ (v : Word) (s : State), s.inReset = false → ∃ t, exec (.aclkCeil 15 v) s = .next t
    ∧ t.regs.aclkCeil = max 350 (min 700 (v.toNat % 1024 / 25 * 25)) ∧ t.power.pairs.length = s.power.pairs.length
    ∧ (∀ (p : Nat) (x y : Pair), s.power.pairs[p]? = some x → t.power.pairs[p]? = some y → y.mhz = min x.mhz (ceiling t))
    ∧ t = { s with regs := { s.regs with aclkCeil := t.regs.aclkCeil }, power := { s.power with pairs := t.power.pairs }
                   tele := t.tele, cnt := t.cnt }

/-- THAW_MASTER thaws the named master at once and logs it; a code of a master that is not frozen, of a partition under scrub, or of no
master has no effect (R337, R363, R407). -/
def Obligations.ThawsTakeEffect : Prop :=
  ∀ (v : Word) (s : State), s.inReset = false →
    let c := v.toNat % 32
    (c < 12 → s.regs.frozenPart.getLsbD c = true → s.regs.scrub.getLsbD c = false →
      exec (.thawMaster 15 v) s = .next (thawPart c (log 0x07 c (BitVec.ofNat 64 c) s)))
    ∧ (c < 12 → (s.regs.frozenPart.getLsbD c = false ∨ s.regs.scrub.getLsbD c = true) → exec (.thawMaster 15 v) s = .next s)
    ∧ (c = 16 → s.regs.frozenHip = true → exec (.thawMaster 15 v) s = .next (thawHip (log 0x07 0 16#64 s)))
    ∧ (c = 17 → s.regs.frozenHmp = true → exec (.thawMaster 15 v) s = .next (thawHmp (log 0x07 0 17#64 s)))
    ∧ (c = 18 → s.regs.frozenGbp = true → exec (.thawMaster 15 v) s = .next (thawGbp (log 0x07 0 18#64 s)))
    ∧ (c = 16 → s.regs.frozenHip = false → exec (.thawMaster 15 v) s = .next s)
    ∧ (c = 17 → s.regs.frozenHmp = false → exec (.thawMaster 15 v) s = .next s)
    ∧ (c = 18 → s.regs.frozenGbp = false → exec (.thawMaster 15 v) s = .next s)
    ∧ (12 ≤ c → c ≠ 16 → c ≠ 17 → c ≠ 18 → exec (.thawMaster 15 v) s = .next s)

/-- A PART_KILL write with PART above 11, with another CONFIRM than 0x5C0B, or of a partition whose scrub is running has no effect (R339);
any other starts the kill here and tells every member (R394, R395), from host software or the partition's own agent. -/
def Obligations.PartKillNeedsItsConfirm : Prop :=
  ∀ (src : BitVec 4) (v : Word) (s : State), s.inReset = false → (src = 15 ∨ (src.toNat < 12 ∧ src.toNat = v.toNat % 16)) →
    ((11 < v.toNat % 16 ∨ v.extractLsb' 16 16 ≠ 0x5C0B#16 ∨ scrubbing s (v.toNat % 16) = true) → exec (.partKill src v) s = .next s)
    ∧ (v.toNat % 16 < 12 → v.extractLsb' 16 16 = 0x5C0B#16 → scrubbing s (v.toNat % 16) = false →
      exec (.partKill src v) s = .next (applyKill (v.toNat % 16) (announceOut (stepNow s) (.kill (v.toNat % 16)) s)))

/-- The log ring's registers (R332, R343): the base takes effect with its high half, an order outside 6 to 20 leaves EN at 0, and a write
while EN is 1 restarts the ring at its first record. -/
def Obligations.LogRingRegisters : Prop :=
  ∀ (v : Word) (s : State), s.inReset = false →
    (∃ t, exec (.logBaseHi 15 v) s = .next t ∧ t.regs.logBase = v ++ s.regs.logBaseLo
      ∧ (s.regs.logEn = true → t.tele.logProd = 0 ∧ t.tele.logCons = 0)
      ∧ t = { s with regs := { s.regs with logBase := t.regs.logBase }
                     tele := { s.tele with logProd := t.tele.logProd, logCons := t.tele.logCons } })
    ∧ (∃ t, exec (.logCfg 15 v) s = .next t ∧ t.regs.logOrder = v.extractLsb' 1 5
      ∧ (t.regs.logEn = true ↔ v.getLsbD 0 = true ∧ 6 ≤ (v.extractLsb' 1 5).toNat ∧ (v.extractLsb' 1 5).toNat ≤ 20)
      ∧ t.tele.logProd = 0 ∧ t.tele.logCons = 0
      ∧ t = { s with regs := { s.regs with logEn := t.regs.logEn, logOrder := t.regs.logOrder }
                     tele := { s.tele with logProd := 0, logCons := 0, logStopped := false } })

/-- A register write at any offset of the window: one that Table 19.2 allows reaches its register, and one that it denies changes no
register and is logged with its source, offset and direction (R328, R393); while RST_N is low nothing happens (R438). -/
def Obligations.RegisterWritesAreChecked : Prop :=
  ∀ (src : BitVec 4) (off : BitVec 16) (v : Word) (s : State),
    (s.inReset = true → exec (.regWrite src off v) s = .next s)
    ∧ (s.inReset = false → csrAllowed src.toNat off.toNat true v = true → exec (.regWrite src off v) s = .next (csrPut off.toNat v s))
    ∧ (s.inReset = false → csrAllowed src.toNat off.toNat true v = false →
      exec (.regWrite src off v) s = .next (log 0x03 0 (BitVec.ofNat 64 (src.toNat + off.toNat * 2 ^ 4 + 2 ^ 20)) s))
    ∧ (src = 15 → csrAllowed src.toNat off.toNat true v = true)
    ∧ (12 ≤ src.toNat → src ≠ 15 → csrAllowed src.toNat off.toNat true v = false)
    ∧ (src.toNat < 12 → 2 ≤ off.toNat / 4096 → off.toNat / 4096 < 14 →
        csrAllowed src.toNat off.toNat true v = decide (off.toNat / 4096 = src.toNat + 2))

/-- Bank 15 while it is open (R332, R344, R464, R468): DBG_STEP lets a halted Whisk move, a breakpoint and the address take effect with
their high halves, a write of DBG_MEM_DATA stores and a read shows the word, and the address advances by 4. While it is not open
(PD_DBG off, or LOCKED without an unlock) its registers read 0 and ignore writes (R333, R344). -/
def Obligations.DebugRegistersAct : Prop :=
  ∀ (v : Word) (s : State), s.inReset = false →
    (debugOpen s = true →
    (v.toNat % 4 = 0 → s.dbg.halted.getLsbD 0 = true → exec (.dbgStep 15 v) s = .next (whiskMoves s))
    ∧ ((v.toNat % 4 ≠ 0 ∨ s.dbg.halted.getLsbD 0 = false) → exec (.dbgStep 15 v) s = .next s)
    ∧ (∀ n, n < 4 → exec (.dbgBp 15 n v) s
        = .next { s with dbg := { s.dbg with bp := s.dbg.bp.set n (v ++ s.dbg.bpLo.getD n 0) } })
    ∧ exec (.dbgMemAddr 15 v) s = .next { s with dbg := { s.dbg with memAddr := v ++ s.dbg.memAddrLo } }
    ∧ (∃ t, exec (.dbgMemData 15 true v) s = .next t ∧ t.dbg.memAddr = s.dbg.memAddr + 4
        ∧ t.dbg.memErr = (debugStore (s.dbg.memAddr.toNat / 4 * 4) v s).1 ∧ t.dbg.mem = (debugStore (s.dbg.memAddr.toNat / 4 * 4) v s).2.dbg.mem
        ∧ t = { (debugStore (s.dbg.memAddr.toNat / 4 * 4) v s).2 with dbg := t.dbg }
        ∧ (∀ b o, regionOf s (s.dbg.memAddr.toNat / 4 * 4) = .pot b o → blockAt s b o = some .free →
          t.dbg.mem = (putWord (s.dbg.memAddr.toNat / 4 * 4) v s).dbg.mem ∧ t.dbg.memErr = 0))
    ∧ (∃ t, exec (.dbgMemData 15 false v) s = .next t ∧ t.dbg.memAddr = s.dbg.memAddr + 4
        ∧ t.dbg.rdata = (debugFetch (s.dbg.memAddr.toNat / 4 * 4) s).1 ∧ t.dbg.memErr = (debugFetch (s.dbg.memAddr.toNat / 4 * 4) s).2.1))
    ∧ (debugOpen s = false →
      exec (.dbgCtrl 15 v) s = .next s ∧ exec (.dbgStep 15 v) s = .next s ∧ (∀ n, n < 4 → exec (.dbgBp 15 n v) s = .next s)
      ∧ exec (.dbgMemAddr 15 v) s = .next s ∧ exec (.dbgMemData 15 true v) s = .next s
      ∧ exec (.dbgMemData 15 false v) s = .next { s with dbg := { s.dbg with rdata := 0 } } ∧ ∀ o, debugReg s o = 0)

/-- The word that the debug port writes into a free scratch block's line or into a halted Whisk's state is the word it reads back, and every
other byte of what it has written stays (R464, Table 22.7). -/
def Obligations.DebugWordReadsBack : Prop :=
  ∀ (a : Nat) (v : Word) (s : State), Memory.wf s.dbg.mem = true → a % 4 = 0 →
    let t := putWord a v s
    Memory.wf t.dbg.mem = true ∧ cellWord t.dbg.mem a = some v ∧ (∀ b, b < a ∨ a + 4 ≤ b → cellAt t.dbg.mem b = cellAt s.dbg.mem b)
      ∧ t = { s with dbg := { s.dbg with mem := t.dbg.mem } }

/-- The TAP (R466, R467): Test-Logic-Reset and IDCODE select IDCODE, whose word has bit 0 set, 0x4B32 in [27:12] and 0x3 in [31:28]; DBG_REG
makes one access in bank 15 and captures its value, DONE and DENIED. A breakpoint that is enabled halts Whisk (R468). -/
def Obligations.TapAccesses : Prop :=
  ∀ s : State,
    exec .tapReset s = .next { s with dbg := { s.dbg with tapIr := 0x01 } }
    ∧ exec .tapIdcode s = .next { s with dbg := { s.dbg with tapIr := 0x01, tapDr := lowBits 32 idcode.toNat } }
    ∧ idcode.getLsbD 0 = true ∧ idcode.extractLsb' 12 16 = 0x4B32#16 ∧ idcode.extractLsb' 28 4 = 3#4
    ∧ (∀ (off : BitVec 12) (v : Word), debugOpen s = false →
      exec (.tapDbgReg true off v) s = .next { s with dbg :=
        { s.dbg with tapIr := 0x02, tapData := 0, tapDone := true, tapDenied := true, tapDr := lowBits 46 (2 ^ 32 + 2 ^ 33) } })
    ∧ (∀ (off : BitVec 12) (v : Word), debugOpen s = true →
      let t := debugWrite (off.toNat / 4 * 4) v s
      exec (.tapDbgReg true off v) s = .next { t with dbg :=
        { t.dbg with tapIr := 0x02, tapData := 0, tapDone := true, tapDenied := false, tapDr := lowBits 46 (2 ^ 32) } })
    ∧ (∀ (off : BitVec 12) (v : Word), debugOpen s = true → off.toNat / 4 * 4 ≠ 0x038 →
      exec (.tapDbgReg false off v) s = .next { s with dbg :=
        { s.dbg with tapIr := 0x02, tapData := debugReg s (off.toNat / 4 * 4), tapDone := true, tapDenied := false,
                     tapDr := lowBits 46 ((debugReg s (off.toNat / 4 * 4)).toNat + 2 ^ 32) } })
    ∧ (∀ n, (s.dbg.bp.getD n 0).getLsbD 0 = true →
      exec (.breakpointHit n) s = .next { s with dbg := { s.dbg with halted := s.dbg.halted ||| 1 } })
    ∧ (∀ n, (s.dbg.bp.getD n 0).getLsbD 0 = false → exec (.breakpointHit n) s = .next s)

/-- Fuses (R403): in OPEN with VDD_FUSE present, FUSE programs each 1 bit of VALUE in the word it names and no other; in LOCKED it acts as
BYPASS, and without VDD_FUSE nothing is programmed. -/
def Obligations.FusesAreProgrammed : Prop :=
  ∀ (v : BitVec 384) (s : State),
    let d := { s.dbg with tapIr := 0x04 }
    (s.sec.locked = false →
      exec (.tapFuse 0 v true) s = .next { s with dbg := d, sec := { s.sec with fuses := { s.sec.fuses with
        lifecycle := s.sec.fuses.lifecycle ||| v.setWidth 2 } } }
      ∧ exec (.tapFuse 1 v true) s = .next { s with dbg := d, sec := { s.sec with fuses := { s.sec.fuses with
        frk := s.sec.fuses.frk ||| v.setWidth 256 } } }
      ∧ exec (.tapFuse 2 v true) s = .next { s with dbg := d, sec := { s.sec with fuses := { s.sec.fuses with
        fwRoot := s.sec.fuses.fwRoot ||| v } } }
      ∧ exec (.tapFuse 3 v true) s = .next { s with dbg := d, sec := { s.sec with fuses := { s.sec.fuses with
        dbgRoot := s.sec.fuses.dbgRoot ||| v } } }
      ∧ exec (.tapFuse 4 v true) s = .next { s with dbg := d, sec := { s.sec with fuses := { s.sec.fuses with
        minSvn := s.sec.fuses.minSvn ||| v.setWidth 64 } } }
      ∧ ∀ w, exec (.tapFuse w v false) s = .next { s with dbg := d })
    ∧ (s.sec.locked = true → ∀ w b, exec (.tapFuse w v b) s = .next { s with dbg := { d with tapDr := [false] } })

/-- The authenticated unlock (R405): a capture in LOCKED gives a fresh challenge; an update with the key and signature that answer it resumes
every halted target and kills every partition, and with another the challenge is spent, the unlock is withheld and UNLOCK_FAIL raised;
when every scrub has ended the slice is unlocked; the hold-off ends by time. -/
def Obligations.UnlockIsAuthenticated : Prop :=
  ∀ s : State,
    (s.sec.locked = true → s.sec.withheld = false → s.sec.unlocked = false →
      ∃ t, exec .tapUnlockCapture s = .next t ∧ t.sec.challenge = some ((List.range 48).map (Config.drbgByte s.fresh)) ∧ t.dbg.tapIr = 0x03
        ∧ t = { s with sec := { s.sec with challenge := t.sec.challenge }, dbg := t.dbg, fresh := s.fresh + 1 })
    ∧ ((s.sec.locked = false ∨ s.sec.withheld = true ∨ s.sec.unlocked = true) →
      exec .tapUnlockCapture s = .next { s with dbg := { s.dbg with tapIr := 0x03, tapDr := List.replicate 1536 false } })
    ∧ (∀ ch key sig, s.sec.challenge = some ch → unlockOk s ch key sig = false →
      ∃ t, exec (.tapUnlockUpdate key sig) s = .next t ∧ t.sec = { s.sec with challenge := none, withheld := true }
        ∧ t.regs.irqStatus = s.regs.irqStatus ||| 1 ∧ (∃ a ∈ t.tele.alarms, a.code = 0x21))
    ∧ (∀ ch key sig, s.sec.challenge = some ch → unlockOk s ch key sig = true →
      exec (.tapUnlockUpdate key sig) s = .next ((List.range 12).foldl (fun s p => startKill p s)
        (eociaResumes { s with dbg := { s.dbg with tapIr := 0x03, halted := 0 }, sec := { s.sec with challenge := none, unlocking := true } })))
    ∧ (s.sec.unlocking = true → s.regs.scrub = 0 →
      exec .unlockDone s = .next { s with sec := { s.sec with unlocking := false, unlocked := true } })
    ∧ exec .unlockHoldoffExpiry s = .next { s with sec := { s.sec with withheld := false } }

/-! ## Ports -/

/-- A row on HIP, whole and with its credits, is judged at its last beat with its class's framing closed (R348, R350): a malformed row is
a violation, and a serving row is judged by Table 17.3, as one that came late or in time (R57), unless it must wait, when it is kept as it came. Every beat is counted, and no port but the two HIP classes changes by
the framing. While the partner is frozen every beat is dropped; a beat without a credit is an overrun (R361, R363). -/
def Obligations.HipRowIsJudged : Prop :=
  ∀ (c : HipClass) (h : Bytes) (ps : List Bytes) (s : State),
    (s.regs.frozenHip = false → (hipPort s c).row = [] → ps ≠ [] → ps.length = ceilDiv (leAt h 12 4) 64 →
      (hipPort s c).received + ps.length < (hipPort s c).returned →
      ∃ u, exec (.hipRow c ⟨⟨true, false, h⟩ :: (ps.zipIdx.map fun p => ⟨false, p.2 + 1 == ps.length, p.1⟩), .none⟩) s
          = .next (fetchHeld (wakePans (returnCredits (judgeRow c (arrivesLate s) (h :: ps) u))))
        ∧ (hipPort u c).row = [] ∧ (hipPort u c).received = (hipPort s c).received + ps.length + 1
        ∧ u = { s with hipB := u.hipB, hipL := u.hipL, tele := u.tele })
    ∧ (s.regs.frozenHip = true → ∀ bs f, exec (.hipRow c ⟨bs, f⟩) s = .next (fetchHeld (wakePans s)))
    ∧ (∀ b, s.regs.frozenHip = false → (hipPort s c).returned ≤ (hipPort s c).received →
      exec (.hipRow c ⟨[b], .none⟩) s = .next (fetchHeld (wakePans (hipViolation c 0x01 0 (hipPort s c).row
        (updHip c (fun p => { p with nacks := p.nacks + 1, row := [], stray := !b.last }) s)))))
    ∧ (∀ v late, malformed h ps.flatten ps.length = some v → judgeRow c late (h :: ps) s = hipViolation c v.1 v.2 (h :: ps) s)
    ∧ (∀ late, malformed h ps.flatten ps.length = none → (rowOfBeats c h ps.flatten).kind ≠ 2 →
      (rowEarly s (rowOfBeats c h ps.flatten) = false → judgeRow c late (h :: ps) s = serveRow late (rowOfBeats c h ps.flatten) s)
      ∧ (rowEarly s (rowOfBeats c h ps.flatten) = true →
        judgeRow c late (h :: ps) s = updHip c (fun p => { p with waiting := p.waiting ++ [⟨s.step.step, late, h :: ps⟩] }) s))

/-- A serving row whose request and step refuse it for a reason of Table 17.3 answers with that reason and is not held; one that none refuses
for the next step takes its lines and is held for that step, and no other row changes (R60, R62, R112, R227, R351). -/
def Obligations.RowsAreHeldOrRejected : Prop :=
  ∀ (r : RowRec) (e : ReqEntry) (late : Bool) (s : State), r.part < 12 → scrubbing s r.part = false → s.group.regroup = none → reqOf s r.id = some e →
    (∀ w, servingReason s r e = some w →
      serveRow late r s = rejection r.cls r.part r.id r.stepSeq (if r.tree.spec then r.tree.node else 0) w s
      ∧ (serveRow late r s).rows = s.rows)
    ∧ (∀ t, servingReason s r e = none → rowStep s e (r.stepSeq % 65536) = some (s.step.step + 1) → r.payload ≠ [] →
      ¬ (r.kind = 1 ∧ segmentLength s r = 0) →
      allocLines r.part (.row (rowKeyOf { r with useStep := s.step.step + 1 }) r.stepSeq) (rowLines r) s = .ok t →
      (serveRow late r s).rows = t.rows ++ [{ r with useStep := s.step.step + 1, carried := e.heldStep.isSome, lateArrival := false, hold := .lines (rowLines r) }]
        ∧ serveRow late r s = { t with rows := (serveRow late r s).rows, tele := (serveRow late r s).tele, cnt := (serveRow late r s).cnt })

/-- Answers on HMP (R352, R354): whole read data end the read and join its job, an answer to a tag that is not outstanding is a violation
unless a freeze abandoned the tag, a failed read is tried once more, a retry issues it again, and an OK write response ends its write;
while the partner is frozen every answer is discarded (R363). -/
def Obligations.HmpAnswersAreTaken : Prop :=
  ∀ (ch : RdCh) (tag : Nat) (beats : List Bytes) (s : State),
    (s.regs.frozenHmp = false →
      (∀ t, outstanding s false ch tag = some t → beats.length = linesTouched t → (∀ b ∈ beats, b.length = 128) →
        exec (.hmpReadData ch tag .ok beats) s = .next (hmpIssue (readOk t beats s)))
      ∧ (∀ t, outstanding s false ch tag = some t → t.retried = false → ∃ u, exec (.hmpReadData ch tag .slverr beats) s = .next (hmpIssue u)
          ∧ u.hmp.txns = updFirst (fun x => x == t) (fun x => { x with waiting := true }) s.hmp.txns ∧ u.hmp.jobs = s.hmp.jobs
          ∧ u.regs.irqStatus = s.regs.irqStatus ||| 1
          ∧ u = { s with hmp := u.hmp, tele := u.tele, cnt := u.cnt, regs := { s.regs with irqStatus := u.regs.irqStatus } })
      ∧ (∀ r, outstanding s false ch tag = none → s.hmp.lateTags.contains tag = false →
        exec (.hmpReadData ch tag r beats) s = .next (hmpViolation 0x06 tag s))
      ∧ (∀ r, outstanding s false ch tag = none → s.hmp.lateTags.contains tag = true →
        exec (.hmpReadData ch tag r beats) s = .next { s with hmp := { s.hmp with lateTags := s.hmp.lateTags.erase tag } })
      ∧ (∀ r, outstanding s true .rdb tag = none → s.hmp.lateTags.contains tag = false →
        exec (.hmpWriteResponse tag r) s = .next (hmpViolation 0x06 tag s))
      ∧ (∀ t, outstanding s true .rdb tag = some t →
        exec (.hmpWriteResponse tag .ok) s = .next (hmpIssue (writeDone t.job t.after (endTxn t s))))
      ∧ (∀ r, outstanding s true .rdb tag = none → s.hmp.lateTags.contains tag = true →
        exec (.hmpWriteResponse tag r) s = .next { s with hmp := { s.hmp with lateTags := s.hmp.lateTags.erase tag } })
      ∧ (∀ t, (s.hmp.txns.find? fun t => t.tag == some tag && t.waiting && !t.write) = some t → partFrozen s t.part = false →
        exec (.hmpRetry tag) s = .next { s with hmp := { s.hmp with
          issued := s.hmp.issued + 1, txns := updFirst (fun x => x == t) (fun x => { x with waiting := false, retried := true }) s.hmp.txns } }))
    ∧ (s.regs.frozenHmp = true → ∀ r,
      exec (.hmpReadData ch tag r beats) s = .next { s with hmp := { s.hmp with lateTags := s.hmp.lateTags.erase tag } }
      ∧ exec (.hmpWriteResponse tag r) s = .next { s with hmp := { s.hmp with lateTags := s.hmp.lateTags.erase tag } })

/-- GBP (R355, R356, R363): a credit pulse adds one credit, and one above 1,024 is a violation; a beat leaves with a credit and waits for
its acknowledgement; an acknowledgement takes the oldest beat, and one too many is a violation; while frozen nothing counts. -/
def Obligations.GbpMovesByCredit : Prop :=
  ∀ (c : GbpCh) (s : State),
    let p := gbpPort s c
    (s.regs.frozenGbp = false →
      (p.credits < 1024 → exec (.gbpCredit c) s = .next (updGbp c (fun p => { p with credits := p.credits + 1, received := p.received + 1 }) s))
      ∧ (1024 ≤ p.credits → exec (.gbpCredit c) s = .next (violation .gbp (gbpNum c) 0 0x01 0 0 false s))
      ∧ (p.unacked = [] → exec (.gbpAck c) s = .next (violation .gbp (gbpNum c) 0 0x08 0 0 false s))
      ∧ (∀ b rest, p.unacked = b :: rest → ∃ t, exec (.gbpAck c) s = .next t ∧ gbpPort t c = { p with unacked := rest, acks := p.acks + 1 }
        ∧ t = { s with gbpA := t.gbpA, gbpB := t.gbpB, tele := t.tele } ∧ ∀ d, d ≠ c → gbpPort t d = gbpPort s d)
      ∧ (∀ b rest, p.waiting = b :: rest → 0 < p.credits → ∃ t, exec (.gbpSend c) s = .next t
        ∧ gbpPort t c = { p with waiting := rest, unacked := p.unacked ++ [b], credits := p.credits - 1, sent := p.sent + 1, out := some b }
        ∧ (∀ d, d ≠ c → gbpPort t d = gbpPort s d)
        ∧ t = { s with gbpA := t.gbpA, gbpB := t.gbpB, tele := t.tele, cnt := t.cnt }))
    ∧ ((s.regs.frozenGbp = true ∨ p.waiting = [] ∨ p.credits = 0) → exec (.gbpSend c) s = .next s)
    ∧ (s.regs.frozenGbp = true → exec (.gbpCredit c) s = .next s ∧ exec (.gbpAck c) s = .next s)

/-- The event port (R357, R456, R459, R462): a credit is held up to 512, and one above is reported unless a report waits; with a credit the queue's oldest record leaves first, then an alarm,
oldest first, and a trace only behind both; each record takes one credit. -/
def Obligations.EventPortSendsInOrder : Prop :=
  ∀ s : State,
    (s.evt.credits < 512 →
      exec .evtCredit s = .next { s with evt := { s.evt with credits := s.evt.credits + 1, received := s.evt.received + 1 } })
    ∧ (512 ≤ s.evt.credits →
      let u := { s with evt := { s.evt with received := s.evt.received + 1, excess := s.evt.excess + 1, excessWaiting := true } }
      (s.evt.excessWaiting = true → exec .evtCredit s = .next u)
      ∧ (s.evt.excessWaiting = false → exec .evtCredit s = .next (event 3 (errorBytes s 5 0 0x01 1 0 0 false) u)))
    ∧ (0 < s.evt.credits →
      (∀ r rest, s.evt.queue = r :: rest →
        let u := evtOut r.bytes { s with evt := { s.evt with queue := rest } }
        exec .eventSend s = .next (returnCredits (drainPubs (evtRefill
          { u with evt := { u.evt with excessWaiting := u.evt.excessWaiting && !isExcess r } })))
        ∧ exec .alarmSend s = .next s)
      ∧ (∀ a rest, s.evt.queue = [] → s.evt.pendingList = [] → eociaRuns s = true → s.tele.alarms = a :: rest →
        exec .alarmSend s = .next (evtOut (alarmBytes s a) { s with tele := { s.tele with alarms := rest } }) ∧ exec .eventSend s = .next s)
      ∧ (∀ x rest, s.evt.queue = [] → s.evt.pendingList = [] → (s.tele.alarms = [] ∨ eociaRuns s = false) → s.tele.traces = x :: rest →
        exec .eventSend s = .next (evtOut (traceBytes s x) { s with tele := { s.tele with traces := rest } })))
    ∧ (s.evt.credits = 0 → exec .eventSend s = .next s ∧ exec .alarmSend s = .next s)
    ∧ (∀ b, (evtOut b s).evt.out = some b ∧ (evtOut b s).evt.credits = s.evt.credits - 1 ∧ (evtOut b s).evt.queue = s.evt.queue)

/-! ## The step -/

/-- TICK (R54 to R56, R66): the tick master emits the TICK of the next step once every acknowledgement is in, and slips while one is
missing, its timer at P of the open step; a slice takes a TICK of its tick master for a later step, which opens that step with its period,
and no other. A slip's silence is marked as reported while acknowledgements are missing, and not otherwise. -/
def Obligations.TicksOpenSteps : Prop :=
  ∀ (m : TickMsg) (s : State),
    (tickMaster s = me s → s.group.regroup = none → s.group.forming = none → s.step.emittedStep ≤ s.step.step →
      (s.step.acksDue = [] → exec .tickEmit s = .next (flood (.tick ⟨s.step.step + 1, s.regs.stepPeriod, me s⟩)
        { reach 6 s with step := { s.step with emittedStep := s.step.step + 1, acksDue := members s, slipSince := none, slipReported := false } }))
      ∧ (s.step.acksDue ≠ [] → s.step.slipSince = none →
        exec .tickEmit s = .next { reach 6 s with step := { s.step with slipSince := some (reach 6 s).timer } })
      ∧ (s.step.acksDue ≠ [] → s.step.slipSince ≠ none → exec .tickEmit s = .next (reach 6 s)))
    ∧ (tickMaster s ≠ me s → exec .tickEmit s = .next s)
    ∧ (s.group.forming = none → s.group.regroup = none → m.master = tickMaster s → s.step.step < m.step →
      (s.step.opened = false ∨ s.step.stamped = true) → publishing s = false →
      exec (.tick m) s = .next (judgeWaiting (boundary (openStep m s)))
        ∧ (openStep m s).step = { s.step with step := m.step, opened := true, period := m.period, tickAt := s.timer, phase := 0,
                                              stamped := false, acking := false })
    ∧ (s.group.forming = none → (m.master ≠ tickMaster s ∨ m.step ≤ s.step.step) → exec (.tick m) s = .next s)
    ∧ (s.step.slipSince ≠ none → s.step.acksDue ≠ [] →
      exec .slipSilenceExpiry s = .next { s with step := { s.step with slipReported := true } })
    ∧ ((s.step.slipSince = none ∨ s.step.acksDue = []) → exec .slipSilenceExpiry s = .next s)

/-- The deadlines of the open step (R57, R64) move its phase on, one after the other, with the timer at each deadline's offset from the TICK:
for P = 4,000 µs at 3,500, 3,562.5, 3,625, 3,812.5 and 3,875 µs, for P = 250 µs at 122, 138, 154, 202 and 218 µs. MERGE phase A's closes every
serving merge that has no cut, phase B's every one whose shell is not merged, and a training token's is never closed. Out of its place a
deadline does nothing. -/
def Obligations.DeadlinesCloseTheirPhase : Prop :=
  ((List.range 6).map (fun k => phaseEnd 4000 (k + 1)) = [3500000, 3562500, 3625000, 3812500, 3875000, 4000000]
    ∧ (List.range 6).map (fun k => phaseEnd 250 (k + 1)) = [122000, 138000, 154000, 202000, 218000, 250000])
  ∧ (∀ (k : Nat) (s : State), (reach k s).timer = max s.timer (s.step.tickAt + phaseEnd s.step.period k))
  ∧ ∀ s : State, s.step.opened = true → s.step.stamped = false →
    let shut := fun (ok : Merge → Bool) (m : Merge) => if m.key.train || ok m then m else { m with closed := true }
    (s.step.phase = 0 → ∃ u, exec .ingestDeadline s = .next (streamsGo u) ∧ u.step = { s.step with phase := 1 } ∧ u.timer = (reach 1 s).timer
      ∧ u = { s with step := u.step, timer := u.timer, reqs := u.reqs, link := u.link, tele := u.tele, cnt := u.cnt }
      ∧ ((∀ r ∈ s.rows, r.useStep ≠ s.step.step) → u.reqs = s.reqs ∧ u.link = s.link))
    ∧ (s.step.phase = 1 → ∃ t, exec .sieveDeadline s = .next t
      ∧ t = { s with step := { s.step with phase := 2 }, timer := (reach 2 s).timer, tele := t.tele, cnt := t.cnt })
    ∧ (s.step.phase = 2 → ∃ t, exec .mergeADeadline s = .next t ∧ t.merges = s.merges.map (shut fun m => m.cut.isSome)
      ∧ t = { s with step := { s.step with phase := 3 }, timer := (reach 3 s).timer, merges := t.merges, tele := t.tele, cnt := t.cnt })
    ∧ (s.step.phase = 3 → ∃ t, exec .mergeBDeadline s = .next t ∧ t.merges = s.merges.map (shut fun m => m.sentB)
      ∧ t = { s with step := { s.step with phase := 4 }, timer := (reach 4 s).timer, merges := t.merges, tele := t.tele, cnt := t.cnt })
    ∧ (s.step.phase = 4 → ∃ t, exec .drawDeadline s = .next t
      ∧ t = { s with step := { s.step with phase := 5 }, timer := (reach 5 s).timer, tele := t.tele, cnt := t.cnt })
    ∧ (s.step.phase ≠ 0 → exec .ingestDeadline s = .next s) ∧ (s.step.phase ≠ 1 → exec .sieveDeadline s = .next s)
    ∧ (s.step.phase ≠ 2 → exec .mergeADeadline s = .next s) ∧ (s.step.phase ≠ 3 → exec .mergeBDeadline s = .next s)
    ∧ (s.step.phase ≠ 4 → exec .drawDeadline s = .next s)

/-- The commit stamp (R57 to R59, R66, R378): the tick master floods COMMIT for the open step; a slice stamps the step it has open, and no
other; an acknowledgement is struck off, and the last of a slipped step lets the next TICK out and counts the slip; a slice repeats its
own until the next TICK. A request homed here that reaches the eighth LATE stamp or the 256th stall is PAUSED, or fares as R249 to R251 say
where it has no allowance; short of its limit a limit does nothing. -/
def Obligations.CommitsAreAcknowledged : Prop :=
  ∀ (m : CommitMsg) (n src q : Nat) (s : State),
    (tickMaster s = me s → s.step.opened = true → s.step.stamped = false → s.group.regroup = none →
      exec .commitEmit s = .next (flood (.commit ⟨s.step.step, me s⟩) (reach 5 s)))
    ∧ ((tickMaster s ≠ me s ∨ s.step.opened = false ∨ s.step.stamped = true) → exec .commitEmit s = .next s)
    ∧ (s.step.opened = true → s.step.stamped = false → m.step = s.step.step → s.group.regroup = none → publishing s = false →
      exec (.commit m) s = .next (commitStamp m.step s))
    ∧ ((s.step.opened = false ∨ s.step.stamped = true ∨ m.step ≠ s.step.step) → exec (.commit m) s = .next s)
    ∧ (tickMaster s = me s → n = s.step.emittedStep → s.step.slipSince = none →
      exec (.commitAck n src) s = .next { s with step := { s.step with acksDue := s.step.acksDue.erase src } })
    ∧ (∀ t, tickMaster s = me s → n = s.step.emittedStep → s.step.slipSince = some t → s.step.acksDue.erase src = [] → s.group.regroup = none →
      ∃ u, exec (.commitAck n src) s = .next u ∧ u.step.emittedStep = n + 1 ∧ u.step.slipSince = none ∧ u.step.acksDue = members s
        ∧ u.cnt.tickSlips = s.cnt.tickSlips + 1 ∧ u.cnt.tickSlipUs = s.cnt.tickSlipUs + BitVec.ofNat 32 ((s.timer - t) / 1000)
        ∧ u = { s with step := u.step, link := u.link, cnt := u.cnt })
    ∧ ((tickMaster s ≠ me s ∨ n ≠ s.step.emittedStep) → exec (.commitAck n src) s = .next s)
    ∧ (s.step.acking = true → s.step.stamped = true →
      exec .commitAckResend s = .next (send (tickMaster s) (.commitAck s.step.step (me s)) s))
    ∧ (s.step.acking = false → exec .commitAckResend s = .next s)
    ∧ (∀ e, reqOf s q = some e → homedHere s e = true → s.step.opened = true → scrubbing s e.info.part = false →
      (e.state = .late → e.lateCount = 7 → exec (.lateLimit q) s
          = .next (fixFate s.step.step false [] none e (if e.allowance = 0 then rowFate s.timer s.step.step none e else lateEnd e) s))
      ∧ (e.lateCount < 7 → exec (.lateLimit q) s = .next s)
      ∧ (e.stallSteps = 255 → e.state.takesRows = true → exec (.ringStallLimit q) s
          = .next (fixFate s.step.step false [] none e (if e.allowance = 0 then rowFate s.timer s.step.step none e else stallEnd e) s))
      ∧ (e.stallSteps < 255 → exec (.ringStallLimit q) s = .next s))

/-- A record of a merge phase from a child of one of this slice's nodes (R184, R185, R189): one that fits joins its node's records in
ascending slice number, and once the node has every record its combination goes to the parent, once; a stale or second record is counted
and changes nothing else; an edge or a cut that fits is applied at this slice's nodes. A parity error of Pip meets a record before it acts: it
is counted, and marks the serving merges of its row as spoilt (R179). -/
def Obligations.MergeRecordsClimbTheTree : Prop :=
  ∀ (src n : Nat) (k : RowKey) (s : State), nodeFor s k src = some n → scrubRow s k = false →
    let put := fun {α : Type} (r : α) (l : List (Nat × α)) => insertBy (fun (a b : Nat × α) => a.1 < b.1) (src, r) l
    (∀ r : MaSum, r.key = k → fits s k r.step16 = true → (k.train = true ∨ s.step.phase < 3) →
      (∀ m, mergeAt s k n = some m → m.closed = false ∧ m.sentA = false ∧ (∀ x ∈ m.kidsA, x.1 ≠ src)) →
      exec (.maSum src ⟨r, .none⟩) s = .next (advanceA k 130 n (updMergeAt k n (fun m => { m with kidsA := put r m.kidsA }) s)))
    ∧ (∀ r : MaSum, r.key = k → fits s k r.step16 = false → exec (.maSum src ⟨r, .none⟩) s = .next { s with cnt := { s.cnt with mergeStale := s.cnt.mergeStale + 1 } })
    ∧ (∀ r : MbShell, r.key = k → fits s k r.step16 = true → (k.train = true ∨ s.step.phase < 4) →
      (∀ m, mergeAt s k n = some m → m.closed = false ∧ m.sentB = false ∧ (∀ x ∈ m.kidsB, x.1 ≠ src)) →
      exec (.mbShell src ⟨r, .none⟩) s = .next (advanceB k 130 n (updMergeAt k n (fun m => { m with kidsB := put r m.kidsB }) s)))
    ∧ (∀ (r : MbShell) m, r.key = k → mergeAt s k n = some m → (∃ x ∈ m.kidsB, x.1 = src) →
      exec (.mbShell src ⟨r, .none⟩) s = .next { s with cnt := { s.cnt with mergeStale := s.cnt.mergeStale + 1 } })
    ∧ (∀ r : MdDraw, r.key = k → fits s k r.step16 = true →
      (∀ m, mergeAt s k n = some m → m.closed = false ∧ m.sentD = false ∧ (∀ x ∈ m.kidsD, x.1 ≠ src)) →
      exec (.mdDraw src r) s = .next (advanceD k 130 n (updMergeAt k n (fun m => { m with kidsD := put r m.kidsD }) s)))
    ∧ (∀ (m : Merge) p f, mergeAt s k n = some m → m.closed = false → m.sentA = false → (n ≠ me s ∨ m.ownA.isSome = true) →
      (∀ c ∈ dueKids s k n, ∃ x ∈ m.kidsA, x.1 = c) → parentAt s k n = some p → playerOf s p ≠ me s →
      advanceA k (f + 1) n s = send p (.maSum n (nodeSum m)) (updMergeAt k n (fun m => { m with sentA := true }) s)
        ∧ advanceA k (f + 1) n (advanceA k (f + 1) n s) = advanceA k (f + 1) n s)
    ∧ (∀ c : MaCut, c.key = k → k.train = false → fits s k c.step16 = true → (∃ m ∈ s.merges, m.key = k ∧ m.closed = false ∧ m.cut = none) →
      exec (.maCut c .none) s = .next (applyCut c s))
    ∧ (∀ e : MbEdge, e.key = k → fits s k e.step16 = true → (∃ m ∈ s.merges, m.key = k ∧ m.closed = false ∧ m.edge = none) →
      exec (.mbEdge e .none) s = .next (applyEdge e s))
    ∧ (∀ (f : PipFault) (a : MaSum) (b : MbShell) (c : MaCut) (e : MbEdge),
      exec (.maSum src ⟨a, f⟩) s = exec (.maSum src ⟨a, .none⟩) (pipParity a.key f s) ∧ exec (.mbShell src ⟨b, f⟩) s = exec (.mbShell src ⟨b, .none⟩) (pipParity b.key f s)
      ∧ exec (.maCut c f) s = exec (.maCut c .none) (pipParity c.key f s) ∧ exec (.mbEdge e f) s = exec (.mbEdge e .none) (pipParity e.key f s))
    ∧ (∀ f, f ≠ .none → (∃ m ∈ s.merges, m.key = k ∧ m.closed = false) → (pipParity k f s).cnt.pipParity = s.cnt.pipParity + 1
      ∧ (pipParity k f s).merges = s.merges.map fun m => if k.train = false ∧ m.key = k then { m with spoilt := true } else m)

/-- Passes and sieving (R24, R80, R111, R128, R182, R188, R411): a pass within the limits of R79 adds its strips to the rows of its tile and
resets its pan's idle count, and a mismatch fences the pan and adds no score; a row whose strips have all passed is summarised once, its
summary and capture take their places of the shell area, and its record starts phase A, unless the area is full; a slice that needs no row
sends the neutral record; a row that is sieved already is not sieved again. -/
def Obligations.PassesScoreRows : Prop :=
  (∀ (p : PassInfo) (tag : Nat × Nat) (h : Head) (s : State), p.rows.head?.bind (passTag s) = some tag → headOf s tag.1 = some h →
    passOk s p tag h = true →
    (p.mismatch = true → ∃ u, exec (.passDone p) s = .next (fencePan p.pan u) ∧ u.power = { s.power with idle := s.power.idle.set p.pan 0 }
      ∧ u = { s with power := u.power, tele := u.tele })
    ∧ (p.mismatch = false → ∃ u, exec (.passDone p) s = .next (streamGo tag.1 u) ∧ u.power = { s.power with idle := s.power.idle.set p.pan 0 }
      ∧ u.rows = s.rows.map (fun r => if p.rows.contains (rowKeyOf r) && r.kind = 0 && r.useStep = s.step.step then
          { r with passed := p.strips.foldl addOnce r.passed } else r)
      ∧ u.place.trained = (if p.rows.any (·.train) then
          (p.strips.map fun f => (⟨tag.1, 0, f⟩ : StripId)).foldl addOnce s.place.trained else s.place.trained)
      ∧ u = { s with rows := u.rows, power := u.power, place := { s.place with heat := u.place.heat, trained := u.place.trained },
                     tele := u.tele, cnt := u.cnt }))
  ∧ ∀ (k : RowKey) (s : State), k.train = false →
    (∀ r e, rowOf s k = some r → takesPart s k (me s) = true → reqOf s k.id = some e → r.rescore = 0 → r.sieved = false →
      passesDone s r = true → mayScore s r e = true →
      let masses := usesMasses e.info.settings
      let valid := validOf (finalScores s r e)
      let sum := summarise e.info.epoch e.pred masses (me s) valid
      let n := summaryPlaces sum + capturedCount e.pred.gap valid
      ∃ u, u.rows = updFirst (fun x => rowKeyOf x == k && x.useStep == r.useStep) (fun x => { x with sieved := true }) s.rows
        ∧ u.merges = (updMergeAt k (me s) (fun m => { m with summary := some sum }) s).merges
        ∧ u.cnt.rowsScored = s.cnt.rowsScored + 1 ∧ u.pot = { s.pot with shellUsed := min 1048576 (s.pot.shellUsed + n) }
        ∧ u = { s with rows := u.rows, merges := u.merges, cnt := u.cnt, pot := u.pot, tele := u.tele }
        ∧ (s.pot.shellUsed + n ≤ 1048576 → exec (.rowSieved ⟨k, .none⟩) s = .next (advanceA k 130 (me s) (updMergeAt k (me s)
            (fun m => { m with ownA := some (ownA k (step16 s) masses (treeDigest r) sum), places := summaryPlaces sum }) u)))
        ∧ (1048576 < s.pot.shellUsed + n → exec (.rowSieved ⟨k, .none⟩) s = .next (shellFull k u)))
    ∧ (takesPart s k (me s) = false → (reqOf s k.id).isSome = true → s.step.opened = true →
      s.step.stamped = false → (∀ m, mergeAt s k (me s) = some m → m.ownA = none) → exec (.rowSieved ⟨k, .none⟩) s
        = .next (advanceA k 130 (me s) (updMergeAt k (me s) (fun m => { m with ownA := some { neutralA k (step16 s) with failed := false } }) s)))
    ∧ (∀ r, rowOf s k = some r → takesPart s k (me s) = true → r.sieved = true → r.rescore = 0 → exec (.rowSieved ⟨k, .none⟩) s = .next s)
    ∧ (∀ f, exec (.rowSieved ⟨k, f⟩) s = exec (.rowSieved ⟨k, .none⟩) (sieveParity k f s))

/-! ## Training -/

/-- Training records (R199, R201, R271, R275 to R281, R290): a member's sum joins the gathered ones once and a second is stale, and a norm's that
comes before this slice has applied the norm is kept; RS_BEGIN opens the port's stream and a raw flit's elements take their places in it; a
slot that is not complete does nothing; a backward slot reads its accumulators before it writes them, unless it is the first since the
update; an update slot whose banks have been read is told to the holder where the slice has no strips; a pass of a prune's selection leads to
its next pass, or ends it. -/
def Obligations.TrainingRecordsAreGathered : Prop :=
  ∀ (src port : Nat) (r : TrSum) (b : RsBegin) (form : RsForm) (body : Bytes) (s : State),
    (∀ m, r.norm = false → microOf s r.seq = some m → m.fwdCommitted = false → (∀ x ∈ m.gathered, x.1 ≠ src) →
      exec (.trSum src r) s = .next (lossGather r.seq (updMicro r.seq (fun m => { m with gathered := m.gathered ++ [(src, r)] }) s)))
    ∧ (∀ m, r.norm = false → microOf s r.seq = some m → (∃ x ∈ m.gathered, x.1 = src) →
      exec (.trSum src r) s = .next { s with cnt := { s.cnt with mergeStale := s.cnt.mergeStale + 1 } })
    ∧ (∀ t, r.norm = true → s.training = some t → (∀ x ∈ t.normSums, x.1 ≠ src) →
      (t.normBusy = true →
        exec (.trSum src r) s = .next (normGather { s with training := some { t with normSums := t.normSums ++ [(src, r)] } }))
      ∧ (t.normBusy = false → exec (.trSum src r) s = .next { s with training := some { t with normSums := t.normSums ++ [(src, r)] } }))
    ∧ (port < s.link.ports.length → ∃ t, exec (.rsBegin port b) s = .next t ∧ (portOf t port).rsOpen = some b ∧ (portOf t port).rsElems = 0
      ∧ (∀ n, n ≠ port → portOf t n = portOf s n) ∧ t = { s with link := { s.link with ports := t.link.ports } })
    ∧ (port < s.link.ports.length → (portOf s port).rsOpen = none → exec (.rsFlit port form body) s = .next s)
    ∧ (port < s.link.ports.length → (portOf s port).rsOpen = some b → (portOf s port).rsElems + (flitElems form body).length < b.elements →
      ∃ u, exec (.rsFlit port form body) s = .next (gradsAdvance u) ∧ (portOf u port).rsOpen = some b
        ∧ (portOf u port).rsElems = (portOf s port).rsElems + (flitElems form body).length
        ∧ u = { s with link := u.link, training := u.training })
    ∧ (∀ t m, s.training = some t → forwardMicro s = some m → slotsHeld s = false → m.fwdCommitted = false → m.ownSum = none →
      forwardComplete s m = true → ownTokens s m = [] → exec .forwardSlotDone s
        = .next (lossGather m.desc.seq (updMicro m.desc.seq (fun m => { m with ownSum := some (ownLosses m []) }) s)))
    ∧ (∀ t m, s.training = some t → forwardMicro s = some m → forwardComplete s m = false → exec .forwardSlotDone s = .next s)
    ∧ (∀ t m h, s.training = some t → backwardMicro s = some m → headOf s t.part = some h →
      let asked := updMicro m.desc.seq (fun m => { m with accAsked := true }) s
      (m.accAsked = false → backwardOver s t h m = true → (∀ x ∈ t.micros, x.bwdWritten = false) → m.growing = false →
        (shareHdr h.strips = none → exec (.backwardSlotDone m.desc.seq) s = .next (tellHolder .backward m.desc.seq (backwardReady m.desc.seq)
          (updMicro m.desc.seq (fun m => { m with bwdWritten := true }) asked)))
        ∧ (∀ d, shareHdr h.strips = some d → slotNumber t = 0 → exec (.backwardSlotDone m.desc.seq) s = .next (writeAccs t h d m asked))
        ∧ (∀ d, shareHdr h.strips = some d → slotNumber t ≠ 0 → exec (.backwardSlotDone m.desc.seq) s = .next
            (readBank t t.desc.gaccBase (slotNumber t % 2) 4 d (cellsOf h.strips) (.bankAcc (some m.desc.seq)) asked)))
      ∧ ((m.accAsked = true ∨ backwardOver s t h m = false) → exec (.backwardSlotDone m.desc.seq) s = .next s)
      ∧ (∀ q, m.desc.seq ≠ q → exec (.backwardSlotDone q) s = .next s))
    ∧ (∀ t a h, s.training = some t → t.updating = some a → headOf s t.part = some h → slotsHeld s = false → t.updWritten = false →
      h.rebuilding = [] →
      let named := Instr.updateSlotDone t.part t.sessionNo t.updates ((t.updates + 1) % 2)
      (slotsRead t.updAcc (cellsOf h.strips) = true → slotsRead t.updState (cellsOf (stateStrips h)) = true → shareHdr h.strips = none →
        exec named s = .next (tellHolder .update 0 updateReady { s with training := some { t with updWritten := true } }))
      ∧ ((slotsRead t.updAcc (cellsOf h.strips) = false ∨ slotsRead t.updState (cellsOf (stateStrips h)) = false) →
        exec named s = .next s)
      ∧ (∀ p n u b, runsUpdate p n u b s = false → exec (.updateSlotDone p n u b) s = .next s))
    ∧ (∀ p o x h t sel, planOf s p = some x → headOf s p = some h → s.training = some t → x.select = some sel → sel.top = false →
      let r := selectPass sel (pruneCands x.tile (vocab s) h.strips) o
      (∀ y, r.next = some y →
        exec (.largeSelectPass p o) s = .next { s with plans := updFirst (fun x => x.part == p) (fun x => { x with select := some y }) s.plans })
      ∧ (r.next = none → exec (.largeSelectPass p o) s
        = .next (selectEnds p (if sel.grp then r else { r with count := r.taken.length + o.unitCount }) s)))
    ∧ (s.training = none →
      exec .forwardSlotDone s = .next s ∧ (∀ q, exec (.backwardSlotDone q) s = .next s) ∧ (∀ p n u b, exec (.updateSlotDone p n u b) s = .next s))

/-! ## Records between slices -/

/-- Messages between the slices of a group (R244, R260, R322, R394, R395, R414, R422): a change announced for a step is held until PUBLISH of
that step, one of a hole or of this slice itself is not heard, the end of a member's announcements of a later step is noted, a jar share
joins its request's under its sender, or under 64 where its records lie in runs that come to this slice, a range table is stored and told
to the members, a delta's commands are kept and acknowledged at once, the whole delta of a step makes its sender the kept slice and its
commands of earlier steps go, an acknowledgement of a command accepts it, and a scrub's report is counted once. -/
def Obligations.SlicesKeepEachOthersRecords : Prop :=
  ∀ (src n q p : Nat) (s : State),
    (src ≠ me s → s.group.formed = true → isHole s src = false →
      (∀ o, exec (.stateSync ⟨src, n, .outcome o⟩) s = .next { s with held := s.held ++ [⟨src, n, .outcome o⟩] })
      ∧ (∀ u x, exec (.stateSync ⟨src, n, .tenant u x⟩) s = .next { s with held := s.held ++ [⟨src, n, .tenant u x⟩] })
      ∧ (s.step.step < n → exec (.stateSync ⟨src, n, .stepEnd⟩) s = .next { s with step := { s.step with ended := addOnce s.step.ended src } }))
    ∧ ((src = me s ∨ s.group.formed = false ∨ isHole s src = true) →
      (∀ o, exec (.stateSync ⟨src, n, .outcome o⟩) s = .next s) ∧ (∀ u x, exec (.stateSync ⟨src, n, .tenant u x⟩) s = .next s)
      ∧ exec (.stateSync ⟨src, n, .stepEnd⟩) s = .next s)
    ∧ (∀ (l : List ChunkRec),
      let moves := comingRuns s ≠ [] ∧ ∀ r ∈ l, inRuns (comingRuns s) (256 * r.chunk) = true
      let joins := fun (mark : Nat) => exec (.jarShare src q l) s = .next (updReq q (fun e => { e with shares := e.shares ++ [(mark, l)] }) s)
      (moves → joins 64) ∧ (¬ moves → joins src))
    ∧ (∀ v tab, ∃ t, exec (.range v tab) s = .next t ∧ t.group.nextTable = some (v, tab) ∧ me s ∈ t.group.nextStored
      ∧ (others s ≠ [] → t.link.out = s.link.out ++ [⟨none, .stateSync ⟨me s, stepNow s, .rangeStored⟩⟩])
      ∧ t = { s with group := { s.group with nextTable := t.group.nextTable, nextStored := t.group.nextStored }, link := t.link })
    ∧ (∀ x : DeltaEntry, x.kind = .command → s.keeper.source = src → exec (.huskDelta ⟨src, n, false, [x]⟩) s
        = .next (send src (.huskDeltaAck n) { s with keeper := { s.keeper with commands := s.keeper.commands ++ [(n, x)] } }))
    ∧ (s.keeper.source = src → exec (.huskDelta ⟨src, n, true, []⟩) s
        = .next (ackDeltas { s with keeper := { s.keeper with ackDue := s.keeper.ackDue ++ [(src, n)], kept := src
                                                              commands := s.keeper.commands.filter (keepsCommand n) } }))
    ∧ (∀ l last, s.keeper.source ≠ src → exec (.huskDelta ⟨src, n, last, l⟩) s
        = exec (.huskDelta ⟨src, n, last, l⟩)
            { s with keeper := { s.keeper with source := src, kept := 64, marks := [], commands := [], ackedStep := 0 } })
    ∧ (∀ rest x l, keeperOf s (me s) = some src → s.keeper.unacked = (n, true) :: rest → s.eocia.awaitAck = x :: l → readsOnly x.1 = false →
      (∀ y ∈ l.head?, readsOnly y.1 = false) → exec (.huskDeltaAck src n) s
        = .next (runOp x.1 x.2 { s with keeper := { s.keeper with unacked := rest }, eocia := { s.eocia with awaitAck := l } }))
    ∧ (keeperOf s (me s) ≠ some src → exec (.huskDeltaAck src n) s = .next s)
    ∧ ((∀ u ∈ s.keeper.unacked, u.1 ≠ n) → exec (.huskDeltaAck src n) s = .next s)
    ∧ ((s.sec.kills.find? fun k => k.part == p) = none → exec (.partScrubDone src p) s = .next s)
    ∧ (∀ k, (s.sec.kills.find? fun k => k.part == p) = some k →
      (k.reported.contains src = true → exec (.partScrubDone src p) s = .next s)
      ∧ (k.reported.contains src = false → src ≠ me s →
        exec (.partScrubDone src p) s = .next (checkKills { s with sec := { s.sec with
          kills := updFirst (fun k => k.part == p) (fun k => { k with reported := addOnce k.reported src }) s.sec.kills } })))

/-! ## Formation and the loss of members -/

/-- Formation (R13, R382, R383, R399, R400, R453): HELLO is heard only in HELLO and needs a common protocol; a proposal with this slice's
number is refused, and any other is kept as its slice's newest; COMMIT is refused by a slice that is not ready; a refusal ends the
attempt with an alarm; key sets of another root key are refused; a formed group hears no proposal, COMMIT,
refusal or key set. -/
def Obligations.GroupsForm : Prop :=
  ∀ (b : FormBody) (n f slice : Nat) (r : FormReason) (k : WrappedKeys) (h : Hello) (s : State),
    ((portOf s n).session ≠ .hello → exec (.hello n h) s = .next s)
    ∧ (n < 4 → (portOf s n).session = .hello → min 3 h.protoMax < max 2 h.protoMin → exec (.hello n h) s = .next (leaveActive n .down
        (alarm 0x19 (BitVec.ofNat 64 (n + h.protoMin * 2 ^ 8 + h.protoMax * 2 ^ 16 + h.iface * 2 ^ 24)) s)))
    ∧ (n < 4 → (portOf s n).session = .hello → max 2 h.protoMin ≤ min 3 h.protoMax → helloDone (helloOk n h s) n = true →
        (helloOk n h s).group.formed = false → portsReady (helloOk n h s) = false →
        exec (.hello n h) s = .next (linkSend n (linkStart (helloOk n h s))))
    ∧ (s.group.formed = true → exec (.formPropose b) s = .next s ∧ exec (.formCommit f) s = .next s ∧ exec (.formRefuse slice r) s = .next s
        ∧ exec (.formKeys k) s = .next s ∧ exec .proposeRetry s = .next s ∧ exec .formWait s = .next s)
    ∧ (s.group.formed = false →
      (b.slice = me s → exec (.formPropose b) s = .next (formEnds (me s) .duplicate (floodForm (.formRefuse .duplicate) s)))
      ∧ (b.slice ≠ me s → me s ≠ 0 → exec (.formPropose b) s = .next { s with group := { s.group with
          proposals := s.group.proposals.filter (fun x => x.slice != b.slice) ++ [b]
          peers := s.group.peers.filter (fun p => p.slice != b.slice) ++ [⟨b.slice, b.iface, b.epochs, b.features⟩] } })
      ∧ ((ownForm s).ready = false → exec (.formCommit f) s = .next (formEnds (me s) .missing (floodForm (.formRefuse .missing) s)))
      ∧ ((ownForm s).ready = true → portsReady s = true → ∃ u, exec (.formCommit f) s = .next (formTickDue (formKeysMade u))
        ∧ u.group = { s.group with formId := f, lastForm := f, forming := some ⟨f, [], []⟩ } ∧ u.step = { StepSt.reset with period := u.regs.stepPeriod })
      ∧ (s.group.forming = none → ∃ t, exec (.formRefuse slice r) s = .next t ∧ t.group = { s.group with proposals := [], numbered := false }
        ∧ t.regs.irqStatus = s.regs.irqStatus ||| 1 ∧ (∃ a ∈ t.tele.alarms, a.code = 0x1A)
        ∧ t = { s with group := t.group, tele := t.tele, cnt := t.cnt, regs := { s.regs with irqStatus := t.regs.irqStatus } })
      ∧ (∀ x, s.group.forming ≠ none → unwrapKeys s k = some x → exec (.formKeys k) s = .next (formTickDue (keyTaken k.part (putKeys x s))))
      ∧ (s.group.forming ≠ none → unwrapKeys s k = none → exec (.formKeys k) s = .next (refuse .rootKey (keysArrive k s)))
      ∧ (let w := wireCheck (takeNumbers { s with group := { s.group with numbered := false } })
        s.group.forming = none → portsReady w = true → 1 ≤ formSize w → formSize w ≤ 64 →
        exec .proposeRetry s = .next (coordinate (keepProposal (ownForm w) (floodForm (.formPropose (ownForm w)) w))))
      ∧ (me s = 0 → absent s ≠ [] → exec .formWait s = .next (alarm 0x1B (BitVec.ofNat 64 (total ((absent s).map fun n => 2 ^ n))) s)))
    ∧ (∀ g, s.group.forming = some g → me s ≠ 0 → exec (.formDone n) s
        = .next { s with group := { s.group with forming := some { g with done := addOnce g.done n } } })
    ∧ (s.group.forming = none → exec (.formDone n) s = .next s)

/-- Liveness (R388, R412, R422, R424, R427): a member's HEARTBEAT is dated, this slice's own is sent unless it has fallen silent, the loss of a
member that another slice keeps takes it out of the members, and one that this slice keeps starts the regroup; a slice that the others
name in GEOMETRY_FAULT for 8 steps is expelled, this slice by falling silent. -/
def Obligations.MembersAreWatched : Prop :=
  ∀ (n k : Nat) (s : State),
    (s.group.formed = true → n ≠ me s → n ∈ members s → exec (.heartbeat n k) s
      = .next { s with group := { s.group with seen := s.group.seen.filter (fun x => x.1 != n) ++ [(n, s.timer)] } })
    ∧ ((s.group.formed = false ∨ n = me s ∨ n ∉ members s) → exec (.heartbeat n k) s = .next s ∧ declareLost n s = s)
    ∧ (s.group.formed = true → s.group.silent = false → exec .heartbeatSend s = .next (flood (.heartbeat (me s) s.step.step) s))
    ∧ ((s.group.formed = false ∨ s.group.silent = true) → exec .heartbeatSend s = .next s)
    ∧ (s.group.formed = true → n ≠ me s → n ∈ members s → nextMember s n ≠ some (me s) → s.group.regroup = none → publishing s = false →
      ∃ t, exec (.sliceLost n) s = .next t ∧ t.group = { s.group with holes := ascending (addOnce s.group.holes n), seen := s.group.seen.filter fun x => x.1 != n }
        ∧ t.step = { s.step with acksDue := s.step.acksDue.erase n } ∧ t.regs.irqStatus = s.regs.irqStatus ||| 1
        ∧ t = { s with group := t.group, step := t.step, tele := t.tele, cnt := t.cnt, regs := { s.regs with irqStatus := t.regs.irqStatus } })
    ∧ (s.group.formed = true → n ≠ me s → n ∈ members s → nextMember s n = some (me s) → s.keeper.kept = n →
      ∃ u, declareLost n s = beginRegroup n (s.group.formId + 1) (flood (.regroup (.start n (s.group.formId + 1))) u)
        ∧ u = { s with tele := u.tele, cnt := u.cnt, regs := { s.regs with irqStatus := u.regs.irqStatus } })
    ∧ (s.group.formed = true → exec (.regroup .failAll) s = .next { s with group := { s.group with failAll := true } })
    ∧ (∀ q, s.group.formed = true → exec (.regroup (.lostLine q)) s = .next (updReq q (fun e => { e with lost := true }) s))
    ∧ (∀ m, s.group.formed = false → exec (.regroup m) s = .next s)
    ∧ (s.group.regroup = none → exec .takeoverDone s = .next s)
    ∧ (∀ r, s.group.regroup = some r → r.phase = .resume → tickMaster s = me s → exec .takeoverDone s = .next (emitTick (r.top + 1) s))
    ∧ (s.group.formed = true → (∃ x ∈ s.group.geomFaults, x.1 = n ∧ 8 ≤ x.2) → n = me s → exec (.expel n) s
      = .next { s with group := { s.group with silent := true, geomFaults := s.group.geomFaults.filter fun x => x.1 != n } })
    ∧ (s.group.formed = true → (∃ x ∈ s.group.geomFaults, x.1 = n ∧ 8 ≤ x.2) → n ≠ me s → exec (.expel n) s
      = exec (.sliceLost n) { s with group := { s.group with geomFaults := s.group.geomFaults.filter fun x => x.1 != n } })
    ∧ ((∀ x ∈ s.group.geomFaults, x.1 = n → x.2 < 8) → exec (.expel n) s = .next s)

/-! ## The link -/

/-- Lanes and sessions of a port (R369, R372, R383, R387, R451): a flit whose FEC or CRC fails draws one NAK and nothing of it acts; a
replay is due while a live port has flits to replay; a lane that fails leaves the port on the other one, with an alarm; a lane that
locks joins a session that is up; training and retraining that fail end DOWN; a DOWN port that is fitted and powered trains. -/
def Obligations.LinkEventsMoveTheSession : Prop :=
  ∀ (n lane : Nat) (b : Bytes) (s : State), n < s.link.ports.length →
    let p := portOf s n
    let up := p.session = .active ∨ p.session = .hello
    (∀ ok, ¬ up → exec (.linkFlit n lane b ok) s = .next s)
    ∧ (∀ ok, up → p.lanes.getD lane false = true → (ok = false ∨ b.length ≠ 256 ∨ (crc32 (b.take 252)).toNat ≠ leAt b 252 4) →
      exec (.linkFlit n lane b ok) s = .next (linkSend n (updPort n nakOnce (linkStart s))))
    ∧ (∀ w k, up → p.lanes.getD lane false = true → b.length = 256 → (crc32 (b.take 252)).toNat = leAt b 252 4 → w = leAt b 0 4 → k = leAt b 4 4 →
      bitOf w 2 = true → bitOf k 24 = false → exec (.linkFlit n lane b true) s
        = .next (linkSend n (updPort n (fun p => takeCredits (leAt b 8 4) (takeAck (field k 12 12) p)) (linkStart s))))
    ∧ (p.session = .active → p.replay ≠ [] → exec (.replayTimeout n) s = .next (linkSend n (replayPort n (linkStart s))))
    ∧ ((p.session ≠ .active ∨ p.replay = []) → exec (.replayTimeout n) s = .next s)
    ∧ (up → p.lanes.getD lane false = true → (setLane n lane false s |> fun s => (portOf s n).lanes.any id) = true →
      exec (.laneFail n lane) s = .next (linkSend n (replayPort n (linkStart (alarm 0x17 (BitVec.twoPow 64 (2 * n + lane)) (setLane n lane false s))))))
    ∧ (exec (.laneSilence n lane) s = exec (.laneFail n lane) s)
    ∧ (up → laneFitted s n lane = true → exec (.laneLock n lane) s = .next (setLane n lane true s))
    ∧ (p.session = .train → laneFitted s n lane = true → exec (.laneLock n lane) s = .next (enterHello n (setLane n lane true s)))
    ∧ (p.session = .train → exec (.trainTimeout n) s = .next (setSession n .down s))
    ∧ (p.session = .retrain → exec (.retrainTimeout n) s = .next (setSession n .down (alarm 0x18 (BitVec.twoPow 64 n) s)))
    ∧ (p.session = .down → p.fitted = true → s.power.on.getLsbD (136 + n) = true →
      (eociaRuns s = true → exec (.portRetry n) s = .next (setSession n .train s))
      ∧ (s.group.formed = false → pastBoot s = true → exec (.trainingSignal n) s = .next (setSession n .train s)))
    ∧ (p.session ≠ .down → exec (.portRetry n) s = .next s ∧ exec (.trainingSignal n) s = .next s)
    ∧ (p.lanes.getD lane false = true → p.marginAlarm.getD lane true = false → ∃ t, exec (.blMargin n lane) s = .next t
      ∧ (portOf t n) = { p with marginAlarm := p.marginAlarm.set lane true } ∧ (∃ a ∈ t.tele.alarms, a.code = 0x15)
      ∧ t = { s with link := t.link, tele := t.tele, cnt := t.cnt, regs := { s.regs with irqStatus := t.regs.irqStatus } })
    ∧ (∀ x, (portOf (setSession n x s) n) = { p with session := x } ∧ ∀ k, k ≠ n → portOf (setSession n x s) k = portOf s k)

/-! ## Storage, Whisk, reset and power -/

/-- Reset, boot and faults of Whisk (R404, R409, R438, R445, R447, R448): RST_N leaves the reset state but for the fuses; a boot image runs
only if every check of R404 passes, and otherwise Whisk stays in boot hold with BOOT_FAIL; a watchdog or a trap restarts Whisk unless it
is halted, and what was issued and not accepted then answers BUSY, and accepted commands go on. -/
def Obligations.WhiskBootsAndRestarts : Prop :=
  ∀ (straps : BitVec 19) (img : Bytes) (second : Bool) (s : State),
    (let t := { State.afterReset s.kit straps s.sec.fuses with fresh := s.fresh, pending := s.pending };
      exec (.reset straps) s = .next (if t.group.size = 0 ∨ 64 < t.group.size then alarm 0x1C (straps.setWidth 64) t else t))
    ∧ (exec .rstNAssert s = .next { State.afterReset s.kit s.straps s.sec.fuses with fresh := s.fresh, pending := s.pending, inReset := true })
    ∧ (s.whisk = .booting second → s.inReset = false → imageFault s img = none → exec (.bootCheck img) s = .next (eociaStarts img s))
    ∧ (∀ n, s.whisk = .booting second → s.inReset = false → imageFault s img = some n → (secondImage s = false ∨ second = true) →
      ∃ t, exec (.bootCheck img) s = .next t ∧ t.whisk = .hold ∧ (∃ a ∈ t.tele.alarms, a.code = 0x20)
        ∧ t = { s with whisk := .hold, tele := t.tele, cnt := t.cnt, regs := { s.regs with irqStatus := t.regs.irqStatus } })
    ∧ (∀ n, s.whisk = .booting false → s.inReset = false → imageFault s img = some n → secondImage s = true →
      exec (.bootCheck img) s = .next { s with whisk := .booting true })
    ∧ (eociaRuns s = true → exec .watchdogExpiry s = .next (whiskFault 0 s) ∧ exec .whiskTrap s = .next (whiskFault 1 s)
      ∧ ∃ u, whiskFault 0 s = eociaResumes u ∧ u.whisk = .restarting 0 false ∧ u.eocia.inbox = [] ∧ u.eocia.awaitAck = [] ∧ u.eocia.deferred = s.eocia.deferred
          ∧ u.eocia.ready = s.eocia.ready ++ (s.eocia.inbox ++ s.eocia.awaitAck).map (fun x => (x.1, x.2, Status.busy.code, [])))
    ∧ (s.dbg.halted.getLsbD 0 = true → exec .watchdogExpiry s = .next s ∧ exec .whiskTrap s = .next s)
    ∧ (∀ cause reps, s.whisk = .restarting cause second → cause < 3 → imageFault s img = none →
      exec (.whiskRestartDone img reps) s = .next (eociaRestarts cause img reps s))
    ∧ (∀ reps, (∀ c x, s.whisk ≠ .restarting c x) → exec (.whiskRestartDone img reps) s = .next s)

/-- Storage and domain faults (R90, R94, R114 to R116, R398, R440, R480): a copy in flight becomes readable; a clean line changes nothing, and a
correctable error is only counted; an uncorrectable one has its outcome but where a write covers every word that it hit; an entropy source that fails its health tests sets SEC_STATUS.FAULT and raises SEC_FAULT, and the
key sets stay; a lost lock of the PLL is a fault of PD_CTL, after which the slice is silent and requests nothing more. -/
def Obligations.FaultsAreRecorded : Prop :=
  ∀ (i : StripId) (n d : Nat) (w : EccWhere) (s : State),
    (s.place.inFlight.contains (i, n) = true → ∃ t, exec (.placementCopyDone i n) s = .next t ∧ t.place
        = { s.place with inFlight := s.place.inFlight.erase (i, n), copies := s.place.copies ++ [(i, n)] }
      ∧ t = { s with place := t.place, tele := t.tele, cnt := t.cnt })
    ∧ (s.place.inFlight.contains (i, n) = false → exec (.placementCopyDone i n) s = .next s)
    ∧ exec (.patrolScrub w .none) s = .next s
    ∧ exec (.patrolScrub w .correctable) s = .next { s with cnt := { s.cnt with eccCe := s.cnt.eccCe + 1 } }
    ∧ (∀ bad written, bad &&& ~~~written ≠ 0 →
      exec (.patrolScrub w (.uncorrectable bad written)) s = .next (spoiled w (uncorrectable (eccUnit w) 1 s)))
    ∧ (∀ bad written, bad &&& ~~~written = 0 → exec (.patrolScrub w (.uncorrectable bad written)) s = .next (uncorrectable (eccUnit w) 1 s))
    ∧ (∃ t, exec .entropyFail s = .next t ∧ t.regs = { s.regs with secFault := true, irqStatus := s.regs.irqStatus ||| 1 }
      ∧ (∃ a ∈ t.tele.alarms, a.code = 0x1D) ∧ t = { s with regs := t.regs, tele := t.tele, cnt := t.cnt })
    ∧ (∃ t, exec .pllLockLoss s = .next t ∧ t.group = { s.group with silent := true } ∧ t.power = { s.power with stopped := true }
      ∧ (∃ a ∈ t.tele.alarms, a.code = 0x0F)
      ∧ t = { s with group := t.group, power := t.power, tele := t.tele, cnt := t.cnt, regs := { s.regs with irqStatus := t.regs.irqStatus } })
    ∧ (143 ≤ d → d < 147 → exec (.pmFault d) s = .next (domainLost (alarm 0x0F (BitVec.ofNat 64 d) s)))
    ∧ (domainExists s d = false → exec (.pmFault d) s = .next s)

/-- Power and clocks (R436, R438, R442 to R444, R455, R473): an alert sets every running pair to 350 MHz and, when it falls, leaves them there; the
loop lowers a pair by 25 MHz or asks for a raise, which takes place at its VACK; a droop is counted; a domain's acknowledgement needs its
request, and one that is missing is its fault; a pan goes off only after 64 idle steps. -/
def Obligations.PowerAndClocksFollow : Prop :=
  ∀ (p : Nat) (x : Pair) (s : State), s.power.pairs[p]? = some x →
    (∃ t, exec .pmAlertRise s = .next t ∧ t.power.alert = true ∧ t.power.pairs.length = s.power.pairs.length
      ∧ (∀ y, t.power.pairs[p]? = some y → y.mhz = if x.mhz = 0 then 0 else 350)
      ∧ t = { s with power := { s.power with alert := true, pairs := t.power.pairs }, tele := t.tele, cnt := t.cnt })
    ∧ exec .pmAlertFall s = .next { s with power := { s.power with alert := false } }
    ∧ (s.power.alert = false → 375 ≤ x.mhz →
      (∀ st cyc q, cyc < st * 1024 → exec (.vfLoopEval p st cyc q) s = .next (setPair p (min (ceiling s) (x.mhz - 25)) s))
      ∧ (∀ st cyc, st * 1024 ≤ cyc → x.mhz < ceiling s → x.waitVack = false → ∃ t, exec (.vfLoopEval p st cyc true) s = .next t
        ∧ t.power.pairs[p]? = some { x with code := vcode s (x.mhz + 25), waitVack := true } ∧ t = { s with power := { s.power with pairs := t.power.pairs } }))
    ∧ (x.waitVack = true → x.mhz + 25 ≤ ceiling s → exec (.pmVack p) s = .next (setPair p (x.mhz + 25) s))
    ∧ (x.waitVack = false → exec (.pmVack p) s = .next s)
    ∧ (∃ t, setPair p 350 s = t ∧ t.power.pairs[p]? = some { x with mhz := 350, code := vcode s 350, waitVack := false }
      ∧ t = { s with power := { s.power with pairs := t.power.pairs }, tele := t.tele, cnt := t.cnt })
    ∧ (∃ t, exec (.droop p) s = .next t ∧ t.power.pairs[p]? = some { x with stretches := x.stretches + 1 }
      ∧ t = { s with power := { s.power with pairs := t.power.pairs }, tele := t.tele })
    ∧ (∃ w, exec .pwrEstUpdate s = .next { s with power := { s.power with est := w }, fresh := s.fresh + 1 })
    ∧ (∀ d, s.power.req.getLsbD d = false → exec (.pmPwrAck d) s = .next (returnCredits s))
    ∧ (∀ d, s.power.req.getLsbD d = true → s.power.on.getLsbD d = true → d < 148 → exec (.pmPwrAck d) s = .next (returnCredits (pwrAck d s)))
    ∧ (∀ d, s.power.req.getLsbD d = true → s.power.ack.getLsbD d = false → exec (.pwrAckTimeout d) s = .next (domainFault d s))
    ∧ (∀ d, 48 ≤ d → (s.power.req.getLsbD d = false ∨ s.power.ack.getLsbD d = true) → exec (.pwrAckTimeout d) s = .next s)
    ∧ (∀ n, s.group.solo = false → eociaRuns s = true → s.power.req.getLsbD n = true → n < s.kit.pans → s.power.fenced.contains n = false →
      (64 ≤ s.power.idle.getD n 0 → exec (.panIdleOff n) s = .next (planPower ((pansNow s).filter (· ≠ n)) s))
      ∧ (s.power.idle.getD n 0 < 64 → exec (.panIdleOff n) s = .next s))

/-! ## Records and keys -/

/-- Alarms and traces (R457, R459, R463): an alarm whose code waits is merged into that entry and counted, any other is a new entry, and either
sets GLB_IRQ_STATUS.ALARM; a trace at or above its source's threshold is generated, and it enters the source's buffer while that holds fewer
than 4 × (PRIO + 1) records, and is dropped and counted otherwise. -/
def Obligations.AlarmsMergeAndTracesYield : Prop :=
  ∀ (code src prio ev : Nat) (a0 : Word) (arg : BitVec 64) (s : State),
    (∃ t, alarm code arg s = t ∧ t.regs.irqStatus = s.regs.irqStatus ||| 1
      ∧ ((∀ a ∈ s.tele.alarms, a.code ≠ code) → t.tele.alarms = s.tele.alarms ++ [⟨code, 1, s.timer, s.timer, arg⟩])
      ∧ (∀ a ∈ s.tele.alarms, a.code = code → t.tele.alarms.length = s.tele.alarms.length
          ∧ t.cnt.alarmCoalesced = s.cnt.alarmCoalesced + 1 ∧ (∀ b ∈ s.tele.alarms, b.code ≠ code → b ∈ t.tele.alarms)
          ∧ ∀ b ∈ t.tele.alarms, b.code = code → b.lastNs = s.timer)
      ∧ t = { s with tele := { s.tele with alarms := t.tele.alarms }, cnt := t.cnt, regs := { s.regs with irqStatus := t.regs.irqStatus } })
    ∧ (prio < (s.tele.thresh.getD src 4).toNat → trace src prio ev a0 arg s = s)
    ∧ ((s.tele.thresh.getD src 4).toNat ≤ prio → (s.tele.traces.filter fun t => t.src == src).length < 4 * (prio + 1) →
      trace src prio ev a0 arg s = { s with
        cnt := { s.cnt with traceGen := s.cnt.traceGen + 1 }
        tele := { s.tele with traces := s.tele.traces ++ [⟨src, prio, ev, a0, s.timer, s.step.step, arg⟩] } })
    ∧ ((s.tele.thresh.getD src 4).toNat ≤ prio → 4 * (prio + 1) ≤ (s.tele.traces.filter fun t => t.src == src).length →
      trace src prio ev a0 arg s = { s with cnt := { s.cnt with
        traceGen := s.cnt.traceGen + 1, traceDrop := s.cnt.traceDrop + 1, traceDropS := s.cnt.traceDropS.modify src (· + 1) } })

/-- The key of a score with bit pattern b is b XOR 0x8000_0000 when b[31] is 0 and NOT b when b[31] is 1; the inverse map gives the score
back exactly; the keys 0x0000_0000 to 0x007F_FFFE never occur for a sanitised score; and the unsigned order of the keys is the numeric
order of the sanitised scores (R37, R38). -/
def Obligations.ScoreKeysOrderTheScores : Prop :=
  (∀ b : F32, b.getLsbD 31 = false → skey b = b ^^^ 0x80000000#32) ∧ (∀ b : F32, b.getLsbD 31 = true → skey b = ~~~b)
    ∧ (∀ b : F32, unkey (skey b) = b) ∧ (∀ b : F32, 0x007FFFFF#32 ≤ skey (sanitise b))
    ∧ (∀ a b : F32, fLt (sanitise a) (sanitise b) = true ↔ skey (sanitise a) < skey (sanitise b))
end

