-- ==== Sys2Proof/Laws/Held.lean ====
section
/-! SUPPORT. What the meanings keep: the kit, the queue of waiting commands, and the limits of `Inv`. One lemma per operation says that it
keeps them; the lemmas for whole files stand in the other files of this folder. -/

-- The proofs of this file are checked one after another: the whole package is one text under a limit on threads.
set_option Elab.async false

namespace Sys2Proof.Machine

/-- The parts of the state that `Held` speaks of, one argument each. -/
def HeldAt (K : Kit) (Q : List Instr) (F : Fuses) (k : Kit) (q : List Instr) (f : Fuses) (ec : Nat) (eq : List EvtRec)
    (b1 b2 b3 l1 l2 l3 x y : Nat) (m : List Host.Cell) : Prop :=
  k = K ∧ q = Q ∧ FusesKept F f ∧ (ec ≤ 512 ∧ eq.length ≤ 512) ∧ (b1 ≤ b2 ∧ b2 + b3 ≤ b1 + 1024) ∧ (l1 ≤ l2 ∧ l2 + l3 ≤ l1 + 1024)
    ∧ x ≤ 1024 ∧ y ≤ 1024 ∧ Memory.wf m = true

/-- A state with a kit, a queue, the fuses programmed that were programmed before, and the limits of `Inv`. -/
def Held (K : Kit) (Q : List Instr) (F : Fuses) (s : State) : Prop :=
  HeldAt K Q F s.kit s.pending s.sec.fuses s.evt.credits s.evt.queue s.hipB.received s.hipB.returned s.hipB.owed s.hipL.received
    s.hipL.returned s.hipL.owed s.gbpA.credits s.gbpB.credits s.dbg.mem

theorem held_iff {K : Kit} {Q : List Instr} {F : Fuses} {s : State} :
    Held K Q F s ↔ s.kit = K ∧ s.pending = Q ∧ FusesKept F s.sec.fuses ∧ Inv s := Iff.rfl

/-- What two steps that can both fail keep. -/
theorem held_bind {K : Kit} {Q : List Instr} {F : Fuses} {ε : Type} {x : Except ε State} {f : State → Except ε State} {u : State}
    (hx : ∀ t, x = .ok t → Held K Q F t) (hf : ∀ t u, Held K Q F t → f t = .ok u → Held K Q F u) (e : x.bind f = .ok u) : Held K Q F u := by
  cases x with
  | error a => cases e
  | ok t => exact hf t u (hx t rfl) e

/-- What a fold keeps. -/
theorem held_foldl {K : Kit} {Q : List Instr} {F : Fuses} {α : Type} {f : State → α → State} {l : List α} {s : State}
    (hf : ∀ t x, Held K Q F t → Held K Q F (f t x)) (h : Held K Q F s) : Held K Q F (l.foldl f s) := by
  induction l generalizing s with
  | nil => exact h
  | cons x l ih => exact ih (hf s x h)

theorem rising_tail {c : Host.Cell} {m : List Host.Cell} (h : rising (c :: m) = true) : rising m = true := by
  cases m with
  | nil => rfl
  | cons d m => simp only [rising, Bool.and_eq_true] at h; exact h.2

theorem rising_lt {c : Host.Cell} {m : List Host.Cell} (h : rising (c :: m) = true) : ∀ d ∈ m, c.1 < d.1 := by
  induction m generalizing c with
  | nil => intro d hd; cases hd
  | cons e m ih =>
    simp only [rising, Bool.and_eq_true, decide_eq_true_eq] at h
    intro d hd
    cases hd with
    | head => exact h.1
    | tail _ hd => exact Nat.lt_trans h.1 (ih h.2 d hd)

theorem rising_cons {c : Host.Cell} {m : List Host.Cell} (hm : rising m = true) (h : ∀ d ∈ m, c.1 < d.1) : rising (c :: m) = true := by
  cases m with
  | nil => rfl
  | cons d m => simp only [rising, Bool.and_eq_true, decide_eq_true_eq]; exact ⟨h d (List.mem_cons_self ..), hm⟩

/-- Cells taken away leave the canonical form. -/
theorem wf_cellDrop (f : Nat → Bool) (m : List Host.Cell) (h : Memory.wf m = true) : Memory.wf (cellDrop f m) = true := by
  simp only [Memory.wf, Bool.and_eq_true, cellDrop] at *
  refine ⟨?_, ?_⟩
  · have hr := h.1
    clear h
    induction m with
    | nil => rfl
    | cons c m ih =>
      rw [List.filter_cons]
      split
      · exact rising_cons (ih (rising_tail hr)) fun d hd => rising_lt hr d (List.mem_filter.mp hd).1
      · exact ih (rising_tail hr)
  · rw [List.all_eq_true] at *
    exact fun d hd => h.2 d (List.mem_filter.mp hd).1

/-- A cell put in its place keeps the addresses rising. -/
theorem rising_cellInsert (c : Host.Cell) (m : List Host.Cell) (h : rising m = true) :
    rising (cellInsert c m) = true ∧ ∀ d ∈ cellInsert c m, d = c ∨ d ∈ m := by
  induction m with
  | nil => exact ⟨rfl, fun d hd => .inl (by simpa [cellInsert] using hd)⟩
  | cons e m ih =>
    unfold cellInsert
    split
    · rename_i hlt
      refine ⟨by simp only [rising, Bool.and_eq_true, decide_eq_true_eq]; exact ⟨hlt, h⟩, fun d hd => ?_⟩
      cases hd with
      | head => exact .inl rfl
      | tail _ hd => exact .inr hd
    · split
      · rename_i heq
        refine ⟨rising_cons (rising_tail h) fun d hd => heq ▸ rising_lt h d hd, fun d hd => ?_⟩
        cases hd with
        | head => exact .inl rfl
        | tail _ hd => exact .inr (List.mem_cons_of_mem _ hd)
      · rename_i hlt hne
        have hi := ih (rising_tail h)
        refine ⟨rising_cons hi.1 fun d hd => ?_, fun d hd => ?_⟩
        · rcases hi.2 d hd with rfl | hd
          · omega
          · exact rising_lt h d hd
        · cases hd with
          | head => exact .inr (List.mem_cons_self ..)
          | tail _ hd => exact (hi.2 d hd).imp id (List.mem_cons_of_mem _)

/-- A byte written keeps the canonical form. -/
theorem wf_cellPut (a : Nat) (v : Byte) (m : List Host.Cell) (h : Memory.wf m = true) : Memory.wf (cellPut a v m) = true := by
  unfold cellPut
  split
  · exact wf_cellDrop _ _ h
  · rename_i hne
    simp only [Memory.wf, Bool.and_eq_true] at *
    have hi := rising_cellInsert (a, v) m h.1
    refine ⟨hi.1, ?_⟩
    rw [List.all_eq_true] at *
    intro d hd
    rcases hi.2 d hd with rfl | hd
    · simpa using hne
    · exact h.2 d hd

/-- Bytes written keep the canonical form. -/
theorem wf_cellsPut (a : Nat) (l : Bytes) (m : List Host.Cell) (h : Memory.wf m = true) : Memory.wf (cellsPut a l m) = true := by
  induction l generalizing a m with
  | nil => exact h
  | cons b l ih => exact ih (a + 1) _ (wf_cellPut a b m h)

/-- The parts of a state that holds them. -/
theorem held_at {K : Kit} {Q : List Instr} {F : Fuses} {t : State} (h : Held K Q F t) :
    HeldAt K Q F t.kit t.pending t.sec.fuses t.evt.credits t.evt.queue t.hipB.received t.hipB.returned t.hipB.owed t.hipL.received
      t.hipL.returned t.hipL.owed t.gbpA.credits t.gbpB.credits t.dbg.mem := h

theorem heldAt_drop {K : Kit} {Q : List Instr} {F : Fuses} {k q f ec eq b1 b2 b3 l1 l2 l3 x y m} {g : Nat → Bool}
    (h : HeldAt K Q F k q f ec eq b1 b2 b3 l1 l2 l3 x y m) : HeldAt K Q F k q f ec eq b1 b2 b3 l1 l2 l3 x y (cellDrop g m) :=
  ⟨h.1, h.2.1, h.2.2.1, h.2.2.2.1, h.2.2.2.2.1, h.2.2.2.2.2.1, h.2.2.2.2.2.2.1, h.2.2.2.2.2.2.2.1, wf_cellDrop _ _ h.2.2.2.2.2.2.2.2⟩

theorem heldAt_put {K : Kit} {Q : List Instr} {F : Fuses} {k q f ec eq b1 b2 b3 l1 l2 l3 x y m} {a : Nat} {l : Bytes}
    (h : HeldAt K Q F k q f ec eq b1 b2 b3 l1 l2 l3 x y m) : HeldAt K Q F k q f ec eq b1 b2 b3 l1 l2 l3 x y (cellsPut a l m) :=
  ⟨h.1, h.2.1, h.2.2.1, h.2.2.2.1, h.2.2.2.2.1, h.2.2.2.2.2.1, h.2.2.2.2.2.2.1, h.2.2.2.2.2.2.2.1, wf_cellsPut _ _ _ h.2.2.2.2.2.2.2.2⟩

/-- Either branch of a condition. -/
theorem held_ite {K : Kit} {Q : List Instr} {F : Fuses} {c : Prop} [Decidable c] {s t : State} (h : Held K Q F s) (h' : Held K Q F t) :
    Held K Q F (if c then s else t) := by
  split
  · exact h
  · exact h'

/-- A state written field by field holds them when the fields that `Held` names do. -/
theorem held_mk {K : Kit} {Q : List Instr} {F : Fuses}
    {a1 a2 a3 a4 a5 a6 a7 a8 a9 a10 a11 a12 a13 a14 a15 a16 a17 a18 a19 a20 a21 a22 a23 a24 a25 a26 a27 a28 a29 a30 a31 a32
     a33 a34 a35 a36 a37 a38 a39 a40 a41 a42 a43 a44 a45}
    :
    Held K Q F (State.mk a1 a2 a3 a4 a5 a6 a7 a8 a9 a10 a11 a12 a13 a14 a15 a16 a17 a18 a19 a20 a21 a22 a23 a24 a25 a26 a27 a28 a29 a30 a31
      a32 a33 a34 a35 a36 a37 a38 a39 a40 a41 a42 a43 a44 a45) =
    HeldAt K Q F a1 a45 a40.fuses a30.credits a30.queue a26.received a26.returned a26.owed a27.received a27.returned a27.owed
      a28.credits a29.credits a41.mem := rfl

end Sys2Proof.Machine
end

