-- ==== Sys2Proof/Laws/HeldOps.lean ====
section
/-! SUPPORT. What the operations of Machine/Ops.lean keep (see Laws/Held.lean). -/

-- The proofs of this file are checked one after another: the whole package is one text under a limit on threads.
set_option Elab.async false

namespace Sys2Proof.Machine

variable {K : Kit} {Q : List Instr} {F : Fuses}

theorem held_updReq (q : Nat) (f : ReqEntry → ReqEntry) (s : State)  (hI : Held K Q F s) :
    Held K Q F (updReq q f s) := by
  unfold updReq
  repeat' first
    | with_reducible assumption
    | with_reducible apply held_at
    | simp only [held_mk]

theorem held_count (f : Counters → Counters) (s : State)  (hI : Held K Q F s) :
    Held K Q F (count f s) := by
  unfold count
  repeat' first
    | with_reducible assumption
    | with_reducible apply held_at
    | simp only [held_mk]

theorem held_trace (src prio event : Nat) (arg0 : Word) (arg1 : BitVec 64) (s : State)  (hI : Held K Q F s) :
    Held K Q F (trace src prio event arg0 arg1 s) := by
  unfold trace
  repeat' first
    | with_reducible assumption
    | with_reducible apply held_count
    | with_reducible apply held_ite
    | with_reducible apply held_at
    | simp only [held_mk]

theorem held_perf (offset n : Nat) (s : State)  (hI : Held K Q F s) :
    Held K Q F (perf offset n s) := by
  unfold perf
  repeat' first
    | with_reducible assumption
    | with_reducible apply held_at
    | simp only [held_mk]

theorem held_alarm (code : Nat) (arg : BitVec 64) (s : State)  (hI : Held K Q F s) :
    Held K Q F (alarm code arg s) := by
  unfold alarm
  repeat' first
    | with_reducible assumption
    | with_reducible apply held_count
    | with_reducible apply held_ite
    | with_reducible apply held_at
    | simp only [held_mk]

theorem held_drbg (n : Nat) (s : State)  (hI : Held K Q F s) :
    Held K Q F (drbg n s).2 := by
  unfold drbg
  repeat' first
    | with_reducible assumption
    | with_reducible apply held_at
    | simp only [held_mk]

theorem held_hmpIssue (s : State)  (hI : Held K Q F s) :
    Held K Q F (hmpIssue s) := by
  unfold hmpIssue
  repeat' first
    | with_reducible assumption
    | intro _
    | with_reducible apply held_trace
    | with_reducible apply held_foldl
    | with_reducible apply held_at
    | simp only [held_mk]

theorem held_hmpWrite (part addr : Nat) (data : Bytes) (after : AfterWrite) (s : State)  (hI : Held K Q F s) :
    Held K Q F (hmpWrite part addr data after s) := by
  unfold hmpWrite
  repeat' first
    | with_reducible assumption
    | with_reducible apply held_hmpIssue
    | with_reducible apply held_at
    | simp only [held_mk]

theorem held_hmpRead (part addr len : Nat) (ch : RdCh) (p : Purpose) (s : State)  (hI : Held K Q F s) :
    Held K Q F (hmpRead part addr len ch p s) := by
  unfold hmpRead
  repeat' first
    | with_reducible assumption
    | with_reducible apply held_hmpIssue
    | with_reducible apply held_at
    | simp only [held_mk]

theorem held_logWrite (rec : Bytes) (s : State)  (hI : Held K Q F s) :
    Held K Q F (logWrite rec s) := by
  unfold logWrite
  repeat' first
    | with_reducible assumption
    | with_reducible apply held_count
    | with_reducible apply held_hmpWrite
    | with_reducible apply held_ite
    | with_reducible apply held_at
    | simp only [held_mk]

theorem held_log (code part : Nat) (arg : BitVec 64) (s : State)  (hI : Held K Q F s) :
    Held K Q F (log code part arg s) := by
  unfold log
  repeat' first
    | with_reducible assumption
    | with_reducible apply held_count
    | with_reducible apply held_logWrite
    | with_reducible apply held_ite
    | with_reducible apply held_at
    | simp only [held_mk]

theorem held_event (kind : Nat) (bytes : Bytes) (s : State) (hI : Held K Q F s) : Held K Q F (event kind bytes s) := by
  obtain ⟨h1, h2, h3, ⟨h4, h5⟩, h6⟩ := hI
  unfold event
  split
  · rename_i hr
    refine ⟨h1, h2, h3, ⟨h4, ?_⟩, h6⟩
    simp only [evtRoom, Bool.and_eq_true, decide_eq_true_eq] at hr
    simp only [List.length_append, List.length_singleton]
    omega
  · exact ⟨h1, h2, h3, ⟨h4, h5⟩, h6⟩

theorem held_evtRefill (s : State) (hI : Held K Q F s) : Held K Q F (evtRefill s) := by
  obtain ⟨h1, h2, h3, ⟨h4, h5⟩, h6⟩ := hI
  refine ⟨h1, h2, h3, ⟨h4, ?_⟩, h6⟩
  show (s.evt.queue ++ s.evt.pendingList.take (512 - s.evt.queue.length)).length ≤ 512
  simp only [List.length_append, List.length_take]
  omega

theorem held_mbxIrq (p : Nat) (bits : BitVec 5) (s : State)  (hI : Held K Q F s) :
    Held K Q F (mbxIrq p bits s) := by
  unfold mbxIrq
  repeat' first
    | with_reducible assumption
    | with_reducible apply held_at
    | simp only [held_mk]

theorem held_doorbell (e : ReqEntry) (n : Nat) (st : BitVec 16) (s : State)  (hI : Held K Q F s) :
    Held K Q F (doorbell e n st s) := by
  unfold doorbell
  repeat' first
    | with_reducible assumption
    | with_reducible apply held_mbxIrq
    | with_reducible apply held_event
    | with_reducible apply held_ite

theorem held_rejection (cls : HipClass) (part id stepSeq node : Nat) (r : Reason) (s : State)  (hI : Held K Q F s) :
    Held K Q F (rejection cls part id stepSeq node r s) := by
  unfold rejection
  repeat' first
    | with_reducible assumption
    | with_reducible apply held_trace
    | with_reducible apply held_event

theorem held_rejectRow (r : RowRec) (why : Reason) (s : State)  (hI : Held K Q F s) :
    Held K Q F (rejectRow r why s) := by
  unfold rejectRow
  repeat' first
    | with_reducible assumption
    | with_reducible apply held_rejection

theorem held_freezePort (m : Master) (s : State) (hI : Held K Q F s) : Held K Q F (freezePort m s) := by
  cases m <;> exact hI

theorem held_freeze (m : Master) (port part : Nat) (argLog : BitVec 64) (s : State)  (hI : Held K Q F s) :
    Held K Q F (freeze m port part argLog s) := by
  unfold freeze
  repeat' first
    | with_reducible assumption
    | with_reducible apply held_freezePort
    | with_reducible apply held_alarm
    | with_reducible apply held_log
    | with_reducible apply held_at
    | simp only [held_mk]

theorem held_violation (m : Master) (port part code id offset : Nat) (now : Bool) (s : State)  (hI : Held K Q F s) :
    Held K Q F (violation m port part code id offset now s) := by
  unfold violation
  repeat' first
    | with_reducible assumption
    | with_reducible apply held_event
    | with_reducible apply held_log
    | with_reducible apply held_freeze
    | with_reducible apply held_ite
    | with_reducible apply held_at
    | simp only [held_mk]

theorem held_send (dest : Nat) (m : Msg) (s : State)  (hI : Held K Q F s) :
    Held K Q F (send dest m s) := by
  unfold send
  repeat' first
    | with_reducible assumption
    | with_reducible apply held_ite
    | with_reducible apply held_at
    | simp only [held_mk]

theorem held_flood (m : Msg) (s : State)  (hI : Held K Q F s) :
    Held K Q F (flood m s) := by
  unfold flood
  repeat' first
    | with_reducible assumption
    | with_reducible apply held_ite
    | with_reducible apply held_at
    | simp only [held_mk]

theorem held_floodForm (m : Msg) (s : State)  (hI : Held K Q F s) :
    Held K Q F (floodForm m s) := by
  unfold floodForm
  repeat' first
    | with_reducible assumption
    | with_reducible apply held_ite
    | with_reducible apply held_at
    | simp only [held_mk]

theorem held_announce (step : Nat) (i : Sync) (s : State)  (hI : Held K Q F s) :
    Held K Q F (announce step i s) := by
  unfold announce
  repeat' first
    | with_reducible assumption
    | with_reducible apply held_flood
    | with_reducible apply held_at
    | simp only [held_mk]

theorem held_announceOut (step : Nat) (i : Sync) (s : State)  (hI : Held K Q F s) :
    Held K Q F (announceOut step i s) := by
  unfold announceOut
  repeat' first
    | with_reducible assumption
    | with_reducible apply held_flood

theorem held_rowTold (src q n : Nat) (s : State)  (hI : Held K Q F s) :
    Held K Q F (rowTold src q n s) := by
  unfold rowTold
  repeat' first
    | with_reducible assumption
    | with_reducible apply held_updReq

theorem held_rowFreed (q n : Nat) (s : State)  (hI : Held K Q F s) :
    Held K Q F (rowFreed q n s) := by
  unfold rowFreed
  repeat' first
    | with_reducible assumption
    | with_reducible apply held_updReq

theorem held_rowLost (src q n : Nat) (s : State)  (hI : Held K Q F s) :
    Held K Q F (rowLost src q n s) := by
  unfold rowLost
  repeat' first
    | with_reducible assumption
    | with_reducible apply held_updReq
    | with_reducible apply held_rowTold
    | with_reducible apply held_flood
    | with_reducible apply held_rowFreed
    | dsimp only
    | split

theorem held_rowGone (q n : Nat) (s : State)  (hI : Held K Q F s) :
    Held K Q F (rowGone q n s) := by
  unfold rowGone
  repeat' first
    | with_reducible assumption
    | with_reducible apply held_rowLost
    | with_reducible apply held_send
    | with_reducible apply held_ite

theorem held_allocBlocks (p : Nat) (u : Use) (n : Nat) (s : State) (hI : Held K Q F s) {t : State} (e : allocBlocks p u n s = .ok t) :
    Held K Q F t := by
  unfold allocBlocks at e
  split at e
  · cases e; exact hI
  split at e
  · cases e
  split at e
  · cases e
  dsimp only at e
  split at e
  · cases e
  cases e
  obtain ⟨h1, h2, h3, h4, h5, h6, h7, h8, h9⟩ := hI
  exact ⟨h1, h2, h3, h4, h5, h6, h7, h8, wf_cellDrop _ _ h9⟩

theorem held_freeUses (f : BlockUse → Bool) (s : State)  (hI : Held K Q F s) :
    Held K Q F (freeUses f s) := by
  unfold freeUses
  repeat' first
    | with_reducible assumption
    | with_reducible apply held_at
    | simp only [held_mk]

theorem held_allocLines (p : Nat) (u : Use) (n : Nat) (s : State) (hI : Held K Q F s) {t : State} (e : allocLines p u n s = .ok t) :
    Held K Q F t := by
  unfold allocLines at e
  split at e
  · cases e
  dsimp only at e
  split at e
  · cases e
  · rename_i t' ht
    have h := held_allocBlocks _ _ _ _ hI ht
    cases e
    exact h

theorem held_freeEmpty (p : Nat) (s : State)  (hI : Held K Q F s) :
    Held K Q F (freeEmpty p s) := by
  unfold freeEmpty
  try dsimp only
  repeat' first
    | with_reducible assumption
    | intro _
    | with_reducible apply held_foldl
    | with_reducible apply held_ite
    | with_reducible apply held_at
    | with_reducible apply heldAt_drop
    | with_reducible apply heldAt_put
    | simp only [held_mk]
    | split

theorem held_freeLines (p : Nat) (u : Use) (s : State)  (hI : Held K Q F s) :
    Held K Q F (freeLines p u s) := by
  unfold freeLines
  try dsimp only
  repeat' first
    | with_reducible assumption
    | intro _
    | with_reducible apply held_freeEmpty
    | with_reducible apply held_foldl
    | with_reducible apply held_ite
    | with_reducible apply held_at
    | with_reducible apply heldAt_drop
    | with_reducible apply heldAt_put
    | simp only [held_mk]
    | split

theorem held_deliver (p : Nat) (o : Origin) (tag : BitVec 16) (st : BitVec 16) (res : List (Nat × Word)) (s : State)  (hI : Held K Q F s) :
    Held K Q F (deliver p o tag st res s) := by
  unfold deliver
  repeat' first
    | with_reducible assumption
    | with_reducible apply held_hmpWrite
    | with_reducible apply held_send
    | with_reducible apply held_at
    | simp only [held_mk]
    | split

theorem held_complete (op : Op) (c : Cmd) (st : Status) (res : List (Nat × Word)) (s : State)  (hI : Held K Q F s) :
    Held K Q F (complete op c st res s) := by
  unfold complete
  repeat' first
    | with_reducible assumption
    | with_reducible apply held_deliver
    | with_reducible apply held_trace
    | with_reducible apply held_ite
    | with_reducible apply held_at
    | simp only [held_mk]

theorem held_await (op : Op) (c : Cmd) (step : Nat) (w : Wait) (s : State)  (hI : Held K Q F s) :
    Held K Q F (await op c step w s) := by
  unfold await
  repeat' first
    | with_reducible assumption
    | with_reducible apply held_at
    | simp only [held_mk]

theorem held_finish (f : PendCmd → Bool) (st : PendCmd → Status) (res : PendCmd → List (Nat × Word)) (s : State)  (hI : Held K Q F s) :
    Held K Q F (finish f st res s) := by
  unfold finish
  repeat' first
    | with_reducible assumption
    | intro _
    | with_reducible apply held_complete
    | with_reducible apply held_foldl
    | with_reducible apply held_at
    | simp only [held_mk]

theorem held_dropRows (f : RowRec → Bool) (s : State)  (hI : Held K Q F s) :
    Held K Q F (dropRows f s) := by
  unfold dropRows
  repeat' first
    | with_reducible assumption
    | intro _
    | with_reducible apply held_freeLines
    | with_reducible apply held_foldl
    | with_reducible apply held_at
    | simp only [held_mk]

theorem held_dropReqRows (q : Nat) (s : State)  (hI : Held K Q F s) :
    Held K Q F (dropReqRows q s) := by
  unfold dropReqRows
  repeat' first
    | with_reducible assumption
    | with_reducible apply held_dropRows

theorem held_updMerge (k : RowKey) (f : Merge → Merge) (s : State)  (hI : Held K Q F s) :
    Held K Q F (updMerge k f s) := by
  unfold updMerge
  repeat' first
    | with_reducible assumption
    | with_reducible apply held_at
    | simp only [held_mk]

theorem held_parityError (f : PipFault) (s : State)  (hI : Held K Q F s) :
    Held K Q F (parityError f s) := by
  unfold parityError
  try dsimp only
  repeat' first
    | with_reducible assumption
    | intro _
    | with_reducible apply held_alarm
    | with_reducible apply held_count
    | with_reducible apply held_pipParity
    | with_reducible apply held_foldl
    | with_reducible apply held_ite
    | with_reducible apply held_at
    | with_reducible apply heldAt_drop
    | with_reducible apply heldAt_put
    | simp only [held_mk]
    | split

theorem held_pipWork (id : Nat) (genT : Bool) (as_ : List Nat) (s : State)  (hI : Held K Q F s) :
    Held K Q F (pipWork id genT as_ s) := by
  unfold pipWork
  repeat' first
    | with_reducible assumption
    | intro _
    | with_reducible apply held_count
    | with_reducible apply held_trace
    | with_reducible apply held_foldl
    | with_reducible apply held_ite
    | with_reducible apply held_at
    | simp only [held_mk]

end Sys2Proof.Machine
end

