-- ==== Sys2Proof/Laws/HeldMailbox.lean ====
section
/-! SUPPORT. What the operations of Machine/Mailbox.lean keep (see Laws/Held.lean). -/

-- The proofs of this file are checked one after another: the whole package is one text under a limit on threads.
set_option Elab.async false

namespace Sys2Proof.Machine

variable {K : Kit} {Q : List Instr} {F : Fuses}

theorem held_enqueue (op : Op) (c : Cmd) (s : State)  (hI : Held K Q F s) :
    Held K Q F (enqueue op c s) := by
  unfold enqueue
  repeat' first
    | with_reducible assumption
    | with_reducible apply held_at
    | simp only [held_mk]

theorem held_forward (op : Op) (c : Cmd) (dest : Nat) (s : State)  (hI : Held K Q F s) :
    Held K Q F (forward op c dest s) := by
  unfold forward
  repeat' first
    | with_reducible assumption
    | with_reducible apply held_send
    | with_reducible apply held_at
    | simp only [held_mk]
    | split

theorem held_sendOn (op : Op) (c : Cmd) (dest : Nat) (s : State)  (hI : Held K Q F s) :
    Held K Q F (sendOn op c dest s) := by
  unfold sendOn
  try dsimp only
  repeat' first
    | with_reducible assumption
    | intro _
    | with_reducible apply held_deliver
    | with_reducible apply held_forward
    | with_reducible apply held_foldl
    | with_reducible apply held_ite
    | with_reducible apply held_at
    | with_reducible apply heldAt_drop
    | with_reducible apply heldAt_put
    | simp only [held_mk]
    | split

theorem held_route (op : Op) (c : Cmd) (s : State)  (hI : Held K Q F s) :
    Held K Q F (route op c s) := by
  unfold route
  try dsimp only
  repeat' first
    | with_reducible assumption
    | intro _
    | with_reducible apply held_enqueue
    | with_reducible apply held_sendOn
    | with_reducible apply held_foldl
    | with_reducible apply held_ite
    | with_reducible apply held_at
    | with_reducible apply heldAt_drop
    | with_reducible apply heldAt_put
    | simp only [held_mk]
    | split

theorem held_issue (part : Nat) (o : Origin) (opcode tag : BitVec 16) (args : List Word) (s : State)  (hI : Held K Q F s) :
    Held K Q F (issue part o opcode tag args s) := by
  unfold issue
  repeat' first
    | with_reducible assumption
    | with_reducible apply held_deliver
    | with_reducible apply held_route
    | split

theorem held_doorbellWrite (p : Nat) (v : Word) (s : State)  (hI : Held K Q F s) :
    Held K Q F (doorbellWrite p v s) := by
  unfold doorbellWrite
  repeat' first
    | with_reducible assumption
    | with_reducible apply held_mbxIrq
    | with_reducible apply held_deliver
    | with_reducible apply held_issue
    | with_reducible apply held_ite
    | with_reducible apply held_at
    | simp only [held_mk]

theorem held_ackWrite (p : Nat) (v : Word) (s : State)  (hI : Held K Q F s) :
    Held K Q F (ackWrite p v s) := by
  unfold ackWrite
  repeat' first
    | with_reducible assumption
    | with_reducible apply held_ite
    | with_reducible apply held_at
    | simp only [held_mk]

theorem held_irqStatusWrite (p : Nat) (v : Word) (s : State)  (hI : Held K Q F s) :
    Held K Q F (irqStatusWrite p v s) := by
  unfold irqStatusWrite
  repeat' first
    | with_reducible assumption
    | with_reducible apply held_at
    | simp only [held_mk]

theorem held_irqEnWrite (p : Nat) (v : Word) (s : State)  (hI : Held K Q F s) :
    Held K Q F (irqEnWrite p v s) := by
  unfold irqEnWrite
  repeat' first
    | with_reducible assumption
    | with_reducible apply held_at
    | simp only [held_mk]

theorem held_dropFetch (p : Nat) (s : State)  (hI : Held K Q F s) :
    Held K Q F (dropFetch p s) := by
  unfold dropFetch
  repeat' first
    | with_reducible assumption
    | with_reducible apply held_at
    | simp only [held_mk]

theorem held_cqCfgWrite (p : Nat) (v : Word) (s : State)  (hI : Held K Q F s) :
    Held K Q F (cqCfgWrite p v s) := by
  unfold cqCfgWrite
  repeat' first
    | with_reducible assumption
    | with_reducible apply held_dropFetch
    | with_reducible apply held_mbxIrq
    | with_reducible apply held_ite
    | with_reducible apply held_at
    | simp only [held_mk]

theorem held_cqTailWrite (p : Nat) (v : Word) (s : State)  (hI : Held K Q F s) :
    Held K Q F (cqTailWrite p v s) := by
  unfold cqTailWrite
  repeat' first
    | with_reducible assumption
    | with_reducible apply held_mbxIrq
    | with_reducible apply held_ite
    | with_reducible apply held_at
    | simp only [held_mk]

theorem held_ccConsWrite (p : Nat) (v : Word) (s : State)  (hI : Held K Q F s) :
    Held K Q F (ccConsWrite p v s) := by
  unfold ccConsWrite
  repeat' first
    | with_reducible assumption
    | with_reducible apply held_mbxIrq
    | with_reducible apply held_ite
    | with_reducible apply held_at
    | simp only [held_mk]

theorem held_takeEntry (p : Nat) (s : State)  (hI : Held K Q F s) :
    Held K Q F (takeEntry p s) := by
  unfold takeEntry
  repeat' first
    | with_reducible assumption
    | with_reducible apply held_dropFetch
    | with_reducible apply held_deliver
    | with_reducible apply held_issue
    | with_reducible apply held_at
    | simp only [held_mk]
    | split

theorem held_cqFetchEntry (p : Nat) (s : State)  (hI : Held K Q F s) :
    Held K Q F (cqFetchEntry p s) := by
  unfold cqFetchEntry
  repeat' first
    | with_reducible assumption
    | with_reducible apply held_takeEntry
    | with_reducible apply held_hmpRead
    | with_reducible apply held_ite
    | with_reducible apply held_at
    | simp only [held_mk]

theorem held_recordWritten (p : Nat) (noirq : Bool) (s : State)  (hI : Held K Q F s) :
    Held K Q F (recordWritten p noirq s) := by
  unfold recordWritten
  repeat' first
    | with_reducible assumption
    | with_reducible apply held_takeEntry
    | with_reducible apply held_mbxIrq
    | with_reducible apply held_ite
    | with_reducible apply held_at
    | simp only [held_mk]

theorem held_fwdArrives (f : FwdCmd) (s : State)  (hI : Held K Q F s) :
    Held K Q F (fwdArrives f s) := by
  unfold fwdArrives
  repeat' first
    | with_reducible assumption
    | with_reducible apply held_issue

theorem held_resultArrives (r : FwdResult) (s : State)  (hI : Held K Q F s) :
    Held K Q F (resultArrives r s) := by
  unfold resultArrives
  repeat' first
    | with_reducible assumption
    | with_reducible apply held_deliver
    | with_reducible apply held_at
    | simp only [held_mk]
    | split

theorem held_mbxWrite (p off : Nat) (v : Word) (s : State)  (hI : Held K Q F s) :
    Held K Q F (mbxWrite p off v s) := by
  unfold mbxWrite
  repeat' first
    | with_reducible assumption
    | with_reducible apply held_doorbellWrite
    | with_reducible apply held_ackWrite
    | with_reducible apply held_irqStatusWrite
    | with_reducible apply held_irqEnWrite
    | with_reducible apply held_cqCfgWrite
    | with_reducible apply held_cqTailWrite
    | with_reducible apply held_ccConsWrite
    | with_reducible apply held_ite
    | with_reducible apply held_at
    | simp only [held_mk]

end Sys2Proof.Machine
end

