-- ==== Sys2Proof/Laws/HeldCmd.lean ====
section
/-! SUPPORT. What the operations of Machine/Cmd.lean keep (see Laws/Held.lean). -/

-- The proofs of this file are checked one after another: the whole package is one text under a limit on threads.
set_option Elab.async false

namespace Sys2Proof.Machine

variable {K : Kit} {Q : List Instr} {F : Fuses}

theorem held_judge (op : Op) (c : Cmd) (l : List (Bool × Status)) (eff : State → State) (s : State) (h_eff : ∀ a0, Held K Q F a0 → Held K Q F (eff a0)) (hI : Held K Q F s) :
    Held K Q F (judge op c l eff s) := by
  unfold judge
  repeat' first
    | with_reducible assumption
    | with_reducible apply held_complete
    | with_reducible apply held_trace
    | with_reducible apply h_eff
    | split

theorem held_accept (op : Op) (run : Cmd → State → State) (c : Cmd) (s : State) (h_run : ∀ a0 a1, Held K Q F a1 → Held K Q F (run a0 a1)) (hI : Held K Q F s) :
    Held K Q F (accept op run c s) := by
  unfold accept
  repeat' first
    | with_reducible assumption
    | with_reducible apply h_run
    | with_reducible apply held_ite
    | with_reducible apply held_at
    | simp only [held_mk]

theorem held_unqueue (op : Op) (c : Cmd) (s : State)  (hI : Held K Q F s) :
    Held K Q F (unqueue op c s) := by
  unfold unqueue
  repeat' first
    | with_reducible assumption
    | with_reducible apply held_at
    | simp only [held_mk]

theorem held_takeUp (op : Op) (run : Cmd → State → State) (c : Cmd) (s : State) (h_run : ∀ a0 a1, Held K Q F a1 → Held K Q F (run a0 a1)) (hI : Held K Q F s) :
    Held K Q F (takeUp op run c s) := by
  unfold takeUp
  try dsimp only
  repeat' first
    | with_reducible assumption
    | intro _
    | with_reducible apply held_enqueue
    | with_reducible apply held_unqueue
    | with_reducible apply held_sendOn
    | with_reducible apply held_accept
    | with_reducible apply held_send
    | with_reducible apply h_run
    | with_reducible apply held_foldl
    | with_reducible apply held_ite
    | with_reducible apply held_at
    | with_reducible apply heldAt_drop
    | with_reducible apply heldAt_put
    | simp only [held_mk]
    | split

end Sys2Proof.Machine
end

