-- ==== Sys2Proof/Laws/HeldReqCmds.lean ====
section
/-! SUPPORT. What the operations of Machine/ReqCmds.lean keep (see Laws/Held.lean). -/

-- The proofs of this file are checked one after another: the whole package is one text under a limit on threads.
set_option Elab.async false

namespace Sys2Proof.Machine

variable {K : Kit} {Q : List Instr} {F : Fuses}

theorem held_acornSweep (s : State)  (hI : Held K Q F s) :
    Held K Q F (acornSweep s) := by
  unfold acornSweep
  try dsimp only
  repeat' first
    | with_reducible assumption
    | intro _
    | with_reducible apply held_freeLines
    | with_reducible apply held_foldl
    | with_reducible apply held_ite
    | with_reducible apply held_at
    | with_reducible apply heldAt_drop
    | with_reducible apply heldAt_put
    | simp only [held_mk]
    | split

theorem held_useAcorn (src p : Nat) (h : Word) (q : Nat) (s : State)  (hI : Held K Q F s) :
    Held K Q F (useAcorn src p h q s) := by
  unfold useAcorn
  try dsimp only
  repeat' first
    | with_reducible assumption
    | intro _
    | with_reducible apply held_foldl
    | with_reducible apply held_ite
    | with_reducible apply held_at
    | with_reducible apply heldAt_drop
    | with_reducible apply heldAt_put
    | simp only [held_mk]
    | split

theorem held_unuseAcorn (src p : Nat) (h : Word) (q : Nat) (s : State)  (hI : Held K Q F s) :
    Held K Q F (unuseAcorn src p h q s) := by
  unfold unuseAcorn
  try dsimp only
  repeat' first
    | with_reducible assumption
    | intro _
    | with_reducible apply held_acornSweep
    | with_reducible apply held_foldl
    | with_reducible apply held_ite
    | with_reducible apply held_at
    | with_reducible apply heldAt_drop
    | with_reducible apply heldAt_put
    | simp only [held_mk]
    | split

theorem held_reportLoad (q : Nat) (st : BitVec 16) (s : State)  (hI : Held K Q F s) :
    Held K Q F (reportLoad q st s) := by
  unfold reportLoad
  repeat' first
    | with_reducible assumption
    | with_reducible apply held_updReq
    | with_reducible apply held_send
    | with_reducible apply held_ite

theorem held_beginAdmit (q home : Nat) (a : Admit) (s : State)  (hI : Held K Q F s) :
    Held K Q F (beginAdmit q home a s) := by
  unfold beginAdmit
  repeat' first
    | with_reducible assumption
    | with_reducible apply held_reportLoad
    | with_reducible apply held_hmpRead
    | with_reducible apply held_ite
    | with_reducible apply held_at
    | simp only [held_mk]

theorem held_countsArrived (q : Nat) (bs : Option Bytes) (s : State)  (hI : Held K Q F s) :
    Held K Q F (countsArrived q bs s) := by
  unfold countsArrived
  repeat' first
    | with_reducible assumption
    | with_reducible apply held_reportLoad
    | with_reducible apply held_updReq
    | split

theorem held_admitAccepted (op : Op) (c : Cmd) (q t : Nat) (a : Admit) (s : State)  (hI : Held K Q F s) :
    Held K Q F (admitAccepted op c q t a s) := by
  unfold admitAccepted
  try dsimp only
  repeat' first
    | with_reducible assumption
    | intro _
    | refine held_allocLines _ _ _ _ ?_ (by assumption)
    | with_reducible apply held_announceOut
    | with_reducible apply held_await
    | with_reducible apply held_beginAdmit
    | with_reducible apply held_updReq
    | with_reducible apply held_foldl
    | with_reducible apply held_ite
    | with_reducible apply held_at
    | with_reducible apply heldAt_drop
    | with_reducible apply heldAt_put
    | simp only [held_mk]
    | split

theorem held_acornRelease (c : Cmd) (ac : Option Acorn) (s : State)  (hI : Held K Q F s) :
    Held K Q F (acornRelease c ac s) := by
  unfold acornRelease
  try dsimp only
  repeat' first
    | with_reducible assumption
    | intro _
    | with_reducible apply held_unuseAcorn
    | with_reducible apply held_announceOut
    | with_reducible apply held_foldl
    | with_reducible apply held_ite
    | with_reducible apply held_at
    | with_reducible apply heldAt_drop
    | with_reducible apply heldAt_put
    | simp only [held_mk]
    | split

theorem held_acornClaim (op : Op) (c : Cmd) (s : State)  (hI : Held K Q F s) :
    Held K Q F (acornClaim op c s) := by
  unfold acornClaim
  try dsimp only
  repeat' first
    | with_reducible assumption
    | intro _
    | with_reducible apply held_useAcorn
    | with_reducible apply held_announceOut
    | with_reducible apply held_foldl
    | with_reducible apply held_ite
    | with_reducible apply held_at
    | with_reducible apply heldAt_drop
    | with_reducible apply heldAt_put
    | simp only [held_mk]
    | split

theorem held_admitRead (op : Op) (c : Cmd) (t step : Nat) (d : Bytes) (s : State)  (hI : Held K Q F s) :
    Held K Q F (admitRead op c t step d s) := by
  unfold admitRead
  try dsimp only
  repeat' first
    | with_reducible assumption
    | intro _
    | with_reducible apply held_acornRelease
    | with_reducible apply held_judge
    | with_reducible apply held_admitAccepted
    | with_reducible apply held_foldl
    | with_reducible apply held_ite
    | with_reducible apply held_at
    | with_reducible apply heldAt_drop
    | with_reducible apply heldAt_put
    | simp only [held_mk]
    | split

theorem held_admitCmd (op : Op) (c : Cmd) (s : State)  (hI : Held K Q F s) :
    Held K Q F (admitCmd op c s) := by
  unfold admitCmd
  try dsimp only
  repeat' first
    | with_reducible assumption
    | intro _
    | with_reducible apply held_judge
    | with_reducible apply held_hmpRead
    | with_reducible apply held_acornClaim
    | with_reducible apply held_foldl
    | with_reducible apply held_ite
    | with_reducible apply held_at
    | with_reducible apply heldAt_drop
    | with_reducible apply heldAt_put
    | simp only [held_mk]
    | split

theorem held_huskRead (c : Cmd) (t step : Nat) (bs : Bytes) (s : State)  (hI : Held K Q F s) :
    Held K Q F (huskRead c t step bs s) := by
  unfold huskRead
  try dsimp only
  repeat' first
    | with_reducible assumption
    | intro _
    | with_reducible apply held_alarm
    | with_reducible apply held_judge
    | with_reducible apply held_admitAccepted
    | with_reducible apply held_foldl
    | with_reducible apply held_ite
    | with_reducible apply held_at
    | with_reducible apply heldAt_drop
    | with_reducible apply heldAt_put
    | simp only [held_mk]
    | split

theorem held_huskHeaderRead (c : Cmd) (t step : Nat) (hd : Bytes) (s : State)  (hI : Held K Q F s) :
    Held K Q F (huskHeaderRead c t step hd s) := by
  unfold huskHeaderRead
  try dsimp only
  repeat' first
    | with_reducible assumption
    | intro _
    | with_reducible apply held_judge
    | with_reducible apply held_hmpRead
    | with_reducible apply held_foldl
    | with_reducible apply held_ite
    | with_reducible apply held_at
    | with_reducible apply heldAt_drop
    | with_reducible apply heldAt_put
    | simp only [held_mk]
    | split

theorem held_huskResumeCmd (c : Cmd) (s : State)  (hI : Held K Q F s) :
    Held K Q F (huskResumeCmd c s) := by
  unfold huskResumeCmd
  repeat' first
    | with_reducible assumption
    | with_reducible apply held_judge
    | with_reducible apply held_hmpRead

theorem held_change (q : Nat) (x : ReqChange) (s : State)  (hI : Held K Q F s) :
    Held K Q F (change q x s) := by
  unfold change
  repeat' first
    | with_reducible assumption
    | with_reducible apply held_at
    | simp only [held_mk]

theorem held_settingsCmd (c : Cmd) (s : State)  (hI : Held K Q F s) :
    Held K Q F (settingsCmd c s) := by
  unfold settingsCmd
  repeat' first
    | with_reducible assumption
    | intro _
    | with_reducible apply held_judge
    | with_reducible apply held_await
    | with_reducible apply held_change

theorem held_cancelCmd (c : Cmd) (s : State)  (hI : Held K Q F s) :
    Held K Q F (cancelCmd c s) := by
  unfold cancelCmd
  try dsimp only
  repeat' first
    | with_reducible assumption
    | intro _
    | with_reducible apply held_enqueue
    | with_reducible apply held_judge
    | with_reducible apply held_await
    | with_reducible apply held_change
    | with_reducible apply held_announceOut
    | with_reducible apply held_updReq
    | with_reducible apply held_foldl
    | with_reducible apply held_ite
    | with_reducible apply held_at
    | with_reducible apply heldAt_drop
    | with_reducible apply heldAt_put
    | simp only [held_mk]
    | split

theorem held_pauseCmd (c : Cmd) (s : State)  (hI : Held K Q F s) :
    Held K Q F (pauseCmd c s) := by
  unfold pauseCmd
  repeat' first
    | with_reducible assumption
    | intro _
    | with_reducible apply held_judge
    | with_reducible apply held_await
    | with_reducible apply held_change

theorem held_resumeCmd (c : Cmd) (s : State)  (hI : Held K Q F s) :
    Held K Q F (resumeCmd c s) := by
  unfold resumeCmd
  repeat' first
    | with_reducible assumption
    | intro _
    | with_reducible apply held_judge
    | with_reducible apply held_await
    | with_reducible apply held_change
    | with_reducible apply held_updReq

theorem held_evictCmd (c : Cmd) (s : State)  (hI : Held K Q F s) :
    Held K Q F (evictCmd c s) := by
  unfold evictCmd
  repeat' first
    | with_reducible assumption
    | intro _
    | with_reducible apply held_judge
    | with_reducible apply held_announceOut
    | with_reducible apply held_await
    | with_reducible apply held_change
    | with_reducible apply held_updReq

theorem held_moveCmd (c : Cmd) (s : State)  (hI : Held K Q F s) :
    Held K Q F (moveCmd c s) := by
  unfold moveCmd
  repeat' first
    | with_reducible assumption
    | intro _
    | with_reducible apply held_judge
    | with_reducible apply held_announce
    | with_reducible apply held_await
    | with_reducible apply held_change
    | with_reducible apply held_updReq

theorem held_queryCmd (c : Cmd) (s : State)  (hI : Held K Q F s) :
    Held K Q F (queryCmd c s) := by
  unfold queryCmd
  repeat' first
    | with_reducible assumption
    | intro _
    | with_reducible apply held_judge
    | with_reducible apply held_complete

end Sys2Proof.Machine
end

