-- ==== Sys2Proof/Laws/HeldTenantCmds.lean ====
section
/-! SUPPORT. What the operations of Machine/TenantCmds.lean keep (see Laws/Held.lean). -/

-- The proofs of this file are checked one after another: the whole package is one text under a limit on threads.
set_option Elab.async false

namespace Sys2Proof.Machine

variable {K : Kit} {Q : List Instr} {F : Fuses}

theorem held_updTenant (u : Nat) (f : Tenant → Tenant) (s : State)  (hI : Held K Q F s) :
    Held K Q F (updTenant u f s) := by
  unfold updTenant
  repeat' first
    | with_reducible assumption
    | with_reducible apply held_ite
    | with_reducible apply held_at
    | simp only [held_mk]

theorem held_tenantChange (op : Op) (c : Cmd) (x : TenantChange) (w : Nat → Wait) (s : State)  (hI : Held K Q F s) :
    Held K Q F (tenantChange op c x w s) := by
  unfold tenantChange
  repeat' first
    | with_reducible assumption
    | with_reducible apply held_await
    | with_reducible apply held_announce

theorem held_bindCmd (c : Cmd) (s : State)  (hI : Held K Q F s) :
    Held K Q F (bindCmd c s) := by
  unfold bindCmd
  repeat' first
    | with_reducible assumption
    | with_reducible apply held_judge
    | with_reducible apply held_tenantChange

theorem held_creditCmd (c : Cmd) (s : State)  (hI : Held K Q F s) :
    Held K Q F (creditCmd c s) := by
  unfold creditCmd
  repeat' first
    | with_reducible assumption
    | with_reducible apply held_judge
    | with_reducible apply held_tenantChange

theorem held_drainCmd (c : Cmd) (s : State)  (hI : Held K Q F s) :
    Held K Q F (drainCmd c s) := by
  unfold drainCmd
  repeat' first
    | with_reducible assumption
    | with_reducible apply held_judge
    | with_reducible apply held_tenantChange

theorem held_reserveCmd (c : Cmd) (s : State)  (hI : Held K Q F s) :
    Held K Q F (reserveCmd c s) := by
  unfold reserveCmd
  repeat' first
    | with_reducible assumption
    | with_reducible apply held_judge
    | with_reducible apply held_tenantChange

theorem held_unbindCmd (c : Cmd) (s : State)  (hI : Held K Q F s) :
    Held K Q F (unbindCmd c s) := by
  unfold unbindCmd
  repeat' first
    | with_reducible assumption
    | with_reducible apply held_judge
    | with_reducible apply held_tenantChange

theorem held_tenantQueryCmd (c : Cmd) (s : State)  (hI : Held K Q F s) :
    Held K Q F (tenantQueryCmd c s) := by
  unfold tenantQueryCmd
  repeat' first
    | with_reducible assumption
    | intro _
    | with_reducible apply held_judge
    | with_reducible apply held_complete

theorem held_applyTenant (u n : Nat) (x : TenantChange) (s : State)  (hI : Held K Q F s) :
    Held K Q F (applyTenant u n x s).1 := by
  unfold applyTenant
  repeat' first
    | with_reducible assumption
    | with_reducible apply held_updTenant
    | split

theorem held_updLoading (p : Nat) (h : Word) (f : Acorn → Acorn) (s : State)  (hI : Held K Q F s) :
    Held K Q F (updLoading p h f s) := by
  unfold updLoading
  try dsimp only
  repeat' first
    | with_reducible assumption
    | intro _
    | with_reducible apply held_foldl
    | with_reducible apply held_ite
    | with_reducible apply held_at
    | with_reducible apply heldAt_drop
    | with_reducible apply heldAt_put
    | simp only [held_mk]
    | split

theorem held_acornNew (p : Nat) (h : Word) (s : State)  (hI : Held K Q F s) :
    Held K Q F (acornNew p h s) := by
  unfold acornNew
  try dsimp only
  repeat' first
    | with_reducible assumption
    | intro _
    | with_reducible apply held_foldl
    | with_reducible apply held_ite
    | with_reducible apply held_at
    | with_reducible apply heldAt_drop
    | with_reducible apply heldAt_put
    | simp only [held_mk]
    | split

theorem held_acornFail (p : Nat) (h : Word) (s : State)  (hI : Held K Q F s) :
    Held K Q F (acornFail p h s) := by
  unfold acornFail
  try dsimp only
  repeat' first
    | with_reducible assumption
    | intro _
    | with_reducible apply held_freeLines
    | with_reducible apply held_foldl
    | with_reducible apply held_ite
    | with_reducible apply held_at
    | with_reducible apply heldAt_drop
    | with_reducible apply heldAt_put
    | simp only [held_mk]
    | split

theorem held_acornDecide (p : Nat) (h : Word) (s : State)  (hI : Held K Q F s) :
    Held K Q F (acornDecide p h s) := by
  unfold acornDecide
  try dsimp only
  repeat' first
    | with_reducible assumption
    | intro _
    | with_reducible apply held_announce
    | with_reducible apply held_acornFail
    | with_reducible apply held_announceOut
    | with_reducible apply held_finish
    | with_reducible apply held_foldl
    | with_reducible apply held_ite
    | with_reducible apply held_at
    | with_reducible apply heldAt_drop
    | with_reducible apply heldAt_put
    | simp only [held_mk]
    | split

theorem held_acornReported (src p : Nat) (h : Word) (st : BitVec 16) (n : Nat) (s : State)  (hI : Held K Q F s) :
    Held K Q F (acornReported src p h st n s) := by
  unfold acornReported
  try dsimp only
  repeat' first
    | with_reducible assumption
    | intro _
    | with_reducible apply held_acornDecide
    | with_reducible apply held_updLoading
    | with_reducible apply held_acornNew
    | with_reducible apply held_foldl
    | with_reducible apply held_ite
    | with_reducible apply held_at
    | with_reducible apply heldAt_drop
    | with_reducible apply heldAt_put
    | simp only [held_mk]
    | split

theorem held_reportAcorn (p : Nat) (h : Word) (st : BitVec 16) (n : Nat) (s : State)  (hI : Held K Q F s) :
    Held K Q F (reportAcorn p h st n s) := by
  unfold reportAcorn
  try dsimp only
  repeat' first
    | with_reducible assumption
    | intro _
    | with_reducible apply held_acornReported
    | with_reducible apply held_send
    | with_reducible apply held_foldl
    | with_reducible apply held_ite
    | with_reducible apply held_at
    | with_reducible apply heldAt_drop
    | with_reducible apply heldAt_put
    | simp only [held_mk]
    | split

theorem held_acornLoaded (p : Nat) (h : Word) (jars : Except Status (List (Nat × Nat))) (s : State)  (hI : Held K Q F s) :
    Held K Q F (acornLoaded p h jars s) := by
  unfold acornLoaded
  try dsimp only
  repeat' first
    | with_reducible assumption
    | intro _
    | with_reducible apply held_reportAcorn
    | refine held_allocLines _ _ _ _ ?_ (by assumption)
    | with_reducible apply held_updLoading
    | with_reducible apply held_foldl
    | with_reducible apply held_ite
    | with_reducible apply held_at
    | with_reducible apply heldAt_drop
    | with_reducible apply heldAt_put
    | simp only [held_mk]
    | split

theorem held_acornSettle (p : Nat) (h : Word) (shares : List (Nat × Nat)) (s : State)  (hI : Held K Q F s) :
    Held K Q F (acornSettle p h shares s) := by
  unfold acornSettle
  try dsimp only
  repeat' first
    | with_reducible assumption
    | intro _
    | with_reducible apply held_finish
    | with_reducible apply held_updLoading
    | with_reducible apply held_foldl
    | with_reducible apply held_ite
    | with_reducible apply held_at
    | with_reducible apply heldAt_drop
    | with_reducible apply heldAt_put
    | simp only [held_mk]
    | split

theorem held_acornBegin (p : Nat) (h : Word) (addr n : Nat) (s : State)  (hI : Held K Q F s) :
    Held K Q F (acornBegin p h addr n s) := by
  unfold acornBegin
  repeat' first
    | with_reducible assumption
    | with_reducible apply held_acornNew
    | with_reducible apply held_acornSettle
    | with_reducible apply held_acornLoaded
    | with_reducible apply held_hmpRead
    | with_reducible apply held_ite

theorem held_acornArrived (p u : Nat) (bs : Option Bytes) (s : State)  (hI : Held K Q F s) :
    Held K Q F (acornArrived p u bs s) := by
  unfold acornArrived
  try dsimp only
  repeat' first
    | with_reducible assumption
    | intro _
    | with_reducible apply held_acornLoaded
    | with_reducible apply held_foldl
    | with_reducible apply held_ite
    | with_reducible apply held_at
    | with_reducible apply heldAt_drop
    | with_reducible apply heldAt_put
    | simp only [held_mk]
    | split

theorem held_acornMakeCmd (c : Cmd) (s : State)  (hI : Held K Q F s) :
    Held K Q F (acornMakeCmd c s) := by
  unfold acornMakeCmd
  repeat' first
    | with_reducible assumption
    | intro _
    | with_reducible apply held_judge
    | with_reducible apply held_acornBegin
    | with_reducible apply held_announceOut
    | with_reducible apply held_await

theorem held_acornTakeCmd (c : Cmd) (s : State)  (hI : Held K Q F s) :
    Held K Q F (acornTakeCmd c s) := by
  unfold acornTakeCmd
  repeat' first
    | with_reducible assumption
    | intro _
    | with_reducible apply held_judge
    | with_reducible apply held_await
    | with_reducible apply held_announce

theorem held_applyTake (p : Nat) (h : Word) (q : Nat) (s : State)  (hI : Held K Q F s) :
    Held K Q F (applyTake p h q s) := by
  unfold applyTake
  repeat' first
    | with_reducible assumption
    | with_reducible apply held_acornSettle
    | with_reducible apply held_acornLoaded
    | with_reducible apply held_acornNew

theorem held_acornDropCmd (c : Cmd) (s : State)  (hI : Held K Q F s) :
    Held K Q F (acornDropCmd c s) := by
  unfold acornDropCmd
  repeat' first
    | with_reducible assumption
    | intro _
    | with_reducible apply held_judge
    | with_reducible apply held_await
    | with_reducible apply held_announce

theorem held_dropAcorn (p : Nat) (h : Word) (s : State)  (hI : Held K Q F s) :
    Held K Q F (dropAcorn p h s) := by
  unfold dropAcorn
  try dsimp only
  repeat' first
    | with_reducible assumption
    | intro _
    | with_reducible apply held_foldl
    | with_reducible apply held_ite
    | with_reducible apply held_at
    | with_reducible apply heldAt_drop
    | with_reducible apply heldAt_put
    | simp only [held_mk]
    | split

theorem held_applyAcornDrop (p : Nat) (h : Word) (s : State)  (hI : Held K Q F s) :
    Held K Q F (applyAcornDrop p h s) := by
  unfold applyAcornDrop
  try dsimp only
  repeat' first
    | with_reducible assumption
    | intro _
    | with_reducible apply held_acornSweep
    | with_reducible apply held_dropAcorn
    | with_reducible apply held_foldl
    | with_reducible apply held_ite
    | with_reducible apply held_at
    | with_reducible apply heldAt_drop
    | with_reducible apply heldAt_put
    | simp only [held_mk]
    | split

theorem held_acornsLost (s : State)  (hI : Held K Q F s) :
    Held K Q F (acornsLost s) := by
  unfold acornsLost
  try dsimp only
  repeat' first
    | with_reducible assumption
    | intro _
    | with_reducible apply held_acornFail
    | with_reducible apply held_finish
    | with_reducible apply held_foldl
    | with_reducible apply held_ite
    | with_reducible apply held_at
    | with_reducible apply heldAt_drop
    | with_reducible apply heldAt_put
    | simp only [held_mk]
    | split

theorem held_variantRegCmd (c : Cmd) (s : State)  (hI : Held K Q F s) :
    Held K Q F (variantRegCmd c s) := by
  unfold variantRegCmd
  repeat' first
    | with_reducible assumption
    | intro _
    | with_reducible apply held_judge
    | with_reducible apply held_await
    | with_reducible apply held_announce

theorem held_variantDropCmd (c : Cmd) (s : State)  (hI : Held K Q F s) :
    Held K Q F (variantDropCmd c s) := by
  unfold variantDropCmd
  repeat' first
    | with_reducible assumption
    | intro _
    | with_reducible apply held_judge
    | with_reducible apply held_await
    | with_reducible apply held_announce

end Sys2Proof.Machine
end

