-- ==== Sys2Proof/Laws/HeldObjects.lean ====
section
/-! SUPPORT. What the operations of Machine/Objects.lean keep (see Laws/Held.lean). -/

-- The proofs of this file are checked one after another: the whole package is one text under a limit on threads.
set_option Elab.async false

namespace Sys2Proof.Machine

variable {K : Kit} {Q : List Instr} {F : Fuses}

theorem held_infoCmd (c : Cmd) (s : State)  (hI : Held K Q F s) :
    Held K Q F (infoCmd c s) := by
  unfold infoCmd
  repeat' first
    | with_reducible assumption
    | intro _
    | with_reducible apply held_judge
    | with_reducible apply held_complete

theorem held_pipProbeCmd (f : PipFault) (c : Cmd) (s : State)  (hI : Held K Q F s) :
    Held K Q F (pipProbeCmd f c s) := by
  unfold pipProbeCmd
  try dsimp only
  repeat' first
    | with_reducible assumption
    | intro _
    | with_reducible apply held_judge
    | with_reducible apply held_complete
    | with_reducible apply held_pipWork
    | with_reducible apply held_parityError
    | with_reducible apply held_foldl
    | with_reducible apply held_ite
    | with_reducible apply held_at
    | with_reducible apply heldAt_drop
    | with_reducible apply heldAt_put
    | simp only [held_mk]
    | split

theorem held_registerBacking (b : Backing) (s : State)  (hI : Held K Q F s) :
    Held K Q F (registerBacking b s) := by
  unfold registerBacking
  repeat' first
    | with_reducible assumption
    | with_reducible apply held_at
    | simp only [held_mk]

theorem held_backingCmd (c : Cmd) (s : State)  (hI : Held K Q F s) :
    Held K Q F (backingCmd c s) := by
  unfold backingCmd
  repeat' first
    | with_reducible assumption
    | intro _
    | with_reducible apply held_judge
    | with_reducible apply held_complete
    | with_reducible apply held_announceOut
    | with_reducible apply held_registerBacking

theorem held_storeTable (v : Nat) (t : List RangeEntry) (s : State)  (hI : Held K Q F s) :
    Held K Q F (storeTable v t s) := by
  unfold storeTable
  repeat' first
    | with_reducible assumption
    | with_reducible apply held_announceOut
    | with_reducible apply held_at
    | simp only [held_mk]

theorem held_rangeAccepted (c : Cmd) (v : Nat) (busy : Bool) (t : List RangeEntry) (s : State)  (hI : Held K Q F s) :
    Held K Q F (rangeAccepted c v busy t s) := by
  unfold rangeAccepted
  try dsimp only
  repeat' first
    | with_reducible assumption
    | intro _
    | with_reducible apply held_judge
    | with_reducible apply held_await
    | with_reducible apply held_storeTable
    | with_reducible apply held_flood
    | with_reducible apply held_foldl
    | with_reducible apply held_ite
    | with_reducible apply held_at
    | with_reducible apply heldAt_drop
    | with_reducible apply heldAt_put
    | simp only [held_mk]
    | split

theorem held_rangeCmd (c : Cmd) (s : State)  (hI : Held K Q F s) :
    Held K Q F (rangeCmd c s) := by
  unfold rangeCmd
  try dsimp only
  repeat' first
    | with_reducible assumption
    | intro _
    | with_reducible apply held_rangeAccepted
    | with_reducible apply held_judge
    | with_reducible apply held_hmpRead
    | with_reducible apply held_foldl
    | with_reducible apply held_ite
    | with_reducible apply held_at
    | with_reducible apply heldAt_drop
    | with_reducible apply heldAt_put
    | simp only [held_mk]
    | split

theorem held_rangeRead (c : Cmd) (v : Nat) (busy : Bool) (bs : Bytes) (s : State)  (hI : Held K Q F s) :
    Held K Q F (rangeRead c v busy bs s) := by
  unfold rangeRead
  try dsimp only
  repeat' first
    | with_reducible assumption
    | exact hI
    | dsimp only [id]
    | intro _
    | with_reducible apply held_rangeAccepted
    | with_reducible apply held_judge
    | with_reducible apply held_foldl
    | with_reducible apply held_ite
    | with_reducible apply held_at
    | with_reducible apply heldAt_drop
    | with_reducible apply heldAt_put
    | simp only [held_mk]
    | split

theorem held_rangeArrives (v : Nat) (t : List RangeEntry) (s : State)  (hI : Held K Q F s) :
    Held K Q F (rangeArrives v t s) := by
  unfold rangeArrives
  repeat' first
    | with_reducible assumption
    | with_reducible apply held_storeTable

theorem held_rangeStoredBy (n : Nat) (s : State)  (hI : Held K Q F s) :
    Held K Q F (rangeStoredBy n s) := by
  unfold rangeStoredBy
  repeat' first
    | with_reducible assumption
    | with_reducible apply held_at
    | simp only [held_mk]

theorem held_updMask (p id : Nat) (f : MaskObj → MaskObj) (s : State)  (hI : Held K Q F s) :
    Held K Q F (updMask p id f s) := by
  unfold updMask
  repeat' first
    | with_reducible assumption
    | with_reducible apply held_ite
    | with_reducible apply held_at
    | simp only [held_mk]

theorem held_updBias (p id : Nat) (f : BiasObj → BiasObj) (s : State)  (hI : Held K Q F s) :
    Held K Q F (updBias p id f s) := by
  unfold updBias
  repeat' first
    | with_reducible assumption
    | with_reducible apply held_ite
    | with_reducible apply held_at
    | simp only [held_mk]

theorem held_sweepObjects (s : State)  (hI : Held K Q F s) :
    Held K Q F (sweepObjects s) := by
  unfold sweepObjects
  repeat' first
    | with_reducible assumption
    | with_reducible apply held_at
    | simp only [held_mk]

theorem held_dropLoad (bias : Bool) (p id : Nat) (s : State)  (hI : Held K Q F s) :
    Held K Q F (dropLoad bias p id s) := by
  unfold dropLoad
  try dsimp only
  repeat' first
    | with_reducible assumption
    | intro _
    | with_reducible apply held_freeUses
    | with_reducible apply held_sweepObjects
    | with_reducible apply held_updBias
    | with_reducible apply held_updMask
    | with_reducible apply held_foldl
    | with_reducible apply held_ite
    | with_reducible apply held_at
    | with_reducible apply heldAt_drop
    | with_reducible apply heldAt_put
    | simp only [held_mk]
    | split

theorem held_objDecide (bias : Bool) (p id : Nat) (s : State)  (hI : Held K Q F s) :
    Held K Q F (objDecide bias p id s) := by
  unfold objDecide
  try dsimp only
  repeat' first
    | with_reducible assumption
    | intro _
    | with_reducible apply held_announce
    | with_reducible apply held_dropLoad
    | with_reducible apply held_announceOut
    | with_reducible apply held_finish
    | with_reducible apply held_foldl
    | with_reducible apply held_ite
    | with_reducible apply held_at
    | with_reducible apply heldAt_drop
    | with_reducible apply heldAt_put
    | simp only [held_mk]
    | split

theorem held_objReported (src : Nat) (bias : Bool) (p id : Nat) (st : BitVec 16) (s : State)  (hI : Held K Q F s) :
    Held K Q F (objReported src bias p id st s) := by
  unfold objReported
  repeat' first
    | with_reducible assumption
    | with_reducible apply held_objDecide
    | with_reducible apply held_at
    | simp only [held_mk]

theorem held_reportObj (bias : Bool) (p id : Nat) (st : BitVec 16) (s : State)  (hI : Held K Q F s) :
    Held K Q F (reportObj bias p id st s) := by
  unfold reportObj
  repeat' first
    | with_reducible assumption
    | with_reducible apply held_objReported
    | with_reducible apply held_send
    | with_reducible apply held_ite

theorem held_objAllApplied (bias : Bool) (p id : Nat) (s : State)  (hI : Held K Q F s) :
    Held K Q F (objAllApplied bias p id s) := by
  unfold objAllApplied
  try dsimp only
  repeat' first
    | with_reducible assumption
    | intro _
    | with_reducible apply held_finish
    | with_reducible apply held_foldl
    | with_reducible apply held_ite
    | with_reducible apply held_at
    | with_reducible apply heldAt_drop
    | with_reducible apply heldAt_put
    | simp only [held_mk]
    | split

theorem held_objAppliedBy (src : Nat) (bias : Bool) (p id : Nat) (s : State)  (hI : Held K Q F s) :
    Held K Q F (objAppliedBy src bias p id s) := by
  unfold objAppliedBy
  try dsimp only
  repeat' first
    | with_reducible assumption
    | intro _
    | with_reducible apply held_objAllApplied
    | with_reducible apply held_foldl
    | with_reducible apply held_ite
    | with_reducible apply held_at
    | with_reducible apply heldAt_drop
    | with_reducible apply heldAt_put
    | simp only [held_mk]
    | split

theorem held_tellApplied (bias : Bool) (p id : Nat) (s : State)  (hI : Held K Q F s) :
    Held K Q F (tellApplied bias p id s) := by
  unfold tellApplied
  try dsimp only
  repeat' first
    | with_reducible assumption
    | intro _
    | with_reducible apply held_objAppliedBy
    | with_reducible apply held_send
    | with_reducible apply held_foldl
    | with_reducible apply held_ite
    | with_reducible apply held_at
    | with_reducible apply heldAt_drop
    | with_reducible apply heldAt_put
    | simp only [held_mk]
    | split

theorem held_maskFetch (p id addr : Nat) (rs : List RangeEntry) (s : State)  (hI : Held K Q F s) :
    Held K Q F (maskFetch p id addr rs s) := by
  unfold maskFetch
  try dsimp only
  repeat' first
    | with_reducible assumption
    | intro _
    | with_reducible apply held_hmpRead
    | with_reducible apply held_foldl
    | with_reducible apply held_ite
    | with_reducible apply held_at
    | with_reducible apply heldAt_drop
    | with_reducible apply heldAt_put
    | simp only [held_mk]
    | split

theorem held_maskBegin (p id addr : Nat) (s : State)  (hI : Held K Q F s) :
    Held K Q F (maskBegin p id addr s) := by
  unfold maskBegin
  try dsimp only
  repeat' first
    | with_reducible assumption
    | intro _
    | refine held_allocBlocks _ _ _ _ ?_ (by assumption)
    | with_reducible apply held_reportObj
    | with_reducible apply held_updMask
    | with_reducible apply held_maskFetch
    | with_reducible apply held_foldl
    | with_reducible apply held_ite
    | with_reducible apply held_at
    | with_reducible apply heldAt_drop
    | with_reducible apply heldAt_put
    | simp only [held_mk]
    | split

theorem held_maskArrived (p id addr : Nat) (r : RangeEntry) (bs : Option Bytes) (s : State)  (hI : Held K Q F s) :
    Held K Q F (maskArrived p id addr r bs s) := by
  unfold maskArrived
  try dsimp only
  repeat' first
    | with_reducible assumption
    | intro _
    | with_reducible apply held_reportObj
    | with_reducible apply held_updMask
    | with_reducible apply held_foldl
    | with_reducible apply held_ite
    | with_reducible apply held_at
    | with_reducible apply heldAt_drop
    | with_reducible apply heldAt_put
    | simp only [held_mk]
    | split

theorem held_biasBegin (p id addr n : Nat) (s : State)  (hI : Held K Q F s) :
    Held K Q F (biasBegin p id addr n s) := by
  unfold biasBegin
  try dsimp only
  repeat' first
    | with_reducible assumption
    | intro _
    | refine held_allocBlocks _ _ _ _ ?_ (by assumption)
    | with_reducible apply held_reportObj
    | with_reducible apply held_hmpRead
    | with_reducible apply held_updBias
    | with_reducible apply held_foldl
    | with_reducible apply held_ite
    | with_reducible apply held_at
    | with_reducible apply heldAt_drop
    | with_reducible apply heldAt_put
    | simp only [held_mk]
    | split

theorem held_biasArrived (p id addr : Nat) (bs : Option Bytes) (s : State)  (hI : Held K Q F s) :
    Held K Q F (biasArrived p id addr bs s) := by
  unfold biasArrived
  try dsimp only
  repeat' first
    | with_reducible assumption
    | intro _
    | with_reducible apply held_reportObj
    | with_reducible apply held_updBias
    | with_reducible apply held_foldl
    | with_reducible apply held_ite
    | with_reducible apply held_at
    | with_reducible apply heldAt_drop
    | with_reducible apply heldAt_put
    | simp only [held_mk]
    | split

theorem held_fetchObjects (rs : List RangeEntry) (s : State)  (hI : Held K Q F s) :
    Held K Q F (fetchObjects rs s) := by
  unfold fetchObjects
  try dsimp only
  repeat' first
    | with_reducible assumption
    | intro _
    | with_reducible apply held_maskFetch
    | with_reducible apply held_hmpRead
    | with_reducible apply held_foldl
    | with_reducible apply held_ite
    | with_reducible apply held_at
    | with_reducible apply heldAt_drop
    | with_reducible apply heldAt_put
    | simp only [held_mk]
    | split

theorem held_mobjLoadCmd (c : Cmd) (s : State)  (hI : Held K Q F s) :
    Held K Q F (mobjLoadCmd c s) := by
  unfold mobjLoadCmd
  repeat' first
    | with_reducible assumption
    | intro _
    | with_reducible apply held_judge
    | with_reducible apply held_maskBegin
    | with_reducible apply held_announceOut
    | with_reducible apply held_await

theorem held_biasLoadCmd (c : Cmd) (s : State)  (hI : Held K Q F s) :
    Held K Q F (biasLoadCmd c s) := by
  unfold biasLoadCmd
  repeat' first
    | with_reducible assumption
    | intro _
    | with_reducible apply held_judge
    | with_reducible apply held_biasBegin
    | with_reducible apply held_announceOut
    | with_reducible apply held_await

theorem held_mobjDeleteCmd (c : Cmd) (s : State)  (hI : Held K Q F s) :
    Held K Q F (mobjDeleteCmd c s) := by
  unfold mobjDeleteCmd
  repeat' first
    | with_reducible assumption
    | intro _
    | with_reducible apply held_judge
    | with_reducible apply held_await
    | with_reducible apply held_announce

theorem held_biasDeleteCmd (c : Cmd) (s : State)  (hI : Held K Q F s) :
    Held K Q F (biasDeleteCmd c s) := by
  unfold biasDeleteCmd
  repeat' first
    | with_reducible assumption
    | intro _
    | with_reducible apply held_judge
    | with_reducible apply held_await
    | with_reducible apply held_announce

theorem held_reuse (p : Nat) (old new : Use) (s : State)  (hI : Held K Q F s) :
    Held K Q F (reuse p old new s) := by
  unfold reuse
  try dsimp only
  repeat' first
    | with_reducible assumption
    | intro _
    | with_reducible apply held_foldl
    | with_reducible apply held_ite
    | with_reducible apply held_at
    | with_reducible apply heldAt_drop
    | with_reducible apply heldAt_put
    | simp only [held_mk]
    | split

theorem held_applyDelete (bias : Bool) (p id n : Nat) (s : State)  (hI : Held K Q F s) :
    Held K Q F (applyDelete bias p id n s) := by
  unfold applyDelete
  try dsimp only
  repeat' first
    | with_reducible assumption
    | intro _
    | with_reducible apply held_updBias
    | with_reducible apply held_freeUses
    | with_reducible apply held_updMask
    | with_reducible apply held_foldl
    | with_reducible apply held_ite
    | with_reducible apply held_at
    | with_reducible apply heldAt_drop
    | with_reducible apply heldAt_put
    | simp only [held_mk]
    | split

theorem held_applyLoad (bias : Bool) (p id : Nat) (s : State)  (hI : Held K Q F s) :
    Held K Q F (applyLoad bias p id s) := by
  unfold applyLoad
  try dsimp only
  repeat' first
    | with_reducible assumption
    | intro _
    | with_reducible apply held_reuse
    | with_reducible apply held_freeUses
    | with_reducible apply held_updBias
    | with_reducible apply held_updMask
    | with_reducible apply held_foldl
    | with_reducible apply held_ite
    | with_reducible apply held_at
    | with_reducible apply heldAt_drop
    | with_reducible apply heldAt_put
    | simp only [held_mk]
    | split

theorem held_headPlaced (c : Cmd) (id : HeadId) (strips : List Strip) (s : State)  (hI : Held K Q F s) :
    Held K Q F (headPlaced c id strips s) := by
  unfold headPlaced
  repeat' first
    | with_reducible assumption
    | with_reducible apply held_complete
    | with_reducible apply held_announceOut
    | with_reducible apply held_at
    | simp only [held_mk]

theorem held_takeBlocks (p : Nat) (u : Use) (n : Nat) (s : State)  (hI : Held K Q F s) :
    Held K Q F (takeBlocks p u n s) := by
  unfold takeBlocks
  try dsimp only
  repeat' first
    | with_reducible assumption
    | intro _
    | refine held_allocBlocks _ _ _ _ ?_ (by assumption)
    | with_reducible apply held_foldl
    | with_reducible apply held_ite
    | with_reducible apply held_at
    | with_reducible apply heldAt_drop
    | with_reducible apply heldAt_put
    | simp only [held_mk]
    | split

theorem held_headLoadCmd (c : Cmd) (s : State)  (hI : Held K Q F s) :
    Held K Q F (headLoadCmd c s) := by
  unfold headLoadCmd
  try dsimp only
  repeat' first
    | with_reducible assumption
    | intro _
    | with_reducible apply held_judge
    | with_reducible apply held_takeBlocks
    | with_reducible apply held_headPlaced
    | with_reducible apply held_hmpRead
    | with_reducible apply held_foldl
    | with_reducible apply held_ite
    | with_reducible apply held_at
    | with_reducible apply heldAt_drop
    | with_reducible apply heldAt_put
    | simp only [held_mk]
    | split

theorem held_headArrived (c : Cmd) (busy : Bool) (bs : Option Bytes) (s : State)  (hI : Held K Q F s) :
    Held K Q F (headArrived c busy bs s) := by
  unfold headArrived
  try dsimp only
  repeat' first
    | with_reducible assumption
    | intro _
    | with_reducible apply held_complete
    | with_reducible apply held_freeUses
    | with_reducible apply held_headPlaced
    | with_reducible apply held_foldl
    | with_reducible apply held_ite
    | with_reducible apply held_at
    | with_reducible apply heldAt_drop
    | with_reducible apply heldAt_put
    | simp only [held_mk]
    | split

theorem held_headUnloadCmd (c : Cmd) (s : State)  (hI : Held K Q F s) :
    Held K Q F (headUnloadCmd c s) := by
  unfold headUnloadCmd
  repeat' first
    | with_reducible assumption
    | intro _
    | with_reducible apply held_judge
    | with_reducible apply held_await
    | with_reducible apply held_announce

theorem held_overlayAt (o : OverlayImage) (s : State)  (hI : Held K Q F s) :
    Held K Q F (overlayAt o s) := by
  unfold overlayAt
  repeat' first
    | with_reducible assumption
    | with_reducible apply held_at
    | simp only [held_mk]

theorem held_overlayLoadCmd (c : Cmd) (s : State)  (hI : Held K Q F s) :
    Held K Q F (overlayLoadCmd c s) := by
  unfold overlayLoadCmd
  try dsimp only
  repeat' first
    | with_reducible assumption
    | intro _
    | with_reducible apply held_judge
    | with_reducible apply held_takeBlocks
    | with_reducible apply held_complete
    | with_reducible apply held_hmpRead
    | with_reducible apply held_foldl
    | with_reducible apply held_ite
    | with_reducible apply held_at
    | with_reducible apply heldAt_drop
    | with_reducible apply heldAt_put
    | simp only [held_mk]
    | split

theorem held_freeLastUse (f : BlockUse → Bool) (s : State)  (hI : Held K Q F s) :
    Held K Q F (freeLastUse f s) := by
  unfold freeLastUse
  repeat' first
    | with_reducible assumption
    | with_reducible apply held_freeUses
    | split

theorem held_overlayArrived (c : Cmd) (busy : Bool) (bs : Option Bytes) (s : State)  (hI : Held K Q F s) :
    Held K Q F (overlayArrived c busy bs s) := by
  unfold overlayArrived
  try dsimp only
  repeat' first
    | with_reducible assumption
    | intro _
    | with_reducible apply held_complete
    | with_reducible apply held_freeLastUse
    | with_reducible apply held_overlayAt
    | with_reducible apply held_announceOut
    | with_reducible apply held_foldl
    | with_reducible apply held_ite
    | with_reducible apply held_at
    | with_reducible apply heldAt_drop
    | with_reducible apply heldAt_put
    | simp only [held_mk]
    | split

end Sys2Proof.Machine
end

