-- ==== Sys2Proof/Laws/HeldStreams.lean ====
section
/-! SUPPORT. What the operations of Machine/Streams.lean keep (see Laws/Held.lean). -/

-- The proofs of this file are checked one after another: the whole package is one text under a limit on threads.
set_option Elab.async false

namespace Sys2Proof.Machine

variable {K : Kit} {Q : List Instr} {F : Fuses}

theorem held_fetchStrip (i : StripId) (s : State)  (hI : Held K Q F s) :
    Held K Q F (fetchStrip i s) := by
  unfold fetchStrip
  try dsimp only
  repeat' first
    | with_reducible assumption
    | intro _
    | with_reducible apply held_hmpRead
    | with_reducible apply held_foldl
    | with_reducible apply held_ite
    | with_reducible apply held_at
    | with_reducible apply heldAt_drop
    | with_reducible apply heldAt_put
    | simp only [held_mk]
    | split

theorem held_streamGo (p : Nat) (s : State)  (hI : Held K Q F s) :
    Held K Q F (streamGo p s) := by
  unfold streamGo
  try dsimp only
  repeat' first
    | with_reducible assumption
    | intro _
    | with_reducible apply held_fetchStrip
    | with_reducible apply held_foldl
    | with_reducible apply held_ite
    | with_reducible apply held_at
    | with_reducible apply heldAt_drop
    | with_reducible apply heldAt_put
    | simp only [held_mk]
    | split

theorem held_streamsGo (s : State)  (hI : Held K Q F s) :
    Held K Q F (streamsGo s) := by
  unfold streamsGo
  try dsimp only
  repeat' first
    | with_reducible assumption
    | intro _
    | with_reducible apply held_streamGo
    | with_reducible apply held_foldl
    | with_reducible apply held_ite
    | with_reducible apply held_at
    | with_reducible apply heldAt_drop
    | with_reducible apply heldAt_put
    | simp only [held_mk]
    | split

theorem held_refetchStrip (i : StripId) (s : State)  (hI : Held K Q F s) :
    Held K Q F (refetchStrip i s) := by
  unfold refetchStrip
  try dsimp only
  repeat' first
    | with_reducible assumption
    | intro _
    | with_reducible apply held_fetchStrip
    | with_reducible apply held_foldl
    | with_reducible apply held_ite
    | with_reducible apply held_at
    | with_reducible apply heldAt_drop
    | with_reducible apply heldAt_put
    | simp only [held_mk]
    | split

theorem held_streamArrived (i : StripId) (bs : Option Bytes) (s : State)  (hI : Held K Q F s) :
    Held K Q F (streamArrived i bs s) := by
  unfold streamArrived
  try dsimp only
  repeat' first
    | with_reducible assumption
    | intro _
    | with_reducible apply held_foldl
    | with_reducible apply held_ite
    | with_reducible apply held_at
    | with_reducible apply heldAt_drop
    | with_reducible apply heldAt_put
    | simp only [held_mk]
    | split

end Sys2Proof.Machine
end

