-- ==== Sys2Proof/Laws/HeldMerge.lean ====
section
/-! SUPPORT. What the operations of Machine/Merge.lean keep (see Laws/Held.lean). -/

-- The proofs of this file are checked one after another: the whole package is one text under a limit on threads.
set_option Elab.async false

namespace Sys2Proof.Machine

variable {K : Kit} {Q : List Instr} {F : Fuses}

theorem held_updMergeAt (k : RowKey) (n : Nat) (f : Merge → Merge) (s : State)  (hI : Held K Q F s) :
    Held K Q F (updMergeAt k n f s) := by
  unfold updMergeAt
  repeat' first
    | with_reducible assumption
    | with_reducible apply held_ite
    | with_reducible apply held_at
    | simp only [held_mk]

theorem held_stale (s : State)  (hI : Held K Q F s) :
    Held K Q F (stale s) := by
  unfold stale
  repeat' first
    | with_reducible assumption
    | with_reducible apply held_count

theorem held_updForward (f : Micro → Micro) (s : State)  (hI : Held K Q F s) :
    Held K Q F (updForward f s) := by
  unfold updForward
  repeat' first
    | with_reducible assumption
    | with_reducible apply held_at
    | simp only [held_mk]
    | split

theorem held_closeMerges (q : Nat) (s : State)  (hI : Held K Q F s) :
    Held K Q F (closeMerges q s) := by
  unfold closeMerges
  repeat' first
    | with_reducible assumption
    | with_reducible apply held_at
    | simp only [held_mk]

theorem held_takeShell (n : Nat) (s : State)  (hI : Held K Q F s) :
    Held K Q F (takeShell n s).2 := by
  unfold takeShell
  try dsimp only
  repeat' first
    | with_reducible assumption
    | intro _
    | dsimp only
    | with_reducible apply held_foldl
    | with_reducible apply held_ite
    | with_reducible apply held_at
    | with_reducible apply heldAt_drop
    | with_reducible apply heldAt_put
    | simp only [held_mk]
    | split

theorem held_shellFull (k : RowKey) (s : State)  (hI : Held K Q F s) :
    Held K Q F (shellFull k s) := by
  unfold shellFull
  repeat' first
    | with_reducible assumption
    | with_reducible apply held_count
    | with_reducible apply held_at
    | simp only [held_mk]

theorem held_phaseBEnds (k : RowKey) (s : State)  (hI : Held K Q F s) :
    Held K Q F (phaseBEnds k s) := by
  unfold phaseBEnds
  try dsimp only
  repeat' first
    | with_reducible assumption
    | intro _
    | with_reducible apply held_updMergeAt
    | with_reducible apply held_freeLines
    | with_reducible apply held_foldl
    | with_reducible apply held_ite
    | with_reducible apply held_at
    | with_reducible apply heldAt_drop
    | with_reducible apply heldAt_put
    | simp only [held_mk]
    | split

theorem held_onDup (k : RowKey) (s : State) (d : Dup)  (hI : Held K Q F s) :
    Held K Q F (onDup k s d) := by
  unfold onDup
  repeat' first
    | with_reducible assumption
    | with_reducible apply held_count
    | with_reducible apply held_alarm
    | with_reducible apply held_at
    | simp only [held_mk]
    | split

theorem held_setVerdict (v : Verdict) (s : State)  (hI : Held K Q F s) :
    Held K Q F (setVerdict v s) := by
  unfold setVerdict
  repeat' first
    | with_reducible assumption
    | with_reducible apply held_ite
    | with_reducible apply held_at
    | simp only [held_mk]

theorem held_plainVerdict (k : RowKey) (r : RowResult) (s : State)  (hI : Held K Q F s) :
    Held K Q F (plainVerdict k r s) := by
  unfold plainVerdict
  repeat' first
    | with_reducible assumption
    | with_reducible apply held_setVerdict
    | with_reducible apply held_updReq
    | split

theorem held_verifyTree (q : Nat) (s : State)  (hI : Held K Q F s) :
    Held K Q F (verifyTree q s) := by
  unfold verifyTree
  repeat' first
    | with_reducible assumption
    | with_reducible apply held_setVerdict
    | with_reducible apply held_pipWork
    | with_reducible apply held_updReq
    | dsimp only
    | split

theorem held_rowDone (k : RowKey) (r : RowResult) (s : State)  (hI : Held K Q F s) :
    Held K Q F (rowDone k r s) := by
  unfold rowDone
  repeat' first
    | with_reducible assumption
    | with_reducible apply held_updMergeAt
    | with_reducible apply held_trace
    | with_reducible apply held_verifyTree
    | with_reducible apply held_plainVerdict
    | with_reducible apply held_ite

theorem held_sendDown (k : RowKey) (n : Nat) (m : Msg) (s : State)  (hI : Held K Q F s) :
    Held K Q F (sendDown k n m s) := by
  unfold sendDown
  repeat' first
    | with_reducible assumption
    | intro _
    | with_reducible apply held_send
    | with_reducible apply held_foldl

theorem held_drawWork (k : RowKey) (e : ReqEntry) (own : List ShellEntry) (s : State)  (hI : Held K Q F s) :
    Held K Q F (drawWork k e own s) := by
  unfold drawWork
  repeat' first
    | with_reducible assumption
    | with_reducible apply held_pipWork

theorem held_drawDone (k : RowKey) (d : MdDraw) (s : State)  (hI : Held K Q F s) :
    Held K Q F (drawDone k d s) := by
  unfold drawDone
  repeat' first
    | with_reducible assumption
    | with_reducible apply held_rowDone
    | split

theorem held_advanceD (k : RowKey) (f : Nat) (n : Nat) (s : State) (hI : Held K Q F s) : Held K Q F (advanceD k f n s) := by
  induction f generalizing n s with
  | zero => exact hI
  | succ n_ ih =>
    unfold advanceD
    repeat' first
      | with_reducible assumption
      | with_reducible apply ih
      | with_reducible apply held_updMergeAt
      | with_reducible apply held_drawDone
      | with_reducible apply held_send
      | dsimp only
      | split

theorem held_applyEdge (edge : MbEdge) (s : State)  (hI : Held K Q F s) :
    Held K Q F (applyEdge edge s) := by
  unfold applyEdge
  try dsimp only
  repeat' first
    | with_reducible assumption
    | intro _
    | with_reducible apply held_updMergeAt
    | with_reducible apply held_sendDown
    | with_reducible apply held_phaseBEnds
    | with_reducible apply held_updForward
    | with_reducible apply held_advanceD
    | with_reducible apply held_foldl
    | with_reducible apply held_ite
    | with_reducible apply held_at
    | with_reducible apply heldAt_drop
    | with_reducible apply heldAt_put
    | simp only [held_mk]
    | split

theorem held_tokenLoss (k : RowKey) (b : MbShell) (s : State)  (hI : Held K Q F s) :
    Held K Q F (tokenLoss k b s) := by
  unfold tokenLoss
  repeat' first
    | with_reducible assumption
    | with_reducible apply held_updForward

theorem held_finishB (k : RowKey) (c : MaCut) (b : MbShell) (s : State)  (hI : Held K Q F s) :
    Held K Q F (finishB k c b s) := by
  unfold finishB
  repeat' first
    | with_reducible assumption
    | with_reducible apply held_updMergeAt
    | with_reducible apply held_applyEdge
    | with_reducible apply held_tokenLoss
    | with_reducible apply held_rowDone
    | split

theorem held_advanceB (k : RowKey) (f : Nat) (n : Nat) (s : State) (hI : Held K Q F s) : Held K Q F (advanceB k f n s) := by
  induction f generalizing n s with
  | zero => exact hI
  | succ n_ ih =>
    unfold advanceB
    repeat' first
      | with_reducible assumption
      | with_reducible apply ih
      | with_reducible apply held_updMergeAt
      | with_reducible apply held_finishB
      | with_reducible apply held_send
      | with_reducible apply held_onDup
      | with_reducible apply held_foldl
      | dsimp only
      | split

theorem held_shellReady (k : RowKey) (c : MaCut) (sum : Summary) (e : ReqEntry) (l : List ShellEntry) (s : State)  (hI : Held K Q F s) :
    Held K Q F (shellReady k c sum e l s) := by
  unfold shellReady
  try dsimp only
  repeat' first
    | with_reducible assumption
    | intro _
    | with_reducible apply held_advanceB
    | with_reducible apply held_updMergeAt
    | with_reducible apply held_drawWork
    | with_reducible apply held_foldl
    | with_reducible apply held_ite
    | with_reducible apply held_at
    | with_reducible apply heldAt_drop
    | with_reducible apply heldAt_put
    | simp only [held_mk]
    | split

theorem held_servingShell (k : RowKey) (c : MaCut) (sum : Summary) (e : ReqEntry) (s : State)  (hI : Held K Q F s) :
    Held K Q F (servingShell k c sum e s) := by
  unfold servingShell
  try dsimp only
  repeat' first
    | with_reducible assumption
    | intro _
    | with_reducible apply held_shellReady
    | with_reducible apply held_updMergeAt
    | with_reducible apply held_rejectRow
    | with_reducible apply held_count
    | with_reducible apply held_rowGone
    | with_reducible apply held_streamGo
    | with_reducible apply held_foldl
    | with_reducible apply held_ite
    | with_reducible apply held_at
    | with_reducible apply heldAt_drop
    | with_reducible apply heldAt_put
    | simp only [held_mk]
    | split

theorem held_rescoreRow (k : RowKey) (r : RowRec) (c : MaCut) (sum : Summary) (e : ReqEntry) (s : State)  (hI : Held K Q F s) :
    Held K Q F (rescoreRow k r c sum e s) := by
  unfold rescoreRow
  try dsimp only
  repeat' first
    | with_reducible assumption
    | intro _
    | with_reducible apply held_count
    | with_reducible apply held_trace
    | with_reducible apply held_takeShell
    | with_reducible apply held_shellFull
    | with_reducible apply held_streamGo
    | with_reducible apply held_shellReady
    | with_reducible apply held_foldl
    | with_reducible apply held_ite
    | with_reducible apply held_at
    | with_reducible apply heldAt_drop
    | with_reducible apply heldAt_put
    | simp only [held_mk]
    | split

theorem held_treeMismatch (k : RowKey) (s : State)  (hI : Held K Q F s) :
    Held K Q F (treeMismatch k s) := by
  unfold treeMismatch
  repeat' first
    | with_reducible assumption
    | intro _
    | with_reducible apply held_rejectRow
    | with_reducible apply held_count
    | with_reducible apply held_dropRows
    | with_reducible apply held_updMergeAt
    | with_reducible apply held_updReq
    | with_reducible apply held_foldl
    | with_reducible apply held_ite

theorem held_applyCut (c : MaCut) (s : State)  (hI : Held K Q F s) :
    Held K Q F (applyCut c s) := by
  unfold applyCut
  try dsimp only
  repeat' first
    | with_reducible assumption
    | intro _
    | with_reducible apply held_updMergeAt
    | with_reducible apply held_sendDown
    | with_reducible apply held_trace
    | with_reducible apply held_treeMismatch
    | with_reducible apply held_phaseBEnds
    | with_reducible apply held_advanceB
    | with_reducible apply held_servingShell
    | with_reducible apply held_foldl
    | with_reducible apply held_ite
    | with_reducible apply held_at
    | with_reducible apply heldAt_drop
    | with_reducible apply heldAt_put
    | simp only [held_mk]
    | split

theorem held_cutRows (q : Nat) (s : State)  (hI : Held K Q F s) :
    Held K Q F (cutRows q s) := by
  unfold cutRows
  repeat' first
    | with_reducible assumption
    | intro _
    | with_reducible apply held_applyCut
    | with_reducible apply held_rowDone
    | with_reducible apply held_foldl
    | dsimp only
    | split

theorem held_readCons (q : Nat) (s : State)  (hI : Held K Q F s) :
    Held K Q F (readCons q s) := by
  unfold readCons
  repeat' first
    | with_reducible assumption
    | with_reducible apply held_hmpRead
    | with_reducible apply held_updReq
    | split

theorem held_advanceA (k : RowKey) (f : Nat) (n : Nat) (s : State) (hI : Held K Q F s) : Held K Q F (advanceA k f n s) := by
  induction f generalizing n s with
  | zero => exact hI
  | succ n_ ih =>
    unfold advanceA
    repeat' first
      | with_reducible assumption
      | with_reducible apply ih
      | with_reducible apply held_updMergeAt
      | with_reducible apply held_applyCut
      | with_reducible apply held_cutRows
      | with_reducible apply held_readCons
      | with_reducible apply held_send
      | dsimp only
      | split

theorem held_neutralSum (k : RowKey) (failed : Bool) (s : State)  (hI : Held K Q F s) :
    Held K Q F (neutralSum k failed s) := by
  unfold neutralSum
  try dsimp only
  repeat' first
    | with_reducible assumption
    | intro _
    | with_reducible apply held_advanceA
    | with_reducible apply held_updMergeAt
    | with_reducible apply held_foldl
    | with_reducible apply held_ite
    | with_reducible apply held_at
    | with_reducible apply heldAt_drop
    | with_reducible apply heldAt_put
    | simp only [held_mk]
    | split

theorem held_sieveRow (k : RowKey) (s : State)  (hI : Held K Q F s) :
    Held K Q F (sieveRow k s) := by
  unfold sieveRow
  try dsimp only
  repeat' first
    | with_reducible assumption
    | intro _
    | with_reducible apply held_rescoreRow
    | with_reducible apply held_neutralSum
    | with_reducible apply held_count
    | with_reducible apply held_trace
    | with_reducible apply held_updMergeAt
    | with_reducible apply held_takeShell
    | with_reducible apply held_shellFull
    | with_reducible apply held_advanceA
    | with_reducible apply held_foldl
    | with_reducible apply held_ite
    | with_reducible apply held_at
    | with_reducible apply heldAt_drop
    | with_reducible apply heldAt_put
    | simp only [held_mk]
    | split

theorem held_sieveToken (k : RowKey) (s : State)  (hI : Held K Q F s) :
    Held K Q F (sieveToken k s) := by
  unfold sieveToken
  try dsimp only
  repeat' first
    | with_reducible assumption
    | intro _
    | with_reducible apply held_count
    | with_reducible apply held_shellFull
    | with_reducible apply held_advanceA
    | with_reducible apply held_updMergeAt
    | with_reducible apply held_takeShell
    | with_reducible apply held_foldl
    | with_reducible apply held_ite
    | with_reducible apply held_at
    | with_reducible apply heldAt_drop
    | with_reducible apply heldAt_put
    | simp only [held_mk]
    | split

theorem held_pipParity (k : RowKey) (f : PipFault) (s : State)  (hI : Held K Q F s) :
    Held K Q F (pipParity k f s) := by
  unfold pipParity
  try dsimp only
  repeat' first
    | with_reducible assumption
    | intro _
    | with_reducible apply held_parityError
    | with_reducible apply held_foldl
    | with_reducible apply held_ite
    | with_reducible apply held_at
    | with_reducible apply heldAt_drop
    | with_reducible apply heldAt_put
    | simp only [held_mk]
    | split

theorem held_sieveParity (k : RowKey) (f : PipFault) (s : State)  (hI : Held K Q F s) :
    Held K Q F (sieveParity k f s) := by
  unfold sieveParity
  try dsimp only
  repeat' first
    | with_reducible assumption
    | intro _
    | with_reducible apply held_pipParity
    | with_reducible apply held_updMergeAt
    | with_reducible apply held_foldl
    | with_reducible apply held_ite
    | with_reducible apply held_at
    | with_reducible apply heldAt_drop
    | with_reducible apply heldAt_put
    | simp only [held_mk]
    | split

theorem held_maSumArrives (src : Nat) (r : MaSum) (s : State)  (hI : Held K Q F s) :
    Held K Q F (maSumArrives src r s) := by
  unfold maSumArrives
  repeat' first
    | with_reducible assumption
    | with_reducible apply held_stale
    | with_reducible apply held_advanceA
    | with_reducible apply held_updMergeAt
    | dsimp only
    | split

theorem held_retryCut (c : MaCut) (s : State)  (hI : Held K Q F s) :
    Held K Q F (retryCut c s) := by
  unfold retryCut
  repeat' first
    | with_reducible assumption
    | with_reducible apply held_applyCut
    | with_reducible apply held_at
    | simp only [held_mk]

theorem held_retryTokens (s : State)  (hI : Held K Q F s) :
    Held K Q F (retryTokens s) := by
  unfold retryTokens
  repeat' first
    | with_reducible assumption
    | intro _
    | with_reducible apply held_retryCut
    | with_reducible apply held_foldl
    | split

theorem held_maCutArrives (c : MaCut) (s : State)  (hI : Held K Q F s) :
    Held K Q F (maCutArrives c s) := by
  unfold maCutArrives
  repeat' first
    | with_reducible assumption
    | with_reducible apply held_retryCut
    | with_reducible apply held_stale
    | with_reducible apply held_applyCut
    | with_reducible apply held_ite

theorem held_mbShellArrives (src : Nat) (r : MbShell) (s : State)  (hI : Held K Q F s) :
    Held K Q F (mbShellArrives src r s) := by
  unfold mbShellArrives
  repeat' first
    | with_reducible assumption
    | with_reducible apply held_stale
    | with_reducible apply held_advanceB
    | with_reducible apply held_updMergeAt
    | dsimp only
    | split

theorem held_mbEdgeArrives (r : MbEdge) (s : State)  (hI : Held K Q F s) :
    Held K Q F (mbEdgeArrives r s) := by
  unfold mbEdgeArrives
  repeat' first
    | with_reducible assumption
    | with_reducible apply held_stale
    | with_reducible apply held_applyEdge
    | with_reducible apply held_ite

theorem held_mdDrawArrives (src : Nat) (r : MdDraw) (s : State)  (hI : Held K Q F s) :
    Held K Q F (mdDrawArrives src r s) := by
  unfold mdDrawArrives
  repeat' first
    | with_reducible assumption
    | with_reducible apply held_stale
    | with_reducible apply held_advanceD
    | with_reducible apply held_updMergeAt
    | dsimp only
    | split

end Sys2Proof.Machine
end

