-- ==== Sys2Proof/Laws/HeldTraining.lean ====
section
/-! SUPPORT. What the operations of Machine/Training.lean keep (see Laws/Held.lean). -/

-- The proofs of this file are checked one after another: the whole package is one text under a limit on threads.
set_option Elab.async false

namespace Sys2Proof.Machine

variable {K : Kit} {Q : List Instr} {F : Fuses}

theorem held_updTrain (f : Training → Training) (s : State)  (hI : Held K Q F s) :
    Held K Q F (updTrain f s) := by
  unfold updTrain
  repeat' first
    | with_reducible assumption
    | with_reducible apply held_at
    | simp only [held_mk]

theorem held_updMicro (seq : Word) (f : Micro → Micro) (s : State)  (hI : Held K Q F s) :
    Held K Q F (updMicro seq f s) := by
  unfold updMicro
  repeat' first
    | with_reducible assumption
    | with_reducible apply held_updTrain

theorem held_slotWrites (part : Nat) (ws : List (Nat × Bytes)) (k : SlotKind) (seq : Word) (s : State)  (hI : Held K Q F s) :
    Held K Q F (slotWrites part ws k seq s) := by
  unfold slotWrites
  repeat' first
    | with_reducible assumption
    | intro _
    | with_reducible apply held_hmpWrite
    | with_reducible apply held_foldl

theorem held_openRead (c : Cmd) (d : Bytes) (s : State)  (hI : Held K Q F s) :
    Held K Q F (openRead c d s) := by
  unfold openRead
  repeat' first
    | with_reducible assumption
    | intro _
    | with_reducible apply held_judge
    | with_reducible apply held_await
    | with_reducible apply held_announce

theorem held_openCmd (c : Cmd) (s : State)  (hI : Held K Q F s) :
    Held K Q F (openCmd c s) := by
  unfold openCmd
  repeat' first
    | with_reducible assumption
    | with_reducible apply held_judge
    | with_reducible apply held_hmpRead

theorem held_fillDone (src : Nat) (s : State)  (hI : Held K Q F s) :
    Held K Q F (fillDone src s) := by
  unfold fillDone
  repeat' first
    | with_reducible assumption
    | with_reducible apply held_updTrain

theorem held_tellHolder (k : SlotKind) (seq : Word) (here : Nat → State → State) (s : State) (h_here : ∀ a0 a1, Held K Q F a1 → Held K Q F (here a0 a1)) (hI : Held K Q F s) :
    Held K Q F (tellHolder k seq here s) := by
  unfold tellHolder
  repeat' first
    | with_reducible assumption
    | with_reducible apply held_send
    | with_reducible apply h_here
    | with_reducible apply held_ite

theorem held_sessionOpens (s : State)  (hI : Held K Q F s) :
    Held K Q F (sessionOpens s) := by
  unfold sessionOpens
  try dsimp only
  repeat' first
    | with_reducible assumption
    | intro _
    | with_reducible apply held_updTrain
    | with_reducible apply held_foldl
    | with_reducible apply held_ite
    | with_reducible apply held_at
    | with_reducible apply heldAt_drop
    | with_reducible apply heldAt_put
    | simp only [held_mk]
    | split

theorem held_applyOpen (p : Nat) (d : SessionDesc) (s : State)  (hI : Held K Q F s) :
    Held K Q F (applyOpen p d s) := by
  unfold applyOpen
  try dsimp only
  repeat' first
    | with_reducible assumption
    | intro _
    | with_reducible apply held_sessionOpens
    | with_reducible apply held_tellHolder
    | with_reducible apply held_fillDone
    | with_reducible apply held_slotWrites
    | with_reducible apply held_foldl
    | with_reducible apply held_ite
    | with_reducible apply held_at
    | with_reducible apply heldAt_drop
    | with_reducible apply heldAt_put
    | simp only [held_mk]
    | split

theorem held_takePart (n : Nat) (s : State)  (hI : Held K Q F s) :
    Held K Q F (takePart n s) := by
  unfold takePart
  try dsimp only
  repeat' first
    | with_reducible assumption
    | intro _
    | with_reducible apply held_updTrain
    | with_reducible apply held_foldl
    | with_reducible apply held_ite
    | with_reducible apply held_at
    | with_reducible apply heldAt_drop
    | with_reducible apply heldAt_put
    | simp only [held_mk]
    | split

theorem held_startForward (c : Cmd) (d : MicroDesc) (s : State)  (hI : Held K Q F s) :
    Held K Q F (startForward c d s) := by
  unfold startForward
  repeat' first
    | with_reducible assumption
    | with_reducible apply held_await
    | with_reducible apply held_announce

theorem held_seqCounts (seq : Word) (s : State)  (hI : Held K Q F s) :
    Held K Q F (seqCounts seq s) := by
  unfold seqCounts
  try dsimp only
  repeat' first
    | with_reducible assumption
    | intro _
    | with_reducible apply held_updTrain
    | with_reducible apply held_foldl
    | with_reducible apply held_ite
    | with_reducible apply held_at
    | with_reducible apply heldAt_drop
    | with_reducible apply heldAt_put
    | simp only [held_mk]
    | split

theorem held_forwardRead (c : Cmd) (busy : Bool) (d : Bytes) (s : State)  (hI : Held K Q F s) :
    Held K Q F (forwardRead c busy d s) := by
  unfold forwardRead
  try dsimp only
  repeat' first
    | with_reducible assumption
    | intro _
    | with_reducible apply held_judge
    | with_reducible apply held_seqCounts
    | with_reducible apply held_updTrain
    | with_reducible apply held_startForward
    | with_reducible apply held_foldl
    | with_reducible apply held_ite
    | with_reducible apply held_at
    | with_reducible apply heldAt_drop
    | with_reducible apply heldAt_put
    | simp only [held_mk]
    | split

theorem held_forwardCmd (c : Cmd) (s : State)  (hI : Held K Q F s) :
    Held K Q F (forwardCmd c s) := by
  unfold forwardCmd
  repeat' first
    | with_reducible assumption
    | with_reducible apply held_judge
    | with_reducible apply held_hmpRead

theorem held_forwardFails (seq : Word) (st : Status) (s : State)  (hI : Held K Q F s) :
    Held K Q F (forwardFails seq st s) := by
  unfold forwardFails
  repeat' first
    | with_reducible assumption
    | with_reducible apply held_finish
    | with_reducible apply held_updTrain
    | with_reducible apply held_announce
    | with_reducible apply held_ite

theorem held_dropTokens (s : State)  (hI : Held K Q F s) :
    Held K Q F (dropTokens s) := by
  unfold dropTokens
  try dsimp only
  repeat' first
    | with_reducible assumption
    | intro _
    | with_reducible apply held_foldl
    | with_reducible apply held_ite
    | with_reducible apply held_at
    | with_reducible apply heldAt_drop
    | with_reducible apply heldAt_put
    | simp only [held_mk]
    | split

theorem held_applyForward (n : Nat) (d : MicroDesc) (s : State)  (hI : Held K Q F s) :
    Held K Q F (applyForward n d s) := by
  unfold applyForward
  try dsimp only
  repeat' first
    | with_reducible assumption
    | intro _
    | with_reducible apply held_forward
    | with_reducible apply held_dropTokens
    | with_reducible apply held_seqCounts
    | with_reducible apply held_updTrain
    | with_reducible apply held_trace
    | refine held_allocBlocks _ _ _ _ ?_ (by assumption)
    | with_reducible apply held_tellHolder
    | with_reducible apply held_forwardFails
    | with_reducible apply held_hmpRead
    | with_reducible apply held_foldl
    | with_reducible apply held_ite
    | with_reducible apply held_at
    | with_reducible apply heldAt_drop
    | with_reducible apply heldAt_put
    | simp only [held_mk]
    | split

theorem held_freeMicro (seq : Word) (s : State)  (hI : Held K Q F s) :
    Held K Q F (freeMicro seq s) := by
  unfold freeMicro
  try dsimp only
  repeat' first
    | with_reducible assumption
    | intro _
    | with_reducible apply held_freeUses
    | with_reducible apply held_dropTokens
    | with_reducible apply held_updTrain
    | with_reducible apply held_foldl
    | with_reducible apply held_ite
    | with_reducible apply held_at
    | with_reducible apply heldAt_drop
    | with_reducible apply heldAt_put
    | simp only [held_mk]
    | split

theorem held_targetsArrived (seq : Word) (bs : Option Bytes) (s : State)  (hI : Held K Q F s) :
    Held K Q F (targetsArrived seq bs s) := by
  unfold targetsArrived
  repeat' first
    | with_reducible assumption
    | intro _
    | with_reducible apply held_tellHolder
    | with_reducible apply held_forwardFails
    | with_reducible apply held_updMicro
    | dsimp only
    | split

theorem held_tileAgain (seq : Word) (tile : Nat) (s : State)  (hI : Held K Q F s) :
    Held K Q F (tileAgain seq tile s) := by
  unfold tileAgain
  try dsimp only
  repeat' first
    | with_reducible assumption
    | intro _
    | with_reducible apply held_updMicro
    | with_reducible apply held_foldl
    | with_reducible apply held_ite
    | with_reducible apply held_at
    | with_reducible apply heldAt_drop
    | with_reducible apply heldAt_put
    | simp only [held_mk]
    | split

theorem held_tileLost (seq : Word) (tile : Nat) (s : State)  (hI : Held K Q F s) :
    Held K Q F (tileLost seq tile s) := by
  unfold tileLost
  try dsimp only
  repeat' first
    | with_reducible assumption
    | intro _
    | with_reducible apply held_alarm
    | with_reducible apply held_count
    | with_reducible apply held_freeUses
    | with_reducible apply held_updMicro
    | with_reducible apply held_tileAgain
    | with_reducible apply held_announceOut
    | with_reducible apply held_foldl
    | with_reducible apply held_ite
    | with_reducible apply held_at
    | with_reducible apply heldAt_drop
    | with_reducible apply heldAt_put
    | simp only [held_mk]
    | split

theorem held_placeTile (t : Training) (seq : Word) (tile : Nat) (s : State) (hI : Held K Q F s) {u : State}
    (e : placeTile t seq tile s = some u) : Held K Q F u := by
  unfold placeTile at e
  dsimp only at e
  split at e
  · rename_i t' ht
    cases e
    exact held_updMicro _ _ _ (held_allocBlocks _ _ _ _ hI ht)
  · split at e
    · cases e
      exact held_updMicro _ _ _ hI
    · cases e

theorem held_spillTile (seq : Word) (tile : Nat) (s : State)  (hI : Held K Q F s) :
    Held K Q F (spillTile seq tile s) := by
  unfold spillTile
  repeat' first
    | with_reducible assumption
    | with_reducible apply held_hmpWrite
    | split

theorem held_lossGather (seq : Word) (s : State)  (hI : Held K Q F s) :
    Held K Q F (lossGather seq s) := by
  unfold lossGather
  repeat' first
    | with_reducible assumption
    | intro _
    | with_reducible apply held_updMicro
    | with_reducible apply held_send
    | with_reducible apply held_hmpWrite
    | with_reducible apply held_foldl
    | dsimp only
    | split

theorem held_normGather (s : State)  (hI : Held K Q F s) :
    Held K Q F (normGather s) := by
  unfold normGather
  repeat' first
    | with_reducible assumption
    | intro _
    | with_reducible apply held_updTrain
    | with_reducible apply held_send
    | with_reducible apply held_hmpWrite
    | with_reducible apply held_foldl
    | dsimp only
    | split

theorem held_trSumArrives (src : Nat) (r : TrSum) (s : State)  (hI : Held K Q F s) :
    Held K Q F (trSumArrives src r s) := by
  unfold trSumArrives
  repeat' first
    | with_reducible assumption
    | with_reducible apply held_stale
    | with_reducible apply held_normGather
    | with_reducible apply held_updTrain
    | with_reducible apply held_lossGather
    | with_reducible apply held_updMicro
    | split

theorem held_forwardDone (s : State)  (hI : Held K Q F s) :
    Held K Q F (forwardDone s) := by
  unfold forwardDone
  repeat' first
    | with_reducible assumption
    | intro _
    | with_reducible apply held_hmpWrite
    | with_reducible apply held_lossGather
    | with_reducible apply held_updMicro
    | with_reducible apply held_foldl
    | split

theorem held_readBank (t : Training) (base bank es : Nat) (h : StripHdr) (cells : List Cell) (why : Nat → Nat → Purpose) (s : State)  (hI : Held K Q F s) :
    Held K Q F (readBank t base bank es h cells why s) := by
  unfold readBank
  try dsimp only
  repeat' first
    | with_reducible assumption
    | intro _
    | with_reducible apply held_hmpRead
    | with_reducible apply held_foldl
    | with_reducible apply held_ite
    | with_reducible apply held_at
    | with_reducible apply heldAt_drop
    | with_reducible apply heldAt_put
    | simp only [held_mk]
    | split

theorem held_normCmd (c : Cmd) (s : State)  (hI : Held K Q F s) :
    Held K Q F (normCmd c s) := by
  unfold normCmd
  repeat' first
    | with_reducible assumption
    | intro _
    | with_reducible apply held_judge
    | with_reducible apply held_await
    | with_reducible apply held_announce

theorem held_normSettle (s : State)  (hI : Held K Q F s) :
    Held K Q F (normSettle s) := by
  unfold normSettle
  repeat' first
    | with_reducible assumption
    | with_reducible apply held_normGather
    | with_reducible apply held_updTrain
    | split

theorem held_applyNorm (addr : Nat) (s : State)  (hI : Held K Q F s) :
    Held K Q F (applyNorm addr s) := by
  unfold applyNorm
  try dsimp only
  repeat' first
    | with_reducible assumption
    | intro _
    | with_reducible apply held_updTrain
    | with_reducible apply held_normSettle
    | with_reducible apply held_readBank
    | with_reducible apply held_foldl
    | with_reducible apply held_ite
    | with_reducible apply held_at
    | with_reducible apply heldAt_drop
    | with_reducible apply heldAt_put
    | simp only [held_mk]
    | split

theorem held_normAgain (s : State)  (hI : Held K Q F s) :
    Held K Q F (normAgain s) := by
  unfold normAgain
  try dsimp only
  repeat' first
    | with_reducible assumption
    | intro _
    | with_reducible apply held_applyNorm
    | with_reducible apply held_foldl
    | with_reducible apply held_ite
    | with_reducible apply held_at
    | with_reducible apply heldAt_drop
    | with_reducible apply heldAt_put
    | simp only [held_mk]
    | split

theorem held_normArrived (chunk slot : Nat) (b : Bytes) (s : State)  (hI : Held K Q F s) :
    Held K Q F (normArrived chunk slot b s) := by
  unfold normArrived
  repeat' first
    | with_reducible assumption
    | with_reducible apply held_normSettle
    | with_reducible apply held_updTrain

theorem held_rsStream (t : Training) (seq : Word) (own : Nat → Nat → BitVec 96) (st port : Nat) (f : Nat)  (s : State) (hI : Held K Q F s) : Held K Q F (rsStream t seq own st port f s) := by
  induction f generalizing  s with
  | zero => exact hI
  | succ n_ ih =>
    unfold rsStream
    repeat' first
      | with_reducible assumption
      | with_reducible apply ih
      | with_reducible apply held_updMicro
      | with_reducible apply held_send
      | dsimp only
      | split

theorem held_rsSend (t : Training) (seq : Word) (own : Nat → Nat → BitVec 96) (fuel : Nat) (s : State)  (hI : Held K Q F s) :
    Held K Q F (rsSend t seq own fuel s) := by
  unfold rsSend
  try dsimp only
  repeat' first
    | with_reducible assumption
    | intro _
    | with_reducible apply held_rsStream
    | with_reducible apply held_foldl
    | with_reducible apply held_ite
    | with_reducible apply held_at
    | with_reducible apply heldAt_drop
    | with_reducible apply heldAt_put
    | simp only [held_mk]
    | split

theorem held_makeBeats (t : Training) (seq : Word) (own : Nat → Nat → BitVec 96) (clamp : Nat → Nat → Nat) (f : Nat)  (s : State) (hI : Held K Q F s) : Held K Q F (makeBeats t seq own clamp f s) := by
  induction f generalizing  s with
  | zero => exact hI
  | succ n_ ih =>
    unfold makeBeats
    repeat' first
      | with_reducible assumption
      | with_reducible apply ih
      | with_reducible apply held_updMicro
      | with_reducible apply held_at
      | simp only [held_mk]
      | split

theorem held_gradAdvance (seq : Word) (s : State)  (hI : Held K Q F s) :
    Held K Q F (gradAdvance seq s) := by
  unfold gradAdvance
  try dsimp only
  repeat' first
    | with_reducible assumption
    | intro _
    | with_reducible apply held_rsSend
    | with_reducible apply held_makeBeats
    | with_reducible apply held_foldl
    | with_reducible apply held_ite
    | with_reducible apply held_at
    | with_reducible apply heldAt_drop
    | with_reducible apply heldAt_put
    | simp only [held_mk]
    | split

theorem held_gradsAdvance (s : State)  (hI : Held K Q F s) :
    Held K Q F (gradsAdvance s) := by
  unfold gradsAdvance
  repeat' first
    | with_reducible assumption
    | intro _
    | with_reducible apply held_gradAdvance
    | with_reducible apply held_foldl

theorem held_rsBeginArrives (port : Nat) (r : RsBegin) (s : State)  (hI : Held K Q F s) :
    Held K Q F (rsBeginArrives port r s) := by
  unfold rsBeginArrives
  repeat' first
    | with_reducible assumption
    | with_reducible apply held_at
    | simp only [held_mk]

theorem held_rsFlitArrives (port : Nat) (form : RsForm) (body : Bytes) (s : State)  (hI : Held K Q F s) :
    Held K Q F (rsFlitArrives port form body s) := by
  unfold rsFlitArrives
  repeat' first
    | with_reducible assumption
    | with_reducible apply held_gradsAdvance
    | with_reducible apply held_updMicro
    | with_reducible apply held_at
    | simp only [held_mk]
    | split

theorem held_startBackward (c : Cmd) (seq : Word) (s : State)  (hI : Held K Q F s) :
    Held K Q F (startBackward c seq s) := by
  unfold startBackward
  repeat' first
    | with_reducible assumption
    | with_reducible apply held_await
    | with_reducible apply held_announce

theorem held_backwardCmd (c : Cmd) (s : State)  (hI : Held K Q F s) :
    Held K Q F (backwardCmd c s) := by
  unfold backwardCmd
  repeat' first
    | with_reducible assumption
    | intro _
    | with_reducible apply held_judge
    | with_reducible apply held_updTrain
    | with_reducible apply held_startBackward
    | with_reducible apply held_ite

theorem held_growFails (seq : Word) (st : Status) (s : State)  (hI : Held K Q F s) :
    Held K Q F (growFails seq st s) := by
  unfold growFails
  try dsimp only
  repeat' first
    | with_reducible assumption
    | intro _
    | with_reducible apply held_announce
    | with_reducible apply held_finish
    | with_reducible apply held_foldl
    | with_reducible apply held_ite
    | with_reducible apply held_at
    | with_reducible apply heldAt_drop
    | with_reducible apply heldAt_put
    | simp only [held_mk]
    | split

theorem held_dropGrowth (seq : Word) (s : State)  (hI : Held K Q F s) :
    Held K Q F (dropGrowth seq s) := by
  unfold dropGrowth
  try dsimp only
  repeat' first
    | with_reducible assumption
    | intro _
    | with_reducible apply held_freeUses
    | with_reducible apply held_updMicro
    | with_reducible apply held_foldl
    | with_reducible apply held_ite
    | with_reducible apply held_at
    | with_reducible apply heldAt_drop
    | with_reducible apply heldAt_put
    | simp only [held_mk]
    | split

theorem held_growBegins (seq : Word) (s : State) (hI : Held K Q F s) : Held K Q F (growBegins seq s) := by
  unfold growBegins
  dsimp only
  split
  · exact hI
  · split
    · rename_i t e
      refine held_bind (fun t e => held_allocBlocks _ _ _ _ ?_ e) (fun t u h e => ?_) e
      · simp only [held_mk]
        exact hI
      · split at e
        · exact held_allocBlocks _ _ _ _ h e
        · cases e
          exact h
    · refine held_tellHolder _ _ _ _ (fun _ t h => held_growFails _ _ _ h) ?_
      simp only [held_mk]
      exact hI

theorem held_applyBackward (seq : Word) (grow : Bool) (s : State)  (hI : Held K Q F s) :
    Held K Q F (applyBackward seq grow s) := by
  unfold applyBackward
  repeat' first
    | with_reducible assumption
    | intro _
    | with_reducible apply held_updMicro
    | with_reducible apply held_growBegins
    | with_reducible apply held_trace
    | with_reducible apply held_hmpRead
    | with_reducible apply held_gradAdvance
    | with_reducible apply held_foldl
    | split

theorem held_spillArrived (seq : Word) (tile : Nat) (bs : Option Bytes) (s : State)  (hI : Held K Q F s) :
    Held K Q F (spillArrived seq tile bs s) := by
  unfold spillArrived
  repeat' first
    | with_reducible assumption
    | with_reducible apply held_tileLost
    | with_reducible apply held_alarm
    | with_reducible apply held_gradAdvance
    | with_reducible apply held_updMicro
    | dsimp only
    | split

theorem held_saveToken (seq : Word) (u fmt : Nat) (payload : Bytes) (s : State) (hI : Held K Q F s) :
    Held K Q F (saveToken seq u fmt payload s) := by
  unfold saveToken
  split
  · dsimp only
    split
    · exact held_ite (held_tileLost _ _ _ hI) hI
    · rename_i u' hu
      have hu' : Held K Q F u' := by
        split at hu
        · cases hu; exact hI
        · exact held_placeTile _ _ _ _ hI hu
      clear hu
      repeat' first
        | with_reducible assumption
        | with_reducible apply held_gradAdvance
        | with_reducible apply held_ite
        | with_reducible apply held_spillTile
        | with_reducible apply held_updMicro
        | with_reducible apply held_pipWork
  · exact hI

theorem held_backwardReady (seq : Word) (src : Nat) (s : State)  (hI : Held K Q F s) :
    Held K Q F (backwardReady seq src s) := by
  unfold backwardReady
  repeat' first
    | with_reducible assumption
    | with_reducible apply held_updMicro

theorem held_writeAccs (t : Training) (h : Head) (hd : StripHdr) (m : Micro) (s : State)  (hI : Held K Q F s) :
    Held K Q F (writeAccs t h hd m s) := by
  unfold writeAccs
  try dsimp only
  repeat' first
    | with_reducible assumption
    | intro _
    | with_reducible apply held_updMicro
    | with_reducible apply held_tellHolder
    | with_reducible apply held_backwardReady
    | with_reducible apply held_slotWrites
    | with_reducible apply held_foldl
    | with_reducible apply held_ite
    | with_reducible apply held_at
    | with_reducible apply heldAt_drop
    | with_reducible apply heldAt_put
    | simp only [held_mk]
    | split

theorem held_backwardDone (grown : State → State) (s : State) (h_grown : ∀ a0, Held K Q F a0 → Held K Q F (grown a0)) (hI : Held K Q F s) :
    Held K Q F (backwardDone grown s) := by
  unfold backwardDone
  try dsimp only
  repeat' first
    | with_reducible assumption
    | intro _
    | with_reducible apply held_updMicro
    | with_reducible apply held_tellHolder
    | with_reducible apply held_backwardReady
    | with_reducible apply held_writeAccs
    | with_reducible apply held_readBank
    | with_reducible apply h_grown
    | with_reducible apply held_foldl
    | with_reducible apply held_ite
    | with_reducible apply held_at
    | with_reducible apply heldAt_drop
    | with_reducible apply heldAt_put
    | simp only [held_mk]
    | split

theorem held_accArrived (seq : Word) (chunk slot : Nat) (b : Bytes) (s : State)  (hI : Held K Q F s) :
    Held K Q F (accArrived seq chunk slot b s) := by
  unfold accArrived
  try dsimp only
  repeat' first
    | with_reducible assumption
    | intro _
    | with_reducible apply held_updMicro
    | with_reducible apply held_writeAccs
    | with_reducible apply held_foldl
    | with_reducible apply held_ite
    | with_reducible apply held_at
    | with_reducible apply heldAt_drop
    | with_reducible apply heldAt_put
    | simp only [held_mk]
    | split

theorem held_dropBackward (seq : Word) (s : State)  (hI : Held K Q F s) :
    Held K Q F (dropBackward seq s) := by
  unfold dropBackward
  try dsimp only
  repeat' first
    | with_reducible assumption
    | intro _
    | with_reducible apply held_updMicro
    | with_reducible apply held_dropGrowth
    | with_reducible apply held_foldl
    | with_reducible apply held_ite
    | with_reducible apply held_at
    | with_reducible apply heldAt_drop
    | with_reducible apply heldAt_put
    | simp only [held_mk]
    | split

theorem held_backwardFails (seq : Word) (s : State)  (hI : Held K Q F s) :
    Held K Q F (backwardFails seq s) := by
  unfold backwardFails
  try dsimp only
  repeat' first
    | with_reducible assumption
    | intro _
    | with_reducible apply held_announce
    | with_reducible apply held_finish
    | with_reducible apply held_foldl
    | with_reducible apply held_ite
    | with_reducible apply held_at
    | with_reducible apply heldAt_drop
    | with_reducible apply heldAt_put
    | simp only [held_mk]
    | split

theorem held_updateCmd (c : Cmd) (s : State)  (hI : Held K Q F s) :
    Held K Q F (updateCmd c s) := by
  unfold updateCmd
  repeat' first
    | with_reducible assumption
    | intro _
    | with_reducible apply held_judge
    | with_reducible apply held_await
    | with_reducible apply held_announce

theorem held_updateReady (src : Nat) (s : State)  (hI : Held K Q F s) :
    Held K Q F (updateReady src s) := by
  unfold updateReady
  repeat' first
    | with_reducible assumption
    | with_reducible apply held_updTrain

theorem held_readUpdate (s : State)  (hI : Held K Q F s) :
    Held K Q F (readUpdate s) := by
  unfold readUpdate
  try dsimp only
  repeat' first
    | with_reducible assumption
    | intro _
    | with_reducible apply held_readBank
    | with_reducible apply held_foldl
    | with_reducible apply held_ite
    | with_reducible apply held_at
    | with_reducible apply heldAt_drop
    | with_reducible apply heldAt_put
    | simp only [held_mk]
    | split

theorem held_applyUpdate (a : UpdateArgs) (s : State)  (hI : Held K Q F s) :
    Held K Q F (applyUpdate a s) := by
  unfold applyUpdate
  try dsimp only
  repeat' first
    | with_reducible assumption
    | intro _
    | with_reducible apply held_readUpdate
    | with_reducible apply held_trace
    | with_reducible apply held_updTrain
    | with_reducible apply held_foldl
    | with_reducible apply held_ite
    | with_reducible apply held_at
    | with_reducible apply heldAt_drop
    | with_reducible apply heldAt_put
    | simp only [held_mk]
    | split

theorem held_updAccArrived (chunk slot : Nat) (b : Bytes) (s : State)  (hI : Held K Q F s) :
    Held K Q F (updAccArrived chunk slot b s) := by
  unfold updAccArrived
  try dsimp only
  repeat' first
    | with_reducible assumption
    | intro _
    | with_reducible apply held_updTrain
    | with_reducible apply held_foldl
    | with_reducible apply held_ite
    | with_reducible apply held_at
    | with_reducible apply heldAt_drop
    | with_reducible apply heldAt_put
    | simp only [held_mk]
    | split

theorem held_updStateArrived (chunk slot : Nat) (b : Bytes) (s : State)  (hI : Held K Q F s) :
    Held K Q F (updStateArrived chunk slot b s) := by
  unfold updStateArrived
  try dsimp only
  repeat' first
    | with_reducible assumption
    | intro _
    | with_reducible apply held_updTrain
    | with_reducible apply held_foldl
    | with_reducible apply held_ite
    | with_reducible apply held_at
    | with_reducible apply heldAt_drop
    | with_reducible apply heldAt_put
    | simp only [held_mk]
    | split

theorem held_dropUpdate (s : State)  (hI : Held K Q F s) :
    Held K Q F (dropUpdate s) := by
  unfold dropUpdate
  try dsimp only
  repeat' first
    | with_reducible assumption
    | intro _
    | with_reducible apply held_updTrain
    | with_reducible apply held_foldl
    | with_reducible apply held_ite
    | with_reducible apply held_at
    | with_reducible apply heldAt_drop
    | with_reducible apply heldAt_put
    | simp only [held_mk]
    | split

theorem held_updateFails (s : State)  (hI : Held K Q F s) :
    Held K Q F (updateFails s) := by
  unfold updateFails
  try dsimp only
  repeat' first
    | with_reducible assumption
    | intro _
    | with_reducible apply held_announce
    | with_reducible apply held_finish
    | with_reducible apply held_foldl
    | with_reducible apply held_ite
    | with_reducible apply held_at
    | with_reducible apply heldAt_drop
    | with_reducible apply heldAt_put
    | simp only [held_mk]
    | split

theorem held_updateDone (s : State)  (hI : Held K Q F s) :
    Held K Q F (updateDone s) := by
  unfold updateDone
  try dsimp only
  repeat' first
    | with_reducible assumption
    | intro _
    | with_reducible apply held_updTrain
    | with_reducible apply held_tellHolder
    | with_reducible apply held_updateReady
    | with_reducible apply held_slotWrites
    | with_reducible apply held_foldl
    | with_reducible apply held_ite
    | with_reducible apply held_at
    | with_reducible apply heldAt_drop
    | with_reducible apply heldAt_put
    | simp only [held_mk]
    | split

theorem held_rebuildRetired (p first : Nat) (s : State)  (hI : Held K Q F s) :
    Held K Q F (rebuildRetired p first s) := by
  unfold rebuildRetired
  try dsimp only
  repeat' first
    | with_reducible assumption
    | intro _
    | with_reducible apply held_readBank
    | with_reducible apply held_foldl
    | with_reducible apply held_ite
    | with_reducible apply held_at
    | with_reducible apply heldAt_drop
    | with_reducible apply heldAt_put
    | simp only [held_mk]
    | split

theorem held_retiredArrived (p first chunk slot : Nat) (bs : Option Bytes) (s : State)  (hI : Held K Q F s) :
    Held K Q F (retiredArrived p first chunk slot bs s) := by
  unfold retiredArrived
  try dsimp only
  repeat' first
    | with_reducible assumption
    | intro _
    | with_reducible apply held_gradsAdvance
    | with_reducible apply held_rebuildRetired
    | with_reducible apply held_foldl
    | with_reducible apply held_ite
    | with_reducible apply held_at
    | with_reducible apply heldAt_drop
    | with_reducible apply heldAt_put
    | simp only [held_mk]
    | split

theorem held_closeCmd (c : Cmd) (s : State)  (hI : Held K Q F s) :
    Held K Q F (closeCmd c s) := by
  unfold closeCmd
  repeat' first
    | with_reducible assumption
    | intro _
    | with_reducible apply held_judge
    | with_reducible apply held_await
    | with_reducible apply held_announce

theorem held_endSession (s : State) (hI : Held K Q F s) : Held K Q F (endSession s) := by
  unfold endSession
  split
  · exact hI
  · exact hI

theorem held_startWaiting (s : State)  (hI : Held K Q F s) :
    Held K Q F (startWaiting s) := by
  unfold startWaiting
  repeat' first
    | with_reducible assumption
    | with_reducible apply held_startForward
    | with_reducible apply held_updTrain
    | with_reducible apply held_startBackward
    | split

theorem held_trainStamp (n : Nat) (s : State)  (hI : Held K Q F s) :
    Held K Q F (trainStamp n s) := by
  unfold trainStamp
  repeat' first
    | with_reducible assumption
    | with_reducible apply held_announce
    | with_reducible apply held_finish
    | dsimp only
    | split

theorem held_forwardCommits (seq : Word) (s : State)  (hI : Held K Q F s) :
    Held K Q F (forwardCommits seq s) := by
  unfold forwardCommits
  try dsimp only
  repeat' first
    | with_reducible assumption
    | intro _
    | with_reducible apply held_updMicro
    | with_reducible apply held_updTrain
    | with_reducible apply held_trace
    | with_reducible apply held_dropTokens
    | with_reducible apply held_finish
    | with_reducible apply held_foldl
    | with_reducible apply held_ite
    | with_reducible apply held_at
    | with_reducible apply heldAt_drop
    | with_reducible apply heldAt_put
    | simp only [held_mk]
    | split

theorem held_backwardCommits (seq : Word) (s : State)  (hI : Held K Q F s) :
    Held K Q F (backwardCommits seq s) := by
  unfold backwardCommits
  repeat' first
    | with_reducible assumption
    | with_reducible apply held_trace
    | with_reducible apply held_freeMicro
    | with_reducible apply held_updTrain
    | with_reducible apply held_finish
    | with_reducible apply held_startWaiting
    | with_reducible apply held_at
    | simp only [held_mk]

theorem held_updateCommits (s : State)  (hI : Held K Q F s) :
    Held K Q F (updateCommits s) := by
  unfold updateCommits
  repeat' first
    | with_reducible assumption
    | with_reducible apply held_freeUses
    | with_reducible apply held_updTrain
    | with_reducible apply held_startWaiting
    | with_reducible apply held_finish
    | with_reducible apply held_trace
    | with_reducible apply held_at
    | simp only [held_mk]
    | split

theorem held_normCommits (s : State)  (hI : Held K Q F s) :
    Held K Q F (normCommits s) := by
  unfold normCommits
  repeat' first
    | with_reducible assumption
    | with_reducible apply held_finish
    | with_reducible apply held_updTrain

theorem held_discardForward (seq : Word) (s : State)  (hI : Held K Q F s) :
    Held K Q F (discardForward seq s) := by
  unfold discardForward
  try dsimp only
  repeat' first
    | with_reducible assumption
    | intro _
    | with_reducible apply held_startWaiting
    | with_reducible apply held_freeMicro
    | with_reducible apply held_updTrain
    | with_reducible apply held_foldl
    | with_reducible apply held_ite
    | with_reducible apply held_at
    | with_reducible apply heldAt_drop
    | with_reducible apply heldAt_put
    | simp only [held_mk]
    | split

end Sys2Proof.Machine
end

