-- ==== Sys2Proof/Laws/HeldMask.lean ====
section
/-! SUPPORT. What the operations of Machine/Mask.lean keep (see Laws/Held.lean). -/

-- The proofs of this file are checked one after another: the whole package is one text under a limit on threads.
set_option Elab.async false

namespace Sys2Proof.Machine

variable {K : Kit} {Q : List Instr} {F : Fuses}

theorem held_updPlan (p : Nat) (f : Plan → Plan) (s : State)  (hI : Held K Q F s) :
    Held K Q F (updPlan p f s) := by
  unfold updPlan
  repeat' first
    | with_reducible assumption
    | with_reducible apply held_at
    | simp only [held_mk]

theorem held_selectEnds (p : Nat) (r : PassEnd) (s : State)  (hI : Held K Q F s) :
    Held K Q F (selectEnds p r s) := by
  unfold selectEnds
  repeat' first
    | with_reducible assumption
    | with_reducible apply held_freeUses
    | with_reducible apply held_updPlan
    | with_reducible apply held_finish
    | split

theorem held_passArrives (p : Nat) (others_ : SelMerge) (s : State)  (hI : Held K Q F s) :
    Held K Q F (passArrives p others_ s) := by
  unfold passArrives
  repeat' first
    | with_reducible assumption
    | with_reducible apply held_updPlan
    | with_reducible apply held_selectEnds
    | dsimp only
    | split

theorem held_pruneCmd (c : Cmd) (s : State)  (hI : Held K Q F s) :
    Held K Q F (pruneCmd c s) := by
  unfold pruneCmd
  repeat' first
    | with_reducible assumption
    | intro _
    | with_reducible apply held_judge
    | with_reducible apply held_await
    | with_reducible apply held_announce

theorem held_pruneFails (p : Nat) (st : Status) (s : State)  (hI : Held K Q F s) :
    Held K Q F (pruneFails p st s) := by
  unfold pruneFails
  try dsimp only
  repeat' first
    | with_reducible assumption
    | intro _
    | with_reducible apply held_announce
    | with_reducible apply held_finish
    | with_reducible apply held_foldl
    | with_reducible apply held_ite
    | with_reducible apply held_at
    | with_reducible apply heldAt_drop
    | with_reducible apply heldAt_put
    | simp only [held_mk]
    | split

theorem held_dropPrune (s : State)  (hI : Held K Q F s) :
    Held K Q F (dropPrune s) := by
  unfold dropPrune
  try dsimp only
  repeat' first
    | with_reducible assumption
    | intro _
    | with_reducible apply held_freeUses
    | with_reducible apply held_foldl
    | with_reducible apply held_ite
    | with_reducible apply held_at
    | with_reducible apply heldAt_drop
    | with_reducible apply heldAt_put
    | simp only [held_mk]
    | split

theorem held_applyPrune (tile perSlice : Bool) (k : Nat) (s : State) (hI : Held K Q F s) : Held K Q F (applyPrune tile perSlice k s) := by
  unfold applyPrune
  split
  · exact hI
  · dsimp only
    split
    · rename_i u e
      have h := held_bind (fun t e => held_allocBlocks _ _ _ _ hI e) (fun t u h e => held_allocBlocks _ _ _ _ h e) e
      simp only [held_mk]
      exact h
    · refine held_tellHolder _ _ _ _ (fun _ t h => held_pruneFails _ _ _ h) ?_
      simp only [held_mk]
      exact hI

theorem held_growCmd (c : Cmd) (s : State)  (hI : Held K Q F s) :
    Held K Q F (growCmd c s) := by
  unfold growCmd
  repeat' first
    | with_reducible assumption
    | intro _
    | with_reducible apply held_judge
    | with_reducible apply held_await
    | with_reducible apply held_updPlan

theorem held_growSwap (s : State)  (hI : Held K Q F s) :
    Held K Q F (growSwap s) := by
  unfold growSwap
  repeat' first
    | with_reducible assumption
    | with_reducible apply held_updPlan
    | split

theorem held_buildBlocks (p : Nat) (h : Head) (new : List Strip) (s : State) (hI : Held K Q F s) {t : State}
    (e : buildBlocks p h new s = .ok t) : Held K Q F t := by
  unfold buildBlocks at e
  dsimp only at e
  split at e
  · cases e
  · rename_i t' ht
    exact held_allocBlocks _ _ _ _ (held_allocBlocks _ _ _ _ hI ht) e

theorem held_buildFails (p : Nat) (st : Status) (s : State)  (hI : Held K Q F s) :
    Held K Q F (buildFails p st s) := by
  unfold buildFails
  repeat' first
    | with_reducible assumption
    | with_reducible apply held_announce
    | with_reducible apply held_finish
    | with_reducible apply held_ite

theorem held_buildReady (src : Nat) (s : State)  (hI : Held K Q F s) :
    Held K Q F (buildReady src s) := by
  unfold buildReady
  repeat' first
    | with_reducible assumption
    | with_reducible apply held_updPlan

theorem held_applyBarrier (const : Bool) (c : F32) (s : State)  (hI : Held K Q F s) :
    Held K Q F (applyBarrier const c s) := by
  unfold applyBarrier
  repeat' first
    | with_reducible assumption
    | intro _
    | with_reducible apply held_updPlan
    | refine held_buildBlocks _ _ _ _ ?_ (by assumption)
    | with_reducible apply held_tellHolder
    | with_reducible apply held_buildFails
    | with_reducible apply held_buildReady
    | dsimp only
    | split

theorem held_barrierCmd (c : Cmd) (s : State)  (hI : Held K Q F s) :
    Held K Q F (barrierCmd c s) := by
  unfold barrierCmd
  repeat' first
    | with_reducible assumption
    | intro _
    | with_reducible apply held_judge
    | with_reducible apply held_announce
    | with_reducible apply held_await
    | with_reducible apply held_updPlan

theorem held_barrierStamp (n : Nat) (s : State)  (hI : Held K Q F s) :
    Held K Q F (barrierStamp n s) := by
  unfold barrierStamp
  repeat' first
    | with_reducible assumption
    | with_reducible apply held_announce
    | dsimp only
    | split

theorem held_imageWritten (src : Nat) (s : State)  (hI : Held K Q F s) :
    Held K Q F (imageWritten src s) := by
  unfold imageWritten
  repeat' first
    | with_reducible assumption
    | with_reducible apply held_updPlan
    | with_reducible apply held_finish
    | with_reducible apply held_at
    | simp only [held_mk]
    | split

theorem held_hostImageDone (s : State)  (hI : Held K Q F s) :
    Held K Q F (hostImageDone s) := by
  unfold hostImageDone
  repeat' first
    | with_reducible assumption
    | with_reducible apply held_tellHolder
    | with_reducible apply held_imageWritten
    | with_reducible apply held_ite
    | with_reducible apply held_at
    | simp only [held_mk]

theorem held_headTold (p : Nat) (id : HeadId) (s : State)  (hI : Held K Q F s) :
    Held K Q F (headTold p id s) := by
  unfold headTold
  try dsimp only
  repeat' first
    | with_reducible assumption
    | intro _
    | with_reducible apply held_announceOut
    | with_reducible apply held_foldl
    | with_reducible apply held_ite
    | with_reducible apply held_at
    | with_reducible apply heldAt_drop
    | with_reducible apply heldAt_put
    | simp only [held_mk]
    | split

theorem held_barrierCommits (s : State)  (hI : Held K Q F s) :
    Held K Q F (barrierCommits s) := by
  unfold barrierCommits
  try dsimp only
  repeat' first
    | with_reducible assumption
    | intro _
    | with_reducible apply held_freeUses
    | with_reducible apply held_headTold
    | with_reducible apply held_updPlan
    | with_reducible apply held_updTrain
    | with_reducible apply held_hostImageDone
    | with_reducible apply held_slotWrites
    | with_reducible apply held_startWaiting
    | with_reducible apply held_foldl
    | with_reducible apply held_ite
    | with_reducible apply held_at
    | with_reducible apply heldAt_drop
    | with_reducible apply heldAt_put
    | simp only [held_mk]
    | split

theorem held_barrierDrops (s : State)  (hI : Held K Q F s) :
    Held K Q F (barrierDrops s) := by
  unfold barrierDrops
  repeat' first
    | with_reducible assumption
    | with_reducible apply held_startWaiting
    | with_reducible apply held_updPlan
    | with_reducible apply held_freeUses
    | split

theorem held_discardCmd (c : Cmd) (s : State)  (hI : Held K Q F s) :
    Held K Q F (discardCmd c s) := by
  unfold discardCmd
  repeat' first
    | with_reducible assumption
    | intro _
    | with_reducible apply held_judge
    | with_reducible apply held_await
    | with_reducible apply held_announce

theorem held_applyDiscard (s : State)  (hI : Held K Q F s) :
    Held K Q F (applyDiscard s) := by
  unfold applyDiscard
  try dsimp only
  repeat' first
    | with_reducible assumption
    | intro _
    | with_reducible apply held_freeUses
    | with_reducible apply held_updTrain
    | with_reducible apply held_finish
    | with_reducible apply held_startWaiting
    | with_reducible apply held_foldl
    | with_reducible apply held_ite
    | with_reducible apply held_at
    | with_reducible apply heldAt_drop
    | with_reducible apply heldAt_put
    | simp only [held_mk]
    | split

theorem held_maskStatusCmd (c : Cmd) (s : State)  (hI : Held K Q F s) :
    Held K Q F (maskStatusCmd c s) := by
  unfold maskStatusCmd
  repeat' first
    | with_reducible assumption
    | intro _
    | with_reducible apply held_judge
    | with_reducible apply held_complete

theorem held_normFails (s : State)  (hI : Held K Q F s) :
    Held K Q F (normFails s) := by
  unfold normFails
  repeat' first
    | with_reducible assumption
    | with_reducible apply held_announceOut
    | with_reducible apply held_finish
    | with_reducible apply held_updTrain
    | with_reducible apply held_ite

theorem held_slotTold (src : Nat) (k : SlotKind) (seq : Word) (s : State)  (hI : Held K Q F s) :
    Held K Q F (slotTold src k seq s) := by
  unfold slotTold
  try dsimp only
  repeat' first
    | with_reducible assumption
    | intro _
    | with_reducible apply held_fillDone
    | with_reducible apply held_forwardFails
    | with_reducible apply held_backwardReady
    | with_reducible apply held_normFails
    | with_reducible apply held_updateReady
    | with_reducible apply held_buildReady
    | with_reducible apply held_buildFails
    | with_reducible apply held_imageWritten
    | with_reducible apply held_pruneFails
    | with_reducible apply held_growFails
    | with_reducible apply held_backwardFails
    | with_reducible apply held_updateFails
    | with_reducible apply held_foldl
    | with_reducible apply held_ite
    | with_reducible apply held_at
    | with_reducible apply heldAt_drop
    | with_reducible apply heldAt_put
    | simp only [held_mk]
    | split

theorem held_slotCommits (k : SlotKind) (seq : Word) (s : State)  (hI : Held K Q F s) :
    Held K Q F (slotCommits k seq s) := by
  unfold slotCommits
  try dsimp only
  repeat' first
    | with_reducible assumption
    | intro _
    | with_reducible apply held_discardForward
    | with_reducible apply held_forwardCommits
    | with_reducible apply held_backwardCommits
    | with_reducible apply held_normCommits
    | with_reducible apply held_updateCommits
    | with_reducible apply held_barrierCommits
    | with_reducible apply held_barrierDrops
    | with_reducible apply held_sessionOpens
    | with_reducible apply held_dropPrune
    | with_reducible apply held_dropGrowth
    | with_reducible apply held_dropBackward
    | with_reducible apply held_dropUpdate
    | with_reducible apply held_foldl
    | with_reducible apply held_ite
    | with_reducible apply held_at
    | with_reducible apply heldAt_drop
    | with_reducible apply heldAt_put
    | simp only [held_mk]
    | split

theorem held_slotWritten (k : SlotKind) (seq : Word) (s : State)  (hI : Held K Q F s) :
    Held K Q F (slotWritten k seq s) := by
  unfold slotWritten
  repeat' first
    | with_reducible assumption
    | with_reducible apply held_tellHolder
    | with_reducible apply held_fillDone
    | with_reducible apply held_updMicro
    | with_reducible apply held_updTrain
    | with_reducible apply held_backwardReady
    | with_reducible apply held_updateReady
    | with_reducible apply held_hostImageDone
    | split

end Sys2Proof.Machine
end

