-- ==== Sys2Proof/Laws/HeldPans.lean ====
section
/-! SUPPORT. What the operations of Machine/Pans.lean keep (see Laws/Held.lean). -/

-- The proofs of this file are checked one after another: the whole package is one text under a limit on threads.
set_option Elab.async false

namespace Sys2Proof.Machine

variable {K : Kit} {Q : List Instr} {F : Fuses}

theorem held_dropCopies (f : StripId → Nat → Bool) (s : State)  (hI : Held K Q F s) :
    Held K Q F (dropCopies f s) := by
  unfold dropCopies
  repeat' first
    | with_reducible assumption
    | with_reducible apply held_at
    | simp only [held_mk]

theorem held_fencePan (n : Nat) (s : State)  (hI : Held K Q F s) :
    Held K Q F (fencePan n s) := by
  unfold fencePan
  repeat' first
    | with_reducible assumption
    | with_reducible apply held_dropCopies
    | with_reducible apply held_alarm
    | with_reducible apply held_ite
    | with_reducible apply held_at
    | simp only [held_mk]

theorem held_heatUp (i : StripId) (n : Nat) (s : State)  (hI : Held K Q F s) :
    Held K Q F (heatUp i n s) := by
  unfold heatUp
  repeat' first
    | with_reducible assumption
    | with_reducible apply held_at
    | simp only [held_mk]

theorem held_passDone (p : PassInfo) (s : State)  (hI : Held K Q F s) :
    Held K Q F (passDone p s) := by
  unfold passDone
  try dsimp only
  repeat' first
    | with_reducible assumption
    | intro _
    | with_reducible apply held_perf
    | with_reducible apply held_fencePan
    | with_reducible apply held_heatUp
    | with_reducible apply held_trace
    | with_reducible apply held_streamGo
    | with_reducible apply held_foldl
    | with_reducible apply held_ite
    | with_reducible apply held_at
    | with_reducible apply heldAt_drop
    | with_reducible apply heldAt_put
    | simp only [held_mk]
    | split

theorem held_startCopy (i : StripId) (n : Nat) (s : State)  (hI : Held K Q F s) :
    Held K Q F (startCopy i n s) := by
  unfold startCopy
  try dsimp only
  repeat' first
    | with_reducible assumption
    | intro _
    | with_reducible apply held_foldl
    | with_reducible apply held_ite
    | with_reducible apply held_at
    | with_reducible apply heldAt_drop
    | with_reducible apply heldAt_put
    | simp only [held_mk]
    | split

theorem held_planCopy (k : Nat) (i : StripId) (s : State)  (hI : Held K Q F s) :
    Held K Q F (planCopy k i s).1 := by
  unfold planCopy
  try dsimp only
  repeat' first
    | with_reducible assumption
    | intro _
    | with_reducible apply held_startCopy
    | dsimp only
    | with_reducible apply held_foldl
    | with_reducible apply held_ite
    | with_reducible apply held_at
    | with_reducible apply heldAt_drop
    | with_reducible apply heldAt_put
    | simp only [held_mk]
    | split

theorem held_planRound (n : Nat) (l : List StripId) (moved : Nat) (s : State) (hI : Held K Q F s) : Held K Q F (planRound n l moved s) := by
  induction l generalizing moved s with
  | nil => exact hI
  | cons i l ih =>
    unfold planRound
    dsimp only
    exact held_ite (ih _ _ hI) (ih _ _ (held_planCopy _ _ _ hI))

theorem held_stockpotPlan (s : State)  (hI : Held K Q F s) :
    Held K Q F (stockpotPlan s).1 := by
  unfold stockpotPlan
  try dsimp only
  repeat' first
    | with_reducible assumption
    | intro _
    | dsimp only
    | with_reducible apply held_foldl
    | with_reducible apply held_ite
    | with_reducible apply held_at
    | with_reducible apply heldAt_drop
    | with_reducible apply heldAt_put
    | simp only [held_mk]
    | split

theorem held_placementPlan (s : State)  (hI : Held K Q F s) :
    Held K Q F (placementPlan s) := by
  unfold placementPlan
  try dsimp only
  repeat' first
    | with_reducible assumption
    | intro _
    | with_reducible apply held_stockpotPlan
    | with_reducible apply held_planRound
    | with_reducible apply held_foldl
    | with_reducible apply held_ite
    | with_reducible apply held_at
    | with_reducible apply heldAt_drop
    | with_reducible apply heldAt_put
    | simp only [held_mk]
    | split

theorem held_ageHeat (s : State)  (hI : Held K Q F s) :
    Held K Q F (ageHeat s) := by
  unfold ageHeat
  repeat' first
    | with_reducible assumption
    | with_reducible apply held_at
    | simp only [held_mk]

theorem held_dropStale (f : StripId → Bool) (s : State)  (hI : Held K Q F s) :
    Held K Q F (dropStale f s) := by
  unfold dropStale
  repeat' first
    | with_reducible assumption
    | with_reducible apply held_dropCopies

theorem held_copyDone (i : StripId) (n : Nat) (s : State)  (hI : Held K Q F s) :
    Held K Q F (copyDone i n s) := by
  unfold copyDone
  repeat' first
    | with_reducible assumption
    | with_reducible apply held_trace
    | with_reducible apply held_ite
    | with_reducible apply held_at
    | simp only [held_mk]

end Sys2Proof.Machine
end

