-- ==== Sys2Proof/Laws/HeldPower.lean ====
section
/-! SUPPORT. What the operations of Machine/Power.lean keep (see Laws/Held.lean). -/

-- The proofs of this file are checked one after another: the whole package is one text under a limit on threads.
set_option Elab.async false

namespace Sys2Proof.Machine

variable {K : Kit} {Q : List Instr} {F : Fuses}

theorem held_updPair (p : Nat) (f : Pair → Pair) (s : State)  (hI : Held K Q F s) :
    Held K Q F (updPair p f s) := by
  unfold updPair
  repeat' first
    | with_reducible assumption
    | with_reducible apply held_at
    | simp only [held_mk]

theorem held_setPair (p mhz : Nat) (s : State)  (hI : Held K Q F s) :
    Held K Q F (setPair p mhz s) := by
  unfold setPair
  repeat' first
    | with_reducible assumption
    | with_reducible apply held_trace
    | with_reducible apply held_updPair

theorem held_settlePairs (s : State)  (hI : Held K Q F s) :
    Held K Q F (settlePairs s) := by
  unfold settlePairs
  repeat' first
    | with_reducible assumption
    | intro _
    | with_reducible apply held_updPair
    | with_reducible apply held_setPair
    | with_reducible apply held_foldl
    | with_reducible apply held_ite

theorem held_planDomain (pans : List Nat) (s : State) (d : Nat)  (hI : Held K Q F s) :
    Held K Q F (planDomain pans s d) := by
  unfold planDomain
  repeat' first
    | with_reducible assumption
    | with_reducible apply held_ite
    | with_reducible apply held_at
    | with_reducible apply heldAt_drop
    | simp only [held_mk]

theorem held_planPower (pans : List Nat) (s : State)  (hI : Held K Q F s) :
    Held K Q F (planPower pans s) := by
  unfold planPower
  repeat' first
    | with_reducible assumption
    | with_reducible apply held_settlePairs
    | with_reducible apply held_planDomain
    | with_reducible apply held_foldl
    | with_reducible apply held_ite

theorem held_powerPlan (s : State)  (hI : Held K Q F s) :
    Held K Q F (powerPlan s) := by
  unfold powerPlan
  repeat' first
    | with_reducible assumption
    | with_reducible apply held_planPower

theorem held_wakePans (s : State)  (hI : Held K Q F s) :
    Held K Q F (wakePans s) := by
  unfold wakePans
  repeat' first
    | with_reducible assumption
    | with_reducible apply held_powerPlan
    | with_reducible apply held_ite
    | with_reducible apply held_at
    | simp only [held_mk]

theorem held_pwrAck (d : Nat) (s : State)  (hI : Held K Q F s) :
    Held K Q F (pwrAck d s) := by
  unfold pwrAck
  repeat' first
    | with_reducible assumption
    | with_reducible apply held_wakePans
    | with_reducible apply held_ite
    | with_reducible apply held_at
    | simp only [held_mk]

theorem held_panIdleOff (n : Nat) (s : State)  (hI : Held K Q F s) :
    Held K Q F (panIdleOff n s) := by
  unfold panIdleOff
  repeat' first
    | with_reducible assumption
    | with_reducible apply held_planPower
    | with_reducible apply held_ite

theorem held_agePans (s : State)  (hI : Held K Q F s) :
    Held K Q F (agePans s) := by
  unfold agePans
  repeat' first
    | with_reducible assumption
    | with_reducible apply held_at
    | simp only [held_mk]

theorem held_fencePair (p : Nat) (s : State)  (hI : Held K Q F s) :
    Held K Q F (fencePair p s) := by
  unfold fencePair
  repeat' first
    | with_reducible assumption
    | with_reducible apply held_powerPlan
    | with_reducible apply held_fencePan

theorem held_vfLoop (p stretched cycles : Nat) (quiet : Bool) (s : State)  (hI : Held K Q F s) :
    Held K Q F (vfLoop p stretched cycles quiet s) := by
  unfold vfLoop
  repeat' first
    | with_reducible assumption
    | with_reducible apply held_setPair
    | with_reducible apply held_fencePair
    | with_reducible apply held_updPair
    | dsimp only
    | split

theorem held_vackRises (p : Nat) (s : State)  (hI : Held K Q F s) :
    Held K Q F (vackRises p s) := by
  unfold vackRises
  repeat' first
    | with_reducible assumption
    | with_reducible apply held_setPair
    | split

theorem held_alertRise (s : State)  (hI : Held K Q F s) :
    Held K Q F (alertRise s) := by
  unfold alertRise
  repeat' first
    | with_reducible assumption
    | intro _
    | with_reducible apply held_setPair
    | with_reducible apply held_foldl
    | with_reducible apply held_ite
    | with_reducible apply held_at
    | simp only [held_mk]

theorem held_alertFall (s : State)  (hI : Held K Q F s) :
    Held K Q F (alertFall s) := by
  unfold alertFall
  repeat' first
    | with_reducible assumption
    | with_reducible apply held_at
    | simp only [held_mk]

theorem held_droop (p : Nat) (s : State)  (hI : Held K Q F s) :
    Held K Q F (droop p s) := by
  unfold droop
  repeat' first
    | with_reducible assumption
    | with_reducible apply held_perf
    | with_reducible apply held_updPair
    | with_reducible apply held_ite

theorem held_pwrEst (s : State)  (hI : Held K Q F s) :
    Held K Q F (pwrEst s) := by
  unfold pwrEst
  repeat' first
    | with_reducible assumption
    | with_reducible apply held_at
    | simp only [held_mk]

end Sys2Proof.Machine
end

