-- ==== Sys2Proof/Laws/HeldHip.lean ====
section
/-! SUPPORT. What the operations of Machine/Hip.lean keep (see Laws/Held.lean). -/

-- The proofs of this file are checked one after another: the whole package is one text under a limit on threads.
set_option Elab.async false

namespace Sys2Proof.Machine

variable {K : Kit} {Q : List Instr} {F : Fuses}

theorem held_updHip (c : HipClass) (f : HipPort → HipPort) (s : State) (hf : HipOk (hipPort s c) → HipOk (f (hipPort s c))) (hI : Held K Q F s) :
    Held K Q F (updHip c f s) := by
  obtain ⟨h1, h2, h3, h4, h5, h6, h7⟩ := hI
  cases c
  · exact ⟨h1, h2, h3, h4, hf h5, h6, h7⟩
  · exact ⟨h1, h2, h3, h4, h5, hf h6, h7⟩

theorem held_returnCredits (s : State) (hI : Held K Q F s) : Held K Q F (returnCredits s) := by
  unfold returnCredits
  split
  · exact hI
  · obtain ⟨h1, h2, h3, h4, h5, h6, h7⟩ := hI
    exact ⟨h1, h2, h3, h4, ⟨by dsimp only; omega, by dsimp only; omega⟩, ⟨by dsimp only; omega, by dsimp only; omega⟩, h7⟩

theorem held_hipViolation (c : HipClass) (code offset : Nat) (row : List Bytes) (s : State)  (hI : Held K Q F s) :
    Held K Q F (hipViolation c code offset row s) := by
  unfold hipViolation
  repeat' first
    | with_reducible assumption
    | with_reducible apply held_violation

theorem held_holdRow (must : Bool) (r : RowRec) (s : State) (hI : Held K Q F s) {t : State} (e : holdRow must r s = .ok t) :
    Held K Q F t := by
  unfold holdRow at e
  dsimp only at e
  split at e
  · rename_i t' ht
    have h := held_allocLines _ _ _ _ hI ht
    cases e
    exact h
  · split at e
    · cases e
    · cases e
      exact hI

theorem held_rowReported (q : Nat) (s : State)  (hI : Held K Q F s) :
    Held K Q F (rowReported q s) := by
  unfold rowReported
  repeat' first
    | with_reducible assumption
    | with_reducible apply held_rowTold
    | with_reducible apply held_send
    | with_reducible apply held_ite

theorem held_carryReported (q k : Nat) (s : State)  (hI : Held K Q F s) :
    Held K Q F (carryReported q k s) := by
  unfold carryReported
  repeat' first
    | with_reducible assumption
    | with_reducible apply held_rowTold
    | with_reducible apply held_send
    | with_reducible apply held_ite

theorem held_treeCheck (q : Nat) (s : State)  (hI : Held K Q F s) :
    Held K Q F (treeCheck q s) := by
  unfold treeCheck
  repeat' first
    | with_reducible assumption
    | intro _
    | with_reducible apply held_rejectRow
    | with_reducible apply held_dropRows
    | with_reducible apply held_count
    | with_reducible apply held_closeMerges
    | with_reducible apply held_updReq
    | with_reducible apply held_foldl
    | dsimp only
    | split

theorem held_rowReportArrives (src q n : Nat) (trees : List Bytes) (s : State)  (hI : Held K Q F s) :
    Held K Q F (rowReportArrives src q n trees s) := by
  unfold rowReportArrives
  repeat' first
    | with_reducible assumption
    | with_reducible apply held_rowTold
    | with_reducible apply held_cutRows
    | with_reducible apply held_at
    | simp only [held_mk]
    | split

theorem held_serveRow (late : Bool) (r : RowRec) (s : State)  (hI : Held K Q F s) :
    Held K Q F (serveRow late r s) := by
  unfold serveRow
  try dsimp only
  repeat' first
    | with_reducible assumption
    | intro _
    | with_reducible apply held_rejection
    | with_reducible apply held_log
    | refine held_holdRow _ _ _ ?_ (by assumption)
    | with_reducible apply held_trace
    | with_reducible apply held_treeCheck
    | with_reducible apply held_streamGo
    | with_reducible apply held_carryReported
    | with_reducible apply held_rowReported
    | with_reducible apply held_foldl
    | with_reducible apply held_ite
    | with_reducible apply held_at
    | with_reducible apply heldAt_drop
    | with_reducible apply heldAt_put
    | simp only [held_mk]
    | split

theorem held_trainRow (r : RowRec) (s : State)  (hI : Held K Q F s) :
    Held K Q F (trainRow r s) := by
  unfold trainRow
  repeat' first
    | with_reducible assumption
    | with_reducible apply held_rejection
    | with_reducible apply held_saveToken
    | with_reducible apply held_trace
    | dsimp only
    | split

theorem held_judgeRow (c : HipClass) (late : Bool) (row : List Bytes) (s : State)  (hI : Held K Q F s) :
    Held K Q F (judgeRow c late row s) := by
  unfold judgeRow
  try dsimp only
  repeat' first
    | with_reducible assumption
    | exact fun h => h
    | intro _
    | with_reducible apply held_hipViolation
    | with_reducible apply held_trainRow
    | with_reducible apply held_updHip
    | with_reducible apply held_serveRow
    | with_reducible apply held_foldl
    | with_reducible apply held_ite
    | with_reducible apply held_at
    | with_reducible apply heldAt_drop
    | with_reducible apply heldAt_put
    | simp only [held_mk]
    | split

theorem held_judgeWaiting (s : State)  (hI : Held K Q F s) :
    Held K Q F (judgeWaiting s) := by
  unfold judgeWaiting
  try dsimp only
  repeat' first
    | with_reducible assumption
    | intro _
    | with_reducible apply held_judgeRow
    | with_reducible apply held_foldl
    | with_reducible apply held_ite
    | with_reducible apply held_at
    | with_reducible apply heldAt_drop
    | with_reducible apply heldAt_put
    | simp only [held_mk]
    | split

theorem held_frameBeat (c : HipClass) (b : HipBeat) (s : State)  (hI : Held K Q F s) :
    Held K Q F (frameBeat c b s) := by
  unfold frameBeat
  try dsimp only
  repeat' first
    | with_reducible assumption
    | exact fun h => h
    | intro _
    | with_reducible apply held_updHip
    | with_reducible apply held_hipViolation
    | with_reducible apply held_judgeRow
    | with_reducible apply held_foldl
    | with_reducible apply held_ite
    | with_reducible apply held_at
    | with_reducible apply heldAt_drop
    | with_reducible apply heldAt_put
    | simp only [held_mk]
    | split

theorem held_hipBeat (c : HipClass) (b : HipBeat) (s : State) (hI : Held K Q F s) : Held K Q F (hipBeat c b s) := by
  unfold hipBeat
  split
  · exact hI
  dsimp only
  split
  · exact held_hipViolation _ _ _ _ _ (held_updHip _ _ _ (fun h => h) hI)
  · rename_i _ hr
    refine held_returnCredits _ (held_frameBeat _ _ _ (held_perf _ _ _ (held_updHip _ _ _ (fun h => ?_) hI)))
    have h1 := h.1
    have h2 := h.2
    exact ⟨by dsimp only; omega, by dsimp only; omega⟩

theorem held_hipRow (c : HipClass) (bs : List HipBeat) (s : State)  (hI : Held K Q F s) :
    Held K Q F (hipRow c bs s) := by
  unfold hipRow
  repeat' first
    | with_reducible assumption
    | intro _
    | with_reducible apply held_hipBeat
    | with_reducible apply held_foldl

end Sys2Proof.Machine
end

