-- ==== Sys2Proof/Laws/HeldLines.lean ====
section
/-! SUPPORT. What the operations of Machine/Lines.lean keep (see Laws/Held.lean). -/

-- The proofs of this file are checked one after another: the whole package is one text under a limit on threads.
set_option Elab.async false

namespace Sys2Proof.Machine

variable {K : Kit} {Q : List Instr} {F : Fuses}

theorem held_nextWcount (s : State)  (hI : Held K Q F s) :
    Held K Q F (nextWcount s) := by
  unfold nextWcount
  repeat' first
    | with_reducible assumption
    | with_reducible apply held_ite
    | with_reducible apply held_at
    | simp only [held_mk]

theorem held_writeSlot (p q slot adm : Nat) (src : Option Nat) (line : Bytes) (after : AfterWrite) (s : State)  (hI : Held K Q F s) :
    Held K Q F (writeSlot p q slot adm src line after s) := by
  unfold writeSlot
  repeat' first
    | with_reducible assumption
    | with_reducible apply held_nextWcount
    | with_reducible apply held_hmpWrite
    | split

theorem held_writeLine (q : Nat) (l : Nat × Bytes) (s : State)  (hI : Held K Q F s) :
    Held K Q F (writeLine q l s) := by
  unfold writeLine
  try dsimp only
  repeat' first
    | with_reducible assumption
    | intro _
    | with_reducible apply held_trace
    | with_reducible apply held_writeSlot
    | with_reducible apply held_updReq
    | with_reducible apply held_foldl
    | with_reducible apply held_ite
    | with_reducible apply held_at
    | with_reducible apply heldAt_drop
    | with_reducible apply heldAt_put
    | simp only [held_mk]
    | split

theorem held_writeBack (q : Nat) (s : State)  (hI : Held K Q F s) :
    Held K Q F (writeBack q s) := by
  unfold writeBack
  try dsimp only
  repeat' first
    | with_reducible assumption
    | intro _
    | with_reducible apply held_writeLine
    | with_reducible apply held_foldl
    | with_reducible apply held_ite
    | with_reducible apply held_at
    | with_reducible apply heldAt_drop
    | with_reducible apply heldAt_put
    | simp only [held_mk]
    | split

theorem held_flushCache (s : State)  (hI : Held K Q F s) :
    Held K Q F (flushCache s) := by
  unfold flushCache
  try dsimp only
  repeat' first
    | with_reducible assumption
    | intro _
    | with_reducible apply held_updReq
    | with_reducible apply held_writeBack
    | with_reducible apply held_foldl
    | with_reducible apply held_ite
    | with_reducible apply held_at
    | with_reducible apply heldAt_drop
    | with_reducible apply heldAt_put
    | simp only [held_mk]
    | split

theorem held_evictLine (l : Nat × Nat) (s : State)  (hI : Held K Q F s) :
    Held K Q F (evictLine l s) := by
  unfold evictLine
  try dsimp only
  repeat' first
    | with_reducible assumption
    | intro _
    | with_reducible apply held_writeLine
    | with_reducible apply held_foldl
    | with_reducible apply held_ite
    | with_reducible apply held_at
    | with_reducible apply heldAt_drop
    | with_reducible apply heldAt_put
    | simp only [held_mk]
    | split

theorem held_accessLine (l : Nat × Nat) (s : State)  (hI : Held K Q F s) :
    Held K Q F (accessLine l s) := by
  unfold accessLine
  try dsimp only
  repeat' first
    | with_reducible assumption
    | intro _
    | with_reducible apply held_evictLine
    | with_reducible apply held_foldl
    | with_reducible apply held_ite
    | with_reducible apply held_at
    | with_reducible apply heldAt_drop
    | with_reducible apply heldAt_put
    | simp only [held_mk]
    | split

theorem held_fetchLines (q : Nat) (s : State)  (hI : Held K Q F s) :
    Held K Q F (fetchLines q s) := by
  unfold fetchLines
  try dsimp only
  repeat' first
    | with_reducible assumption
    | intro _
    | with_reducible apply held_accessLine
    | with_reducible apply held_updReq
    | with_reducible apply held_hmpRead
    | with_reducible apply held_trace
    | with_reducible apply held_foldl
    | with_reducible apply held_ite
    | with_reducible apply held_at
    | with_reducible apply heldAt_drop
    | with_reducible apply heldAt_put
    | simp only [held_mk]
    | split

theorem held_restoreLine (q slot : Nat) (s : State)  (hI : Held K Q F s) :
    Held K Q F (restoreLine q slot s) := by
  unfold restoreLine
  repeat' first
    | with_reducible assumption
    | with_reducible apply held_closeMerges
    | with_reducible apply held_updReq
    | with_reducible apply held_send
    | dsimp only
    | split

theorem held_lineBack (q slot : Nat) (s : State)  (hI : Held K Q F s) :
    Held K Q F (lineBack q slot s) := by
  unfold lineBack
  repeat' first
    | with_reducible assumption
    | with_reducible apply held_updReq

theorem held_putLine (q slot : Nat) (line : Bytes) (s : State)  (hI : Held K Q F s) :
    Held K Q F (putLine q slot line s) := by
  unfold putLine
  repeat' first
    | with_reducible assumption
    | with_reducible apply held_updReq
    | split

theorem held_backingArrived (q slot : Nat) (bs : Option Bytes) (s : State)  (hI : Held K Q F s) :
    Held K Q F (backingArrived q slot bs s) := by
  unfold backingArrived
  repeat' first
    | with_reducible assumption
    | with_reducible apply held_lineBack
    | with_reducible apply held_putLine
    | with_reducible apply held_alarm
    | with_reducible apply held_count
    | with_reducible apply held_restoreLine
    | split

theorem held_writeRecord (e : ReqEntry) (n seq : Nat) (bytes : Bytes) (s : State)  (hI : Held K Q F s) :
    Held K Q F (writeRecord e n seq bytes s) := by
  unfold writeRecord
  repeat' first
    | with_reducible assumption
    | with_reducible apply held_hmpWrite

theorem held_writeRecords (e : ReqEntry) (n seq : Nat) (l : List Bytes) (s : State)  (hI : Held K Q F s) :
    Held K Q F (writeRecords e n seq l s) := by
  unfold writeRecords
  repeat' first
    | with_reducible assumption
    | intro _
    | with_reducible apply held_writeRecord
    | with_reducible apply held_updReq
    | with_reducible apply held_foldl
    | with_reducible apply held_ite

theorem held_publishOne (p : Publication) (s : State)  (hI : Held K Q F s) :
    Held K Q F (publishOne p s) := by
  unfold publishOne
  repeat' first
    | with_reducible assumption
    | intro _
    | with_reducible apply held_writeRecords
    | with_reducible apply held_doorbell
    | with_reducible apply held_foldl
    | split

theorem held_drainPubs (s : State) (hI : Held K Q F s) : Held K Q F (drainPubs s) := by
  have main : ∀ (l : List Publication) (a : State × List Publication), Held K Q F a.1 →
      Held K Q F (l.foldl (fun a p => if mayPublish a.2 p a.1 then (publishOne p a.1, a.2) else (a.1, a.2 ++ [p])) a).1 := by
    intro l
    induction l with
    | nil => exact fun a h => h
    | cons p l ih =>
      intro a h
      refine ih _ ?_
      dsimp only
      split
      · exact held_publishOne _ _ h
      · exact h
  exact held_at (main s.evt.late ({ s with evt := { s.evt with late := [] } }, []) hI)

theorem held_publishOut (p : Publication) (s : State)  (hI : Held K Q F s) :
    Held K Q F (publishOut p s) := by
  unfold publishOut
  repeat' first
    | with_reducible assumption
    | with_reducible apply held_drainPubs
    | with_reducible apply held_at
    | simp only [held_mk]

theorem held_tryProd (q : Nat) (s : State)  (hI : Held K Q F s) :
    Held K Q F (tryProd q s) := by
  unfold tryProd
  repeat' first
    | with_reducible assumption
    | with_reducible apply held_hmpWrite
    | split

theorem held_recordOut (q n : Nat) (last : Bool) (s : State)  (hI : Held K Q F s) :
    Held K Q F (recordOut q n last s) := by
  unfold recordOut
  repeat' first
    | with_reducible assumption
    | with_reducible apply held_count
    | with_reducible apply held_tryProd
    | with_reducible apply held_ite

theorem held_prodDone (q n : Nat) (s : State)  (hI : Held K Q F s) :
    Held K Q F (prodDone q n s) := by
  unfold prodDone
  repeat' first
    | with_reducible assumption
    | with_reducible apply held_updReq
    | with_reducible apply held_drainPubs
    | with_reducible apply held_finish
    | with_reducible apply held_tryProd
    | with_reducible apply held_at
    | simp only [held_mk]
    | split

theorem held_consArrived (q : Nat) (bs : Option Bytes) (s : State)  (hI : Held K Q F s) :
    Held K Q F (consArrived q bs s) := by
  unfold consArrived
  repeat' first
    | with_reducible assumption
    | with_reducible apply held_alarm
    | with_reducible apply held_updReq
    | dsimp only
    | split

end Sys2Proof.Machine
end

