-- ==== Sys2Proof/Laws/HeldPorts.lean ====
section
/-! SUPPORT. What the operations of Machine/Ports.lean keep (see Laws/Held.lean). -/

-- The proofs of this file are checked one after another: the whole package is one text under a limit on threads.
set_option Elab.async false

namespace Sys2Proof.Machine

variable {K : Kit} {Q : List Instr} {F : Fuses}

theorem held_updGbp (c : GbpCh) (f : GbpPort → GbpPort) (s : State) (hf : GbpOk (gbpPort s c) → GbpOk (f (gbpPort s c))) (hI : Held K Q F s) :
    Held K Q F (updGbp c f s) := by
  obtain ⟨h1, h2, h3, h4, h5, h6, h7, h8, h9⟩ := hI
  cases c
  · exact ⟨h1, h2, h3, h4, h5, h6, hf h7, h8, h9⟩
  · exact ⟨h1, h2, h3, h4, h5, h6, h7, hf h8, h9⟩

theorem held_gbpCredit (c : GbpCh) (s : State) (hI : Held K Q F s) : Held K Q F (gbpCredit c s) := by
  unfold gbpCredit
  split
  · exact hI
  split
  · exact held_violation _ _ _ _ _ _ _ _ hI
  · rename_i _ h
    exact held_updGbp _ _ _ (fun _ => Nat.succ_le_of_lt (Nat.lt_of_not_le h)) hI

theorem held_gbpAck (c : GbpCh) (s : State)  (hI : Held K Q F s) :
    Held K Q F (gbpAck c s) := by
  unfold gbpAck
  repeat' first
    | with_reducible assumption
    | exact fun h => h
    | with_reducible apply held_violation
    | with_reducible apply held_perf
    | with_reducible apply held_updGbp
    | with_reducible apply held_ite

theorem held_gbpSend (c : GbpCh) (s : State)  (hI : Held K Q F s) :
    Held K Q F (gbpSend c s) := by
  unfold gbpSend
  repeat' first
    | with_reducible assumption
    | exact fun h => Nat.le_trans (Nat.sub_le _ _) h
    | with_reducible apply held_updGbp
    | with_reducible apply held_trace
    | dsimp only
    | split

theorem held_thawGbp (s : State) (hI : Held K Q F s) : Held K Q F (thawGbp s) := by
  obtain ⟨h1, h2, h3, h4, h5, h6, h7, h8, h9⟩ := hI
  exact ⟨h1, h2, h3, h4, h5, h6, Nat.zero_le _, Nat.zero_le _, h9⟩

theorem held_evtOut (b : Bytes) (s : State) (hI : Held K Q F s) : Held K Q F (evtOut b s) := by
  obtain ⟨h1, h2, h3, ⟨h4, h5⟩, h6⟩ := hI
  exact ⟨h1, h2, h3, ⟨Nat.le_trans (Nat.sub_le _ _) h4, h5⟩, h6⟩

theorem held_evtCredit (s : State) (hI : Held K Q F s) : Held K Q F (evtCredit s) := by
  unfold evtCredit
  dsimp only
  split
  · rename_i hc
    obtain ⟨h1, h2, h3, ⟨h4, h5⟩, h6⟩ := hI
    exact ⟨h1, h2, h3, ⟨Nat.succ_le_of_lt hc, h5⟩, h6⟩
  · split
    · exact hI
    · exact held_event _ _ _ hI

theorem held_eventSend (s : State) (hI : Held K Q F s) : Held K Q F (eventSend s) := by
  unfold eventSend
  split
  · exact hI
  split
  · rename_i r rest hq
    have h0 : Held K Q F { s with evt := { s.evt with queue := rest } } := by
      obtain ⟨h1, h2, h3, ⟨h4, h5⟩, h6⟩ := hI
      refine ⟨h1, h2, h3, ⟨h4, ?_⟩, h6⟩
      rw [hq, List.length_cons] at h5
      exact Nat.le_of_succ_le h5
    refine held_returnCredits _ (held_drainPubs _ (held_evtRefill _ ?_))
    have h1 := held_evtOut r.bytes _ h0
    exact held_ite h1 h1
  · split
    · exact hI
    · split
      · exact hI
      · exact held_evtOut _ _ hI

theorem held_alarmSend (s : State)  (hI : Held K Q F s) :
    Held K Q F (alarmSend s) := by
  unfold alarmSend
  repeat' first
    | with_reducible assumption
    | with_reducible apply held_evtOut
    | with_reducible apply held_at
    | simp only [held_mk]
    | split

end Sys2Proof.Machine
end

