-- ==== Sys2Proof/Laws/HeldKeeper.lean ====
section
/-! SUPPORT. What the operations of Machine/Keeper.lean keep (see Laws/Held.lean). -/

-- The proofs of this file are checked one after another: the whole package is one text under a limit on threads.
set_option Elab.async false

namespace Sys2Proof.Machine

variable {K : Kit} {Q : List Instr} {F : Fuses}

theorem held_sendDelta (n : Nat) (s : State)  (hI : Held K Q F s) :
    Held K Q F (sendDelta n s) := by
  unfold sendDelta
  repeat' first
    | with_reducible assumption
    | intro _
    | with_reducible apply held_send
    | with_reducible apply held_foldl
    | with_reducible apply held_at
    | simp only [held_mk]
    | split

theorem held_snapshot (s : State)  (hI : Held K Q F s) :
    Held K Q F (snapshot s) := by
  unfold snapshot
  repeat' first
    | with_reducible assumption
    | with_reducible apply held_sendDelta
    | with_reducible apply held_at
    | simp only [held_mk]

theorem held_ackDeltas (s : State)  (hI : Held K Q F s) :
    Held K Q F (ackDeltas s) := by
  unfold ackDeltas
  repeat' first
    | with_reducible assumption
    | intro _
    | with_reducible apply held_send
    | with_reducible apply held_foldl
    | with_reducible apply held_at
    | simp only [held_mk]

theorem held_markKept (q p slot : Nat) (s : State)  (hI : Held K Q F s) :
    Held K Q F (markKept q p slot s) := by
  unfold markKept
  repeat' first
    | with_reducible assumption
    | with_reducible apply held_at
    | simp only [held_mk]

theorem held_shadowEntry (src step : Nat) (x : DeltaEntry) (s : State)  (hI : Held K Q F s) :
    Held K Q F (shadowEntry src step x s) := by
  unfold shadowEntry
  repeat' first
    | with_reducible assumption
    | with_reducible apply held_alarm
    | with_reducible apply held_writeSlot
    | with_reducible apply held_markKept
    | split

theorem held_lineRestored (q slot : Nat) (line : Bytes) (s : State)  (hI : Held K Q F s) :
    Held K Q F (lineRestored q slot line s) := by
  unfold lineRestored
  repeat' first
    | with_reducible assumption
    | with_reducible apply held_lineBack
    | with_reducible apply held_putLine
    | with_reducible apply held_announce
    | with_reducible apply held_ite

theorem held_returnLine (dest q p slot : Nat) (line : Bytes) (s : State)  (hI : Held K Q F s) :
    Held K Q F (returnLine dest q p slot line s) := by
  unfold returnLine
  repeat' first
    | with_reducible assumption
    | with_reducible apply held_send

theorem held_fetchEntry (src : Nat) (x : DeltaEntry) (s : State)  (hI : Held K Q F s) :
    Held K Q F (fetchEntry src x s) := by
  unfold fetchEntry
  repeat' first
    | with_reducible assumption
    | with_reducible apply held_returnLine
    | with_reducible apply held_hmpRead
    | split

theorem held_deltaEntry (src step : Nat) (x : DeltaEntry) (s : State)  (hI : Held K Q F s) :
    Held K Q F (deltaEntry src step x s) := by
  unfold deltaEntry
  repeat' first
    | with_reducible assumption
    | with_reducible apply held_lineRestored
    | with_reducible apply held_shadowEntry
    | with_reducible apply held_fetchEntry
    | with_reducible apply held_at
    | simp only [held_mk]
    | split

theorem held_deltaArrives (d : HuskDelta) (s : State)  (hI : Held K Q F s) :
    Held K Q F (deltaArrives d s) := by
  unfold deltaArrives
  repeat' first
    | with_reducible assumption
    | intro _
    | with_reducible apply held_deltaEntry
    | with_reducible apply held_send
    | with_reducible apply held_ackDeltas
    | with_reducible apply held_foldl
    | with_reducible apply held_ite
    | with_reducible apply held_at
    | simp only [held_mk]

theorem held_shadowFetched (q p slot : Nat) (bs : Option Bytes) (s : State)  (hI : Held K Q F s) :
    Held K Q F (shadowFetched q p slot bs s) := by
  unfold shadowFetched
  repeat' first
    | with_reducible assumption
    | with_reducible apply held_returnLine
    | with_reducible apply held_alarm
    | dsimp only
    | split

theorem held_huskNonce (s : State)  (hI : Held K Q F s) :
    Held K Q F (huskNonce s).2 := by
  unfold huskNonce
  repeat' first
    | with_reducible assumption
    | with_reducible apply held_drbg

theorem held_writeHusk (q addr seqLast : Nat) (s : State)  (hI : Held K Q F s) :
    Held K Q F (writeHusk q addr seqLast s) := by
  unfold writeHusk
  repeat' first
    | with_reducible assumption
    | with_reducible apply held_writeBack
    | with_reducible apply held_huskNonce
    | with_reducible apply held_hmpWrite
    | with_reducible apply held_at
    | simp only [held_mk]
    | split

end Sys2Proof.Machine
end

