-- ==== Sys2Proof/Laws/HeldOutcome.lean ====
section
/-! SUPPORT. What the operations of Machine/Outcome.lean keep (see Laws/Held.lean). -/

-- The proofs of this file are checked one after another: the whole package is one text under a limit on threads.
set_option Elab.async false

namespace Sys2Proof.Machine

variable {K : Kit} {Q : List Instr} {F : Fuses}

theorem held_fixFate (n : Nat) (hold : Bool) (set : List Settings) (fixed : Option (Nat × Bool)) (old : ReqEntry) (f : Fate) (s : State)  (hI : Held K Q F s) :
    Held K Q F (fixFate n hold set fixed old f s) := by
  unfold fixFate
  try dsimp only
  repeat' first
    | with_reducible assumption
    | intro _
    | with_reducible apply held_updReq
    | with_reducible apply held_count
    | with_reducible apply held_publishOut
    | with_reducible apply held_announce
    | with_reducible apply held_foldl
    | with_reducible apply held_ite
    | with_reducible apply held_at
    | with_reducible apply heldAt_drop
    | with_reducible apply heldAt_put
    | simp only [held_mk]
    | split

theorem held_admitStamp (n : Nat) (e : ReqEntry) (s : State)  (hI : Held K Q F s) :
    Held K Q F (admitStamp n e s) := by
  unfold admitStamp
  try dsimp only
  repeat' first
    | with_reducible assumption
    | intro _
    | with_reducible apply held_finish
    | with_reducible apply held_fixFate
    | with_reducible apply held_hmpWrite
    | with_reducible apply held_foldl
    | with_reducible apply held_ite
    | with_reducible apply held_at
    | with_reducible apply heldAt_drop
    | with_reducible apply heldAt_put
    | simp only [held_mk]
    | split

theorem held_moveOut (n : Nat) (e : ReqEntry) (s : State)  (hI : Held K Q F s) :
    Held K Q F (moveOut n e s) := by
  unfold moveOut
  try dsimp only
  repeat' first
    | with_reducible assumption
    | intro _
    | with_reducible apply held_updReq
    | with_reducible apply held_fixFate
    | with_reducible apply held_flood
    | with_reducible apply held_send
    | with_reducible apply held_freeLines
    | with_reducible apply held_foldl
    | with_reducible apply held_ite
    | with_reducible apply held_at
    | with_reducible apply heldAt_drop
    | with_reducible apply heldAt_put
    | simp only [held_mk]
    | split

theorem held_moveIn (q : Nat) (d : Bytes) (s : State)  (hI : Held K Q F s) :
    Held K Q F (moveIn q d s) := by
  unfold moveIn
  repeat' first
    | with_reducible assumption
    | refine held_allocLines _ _ _ _ ?_ (by assumption)
    | with_reducible apply held_updReq
    | split

theorem held_moveEnd (n : Nat) (e : ReqEntry) (s : State)  (hI : Held K Q F s) :
    Held K Q F (moveEnd n e s) := by
  unfold moveEnd
  try dsimp only
  repeat' first
    | with_reducible assumption
    | intro _
    | with_reducible apply held_fixFate
    | with_reducible apply held_foldl
    | with_reducible apply held_ite
    | with_reducible apply held_at
    | with_reducible apply heldAt_drop
    | with_reducible apply heldAt_put
    | simp only [held_mk]
    | split

theorem held_dropChanges (q n : Nat) (keep : ReqChange → Bool) (s : State)  (hI : Held K Q F s) :
    Held K Q F (dropChanges q n keep s) := by
  unfold dropChanges
  repeat' first
    | with_reducible assumption
    | with_reducible apply held_at
    | simp only [held_mk]

theorem held_evictBegins (n : Nat) (e : ReqEntry) (s : State)  (hI : Held K Q F s) :
    Held K Q F (evictBegins n e s) := by
  unfold evictBegins
  try dsimp only
  repeat' first
    | with_reducible assumption
    | intro _
    | with_reducible apply held_fixFate
    | with_reducible apply held_dropChanges
    | with_reducible apply held_updReq
    | with_reducible apply held_foldl
    | with_reducible apply held_ite
    | with_reducible apply held_at
    | with_reducible apply heldAt_drop
    | with_reducible apply heldAt_put
    | simp only [held_mk]
    | split

theorem held_evictEnds (n : Nat) (e : ReqEntry) (s : State)  (hI : Held K Q F s) :
    Held K Q F (evictEnds n e s) := by
  unfold evictEnds
  try dsimp only
  repeat' first
    | with_reducible assumption
    | intro _
    | with_reducible apply held_dropChanges
    | with_reducible apply held_finish
    | with_reducible apply held_updReq
    | with_reducible apply held_fixFate
    | with_reducible apply held_writeHusk
    | with_reducible apply held_foldl
    | with_reducible apply held_ite
    | with_reducible apply held_at
    | with_reducible apply heldAt_drop
    | with_reducible apply heldAt_put
    | simp only [held_mk]
    | split

theorem held_evictStamp (n : Nat) (e : ReqEntry) (s : State)  (hI : Held K Q F s) :
    Held K Q F (evictStamp n e s) := by
  unfold evictStamp
  try dsimp only
  repeat' first
    | with_reducible assumption
    | intro _
    | with_reducible apply held_evictBegins
    | with_reducible apply held_evictEnds
    | with_reducible apply held_foldl
    | with_reducible apply held_ite
    | with_reducible apply held_at
    | with_reducible apply heldAt_drop
    | with_reducible apply heldAt_put
    | simp only [held_mk]
    | split

theorem held_huskWritten (q : Nat) (s : State)  (hI : Held K Q F s) :
    Held K Q F (huskWritten q s) := by
  unfold huskWritten
  repeat' first
    | with_reducible assumption
    | with_reducible apply held_writeRecords
    | split

theorem held_stampReq (n : Nat) (q : Nat) (s : State)  (hI : Held K Q F s) :
    Held K Q F (stampReq n q s) := by
  unfold stampReq
  try dsimp only
  repeat' first
    | with_reducible assumption
    | intro _
    | with_reducible apply held_admitStamp
    | with_reducible apply held_dropChanges
    | with_reducible apply held_fixFate
    | with_reducible apply held_moveOut
    | with_reducible apply held_moveEnd
    | with_reducible apply held_evictStamp
    | with_reducible apply held_foldl
    | with_reducible apply held_ite
    | with_reducible apply held_at
    | with_reducible apply heldAt_drop
    | with_reducible apply heldAt_put
    | simp only [held_mk]
    | split

theorem held_releaseReq (q : Nat) (s : State)  (hI : Held K Q F s) :
    Held K Q F (releaseReq q s) := by
  unfold releaseReq
  repeat' first
    | with_reducible assumption
    | with_reducible apply held_dropReqRows
    | with_reducible apply held_freeLines
    | with_reducible apply held_acornSweep
    | with_reducible apply held_at
    | simp only [held_mk]
    | split

theorem held_holdCarried (r : RowRec) (s : State)  (hI : Held K Q F s) :
    Held K Q F (holdCarried r s) := by
  unfold holdCarried
  repeat' first
    | with_reducible assumption
    | refine held_allocLines _ _ _ _ ?_ (by assumption)
    | with_reducible apply held_rowGone
    | with_reducible apply held_rejectRow
    | with_reducible apply held_at
    | simp only [held_mk]
    | split

theorem held_rowsAfter (o : ReqOutcome) (s : State)  (hI : Held K Q F s) :
    Held K Q F (rowsAfter o s) := by
  unfold rowsAfter
  repeat' first
    | with_reducible assumption
    | intro _
    | with_reducible apply held_dropRows
    | with_reducible apply held_updReq
    | with_reducible apply held_holdCarried
    | with_reducible apply held_foldl
    | split

theorem held_stateWaits (q : Nat) (st : ReqState) (s : State)  (hI : Held K Q F s) :
    Held K Q F (stateWaits q st s) := by
  unfold stateWaits
  repeat' first
    | with_reducible assumption
    | with_reducible apply held_finish
    | with_reducible apply held_ite

theorem held_applyOutcome (o : ReqOutcome) (s : State)  (hI : Held K Q F s) :
    Held K Q F (applyOutcome o s) := by
  unfold applyOutcome
  repeat' first
    | with_reducible assumption
    | with_reducible apply held_stateWaits
    | with_reducible apply held_releaseReq
    | with_reducible apply held_updReq
    | with_reducible apply held_updTenant
    | with_reducible apply held_rowsAfter
    | dsimp only
    | split

theorem held_lateLimit (q : Nat) (s : State)  (hI : Held K Q F s) :
    Held K Q F (lateLimit q s) := by
  unfold lateLimit
  try dsimp only
  repeat' first
    | with_reducible assumption
    | intro _
    | with_reducible apply held_fixFate
    | with_reducible apply held_foldl
    | with_reducible apply held_ite
    | with_reducible apply held_at
    | with_reducible apply heldAt_drop
    | with_reducible apply heldAt_put
    | simp only [held_mk]
    | split

theorem held_stallLimit (q : Nat) (s : State)  (hI : Held K Q F s) :
    Held K Q F (stallLimit q s) := by
  unfold stallLimit
  try dsimp only
  repeat' first
    | with_reducible assumption
    | intro _
    | with_reducible apply held_fixFate
    | with_reducible apply held_foldl
    | with_reducible apply held_ite
    | with_reducible apply held_at
    | with_reducible apply heldAt_drop
    | with_reducible apply heldAt_put
    | simp only [held_mk]
    | split

end Sys2Proof.Machine
end

