-- ==== Sys2Proof/Laws/HeldPartition.lean ====
section
/-! SUPPORT. What the operations of Machine/Partition.lean keep (see Laws/Held.lean). -/

-- The proofs of this file are checked one after another: the whole package is one text under a limit on threads.
set_option Elab.async false

namespace Sys2Proof.Machine

variable {K : Kit} {Q : List Instr} {F : Fuses}

theorem held_eociaResumes (s : State)  (hI : Held K Q F s) :
    Held K Q F (eociaResumes s) := by
  unfold eociaResumes
  repeat' first
    | with_reducible assumption
    | intro _
    | with_reducible apply held_logWrite
    | with_reducible apply held_deliver
    | with_reducible apply held_trace
    | with_reducible apply held_foldl
    | with_reducible apply held_ite
    | with_reducible apply held_at
    | simp only [held_mk]

theorem held_putKeys (k : KeySet) (s : State)  (hI : Held K Q F s) :
    Held K Q F (putKeys k s) := by
  unfold putKeys
  repeat' first
    | with_reducible assumption
    | with_reducible apply held_ite
    | with_reducible apply held_at
    | simp only [held_mk]

theorem held_newKeys (p : Nat) (s : State)  (hI : Held K Q F s) :
    Held K Q F (newKeys p s) := by
  unfold newKeys
  repeat' first
    | with_reducible assumption
    | with_reducible apply held_drbg
    | with_reducible apply held_putKeys
    | with_reducible apply held_ite

theorem held_renewKeys (p : Nat) (s : State)  (hI : Held K Q F s) :
    Held K Q F (renewKeys p s) := by
  unfold renewKeys
  repeat' first
    | with_reducible assumption
    | with_reducible apply held_newKeys
    | with_reducible apply held_announceOut
    | dsimp only
    | split

theorem held_keysArrive (k : WrappedKeys) (s : State)  (hI : Held K Q F s) :
    Held K Q F (keysArrive k s) := by
  unfold keysArrive
  repeat' first
    | with_reducible assumption
    | with_reducible apply held_putKeys
    | with_reducible apply held_alarm
    | split

theorem held_entropyFail (s : State)  (hI : Held K Q F s) :
    Held K Q F (entropyFail s) := by
  unfold entropyFail
  repeat' first
    | with_reducible assumption
    | with_reducible apply held_alarm
    | with_reducible apply held_at
    | simp only [held_mk]

theorem held_dropTraffic (p : Nat) (s : State)  (hI : Held K Q F s) :
    Held K Q F (dropTraffic p s) := by
  unfold dropTraffic
  repeat' first
    | with_reducible assumption
    | with_reducible apply held_at
    | simp only [held_mk]

theorem held_endCommands (p : Nat) (st : Status) (s : State)  (hI : Held K Q F s) :
    Held K Q F (endCommands p st s) := by
  unfold endCommands
  repeat' first
    | with_reducible assumption
    | intro _
    | with_reducible apply held_finish
    | with_reducible apply held_complete
    | with_reducible apply held_foldl
    | with_reducible apply held_at
    | simp only [held_mk]

theorem held_endForwardedOf (p : Nat) (s : State)  (hI : Held K Q F s) :
    Held K Q F (endForwardedOf p s) := by
  unfold endForwardedOf
  try dsimp only
  repeat' first
    | with_reducible assumption
    | intro _
    | with_reducible apply held_deliver
    | with_reducible apply held_foldl
    | with_reducible apply held_ite
    | with_reducible apply held_at
    | with_reducible apply heldAt_drop
    | with_reducible apply heldAt_put
    | simp only [held_mk]
    | split

theorem held_clearRequests (p : Nat) (s : State)  (hI : Held K Q F s) :
    Held K Q F (clearRequests p s) := by
  unfold clearRequests
  repeat' first
    | with_reducible assumption
    | with_reducible apply held_at
    | simp only [held_mk]

theorem held_clearTraining (p : Nat) (s : State)  (hI : Held K Q F s) :
    Held K Q F (clearTraining p s) := by
  unfold clearTraining
  repeat' first
    | with_reducible assumption
    | with_reducible apply held_endSession
    | with_reducible apply held_ite
    | with_reducible apply held_at
    | simp only [held_mk]

theorem held_clearTenants (p : Nat) (s : State)  (hI : Held K Q F s) :
    Held K Q F (clearTenants p s) := by
  unfold clearTenants
  repeat' first
    | with_reducible assumption
    | with_reducible apply held_at
    | simp only [held_mk]

theorem held_clearObjects (p : Nat) (s : State)  (hI : Held K Q F s) :
    Held K Q F (clearObjects p s) := by
  unfold clearObjects
  repeat' first
    | with_reducible assumption
    | with_reducible apply held_at
    | simp only [held_mk]

theorem held_leaveScratch (p : Nat) (s : State)  (hI : Held K Q F s) :
    Held K Q F (leaveScratch p s) := by
  unfold leaveScratch
  repeat' first
    | with_reducible assumption
    | with_reducible apply held_at
    | simp only [held_mk]

theorem held_freeLeaving (p : Nat) (s : State)  (hI : Held K Q F s) :
    Held K Q F (freeLeaving p s) := by
  unfold freeLeaving
  repeat' first
    | with_reducible assumption
    | with_reducible apply held_at
    | simp only [held_mk]

theorem held_clearKeys (p : Nat) (s : State)  (hI : Held K Q F s) :
    Held K Q F (clearKeys p s) := by
  unfold clearKeys
  repeat' first
    | with_reducible assumption
    | with_reducible apply held_at
    | simp only [held_mk]

theorem held_clearPart (p : Nat) (s : State)  (hI : Held K Q F s) :
    Held K Q F (clearPart p s) := by
  unfold clearPart
  repeat' first
    | with_reducible assumption
    | with_reducible apply held_clearKeys
    | with_reducible apply held_leaveScratch
    | with_reducible apply held_clearObjects
    | with_reducible apply held_clearTenants
    | with_reducible apply held_clearTraining
    | with_reducible apply held_clearRequests
    | with_reducible apply held_dropTraffic

theorem held_dropDoorbells (p : Nat) (s : State) (hI : Held K Q F s) : Held K Q F (dropDoorbells p s) := by
  obtain ⟨h1, h2, h3, ⟨h4, h5⟩, h6⟩ := hI
  exact ⟨h1, h2, h3, ⟨h4, Nat.le_trans (List.length_filter_le _ _) h5⟩, h6⟩

theorem held_applyKill (p : Nat) (s : State)  (hI : Held K Q F s) :
    Held K Q F (applyKill p s) := by
  unfold applyKill
  try dsimp only
  repeat' first
    | with_reducible assumption
    | intro _
    | with_reducible apply held_dropFetch
    | with_reducible apply held_clearPart
    | with_reducible apply held_dropDoorbells
    | with_reducible apply held_endForwardedOf
    | with_reducible apply held_endCommands
    | with_reducible apply held_foldl
    | with_reducible apply held_ite
    | with_reducible apply held_at
    | with_reducible apply heldAt_drop
    | with_reducible apply heldAt_put
    | simp only [held_mk]
    | split

theorem held_startKill (p : Nat) (s : State)  (hI : Held K Q F s) :
    Held K Q F (startKill p s) := by
  unfold startKill
  repeat' first
    | with_reducible assumption
    | with_reducible apply held_applyKill
    | with_reducible apply held_announceOut
    | with_reducible apply held_ite

theorem held_finishKill (k : Kill) (s : State)  (hI : Held K Q F s) :
    Held K Q F (finishKill k s) := by
  unfold finishKill
  repeat' first
    | with_reducible assumption
    | with_reducible apply held_freeLeaving
    | with_reducible apply held_renewKeys
    | with_reducible apply held_log
    | with_reducible apply held_at
    | simp only [held_mk]

theorem held_checkKills (s : State)  (hI : Held K Q F s) :
    Held K Q F (checkKills s) := by
  unfold checkKills
  repeat' first
    | with_reducible assumption
    | intro _
    | with_reducible apply held_finishKill
    | with_reducible apply held_foldl

theorem held_scrubReported (n p : Nat) (s : State)  (hI : Held K Q F s) :
    Held K Q F (scrubReported n p s) := by
  unfold scrubReported
  repeat' first
    | with_reducible assumption
    | with_reducible apply held_flood
    | with_reducible apply held_checkKills
    | with_reducible apply held_at
    | simp only [held_mk]
    | split

theorem held_unlockCapture (s : State)  (hI : Held K Q F s) :
    Held K Q F (unlockCapture s) := by
  unfold unlockCapture
  repeat' first
    | with_reducible assumption
    | with_reducible apply held_drbg
    | with_reducible apply held_ite
    | with_reducible apply held_at
    | simp only [held_mk]

theorem held_unlockUpdate (key sig : Bytes) (s : State)  (hI : Held K Q F s) :
    Held K Q F (unlockUpdate key sig s) := by
  unfold unlockUpdate
  repeat' first
    | with_reducible assumption
    | intro _
    | with_reducible apply held_eociaResumes
    | with_reducible apply held_startKill
    | with_reducible apply held_alarm
    | with_reducible apply held_foldl
    | with_reducible apply held_at
    | simp only [held_mk]
    | split

theorem held_unlockDone (s : State)  (hI : Held K Q F s) :
    Held K Q F (unlockDone s) := by
  unfold unlockDone
  repeat' first
    | with_reducible assumption
    | with_reducible apply held_ite
    | with_reducible apply held_at
    | simp only [held_mk]

theorem held_holdoffEnds (s : State)  (hI : Held K Q F s) :
    Held K Q F (holdoffEnds s) := by
  unfold holdoffEnds
  repeat' first
    | with_reducible assumption
    | with_reducible apply held_at
    | simp only [held_mk]

theorem held_fuseWrite (word : Nat) (v : BitVec 384) (vdd : Bool) (s : State) (hI : Held K Q F s) : Held K Q F (fuseWrite word v vdd s) := by
  have kept : ∀ {n : Nat} (a b c : BitVec n), a ||| b = b → a ||| (b ||| c) = b ||| c := by
    intro n a b c h
    rw [← BitVec.or_assoc, h]
  have h := hI
  obtain ⟨h1, h2, ⟨f1, f2, f3, f4, f5⟩, h6⟩ := h
  unfold fuseWrite
  dsimp only
  refine held_ite hI (held_ite hI (held_ite ?_ (held_ite ?_ (held_ite ?_ (held_ite ?_ (held_ite ?_ hI))))))
  · exact ⟨h1, h2, ⟨kept _ _ _ f1, f2, f3, f4, f5⟩, h6⟩
  · exact ⟨h1, h2, ⟨f1, kept _ _ _ f2, f3, f4, f5⟩, h6⟩
  · exact ⟨h1, h2, ⟨f1, f2, kept _ _ _ f3, f4, f5⟩, h6⟩
  · exact ⟨h1, h2, ⟨f1, f2, f3, kept _ _ _ f4, f5⟩, h6⟩
  · exact ⟨h1, h2, ⟨f1, f2, f3, f4, kept _ _ _ f5⟩, h6⟩

theorem held_clearService (s : State)  (hI : Held K Q F s) :
    Held K Q F (clearService s) := by
  unfold clearService
  repeat' first
    | with_reducible assumption
    | intro _
    | with_reducible apply held_freeLeaving
    | with_reducible apply held_clearPart
    | with_reducible apply held_endCommands
    | with_reducible apply held_foldl
    | with_reducible apply held_at
    | simp only [held_mk]

theorem held_endForwarded (s : State)  (hI : Held K Q F s) :
    Held K Q F (endForwarded s) := by
  unfold endForwarded
  repeat' first
    | with_reducible assumption
    | intro _
    | with_reducible apply held_deliver
    | with_reducible apply held_foldl
    | with_reducible apply held_at
    | simp only [held_mk]

theorem held_enterSolo (s : State)  (hI : Held K Q F s) :
    Held K Q F (enterSolo s) := by
  unfold enterSolo
  repeat' first
    | with_reducible assumption
    | intro _
    | with_reducible apply held_clearService
    | with_reducible apply held_endForwarded
    | with_reducible apply held_powerPlan
    | with_reducible apply held_newKeys
    | with_reducible apply held_foldl
    | with_reducible apply held_at
    | simp only [held_mk]

end Sys2Proof.Machine
end

