-- ==== Sys2Proof/Laws/HeldManage.lean ====
section
/-! SUPPORT. What the operations of Machine/Manage.lean keep (see Laws/Held.lean). -/

-- The proofs of this file are checked one after another: the whole package is one text under a limit on threads.
set_option Elab.async false

namespace Sys2Proof.Machine

variable {K : Kit} {Q : List Instr} {F : Fuses}

theorem held_sendJars (dest : Nat) (rs : List RangeEntry) (s : State)  (hI : Held K Q F s) :
    Held K Q F (sendJars dest rs s) := by
  unfold sendJars
  repeat' first
    | with_reducible assumption
    | intro _
    | with_reducible apply held_send
    | with_reducible apply held_foldl
    | with_reducible apply held_ite

theorem held_jarShareArrives (src q : Nat) (l : List ChunkRec) (s : State)  (hI : Held K Q F s) :
    Held K Q F (jarShareArrives src q l s) := by
  unfold jarShareArrives
  repeat' first
    | with_reducible assumption
    | with_reducible apply held_updReq

theorem held_readTaken (s : State)  (hI : Held K Q F s) :
    Held K Q F (readTaken s) := by
  unfold readTaken
  try dsimp only
  repeat' first
    | with_reducible assumption
    | intro _
    | with_reducible apply held_fetchObjects
    | with_reducible apply held_hmpRead
    | with_reducible apply held_foldl
    | with_reducible apply held_ite
    | with_reducible apply held_at
    | with_reducible apply heldAt_drop
    | with_reducible apply heldAt_put
    | simp only [held_mk]
    | split

theorem held_uncover (rs : List RangeEntry) (s : State)  (hI : Held K Q F s) :
    Held K Q F (uncover rs s) := by
  unfold uncover
  repeat' first
    | with_reducible assumption
    | intro _
    | with_reducible apply held_alarm
    | with_reducible apply held_foldl
    | with_reducible apply held_ite
    | with_reducible apply held_at
    | simp only [held_mk]

theorem held_coverCheck (s : State)  (hI : Held K Q F s) :
    Held K Q F (coverCheck s) := by
  unfold coverCheck
  repeat' first
    | with_reducible assumption
    | with_reducible apply held_uncover
    | with_reducible apply held_at
    | simp only [held_mk]

theorem held_retireTaken (p first : Nat) (s : State)  (hI : Held K Q F s) :
    Held K Q F (retireTaken p first s) := by
  unfold retireTaken
  try dsimp only
  repeat' first
    | with_reducible assumption
    | intro _
    | with_reducible apply held_rebuildRetired
    | with_reducible apply held_foldl
    | with_reducible apply held_ite
    | with_reducible apply held_at
    | with_reducible apply heldAt_drop
    | with_reducible apply heldAt_put
    | simp only [held_mk]
    | split

theorem held_takenArrived (p v addr : Nat) (r : RangeEntry) (bs : Option Bytes) (s : State)  (hI : Held K Q F s) :
    Held K Q F (takenArrived p v addr r bs s) := by
  unfold takenArrived
  try dsimp only
  repeat' first
    | with_reducible assumption
    | intro _
    | refine held_allocBlocks _ _ _ _ ?_ (by assumption)
    | with_reducible apply held_coverCheck
    | with_reducible apply held_retireTaken
    | with_reducible apply held_foldl
    | with_reducible apply held_ite
    | with_reducible apply held_at
    | with_reducible apply heldAt_drop
    | with_reducible apply heldAt_put
    | simp only [held_mk]
    | split

theorem held_moveObjects (old new : List RangeEntry) (s : State)  (hI : Held K Q F s) :
    Held K Q F (moveObjects old new s) := by
  unfold moveObjects
  repeat' first
    | with_reducible assumption
    | with_reducible apply held_ite
    | with_reducible apply held_at
    | simp only [held_mk]

theorem held_trimStrips (s : State)  (hI : Held K Q F s) :
    Held K Q F (trimStrips s) := by
  unfold trimStrips
  repeat' first
    | with_reducible assumption
    | with_reducible apply held_at
    | simp only [held_mk]

theorem held_moveRuns (f : Group → Group) (s : State)  (hI : Held K Q F s) :
    Held K Q F (moveRuns f s) := by
  unfold moveRuns
  repeat' first
    | with_reducible assumption
    | with_reducible apply held_freeUses
    | with_reducible apply held_trimStrips
    | with_reducible apply held_moveObjects
    | with_reducible apply held_ite
    | with_reducible apply held_at
    | simp only [held_mk]

theorem held_loseAcorns (h : Nat) (s : State)  (hI : Held K Q F s) :
    Held K Q F (loseAcorns h s) := by
  unfold loseAcorns
  try dsimp only
  repeat' first
    | with_reducible assumption
    | intro _
    | with_reducible apply held_acornSweep
    | with_reducible apply held_alarm
    | with_reducible apply held_dropAcorn
    | with_reducible apply held_foldl
    | with_reducible apply held_ite
    | with_reducible apply held_at
    | with_reducible apply heldAt_drop
    | with_reducible apply heldAt_put
    | simp only [held_mk]
    | split

theorem held_restartEvicts (s : State)  (hI : Held K Q F s) :
    Held K Q F (restartEvicts s) := by
  unfold restartEvicts
  repeat' first
    | with_reducible assumption
    | intro _
    | with_reducible apply held_announceOut
    | with_reducible apply held_updReq
    | with_reducible apply held_foldl

theorem held_becomeHoles (hs : List Nat) (s : State)  (hI : Held K Q F s) :
    Held K Q F (becomeHoles hs s) := by
  unfold becomeHoles
  repeat' first
    | with_reducible assumption
    | with_reducible apply held_moveRuns
    | with_reducible apply held_coverCheck
    | with_reducible apply held_uncover
    | with_reducible apply held_restartEvicts
    | with_reducible apply held_at
    | simp only [held_mk]

theorem held_moveAway (s : State)  (hI : Held K Q F s) :
    Held K Q F (moveAway s) := by
  unfold moveAway
  repeat' first
    | with_reducible assumption
    | intro _
    | with_reducible apply held_announce
    | with_reducible apply held_updReq
    | with_reducible apply held_foldl
    | split

theorem held_drainBegins (n step : Nat) (s : State)  (hI : Held K Q F s) :
    Held K Q F (drainBegins n step s) := by
  unfold drainBegins
  repeat' first
    | with_reducible assumption
    | with_reducible apply held_moveAway
    | with_reducible apply held_ite
    | with_reducible apply held_at
    | simp only [held_mk]

theorem held_sliceDrainCmd (c : Cmd) (s : State)  (hI : Held K Q F s) :
    Held K Q F (sliceDrainCmd c s) := by
  unfold sliceDrainCmd
  repeat' first
    | with_reducible assumption
    | intro _
    | with_reducible apply held_judge
    | with_reducible apply held_await
    | with_reducible apply held_announceOut
    | with_reducible apply held_drainBegins
    | with_reducible apply held_at
    | simp only [held_mk]

theorem held_drainStamp (n : Nat) (s : State)  (hI : Held K Q F s) :
    Held K Q F (drainStamp n s) := by
  unfold drainStamp
  try dsimp only
  repeat' first
    | with_reducible assumption
    | intro _
    | with_reducible apply held_moveAway
    | with_reducible apply held_finish
    | with_reducible apply held_readTaken
    | with_reducible apply held_becomeHoles
    | with_reducible apply held_loseAcorns
    | with_reducible apply held_normAgain
    | with_reducible apply held_updTrain
    | with_reducible apply held_snapshot
    | with_reducible apply held_foldl
    | with_reducible apply held_ite
    | with_reducible apply held_at
    | with_reducible apply heldAt_drop
    | with_reducible apply heldAt_put
    | simp only [held_mk]
    | split

theorem held_fwStageCmd (c : Cmd) (s : State)  (hI : Held K Q F s) :
    Held K Q F (fwStageCmd c s) := by
  unfold fwStageCmd
  repeat' first
    | with_reducible assumption
    | with_reducible apply held_judge
    | with_reducible apply held_hmpRead

theorem held_fwRead (c : Cmd) (bs : Option Bytes) (s : State)  (hI : Held K Q F s) :
    Held K Q F (fwRead c bs s) := by
  unfold fwRead
  repeat' first
    | with_reducible assumption
    | with_reducible apply held_complete
    | with_reducible apply held_at
    | simp only [held_mk]
    | split

theorem held_leaveGroup (s : State)  (hI : Held K Q F s) :
    Held K Q F (leaveGroup s) := by
  unfold leaveGroup
  repeat' first
    | with_reducible assumption
    | with_reducible apply held_enterSolo
    | with_reducible apply held_at
    | simp only [held_mk]
    | split

theorem held_joinTold (n iface : Nat) (e : BitVec 3) (f : BitVec 6) (s : State)  (hI : Held K Q F s) :
    Held K Q F (joinTold n iface e f s) := by
  unfold joinTold
  repeat' first
    | with_reducible assumption
    | with_reducible apply held_ite
    | with_reducible apply held_at
    | simp only [held_mk]

theorem held_sendCopies (dest : Nat) (s : State)  (hI : Held K Q F s) :
    Held K Q F (sendCopies dest s) := by
  unfold sendCopies
  try dsimp only
  repeat' first
    | with_reducible assumption
    | intro _
    | with_reducible apply held_send
    | with_reducible apply held_foldl
    | with_reducible apply held_ite
    | with_reducible apply held_at
    | with_reducible apply heldAt_drop
    | with_reducible apply heldAt_put
    | simp only [held_mk]
    | split

theorem held_joinTick (s : State)  (hI : Held K Q F s) :
    Held K Q F (joinTick s) := by
  unfold joinTick
  try dsimp only
  repeat' first
    | with_reducible assumption
    | intro _
    | with_reducible apply held_takePart
    | with_reducible apply held_sendCopies
    | with_reducible apply held_send
    | with_reducible apply held_foldl
    | with_reducible apply held_ite
    | with_reducible apply held_at
    | with_reducible apply heldAt_drop
    | with_reducible apply heldAt_put
    | simp only [held_mk]
    | split

theorem held_joinGroup (j : JoinInfo) (s : State)  (hI : Held K Q F s) :
    Held K Q F (joinGroup j s) := by
  unfold joinGroup
  repeat' first
    | with_reducible assumption
    | with_reducible apply held_clearService
    | with_reducible apply held_powerPlan
    | with_reducible apply held_ite
    | with_reducible apply held_at
    | simp only [held_mk]

theorem held_copyArrives (i : Sync) (s : State)  (hI : Held K Q F s) :
    Held K Q F (copyArrives i s) := by
  unfold copyArrives
  try dsimp only
  repeat' first
    | with_reducible assumption
    | intro _
    | with_reducible apply held_log
    | with_reducible apply held_hmpRead
    | with_reducible apply held_updBias
    | with_reducible apply held_maskFetch
    | with_reducible apply held_updMask
    | with_reducible apply held_putLine
    | with_reducible apply held_foldl
    | with_reducible apply held_ite
    | with_reducible apply held_at
    | with_reducible apply heldAt_drop
    | with_reducible apply heldAt_put
    | simp only [held_mk]
    | split

theorem held_sliceRejoinCmd (c : Cmd) (s : State)  (hI : Held K Q F s) :
    Held K Q F (sliceRejoinCmd c s) := by
  unfold sliceRejoinCmd
  repeat' first
    | with_reducible assumption
    | intro _
    | with_reducible apply held_judge
    | with_reducible apply held_await
    | with_reducible apply held_announceOut
    | with_reducible apply held_at
    | simp only [held_mk]

theorem held_rejoinSend (s : State)  (hI : Held K Q F s) :
    Held K Q F (rejoinSend s) := by
  unfold rejoinSend
  repeat' first
    | with_reducible assumption
    | with_reducible apply held_sendJars
    | with_reducible apply held_at
    | simp only [held_mk]
    | split

theorem held_rejoinBegins (n step : Nat) (s : State)  (hI : Held K Q F s) :
    Held K Q F (rejoinBegins n step s) := by
  unfold rejoinBegins
  repeat' first
    | with_reducible assumption
    | with_reducible apply held_rejoinSend
    | with_reducible apply held_at
    | simp only [held_mk]

theorem held_rejoinStamp (n : Nat) (s : State)  (hI : Held K Q F s) :
    Held K Q F (rejoinStamp n s) := by
  unfold rejoinStamp
  repeat' first
    | with_reducible assumption
    | with_reducible apply held_moveRuns
    | with_reducible apply held_at
    | simp only [held_mk]
    | split

theorem held_rejoinTick (s : State)  (hI : Held K Q F s) :
    Held K Q F (rejoinTick s) := by
  unfold rejoinTick
  repeat' first
    | with_reducible assumption
    | with_reducible apply held_finish
    | with_reducible apply held_snapshot
    | with_reducible apply held_at
    | simp only [held_mk]
    | split

theorem held_drainShares (s : State)  (hI : Held K Q F s) :
    Held K Q F (drainShares s) := by
  unfold drainShares
  repeat' first
    | with_reducible assumption
    | intro _
    | with_reducible apply held_sendJars
    | with_reducible apply held_foldl
    | with_reducible apply held_at
    | simp only [held_mk]
    | split

end Sys2Proof.Machine
end

