-- ==== Sys2Proof/Laws/HeldAccept.lean ====
section
/-! SUPPORT. What the operations of Machine/Accept.lean keep (see Laws/Held.lean). -/

-- The proofs of this file are checked one after another: the whole package is one text under a limit on threads.
set_option Elab.async false

namespace Sys2Proof.Machine

variable {K : Kit} {Q : List Instr} {F : Fuses}

theorem held_runCmd (op : Op) (c : Cmd) (s : State) (hI : Held K Q F s) : Held K Q F (runCmd op c s) := by
  cases op
  case info => exact held_infoCmd _ _ hI
  case pipProbe => exact held_pipProbeCmd _ _ _ hI
  case partBacking => exact held_backingCmd _ _ hI
  case headLoad => exact held_headLoadCmd _ _ hI
  case headUnload => exact held_headUnloadCmd _ _ hI
  case overlayLoad => exact held_overlayLoadCmd _ _ hI
  case mobjLoad => exact held_mobjLoadCmd _ _ hI
  case mobjDelete => exact held_mobjDeleteCmd _ _ hI
  case biasLoad => exact held_biasLoadCmd _ _ hI
  case biasDelete => exact held_biasDeleteCmd _ _ hI
  case rangeLoad => exact held_rangeCmd _ _ hI
  case sliceDrain => exact held_sliceDrainCmd _ _ hI
  case sliceRejoin => exact held_sliceRejoinCmd _ _ hI
  case fwStage => exact held_fwStageCmd _ _ hI
  case reqAdmit => exact held_admitCmd _ _ _ hI
  case reqAdmitAcorn => exact held_admitCmd _ _ _ hI
  case reqSettings => exact held_settingsCmd _ _ hI
  case reqCancel => exact held_cancelCmd _ _ hI
  case reqPause => exact held_pauseCmd _ _ hI
  case reqResume => exact held_resumeCmd _ _ hI
  case reqEvict => exact held_evictCmd _ _ hI
  case huskResume => exact held_huskResumeCmd _ _ hI
  case reqMove => exact held_moveCmd _ _ hI
  case reqQuery => exact held_queryCmd _ _ hI
  case tenantBind => exact held_bindCmd _ _ hI
  case tenantCredit => exact held_creditCmd _ _ hI
  case tenantDrain => exact held_drainCmd _ _ hI
  case tenantReserve => exact held_reserveCmd _ _ hI
  case tenantUnbind => exact held_unbindCmd _ _ hI
  case tenantQuery => exact held_tenantQueryCmd _ _ hI
  case acornMake => exact held_acornMakeCmd _ _ hI
  case acornTake => exact held_acornTakeCmd _ _ hI
  case acornDrop => exact held_acornDropCmd _ _ hI
  case variantReg => exact held_variantRegCmd _ _ hI
  case variantDrop => exact held_variantDropCmd _ _ hI
  case trainOpen => exact held_openCmd _ _ hI
  case trainForward => exact held_forwardCmd _ _ hI
  case trainBackward => exact held_backwardCmd _ _ hI
  case trainNorm => exact held_normCmd _ _ hI
  case trainUpdate => exact held_updateCmd _ _ hI
  case trainClose => exact held_closeCmd _ _ hI
  case maskPrune => exact held_pruneCmd _ _ hI
  case maskGrow => exact held_growCmd _ _ hI
  case maskBarrier => exact held_barrierCmd _ _ hI
  case maskDiscard => exact held_discardCmd _ _ hI
  case maskStatus => exact held_maskStatusCmd _ _ hI

theorem held_runOp (op : Op) (c : Cmd) (s : State)  (hI : Held K Q F s) :
    Held K Q F (runOp op c s) := by
  unfold runOp
  try dsimp only
  repeat' first
    | with_reducible assumption
    | intro _
    | with_reducible apply held_sendOn
    | with_reducible apply held_accept
    | with_reducible apply held_runCmd
    | with_reducible apply held_foldl
    | with_reducible apply held_ite
    | with_reducible apply held_at
    | with_reducible apply heldAt_drop
    | with_reducible apply heldAt_put
    | simp only [held_mk]
    | split

theorem held_runDeferred (s : State)  (hI : Held K Q F s) :
    Held K Q F (runDeferred s) := by
  unfold runDeferred
  repeat' first
    | with_reducible assumption
    | intro _
    | with_reducible apply held_runOp
    | with_reducible apply held_foldl
    | with_reducible apply held_at
    | simp only [held_mk]

theorem held_deltaAcked (src step : Nat) (s : State)  (hI : Held K Q F s) :
    Held K Q F (deltaAcked src step s) := by
  unfold deltaAcked
  repeat' first
    | with_reducible assumption
    | intro _
    | with_reducible apply held_runOp
    | with_reducible apply held_tryProd
    | with_reducible apply held_foldl
    | with_reducible apply held_at
    | simp only [held_mk]
    | split

end Sys2Proof.Machine
end

