-- ==== Sys2Proof/Laws/HeldRegroup.lean ====
section
/-! SUPPORT. What the operations of Machine/Regroup.lean keep (see Laws/Held.lean). -/

-- The proofs of this file are checked one after another: the whole package is one text under a limit on threads.
set_option Elab.async false

namespace Sys2Proof.Machine

variable {K : Kit} {Q : List Instr} {F : Fuses}

theorem held_restartPlan (s : State) (x : Plan)  (hI : Held K Q F s) :
    Held K Q F (restartPlan s x) := by
  unfold restartPlan
  repeat' first
    | with_reducible assumption
    | with_reducible apply held_finish
    | with_reducible apply held_freeUses
    | with_reducible apply held_updTrain
    | with_reducible apply held_updPlan
    | with_reducible apply held_ite
    | with_reducible apply held_at
    | simp only [held_mk]

theorem held_stopTraining (s : State)  (hI : Held K Q F s) :
    Held K Q F (stopTraining s) := by
  unfold stopTraining
  try dsimp only
  repeat' first
    | with_reducible assumption
    | intro _
    | with_reducible apply held_restartPlan
    | with_reducible apply held_updTrain
    | with_reducible apply held_foldl
    | with_reducible apply held_ite
    | with_reducible apply held_at
    | with_reducible apply heldAt_drop
    | with_reducible apply heldAt_put
    | simp only [held_mk]
    | split

theorem held_resumeTraining (s : State)  (hI : Held K Q F s) :
    Held K Q F (resumeTraining s) := by
  unfold resumeTraining
  try dsimp only
  repeat' first
    | with_reducible assumption
    | intro _
    | with_reducible apply held_normAgain
    | with_reducible apply held_gradsAdvance
    | with_reducible apply held_readUpdate
    | with_reducible apply held_foldl
    | with_reducible apply held_ite
    | with_reducible apply held_at
    | with_reducible apply heldAt_drop
    | with_reducible apply heldAt_put
    | simp only [held_mk]
    | split

theorem held_drainMeetsLoss (n : Nat) (s : State)  (hI : Held K Q F s) :
    Held K Q F (drainMeetsLoss n s) := by
  unfold drainMeetsLoss
  repeat' first
    | with_reducible assumption
    | with_reducible apply held_finish
    | with_reducible apply held_at
    | simp only [held_mk]
    | split

theorem held_beginRegroup (n f : Nat) (s : State)  (hI : Held K Q F s) :
    Held K Q F (beginRegroup n f s) := by
  unfold beginRegroup
  try dsimp only
  repeat' first
    | with_reducible assumption
    | intro _
    | with_reducible apply held_drainMeetsLoss
    | with_reducible apply held_reconcile
    | with_reducible apply held_checkKills
    | with_reducible apply held_stopTraining
    | with_reducible apply held_foldl
    | with_reducible apply held_ite
    | with_reducible apply held_at
    | with_reducible apply heldAt_drop
    | with_reducible apply heldAt_put
    | simp only [held_mk]
    | split

theorem held_declareLost (n : Nat) (s : State)  (hI : Held K Q F s) :
    Held K Q F (declareLost n s) := by
  unfold declareLost
  repeat' first
    | with_reducible assumption
    | with_reducible apply held_alarm
    | with_reducible apply held_flood
    | with_reducible apply held_beginRegroup
    | with_reducible apply held_ite
    | with_reducible apply held_at
    | simp only [held_mk]

theorem held_reportRows (s : State)  (hI : Held K Q F s) :
    Held K Q F (reportRows s) := by
  unfold reportRows
  repeat' first
    | with_reducible assumption
    | intro _
    | with_reducible apply held_flood
    | with_reducible apply held_rowTold
    | with_reducible apply held_rowFreed
    | with_reducible apply held_foldl

theorem held_reportApplied (s : State)  (hI : Held K Q F s) :
    Held K Q F (reportApplied s) := by
  unfold reportApplied
  repeat' first
    | with_reducible assumption
    | intro _
    | with_reducible apply held_reportRows
    | with_reducible apply held_flood
    | with_reducible apply held_foldl
    | split

theorem held_appliedArrives (o : ReqOutcome) (s : State)  (hI : Held K Q F s) :
    Held K Q F (appliedArrives o s) := by
  unfold appliedArrives
  repeat' first
    | with_reducible assumption
    | with_reducible apply held_applyOutcome
    | split

theorem held_voidArrives (q n : Nat) (s : State)  (hI : Held K Q F s) :
    Held K Q F (voidArrives q n s) := by
  unfold voidArrives
  repeat' first
    | with_reducible assumption
    | with_reducible apply held_updReq
    | with_reducible apply held_ite

theorem held_reconcile (s : State)  (hI : Held K Q F s) :
    Held K Q F (reconcile s) := by
  unfold reconcile
  repeat' first
    | with_reducible assumption
    | intro _
    | with_reducible apply held_voidArrives
    | with_reducible apply held_flood
    | with_reducible apply held_foldl
    | with_reducible apply held_ite

theorem held_readShadows (s : State)  (hI : Held K Q F s) :
    Held K Q F (readShadows s) := by
  unfold readShadows
  repeat' first
    | with_reducible assumption
    | intro _
    | with_reducible apply held_hmpRead
    | with_reducible apply held_foldl
    | with_reducible apply held_at
    | simp only [held_mk]
    | split

theorem held_takeoverBegins (s : State)  (hI : Held K Q F s) :
    Held K Q F (takeoverBegins s) := by
  unfold takeoverBegins
  repeat' first
    | with_reducible assumption
    | with_reducible apply held_readShadows
    | with_reducible apply held_readTaken
    | with_reducible apply held_at
    | simp only [held_mk]
    | split

theorem held_reportArrives (n step : Nat) (s : State)  (hI : Held K Q F s) :
    Held K Q F (reportArrives n step s) := by
  unfold reportArrives
  repeat' first
    | with_reducible assumption
    | with_reducible apply held_reconcile
    | with_reducible apply held_takeoverBegins
    | with_reducible apply held_flood
    | with_reducible apply held_at
    | simp only [held_mk]
    | split

theorem held_reportNow (s : State)  (hI : Held K Q F s) :
    Held K Q F (reportNow s) := by
  unfold reportNow
  repeat' first
    | with_reducible assumption
    | with_reducible apply held_reportArrives
    | with_reducible apply held_reportApplied
    | with_reducible apply held_ite

theorem held_lostLine (q : Nat) (s : State)  (hI : Held K Q F s) :
    Held K Q F (lostLine q s) := by
  unfold lostLine
  repeat' first
    | with_reducible assumption
    | with_reducible apply held_updReq

theorem held_shareRebuilt (h : Nat) (s : State)  (hI : Held K Q F s) :
    Held K Q F (shareRebuilt h s) := by
  unfold shareRebuilt
  repeat' first
    | with_reducible assumption
    | intro _
    | with_reducible apply held_updReq
    | with_reducible apply held_send
    | with_reducible apply held_foldl
    | with_reducible apply held_ite

theorem held_shadowArrived (q p slot : Nat) (bs : Option Bytes) (s : State)  (hI : Held K Q F s) :
    Held K Q F (shadowArrived q p slot bs s) := by
  unfold shadowArrived
  repeat' first
    | with_reducible assumption
    | with_reducible apply held_alarm
    | with_reducible apply held_lostLine
    | with_reducible apply held_flood
    | with_reducible apply held_shareRebuilt
    | with_reducible apply held_at
    | simp only [held_mk]
    | split

theorem held_windowAnew (e : ReqEntry) (s : State)  (hI : Held K Q F s) :
    Held K Q F (windowAnew e s) := by
  unfold windowAnew
  try dsimp only
  repeat' first
    | with_reducible assumption
    | intro _
    | with_reducible apply held_updReq
    | refine held_allocLines _ _ _ _ ?_ (by assumption)
    | with_reducible apply held_foldl
    | with_reducible apply held_ite
    | with_reducible apply held_at
    | with_reducible apply heldAt_drop
    | with_reducible apply heldAt_put
    | simp only [held_mk]
    | split

theorem held_recordsAnew (q : Nat) (s : State)  (hI : Held K Q F s) :
    Held K Q F (recordsAnew q s) := by
  unfold recordsAnew
  try dsimp only
  repeat' first
    | with_reducible assumption
    | intro _
    | with_reducible apply held_writeRecords
    | with_reducible apply held_updReq
    | with_reducible apply held_foldl
    | with_reducible apply held_ite
    | with_reducible apply held_at
    | with_reducible apply heldAt_drop
    | with_reducible apply heldAt_put
    | simp only [held_mk]
    | split

theorem held_homeRebuilt (q : Nat) (s : State)  (hI : Held K Q F s) :
    Held K Q F (homeRebuilt q s) := by
  unfold homeRebuilt
  try dsimp only
  repeat' first
    | with_reducible assumption
    | intro _
    | with_reducible apply held_recordsAnew
    | with_reducible apply held_windowAnew
    | with_reducible apply held_updReq
    | with_reducible apply held_lostLine
    | with_reducible apply held_foldl
    | with_reducible apply held_ite
    | with_reducible apply held_at
    | with_reducible apply heldAt_drop
    | with_reducible apply heldAt_put
    | simp only [held_mk]
    | split

theorem held_runKept (x : DeltaEntry) (s : State)  (hI : Held K Q F s) :
    Held K Q F (runKept x s) := by
  unfold runKept
  repeat' first
    | with_reducible assumption
    | with_reducible apply held_send
    | with_reducible apply held_await
    | with_reducible apply held_runOp
    | with_reducible apply held_at
    | simp only [held_mk]
    | split

theorem held_runKeptAll (s : State)  (hI : Held K Q F s) :
    Held K Q F (runKeptAll s) := by
  unfold runKeptAll
  repeat' first
    | with_reducible assumption
    | intro _
    | with_reducible apply held_runKept
    | with_reducible apply held_foldl
    | with_reducible apply held_at
    | simp only [held_mk]

theorem held_reportAgain (s : State)  (hI : Held K Q F s) :
    Held K Q F (reportAgain s) := by
  unfold reportAgain
  repeat' first
    | with_reducible assumption
    | intro _
    | with_reducible apply held_reportLoad
    | with_reducible apply held_foldl

theorem held_settleLoads (s : State)  (hI : Held K Q F s) :
    Held K Q F (settleLoads s) := by
  unfold settleLoads
  try dsimp only
  repeat' first
    | with_reducible assumption
    | intro _
    | with_reducible apply held_objDecide
    | with_reducible apply held_objAllApplied
    | with_reducible apply held_foldl
    | with_reducible apply held_ite
    | with_reducible apply held_at
    | with_reducible apply heldAt_drop
    | with_reducible apply heldAt_put
    | simp only [held_mk]
    | split

theorem held_loadsLost (hs : List Nat) (s : State)  (hI : Held K Q F s) :
    Held K Q F (loadsLost hs s) := by
  unfold loadsLost
  try dsimp only
  repeat' first
    | with_reducible assumption
    | intro _
    | with_reducible apply held_dropLoad
    | with_reducible apply held_foldl
    | with_reducible apply held_ite
    | with_reducible apply held_at
    | with_reducible apply heldAt_drop
    | with_reducible apply heldAt_put
    | simp only [held_mk]
    | split

theorem held_takeoverEnds (s : State)  (hI : Held K Q F s) :
    Held K Q F (takeoverEnds s) := by
  unfold takeoverEnds
  try dsimp only
  repeat' first
    | with_reducible assumption
    | intro _
    | with_reducible apply held_loadsLost
    | with_reducible apply held_acornsLost
    | with_reducible apply held_loseAcorns
    | with_reducible apply held_becomeHoles
    | with_reducible apply held_homeRebuilt
    | with_reducible apply held_runKeptAll
    | with_reducible apply held_resumeTraining
    | with_reducible apply held_settleLoads
    | with_reducible apply held_reportAgain
    | with_reducible apply held_foldl
    | with_reducible apply held_ite
    | with_reducible apply held_at
    | with_reducible apply heldAt_drop
    | with_reducible apply heldAt_put
    | simp only [held_mk]
    | split

theorem held_endLostForwards (hs : List Nat) (s : State)  (hI : Held K Q F s) :
    Held K Q F (endLostForwards hs s) := by
  unfold endLostForwards
  repeat' first
    | with_reducible assumption
    | intro _
    | with_reducible apply held_deliver
    | with_reducible apply held_foldl
    | with_reducible apply held_at
    | simp only [held_mk]

theorem held_regroupTick (s : State)  (hI : Held K Q F s) :
    Held K Q F (regroupTick s) := by
  unfold regroupTick
  repeat' first
    | with_reducible assumption
    | with_reducible apply held_endLostForwards
    | with_reducible apply held_snapshot
    | with_reducible apply held_at
    | simp only [held_mk]
    | split

theorem held_regroupMsg (m : RegroupMsg) (s : State)  (hI : Held K Q F s) :
    Held K Q F (regroupMsg m s) := by
  unfold regroupMsg
  repeat' first
    | with_reducible assumption
    | with_reducible apply held_beginRegroup
    | with_reducible apply held_appliedArrives
    | with_reducible apply held_reportArrives
    | with_reducible apply held_voidArrives
    | with_reducible apply held_takeoverBegins
    | with_reducible apply held_lostLine
    | with_reducible apply held_at
    | simp only [held_mk]
    | split

end Sys2Proof.Machine
end

