-- ==== Sys2Proof/Laws/HeldReads.lean ====
section
/-! SUPPORT. What the operations of Machine/Reads.lean keep (see Laws/Held.lean). -/

-- The proofs of this file are checked one after another: the whole package is one text under a limit on threads.
set_option Elab.async false

namespace Sys2Proof.Machine

variable {K : Kit} {Q : List Instr} {F : Fuses}

theorem held_busyRead (op : Op) (c : Cmd) (s : State)  (hI : Held K Q F s) :
    Held K Q F (busyRead op c s) := by
  unfold busyRead
  repeat' first
    | with_reducible assumption
    | with_reducible apply held_complete

theorem held_logConsArrived (bs : Option Bytes) (s : State)  (hI : Held K Q F s) :
    Held K Q F (logConsArrived bs s) := by
  unfold logConsArrived
  repeat' first
    | with_reducible assumption
    | with_reducible apply held_at
    | simp only [held_mk]
    | split

theorem held_readDone (j : ReadJob) (bs : Option Bytes) (s : State)  (hI : Held K Q F s) :
    Held K Q F (readDone j bs s) := by
  unfold readDone
  try dsimp only
  repeat' first
    | with_reducible assumption
    | intro _
    | with_reducible apply held_takeEntry
    | with_reducible apply held_dropFetch
    | with_reducible apply held_admitRead
    | with_reducible apply held_busyRead
    | with_reducible apply held_countsArrived
    | with_reducible apply held_headArrived
    | with_reducible apply held_overlayArrived
    | with_reducible apply held_complete
    | with_reducible apply held_maskArrived
    | with_reducible apply held_biasArrived
    | with_reducible apply held_rangeRead
    | with_reducible apply held_acornArrived
    | with_reducible apply held_huskHeaderRead
    | with_reducible apply held_huskRead
    | with_reducible apply held_fwRead
    | with_reducible apply held_openRead
    | with_reducible apply held_forwardRead
    | with_reducible apply held_targetsArrived
    | with_reducible apply held_consArrived
    | with_reducible apply held_logConsArrived
    | with_reducible apply held_backingArrived
    | with_reducible apply held_streamArrived
    | with_reducible apply held_spillArrived
    | with_reducible apply held_shadowFetched
    | with_reducible apply held_shadowArrived
    | with_reducible apply held_takenArrived
    | with_reducible apply held_normArrived
    | with_reducible apply held_tellHolder
    | with_reducible apply held_normFails
    | with_reducible apply held_accArrived
    | with_reducible apply held_backwardFails
    | with_reducible apply held_updAccArrived
    | with_reducible apply held_updateFails
    | with_reducible apply held_updStateArrived
    | with_reducible apply held_retiredArrived
    | with_reducible apply held_foldl
    | with_reducible apply held_ite
    | with_reducible apply held_at
    | with_reducible apply heldAt_drop
    | with_reducible apply heldAt_put
    | simp only [held_mk]
    | split

theorem held_endJob (n : Nat) (s : State)  (hI : Held K Q F s) :
    Held K Q F (endJob n s) := by
  unfold endJob
  repeat' first
    | with_reducible assumption
    | with_reducible apply held_takeEntry
    | with_reducible apply held_readDone
    | with_reducible apply held_at
    | simp only [held_mk]
    | split

theorem held_runJobs (s : State)  (hI : Held K Q F s) :
    Held K Q F (runJobs s) := by
  unfold runJobs
  repeat' first
    | with_reducible assumption
    | intro _
    | with_reducible apply held_endJob
    | with_reducible apply held_foldl

theorem held_failJob (n : Nat) (s : State)  (hI : Held K Q F s) :
    Held K Q F (failJob n s) := by
  unfold failJob
  repeat' first
    | with_reducible assumption
    | with_reducible apply held_readDone
    | with_reducible apply held_at
    | simp only [held_mk]
    | split

theorem held_writeDone (n : Nat) (a : AfterWrite) (s : State)  (hI : Held K Q F s) :
    Held K Q F (writeDone n a s) := by
  unfold writeDone
  repeat' first
    | with_reducible assumption
    | with_reducible apply held_recordOut
    | with_reducible apply held_prodDone
    | with_reducible apply held_recordWritten
    | with_reducible apply held_huskWritten
    | with_reducible apply held_slotWritten
    | with_reducible apply held_hmpWrite
    | with_reducible apply held_ackDeltas
    | dsimp only
    | split

end Sys2Proof.Machine
end

