-- ==== Sys2Proof/Laws/HeldHmp.lean ====
section
/-! SUPPORT. What the operations of Machine/Hmp.lean keep (see Laws/Held.lean). -/

-- The proofs of this file are checked one after another: the whole package is one text under a limit on threads.
set_option Elab.async false

namespace Sys2Proof.Machine

variable {K : Kit} {Q : List Instr} {F : Fuses}

theorem held_updTxn (t : Txn) (f : Txn → Txn) (s : State)  (hI : Held K Q F s) :
    Held K Q F (updTxn t f s) := by
  unfold updTxn
  repeat' first
    | with_reducible assumption
    | with_reducible apply held_at
    | simp only [held_mk]

theorem held_answered (s : State)  (hI : Held K Q F s) :
    Held K Q F (answered s) := by
  unfold answered
  repeat' first
    | with_reducible assumption
    | with_reducible apply held_at
    | simp only [held_mk]

theorem held_endTxn (t : Txn) (s : State)  (hI : Held K Q F s) :
    Held K Q F (endTxn t s) := by
  unfold endTxn
  repeat' first
    | with_reducible assumption
    | with_reducible apply held_answered
    | with_reducible apply held_at
    | simp only [held_mk]

theorem held_hmpViolation (code tag : Nat) (s : State)  (hI : Held K Q F s) :
    Held K Q F (hmpViolation code tag s) := by
  unfold hmpViolation
  repeat' first
    | with_reducible assumption
    | with_reducible apply held_violation

theorem held_unknownTag (tag : Nat) (s : State)  (hI : Held K Q F s) :
    Held K Q F (unknownTag tag s) := by
  unfold unknownTag
  repeat' first
    | with_reducible assumption
    | with_reducible apply held_hmpViolation
    | with_reducible apply held_ite
    | with_reducible apply held_at
    | simp only [held_mk]

theorem held_discardAnswer (tag : Nat) (s : State)  (hI : Held K Q F s) :
    Held K Q F (discardAnswer tag s) := by
  unfold discardAnswer
  repeat' first
    | with_reducible assumption
    | with_reducible apply held_at
    | simp only [held_mk]

theorem held_hmpError (t : Txn) (tag : Nat) (r : Resp) (s : State)  (hI : Held K Q F s) :
    Held K Q F (hmpError t tag r s) := by
  unfold hmpError
  repeat' first
    | with_reducible assumption
    | with_reducible apply held_alarm

theorem held_errorTrace (t : Txn) (r : Resp) (s : State)  (hI : Held K Q F s) :
    Held K Q F (errorTrace t r s) := by
  unfold errorTrace
  repeat' first
    | with_reducible assumption
    | with_reducible apply held_trace

theorem held_logWindow (t : Txn) (tag : Nat) (s : State)  (hI : Held K Q F s) :
    Held K Q F (logWindow t tag s) := by
  unfold logWindow
  repeat' first
    | with_reducible assumption
    | with_reducible apply held_endTxn
    | with_reducible apply held_event
    | with_reducible apply held_count
    | with_reducible apply held_ite
    | with_reducible apply held_at
    | simp only [held_mk]

theorem held_windowBreach (t : Txn) (tag : Nat) (s : State)  (hI : Held K Q F s) :
    Held K Q F (windowBreach t tag s) := by
  unfold windowBreach
  repeat' first
    | with_reducible assumption
    | with_reducible apply held_logWindow
    | with_reducible apply held_violation
    | with_reducible apply held_answered
    | with_reducible apply held_updTxn
    | with_reducible apply held_ite

theorem held_readOk (t : Txn) (beats : List Bytes) (s : State)  (hI : Held K Q F s) :
    Held K Q F (readOk t beats s) := by
  unfold readOk
  repeat' first
    | with_reducible assumption
    | with_reducible apply held_endTxn
    | with_reducible apply held_endJob
    | with_reducible apply held_at
    | simp only [held_mk]

theorem held_readFailed (t : Txn) (tag : Nat) (r : Resp) (s : State)  (hI : Held K Q F s) :
    Held K Q F (readFailed t tag r s) := by
  unfold readFailed
  repeat' first
    | with_reducible assumption
    | with_reducible apply held_hmpError
    | with_reducible apply held_failJob
    | with_reducible apply held_endTxn
    | with_reducible apply held_answered
    | with_reducible apply held_updTxn
    | with_reducible apply held_ite

theorem held_readData (ch : RdCh) (tag : Nat) (r : Resp) (beats : List Bytes) (s : State)  (hI : Held K Q F s) :
    Held K Q F (readData ch tag r beats s) := by
  unfold readData
  repeat' first
    | with_reducible assumption
    | with_reducible apply held_discardAnswer
    | with_reducible apply held_unknownTag
    | with_reducible apply held_readOk
    | with_reducible apply held_hmpIssue
    | with_reducible apply held_hmpViolation
    | with_reducible apply held_windowBreach
    | with_reducible apply held_errorTrace
    | with_reducible apply held_readFailed
    | split

theorem held_retryRead (tag : Nat) (s : State)  (hI : Held K Q F s) :
    Held K Q F (retryRead tag s) := by
  unfold retryRead
  repeat' first
    | with_reducible assumption
    | with_reducible apply held_updTxn
    | with_reducible apply held_at
    | simp only [held_mk]
    | split

theorem held_writeFailed (t : Txn) (tag : Nat) (r : Resp) (s : State)  (hI : Held K Q F s) :
    Held K Q F (writeFailed t tag r s) := by
  unfold writeFailed
  repeat' first
    | with_reducible assumption
    | with_reducible apply held_answered
    | with_reducible apply held_updTxn
    | with_reducible apply held_hmpError

theorem held_writeResponse (tag : Nat) (r : Resp) (s : State)  (hI : Held K Q F s) :
    Held K Q F (writeResponse tag r s) := by
  unfold writeResponse
  repeat' first
    | with_reducible assumption
    | with_reducible apply held_discardAnswer
    | with_reducible apply held_unknownTag
    | with_reducible apply held_hmpIssue
    | with_reducible apply held_writeDone
    | with_reducible apply held_endTxn
    | with_reducible apply held_windowBreach
    | with_reducible apply held_errorTrace
    | with_reducible apply held_writeFailed
    | split

theorem held_reissueWrites (s : State)  (hI : Held K Q F s) :
    Held K Q F (reissueWrites s) := by
  unfold reissueWrites
  repeat' first
    | with_reducible assumption
    | with_reducible apply held_hmpIssue
    | with_reducible apply held_at
    | simp only [held_mk]

theorem held_thawHmp (s : State)  (hI : Held K Q F s) :
    Held K Q F (thawHmp s) := by
  unfold thawHmp
  repeat' first
    | with_reducible assumption
    | with_reducible apply held_hmpIssue
    | with_reducible apply held_at
    | simp only [held_mk]

end Sys2Proof.Machine
end

