-- ==== Sys2Proof/Laws/HeldLink.lean ====
section
/-! SUPPORT. What the operations of Machine/Link.lean keep (see Laws/Held.lean). -/

-- The proofs of this file are checked one after another: the whole package is one text under a limit on threads.
set_option Elab.async false

namespace Sys2Proof.Machine

variable {K : Kit} {Q : List Instr} {F : Fuses}

theorem held_updPort (n : Nat) (f : Port → Port) (s : State)  (hI : Held K Q F s) :
    Held K Q F (updPort n f s) := by
  unfold updPort
  repeat' first
    | with_reducible assumption
    | with_reducible apply held_at
    | simp only [held_mk]

theorem held_setSession (n : Nat) (x : Session) (s : State)  (hI : Held K Q F s) :
    Held K Q F (setSession n x s) := by
  unfold setSession
  repeat' first
    | with_reducible assumption
    | with_reducible apply held_trace
    | with_reducible apply held_updPort

theorem held_reroute (s : State)  (hI : Held K Q F s) :
    Held K Q F (reroute s) := by
  unfold reroute
  repeat' first
    | with_reducible assumption
    | with_reducible apply held_ite
    | with_reducible apply held_at
    | simp only [held_mk]

theorem held_queueOn (o : OutMsg) (s : State) (n : Nat)  (hI : Held K Q F s) :
    Held K Q F (queueOn o s n) := by
  unfold queueOn
  repeat' first
    | with_reducible assumption
    | with_reducible apply held_updPort
    | with_reducible apply held_at
    | simp only [held_mk]

theorem held_queueOnAll (o : OutMsg) (ns : List Nat) (s : State)  (hI : Held K Q F s) :
    Held K Q F (queueOnAll o ns s) := by
  unfold queueOnAll
  repeat' first
    | with_reducible assumption
    | intro _
    | with_reducible apply held_updPort
    | with_reducible apply held_foldl
    | with_reducible apply held_at
    | simp only [held_mk]

theorem held_routeOne (s : State) (o : OutMsg)  (hI : Held K Q F s) :
    Held K Q F (routeOne s o) := by
  unfold routeOne
  repeat' first
    | with_reducible assumption
    | with_reducible apply held_queueOn
    | with_reducible apply held_queueOnAll
    | with_reducible apply held_at
    | simp only [held_mk]
    | split

theorem held_routeOut (s : State)  (hI : Held K Q F s) :
    Held K Q F (routeOut s) := by
  unfold routeOut
  repeat' first
    | with_reducible assumption
    | with_reducible apply held_routeOne
    | with_reducible apply held_foldl
    | with_reducible apply held_at
    | simp only [held_mk]

theorem held_emitFlit (n : Nat) (f : TxFlit) (idle : Bool) (seq : Nat) (s : State)  (hI : Held K Q F s) :
    Held K Q F (emitFlit n f idle seq s) := by
  unfold emitFlit
  repeat' first
    | with_reducible assumption
    | with_reducible apply held_updPort
    | with_reducible apply held_at
    | simp only [held_mk]

theorem held_sendFlit (n : Nat) (f : TxFlit) (s : State)  (hI : Held K Q F s) :
    Held K Q F (sendFlit n f s) := by
  unfold sendFlit
  repeat' first
    | with_reducible assumption
    | with_reducible apply held_updPort
    | with_reducible apply held_emitFlit
    | with_reducible apply held_ite

theorem held_drainPort (n : Nat) (f : Nat)  (s : State) (hI : Held K Q F s) : Held K Q F (drainPort n f s) := by
  induction f generalizing  s with
  | zero => exact hI
  | succ n_ ih =>
    unfold drainPort
    repeat' first
      | with_reducible assumption
      | with_reducible apply ih
      | with_reducible apply held_sendFlit
      | split

theorem held_linkSend (n : Nat) (s : State)  (hI : Held K Q F s) :
    Held K Q F (linkSend n s) := by
  unfold linkSend
  repeat' first
    | with_reducible assumption
    | intro _
    | with_reducible apply held_routeOut
    | with_reducible apply held_drainPort
    | with_reducible apply held_emitFlit
    | with_reducible apply held_foldl
    | with_reducible apply held_ite

theorem held_linkStart (s : State)  (hI : Held K Q F s) :
    Held K Q F (linkStart s) := by
  unfold linkStart
  repeat' first
    | with_reducible assumption
    | with_reducible apply held_at
    | simp only [held_mk]

theorem held_restartStreams (n : Nat) (s : State)  (hI : Held K Q F s) :
    Held K Q F (restartStreams n s) := by
  unfold restartStreams
  repeat' first
    | with_reducible assumption
    | with_reducible apply held_at
    | simp only [held_mk]

theorem held_leaveActive (n : Nat) (x : Session) (s : State)  (hI : Held K Q F s) :
    Held K Q F (leaveActive n x s) := by
  unfold leaveActive
  repeat' first
    | with_reducible assumption
    | with_reducible apply held_restartStreams
    | with_reducible apply held_updPort
    | with_reducible apply held_reroute
    | with_reducible apply held_setSession
    | with_reducible apply held_at
    | simp only [held_mk]

theorem held_retrain (n : Nat) (s : State)  (hI : Held K Q F s) :
    Held K Q F (retrain n s) := by
  unfold retrain
  repeat' first
    | with_reducible assumption
    | with_reducible apply held_leaveActive
    | with_reducible apply held_ite

theorem held_conserveFails (n cls expected found : Nat) (s : State)  (hI : Held K Q F s) :
    Held K Q F (conserveFails n cls expected found s) := by
  unfold conserveFails
  repeat' first
    | with_reducible assumption
    | with_reducible apply held_retrain
    | with_reducible apply held_alarm

theorem held_conservePort (s : State) (n : Nat)  (hI : Held K Q F s) :
    Held K Q F (conservePort s n) := by
  unfold conservePort
  repeat' first
    | with_reducible assumption
    | with_reducible apply held_conserveFails
    | dsimp only
    | split

theorem held_blConserve (s : State)  (hI : Held K Q F s) :
    Held K Q F (blConserve s) := by
  unfold blConserve
  repeat' first
    | with_reducible assumption
    | with_reducible apply held_conservePort
    | with_reducible apply held_foldl

theorem held_replayPort (n : Nat) (s : State)  (hI : Held K Q F s) :
    Held K Q F (replayPort n s) := by
  unfold replayPort
  repeat' first
    | with_reducible assumption
    | intro _
    | with_reducible apply held_retrain
    | with_reducible apply held_updPort
    | with_reducible apply held_trace
    | with_reducible apply held_emitFlit
    | with_reducible apply held_foldl
    | dsimp only
    | split

theorem held_badMessage (n typ : Nat) (s : State)  (hI : Held K Q F s) :
    Held K Q F (badMessage n typ s) := by
  unfold badMessage
  repeat' first
    | with_reducible assumption
    | with_reducible apply held_log
    | with_reducible apply held_updPort
    | with_reducible apply held_retrain
    | with_reducible apply held_ite

theorem held_seenBefore (b : Bytes) (s : State)  (hI : Held K Q F s) :
    Held K Q F (seenBefore b s).2 := by
  unfold seenBefore
  repeat' first
    | with_reducible assumption
    | with_reducible apply held_at
    | simp only [held_mk]
    | split

theorem held_keepMsg (n cls : Nat) (b : Bytes) (s : State)  (hI : Held K Q F s) :
    Held K Q F (keepMsg n cls b s) := by
  unfold keepMsg
  repeat' first
    | with_reducible assumption
    | with_reducible apply held_at
    | simp only [held_mk]

theorem held_relayMsg (n cls : Nat) (dest : Option Nat) (b : Bytes) (s : State)  (hI : Held K Q F s) :
    Held K Q F (relayMsg n cls dest b s) := by
  unfold relayMsg
  repeat' first
    | with_reducible assumption
    | with_reducible apply held_at
    | simp only [held_mk]

theorem held_floodArrives (n cls : Nat) (b : Bytes) (s : State)  (hI : Held K Q F s) :
    Held K Q F (floodArrives n cls b s) := by
  unfold floodArrives
  repeat' first
    | with_reducible assumption
    | with_reducible apply held_seenBefore
    | with_reducible apply held_relayMsg
    | with_reducible apply held_keepMsg
    | with_reducible apply held_ite

theorem held_unicastArrives (n cls : Nat) (b : Bytes) (s : State)  (hI : Held K Q F s) :
    Held K Q F (unicastArrives n cls b s) := by
  unfold unicastArrives
  repeat' first
    | with_reducible assumption
    | with_reducible apply held_keepMsg
    | with_reducible apply held_seenBefore
    | with_reducible apply held_alarm
    | with_reducible apply held_relayMsg
    | with_reducible apply held_ite

theorem held_messageIn (n cls : Nat) (b : Bytes) (s : State)  (hI : Held K Q F s) :
    Held K Q F (messageIn n cls b s) := by
  unfold messageIn
  repeat' first
    | with_reducible assumption
    | with_reducible apply held_badMessage
    | with_reducible apply held_log
    | with_reducible apply held_floodArrives
    | with_reducible apply held_unicastArrives
    | with_reducible apply held_ite

theorem held_assemble (n cls : Nat) (w : Nat) (body : Bytes) (s : State)  (hI : Held K Q F s) :
    Held K Q F (assemble n cls w body s) := by
  unfold assemble
  repeat' first
    | with_reducible assumption
    | with_reducible apply held_badMessage
    | with_reducible apply held_keepMsg
    | with_reducible apply held_updPort
    | with_reducible apply held_messageIn
    | dsimp only
    | split

theorem held_flitIn (n : Nat) (w seq : Nat) (body : Bytes) (s : State)  (hI : Held K Q F s) :
    Held K Q F (flitIn n w seq body s) := by
  unfold flitIn
  repeat' first
    | with_reducible assumption
    | with_reducible apply held_updPort
    | with_reducible apply held_conserveFails
    | with_reducible apply held_assemble
    | with_reducible apply held_ite

theorem held_flitArrives (n lane : Nat) (b : Bytes) (fecOk : Bool) (s : State)  (hI : Held K Q F s) :
    Held K Q F (flitArrives n lane b fecOk s) := by
  unfold flitArrives
  repeat' first
    | with_reducible assumption
    | with_reducible apply held_linkSend
    | with_reducible apply held_updPort
    | with_reducible apply held_linkStart
    | with_reducible apply held_replayPort
    | with_reducible apply held_flitIn
    | with_reducible apply held_ite

theorem held_takeNumbers (s : State)  (hI : Held K Q F s) :
    Held K Q F (takeNumbers s) := by
  unfold takeNumbers
  repeat' first
    | with_reducible assumption
    | with_reducible apply held_ite
    | with_reducible apply held_at
    | simp only [held_mk]

theorem held_enterHello (n : Nat) (s : State)  (hI : Held K Q F s) :
    Held K Q F (enterHello n s) := by
  unfold enterHello
  repeat' first
    | with_reducible assumption
    | with_reducible apply held_takeNumbers
    | with_reducible apply held_setSession
    | with_reducible apply held_linkSend
    | with_reducible apply held_linkStart
    | with_reducible apply held_at
    | simp only [held_mk]

theorem held_setLane (n lane : Nat) (up : Bool) (s : State)  (hI : Held K Q F s) :
    Held K Q F (setLane n lane up s) := by
  unfold setLane
  repeat' first
    | with_reducible assumption
    | with_reducible apply held_updPort

theorem held_laneLocks (n lane : Nat) (s : State)  (hI : Held K Q F s) :
    Held K Q F (laneLocks n lane s) := by
  unfold laneLocks
  repeat' first
    | with_reducible assumption
    | with_reducible apply held_enterHello
    | with_reducible apply held_setLane
    | dsimp only
    | split

theorem held_portLost (n : Nat) (s : State)  (hI : Held K Q F s) :
    Held K Q F (portLost n s) := by
  unfold portLost
  repeat' first
    | with_reducible assumption
    | with_reducible apply held_leaveActive
    | split

theorem held_laneLost (n lane : Nat) (s : State)  (hI : Held K Q F s) :
    Held K Q F (laneLost n lane s) := by
  unfold laneLost
  repeat' first
    | with_reducible assumption
    | with_reducible apply held_setLane
    | with_reducible apply held_alarm
    | with_reducible apply held_linkSend
    | with_reducible apply held_replayPort
    | with_reducible apply held_linkStart
    | with_reducible apply held_portLost
    | with_reducible apply held_ite

theorem held_trainPort (n : Nat) (s : State)  (hI : Held K Q F s) :
    Held K Q F (trainPort n s) := by
  unfold trainPort
  repeat' first
    | with_reducible assumption
    | with_reducible apply held_setSession
    | with_reducible apply held_ite

theorem held_trainFails (n : Nat) (s : State)  (hI : Held K Q F s) :
    Held K Q F (trainFails n s) := by
  unfold trainFails
  repeat' first
    | with_reducible assumption
    | with_reducible apply held_setSession
    | with_reducible apply held_ite

theorem held_retrainFails (n : Nat) (s : State)  (hI : Held K Q F s) :
    Held K Q F (retrainFails n s) := by
  unfold retrainFails
  repeat' first
    | with_reducible assumption
    | with_reducible apply held_setSession
    | with_reducible apply held_alarm
    | with_reducible apply held_ite

theorem held_trainingSignal (n : Nat) (s : State)  (hI : Held K Q F s) :
    Held K Q F (trainingSignal n s) := by
  unfold trainingSignal
  repeat' first
    | with_reducible assumption
    | with_reducible apply held_trainPort
    | with_reducible apply held_ite

theorem held_marginLow (n lane : Nat) (s : State)  (hI : Held K Q F s) :
    Held K Q F (marginLow n lane s) := by
  unfold marginLow
  repeat' first
    | with_reducible assumption
    | with_reducible apply held_alarm
    | with_reducible apply held_updPort
    | with_reducible apply held_ite

theorem held_domainUp (d : Nat) (s : State)  (hI : Held K Q F s) :
    Held K Q F (domainUp d s) := by
  unfold domainUp
  repeat' first
    | with_reducible assumption
    | with_reducible apply held_returnCredits
    | with_reducible apply held_pwrAck
    | with_reducible apply held_trainPort
    | with_reducible apply held_ite

end Sys2Proof.Machine
end

