-- ==== Sys2Proof/Laws/HeldBoundary.lean ====
section
/-! SUPPORT. What the operations of Machine/Boundary.lean keep (see Laws/Held.lean). -/

-- The proofs of this file are checked one after another: the whole package is one text under a limit on threads.
set_option Elab.async false

namespace Sys2Proof.Machine

variable {K : Kit} {Q : List Instr} {F : Fuses}

theorem held_rangeGoverns (s : State)  (hI : Held K Q F s) :
    Held K Q F (rangeGoverns s) := by
  unfold rangeGoverns
  repeat' first
    | with_reducible assumption
    | with_reducible apply held_finish
    | with_reducible apply held_moveRuns
    | split

theorem held_freeOldOverlay (p : Nat) (o : Overlay) (s : State)  (hI : Held K Q F s) :
    Held K Q F (freeOldOverlay p o s) := by
  unfold freeOldOverlay
  repeat' first
    | with_reducible assumption
    | with_reducible apply held_freeUses
    | dsimp only
    | split

theorem held_headTick (s : State) (h : Head)  (hI : Held K Q F s) :
    Held K Q F (headTick s h) := by
  unfold headTick
  repeat' first
    | with_reducible assumption
    | intro _
    | with_reducible apply held_freeOldOverlay
    | with_reducible apply held_dropStale
    | with_reducible apply held_foldl
    | with_reducible apply held_at
    | simp only [held_mk]

theorem held_headsGovern (s : State)  (hI : Held K Q F s) :
    Held K Q F (headsGovern s) := by
  unfold headsGovern
  repeat' first
    | with_reducible assumption
    | with_reducible apply held_headTick
    | with_reducible apply held_foldl

theorem held_objectsGovern (s : State)  (hI : Held K Q F s) :
    Held K Q F (objectsGovern s) := by
  unfold objectsGovern
  repeat' first
    | with_reducible assumption
    | intro _
    | with_reducible apply held_reuse
    | with_reducible apply held_freeUses
    | with_reducible apply held_updMask
    | with_reducible apply held_updBias
    | with_reducible apply held_sweepObjects
    | with_reducible apply held_foldl
    | with_reducible apply held_ite

theorem held_voidOverlays (p v : Nat) (s : State)  (hI : Held K Q F s) :
    Held K Q F (voidOverlays p v s) := by
  unfold voidOverlays
  try dsimp only
  repeat' first
    | with_reducible assumption
    | intro _
    | with_reducible apply held_foldl
    | with_reducible apply held_ite
    | with_reducible apply held_at
    | with_reducible apply heldAt_drop
    | with_reducible apply heldAt_put
    | simp only [held_mk]
    | split

theorem held_variantsGovern (s : State)  (hI : Held K Q F s) :
    Held K Q F (variantsGovern s) := by
  unfold variantsGovern
  try dsimp only
  repeat' first
    | with_reducible assumption
    | intro _
    | with_reducible apply held_voidOverlays
    | with_reducible apply held_freeUses
    | with_reducible apply held_dropStale
    | with_reducible apply held_foldl
    | with_reducible apply held_ite
    | with_reducible apply held_at
    | with_reducible apply heldAt_drop
    | with_reducible apply heldAt_put
    | simp only [held_mk]
    | split

theorem held_releases (s : State)  (hI : Held K Q F s) :
    Held K Q F (releases s) := by
  unfold releases
  repeat' first
    | with_reducible assumption
    | intro _
    | with_reducible apply held_releaseReq
    | with_reducible apply held_announceOut
    | with_reducible apply held_foldl

theorem held_limitRows (s : State)  (hI : Held K Q F s) :
    Held K Q F (limitRows s) := by
  unfold limitRows
  try dsimp only
  repeat' first
    | with_reducible assumption
    | intro _
    | with_reducible apply held_rejectRow
    | with_reducible apply held_dropRows
    | with_reducible apply held_foldl
    | with_reducible apply held_ite
    | with_reducible apply held_at
    | with_reducible apply heldAt_drop
    | with_reducible apply heldAt_put
    | simp only [held_mk]
    | split

theorem held_rowsTick (ok : Nat → Bool) (s : State)  (hI : Held K Q F s) :
    Held K Q F (rowsTick ok s) := by
  unfold rowsTick
  try dsimp only
  repeat' first
    | with_reducible assumption
    | intro _
    | with_reducible apply held_rejectRow
    | with_reducible apply held_dropRows
    | with_reducible apply held_limitRows
    | with_reducible apply held_foldl
    | with_reducible apply held_ite
    | with_reducible apply held_at
    | with_reducible apply heldAt_drop
    | with_reducible apply heldAt_put
    | simp only [held_mk]
    | split

theorem held_rowsNaming (s : State)  (hI : Held K Q F s) :
    Held K Q F (rowsNaming s) := by
  unfold rowsNaming
  repeat' first
    | with_reducible assumption
    | intro _
    | with_reducible apply held_dropRows
    | with_reducible apply held_rejectRow
    | with_reducible apply held_rowGone
    | with_reducible apply held_foldl

theorem held_treesTick (s : State)  (hI : Held K Q F s) :
    Held K Q F (treesTick s) := by
  unfold treesTick
  repeat' first
    | with_reducible assumption
    | intro _
    | with_reducible apply held_treeCheck
    | with_reducible apply held_foldl

theorem held_allowTick (s : State)  (hI : Held K Q F s) :
    Held K Q F (allowTick s) := by
  unfold allowTick
  repeat' first
    | with_reducible assumption
    | with_reducible apply held_at
    | simp only [held_mk]

theorem held_freezePart (p : Nat) (s : State)  (hI : Held K Q F s) :
    Held K Q F (freezePart p s) := by
  unfold freezePart
  try dsimp only
  repeat' first
    | with_reducible assumption
    | intro _
    | with_reducible apply held_freeze
    | with_reducible apply held_foldl
    | with_reducible apply held_ite
    | with_reducible apply held_at
    | with_reducible apply heldAt_drop
    | with_reducible apply heldAt_put
    | simp only [held_mk]
    | split

theorem held_stkConserve (s : State)  (hI : Held K Q F s) :
    Held K Q F (stkConserve s) := by
  unfold stkConserve
  try dsimp only
  repeat' first
    | with_reducible assumption
    | intro _
    | with_reducible apply held_freezePart
    | with_reducible apply held_alarm
    | with_reducible apply held_foldl
    | with_reducible apply held_ite
    | with_reducible apply held_at
    | with_reducible apply heldAt_drop
    | with_reducible apply heldAt_put
    | simp only [held_mk]
    | split

theorem held_tenantConserve (s : State)  (hI : Held K Q F s) :
    Held K Q F (tenantConserve s) := by
  unfold tenantConserve
  try dsimp only
  repeat' first
    | with_reducible assumption
    | intro _
    | with_reducible apply held_freezePart
    | with_reducible apply held_alarm
    | with_reducible apply held_foldl
    | with_reducible apply held_ite
    | with_reducible apply held_at
    | with_reducible apply heldAt_drop
    | with_reducible apply heldAt_put
    | simp only [held_mk]
    | split

theorem held_portFails (row expected found : Nat) (m : Option (Master × Nat)) (s : State)  (hI : Held K Q F s) :
    Held K Q F (portFails row expected found m s) := by
  unfold portFails
  repeat' first
    | with_reducible assumption
    | with_reducible apply held_alarm
    | with_reducible apply held_freeze
    | with_reducible apply held_event
    | split

theorem held_portHolds (ok : Bool) (row expected found : Nat) (m : Option (Master × Nat)) (s : State)  (hI : Held K Q F s) :
    Held K Q F (portHolds ok row expected found m s) := by
  unfold portHolds
  repeat' first
    | with_reducible assumption
    | with_reducible apply held_portFails
    | with_reducible apply held_ite

theorem held_portsConserve (s : State)  (hI : Held K Q F s) :
    Held K Q F (portsConserve s) := by
  unfold portsConserve
  repeat' first
    | with_reducible assumption
    | with_reducible apply held_portHolds

theorem held_conserve (s : State)  (hI : Held K Q F s) :
    Held K Q F (conserve s) := by
  unfold conserve
  repeat' first
    | with_reducible assumption
    | with_reducible apply held_tenantConserve
    | with_reducible apply held_blConserve
    | with_reducible apply held_portsConserve
    | with_reducible apply held_stkConserve
    | with_reducible apply held_ite
    | with_reducible apply held_at
    | simp only [held_mk]

theorem held_cacheTick (s : State)  (hI : Held K Q F s) :
    Held K Q F (cacheTick s) := by
  unfold cacheTick
  repeat' first
    | with_reducible assumption
    | with_reducible apply held_flushCache
    | with_reducible apply held_ite
    | with_reducible apply held_at
    | with_reducible apply heldAt_drop
    | simp only [held_mk]

theorem held_fetchHeld (s : State)  (hI : Held K Q F s) :
    Held K Q F (fetchHeld s) := by
  unfold fetchHeld
  repeat' first
    | with_reducible assumption
    | intro _
    | with_reducible apply held_fetchLines
    | with_reducible apply held_foldl

theorem held_streamsTick (s : State)  (hI : Held K Q F s) :
    Held K Q F (streamsTick s) := by
  unfold streamsTick
  try dsimp only
  repeat' first
    | with_reducible assumption
    | intro _
    | with_reducible apply held_streamsGo
    | with_reducible apply held_refetchStrip
    | with_reducible apply held_foldl
    | with_reducible apply held_ite
    | with_reducible apply held_at
    | with_reducible apply heldAt_drop
    | with_reducible apply heldAt_put
    | simp only [held_mk]
    | split

theorem held_logConsRead (s : State)  (hI : Held K Q F s) :
    Held K Q F (logConsRead s) := by
  unfold logConsRead
  repeat' first
    | with_reducible assumption
    | with_reducible apply held_hmpRead
    | with_reducible apply held_ite

theorem held_boundary (s : State)  (hI : Held K Q F s) :
    Held K Q F (boundary s) := by
  unfold boundary
  try dsimp only
  repeat' first
    | with_reducible assumption
    | intro _
    | with_reducible apply held_joinTick
    | with_reducible apply held_rejoinTick
    | with_reducible apply held_regroupTick
    | with_reducible apply held_releases
    | with_reducible apply held_rangeGoverns
    | with_reducible apply held_variantsGovern
    | with_reducible apply held_objectsGovern
    | with_reducible apply held_headsGovern
    | with_reducible apply held_rowsNaming
    | with_reducible apply held_rowsTick
    | with_reducible apply held_cacheTick
    | with_reducible apply held_allowTick
    | with_reducible apply held_treesTick
    | with_reducible apply held_retryTokens
    | with_reducible apply held_logConsRead
    | with_reducible apply held_reissueWrites
    | with_reducible apply held_conserve
    | with_reducible apply held_ageHeat
    | with_reducible apply held_wakePans
    | with_reducible apply held_placementPlan
    | with_reducible apply held_agePans
    | with_reducible apply held_fetchHeld
    | with_reducible apply held_streamsTick
    | with_reducible apply held_foldl
    | with_reducible apply held_ite
    | with_reducible apply held_at
    | with_reducible apply heldAt_drop
    | with_reducible apply heldAt_put
    | simp only [held_mk]
    | split

theorem held_earlyBoundary (s : State)  (hI : Held K Q F s) :
    Held K Q F (earlyBoundary s) := by
  unfold earlyBoundary
  try dsimp only
  repeat' first
    | with_reducible assumption
    | intro _
    | with_reducible apply held_allowTick
    | with_reducible apply held_treesTick
    | with_reducible apply held_rowsNaming
    | with_reducible apply held_rowsTick
    | with_reducible apply held_fetchHeld
    | with_reducible apply held_streamsTick
    | with_reducible apply held_judgeWaiting
    | with_reducible apply held_foldl
    | with_reducible apply held_ite
    | with_reducible apply held_at
    | with_reducible apply heldAt_drop
    | with_reducible apply heldAt_put
    | simp only [held_mk]
    | split

end Sys2Proof.Machine
end

