-- ==== Sys2Proof/Laws/HeldPublish.lean ====
section
/-! SUPPORT. What the operations of Machine/Publish.lean keep (see Laws/Held.lean). -/

-- The proofs of this file are checked one after another: the whole package is one text under a limit on threads.
set_option Elab.async false

namespace Sys2Proof.Machine

variable {K : Kit} {Q : List Instr} {F : Fuses}

theorem held_finishOne (f : PendCmd → Bool) (st : Status) (res : List (Nat × Word)) (s : State)  (hI : Held K Q F s) :
    Held K Q F (finishOne f st res s) := by
  unfold finishOne
  repeat' first
    | with_reducible assumption
    | with_reducible apply held_complete
    | with_reducible apply held_at
    | simp only [held_mk]
    | split

theorem held_tenantHeld (own : Bool) (n u : Nat) (x : TenantChange) (s : State)  (hI : Held K Q F s) :
    Held K Q F (tenantHeld own n u x s) := by
  unfold tenantHeld
  repeat' first
    | with_reducible assumption
    | with_reducible apply held_applyTenant
    | with_reducible apply held_finishOne
    | dsimp only
    | split

theorem held_deleteHeld (own bias : Bool) (p id n : Nat) (s : State)  (hI : Held K Q F s) :
    Held K Q F (deleteHeld own bias p id n s) := by
  unfold deleteHeld
  repeat' first
    | with_reducible assumption
    | with_reducible apply held_applyDelete
    | with_reducible apply held_finishOne
    | with_reducible apply held_ite

theorem held_loadHeld (bias : Bool) (p id : Nat) (s : State)  (hI : Held K Q F s) :
    Held K Q F (loadHeld bias p id s) := by
  unfold loadHeld
  try dsimp only
  repeat' first
    | with_reducible assumption
    | intro _
    | with_reducible apply held_tellApplied
    | with_reducible apply held_applyLoad
    | with_reducible apply held_foldl
    | with_reducible apply held_ite
    | with_reducible apply held_at
    | with_reducible apply heldAt_drop
    | with_reducible apply heldAt_put
    | simp only [held_mk]
    | split

theorem held_applyUnload (src p n : Nat) (s : State)  (hI : Held K Q F s) :
    Held K Q F (applyUnload src p n s) := by
  unfold applyUnload
  repeat' first
    | with_reducible assumption
    | with_reducible apply held_freeUses
    | with_reducible apply held_dropStale
    | with_reducible apply held_ite
    | with_reducible apply held_at
    | simp only [held_mk]

theorem held_unloadHeld (own : Bool) (src p n : Nat) (s : State)  (hI : Held K Q F s) :
    Held K Q F (unloadHeld own src p n s) := by
  unfold unloadHeld
  repeat' first
    | with_reducible assumption
    | with_reducible apply held_applyUnload
    | with_reducible apply held_finishOne
    | with_reducible apply held_ite

theorem held_emptyHeadTakes (p : Nat) (s : State)  (hI : Held K Q F s) :
    Held K Q F (emptyHeadTakes p s) := by
  unfold emptyHeadTakes
  repeat' first
    | with_reducible assumption
    | with_reducible apply held_at
    | simp only [held_mk]

theorem held_announceHead (src p : Nat) (h : HeadId) (s : State)  (hI : Held K Q F s) :
    Held K Q F (announceHead src p h s) := by
  unfold announceHead
  repeat' first
    | with_reducible assumption
    | with_reducible apply held_emptyHeadTakes
    | with_reducible apply held_at
    | simp only [held_mk]

theorem held_applyHeld (s : State) (m : SyncMsg)  (hI : Held K Q F s) :
    Held K Q F (applyHeld s m) := by
  unfold applyHeld
  try dsimp only
  repeat' first
    | with_reducible assumption
    | intro _
    | with_reducible apply held_applyOutcome
    | with_reducible apply held_tenantHeld
    | with_reducible apply held_deleteHeld
    | with_reducible apply held_loadHeld
    | with_reducible apply held_unloadHeld
    | with_reducible apply held_acornSettle
    | with_reducible apply held_useAcorn
    | with_reducible apply held_unuseAcorn
    | with_reducible apply held_applyTake
    | with_reducible apply held_applyAcornDrop
    | with_reducible apply held_applyOpen
    | with_reducible apply held_applyForward
    | with_reducible apply held_applyBackward
    | with_reducible apply held_applyNorm
    | with_reducible apply held_applyUpdate
    | with_reducible apply held_endSession
    | with_reducible apply held_slotCommits
    | with_reducible apply held_applyPrune
    | with_reducible apply held_applyBarrier
    | with_reducible apply held_applyDiscard
    | with_reducible apply held_updReq
    | with_reducible apply held_keysArrive
    | with_reducible apply held_moveIn
    | with_reducible apply held_rowLost
    | with_reducible apply held_rowFreed
    | with_reducible apply held_tileLost
    | with_reducible apply held_foldl
    | with_reducible apply held_ite
    | with_reducible apply held_at
    | with_reducible apply heldAt_drop
    | with_reducible apply heldAt_put
    | simp only [held_mk]
    | split

theorem held_applyStep (n : Nat) (s : State)  (hI : Held K Q F s) :
    Held K Q F (applyStep n s) := by
  unfold applyStep
  repeat' first
    | with_reducible assumption
    | with_reducible apply held_applyHeld
    | with_reducible apply held_foldl
    | with_reducible apply held_at
    | simp only [held_mk]

theorem held_drainEnds (s : State)  (hI : Held K Q F s) :
    Held K Q F (drainEnds s) := by
  unfold drainEnds
  repeat' first
    | with_reducible assumption
    | intro _
    | with_reducible apply held_leaveGroup
    | with_reducible apply held_leaveActive
    | with_reducible apply held_foldl
    | with_reducible apply held_ite

theorem held_publishEnd (s : State)  (hI : Held K Q F s) :
    Held K Q F (publishEnd s) := by
  unfold publishEnd
  repeat' first
    | with_reducible assumption
    | intro _
    | with_reducible apply held_sendDelta
    | with_reducible apply held_applyStep
    | with_reducible apply held_tryProd
    | with_reducible apply held_drainEnds
    | with_reducible apply held_rejoinSend
    | with_reducible apply held_drainShares
    | with_reducible apply held_boundary
    | with_reducible apply held_runJobs
    | with_reducible apply held_runDeferred
    | with_reducible apply held_fetchHeld
    | with_reducible apply held_judgeWaiting
    | with_reducible apply held_foldl
    | with_reducible apply held_ite

theorem held_publishIfDone (f : State → State) (s : State) (h_f : ∀ a0, Held K Q F a0 → Held K Q F (f a0)) (hI : Held K Q F s) :
    Held K Q F (publishIfDone f s) := by
  unfold publishIfDone
  repeat' first
    | with_reducible assumption
    | with_reducible apply held_publishEnd
    | with_reducible apply h_f
    | with_reducible apply held_ite

theorem held_admittedArrives (src q : Nat) (info : ReqInfo) (addr n : Nat) (acorn : Option Word) (jars : List ChunkRec) (husk : Bool)     (draws windowLen outLeft : Nat) (hasToken : Bool) (ttft : Nat) (s : State)  (hI : Held K Q F s) :
    Held K Q F (admittedArrives src q info addr n acorn jars husk draws windowLen outLeft hasToken ttft s) := by
  unfold admittedArrives
  repeat' first
    | with_reducible assumption
    | with_reducible apply held_beginAdmit

theorem held_loadReported (src q : Nat) (st : BitVec 16) (s : State)  (hI : Held K Q F s) :
    Held K Q F (loadReported src q st s) := by
  unfold loadReported
  try dsimp only
  repeat' first
    | with_reducible assumption
    | intro _
    | with_reducible apply held_send
    | with_reducible apply held_updReq
    | with_reducible apply held_foldl
    | with_reducible apply held_ite
    | with_reducible apply held_at
    | with_reducible apply heldAt_drop
    | with_reducible apply heldAt_put
    | simp only [held_mk]
    | split

theorem held_joinKeys (k : WrappedKeys) (s : State)  (hI : Held K Q F s) :
    Held K Q F (joinKeys k s) := by
  unfold joinKeys
  repeat' first
    | with_reducible assumption
    | with_reducible apply held_keysArrive
    | with_reducible apply held_enterSolo
    | with_reducible apply held_ite

theorem held_outcomesOf (src : Nat) (s : State)  (hI : Held K Q F s) :
    Held K Q F (outcomesOf src s) := by
  unfold outcomesOf
  try dsimp only
  repeat' first
    | with_reducible assumption
    | intro _
    | with_reducible apply held_applyHeld
    | with_reducible apply held_earlyBoundary
    | with_reducible apply held_foldl
    | with_reducible apply held_ite
    | with_reducible apply held_at
    | with_reducible apply heldAt_drop
    | with_reducible apply heldAt_put
    | simp only [held_mk]
    | split

theorem held_stepEnds (src n : Nat) (s : State)  (hI : Held K Q F s) :
    Held K Q F (stepEnds src n s) := by
  unfold stepEnds
  try dsimp only
  repeat' first
    | with_reducible assumption
    | intro _
    | with_reducible apply held_publishIfDone
    | with_reducible apply held_outcomesOf
    | with_reducible apply held_foldl
    | with_reducible apply held_ite
    | with_reducible apply held_at
    | with_reducible apply heldAt_drop
    | with_reducible apply heldAt_put
    | simp only [held_mk]
    | split

theorem held_holdSync (m : SyncMsg) (s : State)  (hI : Held K Q F s) :
    Held K Q F (holdSync m s) := by
  unfold holdSync
  repeat' first
    | with_reducible assumption
    | with_reducible apply held_at
    | simp only [held_mk]

theorem held_syncArrives (m : SyncMsg) (s : State)  (hI : Held K Q F s) :
    Held K Q F (syncArrives m s) := by
  unfold syncArrives
  try dsimp only
  repeat' first
    | with_reducible assumption
    | intro _
    | with_reducible apply held_admittedArrives
    | with_reducible apply held_loadReported
    | with_reducible apply held_announceHead
    | with_reducible apply held_registerBacking
    | with_reducible apply held_overlayAt
    | with_reducible apply held_rowReportArrives
    | with_reducible apply held_rowLost
    | with_reducible apply held_rowFreed
    | with_reducible apply held_maskBegin
    | with_reducible apply held_biasBegin
    | with_reducible apply held_objReported
    | with_reducible apply held_dropLoad
    | with_reducible apply held_holdSync
    | with_reducible apply held_objAppliedBy
    | with_reducible apply held_acornBegin
    | with_reducible apply held_acornReported
    | with_reducible apply held_acornFail
    | with_reducible apply held_useAcorn
    | with_reducible apply held_unuseAcorn
    | with_reducible apply held_rangeStoredBy
    | with_reducible apply held_updReq
    | with_reducible apply held_applyKill
    | with_reducible apply held_releaseReq
    | with_reducible apply held_drainBegins
    | with_reducible apply held_rejoinBegins
    | with_reducible apply held_joinTold
    | with_reducible apply held_joinGroup
    | with_reducible apply held_copyArrives
    | with_reducible apply held_tileLost
    | with_reducible apply held_tileAgain
    | with_reducible apply held_slotTold
    | with_reducible apply held_joinKeys
    | with_reducible apply held_stepEnds
    | with_reducible apply held_foldl
    | with_reducible apply held_ite
    | with_reducible apply held_at
    | with_reducible apply heldAt_drop
    | with_reducible apply heldAt_put
    | simp only [held_mk]
    | split

theorem held_reach (k : Nat) (s : State)  (hI : Held K Q F s) :
    Held K Q F (reach k s) := by
  unfold reach
  try dsimp only
  repeat' first
    | with_reducible assumption
    | intro _
    | with_reducible apply held_foldl
    | with_reducible apply held_ite
    | with_reducible apply held_at
    | with_reducible apply heldAt_drop
    | with_reducible apply heldAt_put
    | simp only [held_mk]
    | split

theorem held_emitTick (n : Nat) (s : State)  (hI : Held K Q F s) :
    Held K Q F (emitTick n s) := by
  unfold emitTick
  repeat' first
    | with_reducible assumption
    | with_reducible apply held_floodForm
    | with_reducible apply held_flood
    | with_reducible apply held_at
    | simp only [held_mk]
    | split

theorem held_ackTaken (n src : Nat) (s : State)  (hI : Held K Q F s) :
    Held K Q F (ackTaken n src s) := by
  unfold ackTaken
  repeat' first
    | with_reducible assumption
    | with_reducible apply held_emitTick
    | with_reducible apply held_count
    | with_reducible apply held_at
    | simp only [held_mk]
    | split

theorem held_sendAck (s : State)  (hI : Held K Q F s) :
    Held K Q F (sendAck s) := by
  unfold sendAck
  repeat' first
    | with_reducible assumption
    | with_reducible apply held_send

theorem held_geomStamp (s : State)  (hI : Held K Q F s) :
    Held K Q F (geomStamp s) := by
  unfold geomStamp
  repeat' first
    | with_reducible assumption
    | with_reducible apply held_at
    | simp only [held_mk]

theorem held_evictShares (s : State)  (hI : Held K Q F s) :
    Held K Q F (evictShares s) := by
  unfold evictShares
  repeat' first
    | with_reducible assumption
    | intro _
    | with_reducible apply held_send
    | with_reducible apply held_updReq
    | with_reducible apply held_foldl

theorem held_closeStep (due : List Nat) (s : State)  (hI : Held K Q F s) :
    Held K Q F (closeStep due s) := by
  unfold closeStep
  repeat' first
    | with_reducible assumption
    | with_reducible apply held_at
    | simp only [held_mk]

theorem held_newMaster (was n : Nat) (s : State)  (hI : Held K Q F s) :
    Held K Q F (newMaster was n s) := by
  unfold newMaster
  repeat' first
    | with_reducible assumption
    | with_reducible apply held_ite
    | with_reducible apply held_at
    | simp only [held_mk]

theorem held_commitStamp (n : Nat) (s : State)  (hI : Held K Q F s) :
    Held K Q F (commitStamp n s) := by
  unfold commitStamp
  try dsimp only
  repeat' first
    | with_reducible assumption
    | intro _
    | with_reducible apply held_stampReq
    | with_reducible apply held_finish
    | with_reducible apply held_barrierStamp
    | with_reducible apply held_trainStamp
    | with_reducible apply held_evictShares
    | with_reducible apply held_trace
    | with_reducible apply held_announceOut
    | with_reducible apply held_drainStamp
    | with_reducible apply held_rejoinStamp
    | with_reducible apply held_geomStamp
    | with_reducible apply held_newMaster
    | with_reducible apply held_closeStep
    | with_reducible apply held_ackTaken
    | with_reducible apply held_sendAck
    | with_reducible apply held_outcomesOf
    | with_reducible apply held_publishEnd
    | with_reducible apply held_foldl
    | with_reducible apply held_ite
    | with_reducible apply held_at
    | with_reducible apply heldAt_drop
    | with_reducible apply heldAt_put
    | simp only [held_mk]
    | split

theorem held_commitArrives (m : CommitMsg) (s : State)  (hI : Held K Q F s) :
    Held K Q F (commitArrives m s) := by
  unfold commitArrives
  repeat' first
    | with_reducible assumption
    | with_reducible apply held_publishEnd
    | with_reducible apply held_commitStamp
    | with_reducible apply held_ite
    | with_reducible apply held_at
    | simp only [held_mk]

theorem held_commitEmit (s : State)  (hI : Held K Q F s) :
    Held K Q F (commitEmit s) := by
  unfold commitEmit
  try dsimp only
  repeat' first
    | with_reducible assumption
    | intro _
    | with_reducible apply held_flood
    | with_reducible apply held_reach
    | with_reducible apply held_foldl
    | with_reducible apply held_ite
    | with_reducible apply held_at
    | with_reducible apply heldAt_drop
    | with_reducible apply heldAt_put
    | simp only [held_mk]
    | split

theorem held_ackAgain (s : State)  (hI : Held K Q F s) :
    Held K Q F (ackAgain s) := by
  unfold ackAgain
  repeat' first
    | with_reducible assumption
    | with_reducible apply held_sendAck
    | with_reducible apply held_ite

end Sys2Proof.Machine
end

