-- ==== Sys2Proof/Laws/HeldTick.lean ====
section
/-! SUPPORT. What the operations of Machine/Tick.lean keep (see Laws/Held.lean). -/

-- The proofs of this file are checked one after another: the whole package is one text under a limit on threads.
set_option Elab.async false

namespace Sys2Proof.Machine

variable {K : Kit} {Q : List Instr} {F : Fuses}

theorem held_tickDue (s : State)  (hI : Held K Q F s) :
    Held K Q F (tickDue s) := by
  unfold tickDue
  try dsimp only
  repeat' first
    | with_reducible assumption
    | intro _
    | with_reducible apply held_reach
    | with_reducible apply held_emitTick
    | with_reducible apply held_foldl
    | with_reducible apply held_ite
    | with_reducible apply held_at
    | with_reducible apply heldAt_drop
    | with_reducible apply heldAt_put
    | simp only [held_mk]
    | split

theorem held_slipExpires (s : State)  (hI : Held K Q F s) :
    Held K Q F (slipExpires s) := by
  unfold slipExpires
  repeat' first
    | with_reducible assumption
    | with_reducible apply held_ite
    | with_reducible apply held_at
    | simp only [held_mk]

theorem held_formTick (f : Nat) (s : State)  (hI : Held K Q F s) :
    Held K Q F (formTick f s) := by
  unfold formTick
  repeat' first
    | with_reducible assumption
    | with_reducible apply held_clearService
    | with_reducible apply held_endForwarded
    | with_reducible apply held_powerPlan
    | with_reducible apply held_reroute
    | with_reducible apply held_at
    | simp only [held_mk]

theorem held_abandonStep (s : State)  (hI : Held K Q F s) :
    Held K Q F (abandonStep s) := by
  unfold abandonStep
  repeat' first
    | with_reducible assumption
    | with_reducible apply held_ite
    | with_reducible apply held_at
    | simp only [held_mk]

theorem held_openStep (m : TickMsg) (s : State)  (hI : Held K Q F s) :
    Held K Q F (openStep m s) := by
  unfold openStep
  repeat' first
    | with_reducible assumption
    | with_reducible apply held_trace
    | with_reducible apply held_at
    | simp only [held_mk]

theorem held_tickArrives (m : TickMsg) (s : State)  (hI : Held K Q F s) :
    Held K Q F (tickArrives m s) := by
  unfold tickArrives
  try dsimp only
  repeat' first
    | with_reducible assumption
    | intro _
    | with_reducible apply held_formTick
    | with_reducible apply held_abandonStep
    | with_reducible apply held_openStep
    | with_reducible apply held_earlyBoundary
    | with_reducible apply held_judgeWaiting
    | with_reducible apply held_boundary
    | with_reducible apply held_foldl
    | with_reducible apply held_ite
    | with_reducible apply held_at
    | with_reducible apply heldAt_drop
    | with_reducible apply heldAt_put
    | simp only [held_mk]
    | split

theorem held_passDeadline (k : Nat) (s : State)  (hI : Held K Q F s) :
    Held K Q F (passDeadline k s) := by
  unfold passDeadline
  try dsimp only
  repeat' first
    | with_reducible assumption
    | intro _
    | with_reducible apply held_reach
    | with_reducible apply held_trace
    | with_reducible apply held_foldl
    | with_reducible apply held_ite
    | with_reducible apply held_at
    | with_reducible apply heldAt_drop
    | with_reducible apply heldAt_put
    | simp only [held_mk]
    | split

theorem held_ingestEnds (s : State)  (hI : Held K Q F s) :
    Held K Q F (ingestEnds s) := by
  unfold ingestEnds
  try dsimp only
  repeat' first
    | with_reducible assumption
    | intro _
    | with_reducible apply held_rowTold
    | with_reducible apply held_send
    | with_reducible apply held_streamsGo
    | with_reducible apply held_passDeadline
    | with_reducible apply held_foldl
    | with_reducible apply held_ite
    | with_reducible apply held_at
    | with_reducible apply heldAt_drop
    | with_reducible apply heldAt_put
    | simp only [held_mk]
    | split

theorem held_sieveEnds (s : State)  (hI : Held K Q F s) :
    Held K Q F (sieveEnds s) := by
  unfold sieveEnds
  repeat' first
    | with_reducible assumption
    | with_reducible apply held_passDeadline
    | with_reducible apply held_ite

theorem held_closeUnless (ok : Merge → Bool) (s : State)  (hI : Held K Q F s) :
    Held K Q F (closeUnless ok s) := by
  unfold closeUnless
  repeat' first
    | with_reducible assumption
    | with_reducible apply held_at
    | simp only [held_mk]

theorem held_mergeAEnds (s : State)  (hI : Held K Q F s) :
    Held K Q F (mergeAEnds s) := by
  unfold mergeAEnds
  repeat' first
    | with_reducible assumption
    | with_reducible apply held_passDeadline
    | with_reducible apply held_closeUnless
    | with_reducible apply held_ite

theorem held_mergeBEnds (s : State)  (hI : Held K Q F s) :
    Held K Q F (mergeBEnds s) := by
  unfold mergeBEnds
  repeat' first
    | with_reducible assumption
    | with_reducible apply held_passDeadline
    | with_reducible apply held_closeUnless
    | with_reducible apply held_ite

theorem held_drawEnds (s : State)  (hI : Held K Q F s) :
    Held K Q F (drawEnds s) := by
  unfold drawEnds
  repeat' first
    | with_reducible assumption
    | with_reducible apply held_passDeadline
    | with_reducible apply held_ite

theorem held_heartbeat (n : Nat) (s : State)  (hI : Held K Q F s) :
    Held K Q F (heartbeat n s) := by
  unfold heartbeat
  repeat' first
    | with_reducible assumption
    | with_reducible apply held_ite
    | with_reducible apply held_at
    | simp only [held_mk]

theorem held_heartbeatDue (s : State)  (hI : Held K Q F s) :
    Held K Q F (heartbeatDue s) := by
  unfold heartbeatDue
  repeat' first
    | with_reducible assumption
    | with_reducible apply held_flood
    | with_reducible apply held_ite

theorem held_sliceLost (n : Nat) (s : State)  (hI : Held K Q F s) :
    Held K Q F (sliceLost n s) := by
  unfold sliceLost
  repeat' first
    | with_reducible assumption
    | with_reducible apply held_reportNow
    | with_reducible apply held_publishIfDone
    | with_reducible apply held_declareLost

theorem held_regroupArrives (m : RegroupMsg) (s : State)  (hI : Held K Q F s) :
    Held K Q F (regroupArrives m s) := by
  unfold regroupArrives
  repeat' first
    | with_reducible assumption
    | with_reducible apply held_reportNow
    | with_reducible apply held_publishIfDone
    | with_reducible apply held_regroupMsg
    | split

theorem held_takeoverDone (s : State)  (hI : Held K Q F s) :
    Held K Q F (takeoverDone s) := by
  unfold takeoverDone
  repeat' first
    | with_reducible assumption
    | with_reducible apply held_takeoverEnds
    | with_reducible apply held_emitTick
    | dsimp only
    | split

theorem held_expel (n : Nat) (s : State)  (hI : Held K Q F s) :
    Held K Q F (expel n s) := by
  unfold expel
  repeat' first
    | with_reducible assumption
    | with_reducible apply held_sliceLost
    | with_reducible apply held_ite
    | with_reducible apply held_at
    | simp only [held_mk]

end Sys2Proof.Machine
end

