-- ==== Sys2Proof/Laws/HeldFormation.lean ====
section
/-! SUPPORT. What the operations of Machine/Formation.lean keep (see Laws/Held.lean). -/

-- The proofs of this file are checked one after another: the whole package is one text under a limit on threads.
set_option Elab.async false

namespace Sys2Proof.Machine

variable {K : Kit} {Q : List Instr} {F : Fuses}

theorem held_miswire (n : Nat) (s : State)  (hI : Held K Q F s) :
    Held K Q F (miswire n s) := by
  unfold miswire
  repeat' first
    | with_reducible assumption
    | with_reducible apply held_leaveActive
    | with_reducible apply held_alarm

theorem held_wireCheck (s : State)  (hI : Held K Q F s) :
    Held K Q F (wireCheck s) := by
  unfold wireCheck
  repeat' first
    | with_reducible assumption
    | intro _
    | with_reducible apply held_miswire
    | with_reducible apply held_foldl
    | with_reducible apply held_at
    | simp only [held_mk]
    | split

theorem held_formEnds (slice : Nat) (r : FormReason) (s : State)  (hI : Held K Q F s) :
    Held K Q F (formEnds slice r s) := by
  unfold formEnds
  repeat' first
    | with_reducible assumption
    | with_reducible apply held_alarm
    | with_reducible apply held_enterSolo
    | with_reducible apply held_ite
    | with_reducible apply held_at
    | simp only [held_mk]

theorem held_refuse (r : FormReason) (s : State)  (hI : Held K Q F s) :
    Held K Q F (refuse r s) := by
  unfold refuse
  repeat' first
    | with_reducible assumption
    | with_reducible apply held_formEnds
    | with_reducible apply held_floodForm

theorem held_keyTaken (p : Nat) (s : State)  (hI : Held K Q F s) :
    Held K Q F (keyTaken p s) := by
  unfold keyTaken
  repeat' first
    | with_reducible assumption
    | with_reducible apply held_floodForm
    | with_reducible apply held_at
    | simp only [held_mk]
    | split

theorem held_formTickDue (s : State)  (hI : Held K Q F s) :
    Held K Q F (formTickDue s) := by
  unfold formTickDue
  repeat' first
    | with_reducible assumption
    | with_reducible apply held_emitTick
    | with_reducible apply held_at
    | simp only [held_mk]
    | split

theorem held_formKeysMade (s : State)  (hI : Held K Q F s) :
    Held K Q F (formKeysMade s) := by
  unfold formKeysMade
  repeat' first
    | with_reducible assumption
    | intro _
    | with_reducible apply held_newKeys
    | with_reducible apply held_keyTaken
    | with_reducible apply held_floodForm
    | with_reducible apply held_foldl
    | dsimp only
    | split

theorem held_formCommits (f : Nat) (s : State)  (hI : Held K Q F s) :
    Held K Q F (formCommits f s) := by
  unfold formCommits
  repeat' first
    | with_reducible assumption
    | with_reducible apply held_refuse
    | with_reducible apply held_clearService
    | with_reducible apply held_endForwarded
    | with_reducible apply held_formTickDue
    | with_reducible apply held_formKeysMade
    | with_reducible apply held_ite
    | with_reducible apply held_at
    | simp only [held_mk]

theorem held_coordinate (s : State)  (hI : Held K Q F s) :
    Held K Q F (coordinate s) := by
  unfold coordinate
  repeat' first
    | with_reducible assumption
    | with_reducible apply held_refuse
    | with_reducible apply held_formCommits
    | with_reducible apply held_floodForm
    | split

theorem held_keepProposal (b : FormBody) (s : State)  (hI : Held K Q F s) :
    Held K Q F (keepProposal b s) := by
  unfold keepProposal
  repeat' first
    | with_reducible assumption
    | with_reducible apply held_at
    | simp only [held_mk]

theorem held_propose (s : State)  (hI : Held K Q F s) :
    Held K Q F (propose s) := by
  unfold propose
  repeat' first
    | with_reducible assumption
    | with_reducible apply held_enterSolo
    | with_reducible apply held_wireCheck
    | with_reducible apply held_takeNumbers
    | with_reducible apply held_coordinate
    | with_reducible apply held_keepProposal
    | with_reducible apply held_floodForm
    | with_reducible apply held_ite
    | with_reducible apply held_at
    | simp only [held_mk]

theorem held_proposeArrives (b : FormBody) (s : State)  (hI : Held K Q F s) :
    Held K Q F (proposeArrives b s) := by
  unfold proposeArrives
  repeat' first
    | with_reducible assumption
    | with_reducible apply held_refuse
    | with_reducible apply held_coordinate
    | with_reducible apply held_keepProposal
    | with_reducible apply held_ite

theorem held_refuseArrives (slice : Nat) (r : FormReason) (s : State)  (hI : Held K Q F s) :
    Held K Q F (refuseArrives slice r s) := by
  unfold refuseArrives
  repeat' first
    | with_reducible assumption
    | with_reducible apply held_formEnds
    | with_reducible apply held_ite

theorem held_formKeysArrive (k : WrappedKeys) (s : State)  (hI : Held K Q F s) :
    Held K Q F (formKeysArrive k s) := by
  unfold formKeysArrive
  repeat' first
    | with_reducible assumption
    | with_reducible apply held_formTickDue
    | with_reducible apply held_keyTaken
    | with_reducible apply held_putKeys
    | with_reducible apply held_refuse
    | with_reducible apply held_keysArrive
    | split

theorem held_formDoneArrives (n : Nat) (s : State)  (hI : Held K Q F s) :
    Held K Q F (formDoneArrives n s) := by
  unfold formDoneArrives
  repeat' first
    | with_reducible assumption
    | with_reducible apply held_formTickDue
    | with_reducible apply held_at
    | simp only [held_mk]
    | split

theorem held_formWaits (s : State)  (hI : Held K Q F s) :
    Held K Q F (formWaits s) := by
  unfold formWaits
  repeat' first
    | with_reducible assumption
    | with_reducible apply held_alarm
    | with_reducible apply held_ite

theorem held_holeHello (n : Nat) (h : Hello) (s : State)  (hI : Held K Q F s) :
    Held K Q F (holeHello n h s) := by
  unfold holeHello
  repeat' first
    | with_reducible assumption
    | with_reducible apply held_announceOut
    | with_reducible apply held_joinTold
    | with_reducible apply held_alarm
    | with_reducible apply held_ite

theorem held_helloOk (n : Nat) (h : Hello) (s : State)  (hI : Held K Q F s) :
    Held K Q F (helloOk n h s) := by
  unfold helloOk
  repeat' first
    | with_reducible assumption
    | with_reducible apply held_setSession
    | with_reducible apply held_updPort
    | with_reducible apply held_reroute
    | with_reducible apply held_wireCheck
    | with_reducible apply held_at
    | simp only [held_mk]

theorem held_helloArrives (n : Nat) (h : Hello) (s : State)  (hI : Held K Q F s) :
    Held K Q F (helloArrives n h s) := by
  unfold helloArrives
  repeat' first
    | with_reducible assumption
    | with_reducible apply held_leaveActive
    | with_reducible apply held_alarm
    | with_reducible apply held_helloOk
    | with_reducible apply held_holeHello
    | with_reducible apply held_linkSend
    | with_reducible apply held_linkStart
    | with_reducible apply held_gradsAdvance
    | with_reducible apply held_propose
    | with_reducible apply held_ite

end Sys2Proof.Machine
end

