-- ==== Sys2Proof/Laws/HeldReset.lean ====
section
/-! SUPPORT. What the operations of Machine/Reset.lean keep (see Laws/Held.lean). -/

-- The proofs of this file are checked one after another: the whole package is one text under a limit on threads.
set_option Elab.async false

namespace Sys2Proof.Machine

variable {K : Kit} {Q : List Instr} {F : Fuses}

theorem held_resetTo (straps : BitVec 19) (s : State) (hI : Held K Q F s) : Held K Q F (resetTo straps s) :=
  ⟨hI.1, hI.2.1, hI.2.2.1, ⟨Nat.zero_le _, Nat.zero_le _⟩, ⟨Nat.le_refl 0, Nat.le_refl 1024⟩, ⟨Nat.le_refl 0, Nat.le_refl 1024⟩, Nat.zero_le _, Nat.zero_le _, rfl⟩

theorem held_resetRises (straps : BitVec 19) (s : State)  (hI : Held K Q F s) :
    Held K Q F (resetRises straps s) := by
  unfold resetRises
  repeat' first
    | with_reducible assumption
    | with_reducible apply held_resetTo
    | with_reducible apply held_alarm
    | with_reducible apply held_ite

theorem held_resetFalls (s : State)  (hI : Held K Q F s) :
    Held K Q F (resetFalls s) := by
  unfold resetFalls
  repeat' first
    | with_reducible assumption
    | with_reducible apply held_resetTo
    | with_reducible apply held_at
    | simp only [held_mk]

theorem held_enterHold (fault : Nat) (s : State)  (hI : Held K Q F s) :
    Held K Q F (enterHold fault s) := by
  unfold enterHold
  repeat' first
    | with_reducible assumption
    | with_reducible apply held_alarm
    | with_reducible apply held_at
    | simp only [held_mk]

theorem held_imageRuns (img : Bytes) (s : State)  (hI : Held K Q F s) :
    Held K Q F (imageRuns img s) := by
  unfold imageRuns
  repeat' first
    | with_reducible assumption
    | with_reducible apply held_at
    | simp only [held_mk]

theorem held_eociaStarts (img : Bytes) (s : State)  (hI : Held K Q F s) :
    Held K Q F (eociaStarts img s) := by
  unfold eociaStarts
  repeat' first
    | with_reducible assumption
    | intro _
    | with_reducible apply held_imageRuns
    | with_reducible apply held_powerPlan
    | with_reducible apply held_newKeys
    | with_reducible apply held_propose
    | with_reducible apply held_foldl
    | with_reducible apply held_ite
    | with_reducible apply held_at
    | simp only [held_mk]

theorem held_imageBoots (img : Bytes) (second : Bool) (s : State)  (hI : Held K Q F s) :
    Held K Q F (imageBoots img second s) := by
  unfold imageBoots
  repeat' first
    | with_reducible assumption
    | with_reducible apply held_eociaStarts
    | with_reducible apply held_enterHold
    | with_reducible apply held_at
    | simp only [held_mk]
    | split

theorem held_bootChecked (img : Bytes) (s : State)  (hI : Held K Q F s) :
    Held K Q F (bootChecked img s) := by
  unfold bootChecked
  repeat' first
    | with_reducible assumption
    | with_reducible apply held_imageBoots
    | split

theorem held_debugLoaded (s : State)  (hI : Held K Q F s) :
    Held K Q F (debugLoaded s) := by
  unfold debugLoaded
  repeat' first
    | with_reducible assumption
    | with_reducible apply held_eociaStarts
    | with_reducible apply held_enterHold
    | split

theorem held_whiskFault (cause : Nat) (s : State)  (hI : Held K Q F s) :
    Held K Q F (whiskFault cause s) := by
  unfold whiskFault
  repeat' first
    | with_reducible assumption
    | with_reducible apply held_alarm
    | with_reducible apply held_eociaResumes
    | with_reducible apply held_ite
    | with_reducible apply held_at
    | simp only [held_mk]

theorem held_homeRepaired (q : Nat) (d : Bytes) (s : State)  (hI : Held K Q F s) :
    Held K Q F (homeRepaired q d s) := by
  unfold homeRepaired
  repeat' first
    | with_reducible assumption
    | with_reducible apply held_updReq

theorem held_entryRepaired (x : DeltaEntry) (s : State)  (hI : Held K Q F s) :
    Held K Q F (entryRepaired x s) := by
  unfold entryRepaired
  repeat' first
    | with_reducible assumption
    | with_reducible apply held_lineBack
    | with_reducible apply held_putLine
    | with_reducible apply held_homeRepaired
    | split

theorem held_eociaGoesOn (s : State)  (hI : Held K Q F s) :
    Held K Q F (eociaGoesOn s) := by
  unfold eociaGoesOn
  repeat' first
    | with_reducible assumption
    | with_reducible apply held_reroute
    | with_reducible apply held_powerPlan
    | with_reducible apply held_runJobs
    | with_reducible apply held_runDeferred
    | with_reducible apply held_eociaResumes

theorem held_eociaRestarts (cause : Nat) (img : Bytes) (repairs : List DeltaEntry) (s : State)  (hI : Held K Q F s) :
    Held K Q F (eociaRestarts cause img repairs s) := by
  unfold eociaRestarts
  repeat' first
    | with_reducible assumption
    | intro _
    | with_reducible apply held_imageRuns
    | with_reducible apply held_log
    | with_reducible apply held_entryRepaired
    | with_reducible apply held_eociaGoesOn
    | with_reducible apply held_foldl
    | with_reducible apply held_ite
    | with_reducible apply held_at
    | simp only [held_mk]

theorem held_restartDone (image : Bytes) (repairs : List DeltaEntry) (s : State)  (hI : Held K Q F s) :
    Held K Q F (restartDone image repairs s) := by
  unfold restartDone
  repeat' first
    | with_reducible assumption
    | with_reducible apply held_eociaRestarts
    | with_reducible apply held_enterHold
    | with_reducible apply held_at
    | simp only [held_mk]
    | split

theorem held_watchdogExpires (s : State)  (hI : Held K Q F s) :
    Held K Q F (watchdogExpires s) := by
  unfold watchdogExpires
  repeat' first
    | with_reducible assumption
    | with_reducible apply held_whiskFault
    | with_reducible apply held_ite

theorem held_trapTaken (s : State)  (hI : Held K Q F s) :
    Held K Q F (trapTaken s) := by
  unfold trapTaken
  repeat' first
    | with_reducible assumption
    | with_reducible apply held_whiskFault
    | with_reducible apply held_ite

end Sys2Proof.Machine
end

