-- ==== Sys2Proof/Laws/HeldFaults.lean ====
section
/-! SUPPORT. What the operations of Machine/Faults.lean keep (see Laws/Held.lean). -/

-- The proofs of this file are checked one after another: the whole package is one text under a limit on threads.
set_option Elab.async false

namespace Sys2Proof.Machine

variable {K : Kit} {Q : List Instr} {F : Fuses}

theorem held_alarmMany (code : Nat) (arg : BitVec 64) (n : Nat) (s : State) (hI : Held K Q F s) : Held K Q F (alarmMany code arg n s) := by
  match n with
  | 0 => exact hI
  | 1 => exact held_alarm _ _ _ hI
  | n + 2 => exact held_count (fun c => { c with alarmGen := c.alarmGen + BitVec.ofNat 32 (n + 1), alarmCoalesced := c.alarmCoalesced + BitVec.ofNat 32 (n + 1) }) _ (held_alarm code arg s hI)

theorem held_uncorrectable (unit n : Nat) (s : State)  (hI : Held K Q F s) :
    Held K Q F (uncorrectable unit n s) := by
  unfold uncorrectable
  repeat' first
    | with_reducible assumption
    | with_reducible apply held_alarmMany
    | with_reducible apply held_count
    | with_reducible apply held_at
    | simp only [held_mk]

theorem held_refetchLine (q slot : Nat) (s : State)  (hI : Held K Q F s) :
    Held K Q F (refetchLine q slot s) := by
  unfold refetchLine
  repeat' first
    | with_reducible assumption
    | with_reducible apply held_hmpRead
    | with_reducible apply held_updReq
    | dsimp only
    | split

theorem held_rowSpoiled (r : RowRec) (s : State)  (hI : Held K Q F s) :
    Held K Q F (rowSpoiled r s) := by
  unfold rowSpoiled
  try dsimp only
  repeat' first
    | with_reducible assumption
    | intro _
    | with_reducible apply held_rowGone
    | with_reducible apply held_dropRows
    | with_reducible apply held_rejectRow
    | with_reducible apply held_closeMerges
    | with_reducible apply held_foldl
    | with_reducible apply held_ite
    | with_reducible apply held_at
    | with_reducible apply heldAt_drop
    | with_reducible apply heldAt_put
    | simp only [held_mk]
    | split

theorem held_recordSpoiled (seq : Word) (block : Nat) (s : State)  (hI : Held K Q F s) :
    Held K Q F (recordSpoiled seq block s) := by
  unfold recordSpoiled
  try dsimp only
  repeat' first
    | with_reducible assumption
    | intro _
    | with_reducible apply held_tileLost
    | with_reducible apply held_foldl
    | with_reducible apply held_ite
    | with_reducible apply held_at
    | with_reducible apply heldAt_drop
    | with_reducible apply heldAt_put
    | simp only [held_mk]
    | split

theorem held_controlSpoiled (q : Option Nat) (s : State)  (hI : Held K Q F s) :
    Held K Q F (controlSpoiled q s) := by
  unfold controlSpoiled
  repeat' first
    | with_reducible assumption
    | with_reducible apply held_closeMerges
    | with_reducible apply held_updReq
    | with_reducible apply held_whiskFault
    | dsimp only
    | split

theorem held_spoiled (w : EccWhere) (s : State)  (hI : Held K Q F s) :
    Held K Q F (spoiled w s) := by
  unfold spoiled
  try dsimp only
  repeat' first
    | with_reducible assumption
    | intro _
    | with_reducible apply held_dropCopies
    | with_reducible apply held_refetchStrip
    | with_reducible apply held_restoreLine
    | with_reducible apply held_refetchLine
    | with_reducible apply held_rowSpoiled
    | with_reducible apply held_tileLost
    | with_reducible apply held_recordSpoiled
    | with_reducible apply held_rebuildRetired
    | with_reducible apply held_controlSpoiled
    | with_reducible apply held_foldl
    | with_reducible apply held_ite
    | with_reducible apply held_at
    | with_reducible apply heldAt_drop
    | with_reducible apply heldAt_put
    | simp only [held_mk]
    | split

theorem held_lineRead (w : EccWhere) (k : EccKind) (s : State)  (hI : Held K Q F s) :
    Held K Q F (lineRead w k s) := by
  unfold lineRead
  repeat' first
    | with_reducible assumption
    | with_reducible apply held_count
    | with_reducible apply held_uncorrectable
    | with_reducible apply held_spoiled
    | split

theorem held_useSpoiled (k : Nat) (u : BlockUse) (s : State) (hI : Held K Q F s) : Held K Q F (useSpoiled k u s) := by
  obtain ⟨p, use, bs⟩ := u
  cases use
  case head => exact held_foldl (fun t i h => held_ite (held_refetchStrip _ _ h) h) hI
  case overlay => exact held_foldl (fun t i h => held_ite (held_refetchStrip _ _ h) h) hI
  case taken => exact held_foldl (fun t i h => held_refetchStrip _ _ h) hI
  case tile => exact held_tileLost _ _ _ hI
  case record => exact held_foldl (fun t i h => held_recordSpoiled _ _ _ h) hI
  case retired => exact held_foldl (fun t i h => held_rebuildRetired _ _ _ h) hI
  case packed => exact held_foldl (fun t i h => held_rowSpoiled _ _ h) hI
  case row => exact held_foldl (fun t i h => held_rowSpoiled _ _ h) hI
  all_goals exact hI

theorem held_cacheSpoiled (s : State)  (hI : Held K Q F s) :
    Held K Q F (cacheSpoiled s) := by
  unfold cacheSpoiled
  repeat' first
    | with_reducible assumption
    | intro _
    | with_reducible apply held_restoreLine
    | with_reducible apply held_foldl

theorem held_pairSpoiled (k : Nat) (s : State)  (hI : Held K Q F s) :
    Held K Q F (pairSpoiled k s) := by
  unfold pairSpoiled
  try dsimp only
  repeat' first
    | with_reducible assumption
    | intro _
    | with_reducible apply held_uncorrectable
    | with_reducible apply held_cacheSpoiled
    | with_reducible apply held_useSpoiled
    | with_reducible apply held_foldl
    | with_reducible apply held_ite
    | with_reducible apply held_at
    | with_reducible apply heldAt_drop
    | with_reducible apply heldAt_put
    | simp only [held_mk]
    | split

theorem held_debugOff (s : State)  (hI : Held K Q F s) :
    Held K Q F (debugOff s) := by
  unfold debugOff
  repeat' first
    | with_reducible assumption
    | with_reducible apply held_eociaGoesOn
    | with_reducible apply held_ite
    | with_reducible apply held_at
    | simp only [held_mk]

theorem held_domainLost (s : State)  (hI : Held K Q F s) :
    Held K Q F (domainLost s) := by
  unfold domainLost
  repeat' first
    | with_reducible assumption
    | with_reducible apply held_at
    | simp only [held_mk]

theorem held_domainFault (d : Nat) (s : State)  (hI : Held K Q F s) :
    Held K Q F (domainFault d s) := by
  unfold domainFault
  repeat' first
    | with_reducible assumption
    | with_reducible apply held_alarm
    | with_reducible apply held_powerPlan
    | with_reducible apply held_fencePan
    | with_reducible apply held_domainLost
    | with_reducible apply held_pairSpoiled
    | with_reducible apply held_portLost
    | with_reducible apply held_debugOff
    | with_reducible apply held_ite

theorem held_ackMissing (d : Nat) (s : State)  (hI : Held K Q F s) :
    Held K Q F (ackMissing d s) := by
  unfold ackMissing
  repeat' first
    | with_reducible assumption
    | with_reducible apply held_domainFault
    | with_reducible apply held_ite

end Sys2Proof.Machine
end

