-- ==== Sys2Proof/Laws/HeldDebug.lean ====
section
/-! SUPPORT. What the operations of Machine/Debug.lean keep (see Laws/Held.lean). -/

-- The proofs of this file are checked one after another: the whole package is one text under a limit on threads.
set_option Elab.async false

namespace Sys2Proof.Machine

variable {K : Kit} {Q : List Instr} {F : Fuses}

theorem held_whiskMoves (s : State)  (hI : Held K Q F s) :
    Held K Q F (whiskMoves s) := by
  unfold whiskMoves
  repeat' first
    | with_reducible assumption
    | with_reducible apply held_at
    | with_reducible apply heldAt_drop
    | simp only [held_mk]

theorem held_haltWrite (v : Word) (s : State)  (hI : Held K Q F s) :
    Held K Q F (haltWrite v s) := by
  unfold haltWrite
  repeat' first
    | with_reducible assumption
    | with_reducible apply held_debugLoaded
    | with_reducible apply held_whiskMoves
    | with_reducible apply held_eociaGoesOn
    | with_reducible apply held_ite
    | with_reducible apply held_at
    | simp only [held_mk]

theorem held_stepWrite (v : Word) (s : State)  (hI : Held K Q F s) :
    Held K Q F (stepWrite v s) := by
  unfold stepWrite
  repeat' first
    | with_reducible assumption
    | with_reducible apply held_whiskMoves
    | with_reducible apply held_ite

theorem held_breakHit (n : Nat) (s : State)  (hI : Held K Q F s) :
    Held K Q F (breakHit n s) := by
  unfold breakHit
  repeat' first
    | with_reducible assumption
    | with_reducible apply held_ite
    | with_reducible apply held_at
    | simp only [held_mk]

theorem held_freeWord (s : State)  (hI : Held K Q F s) :
    Held K Q F (freeWord s).2.2 := by
  unfold freeWord
  repeat' first
    | with_reducible assumption
    | with_reducible apply held_at
    | simp only [held_mk]

theorem held_latched (a : Nat) (lo hi : Word) (s : State)  (hI : Held K Q F s) :
    Held K Q F (latched a lo hi s).2.2 := by
  unfold latched
  repeat' first
    | with_reducible assumption
    | with_reducible apply held_at
    | simp only [held_mk]
    | split

theorem held_debugFetch (a : Nat) (s : State)  (hI : Held K Q F s) :
    Held K Q F (debugFetch a s).2.2 := by
  unfold debugFetch
  repeat' first
    | with_reducible assumption
    | with_reducible apply held_freeWord
    | with_reducible apply held_latched
    | with_reducible apply held_at
    | simp only [held_mk]
    | split

theorem held_putWord (a : Nat) (v : Word) (s : State)  (hI : Held K Q F s) :
    Held K Q F (putWord a v s) := by
  unfold putWord
  repeat' first
    | with_reducible assumption
    | with_reducible apply held_at
    | with_reducible apply heldAt_put
    | simp only [held_mk]

theorem held_debugStore (a : Nat) (v : Word) (s : State)  (hI : Held K Q F s) :
    Held K Q F (debugStore a v s).2 := by
  unfold debugStore
  repeat' first
    | with_reducible assumption
    | with_reducible apply held_putWord
    | with_reducible apply held_at
    | simp only [held_mk]
    | split

theorem held_advance (err : Nat) (s : State)  (hI : Held K Q F s) :
    Held K Q F (advance err s) := by
  unfold advance
  repeat' first
    | with_reducible assumption
    | with_reducible apply held_at
    | simp only [held_mk]

theorem held_memRead (s : State)  (hI : Held K Q F s) :
    Held K Q F (memRead s).2 := by
  unfold memRead
  repeat' first
    | with_reducible assumption
    | with_reducible apply held_debugFetch
    | with_reducible apply held_advance

theorem held_memWrite (v : Word) (s : State)  (hI : Held K Q F s) :
    Held K Q F (memWrite v s) := by
  unfold memWrite
  repeat' first
    | with_reducible assumption
    | with_reducible apply held_debugStore
    | with_reducible apply held_advance

theorem held_debugRead (off : Nat) (s : State)  (hI : Held K Q F s) :
    Held K Q F (debugRead off s).2 := by
  unfold debugRead
  repeat' first
    | with_reducible assumption
    | with_reducible apply held_memRead
    | split

theorem held_breakWrite (n : Nat) (v : Word) (s : State)  (hI : Held K Q F s) :
    Held K Q F (breakWrite n v s) := by
  unfold breakWrite
  repeat' first
    | with_reducible assumption
    | with_reducible apply held_at
    | simp only [held_mk]

theorem held_debugWrite (off : Nat) (v : Word) (s : State)  (hI : Held K Q F s) :
    Held K Q F (debugWrite off v s) := by
  unfold debugWrite
  repeat' first
    | with_reducible assumption
    | with_reducible apply held_haltWrite
    | with_reducible apply held_stepWrite
    | with_reducible apply held_breakWrite
    | with_reducible apply held_memWrite
    | with_reducible apply held_ite
    | with_reducible apply held_at
    | simp only [held_mk]

theorem held_tapAccess (write : Bool) (off : Nat) (v : Word) (s : State)  (hI : Held K Q F s) :
    Held K Q F (tapAccess write off v s) := by
  unfold tapAccess
  repeat' first
    | with_reducible assumption
    | with_reducible apply held_debugWrite
    | with_reducible apply held_debugRead
    | with_reducible apply held_at
    | simp only [held_mk]
    | split

end Sys2Proof.Machine
end

