-- ==== Sys2Proof/Laws/HeldRegs.lean ====
section
/-! SUPPORT. What the operations of Machine/Regs.lean keep (see Laws/Held.lean). -/

-- The proofs of this file are checked one after another: the whole package is one text under a limit on threads.
set_option Elab.async false

namespace Sys2Proof.Machine

variable {K : Kit} {Q : List Instr} {F : Fuses}

theorem held_csrDenied (src off : Nat) (write : Bool) (s : State)  (hI : Held K Q F s) :
    Held K Q F (csrDenied src off write s) := by
  unfold csrDenied
  repeat' first
    | with_reducible assumption
    | with_reducible apply held_log

theorem held_ceilWrite (v : Word) (s : State)  (hI : Held K Q F s) :
    Held K Q F (ceilWrite v s) := by
  unfold ceilWrite
  repeat' first
    | with_reducible assumption
    | intro _
    | with_reducible apply held_setPair
    | with_reducible apply held_foldl
    | with_reducible apply held_ite
    | with_reducible apply held_at
    | simp only [held_mk]

theorem held_thawHip (s : State) (hI : Held K Q F s) : Held K Q F (thawHip s) := by
  obtain ⟨h1, h2, h3, h4, h5, h6, h7⟩ := hI
  exact held_returnCredits _ ⟨h1, h2, h3, h4, ⟨Nat.le_refl 0, Nat.le_refl 1024⟩, ⟨Nat.le_refl 0, Nat.le_refl 1024⟩, h7⟩

theorem held_thawPart (p : Nat) (s : State)  (hI : Held K Q F s) :
    Held K Q F (thawPart p s) := by
  unfold thawPart
  repeat' first
    | with_reducible assumption
    | with_reducible apply held_hmpIssue
    | with_reducible apply held_at
    | simp only [held_mk]

theorem held_thawWrite (v : Word) (s : State)  (hI : Held K Q F s) :
    Held K Q F (thawWrite v s) := by
  unfold thawWrite
  repeat' first
    | with_reducible assumption
    | with_reducible apply held_log
    | with_reducible apply held_thawPart
    | with_reducible apply held_thawHip
    | with_reducible apply held_thawHmp
    | with_reducible apply held_thawGbp
    | with_reducible apply held_ite

theorem held_bank0Write (o : Nat) (v : Word) (s : State)  (hI : Held K Q F s) :
    Held K Q F (bank0Write o v s) := by
  unfold bank0Write
  repeat' first
    | with_reducible assumption
    | with_reducible apply held_thawWrite
    | with_reducible apply held_ceilWrite
    | with_reducible apply held_ite
    | with_reducible apply held_at
    | simp only [held_mk]

theorem held_killWrite (v : Word) (s : State)  (hI : Held K Q F s) :
    Held K Q F (killWrite v s) := by
  unfold killWrite
  repeat' first
    | with_reducible assumption
    | with_reducible apply held_startKill
    | with_reducible apply held_ite

theorem held_bank1Write (o : Nat) (v : Word) (s : State)  (hI : Held K Q F s) :
    Held K Q F (bank1Write o v s) := by
  unfold bank1Write
  repeat' first
    | with_reducible assumption
    | with_reducible apply held_killWrite
    | with_reducible apply held_ite
    | with_reducible apply held_at
    | simp only [held_mk]

theorem held_ringAnew (s : State)  (hI : Held K Q F s) :
    Held K Q F (ringAnew s) := by
  unfold ringAnew
  repeat' first
    | with_reducible assumption
    | with_reducible apply held_at
    | simp only [held_mk]

theorem held_logCfgWrite (v : Word) (s : State)  (hI : Held K Q F s) :
    Held K Q F (logCfgWrite v s) := by
  unfold logCfgWrite
  repeat' first
    | with_reducible assumption
    | with_reducible apply held_ringAnew
    | with_reducible apply held_at
    | simp only [held_mk]

theorem held_logBaseWrite (v : Word) (s : State)  (hI : Held K Q F s) :
    Held K Q F (logBaseWrite v s) := by
  unfold logBaseWrite
  repeat' first
    | with_reducible assumption
    | with_reducible apply held_ringAnew
    | with_reducible apply held_ite
    | with_reducible apply held_at
    | simp only [held_mk]

theorem held_bank14Write (o : Nat) (v : Word) (s : State)  (hI : Held K Q F s) :
    Held K Q F (bank14Write o v s) := by
  unfold bank14Write
  repeat' first
    | with_reducible assumption
    | with_reducible apply held_logBaseWrite
    | with_reducible apply held_logCfgWrite
    | with_reducible apply held_ite
    | with_reducible apply held_at
    | simp only [held_mk]

theorem held_csrPut (off : Nat) (v : Word) (s : State)  (hI : Held K Q F s) :
    Held K Q F (csrPut off v s) := by
  unfold csrPut
  repeat' first
    | with_reducible assumption
    | with_reducible apply held_bank0Write
    | with_reducible apply held_bank1Write
    | with_reducible apply held_mbxWrite
    | with_reducible apply held_bank14Write
    | with_reducible apply held_debugWrite
    | with_reducible apply held_ite

theorem held_csrWrite (src : BitVec 4) (off : Nat) (v : Word) (s : State)  (hI : Held K Q F s) :
    Held K Q F (csrWrite src off v s) := by
  unfold csrWrite
  repeat' first
    | with_reducible assumption
    | with_reducible apply held_csrPut
    | with_reducible apply held_csrDenied
    | with_reducible apply held_ite

theorem held_csrMemRead (src : BitVec 4) (s : State)  (hI : Held K Q F s) :
    Held K Q F (csrMemRead src s) := by
  unfold csrMemRead
  repeat' first
    | with_reducible assumption
    | with_reducible apply held_debugRead
    | with_reducible apply held_csrDenied
    | with_reducible apply held_ite
    | with_reducible apply held_at
    | simp only [held_mk]

theorem held_partWrite (src : BitVec 4) (p off : Nat) (v : Word) (s : State)  (hI : Held K Q F s) :
    Held K Q F (partWrite src p off v s) := by
  unfold partWrite
  repeat' first
    | with_reducible assumption
    | with_reducible apply held_csrWrite
    | with_reducible apply held_ite

end Sys2Proof.Machine
end

