-- ==== Sys2Proof/WellFormed.lean ====
section
/-! DEFINITION. Which commands the block's doors can carry: operand widths and ranges of the spec's layouts. -/

namespace Sys2Proof

/-- A partition number of R392. -/
def partOk (p : Nat) : Bool := p < 12

/-- A slice number of R13. -/
def sliceOk (n : Nat) : Bool := n < 64

/-- A command as Eocia takes it up: a partition and 14 argument words (R306, R309). -/
def cmdOk (c : Cmd) : Bool :=
  partOk c.part && c.args.length == 14
    && match c.origin with
       | .fwd n _ _ => sliceOk n
       | _ => true

/-- A number of n bits. -/
def bitsOk (n v : Nat) : Bool := v < 2 ^ n

/-- A row's key (R186). -/
def keyOk (k : RowKey) : Bool := bitsOk 32 k.id && bitsOk 6 k.row

/-- A TAP or boot image is a byte string of any length; beats hold 64 bytes (Table 17.1). -/
def beatOk (b : HipBeat) : Bool := b.data.length == 64

/-- A range table entry of chunks 0 to 16,383 (R15, R322). -/
def rangeOk (e : RangeEntry) : Bool := bitsOk 16 e.first && bitsOk 16 e.count

/-- A HUSK_DELTA entry holds 64 bytes (Table 20.2). -/
def deltaOk (e : DeltaEntry) : Bool := e.data.length == 64 && partOk e.part

/-- Counts of an MA_SUM: at most 256 buckets, masses of one length with them or absent (Table 9.3). -/
def maSumOk (r : MaSum) : Bool :=
  keyOk r.key && r.counts.length ≤ 256
    && (if r.masses then r.mhi.length == r.counts.length && r.mlo.length == r.counts.length
        else r.mhi.isEmpty && r.mlo.isEmpty)

/-- Well-formed commands. -/
def Instr.wf : Instr → Bool
  | .pipProbe c => cmdOk c.val
  | .info c | .partBacking c | .headLoad c | .headUnload c | .overlayLoad c | .mobjLoad c
  | .mobjDelete c | .biasLoad c | .biasDelete c | .rangeLoad c | .sliceDrain c | .sliceRejoin c | .fwStage c
  | .reqAdmit c | .reqAdmitAcorn c | .reqSettings c | .reqCancel c | .reqPause c | .reqResume c | .reqEvict c
  | .huskResume c | .reqMove c | .reqQuery c | .tenantBind c | .tenantCredit c | .tenantDrain c | .tenantReserve c
  | .tenantUnbind c | .tenantQuery c | .acornMake c | .acornTake c | .acornDrop c | .variantReg c | .variantDrop c
  | .trainOpen c | .trainForward c | .trainBackward c | .trainNorm c | .trainUpdate c | .trainClose c
  | .maskPrune c | .maskGrow c | .maskBarrier c | .maskDiscard c | .maskStatus c => cmdOk c
  | .mbxDoorbell _ p _ | .mbxAck _ p _ | .mbxIrqStatus _ p _ | .mbxIrqEn _ p _ | .cqCfg _ p _ | .cqTail _ p _
  | .ccCons _ p _ | .stkQuota _ p _ => partOk p
  | .cqFetch p => partOk p
  | .stepPeriod _ _ | .thawMaster _ _ | .glbIrqStatus _ _ | .glbIrqEn _ _ | .placeCtl _ _ | .stcCfg _ _
  | .aclkCeil _ _ | .mgmtParts _ _ | .partKill _ _ | .logBaseHi _ _ | .logCfg _ _ | .regWrite _ _ _ => true
  | .dbgCtrl _ _ | .dbgStep _ _ | .dbgMemAddr _ _ | .dbgMemData _ _ _ => true
  | .dbgBp _ n _ => n < 4
  | .breakpointHit n => n < 4
  | .tapReset | .tapIdcode | .tapDbgReg _ _ _ | .tapUnlockCapture | .unlockDone | .unlockHoldoffExpiry => true
  | .tapUnlockUpdate k g => k.length == 96 && g.length == 96
  | .tapFuse w _ _ => w < 5
  | .hipRow _ bs => bs.val.all beatOk
  | .hmpReadData _ t _ bs => t < 512 && bs.all (·.length == 128)
  | .hmpWriteResponse t _ => t < 512
  | .hmpRetry t => t < 512
  | .gbpCredit _ | .gbpAck _ | .gbpSend _ | .evtCredit | .eventSend | .alarmSend => true
  | .tickEmit | .slipSilenceExpiry => true
  | .tick m => sliceOk m.master && bitsOk 32 m.period
  | .ingestDeadline | .sieveDeadline | .mergeADeadline | .mergeBDeadline | .drawDeadline | .commitEmit => true
  | .commit m => sliceOk m.master
  | .commitAck _ n => sliceOk n
  | .commitAckResend => true
  | .lateLimit q | .ringStallLimit q => bitsOk 14 q
  | .passDone p => p.rows.all keyOk
  | .rowSieved k => keyOk k.val
  | .maSum n r => sliceOk n && maSumOk r.val
  | .maCut r _ => keyOk r.key
  | .mbShell n r => sliceOk n && keyOk r.val.key && r.val.entries.length ≤ 1024
  | .mbEdge r _ => keyOk r.key
  | .mdDraw n r => sliceOk n && keyOk r.key
  | .trSum n _ => sliceOk n
  | .rsBegin p _ => p < 4
  | .rsFlit p _ _ => p < 4
  | .jarShare n q _ => sliceOk n && bitsOk 14 q
  | .huskDelta d => sliceOk d.src && d.entries.all deltaOk
  | .huskDeltaAck n _ => sliceOk n
  | .hello p h => p < 4 && sliceOk h.slice
  | .heartbeat n _ => sliceOk n
  | .heartbeatSend => true
  | .sliceLost n => sliceOk n
  | .fwdCmd f => partOk f.part && f.args.length == 14
  | .fwdResult r => r.words.length == 14
  | .stateSync m => sliceOk m.src
  | .partScrubDone n p => sliceOk n && partOk p
  | .range _ t => t.all rangeOk
  | .formPropose b => sliceOk b.slice
  | .formCommit _ => true
  | .formRefuse n _ => sliceOk n
  | .formKeys k => partOk k.part
  | .formDone n => sliceOk n
  | .proposeRetry | .formWait => true
  | .regroup _ => true
  | .takeoverDone => true
  | .expel n => sliceOk n
  | .linkFlit p l f _ => p < 4 && l < 2 && f.length == 256
  | .replayTimeout p | .trainTimeout p | .retrainTimeout p | .portRetry p | .trainingSignal p => p < 4
  | .laneFail p l | .laneSilence p l | .laneLock p l | .blMargin p l => p < 4 && l < 2
  | .placementCopyDone i _ => partOk i.part
  | .patrolScrub _ _ => true
  | .largeSelectPass p _ => partOk p
  | .forwardSlotDone => true
  | .backwardSlotDone _ => true
  | .updateSlotDone p _ _ bank => partOk p && bank < 2
  | .watchdogExpiry | .whiskTrap => true
  | .whiskRestartDone _ rs => rs.all deltaOk
  | .reset _ | .bootCheck _ | .entropyFail => true
  | .pmPwrAck d | .pwrAckTimeout d | .pmFault d => d < 148
  | .pmVack p | .droop p => p < 24
  | .pmAlertRise | .pmAlertFall => true
  | .vfLoopEval p _ _ _ => p < 24
  | .pwrEstUpdate | .rstNAssert | .pllLockLoss => true
  | .panIdleOff n => n < 48

end Sys2Proof
end

