-- ==== Sys2Proof/Laws/PerInstr.lean ====
section
/-! SUPPORT. What well-formedness says of every row: the partitions, slices and ports that it names exist (R13, R366, R392). One lemma for
each constructor. -/

namespace Sys2Proof.Laws.WellFormedRow

/-- The partitions that a command names. -/
def parts : Instr → List Nat
  | .info c => [c.part]
  | .pipProbe c => [c.val.part]
  | .partBacking c => [c.part]
  | .headLoad c => [c.part]
  | .headUnload c => [c.part]
  | .overlayLoad c => [c.part]
  | .mobjLoad c => [c.part]
  | .mobjDelete c => [c.part]
  | .biasLoad c => [c.part]
  | .biasDelete c => [c.part]
  | .rangeLoad c => [c.part]
  | .sliceDrain c => [c.part]
  | .sliceRejoin c => [c.part]
  | .fwStage c => [c.part]
  | .reqAdmit c => [c.part]
  | .reqAdmitAcorn c => [c.part]
  | .reqSettings c => [c.part]
  | .reqCancel c => [c.part]
  | .reqPause c => [c.part]
  | .reqResume c => [c.part]
  | .reqEvict c => [c.part]
  | .huskResume c => [c.part]
  | .reqMove c => [c.part]
  | .reqQuery c => [c.part]
  | .tenantBind c => [c.part]
  | .tenantCredit c => [c.part]
  | .tenantDrain c => [c.part]
  | .tenantReserve c => [c.part]
  | .tenantUnbind c => [c.part]
  | .tenantQuery c => [c.part]
  | .acornMake c => [c.part]
  | .acornTake c => [c.part]
  | .acornDrop c => [c.part]
  | .variantReg c => [c.part]
  | .variantDrop c => [c.part]
  | .trainOpen c => [c.part]
  | .trainForward c => [c.part]
  | .trainBackward c => [c.part]
  | .trainNorm c => [c.part]
  | .trainUpdate c => [c.part]
  | .trainClose c => [c.part]
  | .maskPrune c => [c.part]
  | .maskGrow c => [c.part]
  | .maskBarrier c => [c.part]
  | .maskDiscard c => [c.part]
  | .maskStatus c => [c.part]
  | .mbxDoorbell _ part _ => [part]
  | .mbxAck _ part _ => [part]
  | .mbxIrqStatus _ part _ => [part]
  | .mbxIrqEn _ part _ => [part]
  | .cqCfg _ part _ => [part]
  | .cqTail _ part _ => [part]
  | .ccCons _ part _ => [part]
  | .cqFetch part => [part]
  | .stepPeriod _ _ => []
  | .thawMaster _ _ => []
  | .glbIrqStatus _ _ => []
  | .glbIrqEn _ _ => []
  | .placeCtl _ _ => []
  | .stcCfg _ _ => []
  | .stkQuota _ part _ => [part]
  | .aclkCeil _ _ => []
  | .mgmtParts _ _ => []
  | .partKill _ _ => []
  | .logBaseHi _ _ => []
  | .logCfg _ _ => []
  | .regWrite _ _ _ => []
  | .dbgCtrl _ _ => []
  | .dbgStep _ _ => []
  | .dbgBp _ _ _ => []
  | .dbgMemAddr _ _ => []
  | .dbgMemData _ _ _ => []
  | .breakpointHit _ => []
  | .tapReset => []
  | .tapIdcode => []
  | .tapDbgReg _ _ _ => []
  | .tapUnlockCapture => []
  | .tapUnlockUpdate _ _ => []
  | .unlockDone => []
  | .unlockHoldoffExpiry => []
  | .tapFuse _ _ _ => []
  | .hipRow _ _ => []
  | .hmpReadData _ _ _ _ => []
  | .hmpWriteResponse _ _ => []
  | .hmpRetry _ => []
  | .gbpCredit _ => []
  | .gbpAck _ => []
  | .gbpSend _ => []
  | .evtCredit => []
  | .eventSend => []
  | .alarmSend => []
  | .tickEmit => []
  | .slipSilenceExpiry => []
  | .tick _ => []
  | .ingestDeadline => []
  | .sieveDeadline => []
  | .mergeADeadline => []
  | .mergeBDeadline => []
  | .drawDeadline => []
  | .commitEmit => []
  | .commit _ => []
  | .commitAck _ _ => []
  | .commitAckResend => []
  | .lateLimit _ => []
  | .ringStallLimit _ => []
  | .passDone _ => []
  | .rowSieved _ => []
  | .maSum _ _ => []
  | .maCut _ _ => []
  | .mbShell _ _ => []
  | .mbEdge _ _ => []
  | .mdDraw _ _ => []
  | .trSum _ _ => []
  | .rsBegin _ _ => []
  | .rsFlit _ _ _ => []
  | .jarShare _ _ _ => []
  | .huskDelta _ => []
  | .huskDeltaAck _ _ => []
  | .hello _ _ => []
  | .heartbeat _ _ => []
  | .heartbeatSend => []
  | .sliceLost _ => []
  | .fwdCmd f => [f.part]
  | .fwdResult _ => []
  | .stateSync _ => []
  | .partScrubDone _ part => [part]
  | .range _ _ => []
  | .formPropose _ => []
  | .formCommit _ => []
  | .formRefuse _ _ => []
  | .formKeys k => [k.part]
  | .formDone _ => []
  | .proposeRetry => []
  | .formWait => []
  | .regroup _ => []
  | .takeoverDone => []
  | .expel _ => []
  | .linkFlit _ _ _ _ => []
  | .replayTimeout _ => []
  | .laneFail _ _ => []
  | .laneSilence _ _ => []
  | .laneLock _ _ => []
  | .trainTimeout _ => []
  | .retrainTimeout _ => []
  | .portRetry _ => []
  | .trainingSignal _ => []
  | .blMargin _ _ => []
  | .placementCopyDone id _ => [id.part]
  | .patrolScrub _ _ => []
  | .largeSelectPass part _ => [part]
  | .forwardSlotDone => []
  | .backwardSlotDone _ => []
  | .updateSlotDone part _ _ _ => [part]
  | .watchdogExpiry => []
  | .whiskTrap => []
  | .whiskRestartDone _ _ => []
  | .reset _ => []
  | .bootCheck _ => []
  | .entropyFail => []
  | .pmPwrAck _ => []
  | .pwrAckTimeout _ => []
  | .pmFault _ => []
  | .pmVack _ => []
  | .pmAlertRise => []
  | .pmAlertFall => []
  | .vfLoopEval _ _ _ _ => []
  | .droop _ => []
  | .pwrEstUpdate => []
  | .panIdleOff _ => []
  | .rstNAssert => []
  | .pllLockLoss => []

/-- The slices that a command names. -/
def slices : Instr → List Nat
  | .info _ => []
  | .pipProbe _ => []
  | .partBacking _ => []
  | .headLoad _ => []
  | .headUnload _ => []
  | .overlayLoad _ => []
  | .mobjLoad _ => []
  | .mobjDelete _ => []
  | .biasLoad _ => []
  | .biasDelete _ => []
  | .rangeLoad _ => []
  | .sliceDrain _ => []
  | .sliceRejoin _ => []
  | .fwStage _ => []
  | .reqAdmit _ => []
  | .reqAdmitAcorn _ => []
  | .reqSettings _ => []
  | .reqCancel _ => []
  | .reqPause _ => []
  | .reqResume _ => []
  | .reqEvict _ => []
  | .huskResume _ => []
  | .reqMove _ => []
  | .reqQuery _ => []
  | .tenantBind _ => []
  | .tenantCredit _ => []
  | .tenantDrain _ => []
  | .tenantReserve _ => []
  | .tenantUnbind _ => []
  | .tenantQuery _ => []
  | .acornMake _ => []
  | .acornTake _ => []
  | .acornDrop _ => []
  | .variantReg _ => []
  | .variantDrop _ => []
  | .trainOpen _ => []
  | .trainForward _ => []
  | .trainBackward _ => []
  | .trainNorm _ => []
  | .trainUpdate _ => []
  | .trainClose _ => []
  | .maskPrune _ => []
  | .maskGrow _ => []
  | .maskBarrier _ => []
  | .maskDiscard _ => []
  | .maskStatus _ => []
  | .mbxDoorbell _ _ _ => []
  | .mbxAck _ _ _ => []
  | .mbxIrqStatus _ _ _ => []
  | .mbxIrqEn _ _ _ => []
  | .cqCfg _ _ _ => []
  | .cqTail _ _ _ => []
  | .ccCons _ _ _ => []
  | .cqFetch _ => []
  | .stepPeriod _ _ => []
  | .thawMaster _ _ => []
  | .glbIrqStatus _ _ => []
  | .glbIrqEn _ _ => []
  | .placeCtl _ _ => []
  | .stcCfg _ _ => []
  | .stkQuota _ _ _ => []
  | .aclkCeil _ _ => []
  | .mgmtParts _ _ => []
  | .partKill _ _ => []
  | .logBaseHi _ _ => []
  | .logCfg _ _ => []
  | .regWrite _ _ _ => []
  | .dbgCtrl _ _ => []
  | .dbgStep _ _ => []
  | .dbgBp _ _ _ => []
  | .dbgMemAddr _ _ => []
  | .dbgMemData _ _ _ => []
  | .breakpointHit _ => []
  | .tapReset => []
  | .tapIdcode => []
  | .tapDbgReg _ _ _ => []
  | .tapUnlockCapture => []
  | .tapUnlockUpdate _ _ => []
  | .unlockDone => []
  | .unlockHoldoffExpiry => []
  | .tapFuse _ _ _ => []
  | .hipRow _ _ => []
  | .hmpReadData _ _ _ _ => []
  | .hmpWriteResponse _ _ => []
  | .hmpRetry _ => []
  | .gbpCredit _ => []
  | .gbpAck _ => []
  | .gbpSend _ => []
  | .evtCredit => []
  | .eventSend => []
  | .alarmSend => []
  | .tickEmit => []
  | .slipSilenceExpiry => []
  | .tick m => [m.master]
  | .ingestDeadline => []
  | .sieveDeadline => []
  | .mergeADeadline => []
  | .mergeBDeadline => []
  | .drawDeadline => []
  | .commitEmit => []
  | .commit m => [m.master]
  | .commitAck _ slice => [slice]
  | .commitAckResend => []
  | .lateLimit _ => []
  | .ringStallLimit _ => []
  | .passDone _ => []
  | .rowSieved _ => []
  | .maSum src _ => [src]
  | .maCut _ _ => []
  | .mbShell src _ => [src]
  | .mbEdge _ _ => []
  | .mdDraw src _ => [src]
  | .trSum src _ => [src]
  | .rsBegin _ _ => []
  | .rsFlit _ _ _ => []
  | .jarShare src _ _ => [src]
  | .huskDelta d => [d.src]
  | .huskDeltaAck src _ => [src]
  | .hello _ h => [h.slice]
  | .heartbeat slice _ => [slice]
  | .heartbeatSend => []
  | .sliceLost slice => [slice]
  | .fwdCmd _ => []
  | .fwdResult _ => []
  | .stateSync m => [m.src]
  | .partScrubDone slice _ => [slice]
  | .range _ _ => []
  | .formPropose b => [b.slice]
  | .formCommit _ => []
  | .formRefuse slice _ => [slice]
  | .formKeys _ => []
  | .formDone slice => [slice]
  | .proposeRetry => []
  | .formWait => []
  | .regroup _ => []
  | .takeoverDone => []
  | .expel slice => [slice]
  | .linkFlit _ _ _ _ => []
  | .replayTimeout _ => []
  | .laneFail _ _ => []
  | .laneSilence _ _ => []
  | .laneLock _ _ => []
  | .trainTimeout _ => []
  | .retrainTimeout _ => []
  | .portRetry _ => []
  | .trainingSignal _ => []
  | .blMargin _ _ => []
  | .placementCopyDone _ _ => []
  | .patrolScrub _ _ => []
  | .largeSelectPass _ _ => []
  | .forwardSlotDone => []
  | .backwardSlotDone _ => []
  | .updateSlotDone _ _ _ _ => []
  | .watchdogExpiry => []
  | .whiskTrap => []
  | .whiskRestartDone _ _ => []
  | .reset _ => []
  | .bootCheck _ => []
  | .entropyFail => []
  | .pmPwrAck _ => []
  | .pwrAckTimeout _ => []
  | .pmFault _ => []
  | .pmVack _ => []
  | .pmAlertRise => []
  | .pmAlertFall => []
  | .vfLoopEval _ _ _ _ => []
  | .droop _ => []
  | .pwrEstUpdate => []
  | .panIdleOff _ => []
  | .rstNAssert => []
  | .pllLockLoss => []

/-- The Broddel ports that a command names. -/
def ports : Instr → List Nat
  | .info _ => []
  | .pipProbe _ => []
  | .partBacking _ => []
  | .headLoad _ => []
  | .headUnload _ => []
  | .overlayLoad _ => []
  | .mobjLoad _ => []
  | .mobjDelete _ => []
  | .biasLoad _ => []
  | .biasDelete _ => []
  | .rangeLoad _ => []
  | .sliceDrain _ => []
  | .sliceRejoin _ => []
  | .fwStage _ => []
  | .reqAdmit _ => []
  | .reqAdmitAcorn _ => []
  | .reqSettings _ => []
  | .reqCancel _ => []
  | .reqPause _ => []
  | .reqResume _ => []
  | .reqEvict _ => []
  | .huskResume _ => []
  | .reqMove _ => []
  | .reqQuery _ => []
  | .tenantBind _ => []
  | .tenantCredit _ => []
  | .tenantDrain _ => []
  | .tenantReserve _ => []
  | .tenantUnbind _ => []
  | .tenantQuery _ => []
  | .acornMake _ => []
  | .acornTake _ => []
  | .acornDrop _ => []
  | .variantReg _ => []
  | .variantDrop _ => []
  | .trainOpen _ => []
  | .trainForward _ => []
  | .trainBackward _ => []
  | .trainNorm _ => []
  | .trainUpdate _ => []
  | .trainClose _ => []
  | .maskPrune _ => []
  | .maskGrow _ => []
  | .maskBarrier _ => []
  | .maskDiscard _ => []
  | .maskStatus _ => []
  | .mbxDoorbell _ _ _ => []
  | .mbxAck _ _ _ => []
  | .mbxIrqStatus _ _ _ => []
  | .mbxIrqEn _ _ _ => []
  | .cqCfg _ _ _ => []
  | .cqTail _ _ _ => []
  | .ccCons _ _ _ => []
  | .cqFetch _ => []
  | .stepPeriod _ _ => []
  | .thawMaster _ _ => []
  | .glbIrqStatus _ _ => []
  | .glbIrqEn _ _ => []
  | .placeCtl _ _ => []
  | .stcCfg _ _ => []
  | .stkQuota _ _ _ => []
  | .aclkCeil _ _ => []
  | .mgmtParts _ _ => []
  | .partKill _ _ => []
  | .logBaseHi _ _ => []
  | .logCfg _ _ => []
  | .regWrite _ _ _ => []
  | .dbgCtrl _ _ => []
  | .dbgStep _ _ => []
  | .dbgBp _ _ _ => []
  | .dbgMemAddr _ _ => []
  | .dbgMemData _ _ _ => []
  | .breakpointHit _ => []
  | .tapReset => []
  | .tapIdcode => []
  | .tapDbgReg _ _ _ => []
  | .tapUnlockCapture => []
  | .tapUnlockUpdate _ _ => []
  | .unlockDone => []
  | .unlockHoldoffExpiry => []
  | .tapFuse _ _ _ => []
  | .hipRow _ _ => []
  | .hmpReadData _ _ _ _ => []
  | .hmpWriteResponse _ _ => []
  | .hmpRetry _ => []
  | .gbpCredit _ => []
  | .gbpAck _ => []
  | .gbpSend _ => []
  | .evtCredit => []
  | .eventSend => []
  | .alarmSend => []
  | .tickEmit => []
  | .slipSilenceExpiry => []
  | .tick _ => []
  | .ingestDeadline => []
  | .sieveDeadline => []
  | .mergeADeadline => []
  | .mergeBDeadline => []
  | .drawDeadline => []
  | .commitEmit => []
  | .commit _ => []
  | .commitAck _ _ => []
  | .commitAckResend => []
  | .lateLimit _ => []
  | .ringStallLimit _ => []
  | .passDone _ => []
  | .rowSieved _ => []
  | .maSum _ _ => []
  | .maCut _ _ => []
  | .mbShell _ _ => []
  | .mbEdge _ _ => []
  | .mdDraw _ _ => []
  | .trSum _ _ => []
  | .rsBegin port _ => [port]
  | .rsFlit port _ _ => [port]
  | .jarShare _ _ _ => []
  | .huskDelta _ => []
  | .huskDeltaAck _ _ => []
  | .hello port _ => [port]
  | .heartbeat _ _ => []
  | .heartbeatSend => []
  | .sliceLost _ => []
  | .fwdCmd _ => []
  | .fwdResult _ => []
  | .stateSync _ => []
  | .partScrubDone _ _ => []
  | .range _ _ => []
  | .formPropose _ => []
  | .formCommit _ => []
  | .formRefuse _ _ => []
  | .formKeys _ => []
  | .formDone _ => []
  | .proposeRetry => []
  | .formWait => []
  | .regroup _ => []
  | .takeoverDone => []
  | .expel _ => []
  | .linkFlit port _ _ _ => [port]
  | .replayTimeout port => [port]
  | .laneFail port _ => [port]
  | .laneSilence port _ => [port]
  | .laneLock port _ => [port]
  | .trainTimeout port => [port]
  | .retrainTimeout port => [port]
  | .portRetry port => [port]
  | .trainingSignal port => [port]
  | .blMargin port _ => [port]
  | .placementCopyDone _ _ => []
  | .patrolScrub _ _ => []
  | .largeSelectPass _ _ => []
  | .forwardSlotDone => []
  | .backwardSlotDone _ => []
  | .updateSlotDone _ _ _ _ => []
  | .watchdogExpiry => []
  | .whiskTrap => []
  | .whiskRestartDone _ _ => []
  | .reset _ => []
  | .bootCheck _ => []
  | .entropyFail => []
  | .pmPwrAck _ => []
  | .pwrAckTimeout _ => []
  | .pmFault _ => []
  | .pmVack _ => []
  | .pmAlertRise => []
  | .pmAlertFall => []
  | .vfLoopEval _ _ _ _ => []
  | .droop _ => []
  | .pwrEstUpdate => []
  | .panIdleOff _ => []
  | .rstNAssert => []
  | .pllLockLoss => []

/-- A well-formed command names partitions 0 to 11, slices 0 to 63 and ports 0 to 3 only. -/
def Statement (i : Instr) : Prop :=
  i.wf = true → (∀ p ∈ parts i, p < 12) ∧ (∀ n ∈ slices i, n < 64) ∧ (∀ p ∈ ports i, p < 4)

theorem no {k : Nat} : ∀ p ∈ ([] : List Nat), p < k := fun _ h => nomatch h

theorem one {a k : Nat} (h : a < k) : ∀ p ∈ [a], p < k := fun _ hp => (List.mem_singleton.1 hp) ▸ h

theorem left {a b : Bool} (h : (a && b) = true) : a = true := (Bool.and_eq_true _ _ ▸ h).1

theorem right {a b : Bool} (h : (a && b) = true) : b = true := (Bool.and_eq_true _ _ ▸ h).2

theorem cmd_part {c : Cmd} (h : cmdOk c = true) : c.part < 12 := by
  simp only [cmdOk, partOk, Bool.and_eq_true, decide_eq_true_eq] at h
  exact h.1.1

theorem info (c : Cmd) : Statement (.info c) :=
  fun h => ⟨one (cmd_part h), no, no⟩
theorem pipProbe (c : WithParity Cmd) : Statement (.pipProbe c) :=
  fun h => ⟨one (cmd_part h), no, no⟩
theorem partBacking (c : Cmd) : Statement (.partBacking c) :=
  fun h => ⟨one (cmd_part h), no, no⟩
theorem headLoad (c : Cmd) : Statement (.headLoad c) :=
  fun h => ⟨one (cmd_part h), no, no⟩
theorem headUnload (c : Cmd) : Statement (.headUnload c) :=
  fun h => ⟨one (cmd_part h), no, no⟩
theorem overlayLoad (c : Cmd) : Statement (.overlayLoad c) :=
  fun h => ⟨one (cmd_part h), no, no⟩
theorem mobjLoad (c : Cmd) : Statement (.mobjLoad c) :=
  fun h => ⟨one (cmd_part h), no, no⟩
theorem mobjDelete (c : Cmd) : Statement (.mobjDelete c) :=
  fun h => ⟨one (cmd_part h), no, no⟩
theorem biasLoad (c : Cmd) : Statement (.biasLoad c) :=
  fun h => ⟨one (cmd_part h), no, no⟩
theorem biasDelete (c : Cmd) : Statement (.biasDelete c) :=
  fun h => ⟨one (cmd_part h), no, no⟩
theorem rangeLoad (c : Cmd) : Statement (.rangeLoad c) :=
  fun h => ⟨one (cmd_part h), no, no⟩
theorem sliceDrain (c : Cmd) : Statement (.sliceDrain c) :=
  fun h => ⟨one (cmd_part h), no, no⟩
theorem sliceRejoin (c : Cmd) : Statement (.sliceRejoin c) :=
  fun h => ⟨one (cmd_part h), no, no⟩
theorem fwStage (c : Cmd) : Statement (.fwStage c) :=
  fun h => ⟨one (cmd_part h), no, no⟩
theorem reqAdmit (c : Cmd) : Statement (.reqAdmit c) :=
  fun h => ⟨one (cmd_part h), no, no⟩
theorem reqAdmitAcorn (c : Cmd) : Statement (.reqAdmitAcorn c) :=
  fun h => ⟨one (cmd_part h), no, no⟩
theorem reqSettings (c : Cmd) : Statement (.reqSettings c) :=
  fun h => ⟨one (cmd_part h), no, no⟩
theorem reqCancel (c : Cmd) : Statement (.reqCancel c) :=
  fun h => ⟨one (cmd_part h), no, no⟩
theorem reqPause (c : Cmd) : Statement (.reqPause c) :=
  fun h => ⟨one (cmd_part h), no, no⟩
theorem reqResume (c : Cmd) : Statement (.reqResume c) :=
  fun h => ⟨one (cmd_part h), no, no⟩
theorem reqEvict (c : Cmd) : Statement (.reqEvict c) :=
  fun h => ⟨one (cmd_part h), no, no⟩
theorem huskResume (c : Cmd) : Statement (.huskResume c) :=
  fun h => ⟨one (cmd_part h), no, no⟩
theorem reqMove (c : Cmd) : Statement (.reqMove c) :=
  fun h => ⟨one (cmd_part h), no, no⟩
theorem reqQuery (c : Cmd) : Statement (.reqQuery c) :=
  fun h => ⟨one (cmd_part h), no, no⟩
theorem tenantBind (c : Cmd) : Statement (.tenantBind c) :=
  fun h => ⟨one (cmd_part h), no, no⟩
theorem tenantCredit (c : Cmd) : Statement (.tenantCredit c) :=
  fun h => ⟨one (cmd_part h), no, no⟩
theorem tenantDrain (c : Cmd) : Statement (.tenantDrain c) :=
  fun h => ⟨one (cmd_part h), no, no⟩
theorem tenantReserve (c : Cmd) : Statement (.tenantReserve c) :=
  fun h => ⟨one (cmd_part h), no, no⟩
theorem tenantUnbind (c : Cmd) : Statement (.tenantUnbind c) :=
  fun h => ⟨one (cmd_part h), no, no⟩
theorem tenantQuery (c : Cmd) : Statement (.tenantQuery c) :=
  fun h => ⟨one (cmd_part h), no, no⟩
theorem acornMake (c : Cmd) : Statement (.acornMake c) :=
  fun h => ⟨one (cmd_part h), no, no⟩
theorem acornTake (c : Cmd) : Statement (.acornTake c) :=
  fun h => ⟨one (cmd_part h), no, no⟩
theorem acornDrop (c : Cmd) : Statement (.acornDrop c) :=
  fun h => ⟨one (cmd_part h), no, no⟩
theorem variantReg (c : Cmd) : Statement (.variantReg c) :=
  fun h => ⟨one (cmd_part h), no, no⟩
theorem variantDrop (c : Cmd) : Statement (.variantDrop c) :=
  fun h => ⟨one (cmd_part h), no, no⟩
theorem trainOpen (c : Cmd) : Statement (.trainOpen c) :=
  fun h => ⟨one (cmd_part h), no, no⟩
theorem trainForward (c : Cmd) : Statement (.trainForward c) :=
  fun h => ⟨one (cmd_part h), no, no⟩
theorem trainBackward (c : Cmd) : Statement (.trainBackward c) :=
  fun h => ⟨one (cmd_part h), no, no⟩
theorem trainNorm (c : Cmd) : Statement (.trainNorm c) :=
  fun h => ⟨one (cmd_part h), no, no⟩
theorem trainUpdate (c : Cmd) : Statement (.trainUpdate c) :=
  fun h => ⟨one (cmd_part h), no, no⟩
theorem trainClose (c : Cmd) : Statement (.trainClose c) :=
  fun h => ⟨one (cmd_part h), no, no⟩
theorem maskPrune (c : Cmd) : Statement (.maskPrune c) :=
  fun h => ⟨one (cmd_part h), no, no⟩
theorem maskGrow (c : Cmd) : Statement (.maskGrow c) :=
  fun h => ⟨one (cmd_part h), no, no⟩
theorem maskBarrier (c : Cmd) : Statement (.maskBarrier c) :=
  fun h => ⟨one (cmd_part h), no, no⟩
theorem maskDiscard (c : Cmd) : Statement (.maskDiscard c) :=
  fun h => ⟨one (cmd_part h), no, no⟩
theorem maskStatus (c : Cmd) : Statement (.maskStatus c) :=
  fun h => ⟨one (cmd_part h), no, no⟩
theorem mbxDoorbell (src : BitVec 4) (part : Nat) (v : Word) : Statement (.mbxDoorbell src part v) :=
  fun h => ⟨one (of_decide_eq_true h), no, no⟩
theorem mbxAck (src : BitVec 4) (part : Nat) (v : Word) : Statement (.mbxAck src part v) :=
  fun h => ⟨one (of_decide_eq_true h), no, no⟩
theorem mbxIrqStatus (src : BitVec 4) (part : Nat) (v : Word) : Statement (.mbxIrqStatus src part v) :=
  fun h => ⟨one (of_decide_eq_true h), no, no⟩
theorem mbxIrqEn (src : BitVec 4) (part : Nat) (v : Word) : Statement (.mbxIrqEn src part v) :=
  fun h => ⟨one (of_decide_eq_true h), no, no⟩
theorem cqCfg (src : BitVec 4) (part : Nat) (v : Word) : Statement (.cqCfg src part v) :=
  fun h => ⟨one (of_decide_eq_true h), no, no⟩
theorem cqTail (src : BitVec 4) (part : Nat) (v : Word) : Statement (.cqTail src part v) :=
  fun h => ⟨one (of_decide_eq_true h), no, no⟩
theorem ccCons (src : BitVec 4) (part : Nat) (v : Word) : Statement (.ccCons src part v) :=
  fun h => ⟨one (of_decide_eq_true h), no, no⟩
theorem cqFetch (part : Nat) : Statement (.cqFetch part) :=
  fun h => ⟨one (of_decide_eq_true h), no, no⟩
theorem stepPeriod (src : BitVec 4) (v : Word) : Statement (.stepPeriod src v) :=
  fun _ => ⟨no, no, no⟩
theorem thawMaster (src : BitVec 4) (v : Word) : Statement (.thawMaster src v) :=
  fun _ => ⟨no, no, no⟩
theorem glbIrqStatus (src : BitVec 4) (v : Word) : Statement (.glbIrqStatus src v) :=
  fun _ => ⟨no, no, no⟩
theorem glbIrqEn (src : BitVec 4) (v : Word) : Statement (.glbIrqEn src v) :=
  fun _ => ⟨no, no, no⟩
theorem placeCtl (src : BitVec 4) (v : Word) : Statement (.placeCtl src v) :=
  fun _ => ⟨no, no, no⟩
theorem stcCfg (src : BitVec 4) (v : Word) : Statement (.stcCfg src v) :=
  fun _ => ⟨no, no, no⟩
theorem stkQuota (src : BitVec 4) (part : Nat) (v : Word) : Statement (.stkQuota src part v) :=
  fun h => ⟨one (of_decide_eq_true h), no, no⟩
theorem aclkCeil (src : BitVec 4) (v : Word) : Statement (.aclkCeil src v) :=
  fun _ => ⟨no, no, no⟩
theorem mgmtParts (src : BitVec 4) (v : Word) : Statement (.mgmtParts src v) :=
  fun _ => ⟨no, no, no⟩
theorem partKill (src : BitVec 4) (v : Word) : Statement (.partKill src v) :=
  fun _ => ⟨no, no, no⟩
theorem logBaseHi (src : BitVec 4) (v : Word) : Statement (.logBaseHi src v) :=
  fun _ => ⟨no, no, no⟩
theorem logCfg (src : BitVec 4) (v : Word) : Statement (.logCfg src v) :=
  fun _ => ⟨no, no, no⟩
theorem regWrite (src : BitVec 4) (offset : BitVec 16) (v : Word) : Statement (.regWrite src offset v) :=
  fun _ => ⟨no, no, no⟩
theorem dbgCtrl (src : BitVec 4) (v : Word) : Statement (.dbgCtrl src v) :=
  fun _ => ⟨no, no, no⟩
theorem dbgStep (src : BitVec 4) (v : Word) : Statement (.dbgStep src v) :=
  fun _ => ⟨no, no, no⟩
theorem dbgBp (src : BitVec 4) (n : Nat) (v : Word) : Statement (.dbgBp src n v) :=
  fun _ => ⟨no, no, no⟩
theorem dbgMemAddr (src : BitVec 4) (v : Word) : Statement (.dbgMemAddr src v) :=
  fun _ => ⟨no, no, no⟩
theorem dbgMemData (src : BitVec 4) (write : Bool) (v : Word) : Statement (.dbgMemData src write v) :=
  fun _ => ⟨no, no, no⟩
theorem breakpointHit (n : Nat) : Statement (.breakpointHit n) :=
  fun _ => ⟨no, no, no⟩
theorem tapReset : Statement (.tapReset) :=
  fun _ => ⟨no, no, no⟩
theorem tapIdcode : Statement (.tapIdcode) :=
  fun _ => ⟨no, no, no⟩
theorem tapDbgReg (write : Bool) (offset : BitVec 12) (v : Word) : Statement (.tapDbgReg write offset v) :=
  fun _ => ⟨no, no, no⟩
theorem tapUnlockCapture : Statement (.tapUnlockCapture) :=
  fun _ => ⟨no, no, no⟩
theorem tapUnlockUpdate (key sig : Bytes) : Statement (.tapUnlockUpdate key sig) :=
  fun _ => ⟨no, no, no⟩
theorem unlockDone : Statement (.unlockDone) :=
  fun _ => ⟨no, no, no⟩
theorem unlockHoldoffExpiry : Statement (.unlockHoldoffExpiry) :=
  fun _ => ⟨no, no, no⟩
theorem tapFuse (word : Nat) (value : BitVec 384) (vddFuse : Bool) : Statement (.tapFuse word value vddFuse) :=
  fun _ => ⟨no, no, no⟩
theorem hipRow (cls : HipClass) (beats : WithParity (List HipBeat)) : Statement (.hipRow cls beats) :=
  fun _ => ⟨no, no, no⟩
theorem hmpReadData (ch : RdCh) (tag : Nat) (resp : Resp) (beats : List Bytes) : Statement (.hmpReadData ch tag resp beats) :=
  fun _ => ⟨no, no, no⟩
theorem hmpWriteResponse (tag : Nat) (resp : Resp) : Statement (.hmpWriteResponse tag resp) :=
  fun _ => ⟨no, no, no⟩
theorem hmpRetry (tag : Nat) : Statement (.hmpRetry tag) :=
  fun _ => ⟨no, no, no⟩
theorem gbpCredit (ch : GbpCh) : Statement (.gbpCredit ch) :=
  fun _ => ⟨no, no, no⟩
theorem gbpAck (ch : GbpCh) : Statement (.gbpAck ch) :=
  fun _ => ⟨no, no, no⟩
theorem gbpSend (ch : GbpCh) : Statement (.gbpSend ch) :=
  fun _ => ⟨no, no, no⟩
theorem evtCredit : Statement (.evtCredit) :=
  fun _ => ⟨no, no, no⟩
theorem eventSend : Statement (.eventSend) :=
  fun _ => ⟨no, no, no⟩
theorem alarmSend : Statement (.alarmSend) :=
  fun _ => ⟨no, no, no⟩
theorem tickEmit : Statement (.tickEmit) :=
  fun _ => ⟨no, no, no⟩
theorem slipSilenceExpiry : Statement (.slipSilenceExpiry) :=
  fun _ => ⟨no, no, no⟩
theorem tick (m : TickMsg) : Statement (.tick m) :=
  fun h => ⟨no, one (of_decide_eq_true (left h)), no⟩
theorem ingestDeadline : Statement (.ingestDeadline) :=
  fun _ => ⟨no, no, no⟩
theorem sieveDeadline : Statement (.sieveDeadline) :=
  fun _ => ⟨no, no, no⟩
theorem mergeADeadline : Statement (.mergeADeadline) :=
  fun _ => ⟨no, no, no⟩
theorem mergeBDeadline : Statement (.mergeBDeadline) :=
  fun _ => ⟨no, no, no⟩
theorem drawDeadline : Statement (.drawDeadline) :=
  fun _ => ⟨no, no, no⟩
theorem commitEmit : Statement (.commitEmit) :=
  fun _ => ⟨no, no, no⟩
theorem commit (m : CommitMsg) : Statement (.commit m) :=
  fun h => ⟨no, one (of_decide_eq_true h), no⟩
theorem commitAck (step slice : Nat) : Statement (.commitAck step slice) :=
  fun h => ⟨no, one (of_decide_eq_true h), no⟩
theorem commitAckResend : Statement (.commitAckResend) :=
  fun _ => ⟨no, no, no⟩
theorem lateLimit (req : Nat) : Statement (.lateLimit req) :=
  fun _ => ⟨no, no, no⟩
theorem ringStallLimit (req : Nat) : Statement (.ringStallLimit req) :=
  fun _ => ⟨no, no, no⟩
theorem passDone (p : PassInfo) : Statement (.passDone p) :=
  fun _ => ⟨no, no, no⟩
theorem rowSieved (key : WithParity RowKey) : Statement (.rowSieved key) :=
  fun _ => ⟨no, no, no⟩
theorem maSum (src : Nat) (r : WithParity MaSum) : Statement (.maSum src r) :=
  fun h => ⟨no, one (of_decide_eq_true (left h)), no⟩
theorem maCut (r : MaCut) (parity : PipFault) : Statement (.maCut r parity) :=
  fun _ => ⟨no, no, no⟩
theorem mbShell (src : Nat) (r : WithParity MbShell) : Statement (.mbShell src r) :=
  fun h => ⟨no, one (of_decide_eq_true (left (left h))), no⟩
theorem mbEdge (r : MbEdge) (parity : PipFault) : Statement (.mbEdge r parity) :=
  fun _ => ⟨no, no, no⟩
theorem mdDraw (src : Nat) (r : MdDraw) : Statement (.mdDraw src r) :=
  fun h => ⟨no, one (of_decide_eq_true (left h)), no⟩
theorem trSum (src : Nat) (r : TrSum) : Statement (.trSum src r) :=
  fun h => ⟨no, one (of_decide_eq_true h), no⟩
theorem rsBegin (port : Nat) (r : RsBegin) : Statement (.rsBegin port r) :=
  fun h => ⟨no, no, one (of_decide_eq_true h)⟩
theorem rsFlit (port : Nat) (form : RsForm) (body : Bytes) : Statement (.rsFlit port form body) :=
  fun h => ⟨no, no, one (of_decide_eq_true h)⟩
theorem jarShare (src req : Nat) (records : List ChunkRec) : Statement (.jarShare src req records) :=
  fun h => ⟨no, one (of_decide_eq_true (left h)), no⟩
theorem huskDelta (d : HuskDelta) : Statement (.huskDelta d) :=
  fun h => ⟨no, one (of_decide_eq_true (left h)), no⟩
theorem huskDeltaAck (src step : Nat) : Statement (.huskDeltaAck src step) :=
  fun h => ⟨no, one (of_decide_eq_true h), no⟩
theorem hello (port : Nat) (x : Hello) : Statement (.hello port x) :=
  fun h => ⟨no, one (of_decide_eq_true (right h)), one (of_decide_eq_true (left h))⟩
theorem heartbeat (slice step : Nat) : Statement (.heartbeat slice step) :=
  fun h => ⟨no, one (of_decide_eq_true h), no⟩
theorem heartbeatSend : Statement (.heartbeatSend) :=
  fun _ => ⟨no, no, no⟩
theorem sliceLost (slice : Nat) : Statement (.sliceLost slice) :=
  fun h => ⟨no, one (of_decide_eq_true h), no⟩
theorem fwdCmd (f : FwdCmd) : Statement (.fwdCmd f) :=
  fun h => ⟨one (of_decide_eq_true (left h)), no, no⟩
theorem fwdResult (r : FwdResult) : Statement (.fwdResult r) :=
  fun _ => ⟨no, no, no⟩
theorem stateSync (m : SyncMsg) : Statement (.stateSync m) :=
  fun h => ⟨no, one (of_decide_eq_true h), no⟩
theorem partScrubDone (slice part : Nat) : Statement (.partScrubDone slice part) :=
  fun h => ⟨one (of_decide_eq_true (right h)), one (of_decide_eq_true (left h)), no⟩
theorem range (v : Nat) (table : List RangeEntry) : Statement (.range v table) :=
  fun _ => ⟨no, no, no⟩
theorem formPropose (b : FormBody) : Statement (.formPropose b) :=
  fun h => ⟨no, one (of_decide_eq_true h), no⟩
theorem formCommit (formId : Nat) : Statement (.formCommit formId) :=
  fun _ => ⟨no, no, no⟩
theorem formRefuse (slice : Nat) (reason : FormReason) : Statement (.formRefuse slice reason) :=
  fun h => ⟨no, one (of_decide_eq_true h), no⟩
theorem formKeys (k : WrappedKeys) : Statement (.formKeys k) :=
  fun h => ⟨one (of_decide_eq_true h), no, no⟩
theorem formDone (slice : Nat) : Statement (.formDone slice) :=
  fun h => ⟨no, one (of_decide_eq_true h), no⟩
theorem proposeRetry : Statement (.proposeRetry) :=
  fun _ => ⟨no, no, no⟩
theorem formWait : Statement (.formWait) :=
  fun _ => ⟨no, no, no⟩
theorem regroup (m : RegroupMsg) : Statement (.regroup m) :=
  fun _ => ⟨no, no, no⟩
theorem takeoverDone : Statement (.takeoverDone) :=
  fun _ => ⟨no, no, no⟩
theorem expel (slice : Nat) : Statement (.expel slice) :=
  fun h => ⟨no, one (of_decide_eq_true h), no⟩
theorem linkFlit (port lane : Nat) (flit : Bytes) (fecOk : Bool) : Statement (.linkFlit port lane flit fecOk) :=
  fun h => ⟨no, no, one (of_decide_eq_true (left (left h)))⟩
theorem replayTimeout (port : Nat) : Statement (.replayTimeout port) :=
  fun h => ⟨no, no, one (of_decide_eq_true h)⟩
theorem laneFail (port lane : Nat) : Statement (.laneFail port lane) :=
  fun h => ⟨no, no, one (of_decide_eq_true (left h))⟩
theorem laneSilence (port lane : Nat) : Statement (.laneSilence port lane) :=
  fun h => ⟨no, no, one (of_decide_eq_true (left h))⟩
theorem laneLock (port lane : Nat) : Statement (.laneLock port lane) :=
  fun h => ⟨no, no, one (of_decide_eq_true (left h))⟩
theorem trainTimeout (port : Nat) : Statement (.trainTimeout port) :=
  fun h => ⟨no, no, one (of_decide_eq_true h)⟩
theorem retrainTimeout (port : Nat) : Statement (.retrainTimeout port) :=
  fun h => ⟨no, no, one (of_decide_eq_true h)⟩
theorem portRetry (port : Nat) : Statement (.portRetry port) :=
  fun h => ⟨no, no, one (of_decide_eq_true h)⟩
theorem trainingSignal (port : Nat) : Statement (.trainingSignal port) :=
  fun h => ⟨no, no, one (of_decide_eq_true h)⟩
theorem blMargin (port lane : Nat) : Statement (.blMargin port lane) :=
  fun h => ⟨no, no, one (of_decide_eq_true (left h))⟩
theorem placementCopyDone (id : StripId) (pan : Nat) : Statement (.placementCopyDone id pan) :=
  fun h => ⟨one (of_decide_eq_true h), no, no⟩
theorem patrolScrub (loc : EccWhere) (kind : EccKind) : Statement (.patrolScrub loc kind) :=
  fun _ => ⟨no, no, no⟩
theorem largeSelectPass (part : Nat) (others : SelMerge) : Statement (.largeSelectPass part others) :=
  fun h => ⟨one (of_decide_eq_true h), no, no⟩
theorem forwardSlotDone : Statement (.forwardSlotDone) :=
  fun _ => ⟨no, no, no⟩
theorem backwardSlotDone (seq : Word) : Statement (.backwardSlotDone seq) :=
  fun _ => ⟨no, no, no⟩
theorem updateSlotDone (part session update bank : Nat) : Statement (.updateSlotDone part session update bank) :=
  fun h => ⟨one (of_decide_eq_true (left h)), no, no⟩
theorem watchdogExpiry : Statement (.watchdogExpiry) :=
  fun _ => ⟨no, no, no⟩
theorem whiskTrap : Statement (.whiskTrap) :=
  fun _ => ⟨no, no, no⟩
theorem whiskRestartDone (image : Bytes) (repairs : List DeltaEntry) : Statement (.whiskRestartDone image repairs) :=
  fun _ => ⟨no, no, no⟩
theorem reset (straps : BitVec 19) : Statement (.reset straps) :=
  fun _ => ⟨no, no, no⟩
theorem bootCheck (image : Bytes) : Statement (.bootCheck image) :=
  fun _ => ⟨no, no, no⟩
theorem entropyFail : Statement (.entropyFail) :=
  fun _ => ⟨no, no, no⟩
theorem pmPwrAck (domain : Nat) : Statement (.pmPwrAck domain) :=
  fun _ => ⟨no, no, no⟩
theorem pwrAckTimeout (domain : Nat) : Statement (.pwrAckTimeout domain) :=
  fun _ => ⟨no, no, no⟩
theorem pmFault (domain : Nat) : Statement (.pmFault domain) :=
  fun _ => ⟨no, no, no⟩
theorem pmVack (pair : Nat) : Statement (.pmVack pair) :=
  fun _ => ⟨no, no, no⟩
theorem pmAlertRise : Statement (.pmAlertRise) :=
  fun _ => ⟨no, no, no⟩
theorem pmAlertFall : Statement (.pmAlertFall) :=
  fun _ => ⟨no, no, no⟩
theorem vfLoopEval (pair stretched cycles : Nat) (quiet : Bool) : Statement (.vfLoopEval pair stretched cycles quiet) :=
  fun _ => ⟨no, no, no⟩
theorem droop (pair : Nat) : Statement (.droop pair) :=
  fun _ => ⟨no, no, no⟩
theorem pwrEstUpdate : Statement (.pwrEstUpdate) :=
  fun _ => ⟨no, no, no⟩
theorem panIdleOff (pan : Nat) : Statement (.panIdleOff pan) :=
  fun _ => ⟨no, no, no⟩
theorem rstNAssert : Statement (.rstNAssert) :=
  fun _ => ⟨no, no, no⟩
theorem pllLockLoss : Statement (.pllLockLoss) :=
  fun _ => ⟨no, no, no⟩

end Sys2Proof.Laws.WellFormedRow
end

