-- ==== Sys2Proof/Laws/State.lean ====
section
/-! SUPPORT. What the shared updates of the state leave alone and what they write, one lemma for each field, so that no later proof unfolds
an update. The lemmas named `_shape` say once everything that an operation can do. -/

-- The proofs of this file are checked one after another: the whole package is one text under a limit on threads.
set_option Elab.async false

namespace Sys2Proof.Machine

/-- A trace event touches the telemetry and the counters only. -/
theorem trace_shape (a b c : Nat) (d : Word) (e : BitVec 64) (s : State) :
    trace a b c d e s = { s with tele := (trace a b c d e s).tele, cnt := (trace a b c d e s).cnt } := by
  unfold trace
  split
  · rfl
  · dsimp only; split <;> rfl

/-- An alarm touches the alarm queue, the counters and GLB_IRQ_STATUS.ALARM only. -/
theorem alarm_shape (n : Nat) (a : BitVec 64) (s : State) :
    alarm n a s = { s with
      tele := { s.tele with alarms := (alarm n a s).tele.alarms }
      cnt := (alarm n a s).cnt
      regs := { s.regs with irqStatus := s.regs.irqStatus ||| 1 } } := by
  unfold alarm; dsimp only [count]; split <;> rfl

/-- After an alarm an entry of its code waits in the queue. -/
theorem alarm_waits (n : Nat) (a : BitVec 64) (s : State) : ∃ x ∈ (alarm n a s).tele.alarms, x.code = n := by
  unfold alarm; dsimp only [count]; split
  · rename_i h
    simp only [List.any_eq_true, beq_iff_eq] at h
    obtain ⟨x, hx, he⟩ := h
    refine ⟨_, List.mem_map.2 ⟨x, hx, rfl⟩, ?_⟩
    simp [he]
  · exact ⟨_, List.mem_append_right _ (List.mem_singleton.2 rfl), rfl⟩

/-- A message to a slice appends to the messages that leave. -/
theorem send_shape (d : Nat) (m : Msg) (s : State) : send d m s = { s with link := { s.link with out := (send d m s).link.out } } := by
  unfold send; split <;> rfl

/-- A flooded message appends to the messages that leave. -/
theorem flood_shape (m : Msg) (s : State) : flood m s = { s with link := { s.link with out := (flood m s).link.out } } := by
  unfold flood; split <;> rfl

/-- A change announced is held here and flooded. -/
theorem announce_shape (n : Nat) (x : Sync) (s : State) :
    announce n x s = { s with held := s.held ++ [⟨me s, n, x⟩], link := { s.link with out := (announce n x s).link.out } } := by
  unfold announce; dsimp only; rw [flood_shape]

/-- What a message to a slice appends. -/
theorem send_out (d : Nat) (m : Msg) (s : State) : (send d m s).link.out = if d = me s then s.link.out else s.link.out ++ [⟨some d, m⟩] := by
  unfold send; split <;> rfl

/-- What a flooded message appends. -/
theorem flood_out (m : Msg) (s : State) : (flood m s).link.out = if (others s).isEmpty then s.link.out else s.link.out ++ [⟨none, m⟩] := by
  unfold flood; split <;> rfl

@[simp] theorem count_cnt (f : Counters → Counters) (s : State) : (count f s).cnt = f s.cnt := rfl
@[simp] theorem updReq_reqs (q : Nat) (f : ReqEntry → ReqEntry) (s : State) :
    (updReq q f s).reqs = updFirst (fun e => e.req == q) f s.reqs := rfl
@[simp] theorem updMerge_merges (k : RowKey) (f : Merge → Merge) (s : State) :
    (updMerge k f s).merges = updFirst (fun m => m.key == k) f s.merges := rfl
@[simp] theorem mbxIrq_mbx (p : Nat) (b : BitVec 5) (s : State) :
    (mbxIrq p b s).mbx = updAt s.mbx p fun m => { m with irqStatus := m.irqStatus ||| b } := rfl
@[simp] theorem await_eocia (op : Op) (c : Cmd) (n : Nat) (w : Wait) (s : State) :
    (await op c n w s).eocia = { s.eocia with pending := s.eocia.pending ++ [⟨op, c, n, w, [], 0⟩] } := rfl
@[simp] theorem alarm_irqStatus (n : Nat) (a : BitVec 64) (s : State) : (alarm n a s).regs.irqStatus = s.regs.irqStatus ||| 1 := by
  rw [alarm_shape]
@[simp] theorem announce_held (n : Nat) (x : Sync) (s : State) : (announce n x s).held = s.held ++ [⟨me s, n, x⟩] := by
  rw [announce_shape]

@[simp] theorem count_kit (f : Counters → Counters) (s : State) : (count f s).kit = s.kit := rfl
@[simp] theorem count_timer (f : Counters → Counters) (s : State) : (count f s).timer = s.timer := rfl
@[simp] theorem count_straps (f : Counters → Counters) (s : State) : (count f s).straps = s.straps := rfl
@[simp] theorem count_inReset (f : Counters → Counters) (s : State) : (count f s).inReset = s.inReset := rfl
@[simp] theorem count_regs (f : Counters → Counters) (s : State) : (count f s).regs = s.regs := rfl
@[simp] theorem count_mbx (f : Counters → Counters) (s : State) : (count f s).mbx = s.mbx := rfl
@[simp] theorem count_step (f : Counters → Counters) (s : State) : (count f s).step = s.step := rfl
@[simp] theorem count_group (f : Counters → Counters) (s : State) : (count f s).group = s.group := rfl
@[simp] theorem count_reqs (f : Counters → Counters) (s : State) : (count f s).reqs = s.reqs := rfl
@[simp] theorem count_rows (f : Counters → Counters) (s : State) : (count f s).rows = s.rows := rfl
@[simp] theorem count_merges (f : Counters → Counters) (s : State) : (count f s).merges = s.merges := rfl
@[simp] theorem count_verdicts (f : Counters → Counters) (s : State) : (count f s).verdicts = s.verdicts := rfl
@[simp] theorem count_held (f : Counters → Counters) (s : State) : (count f s).held = s.held := rfl
@[simp] theorem count_tenants (f : Counters → Counters) (s : State) : (count f s).tenants = s.tenants := rfl
@[simp] theorem count_masks (f : Counters → Counters) (s : State) : (count f s).masks = s.masks := rfl
@[simp] theorem count_biases (f : Counters → Counters) (s : State) : (count f s).biases = s.biases := rfl
@[simp] theorem count_acorns (f : Counters → Counters) (s : State) : (count f s).acorns = s.acorns := rfl
@[simp] theorem count_variants (f : Counters → Counters) (s : State) : (count f s).variants = s.variants := rfl
@[simp] theorem count_heads (f : Counters → Counters) (s : State) : (count f s).heads = s.heads := rfl
@[simp] theorem count_announced (f : Counters → Counters) (s : State) : (count f s).announced = s.announced := rfl
@[simp] theorem count_backings (f : Counters → Counters) (s : State) : (count f s).backings = s.backings := rfl
@[simp] theorem count_overlayImages (f : Counters → Counters) (s : State) : (count f s).overlayImages = s.overlayImages := rfl
@[simp] theorem count_pot (f : Counters → Counters) (s : State) : (count f s).pot = s.pot := rfl
@[simp] theorem count_hmp (f : Counters → Counters) (s : State) : (count f s).hmp = s.hmp := rfl
@[simp] theorem count_hipB (f : Counters → Counters) (s : State) : (count f s).hipB = s.hipB := rfl
@[simp] theorem count_hipL (f : Counters → Counters) (s : State) : (count f s).hipL = s.hipL := rfl
@[simp] theorem count_gbpA (f : Counters → Counters) (s : State) : (count f s).gbpA = s.gbpA := rfl
@[simp] theorem count_gbpB (f : Counters → Counters) (s : State) : (count f s).gbpB = s.gbpB := rfl
@[simp] theorem count_evt (f : Counters → Counters) (s : State) : (count f s).evt = s.evt := rfl
@[simp] theorem count_violations (f : Counters → Counters) (s : State) : (count f s).violations = s.violations := rfl
@[simp] theorem count_tele (f : Counters → Counters) (s : State) : (count f s).tele = s.tele := rfl
@[simp] theorem count_link (f : Counters → Counters) (s : State) : (count f s).link = s.link := rfl
@[simp] theorem count_whisk (f : Counters → Counters) (s : State) : (count f s).whisk = s.whisk := rfl
@[simp] theorem count_eocia (f : Counters → Counters) (s : State) : (count f s).eocia = s.eocia := rfl
@[simp] theorem count_training (f : Counters → Counters) (s : State) : (count f s).training = s.training := rfl
@[simp] theorem count_plans (f : Counters → Counters) (s : State) : (count f s).plans = s.plans := rfl
@[simp] theorem count_power (f : Counters → Counters) (s : State) : (count f s).power = s.power := rfl
@[simp] theorem count_place (f : Counters → Counters) (s : State) : (count f s).place = s.place := rfl
@[simp] theorem count_sec (f : Counters → Counters) (s : State) : (count f s).sec = s.sec := rfl
@[simp] theorem count_dbg (f : Counters → Counters) (s : State) : (count f s).dbg = s.dbg := rfl
@[simp] theorem count_keeper (f : Counters → Counters) (s : State) : (count f s).keeper = s.keeper := rfl
@[simp] theorem count_pipTable (f : Counters → Counters) (s : State) : (count f s).pipTable = s.pipTable := rfl
@[simp] theorem count_fresh (f : Counters → Counters) (s : State) : (count f s).fresh = s.fresh := rfl
@[simp] theorem count_pending (f : Counters → Counters) (s : State) : (count f s).pending = s.pending := rfl

@[simp] theorem updReq_kit (q : Nat) (f : ReqEntry → ReqEntry) (s : State) : (updReq q f s).kit = s.kit := rfl
@[simp] theorem updReq_timer (q : Nat) (f : ReqEntry → ReqEntry) (s : State) : (updReq q f s).timer = s.timer := rfl
@[simp] theorem updReq_straps (q : Nat) (f : ReqEntry → ReqEntry) (s : State) : (updReq q f s).straps = s.straps := rfl
@[simp] theorem updReq_inReset (q : Nat) (f : ReqEntry → ReqEntry) (s : State) : (updReq q f s).inReset = s.inReset := rfl
@[simp] theorem updReq_regs (q : Nat) (f : ReqEntry → ReqEntry) (s : State) : (updReq q f s).regs = s.regs := rfl
@[simp] theorem updReq_cnt (q : Nat) (f : ReqEntry → ReqEntry) (s : State) : (updReq q f s).cnt = s.cnt := rfl
@[simp] theorem updReq_mbx (q : Nat) (f : ReqEntry → ReqEntry) (s : State) : (updReq q f s).mbx = s.mbx := rfl
@[simp] theorem updReq_step (q : Nat) (f : ReqEntry → ReqEntry) (s : State) : (updReq q f s).step = s.step := rfl
@[simp] theorem updReq_group (q : Nat) (f : ReqEntry → ReqEntry) (s : State) : (updReq q f s).group = s.group := rfl
@[simp] theorem updReq_rows (q : Nat) (f : ReqEntry → ReqEntry) (s : State) : (updReq q f s).rows = s.rows := rfl
@[simp] theorem updReq_merges (q : Nat) (f : ReqEntry → ReqEntry) (s : State) : (updReq q f s).merges = s.merges := rfl
@[simp] theorem updReq_verdicts (q : Nat) (f : ReqEntry → ReqEntry) (s : State) : (updReq q f s).verdicts = s.verdicts := rfl
@[simp] theorem updReq_held (q : Nat) (f : ReqEntry → ReqEntry) (s : State) : (updReq q f s).held = s.held := rfl
@[simp] theorem updReq_tenants (q : Nat) (f : ReqEntry → ReqEntry) (s : State) : (updReq q f s).tenants = s.tenants := rfl
@[simp] theorem updReq_masks (q : Nat) (f : ReqEntry → ReqEntry) (s : State) : (updReq q f s).masks = s.masks := rfl
@[simp] theorem updReq_biases (q : Nat) (f : ReqEntry → ReqEntry) (s : State) : (updReq q f s).biases = s.biases := rfl
@[simp] theorem updReq_acorns (q : Nat) (f : ReqEntry → ReqEntry) (s : State) : (updReq q f s).acorns = s.acorns := rfl
@[simp] theorem updReq_variants (q : Nat) (f : ReqEntry → ReqEntry) (s : State) : (updReq q f s).variants = s.variants := rfl
@[simp] theorem updReq_heads (q : Nat) (f : ReqEntry → ReqEntry) (s : State) : (updReq q f s).heads = s.heads := rfl
@[simp] theorem updReq_announced (q : Nat) (f : ReqEntry → ReqEntry) (s : State) : (updReq q f s).announced = s.announced := rfl
@[simp] theorem updReq_backings (q : Nat) (f : ReqEntry → ReqEntry) (s : State) : (updReq q f s).backings = s.backings := rfl
@[simp] theorem updReq_overlayImages (q : Nat) (f : ReqEntry → ReqEntry) (s : State) : (updReq q f s).overlayImages = s.overlayImages := rfl
@[simp] theorem updReq_pot (q : Nat) (f : ReqEntry → ReqEntry) (s : State) : (updReq q f s).pot = s.pot := rfl
@[simp] theorem updReq_hmp (q : Nat) (f : ReqEntry → ReqEntry) (s : State) : (updReq q f s).hmp = s.hmp := rfl
@[simp] theorem updReq_hipB (q : Nat) (f : ReqEntry → ReqEntry) (s : State) : (updReq q f s).hipB = s.hipB := rfl
@[simp] theorem updReq_hipL (q : Nat) (f : ReqEntry → ReqEntry) (s : State) : (updReq q f s).hipL = s.hipL := rfl
@[simp] theorem updReq_gbpA (q : Nat) (f : ReqEntry → ReqEntry) (s : State) : (updReq q f s).gbpA = s.gbpA := rfl
@[simp] theorem updReq_gbpB (q : Nat) (f : ReqEntry → ReqEntry) (s : State) : (updReq q f s).gbpB = s.gbpB := rfl
@[simp] theorem updReq_evt (q : Nat) (f : ReqEntry → ReqEntry) (s : State) : (updReq q f s).evt = s.evt := rfl
@[simp] theorem updReq_violations (q : Nat) (f : ReqEntry → ReqEntry) (s : State) : (updReq q f s).violations = s.violations := rfl
@[simp] theorem updReq_tele (q : Nat) (f : ReqEntry → ReqEntry) (s : State) : (updReq q f s).tele = s.tele := rfl
@[simp] theorem updReq_link (q : Nat) (f : ReqEntry → ReqEntry) (s : State) : (updReq q f s).link = s.link := rfl
@[simp] theorem updReq_whisk (q : Nat) (f : ReqEntry → ReqEntry) (s : State) : (updReq q f s).whisk = s.whisk := rfl
@[simp] theorem updReq_eocia (q : Nat) (f : ReqEntry → ReqEntry) (s : State) : (updReq q f s).eocia = s.eocia := rfl
@[simp] theorem updReq_training (q : Nat) (f : ReqEntry → ReqEntry) (s : State) : (updReq q f s).training = s.training := rfl
@[simp] theorem updReq_plans (q : Nat) (f : ReqEntry → ReqEntry) (s : State) : (updReq q f s).plans = s.plans := rfl
@[simp] theorem updReq_power (q : Nat) (f : ReqEntry → ReqEntry) (s : State) : (updReq q f s).power = s.power := rfl
@[simp] theorem updReq_place (q : Nat) (f : ReqEntry → ReqEntry) (s : State) : (updReq q f s).place = s.place := rfl
@[simp] theorem updReq_sec (q : Nat) (f : ReqEntry → ReqEntry) (s : State) : (updReq q f s).sec = s.sec := rfl
@[simp] theorem updReq_dbg (q : Nat) (f : ReqEntry → ReqEntry) (s : State) : (updReq q f s).dbg = s.dbg := rfl
@[simp] theorem updReq_keeper (q : Nat) (f : ReqEntry → ReqEntry) (s : State) : (updReq q f s).keeper = s.keeper := rfl
@[simp] theorem updReq_pipTable (q : Nat) (f : ReqEntry → ReqEntry) (s : State) : (updReq q f s).pipTable = s.pipTable := rfl
@[simp] theorem updReq_fresh (q : Nat) (f : ReqEntry → ReqEntry) (s : State) : (updReq q f s).fresh = s.fresh := rfl
@[simp] theorem updReq_pending (q : Nat) (f : ReqEntry → ReqEntry) (s : State) : (updReq q f s).pending = s.pending := rfl

@[simp] theorem updMerge_kit (k : RowKey) (f : Merge → Merge) (s : State) : (updMerge k f s).kit = s.kit := rfl
@[simp] theorem updMerge_timer (k : RowKey) (f : Merge → Merge) (s : State) : (updMerge k f s).timer = s.timer := rfl
@[simp] theorem updMerge_straps (k : RowKey) (f : Merge → Merge) (s : State) : (updMerge k f s).straps = s.straps := rfl
@[simp] theorem updMerge_inReset (k : RowKey) (f : Merge → Merge) (s : State) : (updMerge k f s).inReset = s.inReset := rfl
@[simp] theorem updMerge_regs (k : RowKey) (f : Merge → Merge) (s : State) : (updMerge k f s).regs = s.regs := rfl
@[simp] theorem updMerge_cnt (k : RowKey) (f : Merge → Merge) (s : State) : (updMerge k f s).cnt = s.cnt := rfl
@[simp] theorem updMerge_mbx (k : RowKey) (f : Merge → Merge) (s : State) : (updMerge k f s).mbx = s.mbx := rfl
@[simp] theorem updMerge_step (k : RowKey) (f : Merge → Merge) (s : State) : (updMerge k f s).step = s.step := rfl
@[simp] theorem updMerge_group (k : RowKey) (f : Merge → Merge) (s : State) : (updMerge k f s).group = s.group := rfl
@[simp] theorem updMerge_reqs (k : RowKey) (f : Merge → Merge) (s : State) : (updMerge k f s).reqs = s.reqs := rfl
@[simp] theorem updMerge_rows (k : RowKey) (f : Merge → Merge) (s : State) : (updMerge k f s).rows = s.rows := rfl
@[simp] theorem updMerge_verdicts (k : RowKey) (f : Merge → Merge) (s : State) : (updMerge k f s).verdicts = s.verdicts := rfl
@[simp] theorem updMerge_held (k : RowKey) (f : Merge → Merge) (s : State) : (updMerge k f s).held = s.held := rfl
@[simp] theorem updMerge_tenants (k : RowKey) (f : Merge → Merge) (s : State) : (updMerge k f s).tenants = s.tenants := rfl
@[simp] theorem updMerge_masks (k : RowKey) (f : Merge → Merge) (s : State) : (updMerge k f s).masks = s.masks := rfl
@[simp] theorem updMerge_biases (k : RowKey) (f : Merge → Merge) (s : State) : (updMerge k f s).biases = s.biases := rfl
@[simp] theorem updMerge_acorns (k : RowKey) (f : Merge → Merge) (s : State) : (updMerge k f s).acorns = s.acorns := rfl
@[simp] theorem updMerge_variants (k : RowKey) (f : Merge → Merge) (s : State) : (updMerge k f s).variants = s.variants := rfl
@[simp] theorem updMerge_heads (k : RowKey) (f : Merge → Merge) (s : State) : (updMerge k f s).heads = s.heads := rfl
@[simp] theorem updMerge_announced (k : RowKey) (f : Merge → Merge) (s : State) : (updMerge k f s).announced = s.announced := rfl
@[simp] theorem updMerge_backings (k : RowKey) (f : Merge → Merge) (s : State) : (updMerge k f s).backings = s.backings := rfl
@[simp] theorem updMerge_overlayImages (k : RowKey) (f : Merge → Merge) (s : State) : (updMerge k f s).overlayImages = s.overlayImages := rfl
@[simp] theorem updMerge_pot (k : RowKey) (f : Merge → Merge) (s : State) : (updMerge k f s).pot = s.pot := rfl
@[simp] theorem updMerge_hmp (k : RowKey) (f : Merge → Merge) (s : State) : (updMerge k f s).hmp = s.hmp := rfl
@[simp] theorem updMerge_hipB (k : RowKey) (f : Merge → Merge) (s : State) : (updMerge k f s).hipB = s.hipB := rfl
@[simp] theorem updMerge_hipL (k : RowKey) (f : Merge → Merge) (s : State) : (updMerge k f s).hipL = s.hipL := rfl
@[simp] theorem updMerge_gbpA (k : RowKey) (f : Merge → Merge) (s : State) : (updMerge k f s).gbpA = s.gbpA := rfl
@[simp] theorem updMerge_gbpB (k : RowKey) (f : Merge → Merge) (s : State) : (updMerge k f s).gbpB = s.gbpB := rfl
@[simp] theorem updMerge_evt (k : RowKey) (f : Merge → Merge) (s : State) : (updMerge k f s).evt = s.evt := rfl
@[simp] theorem updMerge_violations (k : RowKey) (f : Merge → Merge) (s : State) : (updMerge k f s).violations = s.violations := rfl
@[simp] theorem updMerge_tele (k : RowKey) (f : Merge → Merge) (s : State) : (updMerge k f s).tele = s.tele := rfl
@[simp] theorem updMerge_link (k : RowKey) (f : Merge → Merge) (s : State) : (updMerge k f s).link = s.link := rfl
@[simp] theorem updMerge_whisk (k : RowKey) (f : Merge → Merge) (s : State) : (updMerge k f s).whisk = s.whisk := rfl
@[simp] theorem updMerge_eocia (k : RowKey) (f : Merge → Merge) (s : State) : (updMerge k f s).eocia = s.eocia := rfl
@[simp] theorem updMerge_training (k : RowKey) (f : Merge → Merge) (s : State) : (updMerge k f s).training = s.training := rfl
@[simp] theorem updMerge_plans (k : RowKey) (f : Merge → Merge) (s : State) : (updMerge k f s).plans = s.plans := rfl
@[simp] theorem updMerge_power (k : RowKey) (f : Merge → Merge) (s : State) : (updMerge k f s).power = s.power := rfl
@[simp] theorem updMerge_place (k : RowKey) (f : Merge → Merge) (s : State) : (updMerge k f s).place = s.place := rfl
@[simp] theorem updMerge_sec (k : RowKey) (f : Merge → Merge) (s : State) : (updMerge k f s).sec = s.sec := rfl
@[simp] theorem updMerge_dbg (k : RowKey) (f : Merge → Merge) (s : State) : (updMerge k f s).dbg = s.dbg := rfl
@[simp] theorem updMerge_keeper (k : RowKey) (f : Merge → Merge) (s : State) : (updMerge k f s).keeper = s.keeper := rfl
@[simp] theorem updMerge_pipTable (k : RowKey) (f : Merge → Merge) (s : State) : (updMerge k f s).pipTable = s.pipTable := rfl
@[simp] theorem updMerge_fresh (k : RowKey) (f : Merge → Merge) (s : State) : (updMerge k f s).fresh = s.fresh := rfl
@[simp] theorem updMerge_pending (k : RowKey) (f : Merge → Merge) (s : State) : (updMerge k f s).pending = s.pending := rfl

@[simp] theorem mbxIrq_kit (p : Nat) (b : BitVec 5) (s : State) : (mbxIrq p b s).kit = s.kit := rfl
@[simp] theorem mbxIrq_timer (p : Nat) (b : BitVec 5) (s : State) : (mbxIrq p b s).timer = s.timer := rfl
@[simp] theorem mbxIrq_straps (p : Nat) (b : BitVec 5) (s : State) : (mbxIrq p b s).straps = s.straps := rfl
@[simp] theorem mbxIrq_inReset (p : Nat) (b : BitVec 5) (s : State) : (mbxIrq p b s).inReset = s.inReset := rfl
@[simp] theorem mbxIrq_regs (p : Nat) (b : BitVec 5) (s : State) : (mbxIrq p b s).regs = s.regs := rfl
@[simp] theorem mbxIrq_cnt (p : Nat) (b : BitVec 5) (s : State) : (mbxIrq p b s).cnt = s.cnt := rfl
@[simp] theorem mbxIrq_step (p : Nat) (b : BitVec 5) (s : State) : (mbxIrq p b s).step = s.step := rfl
@[simp] theorem mbxIrq_group (p : Nat) (b : BitVec 5) (s : State) : (mbxIrq p b s).group = s.group := rfl
@[simp] theorem mbxIrq_reqs (p : Nat) (b : BitVec 5) (s : State) : (mbxIrq p b s).reqs = s.reqs := rfl
@[simp] theorem mbxIrq_rows (p : Nat) (b : BitVec 5) (s : State) : (mbxIrq p b s).rows = s.rows := rfl
@[simp] theorem mbxIrq_merges (p : Nat) (b : BitVec 5) (s : State) : (mbxIrq p b s).merges = s.merges := rfl
@[simp] theorem mbxIrq_verdicts (p : Nat) (b : BitVec 5) (s : State) : (mbxIrq p b s).verdicts = s.verdicts := rfl
@[simp] theorem mbxIrq_held (p : Nat) (b : BitVec 5) (s : State) : (mbxIrq p b s).held = s.held := rfl
@[simp] theorem mbxIrq_tenants (p : Nat) (b : BitVec 5) (s : State) : (mbxIrq p b s).tenants = s.tenants := rfl
@[simp] theorem mbxIrq_masks (p : Nat) (b : BitVec 5) (s : State) : (mbxIrq p b s).masks = s.masks := rfl
@[simp] theorem mbxIrq_biases (p : Nat) (b : BitVec 5) (s : State) : (mbxIrq p b s).biases = s.biases := rfl
@[simp] theorem mbxIrq_acorns (p : Nat) (b : BitVec 5) (s : State) : (mbxIrq p b s).acorns = s.acorns := rfl
@[simp] theorem mbxIrq_variants (p : Nat) (b : BitVec 5) (s : State) : (mbxIrq p b s).variants = s.variants := rfl
@[simp] theorem mbxIrq_heads (p : Nat) (b : BitVec 5) (s : State) : (mbxIrq p b s).heads = s.heads := rfl
@[simp] theorem mbxIrq_announced (p : Nat) (b : BitVec 5) (s : State) : (mbxIrq p b s).announced = s.announced := rfl
@[simp] theorem mbxIrq_backings (p : Nat) (b : BitVec 5) (s : State) : (mbxIrq p b s).backings = s.backings := rfl
@[simp] theorem mbxIrq_overlayImages (p : Nat) (b : BitVec 5) (s : State) : (mbxIrq p b s).overlayImages = s.overlayImages := rfl
@[simp] theorem mbxIrq_pot (p : Nat) (b : BitVec 5) (s : State) : (mbxIrq p b s).pot = s.pot := rfl
@[simp] theorem mbxIrq_hmp (p : Nat) (b : BitVec 5) (s : State) : (mbxIrq p b s).hmp = s.hmp := rfl
@[simp] theorem mbxIrq_hipB (p : Nat) (b : BitVec 5) (s : State) : (mbxIrq p b s).hipB = s.hipB := rfl
@[simp] theorem mbxIrq_hipL (p : Nat) (b : BitVec 5) (s : State) : (mbxIrq p b s).hipL = s.hipL := rfl
@[simp] theorem mbxIrq_gbpA (p : Nat) (b : BitVec 5) (s : State) : (mbxIrq p b s).gbpA = s.gbpA := rfl
@[simp] theorem mbxIrq_gbpB (p : Nat) (b : BitVec 5) (s : State) : (mbxIrq p b s).gbpB = s.gbpB := rfl
@[simp] theorem mbxIrq_evt (p : Nat) (b : BitVec 5) (s : State) : (mbxIrq p b s).evt = s.evt := rfl
@[simp] theorem mbxIrq_violations (p : Nat) (b : BitVec 5) (s : State) : (mbxIrq p b s).violations = s.violations := rfl
@[simp] theorem mbxIrq_tele (p : Nat) (b : BitVec 5) (s : State) : (mbxIrq p b s).tele = s.tele := rfl
@[simp] theorem mbxIrq_link (p : Nat) (b : BitVec 5) (s : State) : (mbxIrq p b s).link = s.link := rfl
@[simp] theorem mbxIrq_whisk (p : Nat) (b : BitVec 5) (s : State) : (mbxIrq p b s).whisk = s.whisk := rfl
@[simp] theorem mbxIrq_eocia (p : Nat) (b : BitVec 5) (s : State) : (mbxIrq p b s).eocia = s.eocia := rfl
@[simp] theorem mbxIrq_training (p : Nat) (b : BitVec 5) (s : State) : (mbxIrq p b s).training = s.training := rfl
@[simp] theorem mbxIrq_plans (p : Nat) (b : BitVec 5) (s : State) : (mbxIrq p b s).plans = s.plans := rfl
@[simp] theorem mbxIrq_power (p : Nat) (b : BitVec 5) (s : State) : (mbxIrq p b s).power = s.power := rfl
@[simp] theorem mbxIrq_place (p : Nat) (b : BitVec 5) (s : State) : (mbxIrq p b s).place = s.place := rfl
@[simp] theorem mbxIrq_sec (p : Nat) (b : BitVec 5) (s : State) : (mbxIrq p b s).sec = s.sec := rfl
@[simp] theorem mbxIrq_dbg (p : Nat) (b : BitVec 5) (s : State) : (mbxIrq p b s).dbg = s.dbg := rfl
@[simp] theorem mbxIrq_keeper (p : Nat) (b : BitVec 5) (s : State) : (mbxIrq p b s).keeper = s.keeper := rfl
@[simp] theorem mbxIrq_pipTable (p : Nat) (b : BitVec 5) (s : State) : (mbxIrq p b s).pipTable = s.pipTable := rfl
@[simp] theorem mbxIrq_fresh (p : Nat) (b : BitVec 5) (s : State) : (mbxIrq p b s).fresh = s.fresh := rfl
@[simp] theorem mbxIrq_pending (p : Nat) (b : BitVec 5) (s : State) : (mbxIrq p b s).pending = s.pending := rfl

@[simp] theorem await_kit (op : Op) (c : Cmd) (n : Nat) (w : Wait) (s : State) : (await op c n w s).kit = s.kit := rfl
@[simp] theorem await_timer (op : Op) (c : Cmd) (n : Nat) (w : Wait) (s : State) : (await op c n w s).timer = s.timer := rfl
@[simp] theorem await_straps (op : Op) (c : Cmd) (n : Nat) (w : Wait) (s : State) : (await op c n w s).straps = s.straps := rfl
@[simp] theorem await_inReset (op : Op) (c : Cmd) (n : Nat) (w : Wait) (s : State) : (await op c n w s).inReset = s.inReset := rfl
@[simp] theorem await_regs (op : Op) (c : Cmd) (n : Nat) (w : Wait) (s : State) : (await op c n w s).regs = s.regs := rfl
@[simp] theorem await_cnt (op : Op) (c : Cmd) (n : Nat) (w : Wait) (s : State) : (await op c n w s).cnt = s.cnt := rfl
@[simp] theorem await_mbx (op : Op) (c : Cmd) (n : Nat) (w : Wait) (s : State) : (await op c n w s).mbx = s.mbx := rfl
@[simp] theorem await_step (op : Op) (c : Cmd) (n : Nat) (w : Wait) (s : State) : (await op c n w s).step = s.step := rfl
@[simp] theorem await_group (op : Op) (c : Cmd) (n : Nat) (w : Wait) (s : State) : (await op c n w s).group = s.group := rfl
@[simp] theorem await_reqs (op : Op) (c : Cmd) (n : Nat) (w : Wait) (s : State) : (await op c n w s).reqs = s.reqs := rfl
@[simp] theorem await_rows (op : Op) (c : Cmd) (n : Nat) (w : Wait) (s : State) : (await op c n w s).rows = s.rows := rfl
@[simp] theorem await_merges (op : Op) (c : Cmd) (n : Nat) (w : Wait) (s : State) : (await op c n w s).merges = s.merges := rfl
@[simp] theorem await_verdicts (op : Op) (c : Cmd) (n : Nat) (w : Wait) (s : State) : (await op c n w s).verdicts = s.verdicts := rfl
@[simp] theorem await_held (op : Op) (c : Cmd) (n : Nat) (w : Wait) (s : State) : (await op c n w s).held = s.held := rfl
@[simp] theorem await_tenants (op : Op) (c : Cmd) (n : Nat) (w : Wait) (s : State) : (await op c n w s).tenants = s.tenants := rfl
@[simp] theorem await_masks (op : Op) (c : Cmd) (n : Nat) (w : Wait) (s : State) : (await op c n w s).masks = s.masks := rfl
@[simp] theorem await_biases (op : Op) (c : Cmd) (n : Nat) (w : Wait) (s : State) : (await op c n w s).biases = s.biases := rfl
@[simp] theorem await_acorns (op : Op) (c : Cmd) (n : Nat) (w : Wait) (s : State) : (await op c n w s).acorns = s.acorns := rfl
@[simp] theorem await_variants (op : Op) (c : Cmd) (n : Nat) (w : Wait) (s : State) : (await op c n w s).variants = s.variants := rfl
@[simp] theorem await_heads (op : Op) (c : Cmd) (n : Nat) (w : Wait) (s : State) : (await op c n w s).heads = s.heads := rfl
@[simp] theorem await_announced (op : Op) (c : Cmd) (n : Nat) (w : Wait) (s : State) : (await op c n w s).announced = s.announced := rfl
@[simp] theorem await_backings (op : Op) (c : Cmd) (n : Nat) (w : Wait) (s : State) : (await op c n w s).backings = s.backings := rfl
@[simp] theorem await_overlayImages (op : Op) (c : Cmd) (n : Nat) (w : Wait) (s : State) : (await op c n w s).overlayImages = s.overlayImages := rfl
@[simp] theorem await_pot (op : Op) (c : Cmd) (n : Nat) (w : Wait) (s : State) : (await op c n w s).pot = s.pot := rfl
@[simp] theorem await_hmp (op : Op) (c : Cmd) (n : Nat) (w : Wait) (s : State) : (await op c n w s).hmp = s.hmp := rfl
@[simp] theorem await_hipB (op : Op) (c : Cmd) (n : Nat) (w : Wait) (s : State) : (await op c n w s).hipB = s.hipB := rfl
@[simp] theorem await_hipL (op : Op) (c : Cmd) (n : Nat) (w : Wait) (s : State) : (await op c n w s).hipL = s.hipL := rfl
@[simp] theorem await_gbpA (op : Op) (c : Cmd) (n : Nat) (w : Wait) (s : State) : (await op c n w s).gbpA = s.gbpA := rfl
@[simp] theorem await_gbpB (op : Op) (c : Cmd) (n : Nat) (w : Wait) (s : State) : (await op c n w s).gbpB = s.gbpB := rfl
@[simp] theorem await_evt (op : Op) (c : Cmd) (n : Nat) (w : Wait) (s : State) : (await op c n w s).evt = s.evt := rfl
@[simp] theorem await_violations (op : Op) (c : Cmd) (n : Nat) (w : Wait) (s : State) : (await op c n w s).violations = s.violations := rfl
@[simp] theorem await_tele (op : Op) (c : Cmd) (n : Nat) (w : Wait) (s : State) : (await op c n w s).tele = s.tele := rfl
@[simp] theorem await_link (op : Op) (c : Cmd) (n : Nat) (w : Wait) (s : State) : (await op c n w s).link = s.link := rfl
@[simp] theorem await_whisk (op : Op) (c : Cmd) (n : Nat) (w : Wait) (s : State) : (await op c n w s).whisk = s.whisk := rfl
@[simp] theorem await_training (op : Op) (c : Cmd) (n : Nat) (w : Wait) (s : State) : (await op c n w s).training = s.training := rfl
@[simp] theorem await_plans (op : Op) (c : Cmd) (n : Nat) (w : Wait) (s : State) : (await op c n w s).plans = s.plans := rfl
@[simp] theorem await_power (op : Op) (c : Cmd) (n : Nat) (w : Wait) (s : State) : (await op c n w s).power = s.power := rfl
@[simp] theorem await_place (op : Op) (c : Cmd) (n : Nat) (w : Wait) (s : State) : (await op c n w s).place = s.place := rfl
@[simp] theorem await_sec (op : Op) (c : Cmd) (n : Nat) (w : Wait) (s : State) : (await op c n w s).sec = s.sec := rfl
@[simp] theorem await_dbg (op : Op) (c : Cmd) (n : Nat) (w : Wait) (s : State) : (await op c n w s).dbg = s.dbg := rfl
@[simp] theorem await_keeper (op : Op) (c : Cmd) (n : Nat) (w : Wait) (s : State) : (await op c n w s).keeper = s.keeper := rfl
@[simp] theorem await_pipTable (op : Op) (c : Cmd) (n : Nat) (w : Wait) (s : State) : (await op c n w s).pipTable = s.pipTable := rfl
@[simp] theorem await_fresh (op : Op) (c : Cmd) (n : Nat) (w : Wait) (s : State) : (await op c n w s).fresh = s.fresh := rfl
@[simp] theorem await_pending (op : Op) (c : Cmd) (n : Nat) (w : Wait) (s : State) : (await op c n w s).pending = s.pending := rfl

@[simp] theorem perf_kit (o n : Nat) (s : State) : (perf o n s).kit = s.kit := rfl
@[simp] theorem perf_timer (o n : Nat) (s : State) : (perf o n s).timer = s.timer := rfl
@[simp] theorem perf_straps (o n : Nat) (s : State) : (perf o n s).straps = s.straps := rfl
@[simp] theorem perf_inReset (o n : Nat) (s : State) : (perf o n s).inReset = s.inReset := rfl
@[simp] theorem perf_regs (o n : Nat) (s : State) : (perf o n s).regs = s.regs := rfl
@[simp] theorem perf_cnt (o n : Nat) (s : State) : (perf o n s).cnt = s.cnt := rfl
@[simp] theorem perf_mbx (o n : Nat) (s : State) : (perf o n s).mbx = s.mbx := rfl
@[simp] theorem perf_step (o n : Nat) (s : State) : (perf o n s).step = s.step := rfl
@[simp] theorem perf_group (o n : Nat) (s : State) : (perf o n s).group = s.group := rfl
@[simp] theorem perf_reqs (o n : Nat) (s : State) : (perf o n s).reqs = s.reqs := rfl
@[simp] theorem perf_rows (o n : Nat) (s : State) : (perf o n s).rows = s.rows := rfl
@[simp] theorem perf_merges (o n : Nat) (s : State) : (perf o n s).merges = s.merges := rfl
@[simp] theorem perf_verdicts (o n : Nat) (s : State) : (perf o n s).verdicts = s.verdicts := rfl
@[simp] theorem perf_held (o n : Nat) (s : State) : (perf o n s).held = s.held := rfl
@[simp] theorem perf_tenants (o n : Nat) (s : State) : (perf o n s).tenants = s.tenants := rfl
@[simp] theorem perf_masks (o n : Nat) (s : State) : (perf o n s).masks = s.masks := rfl
@[simp] theorem perf_biases (o n : Nat) (s : State) : (perf o n s).biases = s.biases := rfl
@[simp] theorem perf_acorns (o n : Nat) (s : State) : (perf o n s).acorns = s.acorns := rfl
@[simp] theorem perf_variants (o n : Nat) (s : State) : (perf o n s).variants = s.variants := rfl
@[simp] theorem perf_heads (o n : Nat) (s : State) : (perf o n s).heads = s.heads := rfl
@[simp] theorem perf_announced (o n : Nat) (s : State) : (perf o n s).announced = s.announced := rfl
@[simp] theorem perf_backings (o n : Nat) (s : State) : (perf o n s).backings = s.backings := rfl
@[simp] theorem perf_overlayImages (o n : Nat) (s : State) : (perf o n s).overlayImages = s.overlayImages := rfl
@[simp] theorem perf_pot (o n : Nat) (s : State) : (perf o n s).pot = s.pot := rfl
@[simp] theorem perf_hmp (o n : Nat) (s : State) : (perf o n s).hmp = s.hmp := rfl
@[simp] theorem perf_hipB (o n : Nat) (s : State) : (perf o n s).hipB = s.hipB := rfl
@[simp] theorem perf_hipL (o n : Nat) (s : State) : (perf o n s).hipL = s.hipL := rfl
@[simp] theorem perf_gbpA (o n : Nat) (s : State) : (perf o n s).gbpA = s.gbpA := rfl
@[simp] theorem perf_gbpB (o n : Nat) (s : State) : (perf o n s).gbpB = s.gbpB := rfl
@[simp] theorem perf_evt (o n : Nat) (s : State) : (perf o n s).evt = s.evt := rfl
@[simp] theorem perf_violations (o n : Nat) (s : State) : (perf o n s).violations = s.violations := rfl
@[simp] theorem perf_link (o n : Nat) (s : State) : (perf o n s).link = s.link := rfl
@[simp] theorem perf_whisk (o n : Nat) (s : State) : (perf o n s).whisk = s.whisk := rfl
@[simp] theorem perf_eocia (o n : Nat) (s : State) : (perf o n s).eocia = s.eocia := rfl
@[simp] theorem perf_training (o n : Nat) (s : State) : (perf o n s).training = s.training := rfl
@[simp] theorem perf_plans (o n : Nat) (s : State) : (perf o n s).plans = s.plans := rfl
@[simp] theorem perf_power (o n : Nat) (s : State) : (perf o n s).power = s.power := rfl
@[simp] theorem perf_place (o n : Nat) (s : State) : (perf o n s).place = s.place := rfl
@[simp] theorem perf_sec (o n : Nat) (s : State) : (perf o n s).sec = s.sec := rfl
@[simp] theorem perf_dbg (o n : Nat) (s : State) : (perf o n s).dbg = s.dbg := rfl
@[simp] theorem perf_keeper (o n : Nat) (s : State) : (perf o n s).keeper = s.keeper := rfl
@[simp] theorem perf_pipTable (o n : Nat) (s : State) : (perf o n s).pipTable = s.pipTable := rfl
@[simp] theorem perf_fresh (o n : Nat) (s : State) : (perf o n s).fresh = s.fresh := rfl
@[simp] theorem perf_pending (o n : Nat) (s : State) : (perf o n s).pending = s.pending := rfl

@[simp] theorem trace_kit (a b c : Nat) (d : Word) (e : BitVec 64) (s : State) : (trace a b c d e s).kit = s.kit := by rw [trace_shape]
@[simp] theorem trace_timer (a b c : Nat) (d : Word) (e : BitVec 64) (s : State) : (trace a b c d e s).timer = s.timer := by rw [trace_shape]
@[simp] theorem trace_straps (a b c : Nat) (d : Word) (e : BitVec 64) (s : State) : (trace a b c d e s).straps = s.straps := by rw [trace_shape]
@[simp] theorem trace_inReset (a b c : Nat) (d : Word) (e : BitVec 64) (s : State) : (trace a b c d e s).inReset = s.inReset := by rw [trace_shape]
@[simp] theorem trace_regs (a b c : Nat) (d : Word) (e : BitVec 64) (s : State) : (trace a b c d e s).regs = s.regs := by rw [trace_shape]
@[simp] theorem trace_mbx (a b c : Nat) (d : Word) (e : BitVec 64) (s : State) : (trace a b c d e s).mbx = s.mbx := by rw [trace_shape]
@[simp] theorem trace_step (a b c : Nat) (d : Word) (e : BitVec 64) (s : State) : (trace a b c d e s).step = s.step := by rw [trace_shape]
@[simp] theorem trace_group (a b c : Nat) (d : Word) (e : BitVec 64) (s : State) : (trace a b c d e s).group = s.group := by rw [trace_shape]
@[simp] theorem trace_reqs (a b c : Nat) (d : Word) (e : BitVec 64) (s : State) : (trace a b c d e s).reqs = s.reqs := by rw [trace_shape]
@[simp] theorem trace_rows (a b c : Nat) (d : Word) (e : BitVec 64) (s : State) : (trace a b c d e s).rows = s.rows := by rw [trace_shape]
@[simp] theorem trace_merges (a b c : Nat) (d : Word) (e : BitVec 64) (s : State) : (trace a b c d e s).merges = s.merges := by rw [trace_shape]
@[simp] theorem trace_verdicts (a b c : Nat) (d : Word) (e : BitVec 64) (s : State) : (trace a b c d e s).verdicts = s.verdicts := by rw [trace_shape]
@[simp] theorem trace_held (a b c : Nat) (d : Word) (e : BitVec 64) (s : State) : (trace a b c d e s).held = s.held := by rw [trace_shape]
@[simp] theorem trace_tenants (a b c : Nat) (d : Word) (e : BitVec 64) (s : State) : (trace a b c d e s).tenants = s.tenants := by rw [trace_shape]
@[simp] theorem trace_masks (a b c : Nat) (d : Word) (e : BitVec 64) (s : State) : (trace a b c d e s).masks = s.masks := by rw [trace_shape]
@[simp] theorem trace_biases (a b c : Nat) (d : Word) (e : BitVec 64) (s : State) : (trace a b c d e s).biases = s.biases := by rw [trace_shape]
@[simp] theorem trace_acorns (a b c : Nat) (d : Word) (e : BitVec 64) (s : State) : (trace a b c d e s).acorns = s.acorns := by rw [trace_shape]
@[simp] theorem trace_variants (a b c : Nat) (d : Word) (e : BitVec 64) (s : State) : (trace a b c d e s).variants = s.variants := by rw [trace_shape]
@[simp] theorem trace_heads (a b c : Nat) (d : Word) (e : BitVec 64) (s : State) : (trace a b c d e s).heads = s.heads := by rw [trace_shape]
@[simp] theorem trace_announced (a b c : Nat) (d : Word) (e : BitVec 64) (s : State) : (trace a b c d e s).announced = s.announced := by rw [trace_shape]
@[simp] theorem trace_backings (a b c : Nat) (d : Word) (e : BitVec 64) (s : State) : (trace a b c d e s).backings = s.backings := by rw [trace_shape]
@[simp] theorem trace_overlayImages (a b c : Nat) (d : Word) (e : BitVec 64) (s : State) : (trace a b c d e s).overlayImages = s.overlayImages := by rw [trace_shape]
@[simp] theorem trace_pot (a b c : Nat) (d : Word) (e : BitVec 64) (s : State) : (trace a b c d e s).pot = s.pot := by rw [trace_shape]
@[simp] theorem trace_hmp (a b c : Nat) (d : Word) (e : BitVec 64) (s : State) : (trace a b c d e s).hmp = s.hmp := by rw [trace_shape]
@[simp] theorem trace_hipB (a b c : Nat) (d : Word) (e : BitVec 64) (s : State) : (trace a b c d e s).hipB = s.hipB := by rw [trace_shape]
@[simp] theorem trace_hipL (a b c : Nat) (d : Word) (e : BitVec 64) (s : State) : (trace a b c d e s).hipL = s.hipL := by rw [trace_shape]
@[simp] theorem trace_gbpA (a b c : Nat) (d : Word) (e : BitVec 64) (s : State) : (trace a b c d e s).gbpA = s.gbpA := by rw [trace_shape]
@[simp] theorem trace_gbpB (a b c : Nat) (d : Word) (e : BitVec 64) (s : State) : (trace a b c d e s).gbpB = s.gbpB := by rw [trace_shape]
@[simp] theorem trace_evt (a b c : Nat) (d : Word) (e : BitVec 64) (s : State) : (trace a b c d e s).evt = s.evt := by rw [trace_shape]
@[simp] theorem trace_violations (a b c : Nat) (d : Word) (e : BitVec 64) (s : State) : (trace a b c d e s).violations = s.violations := by rw [trace_shape]
@[simp] theorem trace_link (a b c : Nat) (d : Word) (e : BitVec 64) (s : State) : (trace a b c d e s).link = s.link := by rw [trace_shape]
@[simp] theorem trace_whisk (a b c : Nat) (d : Word) (e : BitVec 64) (s : State) : (trace a b c d e s).whisk = s.whisk := by rw [trace_shape]
@[simp] theorem trace_eocia (a b c : Nat) (d : Word) (e : BitVec 64) (s : State) : (trace a b c d e s).eocia = s.eocia := by rw [trace_shape]
@[simp] theorem trace_training (a b c : Nat) (d : Word) (e : BitVec 64) (s : State) : (trace a b c d e s).training = s.training := by rw [trace_shape]
@[simp] theorem trace_plans (a b c : Nat) (d : Word) (e : BitVec 64) (s : State) : (trace a b c d e s).plans = s.plans := by rw [trace_shape]
@[simp] theorem trace_power (a b c : Nat) (d : Word) (e : BitVec 64) (s : State) : (trace a b c d e s).power = s.power := by rw [trace_shape]
@[simp] theorem trace_place (a b c : Nat) (d : Word) (e : BitVec 64) (s : State) : (trace a b c d e s).place = s.place := by rw [trace_shape]
@[simp] theorem trace_sec (a b c : Nat) (d : Word) (e : BitVec 64) (s : State) : (trace a b c d e s).sec = s.sec := by rw [trace_shape]
@[simp] theorem trace_dbg (a b c : Nat) (d : Word) (e : BitVec 64) (s : State) : (trace a b c d e s).dbg = s.dbg := by rw [trace_shape]
@[simp] theorem trace_keeper (a b c : Nat) (d : Word) (e : BitVec 64) (s : State) : (trace a b c d e s).keeper = s.keeper := by rw [trace_shape]
@[simp] theorem trace_pipTable (a b c : Nat) (d : Word) (e : BitVec 64) (s : State) : (trace a b c d e s).pipTable = s.pipTable := by rw [trace_shape]
@[simp] theorem trace_fresh (a b c : Nat) (d : Word) (e : BitVec 64) (s : State) : (trace a b c d e s).fresh = s.fresh := by rw [trace_shape]
@[simp] theorem trace_pending (a b c : Nat) (d : Word) (e : BitVec 64) (s : State) : (trace a b c d e s).pending = s.pending := by rw [trace_shape]

@[simp] theorem alarm_kit (n : Nat) (a : BitVec 64) (s : State) : (alarm n a s).kit = s.kit := by rw [alarm_shape]
@[simp] theorem alarm_timer (n : Nat) (a : BitVec 64) (s : State) : (alarm n a s).timer = s.timer := by rw [alarm_shape]
@[simp] theorem alarm_straps (n : Nat) (a : BitVec 64) (s : State) : (alarm n a s).straps = s.straps := by rw [alarm_shape]
@[simp] theorem alarm_inReset (n : Nat) (a : BitVec 64) (s : State) : (alarm n a s).inReset = s.inReset := by rw [alarm_shape]
@[simp] theorem alarm_mbx (n : Nat) (a : BitVec 64) (s : State) : (alarm n a s).mbx = s.mbx := by rw [alarm_shape]
@[simp] theorem alarm_step (n : Nat) (a : BitVec 64) (s : State) : (alarm n a s).step = s.step := by rw [alarm_shape]
@[simp] theorem alarm_group (n : Nat) (a : BitVec 64) (s : State) : (alarm n a s).group = s.group := by rw [alarm_shape]
@[simp] theorem alarm_reqs (n : Nat) (a : BitVec 64) (s : State) : (alarm n a s).reqs = s.reqs := by rw [alarm_shape]
@[simp] theorem alarm_rows (n : Nat) (a : BitVec 64) (s : State) : (alarm n a s).rows = s.rows := by rw [alarm_shape]
@[simp] theorem alarm_merges (n : Nat) (a : BitVec 64) (s : State) : (alarm n a s).merges = s.merges := by rw [alarm_shape]
@[simp] theorem alarm_verdicts (n : Nat) (a : BitVec 64) (s : State) : (alarm n a s).verdicts = s.verdicts := by rw [alarm_shape]
@[simp] theorem alarm_held (n : Nat) (a : BitVec 64) (s : State) : (alarm n a s).held = s.held := by rw [alarm_shape]
@[simp] theorem alarm_tenants (n : Nat) (a : BitVec 64) (s : State) : (alarm n a s).tenants = s.tenants := by rw [alarm_shape]
@[simp] theorem alarm_masks (n : Nat) (a : BitVec 64) (s : State) : (alarm n a s).masks = s.masks := by rw [alarm_shape]
@[simp] theorem alarm_biases (n : Nat) (a : BitVec 64) (s : State) : (alarm n a s).biases = s.biases := by rw [alarm_shape]
@[simp] theorem alarm_acorns (n : Nat) (a : BitVec 64) (s : State) : (alarm n a s).acorns = s.acorns := by rw [alarm_shape]
@[simp] theorem alarm_variants (n : Nat) (a : BitVec 64) (s : State) : (alarm n a s).variants = s.variants := by rw [alarm_shape]
@[simp] theorem alarm_heads (n : Nat) (a : BitVec 64) (s : State) : (alarm n a s).heads = s.heads := by rw [alarm_shape]
@[simp] theorem alarm_announced (n : Nat) (a : BitVec 64) (s : State) : (alarm n a s).announced = s.announced := by rw [alarm_shape]
@[simp] theorem alarm_backings (n : Nat) (a : BitVec 64) (s : State) : (alarm n a s).backings = s.backings := by rw [alarm_shape]
@[simp] theorem alarm_overlayImages (n : Nat) (a : BitVec 64) (s : State) : (alarm n a s).overlayImages = s.overlayImages := by rw [alarm_shape]
@[simp] theorem alarm_pot (n : Nat) (a : BitVec 64) (s : State) : (alarm n a s).pot = s.pot := by rw [alarm_shape]
@[simp] theorem alarm_hmp (n : Nat) (a : BitVec 64) (s : State) : (alarm n a s).hmp = s.hmp := by rw [alarm_shape]
@[simp] theorem alarm_hipB (n : Nat) (a : BitVec 64) (s : State) : (alarm n a s).hipB = s.hipB := by rw [alarm_shape]
@[simp] theorem alarm_hipL (n : Nat) (a : BitVec 64) (s : State) : (alarm n a s).hipL = s.hipL := by rw [alarm_shape]
@[simp] theorem alarm_gbpA (n : Nat) (a : BitVec 64) (s : State) : (alarm n a s).gbpA = s.gbpA := by rw [alarm_shape]
@[simp] theorem alarm_gbpB (n : Nat) (a : BitVec 64) (s : State) : (alarm n a s).gbpB = s.gbpB := by rw [alarm_shape]
@[simp] theorem alarm_evt (n : Nat) (a : BitVec 64) (s : State) : (alarm n a s).evt = s.evt := by rw [alarm_shape]
@[simp] theorem alarm_violations (n : Nat) (a : BitVec 64) (s : State) : (alarm n a s).violations = s.violations := by rw [alarm_shape]
@[simp] theorem alarm_link (n : Nat) (a : BitVec 64) (s : State) : (alarm n a s).link = s.link := by rw [alarm_shape]
@[simp] theorem alarm_whisk (n : Nat) (a : BitVec 64) (s : State) : (alarm n a s).whisk = s.whisk := by rw [alarm_shape]
@[simp] theorem alarm_eocia (n : Nat) (a : BitVec 64) (s : State) : (alarm n a s).eocia = s.eocia := by rw [alarm_shape]
@[simp] theorem alarm_training (n : Nat) (a : BitVec 64) (s : State) : (alarm n a s).training = s.training := by rw [alarm_shape]
@[simp] theorem alarm_plans (n : Nat) (a : BitVec 64) (s : State) : (alarm n a s).plans = s.plans := by rw [alarm_shape]
@[simp] theorem alarm_power (n : Nat) (a : BitVec 64) (s : State) : (alarm n a s).power = s.power := by rw [alarm_shape]
@[simp] theorem alarm_place (n : Nat) (a : BitVec 64) (s : State) : (alarm n a s).place = s.place := by rw [alarm_shape]
@[simp] theorem alarm_sec (n : Nat) (a : BitVec 64) (s : State) : (alarm n a s).sec = s.sec := by rw [alarm_shape]
@[simp] theorem alarm_dbg (n : Nat) (a : BitVec 64) (s : State) : (alarm n a s).dbg = s.dbg := by rw [alarm_shape]
@[simp] theorem alarm_keeper (n : Nat) (a : BitVec 64) (s : State) : (alarm n a s).keeper = s.keeper := by rw [alarm_shape]
@[simp] theorem alarm_pipTable (n : Nat) (a : BitVec 64) (s : State) : (alarm n a s).pipTable = s.pipTable := by rw [alarm_shape]
@[simp] theorem alarm_fresh (n : Nat) (a : BitVec 64) (s : State) : (alarm n a s).fresh = s.fresh := by rw [alarm_shape]
@[simp] theorem alarm_pending (n : Nat) (a : BitVec 64) (s : State) : (alarm n a s).pending = s.pending := by rw [alarm_shape]

@[simp] theorem send_kit (d : Nat) (m : Msg) (s : State) : (send d m s).kit = s.kit := by rw [send_shape]
@[simp] theorem send_timer (d : Nat) (m : Msg) (s : State) : (send d m s).timer = s.timer := by rw [send_shape]
@[simp] theorem send_straps (d : Nat) (m : Msg) (s : State) : (send d m s).straps = s.straps := by rw [send_shape]
@[simp] theorem send_inReset (d : Nat) (m : Msg) (s : State) : (send d m s).inReset = s.inReset := by rw [send_shape]
@[simp] theorem send_regs (d : Nat) (m : Msg) (s : State) : (send d m s).regs = s.regs := by rw [send_shape]
@[simp] theorem send_cnt (d : Nat) (m : Msg) (s : State) : (send d m s).cnt = s.cnt := by rw [send_shape]
@[simp] theorem send_mbx (d : Nat) (m : Msg) (s : State) : (send d m s).mbx = s.mbx := by rw [send_shape]
@[simp] theorem send_step (d : Nat) (m : Msg) (s : State) : (send d m s).step = s.step := by rw [send_shape]
@[simp] theorem send_group (d : Nat) (m : Msg) (s : State) : (send d m s).group = s.group := by rw [send_shape]
@[simp] theorem send_reqs (d : Nat) (m : Msg) (s : State) : (send d m s).reqs = s.reqs := by rw [send_shape]
@[simp] theorem send_rows (d : Nat) (m : Msg) (s : State) : (send d m s).rows = s.rows := by rw [send_shape]
@[simp] theorem send_merges (d : Nat) (m : Msg) (s : State) : (send d m s).merges = s.merges := by rw [send_shape]
@[simp] theorem send_verdicts (d : Nat) (m : Msg) (s : State) : (send d m s).verdicts = s.verdicts := by rw [send_shape]
@[simp] theorem send_held (d : Nat) (m : Msg) (s : State) : (send d m s).held = s.held := by rw [send_shape]
@[simp] theorem send_tenants (d : Nat) (m : Msg) (s : State) : (send d m s).tenants = s.tenants := by rw [send_shape]
@[simp] theorem send_masks (d : Nat) (m : Msg) (s : State) : (send d m s).masks = s.masks := by rw [send_shape]
@[simp] theorem send_biases (d : Nat) (m : Msg) (s : State) : (send d m s).biases = s.biases := by rw [send_shape]
@[simp] theorem send_acorns (d : Nat) (m : Msg) (s : State) : (send d m s).acorns = s.acorns := by rw [send_shape]
@[simp] theorem send_variants (d : Nat) (m : Msg) (s : State) : (send d m s).variants = s.variants := by rw [send_shape]
@[simp] theorem send_heads (d : Nat) (m : Msg) (s : State) : (send d m s).heads = s.heads := by rw [send_shape]
@[simp] theorem send_announced (d : Nat) (m : Msg) (s : State) : (send d m s).announced = s.announced := by rw [send_shape]
@[simp] theorem send_backings (d : Nat) (m : Msg) (s : State) : (send d m s).backings = s.backings := by rw [send_shape]
@[simp] theorem send_overlayImages (d : Nat) (m : Msg) (s : State) : (send d m s).overlayImages = s.overlayImages := by rw [send_shape]
@[simp] theorem send_pot (d : Nat) (m : Msg) (s : State) : (send d m s).pot = s.pot := by rw [send_shape]
@[simp] theorem send_hmp (d : Nat) (m : Msg) (s : State) : (send d m s).hmp = s.hmp := by rw [send_shape]
@[simp] theorem send_hipB (d : Nat) (m : Msg) (s : State) : (send d m s).hipB = s.hipB := by rw [send_shape]
@[simp] theorem send_hipL (d : Nat) (m : Msg) (s : State) : (send d m s).hipL = s.hipL := by rw [send_shape]
@[simp] theorem send_gbpA (d : Nat) (m : Msg) (s : State) : (send d m s).gbpA = s.gbpA := by rw [send_shape]
@[simp] theorem send_gbpB (d : Nat) (m : Msg) (s : State) : (send d m s).gbpB = s.gbpB := by rw [send_shape]
@[simp] theorem send_evt (d : Nat) (m : Msg) (s : State) : (send d m s).evt = s.evt := by rw [send_shape]
@[simp] theorem send_violations (d : Nat) (m : Msg) (s : State) : (send d m s).violations = s.violations := by rw [send_shape]
@[simp] theorem send_tele (d : Nat) (m : Msg) (s : State) : (send d m s).tele = s.tele := by rw [send_shape]
@[simp] theorem send_whisk (d : Nat) (m : Msg) (s : State) : (send d m s).whisk = s.whisk := by rw [send_shape]
@[simp] theorem send_eocia (d : Nat) (m : Msg) (s : State) : (send d m s).eocia = s.eocia := by rw [send_shape]
@[simp] theorem send_training (d : Nat) (m : Msg) (s : State) : (send d m s).training = s.training := by rw [send_shape]
@[simp] theorem send_plans (d : Nat) (m : Msg) (s : State) : (send d m s).plans = s.plans := by rw [send_shape]
@[simp] theorem send_power (d : Nat) (m : Msg) (s : State) : (send d m s).power = s.power := by rw [send_shape]
@[simp] theorem send_place (d : Nat) (m : Msg) (s : State) : (send d m s).place = s.place := by rw [send_shape]
@[simp] theorem send_sec (d : Nat) (m : Msg) (s : State) : (send d m s).sec = s.sec := by rw [send_shape]
@[simp] theorem send_dbg (d : Nat) (m : Msg) (s : State) : (send d m s).dbg = s.dbg := by rw [send_shape]
@[simp] theorem send_keeper (d : Nat) (m : Msg) (s : State) : (send d m s).keeper = s.keeper := by rw [send_shape]
@[simp] theorem send_pipTable (d : Nat) (m : Msg) (s : State) : (send d m s).pipTable = s.pipTable := by rw [send_shape]
@[simp] theorem send_fresh (d : Nat) (m : Msg) (s : State) : (send d m s).fresh = s.fresh := by rw [send_shape]
@[simp] theorem send_pending (d : Nat) (m : Msg) (s : State) : (send d m s).pending = s.pending := by rw [send_shape]

@[simp] theorem flood_kit (m : Msg) (s : State) : (flood m s).kit = s.kit := by rw [flood_shape]
@[simp] theorem flood_timer (m : Msg) (s : State) : (flood m s).timer = s.timer := by rw [flood_shape]
@[simp] theorem flood_straps (m : Msg) (s : State) : (flood m s).straps = s.straps := by rw [flood_shape]
@[simp] theorem flood_inReset (m : Msg) (s : State) : (flood m s).inReset = s.inReset := by rw [flood_shape]
@[simp] theorem flood_regs (m : Msg) (s : State) : (flood m s).regs = s.regs := by rw [flood_shape]
@[simp] theorem flood_cnt (m : Msg) (s : State) : (flood m s).cnt = s.cnt := by rw [flood_shape]
@[simp] theorem flood_mbx (m : Msg) (s : State) : (flood m s).mbx = s.mbx := by rw [flood_shape]
@[simp] theorem flood_step (m : Msg) (s : State) : (flood m s).step = s.step := by rw [flood_shape]
@[simp] theorem flood_group (m : Msg) (s : State) : (flood m s).group = s.group := by rw [flood_shape]
@[simp] theorem flood_reqs (m : Msg) (s : State) : (flood m s).reqs = s.reqs := by rw [flood_shape]
@[simp] theorem flood_rows (m : Msg) (s : State) : (flood m s).rows = s.rows := by rw [flood_shape]
@[simp] theorem flood_merges (m : Msg) (s : State) : (flood m s).merges = s.merges := by rw [flood_shape]
@[simp] theorem flood_verdicts (m : Msg) (s : State) : (flood m s).verdicts = s.verdicts := by rw [flood_shape]
@[simp] theorem flood_held (m : Msg) (s : State) : (flood m s).held = s.held := by rw [flood_shape]
@[simp] theorem flood_tenants (m : Msg) (s : State) : (flood m s).tenants = s.tenants := by rw [flood_shape]
@[simp] theorem flood_masks (m : Msg) (s : State) : (flood m s).masks = s.masks := by rw [flood_shape]
@[simp] theorem flood_biases (m : Msg) (s : State) : (flood m s).biases = s.biases := by rw [flood_shape]
@[simp] theorem flood_acorns (m : Msg) (s : State) : (flood m s).acorns = s.acorns := by rw [flood_shape]
@[simp] theorem flood_variants (m : Msg) (s : State) : (flood m s).variants = s.variants := by rw [flood_shape]
@[simp] theorem flood_heads (m : Msg) (s : State) : (flood m s).heads = s.heads := by rw [flood_shape]
@[simp] theorem flood_announced (m : Msg) (s : State) : (flood m s).announced = s.announced := by rw [flood_shape]
@[simp] theorem flood_backings (m : Msg) (s : State) : (flood m s).backings = s.backings := by rw [flood_shape]
@[simp] theorem flood_overlayImages (m : Msg) (s : State) : (flood m s).overlayImages = s.overlayImages := by rw [flood_shape]
@[simp] theorem flood_pot (m : Msg) (s : State) : (flood m s).pot = s.pot := by rw [flood_shape]
@[simp] theorem flood_hmp (m : Msg) (s : State) : (flood m s).hmp = s.hmp := by rw [flood_shape]
@[simp] theorem flood_hipB (m : Msg) (s : State) : (flood m s).hipB = s.hipB := by rw [flood_shape]
@[simp] theorem flood_hipL (m : Msg) (s : State) : (flood m s).hipL = s.hipL := by rw [flood_shape]
@[simp] theorem flood_gbpA (m : Msg) (s : State) : (flood m s).gbpA = s.gbpA := by rw [flood_shape]
@[simp] theorem flood_gbpB (m : Msg) (s : State) : (flood m s).gbpB = s.gbpB := by rw [flood_shape]
@[simp] theorem flood_evt (m : Msg) (s : State) : (flood m s).evt = s.evt := by rw [flood_shape]
@[simp] theorem flood_violations (m : Msg) (s : State) : (flood m s).violations = s.violations := by rw [flood_shape]
@[simp] theorem flood_tele (m : Msg) (s : State) : (flood m s).tele = s.tele := by rw [flood_shape]
@[simp] theorem flood_whisk (m : Msg) (s : State) : (flood m s).whisk = s.whisk := by rw [flood_shape]
@[simp] theorem flood_eocia (m : Msg) (s : State) : (flood m s).eocia = s.eocia := by rw [flood_shape]
@[simp] theorem flood_training (m : Msg) (s : State) : (flood m s).training = s.training := by rw [flood_shape]
@[simp] theorem flood_plans (m : Msg) (s : State) : (flood m s).plans = s.plans := by rw [flood_shape]
@[simp] theorem flood_power (m : Msg) (s : State) : (flood m s).power = s.power := by rw [flood_shape]
@[simp] theorem flood_place (m : Msg) (s : State) : (flood m s).place = s.place := by rw [flood_shape]
@[simp] theorem flood_sec (m : Msg) (s : State) : (flood m s).sec = s.sec := by rw [flood_shape]
@[simp] theorem flood_dbg (m : Msg) (s : State) : (flood m s).dbg = s.dbg := by rw [flood_shape]
@[simp] theorem flood_keeper (m : Msg) (s : State) : (flood m s).keeper = s.keeper := by rw [flood_shape]
@[simp] theorem flood_pipTable (m : Msg) (s : State) : (flood m s).pipTable = s.pipTable := by rw [flood_shape]
@[simp] theorem flood_fresh (m : Msg) (s : State) : (flood m s).fresh = s.fresh := by rw [flood_shape]
@[simp] theorem flood_pending (m : Msg) (s : State) : (flood m s).pending = s.pending := by rw [flood_shape]

@[simp] theorem announceOut_kit (n : Nat) (x : Sync) (s : State) : (announceOut n x s).kit = s.kit := by rw [announceOut, flood_shape]
@[simp] theorem announceOut_timer (n : Nat) (x : Sync) (s : State) : (announceOut n x s).timer = s.timer := by rw [announceOut, flood_shape]
@[simp] theorem announceOut_straps (n : Nat) (x : Sync) (s : State) : (announceOut n x s).straps = s.straps := by rw [announceOut, flood_shape]
@[simp] theorem announceOut_inReset (n : Nat) (x : Sync) (s : State) : (announceOut n x s).inReset = s.inReset := by rw [announceOut, flood_shape]
@[simp] theorem announceOut_regs (n : Nat) (x : Sync) (s : State) : (announceOut n x s).regs = s.regs := by rw [announceOut, flood_shape]
@[simp] theorem announceOut_cnt (n : Nat) (x : Sync) (s : State) : (announceOut n x s).cnt = s.cnt := by rw [announceOut, flood_shape]
@[simp] theorem announceOut_mbx (n : Nat) (x : Sync) (s : State) : (announceOut n x s).mbx = s.mbx := by rw [announceOut, flood_shape]
@[simp] theorem announceOut_step (n : Nat) (x : Sync) (s : State) : (announceOut n x s).step = s.step := by rw [announceOut, flood_shape]
@[simp] theorem announceOut_group (n : Nat) (x : Sync) (s : State) : (announceOut n x s).group = s.group := by rw [announceOut, flood_shape]
@[simp] theorem announceOut_reqs (n : Nat) (x : Sync) (s : State) : (announceOut n x s).reqs = s.reqs := by rw [announceOut, flood_shape]
@[simp] theorem announceOut_rows (n : Nat) (x : Sync) (s : State) : (announceOut n x s).rows = s.rows := by rw [announceOut, flood_shape]
@[simp] theorem announceOut_merges (n : Nat) (x : Sync) (s : State) : (announceOut n x s).merges = s.merges := by rw [announceOut, flood_shape]
@[simp] theorem announceOut_verdicts (n : Nat) (x : Sync) (s : State) : (announceOut n x s).verdicts = s.verdicts := by rw [announceOut, flood_shape]
@[simp] theorem announceOut_held (n : Nat) (x : Sync) (s : State) : (announceOut n x s).held = s.held := by rw [announceOut, flood_shape]
@[simp] theorem announceOut_tenants (n : Nat) (x : Sync) (s : State) : (announceOut n x s).tenants = s.tenants := by rw [announceOut, flood_shape]
@[simp] theorem announceOut_masks (n : Nat) (x : Sync) (s : State) : (announceOut n x s).masks = s.masks := by rw [announceOut, flood_shape]
@[simp] theorem announceOut_biases (n : Nat) (x : Sync) (s : State) : (announceOut n x s).biases = s.biases := by rw [announceOut, flood_shape]
@[simp] theorem announceOut_acorns (n : Nat) (x : Sync) (s : State) : (announceOut n x s).acorns = s.acorns := by rw [announceOut, flood_shape]
@[simp] theorem announceOut_variants (n : Nat) (x : Sync) (s : State) : (announceOut n x s).variants = s.variants := by rw [announceOut, flood_shape]
@[simp] theorem announceOut_heads (n : Nat) (x : Sync) (s : State) : (announceOut n x s).heads = s.heads := by rw [announceOut, flood_shape]
@[simp] theorem announceOut_announced (n : Nat) (x : Sync) (s : State) : (announceOut n x s).announced = s.announced := by rw [announceOut, flood_shape]
@[simp] theorem announceOut_backings (n : Nat) (x : Sync) (s : State) : (announceOut n x s).backings = s.backings := by rw [announceOut, flood_shape]
@[simp] theorem announceOut_overlayImages (n : Nat) (x : Sync) (s : State) : (announceOut n x s).overlayImages = s.overlayImages := by rw [announceOut, flood_shape]
@[simp] theorem announceOut_pot (n : Nat) (x : Sync) (s : State) : (announceOut n x s).pot = s.pot := by rw [announceOut, flood_shape]
@[simp] theorem announceOut_hmp (n : Nat) (x : Sync) (s : State) : (announceOut n x s).hmp = s.hmp := by rw [announceOut, flood_shape]
@[simp] theorem announceOut_hipB (n : Nat) (x : Sync) (s : State) : (announceOut n x s).hipB = s.hipB := by rw [announceOut, flood_shape]
@[simp] theorem announceOut_hipL (n : Nat) (x : Sync) (s : State) : (announceOut n x s).hipL = s.hipL := by rw [announceOut, flood_shape]
@[simp] theorem announceOut_gbpA (n : Nat) (x : Sync) (s : State) : (announceOut n x s).gbpA = s.gbpA := by rw [announceOut, flood_shape]
@[simp] theorem announceOut_gbpB (n : Nat) (x : Sync) (s : State) : (announceOut n x s).gbpB = s.gbpB := by rw [announceOut, flood_shape]
@[simp] theorem announceOut_evt (n : Nat) (x : Sync) (s : State) : (announceOut n x s).evt = s.evt := by rw [announceOut, flood_shape]
@[simp] theorem announceOut_violations (n : Nat) (x : Sync) (s : State) : (announceOut n x s).violations = s.violations := by rw [announceOut, flood_shape]
@[simp] theorem announceOut_tele (n : Nat) (x : Sync) (s : State) : (announceOut n x s).tele = s.tele := by rw [announceOut, flood_shape]
@[simp] theorem announceOut_whisk (n : Nat) (x : Sync) (s : State) : (announceOut n x s).whisk = s.whisk := by rw [announceOut, flood_shape]
@[simp] theorem announceOut_eocia (n : Nat) (x : Sync) (s : State) : (announceOut n x s).eocia = s.eocia := by rw [announceOut, flood_shape]
@[simp] theorem announceOut_training (n : Nat) (x : Sync) (s : State) : (announceOut n x s).training = s.training := by rw [announceOut, flood_shape]
@[simp] theorem announceOut_plans (n : Nat) (x : Sync) (s : State) : (announceOut n x s).plans = s.plans := by rw [announceOut, flood_shape]
@[simp] theorem announceOut_power (n : Nat) (x : Sync) (s : State) : (announceOut n x s).power = s.power := by rw [announceOut, flood_shape]
@[simp] theorem announceOut_place (n : Nat) (x : Sync) (s : State) : (announceOut n x s).place = s.place := by rw [announceOut, flood_shape]
@[simp] theorem announceOut_sec (n : Nat) (x : Sync) (s : State) : (announceOut n x s).sec = s.sec := by rw [announceOut, flood_shape]
@[simp] theorem announceOut_dbg (n : Nat) (x : Sync) (s : State) : (announceOut n x s).dbg = s.dbg := by rw [announceOut, flood_shape]
@[simp] theorem announceOut_keeper (n : Nat) (x : Sync) (s : State) : (announceOut n x s).keeper = s.keeper := by rw [announceOut, flood_shape]
@[simp] theorem announceOut_pipTable (n : Nat) (x : Sync) (s : State) : (announceOut n x s).pipTable = s.pipTable := by rw [announceOut, flood_shape]
@[simp] theorem announceOut_fresh (n : Nat) (x : Sync) (s : State) : (announceOut n x s).fresh = s.fresh := by rw [announceOut, flood_shape]
@[simp] theorem announceOut_pending (n : Nat) (x : Sync) (s : State) : (announceOut n x s).pending = s.pending := by rw [announceOut, flood_shape]

@[simp] theorem announce_kit (n : Nat) (x : Sync) (s : State) : (announce n x s).kit = s.kit := by rw [announce_shape]
@[simp] theorem announce_timer (n : Nat) (x : Sync) (s : State) : (announce n x s).timer = s.timer := by rw [announce_shape]
@[simp] theorem announce_straps (n : Nat) (x : Sync) (s : State) : (announce n x s).straps = s.straps := by rw [announce_shape]
@[simp] theorem announce_inReset (n : Nat) (x : Sync) (s : State) : (announce n x s).inReset = s.inReset := by rw [announce_shape]
@[simp] theorem announce_regs (n : Nat) (x : Sync) (s : State) : (announce n x s).regs = s.regs := by rw [announce_shape]
@[simp] theorem announce_cnt (n : Nat) (x : Sync) (s : State) : (announce n x s).cnt = s.cnt := by rw [announce_shape]
@[simp] theorem announce_mbx (n : Nat) (x : Sync) (s : State) : (announce n x s).mbx = s.mbx := by rw [announce_shape]
@[simp] theorem announce_step (n : Nat) (x : Sync) (s : State) : (announce n x s).step = s.step := by rw [announce_shape]
@[simp] theorem announce_group (n : Nat) (x : Sync) (s : State) : (announce n x s).group = s.group := by rw [announce_shape]
@[simp] theorem announce_reqs (n : Nat) (x : Sync) (s : State) : (announce n x s).reqs = s.reqs := by rw [announce_shape]
@[simp] theorem announce_rows (n : Nat) (x : Sync) (s : State) : (announce n x s).rows = s.rows := by rw [announce_shape]
@[simp] theorem announce_merges (n : Nat) (x : Sync) (s : State) : (announce n x s).merges = s.merges := by rw [announce_shape]
@[simp] theorem announce_verdicts (n : Nat) (x : Sync) (s : State) : (announce n x s).verdicts = s.verdicts := by rw [announce_shape]
@[simp] theorem announce_tenants (n : Nat) (x : Sync) (s : State) : (announce n x s).tenants = s.tenants := by rw [announce_shape]
@[simp] theorem announce_masks (n : Nat) (x : Sync) (s : State) : (announce n x s).masks = s.masks := by rw [announce_shape]
@[simp] theorem announce_biases (n : Nat) (x : Sync) (s : State) : (announce n x s).biases = s.biases := by rw [announce_shape]
@[simp] theorem announce_acorns (n : Nat) (x : Sync) (s : State) : (announce n x s).acorns = s.acorns := by rw [announce_shape]
@[simp] theorem announce_variants (n : Nat) (x : Sync) (s : State) : (announce n x s).variants = s.variants := by rw [announce_shape]
@[simp] theorem announce_heads (n : Nat) (x : Sync) (s : State) : (announce n x s).heads = s.heads := by rw [announce_shape]
@[simp] theorem announce_announced (n : Nat) (x : Sync) (s : State) : (announce n x s).announced = s.announced := by rw [announce_shape]
@[simp] theorem announce_backings (n : Nat) (x : Sync) (s : State) : (announce n x s).backings = s.backings := by rw [announce_shape]
@[simp] theorem announce_overlayImages (n : Nat) (x : Sync) (s : State) : (announce n x s).overlayImages = s.overlayImages := by rw [announce_shape]
@[simp] theorem announce_pot (n : Nat) (x : Sync) (s : State) : (announce n x s).pot = s.pot := by rw [announce_shape]
@[simp] theorem announce_hmp (n : Nat) (x : Sync) (s : State) : (announce n x s).hmp = s.hmp := by rw [announce_shape]
@[simp] theorem announce_hipB (n : Nat) (x : Sync) (s : State) : (announce n x s).hipB = s.hipB := by rw [announce_shape]
@[simp] theorem announce_hipL (n : Nat) (x : Sync) (s : State) : (announce n x s).hipL = s.hipL := by rw [announce_shape]
@[simp] theorem announce_gbpA (n : Nat) (x : Sync) (s : State) : (announce n x s).gbpA = s.gbpA := by rw [announce_shape]
@[simp] theorem announce_gbpB (n : Nat) (x : Sync) (s : State) : (announce n x s).gbpB = s.gbpB := by rw [announce_shape]
@[simp] theorem announce_evt (n : Nat) (x : Sync) (s : State) : (announce n x s).evt = s.evt := by rw [announce_shape]
@[simp] theorem announce_violations (n : Nat) (x : Sync) (s : State) : (announce n x s).violations = s.violations := by rw [announce_shape]
@[simp] theorem announce_tele (n : Nat) (x : Sync) (s : State) : (announce n x s).tele = s.tele := by rw [announce_shape]
@[simp] theorem announce_whisk (n : Nat) (x : Sync) (s : State) : (announce n x s).whisk = s.whisk := by rw [announce_shape]
@[simp] theorem announce_eocia (n : Nat) (x : Sync) (s : State) : (announce n x s).eocia = s.eocia := by rw [announce_shape]
@[simp] theorem announce_training (n : Nat) (x : Sync) (s : State) : (announce n x s).training = s.training := by rw [announce_shape]
@[simp] theorem announce_plans (n : Nat) (x : Sync) (s : State) : (announce n x s).plans = s.plans := by rw [announce_shape]
@[simp] theorem announce_power (n : Nat) (x : Sync) (s : State) : (announce n x s).power = s.power := by rw [announce_shape]
@[simp] theorem announce_place (n : Nat) (x : Sync) (s : State) : (announce n x s).place = s.place := by rw [announce_shape]
@[simp] theorem announce_sec (n : Nat) (x : Sync) (s : State) : (announce n x s).sec = s.sec := by rw [announce_shape]
@[simp] theorem announce_dbg (n : Nat) (x : Sync) (s : State) : (announce n x s).dbg = s.dbg := by rw [announce_shape]
@[simp] theorem announce_keeper (n : Nat) (x : Sync) (s : State) : (announce n x s).keeper = s.keeper := by rw [announce_shape]
@[simp] theorem announce_pipTable (n : Nat) (x : Sync) (s : State) : (announce n x s).pipTable = s.pipTable := by rw [announce_shape]
@[simp] theorem announce_fresh (n : Nat) (x : Sync) (s : State) : (announce n x s).fresh = s.fresh := by rw [announce_shape]
@[simp] theorem announce_pending (n : Nat) (x : Sync) (s : State) : (announce n x s).pending = s.pending := by rw [announce_shape]

/-! ## The shared condition lists of the commands -/

/-- A list of refusals none of which holds refuses nothing (R325). -/
theorem refusals_nil {l : List (Bool × Status)} (h : ∀ x ∈ l, x.1 = false) : refusals l = [] := by
  unfold refusals
  rw [List.map_eq_nil_iff, List.filter_eq_nil_iff]
  intro x hx; simp [h x hx]

end Sys2Proof.Machine
end

