-- ==== Sys2Proof/Tests/Slice0.lean ====
section
/-! SUPPORT. Tests: an ill-formed command for each check of WellFormed; worked examples and tables of the spec; and, for every statement with
hypotheses, states and operands that meet them (theorems named `test_met_`, one for each clause). -/

-- The proofs of this file are checked one after another: the whole package is one text under a limit on threads.
set_option Elab.async false

namespace Sys2Proof.Tests

open Sys2Proof Sys2Proof.Machine Sys2Proof.Claims

/-! ## Ill-formed commands are refused -/

/-- A command of partition p with the given arguments, 14 in all. -/
def cmd (p : Nat) (l : List Word) : Cmd := ⟨p, .mailbox, 7, l ++ List.replicate (14 - l.length) 0⟩

theorem test_wf_part : (Instr.info (cmd 12 [])).wf = false ∧ (Instr.info (cmd 11 [])).wf = true := by decide
theorem test_wf_args : (Instr.info ⟨0, .mailbox, 0, []⟩).wf = false := by decide
theorem test_wf_origin : (Instr.info ⟨0, .fwd 64 0 false, 0, List.replicate 14 0⟩).wf = false := by decide
theorem test_wf_mailbox : (Instr.mbxDoorbell 15 12 1).wf = false ∧ (Instr.cqFetch 12).wf = false ∧ (Instr.stkQuota 15 12 0).wf = false := by decide
theorem test_wf_breakpoint : (Instr.dbgBp 15 4 0).wf = false ∧ (Instr.breakpointHit 4).wf = false := by decide
theorem test_wf_unlock : (Instr.tapUnlockUpdate [] []).wf = false := by decide
theorem test_wf_fuse : (Instr.tapFuse 5 0 true).wf = false := by decide
theorem test_wf_hip : (Instr.hipRow .bulk ⟨[⟨true, true, []⟩], .none⟩).wf = false := by decide
theorem test_wf_hmp : (Instr.hmpReadData .rda 512 .ok []).wf = false ∧ (Instr.hmpReadData .rda 0 .ok [[]]).wf = false
    ∧ (Instr.hmpWriteResponse 512 .ok).wf = false ∧ (Instr.hmpRetry 512).wf = false := by decide
theorem test_wf_tick : (Instr.tick ⟨1, 4000, 64⟩).wf = false ∧ (Instr.tick ⟨1, 2 ^ 32, 0⟩).wf = false ∧ (Instr.commit ⟨1, 64⟩).wf = false
    ∧ (Instr.commitAck 1 64).wf = false := by decide
theorem test_wf_limits : (Instr.lateLimit 16384).wf = false ∧ (Instr.ringStallLimit 16384).wf = false := by decide
theorem test_wf_rows : (Instr.passDone ⟨0, [], [⟨0, 64, false⟩], false⟩).wf = false ∧ (Instr.rowSieved ⟨⟨0, 64, false⟩, .none⟩).wf = false := by decide
theorem test_wf_sum : (Instr.maSum 64 ⟨(neutralA ⟨0, 0, false⟩ 0), .none⟩).wf = false
    ∧ (Instr.maSum 0 ⟨{ neutralA ⟨0, 0, false⟩ 0 with counts := [1], masses := true, mhi := [], mlo := [] }, .none⟩).wf = false
    ∧ (Instr.maSum 0 ⟨{ neutralA ⟨0, 0, false⟩ 0 with mhi := [0], masses := false }, .none⟩).wf = false := by decide
theorem test_wf_shell : (Instr.mbShell 64 ⟨(neutralB ⟨0, 0, false⟩ 0 0), .none⟩).wf = false ∧ (Instr.mbShell 0 ⟨(neutralB ⟨0, 64, false⟩ 0 0), .none⟩).wf = false := by decide
theorem test_wf_draws : (Instr.maCut ⟨⟨0, 64, false⟩, 0, 0, 0, 0, 0, 0, false⟩ .none).wf = false
    ∧ (Instr.mbEdge ⟨⟨0, 64, false⟩, 0, 0, 0, false, 0, 0, 0⟩ .none).wf = false ∧ (Instr.mdDraw 64 ⟨⟨0, 0, false⟩, 0, false, 0, 0⟩).wf = false
    ∧ (Instr.trSum 64 ⟨true, 0, 0, 0, 0, 0, 0, 0⟩).wf = false := by decide
theorem test_wf_ports : (Instr.rsBegin 4 ⟨0, false, 0, 0⟩).wf = false ∧ (Instr.rsFlit 4 .fast []).wf = false
    ∧ (Instr.hello 4 ⟨2, 3, 0, 1, 0, 0, 3, 7, 0, 0, 0, 0, 0⟩).wf = false ∧ (Instr.trainTimeout 4).wf = false ∧ (Instr.laneFail 0 2).wf = false
    ∧ (Instr.linkFlit 0 0 [] true).wf = false := by decide
theorem test_wf_slices : (Instr.jarShare 64 0 []).wf = false ∧ (Instr.huskDelta ⟨64, 0, true, []⟩).wf = false ∧ (Instr.heartbeat 64 0).wf = false
    ∧ (Instr.sliceLost 64).wf = false ∧ (Instr.stateSync ⟨64, 0, .stepEnd⟩).wf = false ∧ (Instr.partScrubDone 0 12).wf = false
    ∧ (Instr.formRefuse 64 .size).wf = false ∧ (Instr.formDone 64).wf = false ∧ (Instr.expel 64).wf = false
    ∧ (Instr.huskDeltaAck 64 0).wf = false ∧ (Instr.formPropose ⟨64, 1, 0, 0, 3, 7, 0, true, 0, 0⟩).wf = false := by decide
theorem test_wf_delta : (Instr.huskDelta ⟨0, 0, true, [⟨0, 0, .line, 0, []⟩]⟩).wf = false ∧ (Instr.whiskRestartDone [] [⟨0, 0, .line, 0, []⟩]).wf = false := by decide
theorem test_wf_forward : (Instr.fwdCmd ⟨12, false, 0, 1, 0, 0, []⟩).wf = false ∧ (Instr.fwdResult ⟨0, 0, 0, []⟩).wf = false := by decide
theorem test_wf_range : (Instr.range 256 [⟨65536, 1⟩]).wf = false := by decide
theorem test_wf_keys : (Instr.formKeys ⟨12, 1, []⟩).wf = false := by decide
theorem test_wf_work : (Instr.placementCopyDone ⟨12, 0, 0⟩ 0).wf = false ∧ (Instr.largeSelectPass 12 ⟨[], 0, []⟩).wf = false := by decide
theorem test_wf_power : (Instr.pmPwrAck 148).wf = false ∧ (Instr.pmVack 24).wf = false ∧ (Instr.vfLoopEval 24 0 0 true).wf = false
    ∧ (Instr.panIdleOff 48).wf = false := by decide

/-! ## Worked examples and tables of the spec -/

/-- The state with Whisk's image running. -/
def run : State := { State.reset with whisk := .running }

/-- One register of the state that a command leaves. -/
def after {α : Type} (c : Instr) (s : State) (f : State → α) : Option α :=
  match exec c s with
  | .next t => some (f t)
  | _ => none

/-- R330's example: only mask bit 18 is set, so MGMT_PARTS 0x001 becomes 0x005. -/
theorem test_mgmtParts_example : after (.mgmtParts 15 0x00040004) State.reset (·.regs.mgmtParts) = some 0x005 := by decide +kernel
/-- R336: a write of 610 stores 600. -/
theorem test_aclkCeil_example : after (.aclkCeil 15 610) State.reset (·.regs.aclkCeil) = some 600 := by decide +kernel
/-- R55: below 250 stores 250, above 65,000 stores 65,000. -/
theorem test_stepPeriod_low : after (.stepPeriod 15 249) State.reset (·.regs.stepPeriod) = some 250 := by decide +kernel
theorem test_stepPeriod_high : after (.stepPeriod 15 65001) State.reset (·.regs.stepPeriod) = some 65000 := by decide +kernel
/-- R103: a write of 0 stores 1. -/
theorem test_stcCfg_zero : after (.stcCfg 15 0) State.reset (·.regs.stcSteps) = some 1 := by decide +kernel
/-- R1, R334: VERSION reads 0x0003_0002. -/
theorem test_version : csrRead State.reset 0 = 0x00030002#32 := by decide +kernel
/-- Table 2.3: the keys of +0, of 2^20, of -2^20 and of -inf. -/
theorem test_keys : skey 0 = 0x80000000#32 ∧ skey 0x49800000 = 0xC9800000#32 ∧ skey 0xC9800000 = 0x367FFFFF#32 ∧ skey 0xFF800000 = 0x007FFFFF#32 := by
  decide +kernel
/-- R37: a NaN becomes -inf, +inf becomes 2^20. -/
theorem test_sanitise : sanitise 0x7FC00000 = 0xFF800000#32 ∧ sanitise 0x7F800000 = 0x49800000#32 := by decide +kernel
/-- R403: a fuse bit that is programmed stays. -/
theorem test_fuse_stays : after (.tapFuse 0 0 true) { State.reset with sec := { State.reset.sec with fuses := { Fuses.blank with lifecycle := 1 } } }
    (·.sec.fuses.lifecycle) = some 1 := by decide +kernel
/-- R307: a doorbell on a PENDING mailbox sets DB_LOST. -/
theorem test_doorbell_lost : after (.mbxDoorbell 15 0 1) { run with mbx := List.replicate 12 { Mailbox.reset with st := .pending } }
    (fun s => (mailbox s 0).irqStatus) = some 0b01000 := by decide +kernel
/-- R310: an order of 3 sets CQ_ERR and leaves EN at 0. -/
theorem test_cqCfg_order : after (.cqCfg 15 0 (1 + 3 * 2 + 4 * 32)) run (fun s => ((mailbox s 0).irqStatus, (mailbox s 0).cqEn)) = some (0b10000, false) := by
  decide +kernel
/-- Table 16.8: an order outside 6 to 20 leaves EN at 0. -/
theorem test_logCfg_order : after (.logCfg 15 (1 + 5 * 2)) State.reset (·.regs.logEn) = some false := by decide +kernel
/-- R394: only the partition's own agent or host software may kill it. -/
theorem test_partKill_confirm : after (.partKill 15 0x5C0A0000) run (·.regs.scrub) = some 0 := by decide +kernel
/-- Table 16.3: interrupt status is cleared by ones. -/
theorem test_irqStatus_w1c : after (.glbIrqStatus 15 0b00110) { State.reset with regs := { Regs.reset with irqStatus := 0b01110 } } (·.regs.irqStatus)
    = some 0b01000 := by decide +kernel


/-! ## States and operands that meet the hypotheses of the statements -/

theorem ready_of {op : Op} {c : Cmd} {s : State}
    (h : (eociaRuns s && !(behind op c s) && (target op c s == me s) && !(publishing s)
      && (if readsOnly op then s.eocia.awaitAck.isEmpty else (keeperOf s (me s)).isNone) && (commonRefusals op c s).isEmpty) = true) : Ready op c s := by
  simp only [Bool.and_eq_true, beq_iff_eq, Bool.not_eq_true', List.isEmpty_iff] at h
  refine ⟨h.1.1.1.1.1, h.1.1.1.1.2, h.1.1.1.2, h.1.1.2, ?_, h.2⟩
  have n := h.1.2
  constructor <;> intro r <;> simpa [r] using n

theorem ok_of {α β : Type} {x : Except α β} (h : x.toOption.isSome = true) : ∃ t, x = .ok t := by
  cases x with
  | ok t => exact ⟨t, rfl⟩
  | error _ => cases h

/-- A member 0 of a formed group of n, with Whisk running. -/
def member (n : Nat) : State := { run with group := { run.group with size := n, formed := true, solo := false, x := n, y := 1, vocab := 512,
                                                                       ranges := defaultRanges 512 n } }

def settings0 : Settings := ⟨0x3F800000, 1, false, 0, 0, 0x3F800000, 0, 0x3F800000, 0, 0⟩
def info0 : ReqInfo := ⟨0, false, 0, false, 3, 0, 0, 0, 10, [], 0, 4, 0, 0, settings0⟩

/-- Request 5 in a state. -/
def req0 (st : ReqState) : ReqEntry := { admitEntry 5 0 ⟨info0, 0, 0, none, [], false, 0, 1, 10, false, 0, 0, []⟩ with state := st }
def withReq (st : ReqState) : State := { run with reqs := [req0 st] }
def keys0 : KeySet := ⟨0, 1, [], [], [], 0, 0⟩
def desc0 : SessionDesc := ⟨3, true, false, 0, false, false, 0, 0, 0, 0, 0, 0, 0, 0⟩
def sess : Training := { Training.fresh 0 desc0 3 false 1 [] with backwards := 1, normDone := true }
def micro0 : Micro :=
  { desc := ⟨9, 128, 0, 0⟩, step := 0, mask := 0, targets := [], targetsRead := true, tiles := [], saved := [], records := [], losses := [],
    ownSum := none, gathered := [], headerDone := false, fwdCommitted := true, bwdStarted := false, rs := [], rsSent := [], beatToken := 0,
    bwdWritten := false, bwdReady := [], growing := false, accAsked := false, accVals := [], again := [] }
def withSess (t : Training) : State := { run with training := some t }
def headId0 : HeadId := ⟨1, 1, 1, 0, 0, 64⟩
def head0 : Head := { part := 0, id := headId0, area := 1, strips := [], next := none, overlays := [], nextOverlays := [], maskVersion := 0,
                      retired := [], lastPruned := 0, lastGrown := 0, newborn := [], places := [], rebuilding := [], coming := none }
/-- Every partition may own 64 blocks. -/
def roomy (s : State) : State := { s with regs := { s.regs with quota := List.replicate 12 64 } }

theorem test_met_IdleStep : State.reset.pending = [] := by decide
theorem test_met_EveryStepKeepsTheLimits : Machine.Inv State.reset ∧ ∃ t, step State.reset = .next t :=
  ⟨by unfold Machine.Inv PortsOk EvtOk HipOk GbpOk; decide, _, rfl⟩

theorem test_met_CommandsGo_waits : eociaRuns State.reset = false ∧ State.reset.eocia.inbox.contains (.info, cmd 0 []) = false := by decide
theorem test_met_CommandsGo_behind : let s := { run with eocia := { run.eocia with inbox := [(.variantReg, cmd 0 [1])] } };
    behind .info (cmd 0 []) s = true ∧ s.eocia.inbox.contains (.info, cmd 0 []) = false := by decide
theorem test_met_CommandsGo_reads : let s := { member 2 with eocia := { run.eocia with awaitAck := [(.variantReg, cmd 0 [1])] } };
    eociaRuns s = true ∧ behind .info (cmd 0 []) s = false ∧ target .info (cmd 0 []) s = me s ∧ readsOnly .info = true ∧ s.eocia.awaitAck ≠ [] := by decide
theorem test_met_CommandsGo_forwards : eociaRuns (member 2) = true ∧ behind .variantReg (cmd 1 [1]) (member 2) = false ∧ target .variantReg (cmd 1 [1]) (member 2) ≠ me (member 2) := by decide
theorem test_met_CommandsGo_keeper : eociaRuns (member 2) = true ∧ behind .variantReg (cmd 0 [1]) (member 2) = false ∧ target .variantReg (cmd 0 [1]) (member 2) = me (member 2)
    ∧ readsOnly .variantReg = false ∧ keeperOf (member 2) (me (member 2)) = some 1 := by decide
theorem test_met_CommandsGo_defers : let s := { run with step := { run.step with syncsDue := [0] } };
    eociaRuns s = true ∧ behind .variantReg (cmd 0 [1]) s = false ∧ target .variantReg (cmd 0 [1]) s = me s ∧ readsOnly .variantReg = false
      ∧ keeperOf s (me s) = none ∧ publishing s = true := by decide
theorem test_met_CommonRefusals_scrub : scrubbing { run with regs := { run.regs with scrub := 1 } } 0 = true := by decide
theorem test_met_CommonRefusals_denied : scrubbing run 1 = false ∧ opClass .sliceDrain = .m ∧ run.regs.mgmtParts.getLsbD 1 = false := by decide
theorem test_met_CommonRefusals_frozen : let s := { run with regs := { run.regs with frozenPart := 2 } };
    scrubbing s 1 = false ∧ opClass .info ≠ .m ∧ Op.info ≠ .fwStage ∧ partFrozen s 1 = true := by decide
theorem test_met_FirstRefusal : [Status.busy, Status.denied] ≠ [] ∧ firstRefusal [] = none ∧ firstRefusal [Status.busy, .denied] = some .denied := by decide
theorem test_met_Results_mailbox : eociaRuns run = true ∧ (cmd 0 []).origin = .mailbox ∧ (cmd 0 []).part < run.mbx.length
    ∧ (mailbox { run with mbx := List.replicate 12 { Mailbox.reset with st := .pending } } 0).st = .pending := by decide
theorem test_met_Results_forwarded : ({ cmd 0 [] with origin := .fwd 3 1 false } : Cmd).origin = .fwd 3 1 false ∧ 3 ≠ me run := by decide
theorem test_met_Results_queue : ({ cmd 0 [] with origin := .queue true } : Cmd).origin = .queue true ∧ scrubbing run 0 = false := by decide
theorem test_met_Queries_info : Ready .info (cmd 0 []) run := ready_of (by decide)
theorem test_met_Queries_pip : Ready .pipProbe (cmd 0 [0, 0, 0, 0x104]) run ∧ arg (cmd 0 [0, 0, 0, 0x104]) 3 < 512
    ∧ 1 ≤ arg (cmd 0 [0, 0, 0, 0x104]) 3 % 256 ∧ arg (cmd 0 [0, 0, 0, 0x104]) 3 % 256 ≤ 4 := ⟨ready_of (by decide), by decide⟩
theorem test_met_Queries_req : Ready .reqQuery (cmd 0 [5]) (withReq .active) ∧ arg (cmd 0 [5]) 0 < 16384
    ∧ reqOf (withReq .active) (arg (cmd 0 [5]) 0) = some (req0 .active) ∧ (req0 .active).info.part = (cmd 0 [5]).part := ⟨ready_of (by decide), by decide⟩
theorem test_met_Queries_tenant : Ready .tenantQuery (cmd 0 [1023]) run ∧ arg (cmd 0 [1023]) 0 < 1024
    ∧ ∀ t, tenantOf run (arg (cmd 0 [1023]) 0) = some t → t.bound = true → t.part = (cmd 0 [1023]).part :=
  ⟨ready_of (by decide), by decide, fun _ h => nomatch h⟩
theorem test_met_Queries_mask : Ready .maskStatus (cmd 0 []) (withSess sess) ∧ (withSess sess).training = some sess ∧ sess.part = (cmd 0 []).part :=
  ⟨ready_of (by decide), by decide⟩

def bound0 : State := { run with tenants := [⟨3, 0, true, 4, 100, 100, 0, 0, 0, 0⟩] }
theorem test_met_Tenant_bind : Ready .tenantBind (cmd 0 [3, 17]) run ∧ arg (cmd 0 [3, 17]) 0 < 1024
    ∧ (tenantRec run (arg (cmd 0 [3, 17]) 0)).bound = false ∧ 1 ≤ arg (cmd 0 [3, 17]) 1 ∧ arg (cmd 0 [3, 17]) 1 ≤ 17
    ∧ ∀ m ∈ run.held, ∀ p r, m.item ≠ .tenant (arg (cmd 0 [3, 17]) 0) (.bind p r) :=
  ⟨ready_of (by decide), by decide, by decide, by decide, by decide, fun _ h => nomatch h⟩
theorem test_met_Tenant_credit : Ready .tenantCredit (cmd 0 [3, 1]) bound0 ∧ (tenantRec bound0 (arg (cmd 0 [3, 1]) 0)).bound = true
    ∧ (tenantRec bound0 (arg (cmd 0 [3, 1]) 0)).part = 0 ∧ 1 ≤ arg (cmd 0 [3, 1]) 1
    ∧ (tenantRec bound0 (arg (cmd 0 [3, 1]) 0)).balance + pendingCredits bound0 (arg (cmd 0 [3, 1]) 0) + arg (cmd 0 [3, 1]) 1 ≤ 2 ^ 48 - 1 :=
  ⟨ready_of (by decide), by decide⟩
theorem test_met_Tenant_others : Ready .tenantDrain (cmd 0 [3, 1]) bound0 ∧ Ready .tenantReserve (cmd 0 [3, 17]) bound0 ∧ arg (cmd 0 [3, 17]) 1 ≤ 17
    ∧ Ready .tenantUnbind (cmd 0 [3]) bound0 ∧ tenantNamed bound0 (arg (cmd 0 [3]) 0) (stepNow bound0) = false :=
  ⟨ready_of (by decide), ready_of (by decide), by decide, ready_of (by decide), by decide⟩
theorem test_met_TenantChanges : (tenantRec run 3).bound = false ∧ tenantNamed run 3 0 = false ∧ tenantNamed (withReq .active) 0 0 = true := by decide

def acorn0 : State := { run with acorns := [⟨0, 7, 1, 0, [], [], true, false, []⟩], variants := [⟨0, 4095, 0, none⟩] }
theorem test_met_Acorn_make : Ready .acornMake (cmd 0 [1, 0, 0, 30720]) run ∧ (cmd 0 [1, 0, 0, 30720]).args.getD 0 0 ≠ 0
    ∧ arg (cmd 0 [1, 0, 0, 30720]) 3 ≤ 30720 ∧ acornsFull run 0 = false ∧ handleUsed run 0 1 = false := ⟨ready_of (by decide), by decide⟩
theorem test_met_Acorn_take : Ready .acornTake (cmd 0 [1, 5]) (withReq .active) ∧ arg (cmd 0 [1, 5]) 1 < 16384
    ∧ reqOf (withReq .active) (arg (cmd 0 [1, 5]) 1) = some (req0 .active) ∧ (req0 .active).state.terminal = false
    ∧ (req0 .active).cancelMark = false ∧ (req0 .active).state ≠ .draining ∧ (cmd 0 [1, 5]).args.getD 0 0 ≠ 0 ∧ acornsFull (withReq .active) 0 = false ∧ handleUsed (withReq .active) 0 1 = false :=
  ⟨ready_of (by decide), by decide⟩
theorem test_met_Acorn_drop : Ready .acornDrop (cmd 0 [7]) acorn0 ∧ (acornOf acorn0 0 7).isSome = true := ⟨ready_of (by decide), by decide⟩
theorem test_met_Variant_reg : Ready .variantReg (cmd 0 [4095]) run ∧ arg (cmd 0 [4095]) 0 < 4096 ∧ registered run 0 4095 = false
    ∧ (pendingRegs run 0).contains 4095 = false ∧ (run.variants.filter fun v => v.part == 0 && v.untilStep.isNone).length + (pendingRegs run 0).length < 64 := ⟨ready_of (by decide), by decide⟩
theorem test_met_Variant_drop : Ready .variantDrop (cmd 0 [4095]) acorn0 ∧ registered acorn0 0 4095 = true := ⟨ready_of (by decide), by decide⟩

theorem live_of {c : Cmd} {e : ReqEntry} {s : State}
    (h : (decide (arg c 0 < 16384) && reqOf s (arg c 0) == some e && e.info.part == c.part && !e.state.terminal && !e.cancelMark
      && e.state != .draining && e.evictStage == 0) = true) : Live c e s := by
  simp only [Bool.and_eq_true, decide_eq_true_eq, beq_iff_eq, bne_iff_ne, Bool.not_eq_true'] at h
  exact ⟨h.1.1.1.1.1.1, h.1.1.1.1.1.2, h.1.1.1.1.2, h.1.1.1.2, h.1.1.2, h.1.2, h.2⟩
def setArgs : Cmd := cmd 0 [5, 0x3F800000, 1, 0x3F800000, 0, 0x3F800000, 0, 0]
theorem test_met_Request_settings : Live setArgs (req0 .active) (withReq .active) ∧ Ready .reqSettings setArgs (withReq .active)
    ∧ field (arg setArgs 2) 12 4 = 0 ∧ settingsOk (withReq .active) 0 (argSettings setArgs) = true :=
  ⟨live_of (by decide), ready_of (by decide), by decide +kernel⟩
theorem test_met_Request_cancel : Live (cmd 0 [5]) (req0 .active) (withReq .active) ∧ Ready .reqCancel (cmd 0 [5]) (withReq .active)
    ∧ recordsLate (withReq .active) 5 = false ∧ Ready .reqPause (cmd 0 [5]) (withReq .active) ∧ (req0 .active).state ≠ .paused
    ∧ (req0 .active).state ≠ .admitted := ⟨live_of (by decide), ready_of (by decide), by decide, ready_of (by decide), by decide⟩
theorem test_met_Request_late : let e := { req0 .active with prod := 1 }; let s := { run with reqs := [e], step := { run.step with opened := true } };
    Live (cmd 0 [5]) e s ∧ Ready .reqCancel (cmd 0 [5]) s ∧ recordsLate s 5 = true := ⟨live_of (by decide), ready_of (by decide), by decide⟩
theorem test_met_Request_resume : Live (cmd 0 [5]) (req0 .paused) (withReq .paused) ∧ Ready .reqResume (cmd 0 [5]) (withReq .paused) :=
  ⟨live_of (by decide), ready_of (by decide)⟩
theorem test_met_Request_evict : let s := { withReq .paused with sec := { run.sec with keySets := [keys0] } };
    Live (cmd 0 [5]) (req0 .paused) s ∧ Ready .reqEvict (cmd 0 [5]) s ∧ argPair (cmd 0 [5]) 1 % 64 = 0
      ∧ ∃ k, keySetOf s 0 = some k ∧ k.husks < 2 ^ 32 - 1 := ⟨live_of (by decide), ready_of (by decide), by decide, keys0, by decide⟩
theorem test_met_Request_move : Live (cmd 0 [5, 0]) (req0 .active) (withReq .active) ∧ Ready .reqMove (cmd 0 [5, 0]) (withReq .active)
    ∧ arg (cmd 0 [5, 0]) 1 < groupSize (withReq .active) ∧ isHole (withReq .active) 0 = false := ⟨live_of (by decide), ready_of (by decide), by decide⟩

theorem test_met_Descriptors_admit : Ready .reqAdmit (cmd 0 [16383, 64]) run ∧ Ready .reqAdmitAcorn (cmd 0 [16383, 64]) run
    ∧ entryDenied run (cmd 0 [16383, 64]) = false ∧ argPair (cmd 0 [16383, 64]) 1 % 64 = 0 := ⟨ready_of (by decide), ready_of (by decide), by decide⟩
theorem test_met_Descriptors_husk : Ready .huskResume (cmd 0 [5]) run ∧ entryDenied run (cmd 0 [5]) = false := ⟨ready_of (by decide), by decide⟩
theorem test_met_Descriptors_training : Ready .trainOpen (cmd 0 [64]) run ∧ argPair (cmd 0 [64]) 0 % 64 = 0
    ∧ Ready .trainForward (cmd 0 [64]) (withSess sess) ∧ (withSess sess).training = some sess ∧ sess.part = (cmd 0 [64]).part := ⟨ready_of (by decide), by decide, ready_of (by decide), by decide⟩
theorem test_met_Descriptors_firmware : Ready .fwStage (cmd 0 [0, 0, 256]) run ∧ 256 ≤ arg (cmd 0 [0, 0, 256]) 2 := ⟨ready_of (by decide), by decide⟩
theorem test_met_Descriptors_range : Ready .rangeLoad (cmd 0 [64, 0, 4194304]) run ∧ run.group.formed = false
    ∧ arg (cmd 0 [64, 0, 4194304]) 2 ≤ 4194304 ∧ rangeBusy run = false := ⟨ready_of (by decide), by decide⟩
/-- Solo service over one chunk, with room for blocks. -/
def small : State := roomy { run with group := { run.group with soloRun := ⟨0, 1⟩, soloVocab := 256 } }
theorem test_met_Descriptors_head : let c := cmd 0 [0, 0, 64, 1];
    Ready .headLoad c small ∧ vocab small ≠ 0 ∧ arg c 2 ≠ 0 ∧ stripFirsts (loadRuns small) (vocab small) ≠ [] ∧ arg c 2 ≤ arg c 3 * 65536
      ∧ (stripFirsts (loadRuns small) (vocab small)).length ≤ 16384 ∧ headBusy small 0 = false
      ∧ ∃ t, allocBlocks 0 .head (arg c 3) (accepted .headLoad c small) = .ok t := ⟨ready_of (by decide), by decide +kernel, by decide, by decide +kernel, by decide, by decide +kernel, by decide, ok_of (by decide +kernel)⟩
theorem test_met_Descriptors_headBusy : let c := cmd 0 [0, 0, 64, 1]; let s := { small with heads := [head0] };
    Ready .headLoad c s ∧ headBusy s 0 = true ∧ (roomFor 0 .head (arg c 3) s).1 = [] := ⟨ready_of (by decide), by decide, by decide +kernel⟩
theorem test_met_Descriptors_overlay : let c := cmd 0 [0, 0, 64, 4095]; let s := { small with heads := [head0], variants := acorn0.variants };
    Ready .overlayLoad c s ∧ arg c 3 < 4096 ∧ arg c 2 ≠ 0 ∧ registered s 0 (arg c 3) = true ∧ (headOf s 0).isSome = true ∧ s.group.nextTable = none
      ∧ ∃ t, allocBlocks 0 (.overlay (arg c 3)) (ceilDiv (arg c 2) 65536) (accepted .overlayLoad c s) = .ok t :=
  ⟨ready_of (by decide), by decide, by decide, by decide, by decide, by decide, ok_of (by decide +kernel)⟩

theorem test_met_Backing : let c := cmd 0 [128, 0, 0, 16384, 11]; let s := { run with sec := { run.sec with keySets := [keys0] } };
    Ready .partBacking c s ∧ argPair c 0 % 128 = 0 ∧ arg c 2 < 16384 ∧ arg c 3 < 32768 ∧ arg c 4 ≤ 11 ∧ 1 ≤ arg c 3
      ∧ arg c 2 + arg c 3 ≤ 16384 ∧ (∀ e ∈ s.reqs, e.info.part ≠ 0) ∧ (keySetOf s 0).isSome = true :=
  ⟨ready_of (by decide), by decide⟩
theorem test_met_DefaultRanges : let c := cmd 0 [0, 0, 256]; Ready .rangeLoad c (member 1) ∧ (member 1).group.formed = true ∧ argPair c 0 = 0
    ∧ rangeBusy (member 1) = false ∧ tableOk true (arg c 2) (defaultRanges (arg c 2) (member 1).group.size) = true :=
  ⟨ready_of (by decide), by decide +kernel⟩
def objs0 : State := { run with masks := [⟨0, 255, some [], 0, none, 0, none, [], false⟩], biases := [⟨0, 255, some [], 0, 0, none, 0, 0, none, [], false⟩] }
theorem test_met_Objects_load : let c := cmd 0 [255, 0, 0, 4096]; Ready .mobjLoad c run ∧ Ready .biasLoad c run ∧ objLoading false 0 255 run = false
    ∧ objLoading true 0 255 run = false ∧ 1 ≤ arg c 0 ∧ arg c 0 < 256 ∧ 1 ≤ arg c 3 ∧ arg c 3 ≤ 4096 :=
  ⟨ready_of (by decide), ready_of (by decide), by decide⟩
theorem test_met_Objects_delete : Ready .mobjDelete (cmd 0 [255]) objs0 ∧ Ready .biasDelete (cmd 0 [255]) objs0 ∧ maskExists objs0 0 255 = true
    ∧ biasExists objs0 0 255 = true ∧ objNamed false 0 255 (stepNow objs0) objs0 = false ∧ objNamed true 0 255 (stepNow objs0) objs0 = false :=
  ⟨ready_of (by decide), ready_of (by decide), by decide⟩
theorem test_met_Unload : let s := { run with heads := [head0] }; Ready .headUnload (cmd 0 []) s ∧ (headOf s 0).isSome = true
    ∧ (∀ e ∈ s.reqs, e.info.part = 0 → e.info.scoreMode = true) ∧ sessionIn s 0 = false := ⟨ready_of (by decide), by decide⟩
theorem kept_of {op : Op} {c : Cmd} {k : Nat} {s : State}
    (h : (eociaRuns s && !(behind op c s) && (target op c s == me s) && !(publishing s) && !(readsOnly op) && (keeperOf s (me s) == some k)
      && (commonRefusals op c s).isEmpty && s.eocia.awaitAck.isEmpty && s.keeper.unacked.isEmpty) = true) : Kept op c k s := by
  simp only [Bool.and_eq_true, beq_iff_eq, Bool.not_eq_true', List.isEmpty_iff] at h
  exact ⟨h.1.1.1.1.1.1.1.1, h.1.1.1.1.1.1.1.2, h.1.1.1.1.1.1.2, h.1.1.1.1.1.2, h.1.1.1.1.2, h.1.1.1.2, h.1.1.2, h.1.2, h.2⟩
theorem test_met_CommandsGo_kept : Kept .variantReg (cmd 0 [1]) 1 (member 2) := kept_of (by decide)
theorem test_met_Drain : let s := member 3; Kept .sliceDrain (cmd 0 [2]) 1 s ∧ (members s).contains (arg (cmd 0 [2]) 0) = true ∧ 2 ≤ (members s).length
    ∧ reshaping s = false ∧ (∀ t, s.training = some t → t.micros = []) ∧ plansHeld s = false ∧ (divisionOf s (arg (cmd 0 [2]) 0)).2 = [] :=
  ⟨kept_of (by decide), by decide +kernel, by decide +kernel, by decide, (fun _ h => nomatch h), by decide, by decide +kernel⟩
theorem test_met_Rejoin : let s := { member 2 with group := { (member 2).group with idle := [1] } }; Kept .sliceRejoin (cmd 0 [1]) 1 s
    ∧ s.group.idle.contains (arg (cmd 0 [1]) 0) = true ∧ reshaping s = false ∧ (∀ p, p < 12 → headIdOf s p = none ∧ headOf s p = none)
    ∧ ∀ p, p < 12 → backingOf s (me s) p = none := ⟨kept_of (by decide), by decide, by decide, by decide +kernel, by decide +kernel⟩

def micro1 : Micro := { micro0 with desc := ⟨10, 128, 0, 0⟩, fwdCommitted := false }
def withMicro (m : Micro) : State := withSess { sess with micros := [m] }
def plan0 : Plan := Plan.fresh 0 true true 1
def withPlan (p : Plan) (t : Training) : State := { withSess t with plans := [p] }
def one : Word := 0x3F800000
theorem test_met_Training_backward : let s := withMicro micro0; let c := cmd 0 [9];
    s.training = some { sess with micros := [micro0] } ∧ sess.part = c.part ∧ Ready .trainBackward c s ∧ nextBackward s = some micro0
      ∧ micro0.desc.seq = c.args.getD 0 0 ∧ micro0.fwdCommitted = true ∧ updateRuns s = false ∧ sess.waitingBwd = none ∧ barrierWaits s = false :=
  ⟨rfl, rfl, ready_of (by decide), by decide⟩
theorem test_met_Training_norm : let s := withSess sess; let c := cmd 0 [32];
    Ready .trainNorm c s ∧ argPair c 0 % 32 = 0 ∧ sess.backwards ≠ 0 ∧ inFlight s = 0 ∧ sess.normBusy = false ∧ sess.updating = none :=
  ⟨ready_of (by decide), by decide⟩
theorem test_met_Training_update : let s := withSess sess; let c := cmd 0 [one, 0, 0, 0, 0, one, one, one];
    Ready .trainUpdate c s ∧ updateBad (updateArgs c) = false ∧ arg c 8 = 0 ∧ sess.backwards ≠ 0 ∧ inFlight s = 0 ∧ sess.normDone = true
      ∧ sess.normBusy = false ∧ normHeld s = false ∧ sess.waiting = none ∧ updateRuns s = false ∧ barrierWaits s = false := ⟨ready_of (by decide), by decide +kernel⟩
theorem test_met_Training_close : let s := withSess sess; Ready .trainClose (cmd 0 []) s ∧ inFlight s = 0 ∧ updateRuns s = false
    ∧ sess.waiting = none ∧ sess.waitingBwd = none ∧ sess.normBusy = false ∧ ∀ p ∈ s.plans, p.part ≠ (cmd 0 []).part := ⟨ready_of (by decide), by decide⟩
theorem test_met_Training_prune : let s := roomy (withSess sess); let c := cmd 0 [0, 3, 1];
    Ready .maskPrune c s ∧ staleVersion s c = false ∧ arg c 1 < 4 ∧ arg c 3 = 0 ∧ 1 ≤ arg c 2 ∧ arg c 2 ≤ 1048576 ∧ bitOf (arg c 1) 0 = true
      ∧ planHeld s c.part = none ∧ sess.barriered = false ∧ (∀ m ∈ s.held, ∀ a b k, m.item ≠ .maskPrune a b k)
      ∧ ∃ u, allocBlocks c.part .selection (2 * spillBlocks (arg c 2)) s = .ok u :=
  ⟨ready_of (by decide), by decide +kernel, by decide +kernel, by decide +kernel, by decide +kernel, by decide +kernel, by decide +kernel, by decide +kernel,
    rfl, (fun _ h => nomatch h), ok_of (by decide +kernel)⟩
theorem test_met_Training_grow : let p := { plan0 with st := .pruned }; let s := withPlan p { sess with micros := [micro0] }; let c := cmd 0 [0, 9];
    Ready .maskGrow c s ∧ staleVersion s c = false ∧ microOf s (c.args.getD 1 0) = some micro0 ∧ micro0.mask = maskVersionOf s c.part
      ∧ micro0.bwdStarted = false ∧ bwdHeld s (c.args.getD 1 0) = false ∧ planHeld s c.part = some p ∧ p.st = .pruned ∧ p.growSeq = none :=
  ⟨ready_of (by decide), by decide⟩
theorem test_met_Training_barrier : let p := { plan0 with st := .grown, updated := true }; let s := withPlan p sess; let c := cmd 0 [0, 1, one];
    Ready .maskBarrier c s ∧ staleVersion s c = false ∧ arg c 1 < 2 ∧ isFinite (c.args.getD 2 0) = true ∧ planHeld s c.part = some p
      ∧ p.st = .grown ∧ p.updated = true ∧ p.barrierWait = false ∧ updateRuns s = false ∧ Ready .maskDiscard c s :=
  ⟨ready_of (by decide), by decide, by decide, by decide, by decide, by decide, by decide, by decide, by decide, ready_of (by decide)⟩

def withMbx (m : Mailbox) : State := { run with mbx := m :: List.replicate 11 Mailbox.reset }
theorem test_met_Doorbell_rings : run.inReset = false ∧ 11 < run.mbx.length ∧ (11 : BitVec 4).toNat = 11 ∧ (mailbox run 11).st = .idle
    ∧ (1 : Word).getLsbD 0 = true ∧ (2 : Word).getLsbD 0 = false := by decide
theorem test_met_Doorbell_busy : let s := withMbx { Mailbox.reset with st := .done };
    s.inReset = false ∧ 0 < s.mbx.length ∧ (mailbox s 0).st ≠ .idle ∧ (1 : Word).getLsbD 0 = true := by decide
theorem test_met_Mailbox_ack : (mailbox (withMbx { Mailbox.reset with st := .done }) 0).st = .done ∧ (mailbox run 0).st ≠ .done := by decide
theorem test_met_Mailbox_rings : let m := { Mailbox.reset with cqEn := true, lqOrder := 4, lcOrder := 4 }; let s := withMbx m;
    ((16 : Word) - (mailbox s 0).cqHead).toNat ≤ 2 ^ (mailbox s 0).lqOrder ∧ 2 ^ (mailbox s 0).lqOrder < ((17 : Word) - (mailbox s 0).cqHead).toNat
      ∧ ((mailbox s 0).ccProd - (-16 : Word)).toNat ≤ 2 ^ (mailbox s 0).lcOrder ∧ 2 ^ (mailbox s 0).lcOrder < ((mailbox s 0).ccProd - (-17 : Word)).toNat := by
  decide
theorem test_met_Queue_enable : (mailbox run 0).cqEn = false ∧ 4 ≤ ((1 + 4 * 2 + 12 * 32 : Word).extractLsb' 1 4).toNat
    ∧ ((1 + 4 * 2 + 12 * 32 : Word).extractLsb' 5 4).toNat ≤ 12 ∧ ((1 + 3 * 2 + 12 * 32 : Word).extractLsb' 1 4).toNat < 4
    ∧ 12 < ((1 + 4 * 2 + 13 * 32 : Word).extractLsb' 5 4).toNat ∧ (mailbox (withMbx { Mailbox.reset with cqEn := true }) 0).cqEn = true := by decide
def queued : Mailbox := { Mailbox.reset with cqEn := true, cqTail := 1, lqOrder := 4, lcOrder := 12, cqPending := 255 }
theorem test_met_Fetch_reads : let s := withMbx queued; eociaRuns s = true ∧ scrubbing s 0 = false ∧ (mailbox s 0).cqEn = true
    ∧ (mailbox s 0).cqTail ≠ (mailbox s 0).cqHead ∧ (mailbox s 0).cqPending < 256 ∧ (mailbox s 0).fetching = false
    ∧ (mailbox s 0).cqPending < 2 ^ (mailbox s 0).lcOrder - ((mailbox s 0).ccProd - (mailbox s 0).ccCons).toNat := by decide
theorem test_met_Fetch_issues : let m := { queued with fetching := true }; let j : ReadJob := ⟨1, 0, 0, 64, .queueEntry 0, [(0, List.replicate 64 0)]⟩;
    let s := { withMbx m with hmp := { run.hmp with jobs := [j] } };
    (mailbox s 0).fetching = true ∧ s.hmp.jobs.find? (fun j => j.purpose == .queueEntry 0) = some j ∧ jobBytes j = some (List.replicate 64 0)
      ∧ bitOf (leAt (List.replicate 64 0) 60 4) 0 = false ∧ leAt (List.replicate 64 0) 60 4 < 4 := by decide
theorem test_met_Forwarded : let f : FwdRef := ⟨7, 1, 1, 0, none, 0⟩; let s := { run with eocia := { run.eocia with forwarded := [f] } };
    s.eocia.forwarded.find? (fun g => g.ref == 7) = some f ∧ (opOf f.op.toNat).isSome = true ∧ run.eocia.forwarded.find? (fun g => g.ref == 7) = none := by
  decide

theorem test_met_GlobalWrites : State.reset.inReset = false ∧ 11 < State.reset.regs.quota.length := by decide
theorem test_met_MaskedWrites : State.reset.inReset = false ∧ (0x0000FFFF : Word).extractLsb' 16 16 = 0 ∧ debugOpen { run with dbg := run.dbg } = debugOpen run := by
  decide
/-- A slice whose bank 15 is open, with Whisk halted. -/
def opened : State := { run with power := { run.power with on := BitVec.allOnes 148 }, dbg := { run.dbg with halted := 1, bpLo := List.replicate 4 0, bp := [1, 0, 0, 0] } }
theorem test_met_Masked_debug : debugOpen opened = true ∧ opened.inReset = false ∧ debugOpen { opened with sec := { run.sec with locked := true } } = false := by decide
theorem test_met_InterruptLines : let s := { run with regs := { run.regs with irqStatus := 0b10001, irqEn := 0 } }; s.inReset = false
    ∧ s.regs.irqStatus.getLsbD 0 = true ∧ (0b10001 : Word).getLsbD 0 = true ∧ s.regs.irqStatus.getLsbD 4 = true ∧ (0b10001 : Word).getLsbD 4 = true := by decide
theorem test_met_ClockCeiling : let x : Pair := ⟨700, 0, false, 0⟩; let s := { run with power := { run.power with pairs := [x] } };
    s.inReset = false ∧ s.power.pairs[0]? = some x := by decide
theorem test_met_Thaw_part : let s := { run with regs := { run.regs with frozenPart := 0x800, frozenHip := true, frozenHmp := true, frozenGbp := true } };
    (11 : Word).toNat % 32 < 12 ∧ s.regs.frozenPart.getLsbD 11 = true ∧ s.regs.scrub.getLsbD 11 = false ∧ s.regs.frozenPart.getLsbD 0 = false
      ∧ s.regs.frozenHip = true ∧ s.regs.frozenHmp = true ∧ s.regs.frozenGbp = true ∧ run.regs.frozenHip = false ∧ run.regs.frozenHmp = false
      ∧ run.regs.frozenGbp = false ∧ (12 : Word).toNat % 32 = 12 ∧ (19 : Word).toNat % 32 = 19 := by decide
theorem test_met_PartKill : (0x5C0B000B : Word).toNat % 16 = 11 ∧ (0x5C0B000B : Word).extractLsb' 16 16 = 0x5C0B#16 ∧ scrubbing run 11 = false
    ∧ (11 : BitVec 4).toNat = (0x5C0B000B : Word).toNat % 16 ∧ 11 < (0x5C0B000C : Word).toNat % 16
    ∧ (0x5C0A0000 : Word).extractLsb' 16 16 ≠ 0x5C0B#16 ∧ scrubbing { run with regs := { run.regs with scrub := 1 } } 0 = true := by decide
theorem test_met_LogRing : let s := { run with regs := { run.regs with logEn := true } }; s.inReset = false ∧ s.regs.logEn = true
    ∧ 6 ≤ ((1 + 6 * 2 : Word).extractLsb' 1 5).toNat ∧ ((1 + 20 * 2 : Word).extractLsb' 1 5).toNat = 20 := by decide
theorem test_met_RegisterWrites : run.inReset = false ∧ { run with inReset := true }.inReset = true ∧ csrAllowed 15 0x0 true 0 = true
    ∧ csrAllowed 0 0x2000 true 0 = true ∧ csrAllowed 11 0xD000 true 0 = true ∧ csrAllowed 0 0x3000 true 0 = false ∧ csrAllowed 12 0x2000 true 0 = false
    ∧ csrAllowed 14 0x0 true 0 = false := by decide
theorem test_met_Debug_open : debugOpen opened = true ∧ opened.dbg.halted.getLsbD 0 = true ∧ (4 : Word).toNat % 4 = 0 ∧ (3 : Word).toNat % 4 ≠ 0
    ∧ { opened.dbg with halted := 0 }.halted.getLsbD 0 = false := by decide
theorem test_met_DebugWord : Memory.wf opened.dbg.mem = true ∧ 4 % 4 = 0 := by decide
theorem test_met_Tap : debugOpen opened = true ∧ (0xFFC : BitVec 12).toNat / 4 * 4 ≠ 0x038 ∧ (opened.dbg.bp.getD 0 0).getLsbD 0 = true
    ∧ (opened.dbg.bp.getD 3 0).getLsbD 0 = false := by decide
theorem test_met_Fuses : run.sec.locked = false ∧ { run.sec with locked := true }.locked = true := by decide
theorem test_met_Unlock : let s := { run with sec := { run.sec with locked := true } }; s.sec.locked = true ∧ s.sec.withheld = false ∧ s.sec.unlocked = false
    ∧ { s.sec with challenge := some [] }.challenge = some [] ∧ { s.sec with unlocking := true }.unlocking = true ∧ s.regs.scrub = 0 ∧ run.sec.locked = false := by
  decide

/-- A row header for request 5: KIND 0, FORMAT 1, LENGTH n, and CHECK as it is for n = 0 (Table 17.2). -/
def hdr (n : Byte) : Bytes := [5, 0, 0x80, 0] ++ List.replicate 8 0 ++ [n] ++ List.replicate 19 0 ++ [0x8B, 0xD7, 0xA1, 0x78] ++ List.replicate 28 0
def beat0 : Bytes := List.replicate 64 0
def credited : State := { run with hipB := { run.hipB with returned := 2 }, hipL := { run.hipL with returned := 2 } }
theorem test_met_Hip_whole : credited.regs.frozenHip = false ∧ (hipPort credited .bulk).row = [] ∧ [beat0].length = ceilDiv (leAt (hdr 64) 12 4) 64
    ∧ (hipPort credited .bulk).received + [beat0].length < (hipPort credited .bulk).returned ∧ (hipPort run .latency).returned ≤ (hipPort run .latency).received := by
  decide
theorem test_met_Hip_frozen : { run.regs with frozenHip := true }.frozenHip = true ∧ (reservedWords ([0, 0, 0, 0x80] ++ List.replicate 60 0)).find? (·.2) = some (0, true) := by
  decide +kernel
theorem test_met_Hip_serves : malformed (hdr 0) [] 0 = none ∧ (rowOfBeats .bulk (hdr 0) []).kind ≠ 2
    ∧ rowEarly run (rowOfBeats .bulk (hdr 0) []) = false := by decide +kernel
theorem test_met_Hip_waits : let s := { run with step := { run.step with step := 0xFFFF, opened := true } }; malformed (hdr 0) [] 0 = none
    ∧ rowEarly s (rowOfBeats .bulk (hdr 0) []) = true := by decide +kernel
/-- Step 9 open in a group of one, with request 5 in a state. -/
def inStep (e : ReqEntry) : State :=
  let s := roomy (member 1)
  { s with group := { s.group with vocab := 256, ranges := [⟨0, 1⟩] }, step := { s.step with step := 9, opened := true }, reqs := [e] }
def score0 : ReqEntry := { req0 .active with info := { info0 with scoreMode := true } }
def row0 : RowRec := ⟨.bulk, 0, 5, 1, 1, 10, 0, 0, treeDesc (List.replicate 16 0), List.replicate 16 0, List.replicate 512 0, .none, [], false, 0, 0, false, false⟩
theorem test_met_Rows_rejected : let s := inStep (req0 .paused); scrubbing s row0.part = false ∧ s.group.regroup = none ∧ reqOf s 5 = some (req0 .paused)
    ∧ servingReason s row0 (req0 .paused) = some .state := by decide +kernel
theorem test_met_Rows_held : let s := inStep score0; (row0.part < 12 ∧ scrubbing s row0.part = false ∧ s.group.regroup = none ∧ reqOf s row0.id = some score0
    ∧ servingReason s row0 score0 = none ∧ rowStep s score0 (row0.stepSeq % 65536) = some (s.step.step + 1) ∧ row0.payload ≠ []
    ∧ ¬ (row0.kind = 1 ∧ segmentLength s row0 = 0))
    ∧ ∃ t, allocLines row0.part (.row (rowKeyOf { row0 with useStep := s.step.step + 1 }) row0.stepSeq) (rowLines row0) s = .ok t :=
  ⟨by decide +kernel, ok_of (by decide +kernel)⟩

def txn0 (write : Bool) : Txn := ⟨some 511, write, .rdb, false, 0, 1, 0, 64, 0, 0, 0, [], .nothing, false, false⟩
def withTxn (t : Txn) : State := { run with hmp := { run.hmp with txns := [t], lateTags := [3] } }
theorem test_met_Hmp_read : let s := withTxn (txn0 false); s.regs.frozenHmp = false ∧ outstanding s false .rdb 511 = some (txn0 false)
    ∧ [List.replicate 128 (0 : Byte)].length = linesTouched (txn0 false) ∧ (∀ b ∈ [List.replicate 128 (0 : Byte)], b.length = 128)
    ∧ (txn0 false).retried = false ∧ outstanding s false .rda 511 = none ∧ s.hmp.lateTags.contains 511 = false
    ∧ outstanding s false .rda 3 = none ∧ outstanding s true .rdb 511 = none
    ∧ outstanding s true .rdb 3 = none ∧ s.hmp.lateTags.contains 3 = true := by decide +kernel
theorem test_met_Hmp_write : outstanding (withTxn (txn0 true)) true .rdb 511 = some (txn0 true)
    ∧ { run.regs with frozenHmp := true }.frozenHmp = true := by decide
theorem test_met_Hmp_retry : let t := { txn0 false with waiting := true }; let s := withTxn t;
    (s.hmp.txns.find? fun t => t.tag == some 511 && t.waiting && !t.write) = some t ∧ partFrozen s t.part = false := by decide
def gbeat : GbpBeat := ⟨0, 0, 0, none, [], 0, true⟩
theorem test_met_Gbp : let s := { run with gbpA := { run.gbpA with credits := 1023, unacked := [gbeat], waiting := [gbeat] }, gbpB := { run.gbpB with credits := 1024 } };
    s.regs.frozenGbp = false ∧ (gbpPort s .a).credits < 1024 ∧ 1024 ≤ (gbpPort s .b).credits ∧ (gbpPort s .b).unacked = []
      ∧ (gbpPort s .a).unacked = gbeat :: [] ∧ (gbpPort s .a).waiting = gbeat :: [] ∧ 0 < (gbpPort s .a).credits ∧ (gbpPort s .b).waiting = []
      ∧ (gbpPort run .a).credits = 0 ∧ { s.regs with frozenGbp := true }.frozenGbp = true := by decide
theorem test_met_Events : let a : Alarm := ⟨0x20, 1, 0, 0, 0⟩; let x : Trace := ⟨0, 0, 0, 0, 0, 0, 0⟩; let r : EvtRec := ⟨0, List.replicate 16 0⟩;
    let s := { run with evt := { run.evt with credits := 1, queue := [r] } };
    let u := { run with evt := { run.evt with credits := 511 }, tele := { run.tele with alarms := [a] } };
    let v := { run with evt := { run.evt with credits := 512, excessWaiting := true }, tele := { run.tele with traces := [x] } };
    run.evt.excessWaiting = false ∧ 0 < s.evt.credits ∧ s.evt.queue = r :: [] ∧ u.evt.credits < 512 ∧ 0 < u.evt.credits ∧ u.evt.queue = [] ∧ u.evt.pendingList = []
      ∧ eociaRuns u = true ∧ u.tele.alarms = a :: [] ∧ 512 ≤ v.evt.credits ∧ v.evt.excessWaiting = true ∧ v.tele.alarms = [] ∧ v.tele.traces = x :: []
      ∧ run.evt.credits = 0 := by decide

theorem test_met_Tick_emit : let s := member 1; let u := { s with step := { s.step with acksDue := [0] } }; let v := { u with step := { u.step with slipSince := some 0 } };
    tickMaster s = me s ∧ s.group.regroup = none ∧ s.group.forming = none ∧ s.step.emittedStep ≤ s.step.step ∧ s.step.acksDue = []
      ∧ u.step.acksDue ≠ [] ∧ u.step.slipSince = none ∧ v.step.slipSince ≠ none ∧ v.step.acksDue ≠ [] := by decide
theorem test_met_Tick_other : let s := { member 2 with group := { (member 2).group with master := 1 } }; tickMaster s ≠ me s
    ∧ s.group.forming = none ∧ s.group.regroup = none ∧ (⟨1, 4000, 1⟩ : TickMsg).master = tickMaster s ∧ s.step.step < (⟨1, 4000, 1⟩ : TickMsg).step
    ∧ s.step.opened = false ∧ publishing s = false ∧ (⟨1, 4000, 0⟩ : TickMsg).master ≠ tickMaster s := by decide
theorem test_met_Deadlines : let s := fun n => { inStep score0 with step := { (inStep score0).step with phase := n } };
    (s 0).step.opened = true ∧ (s 0).step.stamped = false ∧ (s 0).step.phase = 0 ∧ (∀ r ∈ (s 0).rows, r.useStep ≠ (s 0).step.step)
      ∧ (s 1).step.phase = 1 ∧ (s 2).step.phase = 2 ∧ (s 3).step.phase = 3 ∧ (s 4).step.phase = 4 := by decide
theorem test_met_Commit : let s := inStep score0; tickMaster s = me s ∧ s.step.opened = true ∧ s.step.stamped = false ∧ s.group.regroup = none
    ∧ (⟨9, 0⟩ : CommitMsg).step = s.step.step ∧ publishing s = false ∧ s.step.slipSince = none ∧ s.step.acking = false
    ∧ { s.step with slipSince := some 0, acksDue := [0] }.acksDue.erase 0 = [] := by decide
theorem test_met_CommitAck_repeats : { run.step with acking := true, stamped := true }.acking = true
    ∧ { run.step with acking := true, stamped := true }.stamped = true := by decide
theorem test_met_LateLimit : let e := { req0 .late with lateCount := 7, stallSteps := 255 }; let s := inStep e; reqOf s 5 = some e ∧ homedHere s e = true
    ∧ s.step.opened = true ∧ scrubbing s e.info.part = false ∧ e.state = .late ∧ e.lateCount = 7 ∧ e.stallSteps = 255 ∧ e.state.takesRows = true
    ∧ (req0 .late).lateCount < 7 ∧ (req0 .late).stallSteps < 255 := by decide

/-- A row of request 5 in a group of two, in the open step, rooted here: slice 1 is a child. -/
def key0 : RowKey := ⟨5, 0, false⟩
def pair0 : State := { member 2 with step := { (member 2).step with step := 9, opened := true, phase := 2 }, reqs := [req0 .active] }
def merge0 : Merge := freshMerge key0 0 0
theorem test_met_Merge_child : nodeFor pair0 key0 1 = some 0 ∧ scrubRow pair0 key0 = false ∧ fits pair0 key0 9 = true ∧ fits pair0 key0 10 = false
    ∧ pair0.step.phase < 3 ∧ mergeAt pair0 key0 0 = none := by decide
theorem test_met_Merge_again : let m := { merge0 with kidsB := [(1, neutralB key0 9 0)] }; let s := { pair0 with merges := [m] };
    nodeFor s key0 1 = some 0 ∧ mergeAt s key0 0 = some m ∧ ∃ x ∈ m.kidsB, x.1 = 1 := by decide
theorem test_met_Merge_parity : let s := { pair0 with merges := [merge0] }; PipFault.engine ≠ .none ∧ PipFault.table ≠ .none
    ∧ ∃ m ∈ s.merges, m.key = key0 ∧ m.closed = false := by decide
/-- The same group seen from a slice that is no root: request 5 is homed on slice 1, and this slice's record is ready. -/
theorem test_met_Merge_up : let m := { merge0 with ownA := some (neutralA key0 9) };
    let s := { pair0 with reqs := [{ req0 .active with home := 1 }], merges := [m] };
    mergeAt s key0 0 = some m ∧ m.closed = false ∧ m.sentA = false ∧ m.ownA.isSome = true ∧ (∀ c ∈ dueKids s key0 0, ∃ x ∈ m.kidsA, x.1 = c)
      ∧ parentAt s key0 0 = some 1 ∧ playerOf s 1 ≠ me s := by decide
theorem test_met_Merge_cut : let s := { pair0 with merges := [merge0] }; (⟨key0, 9, 0, 0, 0, 0, 0, false⟩ : MaCut).key.train = false
    ∧ ∃ m ∈ s.merges, m.key = key0 ∧ m.closed = false ∧ m.cut = none ∧ m.edge = none := by decide

def strip0 : Strip := ⟨0, []⟩
def hidden0 : RowRec := { row0 with kind := 0, useStep := 9 }
def passing : State := { inStep (req0 .active) with heads := [{ head0 with strips := [strip0] }], rows := [hidden0], power := { run.power with on := BitVec.allOnes 148 } }
theorem test_met_Pass : let p : PassInfo := ⟨47, [0], [rowKeyOf hidden0], false⟩;
    p.rows.head?.bind (passTag passing) = some (0, 0) ∧ headOf passing 0 = some { head0 with strips := [strip0] }
      ∧ passOk passing p (0, 0) { head0 with strips := [strip0] } = true ∧ p.mismatch = false
      ∧ passOk passing { p with mismatch := true } (0, 0) { head0 with strips := [strip0] } = true := by decide
theorem test_met_Sieved : let s := { inStep score0 with group := { (inStep score0).group with vocab := 0 } }; let u := { inStep (req0 .active) with rows := [{ hidden0 with sieved := true }] };
    rowOf s key0 = none ∧ takesPart s key0 (me s) = false ∧ key0.train = false ∧ (reqOf s key0.id).isSome = true ∧ s.step.opened = true ∧ s.step.stamped = false
      ∧ mergeAt s key0 (me s) = none ∧ rowOf u (rowKeyOf hidden0) = some { hidden0 with sieved := true } ∧ takesPart u (rowKeyOf hidden0) (me u) = true
      ∧ (rowKeyOf hidden0).train = false := by decide +kernel

/-- A score row of 256 scores is due in the open step, with some places of the shell area taken. -/
def due0 (used : Nat) : State :=
  { inStep score0 with rows := [{ row0 with useStep := 9 }], pot := { run.pot with shellUsed := used }, step := { (inStep score0).step with phase := 0 } }
theorem test_met_Sieve : let r := { row0 with useStep := 9 }; let s := due0 0; rowOf s (rowKeyOf r) = some r ∧ takesPart s (rowKeyOf r) (me s) = true
    ∧ reqOf s r.id = some score0 ∧ r.rescore = 0 ∧ r.sieved = false ∧ passesDone s r = true ∧ mayScore s r score0 = true
    ∧ mayScore (due0 1048576) r score0 = true := by decide +kernel
/-- The places that the row's summary and capture take: 0 is room for them, and a full area is none. -/
theorem test_met_Sieve_places : let s := due0 0; let valid := validOf (finalScores s { row0 with useStep := 9 } score0);
    let n := summaryPlaces (summarise 3 score0.pred (usesMasses settings0) (me s) valid) + capturedCount score0.pred.gap valid;
    0 + n ≤ 1048576 ∧ 1048576 < 1048576 + n := by decide +kernel

def sum0 (seq : Word) (norm : Bool) : TrSum := ⟨norm, seq, 0, 0, 0, 0, 0, 0⟩
theorem test_met_TrSum : let m := { micro1 with gathered := [(2, sum0 10 false)] }; let s := withMicro m; microOf s (sum0 10 false).seq = some m
    ∧ m.fwdCommitted = false ∧ (∀ x ∈ m.gathered, x.1 ≠ 1) ∧ (∃ x ∈ m.gathered, x.1 = 2) := by decide
theorem test_met_TrSum_norm : let t := { sess with normBusy := true }; (sum0 0 true).norm = true ∧ (withSess t).training = some t ∧ t.normBusy = true
    ∧ ∀ x ∈ t.normSums, x.1 ≠ 63 := by decide
theorem test_met_TrSum_early : sess.normBusy = false ∧ ∀ x ∈ sess.normSums, x.1 ≠ 63 := by decide
theorem test_met_Rs : let b : RsBegin := ⟨9, false, 0, 100⟩; let s := { run with link := { run.link with ports := [Port.reset true, { Port.reset true with rsOpen := some b }] } };
    1 < s.link.ports.length ∧ (portOf s 0).rsOpen = none ∧ (portOf s 1).rsOpen = some b
      ∧ (portOf s 1).rsElems + (flitElems .fast (List.replicate 240 0)).length < b.elements := by decide +kernel
theorem test_met_ForwardDone : let m := { micro1 with desc := ⟨10, 0, 0, 0⟩ }; let s := withMicro m; s.training = some { sess with micros := [m] } ∧ forwardMicro s = some m
    ∧ slotsHeld s = false ∧ m.fwdCommitted = false ∧ m.ownSum = none ∧ forwardComplete s m = true ∧ ownTokens s m = [] ∧ forwardMicro (withMicro micro1) = some micro1
    ∧ forwardComplete (withMicro micro1) micro1 = false := by decide
/-- A micro-batch of no tokens whose backward slot can end on this slice. -/
def ending (n : Nat) (asked : Bool) (strips : List Strip) : State × Micro :=
  let m := { micro0 with desc := ⟨9, 0, 0, 0⟩, bwdStarted := true, accAsked := asked }
  ({ withSess { sess with backwards := n, micros := [m] } with heads := [{ head0 with strips := strips }] }, m)
theorem test_met_BackwardDone : let s := (ending 0 false []).1; let m := (ending 0 false []).2; let t := { sess with backwards := 0, micros := [m] };
    s.training = some t ∧ backwardMicro s = some m ∧ headOf s t.part = some head0 ∧ m.accAsked = false ∧ backwardOver s t head0 m = true
      ∧ (∀ x ∈ t.micros, x.bwdWritten = false) ∧ m.growing = false ∧ shareHdr head0.strips = none := by decide
theorem test_met_BackwardBank : let h := { head0 with strips := [⟨0, [0, 0, 0, 0, 1, 0, 0, 0, 8] ++ List.replicate 311 0⟩] }; let f := fun n => (ending n false h.strips).1;
    let m := (ending 1 false h.strips).2; (shareHdr h.strips).isSome = true ∧ (∀ n, n < 2 → backwardMicro (f n) = some m ∧ headOf (f n) 0 = some h
      ∧ backwardOver (f n) { sess with backwards := n, micros := [m] } h m = true ∧ slotNumber { sess with backwards := n, micros := [m] } = n) :=
  by
  decide +kernel
theorem test_met_BackwardWaits : let s := (ending 0 true []).1; let m := (ending 0 true []).2; backwardMicro s = some m ∧ m.accAsked = true := by decide
theorem test_met_UpdateDone : let a := updateArgs (cmd 0 []); let t := { sess with updating := some a }; let s := { withSess t with heads := [head0] };
    s.training = some t ∧ t.updating = some a ∧ headOf s t.part = some head0 ∧ slotsHeld s = false ∧ t.updWritten = false ∧ head0.rebuilding = []
      ∧ slotsRead t.updAcc (cellsOf head0.strips) = true ∧ slotsRead t.updState (cellsOf (stateStrips head0)) = true ∧ shareHdr head0.strips = none := by decide
theorem test_met_SlotOther : let s := (ending 0 false []).1; let m := (ending 0 false []).2; backwardMicro s = some m ∧ m.desc.seq ≠ 8
    ∧ runsUpdate sess.part sess.sessionNo sess.updates ((sess.updates + 1) % 2) s = true ∧ runsUpdate 0 0 0 0 s = false := by decide
theorem test_met_SelectPass : let s := { withPlan plan0 sess with heads := [head0] }; ∃ sel, planOf s 0 = some plan0 ∧ headOf s 0 = some head0 ∧ s.training = some sess
    ∧ plan0.select = some sel ∧ sel.top = false ∧ (selectPass sel (pruneCands plan0.tile (vocab s) head0.strips) ⟨[], 0, []⟩).next.isSome = true :=
  ⟨_, by decide, by decide, rfl, rfl, by decide, by decide +kernel⟩
theorem test_met_SelectPass_ends : ∃ sel, plan0.select = some sel ∧ (selectPass { sel with final := some (0, 9) } [] ⟨[], 0, []⟩).next = none := ⟨_, rfl, rfl⟩
theorem test_met_NoSession : run.training = none := by decide

theorem test_met_Sync : let s := member 2; (1 : Nat) ≠ me s ∧ s.group.formed = true ∧ isHole s 1 = false ∧ s.step.step < 1
    ∧ run.group.formed = false := by decide
theorem test_met_JarShare : reqOf (withReq .active) 5 = some (req0 .active) := by decide
/-- Member 2 of three has fallen out, and this slice takes its run; its jars may come, and others. -/
theorem test_met_JarShare_moves : let g := (member 3).group; let r : Regroup := ⟨[2], .takeover, [], 0⟩;
    let s := { member 3 with group := { g with holes := [2], vocab := 768, ranges := [⟨0, 1⟩, ⟨1, 1⟩, ⟨2, 1⟩], regroup := some r } };
    comingRuns s ≠ [] := by decide +kernel
theorem test_met_DeltaOther : (member 2).keeper.source ≠ 1 ∧ others (member 2) ≠ [] := by decide
theorem test_met_DeltaCommand : let s := { member 2 with keeper := { run.keeper with source := 1 } }; let x : DeltaEntry := ⟨0, 0, .command, 0, beat0⟩;
    x.kind = .command ∧ s.keeper.source = 1 := by decide
theorem test_met_DeltaAck : let s := { member 2 with keeper := { run.keeper with unacked := [(7, true)] }, eocia := { run.eocia with awaitAck := [(.variantReg, cmd 0 [1])] } };
    keeperOf s (me s) = some 1 ∧ s.keeper.unacked = (7, true) :: [] ∧ s.eocia.awaitAck = (.variantReg, cmd 0 [1]) :: [] ∧ readsOnly .variantReg = false
      ∧ (∀ u ∈ s.keeper.unacked, u.1 ≠ 8) ∧ keeperOf s (me s) ≠ some 0 := by decide
theorem test_met_ScrubDone : let k : Kill := ⟨3, [0], 0⟩; let s := { member 2 with sec := { run.sec with kills := [k] } };
    (s.sec.kills.find? fun k => k.part == 3) = some k ∧ k.reported.contains 1 = false ∧ (1 : Nat) ≠ me s ∧ (s.sec.kills.find? fun k => k.part == 4) = none := by
  decide

/-- A slice of a group of two that has not formed, whose port 0 is in HELLO. -/
def greeting (n : Nat) : State :=
  { run with group := { run.group with slice := n, size := 2 }
             link := { run.link with ports := { Port.reset true with session := .hello } :: List.replicate 3 (Port.reset false) } }
def hello0 (lo hi : Nat) : Hello := ⟨lo, hi, 1, 2, 1, 0, 3, 7, 0, 63, 63, 63, 63⟩
theorem test_met_Hello_refused : (portOf (greeting 0) 0).session = .hello ∧ (portOf (greeting 0) 3).session ≠ .hello
    ∧ min 3 (hello0 1 1).protoMax < max 2 (hello0 1 1).protoMin ∧ min 3 (hello0 4 5).protoMax < max 2 (hello0 4 5).protoMin := by decide
theorem test_met_Hello_heard : let s := { greeting 0 with link := { run.link with ports := [{ Port.reset true with session := .hello }, Port.reset true] } };
    (portOf s 0).session = .hello ∧ max 2 (hello0 3 9).protoMin ≤ min 3 (hello0 3 9).protoMax
      ∧ helloDone (helloOk 0 (hello0 3 9) s) 0 = true ∧ (helloOk 0 (hello0 3 9) s).group.formed = false ∧ portsReady (helloOk 0 (hello0 3 9) s) = false := by
  decide +kernel
def body0 : FormBody := ⟨1, 2, 2, 1, 3, 7, 0, true, 0, 0⟩
theorem test_met_Form_closed : (member 2).group.formed = true ∧ (greeting 1).group.formed = false := by decide
theorem test_met_Form_propose : body0.slice = me (greeting 1) ∧ body0.slice ≠ me (greeting 2) ∧ me (greeting 2) ≠ 0 ∧ me (greeting 0) = 0
    ∧ absent (greeting 0) ≠ [] := by decide
theorem test_met_Form_commit : (ownForm (withReq .active)).ready = false ∧ (ownForm run).ready = true ∧ portsReady run = true := by decide +kernel
theorem test_met_Form_keys : let s := { run with group := { run.group with forming := some ⟨1, [], []⟩ } }; run.group.forming = none ∧ s.group.forming ≠ none
    ∧ unwrapKeys s ⟨0, 1, []⟩ = none ∧ me (greeting 2) ≠ 0 := by decide
theorem test_met_Form_retry : portsReady (wireCheck (takeNumbers run)) = true ∧ 1 ≤ formSize (wireCheck (takeNumbers run))
    ∧ formSize (wireCheck (takeNumbers run)) ≤ 64 := by decide +kernel

theorem test_met_Heartbeat : let s := member 3; s.group.formed = true ∧ 2 ≠ me s ∧ 2 ∈ members s ∧ 3 ∉ members s ∧ s.group.silent = false
    ∧ { s.group with silent := true }.silent = true := by decide +kernel
theorem test_met_SliceLost : let s := member 3; 1 ≠ me s ∧ 1 ∈ members s ∧ nextMember s 1 ≠ some (me s) ∧ s.group.regroup = none ∧ publishing s = false
    ∧ 2 ∈ members s ∧ nextMember s 2 = some (me s) ∧ { s.keeper with kept := 2 }.kept = 2 := by decide +kernel
theorem test_met_Takeover : let r : Regroup := ⟨[1], .resume, [], 9⟩; let s := { member 3 with group := { (member 3).group with holes := [1], regroup := some r } };
    (member 3).group.regroup = none ∧ s.group.regroup = some r ∧ r.phase = .resume ∧ tickMaster s = me s := by decide
theorem test_met_Expel : let s := { member 3 with group := { (member 3).group with geomFaults := [(0, 8), (1, 7)] } }; s.group.formed = true
    ∧ (∃ x ∈ s.group.geomFaults, x.1 = 0 ∧ 8 ≤ x.2) ∧ 0 = me s ∧ (∀ x ∈ s.group.geomFaults, x.1 = 1 → x.2 < 8)
    ∧ 1 ≠ me s ∧ ∃ x ∈ [(1, 8)], x.1 = 1 ∧ 8 ≤ x.2 := by decide

def withPort (p : Port) : State := { run with link := { run.link with ports := [p] } }
def live0 : Port := { Port.reset true with session := .active, lanes := [true, true] }
/-- A flit that only acknowledges: the ACK bit of its header and its CRC (Table 18.1). -/
def zeros62 : Bytes := List.replicate 62 0
def ack0 : Bytes := [4, 0, 0, 0] ++ zeros62 ++ zeros62 ++ zeros62 ++ zeros62
theorem ack0_crc : (ack0.foldl crcByte 0xFFFFFFFF#32) = 0x567B4782#32 := by
  have a : zeros62.foldl crcByte 0x51D9B7B4#32 = 0x1F568B27#32 := by decide +kernel
  have b : zeros62.foldl crcByte 0x1F568B27#32 = 0xF2A8D1AE#32 := by decide +kernel
  have c : zeros62.foldl crcByte 0xF2A8D1AE#32 = 0xD97A5509#32 := by decide +kernel
  have d : zeros62.foldl crcByte 0xD97A5509#32 = 0x567B4782#32 := by decide +kernel
  have e : ([4, 0, 0, 0] : Bytes).foldl crcByte 0xFFFFFFFF#32 = 0x51D9B7B4#32 := by decide +kernel
  rw [ack0, List.foldl_append, List.foldl_append, List.foldl_append, List.foldl_append, e, a, b, c, d]
theorem test_met_Link_ack : let b := ack0 ++ [0x7D, 0xB8, 0x84, 0xA9]; b.length = 256 ∧ (crc32 (b.take 252)).toNat = leAt b 252 4
    ∧ bitOf (leAt b 0 4) 2 = true ∧ bitOf (leAt b 4 4) 24 = false :=
  ⟨by decide +kernel, by rw [List.take_left' (by decide +kernel), crc32, ack0_crc]; decide +kernel, by decide +kernel, by decide +kernel⟩
theorem test_met_Link_live : let s := withPort { live0 with replay := [(0, 0, ⟨0, true, true, false, 0, [], none⟩)] }; 0 < s.link.ports.length ∧ (portOf s 0).session = .active
    ∧ (portOf s 0).lanes.getD 1 false = true ∧ (portOf s 0).replay ≠ [] ∧ (portOf s 0).marginAlarm.getD 1 true = false
    ∧ ((setLane 0 0 false s |> fun s => (portOf s 0).lanes.any id) = true) := by decide
theorem test_met_Link_other : let s := fun x => withPort { live0 with session := x, lanes := [false, false] }; (portOf (s .down) 0).session = .down
    ∧ (portOf (s .train) 0).session = .train ∧ (portOf (s .retrain) 0).session = .retrain ∧ (portOf (s .hello) 0).session = .hello
    ∧ (portOf (s .active) 0).replay = [] ∧ laneFitted (withPort live0) 0 0 = true := by decide
theorem test_met_Link_down : let s := { withPort (Port.reset true) with power := { run.power with on := BitVec.allOnes 148 } }; (portOf s 0).session = .down
    ∧ (portOf s 0).fitted = true ∧ s.power.on.getLsbD (136 + 0) = true ∧ eociaRuns s = true ∧ s.group.formed = false ∧ pastBoot s = true := by decide

theorem test_met_Boot_fault : let s := { State.reset with whisk := .booting true }; State.reset.whisk = .booting false ∧ s.inReset = false
    ∧ imageFault s [] = some 1 ∧ imageFault State.reset [] = some 1 ∧ secondImage { State.reset with straps := 0x10000 } = true ∧ secondImage State.reset = false := by
  decide +kernel
theorem test_met_Whisk_runs : eociaRuns run = true ∧ opened.dbg.halted.getLsbD 0 = true ∧ ({ run with whisk := .restarting 2 false }).whisk = .restarting 2 false
    ∧ ∀ c x, run.whisk ≠ .restarting c x := ⟨by decide, by decide, rfl, fun _ _ h => nomatch h⟩
theorem test_met_Faults : let i : StripId := ⟨0, 0, 0⟩; { run.place with inFlight := [(i, 47)] }.inFlight.contains (i, 47) = true
    ∧ run.place.inFlight.contains (i, 47) = false ∧ domainExists run 148 = false := by decide

def pair1 : Pair := ⟨700, 0, false, 0⟩
def powered (x : Pair) : State :=
  { member 1 with power := { run.power with pairs := [x], req := BitVec.allOnes 148, on := BitVec.allOnes 148, idle := List.replicate 47 0 ++ [64] } }
theorem test_met_Power_loop : let s := powered { pair1 with mhz := 375 }; s.power.pairs[0]? = some { pair1 with mhz := 375 } ∧ s.power.alert = false
    ∧ 1023 < 1 * 1024 ∧ 1 * 1024 ≤ 1024 ∧ 375 < ceiling s ∧ pair1.waitVack = false := by decide
theorem test_met_Power_vack : let x := { pair1 with mhz := 675, waitVack := true }; let s := powered x; s.power.pairs[0]? = some x ∧ x.waitVack = true
    ∧ x.mhz + 25 ≤ ceiling s := by decide
theorem test_met_Power_domains : let s := powered pair1; s.power.req.getLsbD 147 = true ∧ s.power.on.getLsbD 147 = true
    ∧ { s.power with ack := 0 }.ack.getLsbD 147 = false ∧ s.power.req.getLsbD 148 = false ∧ s.group.solo = false ∧ eociaRuns s = true ∧ s.power.req.getLsbD 47 = true
    ∧ 47 < s.kit.pans ∧ s.power.fenced.contains 47 = false ∧ 64 ≤ s.power.idle.getD 47 0 ∧ s.power.idle.getD 0 0 < 64 := by decide
theorem test_met_Alarms : let a : Alarm := ⟨0x20, 1, 0, 0, 0⟩; let s := { run with tele := { run.tele with alarms := [a] } }; (∃ a ∈ s.tele.alarms, a.code = 0x20)
    ∧ ∀ a ∈ s.tele.alarms, a.code ≠ 0x21 := by decide
theorem test_met_Traces : let x : Trace := ⟨0, 0, 0, 0, 0, 0, 0⟩; let s := fun n => { run with tele := { run.tele with thresh := [2], traces := List.replicate n x } };
    1 < ((s 0).tele.thresh.getD 0 4).toNat ∧ ((s 0).tele.thresh.getD 0 4).toNat ≤ 2 ∧ ((s 11).tele.traces.filter fun t => t.src == 0).length < 4 * (2 + 1)
      ∧ 4 * (2 + 1) ≤ ((s 12).tele.traces.filter fun t => t.src == 0).length := by decide
theorem test_met_Debug_block : let s := { opened with dbg := { opened.dbg with memAddr := 0x100000000 + 43#64 * 2097152 } };
    ∃ b o, regionOf s (s.dbg.memAddr.toNat / 4 * 4) = .pot b o ∧ blockAt s b o = some .free := ⟨43, 0, by decide +kernel⟩
end Sys2Proof.Tests
end

section
/-! What every command leaves alone: the hardening kit and the queue of waiting commands (O3). `kitQueue` is the pair of both. No operation of
the model writes either of them, whatever the state, so there is one equation `kitQueue (f … s) = kitQueue s` for each operation, in the order
of the model's files, tagged for `simp`: an operation that branches on data is split along its branches, and `simp` then strips one operation
after the other by the equations before it. (`Held` of Laws/Held.lean keeps both too, but only in a state within the limits of `Inv`.) -/

-- The proofs of this part are checked one after another: the whole package is one text under a limit on threads.
set_option Elab.async false

namespace Sys2Proof.Machine

/-- The parts of the state that no command changes: the kit (R2) and the waiting commands (log entry 4). -/
def kitQueue (s : State) : Kit × List Instr := (s.kit, s.pending)

theorem kitQueue_eq_iff {s t : State} : kitQueue t = kitQueue s ↔ t.kit = s.kit ∧ t.pending = s.pending := by
  simp only [kitQueue, Prod.mk.injEq]

/-! ### Updates, conditions, folds and steps that can fail -/

@[simp] theorem kitQueue_mk
    {a1 a2 a3 a4 a5 a6 a7 a8 a9 a10 a11 a12 a13 a14 a15 a16 a17 a18 a19 a20 a21 a22 a23 a24 a25 a26 a27 a28 a29 a30 a31 a32
     a33 a34 a35 a36 a37 a38 a39 a40 a41 a42 a43 a44 a45} :
    kitQueue (State.mk a1 a2 a3 a4 a5 a6 a7 a8 a9 a10 a11 a12 a13 a14 a15 a16 a17 a18 a19 a20 a21 a22 a23 a24 a25 a26 a27 a28 a29 a30 a31
      a32 a33 a34 a35 a36 a37 a38 a39 a40 a41 a42 a43 a44 a45) = (a1, a45) := rfl

@[simp] theorem kitQueue_eta (s : State) : (s.kit, s.pending) = kitQueue s := rfl

@[simp] theorem kitQueue_ite (c : Prop) [Decidable c] (s t : State) :
    kitQueue (if c then s else t) = if c then kitQueue s else kitQueue t := apply_ite ..

@[simp] theorem kitQueue_foldl {α : Type} {f : State → α → State} (hf : ∀ t x, kitQueue (f t x) = kitQueue t) (l : List α) (s : State) :
    kitQueue (l.foldl f s) = kitQueue s := by
  induction l generalizing s with
  | nil => rfl
  | cons x l ih => rw [List.foldl_cons, ih, hf]

theorem kitQueue_bind {ε : Type} {x : Except ε State} {f : State → Except ε State} {s u : State}
    (hx : ∀ t, x = .ok t → kitQueue t = kitQueue s) (hf : ∀ t u, f t = .ok u → kitQueue u = kitQueue t) (e : x.bind f = .ok u) :
    kitQueue u = kitQueue s := by
  cases x with
  | error a => cases e
  | ok t => exact (hf t u e).trans (hx t rfl)

/-! ### Machine/Ops.lean -/
@[simp] theorem kitQueue_updReq (q : Nat) (f : ReqEntry → ReqEntry) (s : State) : kitQueue (updReq q f s) = kitQueue s := by simp [updReq]
@[simp] theorem kitQueue_count (f : Counters → Counters) (s : State) : kitQueue (count f s) = kitQueue s := by simp [count]

@[simp] theorem kitQueue_trace (src prio event : Nat) (arg0 : Word) (arg1 : BitVec 64) (s : State) :
    kitQueue (trace src prio event arg0 arg1 s) = kitQueue s := by
  dsimp only [trace]; (repeat' split) <;> simp

@[simp] theorem kitQueue_perf (offset n : Nat) (s : State) : kitQueue (perf offset n s) = kitQueue s := by simp [perf]
@[simp] theorem kitQueue_alarm (code : Nat) (arg : BitVec 64) (s : State) : kitQueue (alarm code arg s) = kitQueue s := by simp [alarm]
@[simp] theorem kitQueue_drbg (n : Nat) (s : State) : kitQueue (drbg n s).2 = kitQueue s := by simp [drbg]
@[simp] theorem kitQueue_hmpIssue (s : State) : kitQueue (hmpIssue s) = kitQueue s := by simp [hmpIssue]

@[simp] theorem kitQueue_hmpWrite (part addr : Nat) (data : Bytes) (after : AfterWrite) (s : State) :
    kitQueue (hmpWrite part addr data after s) = kitQueue s := by simp [hmpWrite]

@[simp] theorem kitQueue_hmpRead (part addr len : Nat) (ch : RdCh) (p : Purpose) (s : State) :
    kitQueue (hmpRead part addr len ch p s) = kitQueue s := by simp [hmpRead]

@[simp] theorem kitQueue_logWrite (rec : Bytes) (s : State) : kitQueue (logWrite rec s) = kitQueue s := by simp [logWrite]
@[simp] theorem kitQueue_log (code part : Nat) (arg : BitVec 64) (s : State) : kitQueue (log code part arg s) = kitQueue s := by simp [log]
@[simp] theorem kitQueue_event (kind : Nat) (bytes : Bytes) (s : State) : kitQueue (event kind bytes s) = kitQueue s := by simp [event]
@[simp] theorem kitQueue_evtRefill (s : State) : kitQueue (evtRefill s) = kitQueue s := by simp [evtRefill]
@[simp] theorem kitQueue_mbxIrq (p : Nat) (bits : BitVec 5) (s : State) : kitQueue (mbxIrq p bits s) = kitQueue s := by simp [mbxIrq]

@[simp] theorem kitQueue_doorbell (e : ReqEntry) (n : Nat) (st : BitVec 16) (s : State) :
    kitQueue (doorbell e n st s) = kitQueue s := by simp [doorbell]

@[simp] theorem kitQueue_rejection (cls : HipClass) (part id stepSeq node : Nat) (r : Reason) (s : State) :
    kitQueue (rejection cls part id stepSeq node r s) = kitQueue s := by simp [rejection]

@[simp] theorem kitQueue_rejectRow (r : RowRec) (why : Reason) (s : State) : kitQueue (rejectRow r why s) = kitQueue s := by simp [rejectRow]

@[simp] theorem kitQueue_freezePort (m : Master) (s : State) : kitQueue (freezePort m s) = kitQueue s := by
  unfold freezePort; split <;> simp

@[simp] theorem kitQueue_freeze (m : Master) (port part : Nat) (argLog : BitVec 64) (s : State) :
    kitQueue (freeze m port part argLog s) = kitQueue s := by simp [freeze]

@[simp] theorem kitQueue_violation (m : Master) (port part code id offset : Nat) (now : Bool) (s : State) :
    kitQueue (violation m port part code id offset now s) = kitQueue s := by simp [violation]

@[simp] theorem kitQueue_send (dest : Nat) (m : Msg) (s : State) : kitQueue (send dest m s) = kitQueue s := by simp [send]
@[simp] theorem kitQueue_flood (m : Msg) (s : State) : kitQueue (flood m s) = kitQueue s := by simp [flood]
@[simp] theorem kitQueue_floodForm (m : Msg) (s : State) : kitQueue (floodForm m s) = kitQueue s := by simp [floodForm]
@[simp] theorem kitQueue_announce (step : Nat) (i : Sync) (s : State) : kitQueue (announce step i s) = kitQueue s := by simp [announce]
@[simp] theorem kitQueue_announceOut (step : Nat) (i : Sync) (s : State) : kitQueue (announceOut step i s) = kitQueue s := by simp [announceOut]
@[simp] theorem kitQueue_rowTold (src q n : Nat) (s : State) : kitQueue (rowTold src q n s) = kitQueue s := by simp [rowTold]
@[simp] theorem kitQueue_rowFreed (q n : Nat) (s : State) : kitQueue (rowFreed q n s) = kitQueue s := by simp [rowFreed]

@[simp] theorem kitQueue_rowLost (src q n : Nat) (s : State) : kitQueue (rowLost src q n s) = kitQueue s := by
  dsimp only [rowLost]; split <;> simp

@[simp] theorem kitQueue_rowGone (q n : Nat) (s : State) : kitQueue (rowGone q n s) = kitQueue s := by simp [rowGone]

theorem kitQueue_allocBlocks (p : Nat) (u : Use) (n : Nat) (s : State) {t : State} (e : allocBlocks p u n s = .ok t) : kitQueue t = kitQueue s := by
  dsimp only [allocBlocks] at e
  split at e
  · rw [← Except.ok.inj e]
  · iterate 3 (split at e; · cases e)
    rw [← Except.ok.inj e, kitQueue_mk, kitQueue_eta]

@[simp] theorem kitQueue_freeUses (f : BlockUse → Bool) (s : State) : kitQueue (freeUses f s) = kitQueue s := by simp [freeUses]

theorem kitQueue_allocLines (p : Nat) (u : Use) (n : Nat) (s : State) {t : State} (e : allocLines p u n s = .ok t) : kitQueue t = kitQueue s := by
  dsimp only [allocLines] at e
  split at e
  · cases e
  · split at e
    · cases e
    · rename_i u hu
      cases e
      exact (kitQueue_allocBlocks _ _ _ _ hu :)

@[simp] theorem kitQueue_freeEmpty (p : Nat) (s : State) : kitQueue (freeEmpty p s) = kitQueue s := by simp [freeEmpty]
@[simp] theorem kitQueue_freeLines (p : Nat) (u : Use) (s : State) : kitQueue (freeLines p u s) = kitQueue s := by simp [freeLines]

@[simp] theorem kitQueue_deliver (p : Nat) (o : Origin) (tag : BitVec 16) (st : BitVec 16) (res : List (Nat × Word)) (s : State) :
    kitQueue (deliver p o tag st res s) = kitQueue s := by
  unfold deliver; split <;> simp

@[simp] theorem kitQueue_complete (op : Op) (c : Cmd) (st : Status) (res : List (Nat × Word)) (s : State) :
    kitQueue (complete op c st res s) = kitQueue s := by simp [complete]

@[simp] theorem kitQueue_await (op : Op) (c : Cmd) (step : Nat) (w : Wait) (s : State) :
    kitQueue (await op c step w s) = kitQueue s := by simp [await]

@[simp] theorem kitQueue_finish (f : PendCmd → Bool) (st : PendCmd → Status) (res : PendCmd → List (Nat × Word)) (s : State) :
    kitQueue (finish f st res s) = kitQueue s := by simp [finish]

@[simp] theorem kitQueue_dropRows (f : RowRec → Bool) (s : State) : kitQueue (dropRows f s) = kitQueue s := by simp [dropRows]
@[simp] theorem kitQueue_dropReqRows (q : Nat) (s : State) : kitQueue (dropReqRows q s) = kitQueue s := by simp [dropReqRows]
@[simp] theorem kitQueue_parityError (f : PipFault) (s : State) : kitQueue (parityError f s) = kitQueue s := by simp [parityError]

@[simp] theorem kitQueue_pipWork (id : Nat) (genT : Bool) (as_ : List Nat) (s : State) :
    kitQueue (pipWork id genT as_ s) = kitQueue s := by simp [pipWork]

/-! ### Machine/Mailbox.lean -/
@[simp] theorem kitQueue_enqueue (op : Op) (c : Cmd) (s : State) : kitQueue (enqueue op c s) = kitQueue s := by simp [enqueue]

@[simp] theorem kitQueue_forward (op : Op) (c : Cmd) (dest : Nat) (s : State) : kitQueue (forward op c dest s) = kitQueue s := by
  unfold forward; split <;> simp

@[simp] theorem kitQueue_sendOn (op : Op) (c : Cmd) (dest : Nat) (s : State) : kitQueue (sendOn op c dest s) = kitQueue s := by simp [sendOn]
@[simp] theorem kitQueue_route (op : Op) (c : Cmd) (s : State) : kitQueue (route op c s) = kitQueue s := by simp [route]

@[simp] theorem kitQueue_issue (part : Nat) (o : Origin) (opcode tag : BitVec 16) (args : List Word) (s : State) :
    kitQueue (issue part o opcode tag args s) = kitQueue s := by
  unfold issue; (repeat' split) <;> simp

@[simp] theorem kitQueue_doorbellWrite (p : Nat) (v : Word) (s : State) : kitQueue (doorbellWrite p v s) = kitQueue s := by simp [doorbellWrite]
@[simp] theorem kitQueue_ackWrite (p : Nat) (v : Word) (s : State) : kitQueue (ackWrite p v s) = kitQueue s := by simp [ackWrite]
@[simp] theorem kitQueue_irqStatusWrite (p : Nat) (v : Word) (s : State) : kitQueue (irqStatusWrite p v s) = kitQueue s := by simp [irqStatusWrite]
@[simp] theorem kitQueue_irqEnWrite (p : Nat) (v : Word) (s : State) : kitQueue (irqEnWrite p v s) = kitQueue s := by simp [irqEnWrite]
@[simp] theorem kitQueue_dropFetch (p : Nat) (s : State) : kitQueue (dropFetch p s) = kitQueue s := by simp [dropFetch]
@[simp] theorem kitQueue_cqCfgWrite (p : Nat) (v : Word) (s : State) : kitQueue (cqCfgWrite p v s) = kitQueue s := by simp [cqCfgWrite]
@[simp] theorem kitQueue_cqTailWrite (p : Nat) (v : Word) (s : State) : kitQueue (cqTailWrite p v s) = kitQueue s := by simp [cqTailWrite]
@[simp] theorem kitQueue_ccConsWrite (p : Nat) (v : Word) (s : State) : kitQueue (ccConsWrite p v s) = kitQueue s := by simp [ccConsWrite]

@[simp] theorem kitQueue_takeEntry (p : Nat) (s : State) : kitQueue (takeEntry p s) = kitQueue s := by
  unfold takeEntry; (repeat' split) <;> simp

@[simp] theorem kitQueue_cqFetchEntry (p : Nat) (s : State) : kitQueue (cqFetchEntry p s) = kitQueue s := by simp [cqFetchEntry]

@[simp] theorem kitQueue_recordWritten (p : Nat) (noirq : Bool) (s : State) :
    kitQueue (recordWritten p noirq s) = kitQueue s := by simp [recordWritten]

@[simp] theorem kitQueue_fwdArrives (f : FwdCmd) (s : State) : kitQueue (fwdArrives f s) = kitQueue s := by simp [fwdArrives]

@[simp] theorem kitQueue_resultArrives (r : FwdResult) (s : State) : kitQueue (resultArrives r s) = kitQueue s := by
  unfold resultArrives; split <;> simp

@[simp] theorem kitQueue_mbxWrite (p off : Nat) (v : Word) (s : State) : kitQueue (mbxWrite p off v s) = kitQueue s := by simp [mbxWrite]

/-! ### Machine/Cmd.lean -/

@[simp] theorem kitQueue_judge (op : Op) (c : Cmd) (l : List (Bool × Status)) (eff : State → State) (s : State) (hk : ∀ t, kitQueue (eff t) = kitQueue
    t) :
    kitQueue (judge op c l eff s) = kitQueue s := by
  unfold judge; split <;> simp [hk]

@[simp] theorem kitQueue_accept (op : Op) (run : Cmd → State → State) (c : Cmd) (s : State) (hk : ∀ a t, kitQueue (run a t) = kitQueue t) :
    kitQueue (accept op run c s) = kitQueue s := by simp [accept, hk]

@[simp] theorem kitQueue_unqueue (op : Op) (c : Cmd) (s : State) : kitQueue (unqueue op c s) = kitQueue s := by simp [unqueue]

@[simp] theorem kitQueue_takeUp (op : Op) (run : Cmd → State → State) (c : Cmd) (s : State) (hk : ∀ a t, kitQueue (run a t) = kitQueue t) :
    kitQueue (takeUp op run c s) = kitQueue s := by
  dsimp only [takeUp]; (repeat' split) <;> simp [hk]

/-! ### Machine/ReqCmds.lean -/
@[simp] theorem kitQueue_acornSweep (s : State) : kitQueue (acornSweep s) = kitQueue s := by simp [acornSweep]
@[simp] theorem kitQueue_useAcorn (src p : Nat) (h : Word) (q : Nat) (s : State) : kitQueue (useAcorn src p h q s) = kitQueue s := by simp [useAcorn]

@[simp] theorem kitQueue_unuseAcorn (src p : Nat) (h : Word) (q : Nat) (s : State) :
    kitQueue (unuseAcorn src p h q s) = kitQueue s := by simp [unuseAcorn]

@[simp] theorem kitQueue_reportLoad (q : Nat) (st : BitVec 16) (s : State) : kitQueue (reportLoad q st s) = kitQueue s := by simp [reportLoad]
@[simp] theorem kitQueue_beginAdmit (q home : Nat) (a : Admit) (s : State) : kitQueue (beginAdmit q home a s) = kitQueue s := by simp [beginAdmit]

@[simp] theorem kitQueue_countsArrived (q : Nat) (bs : Option Bytes) (s : State) : kitQueue (countsArrived q bs s) = kitQueue s := by
  unfold countsArrived; (repeat' split) <;> simp

@[simp] theorem kitQueue_admitAccepted (op : Op) (c : Cmd) (q t : Nat) (a : Admit) (s : State) :
    kitQueue (admitAccepted op c q t a s) = kitQueue s := by
  cases h : allocLines a.info.part (.window q) 4 s with
  | ok t => simp [admitAccepted, h, kitQueue_allocLines _ _ _ _ h]
  | error e => simp [admitAccepted, h]

@[simp] theorem kitQueue_acornRelease (c : Cmd) (ac : Option Acorn) (s : State) : kitQueue (acornRelease c ac s) = kitQueue s := by
  unfold acornRelease; split <;> simp

@[simp] theorem kitQueue_acornClaim (op : Op) (c : Cmd) (s : State) : kitQueue (acornClaim op c s) = kitQueue s := by simp [acornClaim]

@[simp] theorem kitQueue_admitRead (op : Op) (c : Cmd) (t step : Nat) (d : Bytes) (s : State) :
    kitQueue (admitRead op c t step d s) = kitQueue s := by simp [admitRead]

@[simp] theorem kitQueue_admitCmd (op : Op) (c : Cmd) (s : State) : kitQueue (admitCmd op c s) = kitQueue s := by simp [admitCmd]

@[simp] theorem kitQueue_huskRead (c : Cmd) (t step : Nat) (bs : Bytes) (s : State) :
    kitQueue (huskRead c t step bs s) = kitQueue s := by simp [huskRead]

@[simp] theorem kitQueue_huskHeaderRead (c : Cmd) (t step : Nat) (hd : Bytes) (s : State) :
    kitQueue (huskHeaderRead c t step hd s) = kitQueue s := by simp [huskHeaderRead]

@[simp] theorem kitQueue_huskResumeCmd (c : Cmd) (s : State) : kitQueue (huskResumeCmd c s) = kitQueue s := by simp [huskResumeCmd]
@[simp] theorem kitQueue_change (q : Nat) (x : ReqChange) (s : State) : kitQueue (change q x s) = kitQueue s := by simp [change]
@[simp] theorem kitQueue_settingsCmd (c : Cmd) (s : State) : kitQueue (settingsCmd c s) = kitQueue s := by simp [settingsCmd]
@[simp] theorem kitQueue_cancelCmd (c : Cmd) (s : State) : kitQueue (cancelCmd c s) = kitQueue s := by simp [cancelCmd]
@[simp] theorem kitQueue_pauseCmd (c : Cmd) (s : State) : kitQueue (pauseCmd c s) = kitQueue s := by simp [pauseCmd]
@[simp] theorem kitQueue_resumeCmd (c : Cmd) (s : State) : kitQueue (resumeCmd c s) = kitQueue s := by simp [resumeCmd]
@[simp] theorem kitQueue_evictCmd (c : Cmd) (s : State) : kitQueue (evictCmd c s) = kitQueue s := by simp [evictCmd]
@[simp] theorem kitQueue_moveCmd (c : Cmd) (s : State) : kitQueue (moveCmd c s) = kitQueue s := by simp [moveCmd]
@[simp] theorem kitQueue_queryCmd (c : Cmd) (s : State) : kitQueue (queryCmd c s) = kitQueue s := by simp [queryCmd]

/-! ### Machine/TenantCmds.lean -/
@[simp] theorem kitQueue_updTenant (u : Nat) (f : Tenant → Tenant) (s : State) : kitQueue (updTenant u f s) = kitQueue s := by simp [updTenant]

@[simp] theorem kitQueue_tenantChange (op : Op) (c : Cmd) (x : TenantChange) (w : Nat → Wait) (s : State) :
    kitQueue (tenantChange op c x w s) = kitQueue s := by simp [tenantChange]

@[simp] theorem kitQueue_bindCmd (c : Cmd) (s : State) : kitQueue (bindCmd c s) = kitQueue s := by simp [bindCmd]
@[simp] theorem kitQueue_creditCmd (c : Cmd) (s : State) : kitQueue (creditCmd c s) = kitQueue s := by simp [creditCmd]
@[simp] theorem kitQueue_drainCmd (c : Cmd) (s : State) : kitQueue (drainCmd c s) = kitQueue s := by simp [drainCmd]
@[simp] theorem kitQueue_reserveCmd (c : Cmd) (s : State) : kitQueue (reserveCmd c s) = kitQueue s := by simp [reserveCmd]
@[simp] theorem kitQueue_unbindCmd (c : Cmd) (s : State) : kitQueue (unbindCmd c s) = kitQueue s := by simp [unbindCmd]
@[simp] theorem kitQueue_tenantQueryCmd (c : Cmd) (s : State) : kitQueue (tenantQueryCmd c s) = kitQueue s := by simp [tenantQueryCmd]

@[simp] theorem kitQueue_applyTenant (u n : Nat) (x : TenantChange) (s : State) : kitQueue (applyTenant u n x s).1 = kitQueue s := by
  unfold applyTenant; (repeat' split) <;> simp

@[simp] theorem kitQueue_updLoading (p : Nat) (h : Word) (f : Acorn → Acorn) (s : State) :
    kitQueue (updLoading p h f s) = kitQueue s := by simp [updLoading]

@[simp] theorem kitQueue_acornNew (p : Nat) (h : Word) (s : State) : kitQueue (acornNew p h s) = kitQueue s := by simp [acornNew]

@[simp] theorem kitQueue_acornFail (p : Nat) (h : Word) (s : State) : kitQueue (acornFail p h s) = kitQueue s := by
  unfold acornFail; split <;> simp

@[simp] theorem kitQueue_acornDecide (p : Nat) (h : Word) (s : State) : kitQueue (acornDecide p h s) = kitQueue s := by
  unfold acornDecide; split <;> simp

@[simp] theorem kitQueue_acornReported (src p : Nat) (h : Word) (st : BitVec 16) (n : Nat) (s : State) :
    kitQueue (acornReported src p h st n s) = kitQueue s := by simp [acornReported]

@[simp] theorem kitQueue_reportAcorn (p : Nat) (h : Word) (st : BitVec 16) (n : Nat) (s : State) :
    kitQueue (reportAcorn p h st n s) = kitQueue s := by simp [reportAcorn]

@[simp] theorem kitQueue_acornLoaded (p : Nat) (h : Word) (jars : Except Status (List (Nat × Nat))) (s : State) :
    kitQueue (acornLoaded p h jars s) = kitQueue s := by
  unfold acornLoaded
  split
  · rfl
  · simp
  · split
    · simp
    · rename_i u hu
      simp [kitQueue_allocLines _ _ _ _ hu]

@[simp] theorem kitQueue_acornSettle (p : Nat) (h : Word) (shares : List (Nat × Nat)) (s : State) :
    kitQueue (acornSettle p h shares s) = kitQueue s := by simp [acornSettle]

@[simp] theorem kitQueue_acornBegin (p : Nat) (h : Word) (addr n : Nat) (s : State) :
    kitQueue (acornBegin p h addr n s) = kitQueue s := by simp [acornBegin]

@[simp] theorem kitQueue_acornArrived (p u : Nat) (bs : Option Bytes) (s : State) : kitQueue (acornArrived p u bs s) = kitQueue s := by
  unfold acornArrived; split <;> simp

@[simp] theorem kitQueue_acornMakeCmd (c : Cmd) (s : State) : kitQueue (acornMakeCmd c s) = kitQueue s := by simp [acornMakeCmd]
@[simp] theorem kitQueue_acornTakeCmd (c : Cmd) (s : State) : kitQueue (acornTakeCmd c s) = kitQueue s := by simp [acornTakeCmd]
@[simp] theorem kitQueue_applyTake (p : Nat) (h : Word) (q : Nat) (s : State) : kitQueue (applyTake p h q s) = kitQueue s := by simp [applyTake]
@[simp] theorem kitQueue_acornDropCmd (c : Cmd) (s : State) : kitQueue (acornDropCmd c s) = kitQueue s := by simp [acornDropCmd]
@[simp] theorem kitQueue_dropAcorn (p : Nat) (h : Word) (s : State) : kitQueue (dropAcorn p h s) = kitQueue s := by simp [dropAcorn]
@[simp] theorem kitQueue_applyAcornDrop (p : Nat) (h : Word) (s : State) : kitQueue (applyAcornDrop p h s) = kitQueue s := by simp [applyAcornDrop]
@[simp] theorem kitQueue_acornsLost (s : State) : kitQueue (acornsLost s) = kitQueue s := by simp [acornsLost]
@[simp] theorem kitQueue_variantRegCmd (c : Cmd) (s : State) : kitQueue (variantRegCmd c s) = kitQueue s := by simp [variantRegCmd]
@[simp] theorem kitQueue_variantDropCmd (c : Cmd) (s : State) : kitQueue (variantDropCmd c s) = kitQueue s := by simp [variantDropCmd]

/-! ### Machine/Objects.lean -/
@[simp] theorem kitQueue_infoCmd (c : Cmd) (s : State) : kitQueue (infoCmd c s) = kitQueue s := by simp [infoCmd]
@[simp] theorem kitQueue_pipProbeCmd (f : PipFault) (c : Cmd) (s : State) : kitQueue (pipProbeCmd f c s) = kitQueue s := by simp [pipProbeCmd]
@[simp] theorem kitQueue_registerBacking (b : Backing) (s : State) : kitQueue (registerBacking b s) = kitQueue s := by simp [registerBacking]
@[simp] theorem kitQueue_backingCmd (c : Cmd) (s : State) : kitQueue (backingCmd c s) = kitQueue s := by simp [backingCmd]
@[simp] theorem kitQueue_storeTable (v : Nat) (t : List RangeEntry) (s : State) : kitQueue (storeTable v t s) = kitQueue s := by simp [storeTable]

@[simp] theorem kitQueue_rangeAccepted (c : Cmd) (v : Nat) (busy : Bool) (t : List RangeEntry) (s : State) :
    kitQueue (rangeAccepted c v busy t s) = kitQueue s := by simp [rangeAccepted]

@[simp] theorem kitQueue_rangeCmd (c : Cmd) (s : State) : kitQueue (rangeCmd c s) = kitQueue s := by simp [rangeCmd]

@[simp] theorem kitQueue_rangeRead (c : Cmd) (v : Nat) (busy : Bool) (bs : Bytes) (s : State) : kitQueue (rangeRead c v busy bs s) = kitQueue s := by
  unfold rangeRead; split <;> simp

@[simp] theorem kitQueue_rangeArrives (v : Nat) (t : List RangeEntry) (s : State) :
    kitQueue (rangeArrives v t s) = kitQueue s := by simp [rangeArrives]

@[simp] theorem kitQueue_rangeStoredBy (n : Nat) (s : State) : kitQueue (rangeStoredBy n s) = kitQueue s := by simp [rangeStoredBy]
@[simp] theorem kitQueue_updMask (p id : Nat) (f : MaskObj → MaskObj) (s : State) : kitQueue (updMask p id f s) = kitQueue s := by simp [updMask]
@[simp] theorem kitQueue_updBias (p id : Nat) (f : BiasObj → BiasObj) (s : State) : kitQueue (updBias p id f s) = kitQueue s := by simp [updBias]
@[simp] theorem kitQueue_sweepObjects (s : State) : kitQueue (sweepObjects s) = kitQueue s := by simp [sweepObjects]
@[simp] theorem kitQueue_dropLoad (bias : Bool) (p id : Nat) (s : State) : kitQueue (dropLoad bias p id s) = kitQueue s := by simp [dropLoad]

@[simp] theorem kitQueue_objDecide (bias : Bool) (p id : Nat) (s : State) : kitQueue (objDecide bias p id s) = kitQueue s := by
  unfold objDecide; split <;> simp

@[simp] theorem kitQueue_objReported (src : Nat) (bias : Bool) (p id : Nat) (st : BitVec 16) (s : State) :
    kitQueue (objReported src bias p id st s) = kitQueue s := by simp [objReported]

@[simp] theorem kitQueue_reportObj (bias : Bool) (p id : Nat) (st : BitVec 16) (s : State) :
    kitQueue (reportObj bias p id st s) = kitQueue s := by simp [reportObj]

@[simp] theorem kitQueue_objAllApplied (bias : Bool) (p id : Nat) (s : State) :
    kitQueue (objAllApplied bias p id s) = kitQueue s := by simp [objAllApplied]

@[simp] theorem kitQueue_objAppliedBy (src : Nat) (bias : Bool) (p id : Nat) (s : State) :
    kitQueue (objAppliedBy src bias p id s) = kitQueue s := by simp [objAppliedBy]

@[simp] theorem kitQueue_tellApplied (bias : Bool) (p id : Nat) (s : State) : kitQueue (tellApplied bias p id s) = kitQueue s := by simp [tellApplied]

@[simp] theorem kitQueue_maskFetch (p id addr : Nat) (rs : List RangeEntry) (s : State) :
    kitQueue (maskFetch p id addr rs s) = kitQueue s := by simp [maskFetch]

@[simp] theorem kitQueue_maskBegin (p id addr : Nat) (s : State) : kitQueue (maskBegin p id addr s) = kitQueue s := by
  unfold maskBegin
  split
  · simp
  · rename_i u hu
    simp [kitQueue_allocBlocks _ _ _ _ hu]

@[simp] theorem kitQueue_maskArrived (p id addr : Nat) (r : RangeEntry) (bs : Option Bytes) (s : State) :
    kitQueue (maskArrived p id addr r bs s) = kitQueue s := by
  unfold maskArrived; split <;> simp

@[simp] theorem kitQueue_biasBegin (p id addr n : Nat) (s : State) : kitQueue (biasBegin p id addr n s) = kitQueue s := by
  unfold biasBegin
  split
  · simp
  · rename_i u hu
    simp [kitQueue_allocBlocks _ _ _ _ hu]

@[simp] theorem kitQueue_biasArrived (p id addr : Nat) (bs : Option Bytes) (s : State) : kitQueue (biasArrived p id addr bs s) = kitQueue s := by
  unfold biasArrived; split <;> simp

@[simp] theorem kitQueue_fetchObjects (rs : List RangeEntry) (s : State) : kitQueue (fetchObjects rs s) = kitQueue s := by simp [fetchObjects]
@[simp] theorem kitQueue_mobjLoadCmd (c : Cmd) (s : State) : kitQueue (mobjLoadCmd c s) = kitQueue s := by simp [mobjLoadCmd]
@[simp] theorem kitQueue_biasLoadCmd (c : Cmd) (s : State) : kitQueue (biasLoadCmd c s) = kitQueue s := by simp [biasLoadCmd]
@[simp] theorem kitQueue_mobjDeleteCmd (c : Cmd) (s : State) : kitQueue (mobjDeleteCmd c s) = kitQueue s := by simp [mobjDeleteCmd]
@[simp] theorem kitQueue_biasDeleteCmd (c : Cmd) (s : State) : kitQueue (biasDeleteCmd c s) = kitQueue s := by simp [biasDeleteCmd]
@[simp] theorem kitQueue_reuse (p : Nat) (old new : Use) (s : State) : kitQueue (reuse p old new s) = kitQueue s := by simp [reuse]

@[simp] theorem kitQueue_applyDelete (bias : Bool) (p id n : Nat) (s : State) :
    kitQueue (applyDelete bias p id n s) = kitQueue s := by simp [applyDelete]

@[simp] theorem kitQueue_applyLoad (bias : Bool) (p id : Nat) (s : State) : kitQueue (applyLoad bias p id s) = kitQueue s := by simp [applyLoad]

@[simp] theorem kitQueue_headPlaced (c : Cmd) (id : HeadId) (strips : List Strip) (s : State) :
    kitQueue (headPlaced c id strips s) = kitQueue s := by simp [headPlaced]

@[simp] theorem kitQueue_takeBlocks (p : Nat) (u : Use) (n : Nat) (s : State) : kitQueue (takeBlocks p u n s) = kitQueue s := by
  unfold takeBlocks
  split
  · rename_i u hu
    exact kitQueue_allocBlocks _ _ _ _ hu
  · rfl

@[simp] theorem kitQueue_headLoadCmd (c : Cmd) (s : State) : kitQueue (headLoadCmd c s) = kitQueue s := by simp [headLoadCmd]

@[simp] theorem kitQueue_headArrived (c : Cmd) (busy : Bool) (bs : Option Bytes) (s : State) : kitQueue (headArrived c busy bs s) = kitQueue s := by
  unfold headArrived; (repeat' split) <;> simp

@[simp] theorem kitQueue_headUnloadCmd (c : Cmd) (s : State) : kitQueue (headUnloadCmd c s) = kitQueue s := by simp [headUnloadCmd]
@[simp] theorem kitQueue_overlayAt (o : OverlayImage) (s : State) : kitQueue (overlayAt o s) = kitQueue s := by simp [overlayAt]

@[simp] theorem kitQueue_overlayLoadCmd (c : Cmd) (s : State) : kitQueue (overlayLoadCmd c s) = kitQueue s := by
  unfold overlayLoadCmd
  simp only [↓kitQueue_judge, ↓kitQueue_ite, ↓kitQueue_takeBlocks, ↓kitQueue_complete, ↓kitQueue_hmpRead, ↓kitQueue_mk, kitQueue_eta,
    ite_self, implies_true]

@[simp] theorem kitQueue_freeLastUse (f : BlockUse → Bool) (s : State) : kitQueue (freeLastUse f s) = kitQueue s := by
  unfold freeLastUse; split <;> simp

@[simp] theorem kitQueue_overlayArrived (c : Cmd) (busy : Bool) (bs : Option Bytes) (s : State) :
    kitQueue (overlayArrived c busy bs s) = kitQueue s := by
  unfold overlayArrived; (repeat' split) <;> simp

/-! ### Machine/Streams.lean -/

@[simp] theorem kitQueue_fetchStrip (i : StripId) (s : State) : kitQueue (fetchStrip i s) = kitQueue s := by
  unfold fetchStrip; split <;> simp

@[simp] theorem kitQueue_streamGo (p : Nat) (s : State) : kitQueue (streamGo p s) = kitQueue s := by simp [streamGo]
@[simp] theorem kitQueue_streamsGo (s : State) : kitQueue (streamsGo s) = kitQueue s := by simp [streamsGo]
@[simp] theorem kitQueue_refetchStrip (i : StripId) (s : State) : kitQueue (refetchStrip i s) = kitQueue s := by simp [refetchStrip]

@[simp] theorem kitQueue_streamArrived (i : StripId) (bs : Option Bytes) (s : State) :
    kitQueue (streamArrived i bs s) = kitQueue s := by simp [streamArrived]

/-! ### Machine/Merge.lean -/

@[simp] theorem kitQueue_updMergeAt (k : RowKey) (n : Nat) (f : Merge → Merge) (s : State) :
    kitQueue (updMergeAt k n f s) = kitQueue s := by simp [updMergeAt]

@[simp] theorem kitQueue_stale (s : State) : kitQueue (stale s) = kitQueue s := by simp [stale]

@[simp] theorem kitQueue_updForward (f : Micro → Micro) (s : State) : kitQueue (updForward f s) = kitQueue s := by
  unfold updForward; split <;> simp

@[simp] theorem kitQueue_closeMerges (q : Nat) (s : State) : kitQueue (closeMerges q s) = kitQueue s := by simp [closeMerges]
@[simp] theorem kitQueue_takeShell (n : Nat) (s : State) : kitQueue (takeShell n s).2 = kitQueue s := by simp [takeShell]
@[simp] theorem kitQueue_shellFull (k : RowKey) (s : State) : kitQueue (shellFull k s) = kitQueue s := by simp [shellFull]

@[simp] theorem kitQueue_phaseBEnds (k : RowKey) (s : State) : kitQueue (phaseBEnds k s) = kitQueue s := by
  dsimp only [phaseBEnds]; split <;> simp

@[simp] theorem kitQueue_onDup (k : RowKey) (s : State) (d : Dup) : kitQueue (onDup k s d) = kitQueue s := by
  unfold onDup; split <;> simp

@[simp] theorem kitQueue_setVerdict (v : Verdict) (s : State) : kitQueue (setVerdict v s) = kitQueue s := by simp [setVerdict]

@[simp] theorem kitQueue_plainVerdict (k : RowKey) (r : RowResult) (s : State) : kitQueue (plainVerdict k r s) = kitQueue s := by
  unfold plainVerdict; (repeat' split) <;> simp

@[simp] theorem kitQueue_verifyTree (q : Nat) (s : State) : kitQueue (verifyTree q s) = kitQueue s := by
  dsimp only [verifyTree]; (repeat' split) <;> simp

@[simp] theorem kitQueue_rowDone (k : RowKey) (r : RowResult) (s : State) : kitQueue (rowDone k r s) = kitQueue s := by simp [rowDone]
@[simp] theorem kitQueue_sendDown (k : RowKey) (n : Nat) (m : Msg) (s : State) : kitQueue (sendDown k n m s) = kitQueue s := by simp [sendDown]

@[simp] theorem kitQueue_drawWork (k : RowKey) (e : ReqEntry) (own : List ShellEntry) (s : State) :
    kitQueue (drawWork k e own s) = kitQueue s := by simp [drawWork]

@[simp] theorem kitQueue_drawDone (k : RowKey) (d : MdDraw) (s : State) : kitQueue (drawDone k d s) = kitQueue s := by
  unfold drawDone; split <;> simp

@[simp] theorem kitQueue_advanceD (k : RowKey) (f : Nat) (n : Nat) (s : State) : kitQueue (advanceD k f n s) = kitQueue s := by
  induction f generalizing n s with
  | zero => rfl
  | succ f ih => dsimp only [advanceD]; (repeat' split) <;> simp [ih]

@[simp] theorem kitQueue_applyEdge (edge : MbEdge) (s : State) : kitQueue (applyEdge edge s) = kitQueue s := by
  refine kitQueue_foldl (fun t n => ?_) _ _
  dsimp only
  (repeat' split) <;> simp

@[simp] theorem kitQueue_tokenLoss (k : RowKey) (b : MbShell) (s : State) : kitQueue (tokenLoss k b s) = kitQueue s := by simp [tokenLoss]

@[simp] theorem kitQueue_finishB (k : RowKey) (c : MaCut) (b : MbShell) (s : State) : kitQueue (finishB k c b s) = kitQueue s := by
  unfold finishB; (repeat' split) <;> simp

@[simp] theorem kitQueue_advanceB (k : RowKey) (f : Nat) (n : Nat) (s : State) : kitQueue (advanceB k f n s) = kitQueue s := by
  induction f generalizing n s with
  | zero => rfl
  | succ f ih => dsimp only [advanceB]; (repeat' split) <;> simp [ih]

@[simp] theorem kitQueue_shellReady (k : RowKey) (c : MaCut) (sum : Summary) (e : ReqEntry) (l : List ShellEntry) (s : State) :
    kitQueue (shellReady k c sum e l s) = kitQueue s := by simp [shellReady]

@[simp] theorem kitQueue_servingShell (k : RowKey) (c : MaCut) (sum : Summary) (e : ReqEntry) (s : State) :
    kitQueue (servingShell k c sum e s) = kitQueue s := by
  unfold servingShell; split <;> simp

@[simp] theorem kitQueue_rescoreRow (k : RowKey) (r : RowRec) (c : MaCut) (sum : Summary) (e : ReqEntry) (s : State) :
    kitQueue (rescoreRow k r c sum e s) = kitQueue s := by simp [rescoreRow]

@[simp] theorem kitQueue_treeMismatch (k : RowKey) (s : State) : kitQueue (treeMismatch k s) = kitQueue s := by simp [treeMismatch]

@[simp] theorem kitQueue_applyCut (c : MaCut) (s : State) : kitQueue (applyCut c s) = kitQueue s := by
  refine kitQueue_foldl (fun t n => ?_) _ _
  dsimp only
  (repeat' split) <;> simp

@[simp] theorem kitQueue_cutRows (q : Nat) (s : State) : kitQueue (cutRows q s) = kitQueue s := by
  dsimp only [cutRows]
  split
  · rfl
  · rw [kitQueue_ite, kitQueue_ite, kitQueue_foldl, ite_self, ite_self]
    intro t m
    (repeat' split) <;> simp

@[simp] theorem kitQueue_readCons (q : Nat) (s : State) : kitQueue (readCons q s) = kitQueue s := by
  unfold readCons; split <;> simp

@[simp] theorem kitQueue_advanceA (k : RowKey) (f : Nat) (n : Nat) (s : State) : kitQueue (advanceA k f n s) = kitQueue s := by
  induction f generalizing n s with
  | zero => rfl
  | succ f ih => dsimp only [advanceA]; (repeat' split) <;> simp [ih]

@[simp] theorem kitQueue_neutralSum (k : RowKey) (failed : Bool) (s : State) : kitQueue (neutralSum k failed s) = kitQueue s := by simp [neutralSum]

@[simp] theorem kitQueue_sieveRow (k : RowKey) (s : State) : kitQueue (sieveRow k s) = kitQueue s := by
  unfold sieveRow; (repeat' split) <;> simp

@[simp] theorem kitQueue_sieveToken (k : RowKey) (s : State) : kitQueue (sieveToken k s) = kitQueue s := by
  unfold sieveToken; (repeat' split) <;> simp

@[simp] theorem kitQueue_pipParity (k : RowKey) (f : PipFault) (s : State) : kitQueue (pipParity k f s) = kitQueue s := by simp [pipParity]
@[simp] theorem kitQueue_sieveParity (k : RowKey) (f : PipFault) (s : State) : kitQueue (sieveParity k f s) = kitQueue s := by simp [sieveParity]

@[simp] theorem kitQueue_maSumArrives (src : Nat) (r : MaSum) (s : State) : kitQueue (maSumArrives src r s) = kitQueue s := by
  dsimp only [maSumArrives]; split <;> simp

@[simp] theorem kitQueue_retryCut (c : MaCut) (s : State) : kitQueue (retryCut c s) = kitQueue s := by simp [retryCut]

@[simp] theorem kitQueue_retryTokens (s : State) : kitQueue (retryTokens s) = kitQueue s := by
  refine kitQueue_foldl (fun t m => ?_) _ _
  split <;> simp

@[simp] theorem kitQueue_maCutArrives (c : MaCut) (s : State) : kitQueue (maCutArrives c s) = kitQueue s := by simp [maCutArrives]

@[simp] theorem kitQueue_mbShellArrives (src : Nat) (r : MbShell) (s : State) : kitQueue (mbShellArrives src r s) = kitQueue s := by
  dsimp only [mbShellArrives]; split <;> simp

@[simp] theorem kitQueue_mbEdgeArrives (r : MbEdge) (s : State) : kitQueue (mbEdgeArrives r s) = kitQueue s := by simp [mbEdgeArrives]

@[simp] theorem kitQueue_mdDrawArrives (src : Nat) (r : MdDraw) (s : State) : kitQueue (mdDrawArrives src r s) = kitQueue s := by
  dsimp only [mdDrawArrives]; split <;> simp

/-! ### Machine/Training.lean -/
@[simp] theorem kitQueue_updTrain (f : Training → Training) (s : State) : kitQueue (updTrain f s) = kitQueue s := by simp [updTrain]
@[simp] theorem kitQueue_updMicro (seq : Word) (f : Micro → Micro) (s : State) : kitQueue (updMicro seq f s) = kitQueue s := by simp [updMicro]

@[simp] theorem kitQueue_slotWrites (part : Nat) (ws : List (Nat × Bytes)) (k : SlotKind) (seq : Word) (s : State) :
    kitQueue (slotWrites part ws k seq s) = kitQueue s := by simp [slotWrites]

@[simp] theorem kitQueue_openRead (c : Cmd) (d : Bytes) (s : State) : kitQueue (openRead c d s) = kitQueue s := by simp [openRead]
@[simp] theorem kitQueue_openCmd (c : Cmd) (s : State) : kitQueue (openCmd c s) = kitQueue s := by simp [openCmd]
@[simp] theorem kitQueue_fillDone (src : Nat) (s : State) : kitQueue (fillDone src s) = kitQueue s := by simp [fillDone]

@[simp] theorem kitQueue_tellHolder (k : SlotKind) (seq : Word) (here : Nat → State → State) (s : State) (hk : ∀ a t, kitQueue (here a t) = kitQueue
    t) :
    kitQueue (tellHolder k seq here s) = kitQueue s := by simp [tellHolder, hk]

@[simp] theorem kitQueue_sessionOpens (s : State) : kitQueue (sessionOpens s) = kitQueue s := by simp [sessionOpens]
@[simp] theorem kitQueue_applyOpen (p : Nat) (d : SessionDesc) (s : State) : kitQueue (applyOpen p d s) = kitQueue s := by simp [applyOpen]
@[simp] theorem kitQueue_takePart (n : Nat) (s : State) : kitQueue (takePart n s) = kitQueue s := by simp [takePart]
@[simp] theorem kitQueue_startForward (c : Cmd) (d : MicroDesc) (s : State) : kitQueue (startForward c d s) = kitQueue s := by simp [startForward]
@[simp] theorem kitQueue_seqCounts (seq : Word) (s : State) : kitQueue (seqCounts seq s) = kitQueue s := by simp [seqCounts]

@[simp] theorem kitQueue_forwardRead (c : Cmd) (busy : Bool) (d : Bytes) (s : State) :
    kitQueue (forwardRead c busy d s) = kitQueue s := by simp [forwardRead]

@[simp] theorem kitQueue_forwardCmd (c : Cmd) (s : State) : kitQueue (forwardCmd c s) = kitQueue s := by simp [forwardCmd]
@[simp] theorem kitQueue_forwardFails (seq : Word) (st : Status) (s : State) : kitQueue (forwardFails seq st s) = kitQueue s := by simp [forwardFails]
@[simp] theorem kitQueue_dropTokens (s : State) : kitQueue (dropTokens s) = kitQueue s := by simp [dropTokens]

@[simp] theorem kitQueue_applyForward (n : Nat) (d : MicroDesc) (s : State) : kitQueue (applyForward n d s) = kitQueue s := by
  dsimp only [applyForward]
  split
  · rfl
  · split
    · simp
    · rename_i u hu
      simp [kitQueue_allocBlocks _ _ _ _ hu]

@[simp] theorem kitQueue_freeMicro (seq : Word) (s : State) : kitQueue (freeMicro seq s) = kitQueue s := by simp [freeMicro]

@[simp] theorem kitQueue_targetsArrived (seq : Word) (bs : Option Bytes) (s : State) : kitQueue (targetsArrived seq bs s) = kitQueue s := by
  unfold targetsArrived; split <;> simp

@[simp] theorem kitQueue_tileAgain (seq : Word) (tile : Nat) (s : State) : kitQueue (tileAgain seq tile s) = kitQueue s := by simp [tileAgain]
@[simp] theorem kitQueue_tileLost (seq : Word) (tile : Nat) (s : State) : kitQueue (tileLost seq tile s) = kitQueue s := by simp [tileLost]

theorem kitQueue_placeTile (t : Training) (seq : Word) (tile : Nat) (s : State) {u : State} (e : placeTile t seq tile s = some u) :
    kitQueue u = kitQueue s := by
  dsimp only [placeTile] at e
  split at e
  · rename_i v hv
    cases e
    simp [kitQueue_allocBlocks _ _ _ _ hv]
  · split at e <;> cases e
    simp

@[simp] theorem kitQueue_spillTile (seq : Word) (tile : Nat) (s : State) : kitQueue (spillTile seq tile s) = kitQueue s := by
  unfold spillTile; (repeat' split) <;> simp

@[simp] theorem kitQueue_lossGather (seq : Word) (s : State) : kitQueue (lossGather seq s) = kitQueue s := by
  dsimp only [lossGather]; (repeat' split) <;> simp

@[simp] theorem kitQueue_normGather (s : State) : kitQueue (normGather s) = kitQueue s := by
  dsimp only [normGather]; (repeat' split) <;> simp

@[simp] theorem kitQueue_trSumArrives (src : Nat) (r : TrSum) (s : State) : kitQueue (trSumArrives src r s) = kitQueue s := by
  unfold trSumArrives; (repeat' split) <;> simp

@[simp] theorem kitQueue_forwardDone (s : State) : kitQueue (forwardDone s) = kitQueue s := by
  unfold forwardDone; split <;> simp

@[simp] theorem kitQueue_readBank (t : Training) (base bank es : Nat) (h : StripHdr) (cells : List Cell) (why : Nat → Nat → Purpose) (s : State) :
    kitQueue (readBank t base bank es h cells why s) = kitQueue s := by simp [readBank]

@[simp] theorem kitQueue_normCmd (c : Cmd) (s : State) : kitQueue (normCmd c s) = kitQueue s := by simp [normCmd]

@[simp] theorem kitQueue_normSettle (s : State) : kitQueue (normSettle s) = kitQueue s := by
  unfold normSettle; split <;> simp

@[simp] theorem kitQueue_applyNorm (addr : Nat) (s : State) : kitQueue (applyNorm addr s) = kitQueue s := by
  dsimp only [applyNorm]; (repeat' split) <;> simp

@[simp] theorem kitQueue_normAgain (s : State) : kitQueue (normAgain s) = kitQueue s := by
  unfold normAgain; split <;> simp

@[simp] theorem kitQueue_normArrived (chunk slot : Nat) (b : Bytes) (s : State) :
    kitQueue (normArrived chunk slot b s) = kitQueue s := by simp [normArrived]

@[simp] theorem kitQueue_rsStream (t : Training) (seq : Word) (own : Nat → Nat → BitVec 96) (st port : Nat) (f : Nat) (s : State) :
    kitQueue (rsStream t seq own st port f s) = kitQueue s := by
  induction f generalizing s with
  | zero => rfl
  | succ f ih => dsimp only [rsStream]; (repeat' split) <;> simp [ih]

@[simp] theorem kitQueue_rsSend (t : Training) (seq : Word) (own : Nat → Nat → BitVec 96) (fuel : Nat) (s : State) :
    kitQueue (rsSend t seq own fuel s) = kitQueue s := by simp [rsSend]

@[simp] theorem kitQueue_makeBeats (t : Training) (seq : Word) (own : Nat → Nat → BitVec 96) (clamp : Nat → Nat → Nat) (f : Nat) (s : State) :
    kitQueue (makeBeats t seq own clamp f s) = kitQueue s := by
  induction f generalizing s with
  | zero => rfl
  | succ f ih => dsimp only [makeBeats]; (repeat' split) <;> simp [ih]

@[simp] theorem kitQueue_gradAdvance (seq : Word) (s : State) : kitQueue (gradAdvance seq s) = kitQueue s := by
  unfold gradAdvance; (repeat' split) <;> simp

@[simp] theorem kitQueue_gradsAdvance (s : State) : kitQueue (gradsAdvance s) = kitQueue s := by simp [gradsAdvance]

@[simp] theorem kitQueue_rsBeginArrives (port : Nat) (r : RsBegin) (s : State) :
    kitQueue (rsBeginArrives port r s) = kitQueue s := by simp [rsBeginArrives]

@[simp] theorem kitQueue_rsFlitArrives (port : Nat) (form : RsForm) (body : Bytes) (s : State) :
    kitQueue (rsFlitArrives port form body s) = kitQueue s := by
  unfold rsFlitArrives; (repeat' split) <;> simp

@[simp] theorem kitQueue_startBackward (c : Cmd) (seq : Word) (s : State) : kitQueue (startBackward c seq s) = kitQueue s := by simp [startBackward]
@[simp] theorem kitQueue_backwardCmd (c : Cmd) (s : State) : kitQueue (backwardCmd c s) = kitQueue s := by simp [backwardCmd]
@[simp] theorem kitQueue_growFails (seq : Word) (st : Status) (s : State) : kitQueue (growFails seq st s) = kitQueue s := by simp [growFails]
@[simp] theorem kitQueue_dropGrowth (seq : Word) (s : State) : kitQueue (dropGrowth seq s) = kitQueue s := by simp [dropGrowth]

@[simp] theorem kitQueue_growBegins (seq : Word) (s : State) : kitQueue (growBegins seq s) = kitQueue s := by
  dsimp only [growBegins]
  split
  · rfl
  · split
    · rename_i u hu
      refine (kitQueue_bind (fun t => kitQueue_allocBlocks _ _ _ _) (fun t v e => ?_) hu :)
      split at e
      · exact kitQueue_allocBlocks _ _ _ _ e
      · rw [Except.ok.inj e]
    · simp

@[simp] theorem kitQueue_applyBackward (seq : Word) (grow : Bool) (s : State) : kitQueue (applyBackward seq grow s) = kitQueue s := by
  dsimp only [applyBackward]
  split
  · rw [kitQueue_gradAdvance, kitQueue_foldl]
    · simp
    · intro t x
      split <;> simp
  · rfl

@[simp] theorem kitQueue_spillArrived (seq : Word) (tile : Nat) (bs : Option Bytes) (s : State) :
    kitQueue (spillArrived seq tile bs s) = kitQueue s := by
  unfold spillArrived; (repeat' split) <;> simp

@[simp] theorem kitQueue_saveToken (seq : Word) (u fmt : Nat) (payload : Bytes) (s : State) :
    kitQueue (saveToken seq u fmt payload s) = kitQueue s := by
  unfold saveToken
  split
  · dsimp only
    split
    · simp
    · rename_i u hu
      have hu' : kitQueue u = kitQueue s := by
        split at hu
        · cases hu; rfl
        · exact kitQueue_placeTile _ _ _ _ hu
      simp [hu']
  · rfl

@[simp] theorem kitQueue_backwardReady (seq : Word) (src : Nat) (s : State) :
    kitQueue (backwardReady seq src s) = kitQueue s := by simp [backwardReady]

@[simp] theorem kitQueue_writeAccs (t : Training) (h : Head) (hd : StripHdr) (m : Micro) (s : State) :
    kitQueue (writeAccs t h hd m s) = kitQueue s := by simp [writeAccs]

@[simp] theorem kitQueue_backwardDone (grown : State → State) (s : State) (hk : ∀ t, kitQueue (grown t) = kitQueue t) :
    kitQueue (backwardDone grown s) = kitQueue s := by
  unfold backwardDone; (repeat' split) <;> simp [hk]

@[simp] theorem kitQueue_accArrived (seq : Word) (chunk slot : Nat) (b : Bytes) (s : State) :
    kitQueue (accArrived seq chunk slot b s) = kitQueue s := by
  dsimp only [accArrived]; (repeat' split) <;> simp

@[simp] theorem kitQueue_dropBackward (seq : Word) (s : State) : kitQueue (dropBackward seq s) = kitQueue s := by simp [dropBackward]
@[simp] theorem kitQueue_backwardFails (seq : Word) (s : State) : kitQueue (backwardFails seq s) = kitQueue s := by simp [backwardFails]
@[simp] theorem kitQueue_updateCmd (c : Cmd) (s : State) : kitQueue (updateCmd c s) = kitQueue s := by simp [updateCmd]
@[simp] theorem kitQueue_updateReady (src : Nat) (s : State) : kitQueue (updateReady src s) = kitQueue s := by simp [updateReady]

@[simp] theorem kitQueue_readUpdate (s : State) : kitQueue (readUpdate s) = kitQueue s := by
  unfold readUpdate; (repeat' split) <;> simp

@[simp] theorem kitQueue_applyUpdate (a : UpdateArgs) (s : State) : kitQueue (applyUpdate a s) = kitQueue s := by simp [applyUpdate]

@[simp] theorem kitQueue_updAccArrived (chunk slot : Nat) (b : Bytes) (s : State) :
    kitQueue (updAccArrived chunk slot b s) = kitQueue s := by simp [updAccArrived]

@[simp] theorem kitQueue_updStateArrived (chunk slot : Nat) (b : Bytes) (s : State) :
    kitQueue (updStateArrived chunk slot b s) = kitQueue s := by simp [updStateArrived]

@[simp] theorem kitQueue_dropUpdate (s : State) : kitQueue (dropUpdate s) = kitQueue s := by
  unfold dropUpdate; split <;> simp

@[simp] theorem kitQueue_updateFails (s : State) : kitQueue (updateFails s) = kitQueue s := by simp [updateFails]

@[simp] theorem kitQueue_updateDone (s : State) : kitQueue (updateDone s) = kitQueue s := by
  unfold updateDone; (repeat' split) <;> simp

@[simp] theorem kitQueue_rebuildRetired (p first : Nat) (s : State) : kitQueue (rebuildRetired p first s) = kitQueue s := by
  unfold rebuildRetired; (repeat' split) <;> simp

@[simp] theorem kitQueue_retiredArrived (p first chunk slot : Nat) (bs : Option Bytes) (s : State) :
    kitQueue (retiredArrived p first chunk slot bs s) = kitQueue s := by
  unfold retiredArrived; (repeat' split) <;> simp

@[simp] theorem kitQueue_closeCmd (c : Cmd) (s : State) : kitQueue (closeCmd c s) = kitQueue s := by simp [closeCmd]

@[simp] theorem kitQueue_endSession (s : State) : kitQueue (endSession s) = kitQueue s := by
  unfold endSession
  split
  · rfl
  · rfl

@[simp] theorem kitQueue_startWaiting (s : State) : kitQueue (startWaiting s) = kitQueue s := by
  unfold startWaiting; (repeat' split) <;> simp

@[simp] theorem kitQueue_trainStamp (n : Nat) (s : State) : kitQueue (trainStamp n s) = kitQueue s := by
  unfold trainStamp; (repeat' split) <;> simp

@[simp] theorem kitQueue_forwardCommits (seq : Word) (s : State) : kitQueue (forwardCommits seq s) = kitQueue s := by simp [forwardCommits]
@[simp] theorem kitQueue_backwardCommits (seq : Word) (s : State) : kitQueue (backwardCommits seq s) = kitQueue s := by simp [backwardCommits]

@[simp] theorem kitQueue_updateCommits (s : State) : kitQueue (updateCommits s) = kitQueue s := by
  unfold updateCommits; split <;> simp

@[simp] theorem kitQueue_normCommits (s : State) : kitQueue (normCommits s) = kitQueue s := by simp [normCommits]
@[simp] theorem kitQueue_discardForward (seq : Word) (s : State) : kitQueue (discardForward seq s) = kitQueue s := by simp [discardForward]

/-! ### Machine/Mask.lean -/
@[simp] theorem kitQueue_updPlan (p : Nat) (f : Plan → Plan) (s : State) : kitQueue (updPlan p f s) = kitQueue s := by simp [updPlan]

@[simp] theorem kitQueue_selectEnds (p : Nat) (r : PassEnd) (s : State) : kitQueue (selectEnds p r s) = kitQueue s := by
  unfold selectEnds; split <;> simp

@[simp] theorem kitQueue_passArrives (p : Nat) (others_ : SelMerge) (s : State) : kitQueue (passArrives p others_ s) = kitQueue s := by
  dsimp only [passArrives]; (repeat' split) <;> simp

@[simp] theorem kitQueue_pruneCmd (c : Cmd) (s : State) : kitQueue (pruneCmd c s) = kitQueue s := by
  unfold pruneCmd
  simp only [↓kitQueue_judge, ↓kitQueue_await, ↓kitQueue_announce, implies_true]

@[simp] theorem kitQueue_pruneFails (p : Nat) (st : Status) (s : State) : kitQueue (pruneFails p st s) = kitQueue s := by simp [pruneFails]

@[simp] theorem kitQueue_dropPrune (s : State) : kitQueue (dropPrune s) = kitQueue s := by
  unfold dropPrune; split <;> simp

@[simp] theorem kitQueue_applyPrune (tile perSlice : Bool) (k : Nat) (s : State) : kitQueue (applyPrune tile perSlice k s) = kitQueue s := by
  dsimp only [applyPrune]
  split
  · rfl
  · split
    · rename_i u hu
      exact (kitQueue_bind (fun t => kitQueue_allocBlocks _ _ _ _) (fun t v => kitQueue_allocBlocks _ _ _ _) hu :)
    · simp

@[simp] theorem kitQueue_growCmd (c : Cmd) (s : State) : kitQueue (growCmd c s) = kitQueue s := by simp [growCmd]

@[simp] theorem kitQueue_growSwap (s : State) : kitQueue (growSwap s) = kitQueue s := by
  unfold growSwap; (repeat' split) <;> simp

theorem kitQueue_buildBlocks (p : Nat) (h : Head) (new : List Strip) (s : State) {t : State} (e : buildBlocks p h new s = .ok t) :
    kitQueue t = kitQueue s := by
  dsimp only [buildBlocks] at e
  split at e
  · cases e
  · rename_i u hu
    rw [kitQueue_allocBlocks _ _ _ _ e, kitQueue_allocBlocks _ _ _ _ hu]

@[simp] theorem kitQueue_buildFails (p : Nat) (st : Status) (s : State) : kitQueue (buildFails p st s) = kitQueue s := by simp [buildFails]
@[simp] theorem kitQueue_buildReady (src : Nat) (s : State) : kitQueue (buildReady src s) = kitQueue s := by simp [buildReady]

@[simp] theorem kitQueue_applyBarrier (const : Bool) (c : F32) (s : State) : kitQueue (applyBarrier const c s) = kitQueue s := by
  dsimp only [applyBarrier]
  split
  · rfl
  · split
    · split
      · simp
      · simp
      · rename_i u hu
        simp [kitQueue_buildBlocks _ _ _ _ hu]
    · simp

@[simp] theorem kitQueue_barrierCmd (c : Cmd) (s : State) : kitQueue (barrierCmd c s) = kitQueue s := by simp [barrierCmd]

@[simp] theorem kitQueue_barrierStamp (n : Nat) (s : State) : kitQueue (barrierStamp n s) = kitQueue s := by
  unfold barrierStamp; (repeat' split) <;> simp

@[simp] theorem kitQueue_imageWritten (src : Nat) (s : State) : kitQueue (imageWritten src s) = kitQueue s := by
  dsimp only [imageWritten]; split <;> simp

@[simp] theorem kitQueue_hostImageDone (s : State) : kitQueue (hostImageDone s) = kitQueue s := by simp [hostImageDone]
@[simp] theorem kitQueue_headTold (p : Nat) (id : HeadId) (s : State) : kitQueue (headTold p id s) = kitQueue s := by simp [headTold]

@[simp] theorem kitQueue_barrierCommits (s : State) : kitQueue (barrierCommits s) = kitQueue s := by
  unfold barrierCommits; (repeat' split) <;> simp

@[simp] theorem kitQueue_barrierDrops (s : State) : kitQueue (barrierDrops s) = kitQueue s := by
  unfold barrierDrops; split <;> simp

@[simp] theorem kitQueue_discardCmd (c : Cmd) (s : State) : kitQueue (discardCmd c s) = kitQueue s := by simp [discardCmd]

@[simp] theorem kitQueue_applyDiscard (s : State) : kitQueue (applyDiscard s) = kitQueue s := by
  unfold applyDiscard; (repeat' split) <;> simp

@[simp] theorem kitQueue_maskStatusCmd (c : Cmd) (s : State) : kitQueue (maskStatusCmd c s) = kitQueue s := by simp [maskStatusCmd]
@[simp] theorem kitQueue_normFails (s : State) : kitQueue (normFails s) = kitQueue s := by simp [normFails]

@[simp] theorem kitQueue_slotTold (src : Nat) (k : SlotKind) (seq : Word) (s : State) : kitQueue (slotTold src k seq s) = kitQueue s := by
  unfold slotTold; split <;> simp

@[simp] theorem kitQueue_slotCommits (k : SlotKind) (seq : Word) (s : State) : kitQueue (slotCommits k seq s) = kitQueue s := by
  unfold slotCommits; split <;> simp

@[simp] theorem kitQueue_slotWritten (k : SlotKind) (seq : Word) (s : State) : kitQueue (slotWritten k seq s) = kitQueue s := by
  unfold slotWritten; split <;> simp

/-! ### Machine/Pans.lean -/
@[simp] theorem kitQueue_dropCopies (f : StripId → Nat → Bool) (s : State) : kitQueue (dropCopies f s) = kitQueue s := by simp [dropCopies]
@[simp] theorem kitQueue_fencePan (n : Nat) (s : State) : kitQueue (fencePan n s) = kitQueue s := by simp [fencePan]
@[simp] theorem kitQueue_heatUp (i : StripId) (n : Nat) (s : State) : kitQueue (heatUp i n s) = kitQueue s := by simp [heatUp]

@[simp] theorem kitQueue_passDone (p : PassInfo) (s : State) : kitQueue (passDone p s) = kitQueue s := by
  unfold passDone; (repeat' split) <;> simp

@[simp] theorem kitQueue_startCopy (i : StripId) (n : Nat) (s : State) : kitQueue (startCopy i n s) = kitQueue s := by simp [startCopy]

@[simp] theorem kitQueue_planCopy (k : Nat) (i : StripId) (s : State) : kitQueue (planCopy k i s).1 = kitQueue s := by
  dsimp only [planCopy]; (repeat' split) <;> simp

@[simp] theorem kitQueue_planRound (n : Nat) (l : List StripId) (moved : Nat) (s : State) : kitQueue (planRound n l moved s) = kitQueue s := by
  induction l generalizing moved s with
  | nil => rfl
  | cons i l ih => simp [planRound, ih]

@[simp] theorem kitQueue_stockpotPlan (s : State) : kitQueue (stockpotPlan s).1 = kitQueue s := by simp [stockpotPlan]
@[simp] theorem kitQueue_placementPlan (s : State) : kitQueue (placementPlan s) = kitQueue s := by simp [placementPlan]
@[simp] theorem kitQueue_ageHeat (s : State) : kitQueue (ageHeat s) = kitQueue s := by simp [ageHeat]
@[simp] theorem kitQueue_dropStale (f : StripId → Bool) (s : State) : kitQueue (dropStale f s) = kitQueue s := by simp [dropStale]
@[simp] theorem kitQueue_copyDone (i : StripId) (n : Nat) (s : State) : kitQueue (copyDone i n s) = kitQueue s := by simp [copyDone]

/-! ### Machine/Power.lean -/
@[simp] theorem kitQueue_updPair (p : Nat) (f : Pair → Pair) (s : State) : kitQueue (updPair p f s) = kitQueue s := by simp [updPair]
@[simp] theorem kitQueue_setPair (p mhz : Nat) (s : State) : kitQueue (setPair p mhz s) = kitQueue s := by simp [setPair]
@[simp] theorem kitQueue_settlePairs (s : State) : kitQueue (settlePairs s) = kitQueue s := by simp [settlePairs]
@[simp] theorem kitQueue_planDomain (pans : List Nat) (s : State) (d : Nat) : kitQueue (planDomain pans s d) = kitQueue s := by simp [planDomain]
@[simp] theorem kitQueue_planPower (pans : List Nat) (s : State) : kitQueue (planPower pans s) = kitQueue s := by simp [planPower]
@[simp] theorem kitQueue_powerPlan (s : State) : kitQueue (powerPlan s) = kitQueue s := by simp [powerPlan]
@[simp] theorem kitQueue_wakePans (s : State) : kitQueue (wakePans s) = kitQueue s := by simp [wakePans]
@[simp] theorem kitQueue_pwrAck (d : Nat) (s : State) : kitQueue (pwrAck d s) = kitQueue s := by simp [pwrAck]
@[simp] theorem kitQueue_panIdleOff (n : Nat) (s : State) : kitQueue (panIdleOff n s) = kitQueue s := by simp [panIdleOff]
@[simp] theorem kitQueue_agePans (s : State) : kitQueue (agePans s) = kitQueue s := by simp [agePans]
@[simp] theorem kitQueue_fencePair (p : Nat) (s : State) : kitQueue (fencePair p s) = kitQueue s := by simp [fencePair]

@[simp] theorem kitQueue_vfLoop (p stretched cycles : Nat) (quiet : Bool) (s : State) :
    kitQueue (vfLoop p stretched cycles quiet s) = kitQueue s := by
  unfold vfLoop; split <;> simp

@[simp] theorem kitQueue_vackRises (p : Nat) (s : State) : kitQueue (vackRises p s) = kitQueue s := by
  unfold vackRises; split <;> simp

@[simp] theorem kitQueue_alertRise (s : State) : kitQueue (alertRise s) = kitQueue s := by simp [alertRise]
@[simp] theorem kitQueue_alertFall (s : State) : kitQueue (alertFall s) = kitQueue s := by simp [alertFall]
@[simp] theorem kitQueue_droop (p : Nat) (s : State) : kitQueue (droop p s) = kitQueue s := by simp [droop]
@[simp] theorem kitQueue_pwrEst (s : State) : kitQueue (pwrEst s) = kitQueue s := by simp [pwrEst]

/-! ### Machine/Hip.lean -/

@[simp] theorem kitQueue_updHip (c : HipClass) (f : HipPort → HipPort) (s : State) : kitQueue (updHip c f s) = kitQueue s := by
  unfold updHip; split <;> simp

@[simp] theorem kitQueue_returnCredits (s : State) : kitQueue (returnCredits s) = kitQueue s := by simp [returnCredits]

@[simp] theorem kitQueue_hipViolation (c : HipClass) (code offset : Nat) (row : List Bytes) (s : State) :
    kitQueue (hipViolation c code offset row s) = kitQueue s := by simp [hipViolation]

theorem kitQueue_holdRow (must : Bool) (r : RowRec) (s : State) {t : State} (e : holdRow must r s = .ok t) : kitQueue t = kitQueue s := by
  dsimp only [holdRow] at e
  split at e
  · rename_i u hu
    cases e
    exact (kitQueue_allocLines _ _ _ _ hu :)
  · split at e <;> cases e
    rfl

@[simp] theorem kitQueue_rowReported (q : Nat) (s : State) : kitQueue (rowReported q s) = kitQueue s := by simp [rowReported]
@[simp] theorem kitQueue_carryReported (q k : Nat) (s : State) : kitQueue (carryReported q k s) = kitQueue s := by simp [carryReported]

@[simp] theorem kitQueue_treeCheck (q : Nat) (s : State) : kitQueue (treeCheck q s) = kitQueue s := by
  unfold treeCheck; split <;> simp

@[simp] theorem kitQueue_rowReportArrives (src q n : Nat) (trees : List Bytes) (s : State) :
    kitQueue (rowReportArrives src q n trees s) = kitQueue s := by
  dsimp only [rowReportArrives]; split <;> simp

@[simp] theorem kitQueue_serveRow (late : Bool) (r : RowRec) (s : State) : kitQueue (serveRow late r s) = kitQueue s := by
  dsimp only [serveRow]
  split
  · simp
  split
  · simp
  · simp
  · split
    · simp
    · split
      · simp
      split
      · simp
      · rename_i u hu
        have hkept := kitQueue_holdRow _ _ _ hu
        split
        · split <;> simp [hkept]
        · simp [hkept]

@[simp] theorem kitQueue_trainRow (r : RowRec) (s : State) : kitQueue (trainRow r s) = kitQueue s := by
  dsimp only [trainRow]; split <;> simp

@[simp] theorem kitQueue_judgeRow (c : HipClass) (late : Bool) (row : List Bytes) (s : State) : kitQueue (judgeRow c late row s) = kitQueue s := by
  dsimp only [judgeRow]; (repeat' split) <;> simp

@[simp] theorem kitQueue_judgeWaiting (s : State) : kitQueue (judgeWaiting s) = kitQueue s := by simp [judgeWaiting]
@[simp] theorem kitQueue_frameBeat (c : HipClass) (b : HipBeat) (s : State) : kitQueue (frameBeat c b s) = kitQueue s := by simp [frameBeat]
@[simp] theorem kitQueue_hipBeat (c : HipClass) (b : HipBeat) (s : State) : kitQueue (hipBeat c b s) = kitQueue s := by simp [hipBeat]
@[simp] theorem kitQueue_hipRow (c : HipClass) (bs : List HipBeat) (s : State) : kitQueue (hipRow c bs s) = kitQueue s := by simp [hipRow]

/-! ### Machine/Lines.lean -/
@[simp] theorem kitQueue_nextWcount (s : State) : kitQueue (nextWcount s) = kitQueue s := by simp [nextWcount]

@[simp] theorem kitQueue_writeSlot (p q slot adm : Nat) (src : Option Nat) (line : Bytes) (after : AfterWrite) (s : State) :
    kitQueue (writeSlot p q slot adm src line after s) = kitQueue s := by
  unfold writeSlot; split <;> simp

@[simp] theorem kitQueue_writeLine (q : Nat) (l : Nat × Bytes) (s : State) : kitQueue (writeLine q l s) = kitQueue s := by
  unfold writeLine; split <;> simp

@[simp] theorem kitQueue_writeBack (q : Nat) (s : State) : kitQueue (writeBack q s) = kitQueue s := by
  unfold writeBack; split <;> simp

@[simp] theorem kitQueue_flushCache (s : State) : kitQueue (flushCache s) = kitQueue s := by simp [flushCache]

@[simp] theorem kitQueue_evictLine (l : Nat × Nat) (s : State) : kitQueue (evictLine l s) = kitQueue s := by
  dsimp only [evictLine]; split <;> simp

@[simp] theorem kitQueue_accessLine (l : Nat × Nat) (s : State) : kitQueue (accessLine l s) = kitQueue s := by simp [accessLine]

@[simp] theorem kitQueue_fetchLines (q : Nat) (s : State) : kitQueue (fetchLines q s) = kitQueue s := by
  unfold fetchLines; (repeat' split) <;> simp

@[simp] theorem kitQueue_restoreLine (q slot : Nat) (s : State) : kitQueue (restoreLine q slot s) = kitQueue s := by
  dsimp only [restoreLine]; (repeat' split) <;> simp

@[simp] theorem kitQueue_lineBack (q slot : Nat) (s : State) : kitQueue (lineBack q slot s) = kitQueue s := by simp [lineBack]

@[simp] theorem kitQueue_putLine (q slot : Nat) (line : Bytes) (s : State) : kitQueue (putLine q slot line s) = kitQueue s := by
  unfold putLine; (repeat' split) <;> simp

@[simp] theorem kitQueue_backingArrived (q slot : Nat) (bs : Option Bytes) (s : State) : kitQueue (backingArrived q slot bs s) = kitQueue s := by
  unfold backingArrived; (repeat' split) <;> simp

@[simp] theorem kitQueue_writeRecord (e : ReqEntry) (n seq : Nat) (bytes : Bytes) (s : State) :
    kitQueue (writeRecord e n seq bytes s) = kitQueue s := by simp [writeRecord]

@[simp] theorem kitQueue_writeRecords (e : ReqEntry) (n seq : Nat) (l : List Bytes) (s : State) :
    kitQueue (writeRecords e n seq l s) = kitQueue s := by simp [writeRecords]

@[simp] theorem kitQueue_publishOne (p : Publication) (s : State) : kitQueue (publishOne p s) = kitQueue s := by
  unfold publishOne; split <;> simp

/-- Publications that go out one after another, those that may not kept for later. -/
theorem kitQueue_publishEach (l : List Publication) (a : State × List Publication) :
    kitQueue (l.foldl (fun a p => if mayPublish a.2 p a.1 then (publishOne p a.1, a.2) else (a.1, a.2 ++ [p])) a).1 = kitQueue a.1 := by
  induction l generalizing a with
  | nil => rfl
  | cons p l ih =>
    rw [List.foldl_cons, ih]
    split <;> simp

@[simp] theorem kitQueue_drainPubs (s : State) : kitQueue (drainPubs s) = kitQueue s := by
  exact kitQueue_publishEach s.evt.late ({ s with evt := { s.evt with late := [] } }, [])

@[simp] theorem kitQueue_publishOut (p : Publication) (s : State) : kitQueue (publishOut p s) = kitQueue s := by simp [publishOut]

@[simp] theorem kitQueue_tryProd (q : Nat) (s : State) : kitQueue (tryProd q s) = kitQueue s := by
  unfold tryProd; split <;> simp

@[simp] theorem kitQueue_recordOut (q n : Nat) (last : Bool) (s : State) : kitQueue (recordOut q n last s) = kitQueue s := by simp [recordOut]

@[simp] theorem kitQueue_prodDone (q n : Nat) (s : State) : kitQueue (prodDone q n s) = kitQueue s := by
  unfold prodDone; split <;> simp

@[simp] theorem kitQueue_consArrived (q : Nat) (bs : Option Bytes) (s : State) : kitQueue (consArrived q bs s) = kitQueue s := by
  unfold consArrived; split <;> simp

/-! ### Machine/Ports.lean -/

@[simp] theorem kitQueue_updGbp (c : GbpCh) (f : GbpPort → GbpPort) (s : State) : kitQueue (updGbp c f s) = kitQueue s := by
  unfold updGbp; split <;> simp

@[simp] theorem kitQueue_gbpCredit (c : GbpCh) (s : State) : kitQueue (gbpCredit c s) = kitQueue s := by simp [gbpCredit]
@[simp] theorem kitQueue_gbpAck (c : GbpCh) (s : State) : kitQueue (gbpAck c s) = kitQueue s := by simp [gbpAck]

@[simp] theorem kitQueue_gbpSend (c : GbpCh) (s : State) : kitQueue (gbpSend c s) = kitQueue s := by
  dsimp only [gbpSend]; split <;> simp

@[simp] theorem kitQueue_thawGbp (s : State) : kitQueue (thawGbp s) = kitQueue s := by simp [thawGbp]
@[simp] theorem kitQueue_evtOut (b : Bytes) (s : State) : kitQueue (evtOut b s) = kitQueue s := by simp [evtOut]
@[simp] theorem kitQueue_evtCredit (s : State) : kitQueue (evtCredit s) = kitQueue s := by simp [evtCredit]

@[simp] theorem kitQueue_eventSend (s : State) : kitQueue (eventSend s) = kitQueue s := by
  unfold eventSend; (repeat' split) <;> simp

@[simp] theorem kitQueue_alarmSend (s : State) : kitQueue (alarmSend s) = kitQueue s := by
  unfold alarmSend; (repeat' split) <;> simp

/-! ### Machine/Keeper.lean -/

@[simp] theorem kitQueue_sendDelta (n : Nat) (s : State) : kitQueue (sendDelta n s) = kitQueue s := by
  unfold sendDelta; split <;> simp

@[simp] theorem kitQueue_snapshot (s : State) : kitQueue (snapshot s) = kitQueue s := by simp [snapshot]
@[simp] theorem kitQueue_ackDeltas (s : State) : kitQueue (ackDeltas s) = kitQueue s := by simp [ackDeltas]
@[simp] theorem kitQueue_markKept (q p slot : Nat) (s : State) : kitQueue (markKept q p slot s) = kitQueue s := by simp [markKept]

@[simp] theorem kitQueue_shadowEntry (src step : Nat) (x : DeltaEntry) (s : State) : kitQueue (shadowEntry src step x s) = kitQueue s := by
  unfold shadowEntry; split <;> simp

@[simp] theorem kitQueue_lineRestored (q slot : Nat) (line : Bytes) (s : State) :
    kitQueue (lineRestored q slot line s) = kitQueue s := by simp [lineRestored]

@[simp] theorem kitQueue_returnLine (dest q p slot : Nat) (line : Bytes) (s : State) :
    kitQueue (returnLine dest q p slot line s) = kitQueue s := by simp [returnLine]

@[simp] theorem kitQueue_fetchEntry (src : Nat) (x : DeltaEntry) (s : State) : kitQueue (fetchEntry src x s) = kitQueue s := by
  unfold fetchEntry; (repeat' split) <;> simp

@[simp] theorem kitQueue_deltaEntry (src step : Nat) (x : DeltaEntry) (s : State) : kitQueue (deltaEntry src step x s) = kitQueue s := by
  unfold deltaEntry; split <;> simp

@[simp] theorem kitQueue_deltaArrives (d : HuskDelta) (s : State) : kitQueue (deltaArrives d s) = kitQueue s := by simp [deltaArrives]

@[simp] theorem kitQueue_shadowFetched (q p slot : Nat) (bs : Option Bytes) (s : State) : kitQueue (shadowFetched q p slot bs s) = kitQueue s := by
  dsimp only [shadowFetched]; split <;> simp

@[simp] theorem kitQueue_huskNonce (s : State) : kitQueue (huskNonce s).2 = kitQueue s := by simp [huskNonce]

@[simp] theorem kitQueue_writeHusk (q addr seqLast : Nat) (s : State) : kitQueue (writeHusk q addr seqLast s) = kitQueue s := by
  unfold writeHusk; split <;> simp

/-! ### Machine/Outcome.lean -/

@[simp] theorem kitQueue_fixFate (n : Nat) (hold : Bool) (set : List Settings) (fixed : Option (Nat × Bool)) (old : ReqEntry) (f : Fate) (s : State) :
    kitQueue (fixFate n hold set fixed old f s) = kitQueue s := by simp [fixFate]

@[simp] theorem kitQueue_admitStamp (n : Nat) (e : ReqEntry) (s : State) : kitQueue (admitStamp n e s) = kitQueue s := by
  unfold admitStamp; (repeat' split) <;> simp

@[simp] theorem kitQueue_moveOut (n : Nat) (e : ReqEntry) (s : State) : kitQueue (moveOut n e s) = kitQueue s := by simp [moveOut]

@[simp] theorem kitQueue_moveIn (q : Nat) (d : Bytes) (s : State) : kitQueue (moveIn q d s) = kitQueue s := by
  unfold moveIn
  split
  · rfl
  · rename_i e he
    cases h : allocLines e.info.part (.window q) 4 s with
    | ok t => simp [kitQueue_allocLines _ _ _ _ h]
    | error e => simp

@[simp] theorem kitQueue_moveEnd (n : Nat) (e : ReqEntry) (s : State) : kitQueue (moveEnd n e s) = kitQueue s := by simp [moveEnd]

@[simp] theorem kitQueue_dropChanges (q n : Nat) (keep : ReqChange → Bool) (s : State) :
    kitQueue (dropChanges q n keep s) = kitQueue s := by simp [dropChanges]

@[simp] theorem kitQueue_evictBegins (n : Nat) (e : ReqEntry) (s : State) : kitQueue (evictBegins n e s) = kitQueue s := by simp [evictBegins]
@[simp] theorem kitQueue_evictEnds (n : Nat) (e : ReqEntry) (s : State) : kitQueue (evictEnds n e s) = kitQueue s := by simp [evictEnds]
@[simp] theorem kitQueue_evictStamp (n : Nat) (e : ReqEntry) (s : State) : kitQueue (evictStamp n e s) = kitQueue s := by simp [evictStamp]

@[simp] theorem kitQueue_huskWritten (q : Nat) (s : State) : kitQueue (huskWritten q s) = kitQueue s := by
  unfold huskWritten; (repeat' split) <;> simp

@[simp] theorem kitQueue_stampReq (n : Nat) (q : Nat) (s : State) : kitQueue (stampReq n q s) = kitQueue s := by
  unfold stampReq; split <;> simp

@[simp] theorem kitQueue_releaseReq (q : Nat) (s : State) : kitQueue (releaseReq q s) = kitQueue s := by
  unfold releaseReq; split <;> simp

@[simp] theorem kitQueue_holdCarried (r : RowRec) (s : State) : kitQueue (holdCarried r s) = kitQueue s := by
  dsimp only [holdCarried]
  split
  · rfl
  · split
    · rename_i u hu
      exact (kitQueue_allocLines _ _ _ _ hu :)
    · simp

@[simp] theorem kitQueue_rowsAfter (o : ReqOutcome) (s : State) : kitQueue (rowsAfter o s) = kitQueue s := by
  unfold rowsAfter; (repeat' split) <;> simp

@[simp] theorem kitQueue_stateWaits (q : Nat) (st : ReqState) (s : State) : kitQueue (stateWaits q st s) = kitQueue s := by simp [stateWaits]

@[simp] theorem kitQueue_applyOutcome (o : ReqOutcome) (s : State) : kitQueue (applyOutcome o s) = kitQueue s := by
  dsimp only [applyOutcome]; split <;> simp

@[simp] theorem kitQueue_lateLimit (q : Nat) (s : State) : kitQueue (lateLimit q s) = kitQueue s := by
  unfold lateLimit; split <;> simp

@[simp] theorem kitQueue_stallLimit (q : Nat) (s : State) : kitQueue (stallLimit q s) = kitQueue s := by
  unfold stallLimit; split <;> simp

/-! ### Machine/Partition.lean -/
@[simp] theorem kitQueue_eociaResumes (s : State) : kitQueue (eociaResumes s) = kitQueue s := by simp [eociaResumes]
@[simp] theorem kitQueue_putKeys (k : KeySet) (s : State) : kitQueue (putKeys k s) = kitQueue s := by simp [putKeys]
@[simp] theorem kitQueue_newKeys (p : Nat) (s : State) : kitQueue (newKeys p s) = kitQueue s := by simp [newKeys]

@[simp] theorem kitQueue_renewKeys (p : Nat) (s : State) : kitQueue (renewKeys p s) = kitQueue s := by
  dsimp only [renewKeys]; (repeat' split) <;> simp

@[simp] theorem kitQueue_keysArrive (k : WrappedKeys) (s : State) : kitQueue (keysArrive k s) = kitQueue s := by
  unfold keysArrive; split <;> simp

@[simp] theorem kitQueue_entropyFail (s : State) : kitQueue (entropyFail s) = kitQueue s := by simp [entropyFail]
@[simp] theorem kitQueue_dropTraffic (p : Nat) (s : State) : kitQueue (dropTraffic p s) = kitQueue s := by simp [dropTraffic]
@[simp] theorem kitQueue_endCommands (p : Nat) (st : Status) (s : State) : kitQueue (endCommands p st s) = kitQueue s := by simp [endCommands]
@[simp] theorem kitQueue_endForwardedOf (p : Nat) (s : State) : kitQueue (endForwardedOf p s) = kitQueue s := by simp [endForwardedOf]
@[simp] theorem kitQueue_clearRequests (p : Nat) (s : State) : kitQueue (clearRequests p s) = kitQueue s := by simp [clearRequests]
@[simp] theorem kitQueue_clearTraining (p : Nat) (s : State) : kitQueue (clearTraining p s) = kitQueue s := by simp [clearTraining]
@[simp] theorem kitQueue_clearTenants (p : Nat) (s : State) : kitQueue (clearTenants p s) = kitQueue s := by simp [clearTenants]
@[simp] theorem kitQueue_clearObjects (p : Nat) (s : State) : kitQueue (clearObjects p s) = kitQueue s := by simp [clearObjects]
@[simp] theorem kitQueue_leaveScratch (p : Nat) (s : State) : kitQueue (leaveScratch p s) = kitQueue s := by simp [leaveScratch]
@[simp] theorem kitQueue_freeLeaving (p : Nat) (s : State) : kitQueue (freeLeaving p s) = kitQueue s := by simp [freeLeaving]
@[simp] theorem kitQueue_clearKeys (p : Nat) (s : State) : kitQueue (clearKeys p s) = kitQueue s := by simp [clearKeys]
@[simp] theorem kitQueue_clearPart (p : Nat) (s : State) : kitQueue (clearPart p s) = kitQueue s := by simp [clearPart]
@[simp] theorem kitQueue_dropDoorbells (p : Nat) (s : State) : kitQueue (dropDoorbells p s) = kitQueue s := by simp [dropDoorbells]
@[simp] theorem kitQueue_applyKill (p : Nat) (s : State) : kitQueue (applyKill p s) = kitQueue s := by simp [applyKill]
@[simp] theorem kitQueue_startKill (p : Nat) (s : State) : kitQueue (startKill p s) = kitQueue s := by simp [startKill]
@[simp] theorem kitQueue_finishKill (k : Kill) (s : State) : kitQueue (finishKill k s) = kitQueue s := by simp [finishKill]
@[simp] theorem kitQueue_checkKills (s : State) : kitQueue (checkKills s) = kitQueue s := by simp [checkKills]

@[simp] theorem kitQueue_scrubReported (n p : Nat) (s : State) : kitQueue (scrubReported n p s) = kitQueue s := by
  unfold scrubReported; split <;> simp

@[simp] theorem kitQueue_unlockCapture (s : State) : kitQueue (unlockCapture s) = kitQueue s := by
  dsimp only [unlockCapture]
  split
  · rfl
  · exact kitQueue_drbg 48 _

@[simp] theorem kitQueue_unlockUpdate (key sig : Bytes) (s : State) : kitQueue (unlockUpdate key sig s) = kitQueue s := by
  dsimp only [unlockUpdate]; split <;> simp

@[simp] theorem kitQueue_unlockDone (s : State) : kitQueue (unlockDone s) = kitQueue s := by simp [unlockDone]
@[simp] theorem kitQueue_holdoffEnds (s : State) : kitQueue (holdoffEnds s) = kitQueue s := by simp [holdoffEnds]

@[simp] theorem kitQueue_fuseWrite (word : Nat) (v : BitVec 384) (vdd : Bool) (s : State) :
    kitQueue (fuseWrite word v vdd s) = kitQueue s := by simp [fuseWrite]

@[simp] theorem kitQueue_clearService (s : State) : kitQueue (clearService s) = kitQueue s := by simp [clearService]
@[simp] theorem kitQueue_endForwarded (s : State) : kitQueue (endForwarded s) = kitQueue s := by simp [endForwarded]
@[simp] theorem kitQueue_enterSolo (s : State) : kitQueue (enterSolo s) = kitQueue s := by simp [enterSolo]

/-! ### Machine/Manage.lean -/
@[simp] theorem kitQueue_sendJars (dest : Nat) (rs : List RangeEntry) (s : State) : kitQueue (sendJars dest rs s) = kitQueue s := by simp [sendJars]

@[simp] theorem kitQueue_jarShareArrives (src q : Nat) (l : List ChunkRec) (s : State) :
    kitQueue (jarShareArrives src q l s) = kitQueue s := by simp [jarShareArrives]

@[simp] theorem kitQueue_readTaken (s : State) : kitQueue (readTaken s) = kitQueue s := by simp [readTaken]
@[simp] theorem kitQueue_uncover (rs : List RangeEntry) (s : State) : kitQueue (uncover rs s) = kitQueue s := by simp [uncover]
@[simp] theorem kitQueue_coverCheck (s : State) : kitQueue (coverCheck s) = kitQueue s := by simp [coverCheck]

@[simp] theorem kitQueue_retireTaken (p first : Nat) (s : State) : kitQueue (retireTaken p first s) = kitQueue s := by
  unfold retireTaken; split <;> simp

@[simp] theorem kitQueue_takenArrived (p v addr : Nat) (r : RangeEntry) (bs : Option Bytes) (s : State) :
    kitQueue (takenArrived p v addr r bs s) = kitQueue s := by
  dsimp only [takenArrived]
  split
  · split
    · rfl
    · rename_i u hu
      simp [kitQueue_allocBlocks _ _ _ _ hu]
  · rfl

@[simp] theorem kitQueue_moveObjects (old new : List RangeEntry) (s : State) : kitQueue (moveObjects old new s) = kitQueue s := by simp [moveObjects]
@[simp] theorem kitQueue_trimStrips (s : State) : kitQueue (trimStrips s) = kitQueue s := by simp [trimStrips]
@[simp] theorem kitQueue_moveRuns (f : Group → Group) (s : State) : kitQueue (moveRuns f s) = kitQueue s := by simp [moveRuns]
@[simp] theorem kitQueue_loseAcorns (h : Nat) (s : State) : kitQueue (loseAcorns h s) = kitQueue s := by simp [loseAcorns]
@[simp] theorem kitQueue_restartEvicts (s : State) : kitQueue (restartEvicts s) = kitQueue s := by simp [restartEvicts]
@[simp] theorem kitQueue_becomeHoles (hs : List Nat) (s : State) : kitQueue (becomeHoles hs s) = kitQueue s := by simp [becomeHoles]

@[simp] theorem kitQueue_moveAway (s : State) : kitQueue (moveAway s) = kitQueue s := by
  unfold moveAway; split <;> simp

@[simp] theorem kitQueue_drainBegins (n step : Nat) (s : State) : kitQueue (drainBegins n step s) = kitQueue s := by simp [drainBegins]
@[simp] theorem kitQueue_sliceDrainCmd (c : Cmd) (s : State) : kitQueue (sliceDrainCmd c s) = kitQueue s := by simp [sliceDrainCmd]

@[simp] theorem kitQueue_drainStamp (n : Nat) (s : State) : kitQueue (drainStamp n s) = kitQueue s := by
  unfold drainStamp; split <;> simp

@[simp] theorem kitQueue_fwStageCmd (c : Cmd) (s : State) : kitQueue (fwStageCmd c s) = kitQueue s := by simp [fwStageCmd]

@[simp] theorem kitQueue_fwRead (c : Cmd) (bs : Option Bytes) (s : State) : kitQueue (fwRead c bs s) = kitQueue s := by
  unfold fwRead; (repeat' split) <;> simp

@[simp] theorem kitQueue_leaveGroup (s : State) : kitQueue (leaveGroup s) = kitQueue s := by
  unfold leaveGroup; split <;> simp

@[simp] theorem kitQueue_joinTold (n iface : Nat) (e : BitVec 3) (f : BitVec 6) (s : State) :
    kitQueue (joinTold n iface e f s) = kitQueue s := by simp [joinTold]

@[simp] theorem kitQueue_sendCopies (dest : Nat) (s : State) : kitQueue (sendCopies dest s) = kitQueue s := by
  unfold sendCopies
  simp only [↓kitQueue_foldl, ↓kitQueue_ite, ↓kitQueue_send, ite_self, implies_true]

@[simp] theorem kitQueue_joinTick (s : State) : kitQueue (joinTick s) = kitQueue s := by simp [joinTick]
@[simp] theorem kitQueue_joinGroup (j : JoinInfo) (s : State) : kitQueue (joinGroup j s) = kitQueue s := by simp [joinGroup]

@[simp] theorem kitQueue_copyArrives (i : Sync) (s : State) : kitQueue (copyArrives i s) = kitQueue s := by
  unfold copyArrives; split <;> simp

@[simp] theorem kitQueue_sliceRejoinCmd (c : Cmd) (s : State) : kitQueue (sliceRejoinCmd c s) = kitQueue s := by simp [sliceRejoinCmd]

@[simp] theorem kitQueue_rejoinSend (s : State) : kitQueue (rejoinSend s) = kitQueue s := by
  unfold rejoinSend; split <;> simp

@[simp] theorem kitQueue_rejoinBegins (n step : Nat) (s : State) : kitQueue (rejoinBegins n step s) = kitQueue s := by simp [rejoinBegins]

@[simp] theorem kitQueue_rejoinStamp (n : Nat) (s : State) : kitQueue (rejoinStamp n s) = kitQueue s := by
  unfold rejoinStamp; split <;> simp

@[simp] theorem kitQueue_rejoinTick (s : State) : kitQueue (rejoinTick s) = kitQueue s := by
  unfold rejoinTick; split <;> simp

@[simp] theorem kitQueue_drainShares (s : State) : kitQueue (drainShares s) = kitQueue s := by
  unfold drainShares; split <;> simp

/-! ### Machine/Accept.lean -/

@[simp] theorem kitQueue_runCmd (op : Op) (c : Cmd) (s : State) : kitQueue (runCmd op c s) = kitQueue s := by
  unfold runCmd; split <;> simp

@[simp] theorem kitQueue_runOp (op : Op) (c : Cmd) (s : State) : kitQueue (runOp op c s) = kitQueue s := by simp [runOp]
@[simp] theorem kitQueue_runDeferred (s : State) : kitQueue (runDeferred s) = kitQueue s := by simp [runDeferred]

@[simp] theorem kitQueue_deltaAcked (src step : Nat) (s : State) : kitQueue (deltaAcked src step s) = kitQueue s := by
  unfold deltaAcked; (repeat' split) <;> simp

/-! ### Machine/Regroup.lean -/
@[simp] theorem kitQueue_restartPlan (s : State) (x : Plan) : kitQueue (restartPlan s x) = kitQueue s := by simp [restartPlan]

@[simp] theorem kitQueue_stopTraining (s : State) : kitQueue (stopTraining s) = kitQueue s := by
  dsimp only [stopTraining]; split <;> simp

@[simp] theorem kitQueue_resumeTraining (s : State) : kitQueue (resumeTraining s) = kitQueue s := by
  unfold resumeTraining; split <;> simp

@[simp] theorem kitQueue_drainMeetsLoss (n : Nat) (s : State) : kitQueue (drainMeetsLoss n s) = kitQueue s := by
  unfold drainMeetsLoss; split <;> simp

@[simp] theorem kitQueue_beginRegroup (n f : Nat) (s : State) : kitQueue (beginRegroup n f s) = kitQueue s := by simp [beginRegroup]
@[simp] theorem kitQueue_declareLost (n : Nat) (s : State) : kitQueue (declareLost n s) = kitQueue s := by simp [declareLost]
@[simp] theorem kitQueue_reportRows (s : State) : kitQueue (reportRows s) = kitQueue s := by simp [reportRows]

@[simp] theorem kitQueue_reportApplied (s : State) : kitQueue (reportApplied s) = kitQueue s := by
  dsimp only [reportApplied]
  rw [kitQueue_flood, kitQueue_foldl]
  · simp
  · intro t e
    split <;> simp

@[simp] theorem kitQueue_appliedArrives (o : ReqOutcome) (s : State) : kitQueue (appliedArrives o s) = kitQueue s := by
  unfold appliedArrives; split <;> simp

@[simp] theorem kitQueue_voidArrives (q n : Nat) (s : State) : kitQueue (voidArrives q n s) = kitQueue s := by simp [voidArrives]
@[simp] theorem kitQueue_reconcile (s : State) : kitQueue (reconcile s) = kitQueue s := by simp [reconcile]

@[simp] theorem kitQueue_readShadows (s : State) : kitQueue (readShadows s) = kitQueue s := by
  dsimp only [readShadows]
  split
  · rfl
  · refine kitQueue_foldl (fun t e => ?_) _ _
    split <;> simp

@[simp] theorem kitQueue_takeoverBegins (s : State) : kitQueue (takeoverBegins s) = kitQueue s := by
  unfold takeoverBegins; split <;> simp

@[simp] theorem kitQueue_reportArrives (n step : Nat) (s : State) : kitQueue (reportArrives n step s) = kitQueue s := by
  unfold reportArrives; split <;> simp

@[simp] theorem kitQueue_reportNow (s : State) : kitQueue (reportNow s) = kitQueue s := by simp [reportNow]
@[simp] theorem kitQueue_lostLine (q : Nat) (s : State) : kitQueue (lostLine q s) = kitQueue s := by simp [lostLine]
@[simp] theorem kitQueue_shareRebuilt (h : Nat) (s : State) : kitQueue (shareRebuilt h s) = kitQueue s := by simp [shareRebuilt]

@[simp] theorem kitQueue_shadowArrived (q p slot : Nat) (bs : Option Bytes) (s : State) : kitQueue (shadowArrived q p slot bs s) = kitQueue s := by
  dsimp only [shadowArrived]
  cases bs.bind (openSlot { s with keeper := { s.keeper with reading := s.keeper.reading - 1 } } p q slot
    (((reqOf s q).map (·.info.admitStep)).getD 0) (some s.keeper.kept)) <;> simp

@[simp] theorem kitQueue_windowAnew (e : ReqEntry) (s : State) : kitQueue (windowAnew e s) = kitQueue s := by
  cases h : allocLines e.info.part (.window e.req) 4 s with
  | ok t => simp [windowAnew, h, kitQueue_allocLines _ _ _ _ h]
  | error e => simp [windowAnew, h]

@[simp] theorem kitQueue_recordsAnew (q : Nat) (s : State) : kitQueue (recordsAnew q s) = kitQueue s := by
  unfold recordsAnew; (repeat' split) <;> simp

@[simp] theorem kitQueue_homeRebuilt (q : Nat) (s : State) : kitQueue (homeRebuilt q s) = kitQueue s := by
  unfold homeRebuilt; split <;> simp

@[simp] theorem kitQueue_runKept (x : DeltaEntry) (s : State) : kitQueue (runKept x s) = kitQueue s := by
  unfold runKept; split <;> simp

@[simp] theorem kitQueue_runKeptAll (s : State) : kitQueue (runKeptAll s) = kitQueue s := by simp [runKeptAll]
@[simp] theorem kitQueue_reportAgain (s : State) : kitQueue (reportAgain s) = kitQueue s := by simp [reportAgain]

@[simp] theorem kitQueue_settleLoads (s : State) : kitQueue (settleLoads s) = kitQueue s := by
  refine kitQueue_foldl (fun t x => ?_) _ _
  split <;> simp

@[simp] theorem kitQueue_loadsLost (hs : List Nat) (s : State) : kitQueue (loadsLost hs s) = kitQueue s := by simp [loadsLost]

@[simp] theorem kitQueue_takeoverEnds (s : State) : kitQueue (takeoverEnds s) = kitQueue s := by
  unfold takeoverEnds; split <;> simp

@[simp] theorem kitQueue_endLostForwards (hs : List Nat) (s : State) : kitQueue (endLostForwards hs s) = kitQueue s := by simp [endLostForwards]

@[simp] theorem kitQueue_regroupTick (s : State) : kitQueue (regroupTick s) = kitQueue s := by
  unfold regroupTick; split <;> simp

@[simp] theorem kitQueue_regroupMsg (m : RegroupMsg) (s : State) : kitQueue (regroupMsg m s) = kitQueue s := by
  unfold regroupMsg; split <;> simp

/-! ### Machine/Reads.lean -/
@[simp] theorem kitQueue_busyRead (op : Op) (c : Cmd) (s : State) : kitQueue (busyRead op c s) = kitQueue s := by simp [busyRead]

@[simp] theorem kitQueue_logConsArrived (bs : Option Bytes) (s : State) : kitQueue (logConsArrived bs s) = kitQueue s := by
  unfold logConsArrived; split <;> simp

@[simp] theorem kitQueue_readDone (j : ReadJob) (bs : Option Bytes) (s : State) : kitQueue (readDone j bs s) = kitQueue s := by
  unfold readDone; split <;> simp

@[simp] theorem kitQueue_endJob (n : Nat) (s : State) : kitQueue (endJob n s) = kitQueue s := by
  unfold endJob; (repeat' split) <;> simp

@[simp] theorem kitQueue_runJobs (s : State) : kitQueue (runJobs s) = kitQueue s := by simp [runJobs]

@[simp] theorem kitQueue_failJob (n : Nat) (s : State) : kitQueue (failJob n s) = kitQueue s := by
  unfold failJob; split <;> simp

@[simp] theorem kitQueue_writeDone (n : Nat) (a : AfterWrite) (s : State) : kitQueue (writeDone n a s) = kitQueue s := by
  unfold writeDone; split <;> simp

/-! ### Machine/Hmp.lean -/
@[simp] theorem kitQueue_updTxn (t : Txn) (f : Txn → Txn) (s : State) : kitQueue (updTxn t f s) = kitQueue s := by simp [updTxn]
@[simp] theorem kitQueue_answered (s : State) : kitQueue (answered s) = kitQueue s := by simp [answered]
@[simp] theorem kitQueue_endTxn (t : Txn) (s : State) : kitQueue (endTxn t s) = kitQueue s := by simp [endTxn]
@[simp] theorem kitQueue_hmpViolation (code tag : Nat) (s : State) : kitQueue (hmpViolation code tag s) = kitQueue s := by simp [hmpViolation]
@[simp] theorem kitQueue_unknownTag (tag : Nat) (s : State) : kitQueue (unknownTag tag s) = kitQueue s := by simp [unknownTag]
@[simp] theorem kitQueue_discardAnswer (tag : Nat) (s : State) : kitQueue (discardAnswer tag s) = kitQueue s := by simp [discardAnswer]
@[simp] theorem kitQueue_hmpError (t : Txn) (tag : Nat) (r : Resp) (s : State) : kitQueue (hmpError t tag r s) = kitQueue s := by simp [hmpError]
@[simp] theorem kitQueue_errorTrace (t : Txn) (r : Resp) (s : State) : kitQueue (errorTrace t r s) = kitQueue s := by simp [errorTrace]
@[simp] theorem kitQueue_logWindow (t : Txn) (tag : Nat) (s : State) : kitQueue (logWindow t tag s) = kitQueue s := by simp [logWindow]
@[simp] theorem kitQueue_windowBreach (t : Txn) (tag : Nat) (s : State) : kitQueue (windowBreach t tag s) = kitQueue s := by simp [windowBreach]
@[simp] theorem kitQueue_readOk (t : Txn) (beats : List Bytes) (s : State) : kitQueue (readOk t beats s) = kitQueue s := by simp [readOk]

@[simp] theorem kitQueue_readFailed (t : Txn) (tag : Nat) (r : Resp) (s : State) :
    kitQueue (readFailed t tag r s) = kitQueue s := by simp [readFailed]

@[simp] theorem kitQueue_readData (ch : RdCh) (tag : Nat) (r : Resp) (beats : List Bytes) (s : State) :
    kitQueue (readData ch tag r beats s) = kitQueue s := by
  unfold readData; (repeat' split) <;> simp

@[simp] theorem kitQueue_retryRead (tag : Nat) (s : State) : kitQueue (retryRead tag s) = kitQueue s := by
  unfold retryRead; split <;> simp

@[simp] theorem kitQueue_writeFailed (t : Txn) (tag : Nat) (r : Resp) (s : State) :
    kitQueue (writeFailed t tag r s) = kitQueue s := by simp [writeFailed]

@[simp] theorem kitQueue_writeResponse (tag : Nat) (r : Resp) (s : State) : kitQueue (writeResponse tag r s) = kitQueue s := by
  unfold writeResponse; (repeat' split) <;> simp

@[simp] theorem kitQueue_reissueWrites (s : State) : kitQueue (reissueWrites s) = kitQueue s := by simp [reissueWrites]
@[simp] theorem kitQueue_thawHmp (s : State) : kitQueue (thawHmp s) = kitQueue s := by simp [thawHmp]

/-! ### Machine/Link.lean -/
@[simp] theorem kitQueue_updPort (n : Nat) (f : Port → Port) (s : State) : kitQueue (updPort n f s) = kitQueue s := by simp [updPort]
@[simp] theorem kitQueue_setSession (n : Nat) (x : Session) (s : State) : kitQueue (setSession n x s) = kitQueue s := by simp [setSession]
@[simp] theorem kitQueue_reroute (s : State) : kitQueue (reroute s) = kitQueue s := by simp [reroute]
@[simp] theorem kitQueue_queueOn (o : OutMsg) (s : State) (n : Nat) : kitQueue (queueOn o s n) = kitQueue s := by simp [queueOn]
@[simp] theorem kitQueue_queueOnAll (o : OutMsg) (ns : List Nat) (s : State) : kitQueue (queueOnAll o ns s) = kitQueue s := by simp [queueOnAll]

@[simp] theorem kitQueue_routeOne (s : State) (o : OutMsg) : kitQueue (routeOne s o) = kitQueue s := by
  unfold routeOne; (repeat' split) <;> simp

@[simp] theorem kitQueue_routeOut (s : State) : kitQueue (routeOut s) = kitQueue s := by simp [routeOut]

@[simp] theorem kitQueue_emitFlit (n : Nat) (f : TxFlit) (idle : Bool) (seq : Nat) (s : State) :
    kitQueue (emitFlit n f idle seq s) = kitQueue s := by simp [emitFlit]

@[simp] theorem kitQueue_sendFlit (n : Nat) (f : TxFlit) (s : State) : kitQueue (sendFlit n f s) = kitQueue s := by simp [sendFlit]

@[simp] theorem kitQueue_drainPort (n : Nat) (f : Nat) (s : State) : kitQueue (drainPort n f s) = kitQueue s := by
  induction f generalizing s with
  | zero => rfl
  | succ f ih => unfold drainPort; split <;> simp [ih]

@[simp] theorem kitQueue_linkSend (n : Nat) (s : State) : kitQueue (linkSend n s) = kitQueue s := by simp [linkSend]
@[simp] theorem kitQueue_linkStart (s : State) : kitQueue (linkStart s) = kitQueue s := by simp [linkStart]
@[simp] theorem kitQueue_restartStreams (n : Nat) (s : State) : kitQueue (restartStreams n s) = kitQueue s := by simp [restartStreams]
@[simp] theorem kitQueue_leaveActive (n : Nat) (x : Session) (s : State) : kitQueue (leaveActive n x s) = kitQueue s := by simp [leaveActive]
@[simp] theorem kitQueue_retrain (n : Nat) (s : State) : kitQueue (retrain n s) = kitQueue s := by simp [retrain]

@[simp] theorem kitQueue_conserveFails (n cls expected found : Nat) (s : State) :
    kitQueue (conserveFails n cls expected found s) = kitQueue s := by simp [conserveFails]

@[simp] theorem kitQueue_conservePort (s : State) (n : Nat) : kitQueue (conservePort s n) = kitQueue s := by
  dsimp only [conservePort]; (repeat' split) <;> simp

@[simp] theorem kitQueue_blConserve (s : State) : kitQueue (blConserve s) = kitQueue s := by simp [blConserve]

@[simp] theorem kitQueue_replayPort (n : Nat) (s : State) : kitQueue (replayPort n s) = kitQueue s := by
  dsimp only [replayPort]; split <;> simp

@[simp] theorem kitQueue_badMessage (n typ : Nat) (s : State) : kitQueue (badMessage n typ s) = kitQueue s := by simp [badMessage]

@[simp] theorem kitQueue_seenBefore (b : Bytes) (s : State) : kitQueue (seenBefore b s).2 = kitQueue s := by
  dsimp only [seenBefore]; (repeat' split) <;> simp

@[simp] theorem kitQueue_keepMsg (n cls : Nat) (b : Bytes) (s : State) : kitQueue (keepMsg n cls b s) = kitQueue s := by simp [keepMsg]

@[simp] theorem kitQueue_relayMsg (n cls : Nat) (dest : Option Nat) (b : Bytes) (s : State) :
    kitQueue (relayMsg n cls dest b s) = kitQueue s := by simp [relayMsg]

@[simp] theorem kitQueue_floodArrives (n cls : Nat) (b : Bytes) (s : State) : kitQueue (floodArrives n cls b s) = kitQueue s := by simp [floodArrives]

@[simp] theorem kitQueue_unicastArrives (n cls : Nat) (b : Bytes) (s : State) :
    kitQueue (unicastArrives n cls b s) = kitQueue s := by simp [unicastArrives]

@[simp] theorem kitQueue_messageIn (n cls : Nat) (b : Bytes) (s : State) : kitQueue (messageIn n cls b s) = kitQueue s := by simp [messageIn]

@[simp] theorem kitQueue_assemble (n cls : Nat) (w : Nat) (body : Bytes) (s : State) : kitQueue (assemble n cls w body s) = kitQueue s := by
  dsimp only [assemble]; (repeat' split) <;> simp

@[simp] theorem kitQueue_flitIn (n : Nat) (w seq : Nat) (body : Bytes) (s : State) : kitQueue (flitIn n w seq body s) = kitQueue s := by simp [flitIn]

@[simp] theorem kitQueue_flitArrives (n lane : Nat) (b : Bytes) (fecOk : Bool) (s : State) :
    kitQueue (flitArrives n lane b fecOk s) = kitQueue s := by simp [flitArrives]

@[simp] theorem kitQueue_takeNumbers (s : State) : kitQueue (takeNumbers s) = kitQueue s := by simp [takeNumbers]
@[simp] theorem kitQueue_enterHello (n : Nat) (s : State) : kitQueue (enterHello n s) = kitQueue s := by simp [enterHello]
@[simp] theorem kitQueue_setLane (n lane : Nat) (up : Bool) (s : State) : kitQueue (setLane n lane up s) = kitQueue s := by simp [setLane]

@[simp] theorem kitQueue_laneLocks (n lane : Nat) (s : State) : kitQueue (laneLocks n lane s) = kitQueue s := by
  dsimp only [laneLocks]; (repeat' split) <;> simp

@[simp] theorem kitQueue_portLost (n : Nat) (s : State) : kitQueue (portLost n s) = kitQueue s := by
  unfold portLost; split <;> simp

@[simp] theorem kitQueue_laneLost (n lane : Nat) (s : State) : kitQueue (laneLost n lane s) = kitQueue s := by simp [laneLost]
@[simp] theorem kitQueue_trainPort (n : Nat) (s : State) : kitQueue (trainPort n s) = kitQueue s := by simp [trainPort]
@[simp] theorem kitQueue_trainFails (n : Nat) (s : State) : kitQueue (trainFails n s) = kitQueue s := by simp [trainFails]
@[simp] theorem kitQueue_retrainFails (n : Nat) (s : State) : kitQueue (retrainFails n s) = kitQueue s := by simp [retrainFails]
@[simp] theorem kitQueue_trainingSignal (n : Nat) (s : State) : kitQueue (trainingSignal n s) = kitQueue s := by simp [trainingSignal]
@[simp] theorem kitQueue_marginLow (n lane : Nat) (s : State) : kitQueue (marginLow n lane s) = kitQueue s := by simp [marginLow]
@[simp] theorem kitQueue_domainUp (d : Nat) (s : State) : kitQueue (domainUp d s) = kitQueue s := by simp [domainUp]

/-! ### Machine/Boundary.lean -/

@[simp] theorem kitQueue_rangeGoverns (s : State) : kitQueue (rangeGoverns s) = kitQueue s := by
  unfold rangeGoverns; split <;> simp

@[simp] theorem kitQueue_freeOldOverlay (p : Nat) (o : Overlay) (s : State) : kitQueue (freeOldOverlay p o s) = kitQueue s := by
  dsimp only [freeOldOverlay]; split <;> simp

@[simp] theorem kitQueue_headTick (s : State) (h : Head) : kitQueue (headTick s h) = kitQueue s := by simp [headTick]
@[simp] theorem kitQueue_headsGovern (s : State) : kitQueue (headsGovern s) = kitQueue s := by simp [headsGovern]
@[simp] theorem kitQueue_objectsGovern (s : State) : kitQueue (objectsGovern s) = kitQueue s := by simp [objectsGovern]
@[simp] theorem kitQueue_voidOverlays (p v : Nat) (s : State) : kitQueue (voidOverlays p v s) = kitQueue s := by simp [voidOverlays]
@[simp] theorem kitQueue_variantsGovern (s : State) : kitQueue (variantsGovern s) = kitQueue s := by simp [variantsGovern]
@[simp] theorem kitQueue_releases (s : State) : kitQueue (releases s) = kitQueue s := by simp [releases]
@[simp] theorem kitQueue_limitRows (s : State) : kitQueue (limitRows s) = kitQueue s := by simp [limitRows]
@[simp] theorem kitQueue_rowsTick (ok : Nat → Bool) (s : State) : kitQueue (rowsTick ok s) = kitQueue s := by simp [rowsTick]
@[simp] theorem kitQueue_rowsNaming (s : State) : kitQueue (rowsNaming s) = kitQueue s := by simp [rowsNaming]
@[simp] theorem kitQueue_treesTick (s : State) : kitQueue (treesTick s) = kitQueue s := by simp [treesTick]
@[simp] theorem kitQueue_allowTick (s : State) : kitQueue (allowTick s) = kitQueue s := by simp [allowTick]
@[simp] theorem kitQueue_freezePart (p : Nat) (s : State) : kitQueue (freezePart p s) = kitQueue s := by simp [freezePart]
@[simp] theorem kitQueue_stkConserve (s : State) : kitQueue (stkConserve s) = kitQueue s := by simp [stkConserve]
@[simp] theorem kitQueue_tenantConserve (s : State) : kitQueue (tenantConserve s) = kitQueue s := by simp [tenantConserve]

@[simp] theorem kitQueue_portFails (row expected found : Nat) (m : Option (Master × Nat)) (s : State) :
    kitQueue (portFails row expected found m s) = kitQueue s := by
  unfold portFails; split <;> simp

@[simp] theorem kitQueue_portHolds (ok : Bool) (row expected found : Nat) (m : Option (Master × Nat)) (s : State) :
    kitQueue (portHolds ok row expected found m s) = kitQueue s := by simp [portHolds]

@[simp] theorem kitQueue_portsConserve (s : State) : kitQueue (portsConserve s) = kitQueue s := by simp [portsConserve]
@[simp] theorem kitQueue_conserve (s : State) : kitQueue (conserve s) = kitQueue s := by simp [conserve]
@[simp] theorem kitQueue_cacheTick (s : State) : kitQueue (cacheTick s) = kitQueue s := by simp [cacheTick]
@[simp] theorem kitQueue_fetchHeld (s : State) : kitQueue (fetchHeld s) = kitQueue s := by simp [fetchHeld]
@[simp] theorem kitQueue_streamsTick (s : State) : kitQueue (streamsTick s) = kitQueue s := by simp [streamsTick]
@[simp] theorem kitQueue_logConsRead (s : State) : kitQueue (logConsRead s) = kitQueue s := by simp [logConsRead]
@[simp] theorem kitQueue_boundary (s : State) : kitQueue (boundary s) = kitQueue s := by simp [boundary]
@[simp] theorem kitQueue_earlyBoundary (s : State) : kitQueue (earlyBoundary s) = kitQueue s := by simp [earlyBoundary]

/-! ### Machine/Publish.lean -/

@[simp] theorem kitQueue_finishOne (f : PendCmd → Bool) (st : Status) (res : List (Nat × Word)) (s : State) :
    kitQueue (finishOne f st res s) = kitQueue s := by
  unfold finishOne; split <;> simp

@[simp] theorem kitQueue_tenantHeld (own : Bool) (n u : Nat) (x : TenantChange) (s : State) : kitQueue (tenantHeld own n u x s) = kitQueue s := by
  dsimp only [tenantHeld]; (repeat' split) <;> simp

@[simp] theorem kitQueue_deleteHeld (own bias : Bool) (p id n : Nat) (s : State) :
    kitQueue (deleteHeld own bias p id n s) = kitQueue s := by simp [deleteHeld]

@[simp] theorem kitQueue_loadHeld (bias : Bool) (p id : Nat) (s : State) : kitQueue (loadHeld bias p id s) = kitQueue s := by simp [loadHeld]
@[simp] theorem kitQueue_applyUnload (src p n : Nat) (s : State) : kitQueue (applyUnload src p n s) = kitQueue s := by simp [applyUnload]

@[simp] theorem kitQueue_unloadHeld (own : Bool) (src p n : Nat) (s : State) :
    kitQueue (unloadHeld own src p n s) = kitQueue s := by simp [unloadHeld]

@[simp] theorem kitQueue_emptyHeadTakes (p : Nat) (s : State) : kitQueue (emptyHeadTakes p s) = kitQueue s := by simp [emptyHeadTakes]

@[simp] theorem kitQueue_announceHead (src p : Nat) (h : HeadId) (s : State) :
    kitQueue (announceHead src p h s) = kitQueue s := by simp [announceHead]

@[simp] theorem kitQueue_applyHeld (s : State) (m : SyncMsg) : kitQueue (applyHeld s m) = kitQueue s := by
  unfold applyHeld; split <;> simp

@[simp] theorem kitQueue_applyStep (n : Nat) (s : State) : kitQueue (applyStep n s) = kitQueue s := by simp [applyStep]
@[simp] theorem kitQueue_drainEnds (s : State) : kitQueue (drainEnds s) = kitQueue s := by simp [drainEnds]
@[simp] theorem kitQueue_publishEnd (s : State) : kitQueue (publishEnd s) = kitQueue s := by simp [publishEnd]

@[simp] theorem kitQueue_publishIfDone (f : State → State) (s : State) (hk : ∀ t, kitQueue (f t) = kitQueue t) :
    kitQueue (publishIfDone f s) = kitQueue s := by simp [publishIfDone, hk]

@[simp] theorem kitQueue_admittedArrives (src q : Nat) (info : ReqInfo) (addr n : Nat) (acorn : Option Word) (jars : List ChunkRec) (husk : Bool)
    (draws windowLen outLeft : Nat) (hasToken : Bool) (ttft : Nat) (s : State) :
    kitQueue (admittedArrives src q info addr n acorn jars husk draws windowLen outLeft hasToken ttft s) = kitQueue s := by simp [admittedArrives]

@[simp] theorem kitQueue_loadReported (src q : Nat) (st : BitVec 16) (s : State) :
    kitQueue (loadReported src q st s) = kitQueue s := by simp [loadReported]

@[simp] theorem kitQueue_joinKeys (k : WrappedKeys) (s : State) : kitQueue (joinKeys k s) = kitQueue s := by simp [joinKeys]
@[simp] theorem kitQueue_outcomesOf (src : Nat) (s : State) : kitQueue (outcomesOf src s) = kitQueue s := by simp [outcomesOf]
@[simp] theorem kitQueue_stepEnds (src n : Nat) (s : State) : kitQueue (stepEnds src n s) = kitQueue s := by simp [stepEnds]
@[simp] theorem kitQueue_holdSync (m : SyncMsg) (s : State) : kitQueue (holdSync m s) = kitQueue s := by simp [holdSync]

@[simp] theorem kitQueue_syncArrives (m : SyncMsg) (s : State) : kitQueue (syncArrives m s) = kitQueue s := by
  unfold syncArrives; (repeat' split) <;> simp

@[simp] theorem kitQueue_reach (k : Nat) (s : State) : kitQueue (reach k s) = kitQueue s := by simp [reach]

@[simp] theorem kitQueue_emitTick (n : Nat) (s : State) : kitQueue (emitTick n s) = kitQueue s := by
  unfold emitTick; split <;> simp

@[simp] theorem kitQueue_ackTaken (n src : Nat) (s : State) : kitQueue (ackTaken n src s) = kitQueue s := by
  dsimp only [ackTaken]; (repeat' split) <;> simp

@[simp] theorem kitQueue_sendAck (s : State) : kitQueue (sendAck s) = kitQueue s := by simp [sendAck]
@[simp] theorem kitQueue_geomStamp (s : State) : kitQueue (geomStamp s) = kitQueue s := by simp [geomStamp]
@[simp] theorem kitQueue_evictShares (s : State) : kitQueue (evictShares s) = kitQueue s := by simp [evictShares]
@[simp] theorem kitQueue_closeStep (due : List Nat) (s : State) : kitQueue (closeStep due s) = kitQueue s := by simp [closeStep]
@[simp] theorem kitQueue_newMaster (was n : Nat) (s : State) : kitQueue (newMaster was n s) = kitQueue s := by simp [newMaster]
@[simp] theorem kitQueue_commitStamp (n : Nat) (s : State) : kitQueue (commitStamp n s) = kitQueue s := by simp [commitStamp]
@[simp] theorem kitQueue_commitArrives (m : CommitMsg) (s : State) : kitQueue (commitArrives m s) = kitQueue s := by simp [commitArrives]
@[simp] theorem kitQueue_commitEmit (s : State) : kitQueue (commitEmit s) = kitQueue s := by simp [commitEmit]
@[simp] theorem kitQueue_ackAgain (s : State) : kitQueue (ackAgain s) = kitQueue s := by simp [ackAgain]

/-! ### Machine/Tick.lean -/
@[simp] theorem kitQueue_tickDue (s : State) : kitQueue (tickDue s) = kitQueue s := by simp [tickDue]
@[simp] theorem kitQueue_slipExpires (s : State) : kitQueue (slipExpires s) = kitQueue s := by simp [slipExpires]
@[simp] theorem kitQueue_formTick (f : Nat) (s : State) : kitQueue (formTick f s) = kitQueue s := by simp [formTick]
@[simp] theorem kitQueue_abandonStep (s : State) : kitQueue (abandonStep s) = kitQueue s := by simp [abandonStep]
@[simp] theorem kitQueue_openStep (m : TickMsg) (s : State) : kitQueue (openStep m s) = kitQueue s := by simp [openStep]

@[simp] theorem kitQueue_tickArrives (m : TickMsg) (s : State) : kitQueue (tickArrives m s) = kitQueue s := by
  unfold tickArrives; (repeat' split) <;> simp

@[simp] theorem kitQueue_passDeadline (k : Nat) (s : State) : kitQueue (passDeadline k s) = kitQueue s := by simp [passDeadline]
@[simp] theorem kitQueue_ingestEnds (s : State) : kitQueue (ingestEnds s) = kitQueue s := by simp [ingestEnds]
@[simp] theorem kitQueue_sieveEnds (s : State) : kitQueue (sieveEnds s) = kitQueue s := by simp [sieveEnds]
@[simp] theorem kitQueue_closeUnless (ok : Merge → Bool) (s : State) : kitQueue (closeUnless ok s) = kitQueue s := by simp [closeUnless]
@[simp] theorem kitQueue_mergeAEnds (s : State) : kitQueue (mergeAEnds s) = kitQueue s := by simp [mergeAEnds]
@[simp] theorem kitQueue_mergeBEnds (s : State) : kitQueue (mergeBEnds s) = kitQueue s := by simp [mergeBEnds]
@[simp] theorem kitQueue_drawEnds (s : State) : kitQueue (drawEnds s) = kitQueue s := by simp [drawEnds]
@[simp] theorem kitQueue_heartbeat (n : Nat) (s : State) : kitQueue (heartbeat n s) = kitQueue s := by simp [heartbeat]
@[simp] theorem kitQueue_heartbeatDue (s : State) : kitQueue (heartbeatDue s) = kitQueue s := by simp [heartbeatDue]
@[simp] theorem kitQueue_sliceLost (n : Nat) (s : State) : kitQueue (sliceLost n s) = kitQueue s := by simp [sliceLost]

@[simp] theorem kitQueue_regroupArrives (m : RegroupMsg) (s : State) : kitQueue (regroupArrives m s) = kitQueue s := by
  unfold regroupArrives; (repeat' split) <;> simp

@[simp] theorem kitQueue_takeoverDone (s : State) : kitQueue (takeoverDone s) = kitQueue s := by
  dsimp only [takeoverDone]; split <;> simp

@[simp] theorem kitQueue_expel (n : Nat) (s : State) : kitQueue (expel n s) = kitQueue s := by simp [expel]

/-! ### Machine/Formation.lean -/
@[simp] theorem kitQueue_miswire (n : Nat) (s : State) : kitQueue (miswire n s) = kitQueue s := by simp [miswire]

@[simp] theorem kitQueue_wireCheck (s : State) : kitQueue (wireCheck s) = kitQueue s := by
  unfold wireCheck; split <;> simp

@[simp] theorem kitQueue_formEnds (slice : Nat) (r : FormReason) (s : State) : kitQueue (formEnds slice r s) = kitQueue s := by simp [formEnds]
@[simp] theorem kitQueue_refuse (r : FormReason) (s : State) : kitQueue (refuse r s) = kitQueue s := by simp [refuse]

@[simp] theorem kitQueue_keyTaken (p : Nat) (s : State) : kitQueue (keyTaken p s) = kitQueue s := by
  unfold keyTaken; split <;> simp

@[simp] theorem kitQueue_formTickDue (s : State) : kitQueue (formTickDue s) = kitQueue s := by
  unfold formTickDue; split <;> simp

@[simp] theorem kitQueue_formKeysMade (s : State) : kitQueue (formKeysMade s) = kitQueue s := by
  refine kitQueue_foldl (fun t p => ?_) _ _
  dsimp only
  split <;> simp

@[simp] theorem kitQueue_formCommits (f : Nat) (s : State) : kitQueue (formCommits f s) = kitQueue s := by simp [formCommits]

@[simp] theorem kitQueue_coordinate (s : State) : kitQueue (coordinate s) = kitQueue s := by
  unfold coordinate; (repeat' split) <;> simp

@[simp] theorem kitQueue_keepProposal (b : FormBody) (s : State) : kitQueue (keepProposal b s) = kitQueue s := by simp [keepProposal]
@[simp] theorem kitQueue_propose (s : State) : kitQueue (propose s) = kitQueue s := by simp [propose]
@[simp] theorem kitQueue_proposeArrives (b : FormBody) (s : State) : kitQueue (proposeArrives b s) = kitQueue s := by simp [proposeArrives]

@[simp] theorem kitQueue_refuseArrives (slice : Nat) (r : FormReason) (s : State) :
    kitQueue (refuseArrives slice r s) = kitQueue s := by simp [refuseArrives]

@[simp] theorem kitQueue_formKeysArrive (k : WrappedKeys) (s : State) : kitQueue (formKeysArrive k s) = kitQueue s := by
  unfold formKeysArrive; (repeat' split) <;> simp

@[simp] theorem kitQueue_formDoneArrives (n : Nat) (s : State) : kitQueue (formDoneArrives n s) = kitQueue s := by
  unfold formDoneArrives; split <;> simp

@[simp] theorem kitQueue_formWaits (s : State) : kitQueue (formWaits s) = kitQueue s := by simp [formWaits]
@[simp] theorem kitQueue_holeHello (n : Nat) (h : Hello) (s : State) : kitQueue (holeHello n h s) = kitQueue s := by simp [holeHello]
@[simp] theorem kitQueue_helloOk (n : Nat) (h : Hello) (s : State) : kitQueue (helloOk n h s) = kitQueue s := by simp [helloOk]
@[simp] theorem kitQueue_helloArrives (n : Nat) (h : Hello) (s : State) : kitQueue (helloArrives n h s) = kitQueue s := by simp [helloArrives]

/-! ### Machine/Reset.lean -/
@[simp] theorem kitQueue_resetTo (straps : BitVec 19) (s : State) : kitQueue (resetTo straps s) = kitQueue s := rfl
@[simp] theorem kitQueue_resetRises (straps : BitVec 19) (s : State) : kitQueue (resetRises straps s) = kitQueue s := by simp [resetRises]
@[simp] theorem kitQueue_resetFalls (s : State) : kitQueue (resetFalls s) = kitQueue s := by simp [resetFalls]
@[simp] theorem kitQueue_enterHold (fault : Nat) (s : State) : kitQueue (enterHold fault s) = kitQueue s := by simp [enterHold]
@[simp] theorem kitQueue_imageRuns (img : Bytes) (s : State) : kitQueue (imageRuns img s) = kitQueue s := by simp [imageRuns]
@[simp] theorem kitQueue_eociaStarts (img : Bytes) (s : State) : kitQueue (eociaStarts img s) = kitQueue s := by simp [eociaStarts]

@[simp] theorem kitQueue_imageBoots (img : Bytes) (second : Bool) (s : State) : kitQueue (imageBoots img second s) = kitQueue s := by
  unfold imageBoots; split <;> simp

@[simp] theorem kitQueue_bootChecked (img : Bytes) (s : State) : kitQueue (bootChecked img s) = kitQueue s := by
  unfold bootChecked; split <;> simp

@[simp] theorem kitQueue_debugLoaded (s : State) : kitQueue (debugLoaded s) = kitQueue s := by
  unfold debugLoaded; split <;> simp

@[simp] theorem kitQueue_whiskFault (cause : Nat) (s : State) : kitQueue (whiskFault cause s) = kitQueue s := by simp [whiskFault]
@[simp] theorem kitQueue_homeRepaired (q : Nat) (d : Bytes) (s : State) : kitQueue (homeRepaired q d s) = kitQueue s := by simp [homeRepaired]

@[simp] theorem kitQueue_entryRepaired (x : DeltaEntry) (s : State) : kitQueue (entryRepaired x s) = kitQueue s := by
  unfold entryRepaired; split <;> simp

@[simp] theorem kitQueue_eociaGoesOn (s : State) : kitQueue (eociaGoesOn s) = kitQueue s := by simp [eociaGoesOn]

@[simp] theorem kitQueue_eociaRestarts (cause : Nat) (img : Bytes) (repairs : List DeltaEntry) (s : State) :
    kitQueue (eociaRestarts cause img repairs s) = kitQueue s := by simp [eociaRestarts]

@[simp] theorem kitQueue_restartDone (image : Bytes) (repairs : List DeltaEntry) (s : State) :
    kitQueue (restartDone image repairs s) = kitQueue s := by
  dsimp only [restartDone]; (repeat' split) <;> simp

@[simp] theorem kitQueue_watchdogExpires (s : State) : kitQueue (watchdogExpires s) = kitQueue s := by simp [watchdogExpires]
@[simp] theorem kitQueue_trapTaken (s : State) : kitQueue (trapTaken s) = kitQueue s := by simp [trapTaken]

/-! ### Machine/Faults.lean -/

@[simp] theorem kitQueue_alarmMany (code : Nat) (arg : BitVec 64) (n : Nat) (s : State) : kitQueue (alarmMany code arg n s) = kitQueue s := by
  unfold alarmMany; split <;> simp

@[simp] theorem kitQueue_uncorrectable (unit n : Nat) (s : State) : kitQueue (uncorrectable unit n s) = kitQueue s := by simp [uncorrectable]

@[simp] theorem kitQueue_refetchLine (q slot : Nat) (s : State) : kitQueue (refetchLine q slot s) = kitQueue s := by
  unfold refetchLine; (repeat' split) <;> simp

@[simp] theorem kitQueue_rowSpoiled (r : RowRec) (s : State) : kitQueue (rowSpoiled r s) = kitQueue s := by simp [rowSpoiled]

@[simp] theorem kitQueue_recordSpoiled (seq : Word) (block : Nat) (s : State) : kitQueue (recordSpoiled seq block s) = kitQueue s := by
  unfold recordSpoiled; split <;> simp

@[simp] theorem kitQueue_controlSpoiled (q : Option Nat) (s : State) : kitQueue (controlSpoiled q s) = kitQueue s := by
  unfold controlSpoiled; split <;> simp

@[simp] theorem kitQueue_spoiled (w : EccWhere) (s : State) : kitQueue (spoiled w s) = kitQueue s := by
  unfold spoiled; split <;> simp

@[simp] theorem kitQueue_lineRead (w : EccWhere) (k : EccKind) (s : State) : kitQueue (lineRead w k s) = kitQueue s := by
  unfold lineRead; split <;> simp

@[simp] theorem kitQueue_useSpoiled (k : Nat) (u : BlockUse) (s : State) : kitQueue (useSpoiled k u s) = kitQueue s := by
  obtain ⟨p, use, bs⟩ := u
  cases use <;> simp [useSpoiled]

@[simp] theorem kitQueue_cacheSpoiled (s : State) : kitQueue (cacheSpoiled s) = kitQueue s := by simp [cacheSpoiled]
@[simp] theorem kitQueue_pairSpoiled (k : Nat) (s : State) : kitQueue (pairSpoiled k s) = kitQueue s := by simp [pairSpoiled]
@[simp] theorem kitQueue_debugOff (s : State) : kitQueue (debugOff s) = kitQueue s := by simp [debugOff]
@[simp] theorem kitQueue_domainLost (s : State) : kitQueue (domainLost s) = kitQueue s := by simp [domainLost]
@[simp] theorem kitQueue_domainFault (d : Nat) (s : State) : kitQueue (domainFault d s) = kitQueue s := by simp [domainFault]
@[simp] theorem kitQueue_ackMissing (d : Nat) (s : State) : kitQueue (ackMissing d s) = kitQueue s := by simp [ackMissing]

/-! ### Machine/Debug.lean -/
@[simp] theorem kitQueue_whiskMoves (s : State) : kitQueue (whiskMoves s) = kitQueue s := by simp [whiskMoves]
@[simp] theorem kitQueue_haltWrite (v : Word) (s : State) : kitQueue (haltWrite v s) = kitQueue s := by simp [haltWrite]
@[simp] theorem kitQueue_stepWrite (v : Word) (s : State) : kitQueue (stepWrite v s) = kitQueue s := by simp [stepWrite]
@[simp] theorem kitQueue_breakHit (n : Nat) (s : State) : kitQueue (breakHit n s) = kitQueue s := by simp [breakHit]
@[simp] theorem kitQueue_freeWord (s : State) : kitQueue (freeWord s).2.2 = kitQueue s := by simp [freeWord]

@[simp] theorem kitQueue_latched (a : Nat) (lo hi : Word) (s : State) : kitQueue (latched a lo hi s).2.2 = kitQueue s := by
  unfold latched; (repeat' split) <;> simp

@[simp] theorem kitQueue_debugFetch (a : Nat) (s : State) : kitQueue (debugFetch a s).2.2 = kitQueue s := by
  unfold debugFetch; (repeat' split) <;> simp

@[simp] theorem kitQueue_putWord (a : Nat) (v : Word) (s : State) : kitQueue (putWord a v s) = kitQueue s := by simp [putWord]

@[simp] theorem kitQueue_debugStore (a : Nat) (v : Word) (s : State) : kitQueue (debugStore a v s).2 = kitQueue s := by
  unfold debugStore; (repeat' split) <;> simp

@[simp] theorem kitQueue_advance (err : Nat) (s : State) : kitQueue (advance err s) = kitQueue s := by simp [advance]
@[simp] theorem kitQueue_memRead (s : State) : kitQueue (memRead s).2 = kitQueue s := by simp [memRead]
@[simp] theorem kitQueue_memWrite (v : Word) (s : State) : kitQueue (memWrite v s) = kitQueue s := by simp [memWrite]

@[simp] theorem kitQueue_debugRead (off : Nat) (s : State) : kitQueue (debugRead off s).2 = kitQueue s := by
  unfold debugRead; split <;> simp

@[simp] theorem kitQueue_breakWrite (n : Nat) (v : Word) (s : State) : kitQueue (breakWrite n v s) = kitQueue s := by simp [breakWrite]
@[simp] theorem kitQueue_debugWrite (off : Nat) (v : Word) (s : State) : kitQueue (debugWrite off v s) = kitQueue s := by simp [debugWrite]

@[simp] theorem kitQueue_tapAccess (write : Bool) (off : Nat) (v : Word) (s : State) : kitQueue (tapAccess write off v s) = kitQueue s := by
  unfold tapAccess; split <;> simp

/-! ### Machine/Regs.lean -/

@[simp] theorem kitQueue_csrDenied (src off : Nat) (write : Bool) (s : State) :
    kitQueue (csrDenied src off write s) = kitQueue s := by simp [csrDenied]

@[simp] theorem kitQueue_ceilWrite (v : Word) (s : State) : kitQueue (ceilWrite v s) = kitQueue s := by simp [ceilWrite]
@[simp] theorem kitQueue_thawHip (s : State) : kitQueue (thawHip s) = kitQueue s := by simp [thawHip]
@[simp] theorem kitQueue_thawPart (p : Nat) (s : State) : kitQueue (thawPart p s) = kitQueue s := by simp [thawPart]
@[simp] theorem kitQueue_thawWrite (v : Word) (s : State) : kitQueue (thawWrite v s) = kitQueue s := by simp [thawWrite]
@[simp] theorem kitQueue_bank0Write (o : Nat) (v : Word) (s : State) : kitQueue (bank0Write o v s) = kitQueue s := by simp [bank0Write]
@[simp] theorem kitQueue_killWrite (v : Word) (s : State) : kitQueue (killWrite v s) = kitQueue s := by simp [killWrite]
@[simp] theorem kitQueue_bank1Write (o : Nat) (v : Word) (s : State) : kitQueue (bank1Write o v s) = kitQueue s := by simp [bank1Write]
@[simp] theorem kitQueue_ringAnew (s : State) : kitQueue (ringAnew s) = kitQueue s := by simp [ringAnew]
@[simp] theorem kitQueue_logCfgWrite (v : Word) (s : State) : kitQueue (logCfgWrite v s) = kitQueue s := by simp [logCfgWrite]
@[simp] theorem kitQueue_logBaseWrite (v : Word) (s : State) : kitQueue (logBaseWrite v s) = kitQueue s := by simp [logBaseWrite]
@[simp] theorem kitQueue_bank14Write (o : Nat) (v : Word) (s : State) : kitQueue (bank14Write o v s) = kitQueue s := by simp [bank14Write]
@[simp] theorem kitQueue_csrPut (off : Nat) (v : Word) (s : State) : kitQueue (csrPut off v s) = kitQueue s := by simp [csrPut]

@[simp] theorem kitQueue_csrWrite (src : BitVec 4) (off : Nat) (v : Word) (s : State) :
    kitQueue (csrWrite src off v s) = kitQueue s := by simp [csrWrite]

@[simp] theorem kitQueue_csrMemRead (src : BitVec 4) (s : State) : kitQueue (csrMemRead src s) = kitQueue s := by simp [csrMemRead]

@[simp] theorem kitQueue_partWrite (src : BitVec 4) (p off : Nat) (v : Word) (s : State) :
    kitQueue (partWrite src p off v s) = kitQueue s := by simp [partWrite]

/-! ### The commands -/

/-- Every meaning answers `.next` of operations that keep the kit and the queue. -/
theorem exec_next_kitQueue (c : Instr) (s : State) : ∃ t, exec c s = .next t ∧ kitQueue t = kitQueue s := by
  cases c <;> exact ⟨_, rfl, by simp⟩

/-- Settles O3, by cases on the command: the meaning of each row answers a next state, in every state (R4), and is made of operations that keep
the kit and the waiting commands. RESET and RST_N_ASSERT carry both over (log entries 4 and 124); a row of the table whose condition does not
hold answers the same state (log entry 84). -/
theorem everyCommandRunsAndLeavesTheQueue : Obligations.EveryCommandRunsAndLeavesTheQueue := by
  intro c s
  obtain ⟨t, hnext, hkept⟩ := exec_next_kitQueue c s
  obtain ⟨hkit, hpending⟩ := kitQueue_eq_iff.1 hkept
  exact ⟨t, hnext, hpending, hkit⟩

end Sys2Proof.Machine
end

section
/-! Passes and sieving (O50). An operation that writes a few fields only is stated as an equation with a state literal (`∃ x, f … s = { s with … := x }`),
so that a proof rewrites one operation after the other into literals, and what is left holds by reflexivity. -/

-- The proofs of this part are checked one after another: the whole package is one text under a limit on threads.
set_option Elab.async false

namespace Sys2Proof.Machine

/-! ### What the operations write -/

/-- A trace event writes the telemetry and the counters, and does not count a scored row. -/
theorem trace_eq_mk (a b c : Nat) (d : Word) (e : BitVec 64) (s : State) :
    ∃ tele cnt, trace a b c d e s = { s with tele := tele, cnt := cnt } ∧ cnt.rowsScored = s.cnt.rowsScored := by
  refine ⟨_, _, trace_shape a b c d e s, ?_⟩
  unfold trace
  split
  · rfl
  · dsimp only [count]; split <;> rfl

theorem updMergeAt_shape (k : RowKey) (n : Nat) (f : Merge → Merge) (s : State) :
    updMergeAt k n f s = { s with merges := (updMergeAt k n f s).merges } := by
  unfold updMergeAt; split <;> rfl

theorem updMergeAt_merges (k : RowKey) (n : Nat) (f : Merge → Merge) (s : State) :
    (updMergeAt k n f s).merges = if (mergeAt s k n).isSome then updFirst (fun m => m.key == k && m.node == n) f s.merges
      else s.merges ++ [f (freshMerge k n (partOfRow s k))] := by
  unfold updMergeAt; split <;> rfl

/-- A fold of changes of the heat changes the heat. -/
theorem foldl_eq_mk_heat {α : Type} {f : State → α → State}
    (hf : ∀ s x, ∃ heat, f s x = { s with place := { s.place with heat := heat } }) (l : List α) (s : State) :
    ∃ heat, l.foldl f s = { s with place := { s.place with heat := heat } } := by
  induction l generalizing s with
  | nil => exact ⟨_, rfl⟩
  | cons x l ih =>
    obtain ⟨_, hx⟩ := hf s x
    obtain ⟨heat, hl⟩ := ih (f s x)
    exact ⟨heat, by rw [List.foldl_cons, hl, hx]⟩

/-! ### PASS_DONE -/

/-- A pass is counted (R465), and its pan is not idle (R437). -/
def passCounted (p : PassInfo) (cycles : Nat) (s : State) : State :=
  { perf (8 * p.pan) cycles s with power := { s.power with idle := s.power.idle.set p.pan 0 } }

/-- The strips of a pass, and the overlay strips of its variant, are read once for each row of its tile (R90). -/
def passHeated (p : PassInfo) (tag : Nat × Nat) (h : Head) (s : State) : State :=
  p.strips.foldl (fun s f =>
    let s := heatUp ⟨tag.1, 0, f⟩ p.rows.length s
    if (overlayOf h tag.2).any (fun x => x.first == f) then heatUp ⟨tag.1, tag.2, f⟩ p.rows.length s else s) s

/-- The strips of a pass have passed for the rows of its tile (R80), and for the training slot where it has a training row. -/
def passMarked (p : PassInfo) (tag : Nat × Nat) (s : State) : State :=
  { s with
    rows := s.rows.map fun r => if p.rows.contains (rowKeyOf r) && r.kind = 0 && r.useStep = s.step.step then
      { r with passed := p.strips.foldl addOnce r.passed } else r
    place := if p.rows.any (·.train) then
      { s.place with trained := (p.strips.map fun f => (⟨tag.1, 0, f⟩ : StripId)).foldl addOnce s.place.trained } else s.place }

/-- The state that a pass without a mismatch leaves to the staging region. -/
def passScored (p : PassInfo) (tag : Nat × Nat) (h : Head) (cycles : Nat) (s : State) : State :=
  passMarked p tag (trace 14 0 0 (BitVec.ofNat 32 p.pan) (BitVec.ofNat 64 cycles) (passHeated p tag h (passCounted p cycles s)))

theorem passHeated_eq_mk (p : PassInfo) (tag : Nat × Nat) (h : Head) (s : State) :
    ∃ heat, passHeated p tag h s = { s with place := { s.place with heat := heat } } := by
  refine foldl_eq_mk_heat (fun t f => ?_) p.strips s
  dsimp only
  split <;> exact ⟨_, rfl⟩

theorem passScored_eq_mk (p : PassInfo) (tag : Nat × Nat) (h : Head) (cycles : Nat) (s : State) :
    ∃ tele cnt heat, passScored p tag h cycles s = { s with
      tele := tele
      cnt := cnt
      power := { s.power with idle := s.power.idle.set p.pan 0 }
      rows := s.rows.map fun r => if p.rows.contains (rowKeyOf r) && r.kind = 0 && r.useStep = s.step.step then
        { r with passed := p.strips.foldl addOnce r.passed } else r
      place := { s.place with
        heat := heat
        trained := if p.rows.any (·.train) then (p.strips.map fun f => (⟨tag.1, 0, f⟩ : StripId)).foldl addOnce s.place.trained
          else s.place.trained } } := by
  obtain ⟨heat, hheat⟩ := passHeated_eq_mk p tag h (passCounted p cycles s)
  obtain ⟨tele, cnt, htrace, -⟩ := trace_eq_mk 14 0 0 (BitVec.ofNat 32 p.pan) (BitVec.ofNat 64 cycles) (passHeated p tag h (passCounted p cycles s))
  refine ⟨tele, cnt, heat, ?_⟩
  rw [passScored, htrace, hheat]
  unfold passMarked
  split <;> rfl

/-- What a pass within the limits of R79 does: a mismatch fences its pan (R411); without one its strips have passed, and the staging region
goes on (R89). -/
theorem passDone_of_passOk {p : PassInfo} {tag : Nat × Nat} {h : Head} {s : State} (htag : p.rows.head?.bind (passTag s) = some tag)
    (hhead : headOf s tag.1 = some h) (hok : passOk s p tag h = true) :
    let cycles := passCycles h tag.2 p.strips * p.rows.length
    passDone p s = if p.mismatch then fencePan p.pan (passCounted p cycles s) else streamGo tag.1 (passScored p tag h cycles s) := by
  simp only [passDone, htag, hhead, hok, Bool.not_true, Bool.false_eq_true, if_false]
  rfl

theorem exec_passDone (p : PassInfo) (s : State) : exec (.passDone p) s = .next (passDone p s) := rfl

/-! ### ROW_SIEVED -/

/-- A row is sieved, and counted as scored. -/
def rowScored (k : RowKey) (r : RowRec) (s : State) : State :=
  count (fun c => { c with rowsScored := c.rowsScored + 1 })
    { s with rows := updFirst (fun x => rowKeyOf x == k && x.useStep == r.useStep) (fun x => { x with sieved := true }) s.rows }

/-- A row is sieved, traced with the number of its valid scores and its highest key, and its merge keeps its summary (R188). -/
def rowSummarised (k : RowKey) (r : RowRec) (sum : Summary) (valid : Nat) (s : State) : State :=
  let s := rowScored k r s
  let s := trace 6 0 0 (BitVec.ofNat 32 k.id) (BitVec.ofNat 64 valid) s
  let s := trace 7 0 0 (BitVec.ofNat 32 k.id) (BitVec.ofNat 64 sum.kmax.toNat) s
  updMergeAt k (me s) (fun m => { m with summary := some sum }) s

theorem rowSummarised_eq_mk (k : RowKey) (r : RowRec) (sum : Summary) (valid : Nat) (s : State) :
    ∃ tele cnt, cnt.rowsScored = s.cnt.rowsScored + 1 ∧ rowSummarised k r sum valid s = { s with
      tele := tele
      cnt := cnt
      rows := updFirst (fun x => rowKeyOf x == k && x.useStep == r.useStep) (fun x => { x with sieved := true }) s.rows
      merges := (updMergeAt k (me s) (fun m => { m with summary := some sum }) s).merges } := by
  obtain ⟨tele₁, cnt₁, htrace₁, hcnt₁⟩ := trace_eq_mk 6 0 0 (BitVec.ofNat 32 k.id) (BitVec.ofNat 64 valid) (rowScored k r s)
  obtain ⟨tele₂, cnt₂, htrace₂, hcnt₂⟩ := trace_eq_mk 7 0 0 (BitVec.ofNat 32 k.id) (BitVec.ofNat 64 sum.kmax.toNat)
    (trace 6 0 0 (BitVec.ofNat 32 k.id) (BitVec.ofNat 64 valid) (rowScored k r s))
  refine ⟨tele₂, cnt₂, ?_, ?_⟩
  · rw [hcnt₂, htrace₁]; exact hcnt₁
  · dsimp only [rowSummarised]
    rw [htrace₂, htrace₁, updMergeAt_shape, updMergeAt_merges, updMergeAt_merges]
    rfl

theorem me_rowSummarised (k : RowKey) (r : RowRec) (sum : Summary) (valid : Nat) (s : State) : me (rowSummarised k r sum valid s) = me s := by
  obtain ⟨_, _, -, h⟩ := rowSummarised_eq_mk k r sum valid s
  rw [h]; rfl

theorem step16_rowSummarised (k : RowKey) (r : RowRec) (sum : Summary) (valid : Nat) (s : State) :
    step16 (rowSummarised k r sum valid s) = step16 s := by
  obtain ⟨_, _, -, h⟩ := rowSummarised_eq_mk k r sum valid s
  rw [h]; rfl

/-- The places fit while the shell area stays within its 1,048,576 entries (R111). -/
theorem takeShell_rowSummarised_fits (n : Nat) (k : RowKey) (r : RowRec) (sum : Summary) (valid : Nat) (s : State) :
    (takeShell n (rowSummarised k r sum valid s)).1 = decide (s.pot.shellUsed + n ≤ 1048576) := by
  obtain ⟨_, _, -, h⟩ := rowSummarised_eq_mk k r sum valid s
  rw [h]; rfl

/-- What a row that has its summary and its places leaves behind, whether the places fit or not. -/
theorem takeShell_rowSummarised_frame (n : Nat) (k : RowKey) (r : RowRec) (sum : Summary) (valid : Nat) (s : State) :
    let u := (takeShell n (rowSummarised k r sum valid s)).2
    u.rows = updFirst (fun x => rowKeyOf x == k && x.useStep == r.useStep) (fun x => { x with sieved := true }) s.rows
      ∧ u.merges = (updMergeAt k (me s) (fun m => { m with summary := some sum }) s).merges
      ∧ u.cnt.rowsScored = s.cnt.rowsScored + 1 ∧ u.pot = { s.pot with shellUsed := min 1048576 (s.pot.shellUsed + n) }
      ∧ u = { s with rows := u.rows, merges := u.merges, cnt := u.cnt, pot := u.pot, tele := u.tele } := by
  obtain ⟨_, _, hcnt, h⟩ := rowSummarised_eq_mk k r sum valid s
  rw [h]
  exact ⟨rfl, rfl, hcnt, rfl, rfl⟩

/-- A row may be scored only while the step sequencer runs (R469). -/
theorem running_of_mayScore {s : State} {r : RowRec} {e : ReqEntry} (h : mayScore s r e = true) : s.dbg.halted.getLsbD 1 = false := by
  simp only [mayScore, Bool.and_eq_true, Bool.not_eq_true'] at h
  simp only [h]

/-- A row that is due is summarised, and its record starts phase A (R188) unless its places find the shell area full (R111). -/
theorem sieveRow_of_due {k : RowKey} {s : State} {r : RowRec} {e : ReqEntry} (hrow : rowOf s k = some r) (hpart : takesPart s k (me s) = true)
    (hreq : reqOf s k.id = some e) (hfirst : r.rescore = 0) (hnew : r.sieved = false) (hpassed : passesDone s r = true)
    (hmay : mayScore s r e = true) :
    let masses := usesMasses e.info.settings
    let valid := validOf (finalScores s r e)
    let sum := summarise e.info.epoch e.pred masses (me s) valid
    let u := rowSummarised k r sum valid.length s
    let t := takeShell (summaryPlaces sum + capturedCount e.pred.gap valid) u
    sieveRow k s = if !t.1 then shellFull k t.2
      else advanceA k 130 (me u) (updMergeAt k (me u)
        (fun m => { m with ownA := some (ownA k (step16 u) masses (treeDigest r) sum), places := summaryPlaces sum }) t.2) := by
  have hruns := running_of_mayScore hmay
  have hheld : (rowOf s k).filter (fun _ => takesPart s k (me s)) = some r := by simp [hrow, hpart]
  unfold sieveRow
  rw [hheld, hreq]
  dsimp only
  rw [if_neg (by simp [hfirst]), if_neg (by rw [hruns]; simp), if_neg (by simp [hnew, hpassed, hmay])]
  rfl

/-- A slice of which the row needs nothing sends the neutral record while the step is open (R24, R182). -/
theorem sieveRow_of_not_takesPart {k : RowKey} {s : State} (hpart : takesPart s k (me s) = false) (hreq : (reqOf s k.id).isSome = true) :
    sieveRow k s = neutralSum k false s := by
  obtain ⟨e, he⟩ := Option.isSome_iff_exists.1 hreq
  have hnone : (rowOf s k).filter (fun _ => takesPart s k (me s)) = none := by simp [hpart]
  unfold sieveRow
  rw [hnone, he]
  dsimp only
  rw [if_neg (by simp [hpart])]

/-- A row that is sieved and waits for no re-score is not sieved again (R188). -/
theorem sieveRow_of_sieved {k : RowKey} {s : State} {r : RowRec} (hrow : rowOf s k = some r) (hpart : takesPart s k (me s) = true)
    (hsieved : r.sieved = true) (hrescore : r.rescore = 0) : sieveRow k s = s := by
  have hheld : (rowOf s k).filter (fun _ => takesPart s k (me s)) = some r := by simp [hrow, hpart]
  unfold sieveRow
  rw [hheld]
  cases reqOf s k.id with
  | none => rfl
  | some e =>
    dsimp only
    rw [if_neg (by simp [hrescore]), if_neg (by simp [hsieved]), if_pos (by simp [hsieved])]

theorem neutralSum_of_open {k : RowKey} {s : State} (failed : Bool) (hopen : s.step.opened = true) (hstamp : s.step.stamped = false)
    (hown : ∀ m, mergeAt s k (me s) = some m → m.ownA = none) :
    neutralSum k failed s = advanceA k 130 (me s)
      (updMergeAt k (me s) (fun m => { m with ownA := some { neutralA k (step16 s) with failed := failed } }) s) := by
  have hnone : (mergeAt s k (me s)).any (·.ownA.isSome) = false := by
    cases h : mergeAt s k (me s) with
    | none => rfl
    | some m => simp [hown m h]
  simp [neutralSum, hopen, hstamp, hnone]

theorem exec_rowSieved_of_serving {k : RowKey} (f : PipFault) (s : State) (hk : k.train = false) :
    exec (.rowSieved ⟨k, f⟩) s = .next (sieveRow k (sieveParity k f s)) := by
  change Host.Outcome.next (if k.train then _ else _) = _
  rw [if_neg (by simp [hk])]

theorem sieveParity_none (k : RowKey) (s : State) : sieveParity k .none s = s := by simp [sieveParity]

/-- Settles O50, clause by clause: a pass by what one within the limits of R79 does (`passDone_of_passOk`), a row by the branch of `sieveRow` that
its state selects. The places that a capture takes are log entry 130, the order in which masses accumulate is log entry 20. -/
theorem passesScoreRows : Obligations.PassesScoreRows := by
  unfold Obligations.PassesScoreRows
  refine ⟨fun p tag h s htag hhead hok => ⟨fun hm => ?_, fun hm => ?_⟩, fun k s hk => ⟨?_, ?_, ?_, ?_⟩⟩
  · refine ⟨passCounted p (passCycles h tag.2 p.strips * p.rows.length) s, ?_, rfl, rfl⟩
    rw [exec_passDone, passDone_of_passOk htag hhead hok, if_pos hm]
  · refine ⟨passScored p tag h (passCycles h tag.2 p.strips * p.rows.length) s, ?_, ?_⟩
    · rw [exec_passDone, passDone_of_passOk htag hhead hok, if_neg (by simp [hm])]
    · obtain ⟨tele, cnt, heat, hu⟩ := passScored_eq_mk p tag h (passCycles h tag.2 p.strips * p.rows.length) s
      rw [hu]
      exact ⟨rfl, rfl, rfl, rfl⟩
  · intro r e hrow hpart hreq hfirst hnew hpassed hmay masses valid sum n
    have hsieve := sieveRow_of_due hrow hpart hreq hfirst hnew hpassed hmay
    dsimp only at hsieve
    rw [me_rowSummarised, step16_rowSummarised, takeShell_rowSummarised_fits] at hsieve
    obtain ⟨hrows, hmerges, hcnt, hpot, hframe⟩ := takeShell_rowSummarised_frame n k r sum valid.length s
    refine ⟨_, hrows, hmerges, hcnt, hpot, hframe, fun hroom => ?_, fun hfull => ?_⟩
    · rw [exec_rowSieved_of_serving _ _ hk, sieveParity_none, hsieve, if_neg (by simpa using hroom)]
    · rw [exec_rowSieved_of_serving _ _ hk, sieveParity_none, hsieve, if_pos (by simpa using hfull)]
  · intro hpart hreq hopen hstamp hown
    rw [exec_rowSieved_of_serving _ _ hk, sieveParity_none, sieveRow_of_not_takesPart hpart hreq, neutralSum_of_open _ hopen hstamp hown]
  · intro r hrow hpart hsieved hrescore
    rw [exec_rowSieved_of_serving _ _ hk, sieveParity_none, sieveRow_of_sieved hrow hpart hsieved hrescore]
  · intro f
    rw [exec_rowSieved_of_serving _ _ hk, exec_rowSieved_of_serving _ _ hk, sieveParity_none]

end Sys2Proof.Machine
end

section
/-! Formation and PROPOSE_RETRY (O53). R453 ends with a formed group, and log entry 84 says that a row whose condition does not hold has no
effect. In the model a PROPOSE_RETRY of a formed group still has one: `execProposeRetry` clears the mark that this slice has read its number and
its size, before `propose` finds the group formed. -/

namespace Sys2Proof.Machine

/-- A new round that finds the group formed goes no further than to clear the mark `numbered`. -/
theorem exec_proposeRetry_of_formed {s : State} (hf : s.group.formed = true) :
    exec .proposeRetry s = .next { s with group := { s.group with numbered := false } } := by
  change Host.Outcome.next (propose _) = _
  rw [propose, if_pos hf]

/-- So a PROPOSE_RETRY leaves a formed group as it is just where its slice has no numbers read. -/
theorem exec_proposeRetry_eq_self_iff {s : State} (hf : s.group.formed = true) :
    exec .proposeRetry s = .next s ↔ s.group.numbered = false := by
  rw [exec_proposeRetry_of_formed hf]
  refine ⟨fun h => ?_, fun h => ?_⟩
  · injection h with h
    exact (congrArg (·.group.numbered) h).symm
  · rw [← h]

/-- A group of one, of the straps of `State.reset`, that has formed, with the mark as the formation left it: `takeNumbers` sets it when the slice
proposes itself, and `formTick` keeps it. -/
def formedAlone : State :=
  { State.reset with whisk := .running, group := { State.reset.group with formed := true, solo := false, numbered := true } }

/-- Refutes O53 by its clause that a formed group hears no PROPOSE_RETRY: in `formedAlone` the row clears `numbered`. -/
theorem not_groupsForm : ¬ Obligations.GroupsForm := by
  unfold Obligations.GroupsForm
  intro h
  -- any operands will do: those of the other rows play no part in the clause
  obtain ⟨-, -, -, hclosed, -⟩ :=
    h ⟨0, 1, 1, 1, 3, 7, 0, true, 0, 0⟩ 0 0 0 .missing ⟨0, 1, []⟩ ⟨2, 3, 0, 1, 0, 0, 3, 7, 0, 0, 0, 0, 0⟩ formedAlone
  obtain ⟨-, -, -, -, hretry, -⟩ := hclosed rfl
  have hcleared : formedAlone.group.numbered = false := (exec_proposeRetry_eq_self_iff rfl).1 hretry
  exact absurd hcleared (by decide)

end Sys2Proof.Machine
end

section
/-! The scores as numbers and their SK32 keys (O60; R37, R38). Without its sign a binary32 pattern counts the magnitudes upwards: `gridValue`, the
magnitude in units of 2^-149 that a pattern stands for, grows with the pattern (`gridValue_lt_of_lt`). Both orders of the statement
are read off one integer, `orderValue`: `fLt` is its order on every pattern that is not a NaN (`fLt_iff_orderValue_lt`), and so is the order of the
keys, but for -0 (`skey_lt_iff_orderValue_lt`). Infinity takes part as the magnitude after the last finite one. -/

namespace Sys2Proof.Machine

/-! ### The magnitudes -/

/-- A binary32 pattern without its sign. -/
def magBits (b : F32) : Nat := b.toNat % 2 ^ 31

/-- The magnitude, in units of 2^-149, of the pattern r without a sign: r itself when the exponent field is 0, else the fraction with its
hidden bit, raised by the exponent field. -/
def gridValue (r : Nat) : Nat :=
  if r < 2 ^ 23 then r else (r % 2 ^ 23 + 2 ^ 23) * 2 ^ (r / 2 ^ 23 - 1)

/-- The value of a pattern in units of 2^-149. -/
def orderValue (b : F32) : Int := if b.msb then -(gridValue (magBits b) : Int) else gridValue (magBits b)

theorem orderValue_of_msb_false {b : F32} (h : b.msb = false) : orderValue b = gridValue (magBits b) := by
  rw [orderValue, h]
  rfl

theorem orderValue_of_msb_true {b : F32} (h : b.msb = true) : orderValue b = -(gridValue (magBits b) : Int) := by
  rw [orderValue, h]
  rfl

theorem orderValue_bounds (b : F32) : -(gridValue (magBits b) : Int) ≤ orderValue b ∧ orderValue b ≤ gridValue (magBits b) := by
  cases h : b.msb with
  | false => rw [orderValue_of_msb_false h]; omega
  | true => rw [orderValue_of_msb_true h]; omega

theorem gridValue_of_lt {r : Nat} (h : r < 2 ^ 23) : gridValue r = r := if_pos h

theorem gridValue_of_div_eq {r q : Nat} (h : r / 2 ^ 23 = q + 1) : gridValue r = (r % 2 ^ 23 + 2 ^ 23) * 2 ^ q := by
  rw [gridValue, if_neg (by omega), h, Nat.add_sub_cancel]

theorem gridValue_lt_succ (r : Nat) : gridValue r < gridValue (r + 1) := by
  by_cases hsub : r < 2 ^ 23
  · rw [gridValue_of_lt hsub]
    by_cases hnext : r + 1 < 2 ^ 23
    · rw [gridValue_of_lt hnext]
      exact Nat.lt_succ_self r
    · have hnormal := gridValue_of_div_eq (r := r + 1) (q := 0) (by omega)
      omega
  · obtain ⟨q, hq⟩ : ∃ q, r / 2 ^ 23 = q + 1 := ⟨r / 2 ^ 23 - 1, by omega⟩
    have hstep := Nat.two_pow_pos q
    rw [gridValue_of_div_eq hq]
    by_cases hlast : r % 2 ^ 23 = 2 ^ 23 - 1
    · -- the last fraction of an exponent: the next pattern has the next exponent and fraction 0
      rw [gridValue_of_div_eq (q := q + 1) (by omega), hlast, (by omega : (r + 1) % 2 ^ 23 = 0), Nat.pow_succ 2 q]
      omega
    · rw [gridValue_of_div_eq (q := q) (by omega), (by omega : (r + 1) % 2 ^ 23 = r % 2 ^ 23 + 1)]
      exact Nat.mul_lt_mul_of_pos_right (by omega) hstep

theorem gridValue_lt_add (r d : Nat) : gridValue r < gridValue (r + d + 1) := by
  induction d with
  | zero => exact gridValue_lt_succ r
  | succ d ih => exact Nat.lt_trans ih (gridValue_lt_succ _)

theorem gridValue_lt_of_lt {r t : Nat} (h : r < t) : gridValue r < gridValue t := by
  obtain ⟨d, rfl⟩ := Nat.exists_eq_add_of_lt h
  exact gridValue_lt_add r d

theorem gridValue_lt_iff {r t : Nat} : gridValue r < gridValue t ↔ r < t := by
  refine ⟨fun h => Nat.lt_of_not_le fun hle => ?_, gridValue_lt_of_lt⟩
  rcases Nat.lt_or_eq_of_le hle with hlt | rfl
  · exact Nat.lt_asymm h (gridValue_lt_of_lt hlt)
  · exact Nat.lt_irrefl _ h

theorem gridValue_pos {r : Nat} (h : 0 < r) : 0 < gridValue r := gridValue_lt_of_lt h

/-! ### What a pattern stands for -/

theorem magBits_lt (b : F32) : magBits b < 2 ^ 31 := Nat.mod_lt _ (by decide)

theorem toNat_eq_magBits (b : F32) : b.toNat = if b.msb then 2 ^ 31 + magBits b else magBits b := by
  have hlt := b.isLt
  rw [magBits, BitVec.msb_eq_decide]
  simp only [decide_eq_true_eq]
  split <;> omega

/-- `ofBits` reads the exponent field and the fraction off the pattern without its sign. -/
theorem ofBits_eq_magBits (b : F32) :
    ofBits b = if magBits b / 2 ^ 23 = 255 then (if magBits b % 2 ^ 23 = 0 then .inf b.msb else .nan)
      else if magBits b / 2 ^ 23 = 0 then .fin b.msb (magBits b % 2 ^ 23) (-149)
      else .fin b.msb (magBits b % 2 ^ 23 + 2 ^ 23) ((magBits b / 2 ^ 23 : Nat) - 150) := by
  have hexp : (b.extractLsb' 23 8).toNat = magBits b / 2 ^ 23 := by
    rw [BitVec.extractLsb'_toNat, Nat.shiftRight_eq_div_pow, magBits]
    omega
  have hfrac : (b.extractLsb' 0 23).toNat = magBits b % 2 ^ 23 := by
    rw [BitVec.extractLsb'_toNat, Nat.shiftRight_zero, magBits]
    omega
  simp only [ofBits, hexp, hfrac]

theorem ofBits_of_infinite {b : F32} (h : magBits b = 0x7F800000) : ofBits b = .inf b.msb := by
  rw [ofBits_eq_magBits, if_pos (by omega), if_pos (by omega)]

theorem ofBits_of_nan {b : F32} (h : 0x7F800000 < magBits b) : ofBits b = .nan := by
  have hlt := magBits_lt b
  rw [ofBits_eq_magBits, if_pos (by omega), if_neg (by omega)]

theorem ofBits_of_finite {b : F32} (h : magBits b < 0x7F800000) :
    ∃ m k : Nat, ofBits b = .fin b.msb m ((k : Int) - 149) ∧ m * 2 ^ k = gridValue (magBits b) := by
  rw [ofBits_eq_magBits, if_neg (by omega)]
  by_cases hsub : magBits b < 2 ^ 23
  · refine ⟨magBits b, 0, ?_, by rw [gridValue_of_lt hsub, Nat.pow_zero, Nat.mul_one]⟩
    rw [if_pos (Nat.div_eq_of_lt hsub), Nat.mod_eq_of_lt hsub]
    rfl
  · obtain ⟨q, hq⟩ : ∃ q, magBits b / 2 ^ 23 = q + 1 := ⟨magBits b / 2 ^ 23 - 1, by omega⟩
    refine ⟨magBits b % 2 ^ 23 + 2 ^ 23, q, ?_, (gridValue_of_div_eq hq).symm⟩
    rw [if_neg (by omega), hq, (by omega : ((q + 1 : Nat) : Int) - 150 = q - 149)]

theorem isNan_eq_false_iff {b : F32} : isNan b = false ↔ magBits b ≤ 0x7F800000 := by
  rcases Nat.lt_trichotomy (magBits b) 0x7F800000 with h | h | h
  · obtain ⟨m, k, hfin, -⟩ := ofBits_of_finite h
    exact iff_of_true (by rw [isNan, hfin]) (Nat.le_of_lt h)
  · exact iff_of_true (by rw [isNan, ofBits_of_infinite h]) (Nat.le_of_eq h)
  · exact iff_of_false (by rw [isNan, ofBits_of_nan h]; decide) (Nat.not_le_of_lt h)

/-! ### The order of the numbers -/

/-- A dyadic's sign is that of its mantissa. -/
theorem neg_iff_mul_two_pow_neg (x : Int) (k : Nat) : x < 0 ↔ x * 2 ^ k < 0 :=
  have hpow : (0 : Int) < 2 ^ k := Int.pow_pos (by decide)
  ⟨fun h => Int.mul_neg_of_neg_of_pos h hpow, fun h => Int.neg_of_mul_neg_left h hpow⟩

theorem addDy_of_le (m n c : Int) (i d : Nat) :
    (addDy (m, (i : Int) - c) (n, ((i + d : Nat) : Int) - c)).1 = m + n * 2 ^ d := by
  rw [addDy, if_pos (by omega)]
  exact congrArg (fun k => m + n * 2 ^ k) (by omega)

theorem addDy_of_lt (m n c : Int) (j d : Nat) :
    (addDy (m, ((j + d + 1 : Nat) : Int) - c) (n, (j : Int) - c)).1 = m * 2 ^ (d + 1) + n := by
  rw [addDy, if_neg (by omega)]
  exact congrArg (fun k => m * 2 ^ k + n) (by omega)

/-- The sign of the sum of two dyadics, read over one common exponent. -/
theorem addDy_neg_iff (m n : Int) (i j : Nat) (c : Int) :
    (addDy (m, (i : Int) - c) (n, (j : Int) - c)).1 < 0 ↔ m * 2 ^ i + n * 2 ^ j < 0 := by
  rcases Nat.lt_or_ge j i with h | h
  · obtain ⟨d, rfl⟩ := Nat.exists_eq_add_of_lt h
    rw [addDy_of_lt, neg_iff_mul_two_pow_neg _ j, Int.add_mul, Int.mul_assoc, ← Int.pow_add, Nat.add_comm (d + 1) j, Nat.add_assoc]
  · obtain ⟨d, rfl⟩ := Nat.exists_eq_add_of_le h
    rw [addDy_of_le, neg_iff_mul_two_pow_neg _ i, Int.add_mul, Int.mul_assoc, ← Int.pow_add, Nat.add_comm d i]

theorem signedMant_mul_eq_orderValue {b : F32} {m k : Nat} (h : m * 2 ^ k = gridValue (magBits b)) :
    signedMant b.msb m * 2 ^ k = orderValue b := by
  have hcast : (m : Int) * 2 ^ k = gridValue (magBits b) := by
    rw [← h, Int.natCast_mul, Int.natCast_pow]
    rfl
  cases hs : b.msb with
  | false => rw [orderValue_of_msb_false hs, ← hcast]; rfl
  | true => rw [orderValue_of_msb_true hs, ← hcast, ← Int.neg_mul]; rfl

theorem fLt_of_fin_fin {a b : F32} {s t : Bool} {m n : Nat} {e f : Int} (ha : ofBits a = .fin s m e) (hb : ofBits b = .fin t n f) :
    fLt a b = decide ((addDy (signedMant s m, e) (-(signedMant t n), f)).1 < 0) := by rw [fLt, ha, hb]

theorem fLt_of_fin_inf {a b : F32} {s t : Bool} {m : Nat} {e : Int} (ha : ofBits a = .fin s m e) (hb : ofBits b = .inf t) :
    fLt a b = !t := by rw [fLt, ha, hb]

theorem fLt_of_inf_fin {a b : F32} {s t : Bool} {n : Nat} {f : Int} (ha : ofBits a = .inf s) (hb : ofBits b = .fin t n f) :
    fLt a b = s := by rw [fLt, ha, hb]

theorem fLt_of_inf_inf {a b : F32} {s t : Bool} (ha : ofBits a = .inf s) (hb : ofBits b = .inf t) :
    fLt a b = (s && !t) := by rw [fLt, ha, hb]

/-- `fLt` is the order of the values, for patterns that are not NaN. -/
theorem fLt_iff_orderValue_lt {a b : F32} (ha : isNan a = false) (hb : isNan b = false) :
    fLt a b = true ↔ orderValue a < orderValue b := by
  rw [isNan_eq_false_iff] at ha hb
  have hpos := gridValue_pos (r := 0x7F800000) (by decide)
  have hboundA := orderValue_bounds a
  have hboundB := orderValue_bounds b
  rcases Nat.lt_or_eq_of_le ha with hfinA | hinfA <;> rcases Nat.lt_or_eq_of_le hb with hfinB | hinfB
  · obtain ⟨m, i, hofA, hm⟩ := ofBits_of_finite hfinA
    obtain ⟨n, j, hofB, hn⟩ := ofBits_of_finite hfinB
    rw [fLt_of_fin_fin hofA hofB, decide_eq_true_iff, addDy_neg_iff, Int.neg_mul, signedMant_mul_eq_orderValue hm,
      signedMant_mul_eq_orderValue hn]
    omega
  · obtain ⟨m, i, hofA, -⟩ := ofBits_of_finite hfinA
    have hlt := gridValue_lt_of_lt hfinA
    rw [fLt_of_fin_inf hofA (ofBits_of_infinite hinfB)]
    cases hsB : b.msb with
    | false => exact iff_of_true rfl (by rw [orderValue_of_msb_false hsB, hinfB]; omega)
    | true => exact iff_of_false (by decide) (by rw [orderValue_of_msb_true hsB, hinfB]; omega)
  · obtain ⟨n, j, hofB, -⟩ := ofBits_of_finite hfinB
    have hlt := gridValue_lt_of_lt hfinB
    rw [fLt_of_inf_fin (ofBits_of_infinite hinfA) hofB]
    cases hsA : a.msb with
    | false => exact iff_of_false (by decide) (by rw [orderValue_of_msb_false hsA, hinfA]; omega)
    | true => exact iff_of_true rfl (by rw [orderValue_of_msb_true hsA, hinfA]; omega)
  · rw [hinfB] at hboundB
    rw [fLt_of_inf_inf (ofBits_of_infinite hinfA) (ofBits_of_infinite hinfB)]
    cases hsA : a.msb with
    | false => exact iff_of_false (by rw [Bool.false_and]; decide) (by rw [orderValue_of_msb_false hsA, hinfA]; omega)
    | true =>
      cases hsB : b.msb with
      | false => exact iff_of_true rfl (by rw [orderValue_of_msb_true hsA, orderValue_of_msb_false hsB, hinfA, hinfB]; omega)
      | true => exact iff_of_false (by decide) (by rw [orderValue_of_msb_true hsA, orderValue_of_msb_true hsB, hinfA, hinfB]; omega)

/-! ### The keys -/

theorem skey_of_msb_false {b : F32} (h : b.msb = false) : skey b = b ^^^ 0x80000000#32 := by
  rw [skey, h]
  rfl

theorem skey_of_msb_true {b : F32} (h : b.msb = true) : skey b = ~~~b := by
  rw [skey, h]
  rfl

theorem magBits_flipSign (b : F32) : magBits (b ^^^ 0x80000000#32) = magBits b := by
  rw [magBits, BitVec.toNat_xor, Nat.xor_mod_two_pow]
  exact Nat.xor_zero _

theorem msb_flipSign (b : F32) : (b ^^^ 0x80000000#32).msb = !b.msb := by
  rw [BitVec.msb_xor, (by decide : (0x80000000#32).msb = true), Bool.xor_true]

theorem toNat_skey_of_msb_false {b : F32} (h : b.msb = false) : (skey b).toNat = 2 ^ 31 + magBits b := by
  rw [skey_of_msb_false h, toNat_eq_magBits, msb_flipSign, magBits_flipSign, h]
  rfl

theorem toNat_skey_of_msb_true {b : F32} (h : b.msb = true) : (skey b).toNat = 2 ^ 31 - 1 - magBits b := by
  have hb := toNat_eq_magBits b
  rw [if_pos h] at hb
  rw [skey_of_msb_true h, BitVec.toNat_not]
  omega

theorem unkey_skey (b : F32) : unkey (skey b) = b := by
  cases h : b.msb with
  | false =>
    rw [skey_of_msb_false h, unkey, msb_flipSign, h, BitVec.xor_assoc, BitVec.xor_self]
    exact BitVec.xor_zero
  | true =>
    have hmsb : (~~~b).msb = false := by rw [BitVec.msb_not, h]; decide
    rw [skey_of_msb_true h, unkey, hmsb]
    exact BitVec.not_not

/-- Of the patterns with the sign set only -0 has magnitude 0. -/
theorem magBits_pos_of_msb {b : F32} (hneg : b.msb = true) (hzero : b ≠ 0x80000000#32) : 0 < magBits b := by
  have hb := toNat_eq_magBits b
  rw [if_pos hneg] at hb
  refine Nat.pos_of_ne_zero fun hmag => hzero (BitVec.eq_of_toNat_eq ?_)
  rw [hb, hmag]
  rfl

/-- The keys are in the order of the values, with -0 on the left excepted: its key is below that of +0. -/
theorem skey_lt_iff_orderValue_lt {a b : F32} (ha : a ≠ 0x80000000#32) : skey a < skey b ↔ orderValue a < orderValue b := by
  have hla := magBits_lt a
  have hlb := magBits_lt b
  have hab := gridValue_lt_iff (r := magBits a) (t := magBits b)
  have hba := gridValue_lt_iff (r := magBits b) (t := magBits a)
  rw [BitVec.lt_def]
  cases hsA : a.msb with
  | false =>
    rw [toNat_skey_of_msb_false hsA, orderValue_of_msb_false hsA]
    cases hsB : b.msb with
    | false => rw [toNat_skey_of_msb_false hsB, orderValue_of_msb_false hsB]; omega
    | true => rw [toNat_skey_of_msb_true hsB, orderValue_of_msb_true hsB]; omega
  | true =>
    have hpos := gridValue_pos (magBits_pos_of_msb hsA ha)
    rw [toNat_skey_of_msb_true hsA, orderValue_of_msb_true hsA]
    cases hsB : b.msb with
    | false => rw [toNat_skey_of_msb_false hsB, orderValue_of_msb_false hsB]; omega
    | true => rw [toNat_skey_of_msb_true hsB, orderValue_of_msb_true hsB]; omega

theorem keyNone_le_skey {b : F32} (h : isNan b = false) : keyNone ≤ skey b := by
  rw [isNan_eq_false_iff] at h
  have hkey : keyNone.toNat = 0x007FFFFF := rfl
  rw [BitVec.le_def, hkey]
  cases hs : b.msb with
  | false => rw [toNat_skey_of_msb_false hs]; omega
  | true => rw [toNat_skey_of_msb_true hs]; omega

/-! ### The sanitised scores -/

theorem isNan_posZero (b : F32) : isNan (posZero b) = isNan b := by
  rw [posZero]
  split
  case isTrue h => rw [h]; decide
  case isFalse => rfl

theorem posZero_ne_negZero (b : F32) : posZero b ≠ 0x80000000#32 := by
  rw [posZero]
  split
  case isTrue => decide
  case isFalse h => exact h

/-- Sanitising leaves no NaN and no -0 (R37). -/
theorem sanitise_ne_nan_ne_negZero (s : F32) : isNan (sanitise s) = false ∧ sanitise s ≠ 0x80000000#32 := by
  rw [sanitise]
  split
  next => decide
  next hnan =>
    split
    next => decide
    next =>
      split
      next => decide
      next =>
        split
        next => decide
        next => exact ⟨(isNan_posZero s).trans (eq_false_of_ne_true hnan), posZero_ne_negZero s⟩

/-- Settles O60: a sanitised score is neither NaN nor -0 (`sanitise_ne_nan_ne_negZero`), and on such scores `fLt` and the order of the keys are
both the order of `orderValue`. -/
theorem scoreKeysOrderTheScores : Obligations.ScoreKeysOrderTheScores := by
  unfold Obligations.ScoreKeysOrderTheScores
  refine ⟨fun b h => ?_, fun b h => ?_, unkey_skey, fun b => keyNone_le_skey (sanitise_ne_nan_ne_negZero b).1, fun a b => ?_⟩
  · exact skey_of_msb_false h
  · exact skey_of_msb_true h
  · obtain ⟨hnanA, hzeroA⟩ := sanitise_ne_nan_ne_negZero a
    obtain ⟨hnanB, -⟩ := sanitise_ne_nan_ne_negZero b
    rw [fLt_iff_orderValue_lt hnanA hnanB, skey_lt_iff_orderValue_lt hzeroA]

end Sys2Proof.Machine
end

section
/-! Commands that Eocia takes up at once and accepts (O13, O16). A command that is ready is judged in the state without it on Eocia's list;
where no refusal applies it has its effect in `accepted` (R314 to R316, R325). -/

namespace Sys2Proof.Machine

open Sys2Proof.Claims

/-! ### What leaving Eocia's list keeps -/

@[simp] theorem reqOf_unqueue (op : Op) (c : Cmd) (q : Nat) (s : State) : reqOf (unqueue op c s) q = reqOf s q := rfl
@[simp] theorem tenantRec_unqueue (op : Op) (c : Cmd) (u : Nat) (s : State) : tenantRec (unqueue op c s) u = tenantRec s u := rfl
@[simp] theorem pendingTenant_unqueue (op : Op) (c : Cmd) (u : Nat) (f : TenantChange → Bool) (s : State) :
    pendingTenant (unqueue op c s) u f = pendingTenant s u f := rfl
@[simp] theorem pendingCredits_unqueue (op : Op) (c : Cmd) (u : Nat) (s : State) : pendingCredits (unqueue op c s) u = pendingCredits s u := rfl
@[simp] theorem tenantNamed_unqueue (op : Op) (c : Cmd) (u n : Nat) (s : State) : tenantNamed (unqueue op c s) u n = tenantNamed s u n := rfl
@[simp] theorem settingsOk_unqueue (op : Op) (c : Cmd) (p : Nat) (x : Settings) (s : State) :
    settingsOk (unqueue op c s) p x = settingsOk s p x := rfl
@[simp] theorem recordsLate_unqueue (op : Op) (c : Cmd) (q : Nat) (s : State) : recordsLate (unqueue op c s) q = recordsLate s q := rfl
@[simp] theorem keySetOf_unqueue (op : Op) (c : Cmd) (p : Nat) (s : State) : keySetOf (unqueue op c s) p = keySetOf s p := rfl
@[simp] theorem groupSize_unqueue (op : Op) (c : Cmd) (s : State) : groupSize (unqueue op c s) = groupSize s := rfl
@[simp] theorem isHole_unqueue (op : Op) (c : Cmd) (n : Nat) (s : State) : isHole (unqueue op c s) n = isHole s n := rfl
@[simp] theorem stepNow_unqueue (op : Op) (c : Cmd) (s : State) : stepNow (unqueue op c s) = stepNow s := rfl
@[simp] theorem commonRefusals_unqueue (op : Op) (c : Cmd) (s : State) : commonRefusals op c (unqueue op c s) = commonRefusals op c s := rfl

@[simp] theorem stepNow_accepted (op : Op) (c : Cmd) (s : State) : stepNow (accepted op c s) = stepNow s := by
  simp [accepted, stepNow, unqueue]

@[simp] theorem timer_accepted (op : Op) (c : Cmd) (s : State) : (accepted op c s).timer = s.timer := by simp [accepted, unqueue]

/-! ### Taking up and judging -/

/-- A command that is ready is run at once (R314 to R316, R414). -/
theorem takeUp_of_ready {op : Op} {c : Cmd} {s : State} (run : Cmd → State → State) (h : Ready op c s) :
    takeUp op run c s = run c (unqueue op c s) := by
  obtain ⟨hruns, hfirst, hhere, hpublished, ⟨hreads, hwrites⟩, -⟩ := h
  have haccept : accept op run c (unqueue op c s) = run c (unqueue op c s) := by
    rw [accept, if_neg]
    change ¬ (publishing s || !(eociaRuns s)) = true
    simp [hpublished, hruns]
  unfold takeUp
  dsimp only
  have hhere' : ¬ (target op c (unqueue op c s) ≠ me (unqueue op c s)) := not_not_intro hhere
  rw [if_neg (by simp [hruns, hfirst]), if_neg hhere']
  cases hop : readsOnly op with
  | true =>
    have hnone : (unqueue op c s).eocia.awaitAck.isEmpty = true := by simpa [unqueue] using hreads hop
    rw [if_pos rfl, if_pos hnone, haccept]
  | false =>
    have hnone : keeperOf (unqueue op c s) (me (unqueue op c s)) = none := hwrites hop
    rw [if_neg Bool.false_ne_true, hnone]
    exact haccept

/-- A command that is ready and that none of its own conditions refuses has its effect (R325). -/
theorem judge_of_clear {op : Op} {c : Cmd} {s : State} {l : List (Bool × Status)} (eff : State → State) (hready : Ready op c s)
    (hclear : ∀ x ∈ l, x.1 = false) : judge op c l eff (unqueue op c s) = eff (accepted op c s) := by
  obtain ⟨-, -, -, -, -, hcommon⟩ := hready
  rw [judge, commonRefusals_unqueue, hcommon, refusals_nil hclear]
  rfl

/-! ### Tenant commands -/

/-- The conditions that every tenant command meets first hold of a tenant number on a tenant that is free or of the partition. -/
theorem onTenant_clear {c : Cmd} {s : State} (hnumber : arg c 0 < 1024)
    (hpart : (tenantRec s (arg c 0)).bound = true → (tenantRec s (arg c 0)).part = c.part) : ∀ x ∈ onTenant s c, x.1 = false := by
  simpa [onTenant, reservedSet, narrow, Nat.mod_eq_of_lt hnumber, hnumber] using hpart

/-- A tenant command that nothing refuses announces its change for the step under way, and waits for its completion moment (R58, R246). -/
theorem takeUp_tenantChange {op : Op} {c : Cmd} {s : State} {run : Cmd → State → State} {x : TenantChange} {w : Nat → Wait}
    {l : List (Bool × Status)} (hready : Ready op c s) (hnumber : arg c 0 < 1024)
    (hpart : (tenantRec s (arg c 0)).bound = true → (tenantRec s (arg c 0)).part = c.part)
    (hrun : run c (unqueue op c s) = judge op c (onTenant (unqueue op c s) c ++ l) (tenantChange op c x w) (unqueue op c s))
    (hclear : ∀ y ∈ l, y.1 = false) : takeUp op run c s = taken op c (.tenant (arg c 0) x) (w (stepNow s)) s := by
  have hfirst : ∀ y ∈ onTenant (unqueue op c s) c, y.1 = false := onTenant_clear hnumber hpart
  rw [takeUp_of_ready run hready, hrun, judge_of_clear _ hready (List.forall_mem_append.2 ⟨hfirst, hclear⟩)]
  simp only [tenantChange, taken, stepNow_accepted, Nat.mod_eq_of_lt hnumber]

/-- A change that binds. -/
def isBind : TenantChange → Bool
  | .bind .. => true
  | _ => false

theorem bindCmd_eq_judge (c : Cmd) (s : State) :
    bindCmd c s = judge .tenantBind c (onTenant s c ++ [(reserveBad c, .badArg),
        ((tenantRec s (arg c 0 % 1024)).bound || pendingTenant s (arg c 0 % 1024) isBind, .busy)])
      (tenantChange .tenantBind c (.bind c.part (arg c 1)) .stamp) s := rfl

/-- No bind of a tenant is accepted and not applied. -/
theorem pendingTenant_isBind_eq_false {u : Nat} {s : State} (h : ∀ m ∈ s.held, ∀ p r, m.item ≠ .tenant u (.bind p r)) :
    pendingTenant s u isBind = false := by
  simp only [pendingTenant, List.any_eq_false]
  intro m hm
  split
  case h_1 v x hx =>
    cases x with
    | bind p r =>
      have hv : v ≠ u := by
        rintro rfl
        exact h m hm p r hx
      simp [hv]
    | _ => simp [isBind]
  case h_2 => simp

theorem reserveBad_eq_false {c : Cmd} (hlow : 1 ≤ arg c 1) (hhigh : arg c 1 ≤ 17) : reserveBad c = false := by
  simp [reserveBad]
  omega

/-- Settles O13: each command meets `takeUp_tenantChange` with its own conditions, which its premises clear. That a credit is taken while an
unbind of the same step waits is log entry 140. -/
theorem tenantCommandsAreAccepted : Obligations.TenantCommandsAreAccepted := by
  intro c s hnumber hpart
  have hmod := Nat.mod_eq_of_lt hnumber
  refine ⟨fun hready hlow hhigh hfree hheld => ?_, fun hbound =>
    ⟨fun hready hsome hroom => ?_, fun hready => ?_, fun hready hlow hhigh => ?_, fun hready hunnamed => ?_⟩⟩
  · have hpend := pendingTenant_isBind_eq_false hheld
    refine congrArg Host.Outcome.next (takeUp_tenantChange hready hnumber hpart (bindCmd_eq_judge ..) ?_)
    simp [hmod, reserveBad_eq_false hlow hhigh, hfree, hpend]
  · have hzero : arg c 1 ≠ 0 := by omega
    refine congrArg Host.Outcome.next (takeUp_tenantChange hready hnumber hpart rfl ?_)
    simpa [hmod, hbound, hzero] using hroom
  · refine congrArg Host.Outcome.next (takeUp_tenantChange hready hnumber hpart rfl ?_)
    simp [hmod, hbound]
  · refine congrArg Host.Outcome.next (takeUp_tenantChange hready hnumber hpart rfl ?_)
    simp [hmod, hbound, reserveBad_eq_false hlow hhigh]
  · refine congrArg Host.Outcome.next (takeUp_tenantChange hready hnumber hpart rfl ?_)
    simp [hmod, hbound, hunnamed]

/-! ### Commands on a request -/

theorem onRequest_of_some {c : Cmd} {e : ReqEntry} {s : State} (h : reqOf s (arg c 0 % 16384) = some e) :
    onRequest s c = [(e.info.part != c.part, .denied), (e.state.terminal || e.cancelMark, .already),
      (e.state == .draining || e.evictStage != 0, .busy)] := by simp [onRequest, h]

/-- A command on a live request that none of its own conditions refuses has its effect (R325). -/
theorem judge_onRequest {op : Op} {c : Cmd} {e : ReqEntry} {s : State} (l : List (Bool × Status)) (eff : State → State)
    (hlive : Live c e s) (hready : Ready op c s) (hclear : ∀ x ∈ l, x.1 = false) :
    judge op c (onRequest (unqueue op c s) c ++ l) eff (unqueue op c s) = eff (accepted op c s) := by
  obtain ⟨hid, hreq, hpart, hterm, hmark, hmoving, hevicting⟩ := hlive
  have hfirst : ∀ x ∈ onRequest (unqueue op c s) c, x.1 = false := by
    rw [onRequest_of_some (e := e) (by rw [reqOf_unqueue, Nat.mod_eq_of_lt hid, hreq])]
    simp [hpart, hterm, hmark, hmoving, hevicting]
  exact judge_of_clear eff hready (List.forall_mem_append.2 ⟨hfirst, hclear⟩)

theorem updFirst_id {α : Type} (p : α → Bool) (l : List α) : updFirst p id l = l := by
  induction l with
  | nil => rfl
  | cons a as ih => simp [updFirst, ih]

theorem updReq_id (q : Nat) (s : State) : updReq q id s = s := by rw [updReq, updFirst_id]

/-- ARG0 holds a request id and no reserved bit. -/
theorem reservedSet_of_lt {c : Cmd} (h : arg c 0 < 16384) : reservedSet c [(0, 14)] = false := by simp [reservedSet, narrow, h]

/-- A cancel waits just while records of an earlier step are late (R239). -/
theorem cancelCmd_eq_ite {c : Cmd} (s : State) (hid : arg c 0 < 16384) :
    cancelCmd c s = if recordsLate s (arg c 0) then enqueue .reqCancel c s
      else judge .reqCancel c (onRequest s c ++ [(reservedSet c [(0, 14)], .badArg)])
        (fun s => await .reqCancel c (stepNow s) (.finalRecord (arg c 0)) (change (arg c 0) .cancel
          (announceOut (stepNow s) (.cancelMark (arg c 0)) (updReq (arg c 0) (fun e => { e with cancelMark := true }) s)))) s := by
  rw [cancelCmd, Nat.mod_eq_of_lt hid]

/-- Settles O16: each command meets `takeUp_onRequest` with its own conditions, which its premises clear. The mark that a cancel tells every
slice is log entry 136; that an ADMITTED request may move is log entry 89. -/
theorem requestCommandsAreAccepted : Obligations.RequestCommandsAreAccepted := by
  intro c e s hlive
  obtain ⟨hid, hreq, -⟩ := id hlive
  have hmod := Nat.mod_eq_of_lt hid
  have hnarrow := reservedSet_of_lt hid
  refine ⟨fun hready hzero hok => ?_, fun hready hlate => ?_, fun hready hlate => ?_, fun hready hpaused hadmitted => ?_,
    fun hready hpaused => ?_, fun hready hpaused haligned hkey => ?_, fun hready hwide hsize hhole => ?_⟩
  · refine congrArg Host.Outcome.next ((takeUp_of_ready settingsCmd hready).trans ?_)
    rw [settingsCmd, judge_onRequest _ _ hlive hready (by simp [hnarrow, hzero, hok])]
    simp only [takenChange, updReq_id, stepNow_accepted, hmod]
  · refine congrArg Host.Outcome.next ((takeUp_of_ready cancelCmd hready).trans ?_)
    rw [cancelCmd_eq_ite _ hid, recordsLate_unqueue, hlate, if_neg Bool.false_ne_true,
      judge_onRequest _ _ hlive hready (by simp [hnarrow])]
    simp only [stepNow_accepted]
  · refine congrArg Host.Outcome.next ((takeUp_of_ready cancelCmd hready).trans ?_)
    rw [cancelCmd_eq_ite _ hid, recordsLate_unqueue, hlate, if_pos rfl]
  · refine congrArg Host.Outcome.next ((takeUp_of_ready pauseCmd hready).trans ?_)
    rw [pauseCmd, judge_onRequest _ _ hlive hready (by simp [hnarrow, hmod, hreq, hpaused, hadmitted])]
    simp only [takenChange, updReq_id, stepNow_accepted, hmod]
  · refine congrArg Host.Outcome.next ((takeUp_of_ready resumeCmd hready).trans ?_)
    rw [resumeCmd, judge_onRequest _ _ hlive hready (by simp [hnarrow, hmod, hreq, hpaused])]
    simp only [takenChange, stepNow_accepted, timer_accepted, hmod]
  · obtain ⟨k, hk, hleft⟩ := hkey
    refine congrArg Host.Outcome.next ((takeUp_of_ready evictCmd hready).trans ?_)
    rw [evictCmd, judge_onRequest _ _ hlive hready (by simp [hnarrow, hmod, hreq, hpaused, haligned, hk]; omega)]
    simp only [takenChange, stepNow_accepted, hmod]
  · refine congrArg Host.Outcome.next ((takeUp_of_ready moveCmd hready).trans ?_)
    rw [moveCmd, judge_onRequest _ _ hlive hready (by simp [reservedSet, narrow, hid, hwide, hsize, hhole])]
    simp only [takenChange, stepNow_accepted, hmod]

end Sys2Proof.Machine
end

section
/-! The step (O2, O28, O46, O47, O48): the timer, the global registers, TICK, the deadlines and the commit stamp. -/

namespace Sys2Proof.Machine

open Sys2Proof.Claims

/-- Settles O2: with no command at the front of the queue `step` takes its second branch (log entry 4). -/
theorem idleStepCountsOneNanosecond : Obligations.IdleStepCountsOneNanosecond := by
  intro s hidle
  rw [step, hidle]

/-! ### Writes of source 15 (R393) -/

/-- Source 15 may write every register (Table 19.2). -/
theorem csrWrite_of_source15 {s : State} (off : Nat) (v : Word) (h : s.inReset = false) : csrWrite 15 off v s = csrPut off v s := by
  have hallowed : csrAllowed (15 : BitVec 4).toNat off true v = true := rfl
  rw [csrWrite, h, hallowed]
  rfl

theorem clampPeriod_eq_ite (n : Nat) : clampPeriod n = if n < 250 then 250 else if n > 65000 then 65000 else n := by
  unfold clampPeriod
  split
  · omega
  · split <;> omega

theorem one_le_maxCache (k : Kit) : 1 ≤ maxCache k := by
  unfold maxCache
  split
  · decide
  · split
    · decide
    · split <;> decide

theorem clampCache_eq_ite (k : Kit) (n : Nat) : clampCache k n = if n = 0 then 1 else if n > maxCache k then maxCache k else n := by
  have hpos := one_le_maxCache k
  unfold clampCache
  split
  · omega
  · split <;> omega

/-- A partition's quota register is decoded as bank 0 (Table 16.1). -/
theorem csrPut_quota {p : Nat} (v : Word) (s : State) (h : p < 12) :
    csrPut (0x0080 + 4 * p) v s = { s with regs := { s.regs with quota := s.regs.quota.set p (v.setWidth 16).toNat } } := by
  have hbank : bankOfCsr (0x0080 + 4 * p) = 0 := by unfold bankOfCsr; omega
  have hoff : decoded (0x0080 + 4 * p) = 0x0080 + 4 * p := by
    rw [decoded, hbank]
    change (0x0080 + 4 * p) % 0x800 / 4 * 4 = _
    omega
  have hindex : (0x0080 + 4 * p - 0x0080) / 4 = p := by omega
  have hin : (0x080 ≤ 0x0080 + 4 * p && decide (0x0080 + 4 * p < 0x0B0)) = true := by simp; omega
  rw [csrPut, hbank, hoff, if_pos rfl, bank0Write]
  dsimp only
  iterate 9 rw [if_neg (by omega)]
  rw [if_pos hin, hindex]

/-- Settles O28: each write reaches its register of bank 0 (`csrWrite_of_source15`), and the two clamps are the bounds that R55 and R103 give. -/
theorem globalRegisterWrites : Obligations.GlobalRegisterWrites := by
  intro v s hrun
  have hwrite := fun (off : Nat) => csrWrite_of_source15 off v hrun
  have hperiod : (v.setWidth 16).toNat = v.toNat % 65536 := BitVec.toNat_setWidth ..
  have hsteps : (v.setWidth 4).toNat = v.toNat % 16 := BitVec.toNat_setWidth ..
  refine ⟨?_, ?_, ?_, ?_, fun p hp => ?_⟩
  · rw [← hperiod, ← clampPeriod_eq_ite]
    exact congrArg Host.Outcome.next (hwrite 0x0014)
  · exact congrArg Host.Outcome.next (hwrite 0x0028)
  · exact congrArg Host.Outcome.next (hwrite 0x002C)
  · rw [← hsteps, ← clampCache_eq_ite]
    exact congrArg Host.Outcome.next (hwrite 0x0034)
  · rw [← hperiod, ← csrPut_quota v s hp, ← hwrite]
    exact congrArg Host.Outcome.next (if_pos hp)

/-! ### TICK (R54 to R56, R66) -/

/-- The TICK that the tick master of a formed group emits, with no formation under way (R56). -/
theorem emitTick_of_no_forming (n : Nat) {s : State} (h : s.group.forming = none) :
    emitTick n s = flood (.tick ⟨n, s.regs.stepPeriod, me s⟩)
      { s with step := { s.step with emittedStep := n, acksDue := members s, slipSince := none, slipReported := false } } := by
  simp [emitTick, h]

/-- The tick master's timer reaches P of its open step, and no TICK of a later step is out (R54, R66). -/
theorem tickDue_of_master {s : State} (hmaster : tickMaster s = me s) (hgroup : s.group.regroup = none) (hformed : s.group.forming = none)
    (hout : s.step.emittedStep ≤ s.step.step) :
    tickDue s = if s.step.acksDue.isEmpty then emitTick (s.step.step + 1) (reach 6 s)
      else if s.step.slipSince.isSome then reach 6 s
      else { reach 6 s with step := { s.step with slipSince := some (reach 6 s).timer } } := by
  rw [tickDue, if_neg (by simp [hmaster, hgroup, hformed, hout])]
  rfl

theorem tickDue_of_other {s : State} (h : tickMaster s ≠ me s) : tickDue s = s := by simp [tickDue, h]

theorem abandonStep_of_closed {s : State} (h : s.step.opened = false ∨ s.step.stamped = true) : abandonStep s = s := by
  rw [abandonStep, if_pos (by simpa using h)]

/-- What the opening of a step writes into the step, and no other part of it (R54 to R57). -/
theorem openStep_step (m : TickMsg) (s : State) :
    (openStep m s).step = { s.step with step := m.step, opened := true, period := m.period, tickAt := s.timer, phase := 0,
                                        stamped := false, acking := false } := by
  rw [openStep, trace_step]

theorem publishing_openStep (m : TickMsg) (s : State) : publishing (openStep m s) = publishing s := by
  rw [publishing, openStep_step]
  rfl

/-- Outside a formation a slice takes a TICK of its tick master for a later step, and during a regroup only the one that ends it (R56). -/
theorem tickTaken_of_no_forming (m : TickMsg) {s : State} (h : s.group.forming = none) :
    tickTaken m s = (m.master == tickMaster s && decide (m.step > s.step.step) && s.group.regroup.all fun r => r.phase == .resume) := by
  rw [tickTaken, h]

/-- A TICK that a slice takes after every change of the step before opens its step (R56, R59). -/
theorem tickArrives_of_taken {m : TickMsg} {s : State} (hformed : s.group.forming = none) (htaken : tickTaken m s = true)
    (hclosed : s.step.opened = false ∨ s.step.stamped = true) (hpub : publishing s = false) :
    tickArrives m s = judgeWaiting (boundary (openStep m s)) := by
  rw [tickArrives, if_neg (by simp [htaken]), hformed]
  dsimp only
  rw [abandonStep_of_closed hclosed, publishing_openStep, hpub, if_neg Bool.false_ne_true]

theorem tickArrives_of_not_taken {m : TickMsg} {s : State} (h : tickTaken m s = false) : tickArrives m s = s := by simp [tickArrives, h]

/-- Settles O46: TICK_EMIT by the branches of `tickDue`, TICK by whether the slice takes it. That the row moves the timer on to P is log entry 4,
that TICK_EMIT only sends is log entry 85, the mark of a slip's silence is log entry 111, and a row without its condition changes nothing (log
entry 84). -/
theorem ticksOpenSteps : Obligations.TicksOpenSteps := by
  intro m s
  refine ⟨fun hmaster hgroup hformed hout => ?_, fun hother => congrArg Host.Outcome.next (tickDue_of_other hother),
    fun hformed hgroup hm hlater hclosed hpub => ⟨?_, openStep_step m s⟩, fun hformed hnot => ?_, fun hslip hdue => ?_, fun hnot => ?_⟩
  · have htick : exec .tickEmit s = .next _ := congrArg Host.Outcome.next (tickDue_of_master hmaster hgroup hformed hout)
    refine ⟨fun hall => ?_, fun hmissing hfresh => ?_, fun hmissing hslip => ?_⟩
    · rw [htick, if_pos (by simp [hall]), emitTick_of_no_forming (s := reach 6 s) _ hformed]
      rfl
    · rw [htick, if_neg (by simpa using hmissing), if_neg (by simp [hfresh])]
    · rw [htick, if_neg (by simpa using hmissing), if_pos (by simpa [Option.isSome_iff_ne_none] using hslip)]
  · refine congrArg Host.Outcome.next (tickArrives_of_taken hformed ?_ hclosed hpub)
    simp [tickTaken_of_no_forming m hformed, hm, hlater, hgroup]
  · refine congrArg Host.Outcome.next (tickArrives_of_not_taken ?_)
    rw [tickTaken_of_no_forming m hformed]
    rcases hnot with hm | hearlier
    · simp [hm]
    · have hnot_later : decide (m.step > s.step.step) = false := decide_eq_false (Nat.not_lt.2 hearlier)
      rw [hnot_later, Bool.and_false, Bool.false_and]
  · refine congrArg Host.Outcome.next (if_pos ?_)
    simpa [Option.isSome_iff_ne_none] using ⟨hslip, hdue⟩
  · refine congrArg Host.Outcome.next (if_neg ?_)
    rcases hnot with h | h <;> simp [h]

/-! ### Deadlines (R57, R64) -/

/-- A deadline that passes writes the phase, the timer and its trace. -/
theorem passDeadline_eq_mk (k : Nat) (s : State) :
    ∃ tele cnt, passDeadline k s = { s with step := { s.step with phase := k }, timer := (reach k s).timer, tele := tele, cnt := cnt } := by
  obtain ⟨tele, cnt, htrace, -⟩ := trace_eq_mk 0 2 1 (BitVec.ofNat 32 k) 0 { reach k s with step := { s.step with phase := k } }
  exact ⟨tele, cnt, htrace⟩

/-- A deadline is due in the phase before its own, while the step is open and not stamped. -/
theorem deadlineDue_of_open {s : State} (k : Nat) (hopen : s.step.opened = true) (hstamp : s.step.stamped = false) :
    deadlineDue (k + 1) s = decide (s.step.phase = k) := by
  simp [deadlineDue, hopen, hstamp, Bool.beq_eq_decide_eq]

/-- The requests with a serving row of the open step that was not carried into it. -/
def reqsWithRows (s : State) : List Nat :=
  ((s.rows.filter fun r => r.useStep == s.step.step && !r.carried && r.kind != 2).map (·.id)).foldl addOnce []

/-- The home slice of a request learns that it has a row of step n here (R65). -/
def rowTellsHome (n : Nat) (s : State) (q : Nat) : State :=
  if homeOf s q = me s then rowTold (me s) q n s else send (homeOf s q) (.stateSync ⟨me s, n, .rowReport q n (rowTrees s q)⟩) s

theorem ingestEnds_of_due {s : State} (h : deadlineDue 1 s = true) :
    ingestEnds s = streamsGo (passDeadline 1 ((reqsWithRows s).foldl (rowTellsHome s.step.step) s)) := by
  rw [ingestEnds, if_neg (by simp [h])]
  rfl

theorem rowTellsHome_eq_mk (n : Nat) (s : State) (q : Nat) :
    ∃ reqs link, rowTellsHome n s q = { s with reqs := reqs, link := link } := by
  unfold rowTellsHome
  split
  · exact ⟨_, _, rfl⟩
  · exact ⟨_, _, send_shape ..⟩

theorem foldl_rowTellsHome_eq_mk (n : Nat) (l : List Nat) (s : State) :
    ∃ reqs link, l.foldl (rowTellsHome n) s = { s with reqs := reqs, link := link } := by
  induction l generalizing s with
  | nil => exact ⟨_, _, rfl⟩
  | cons q l ih =>
    obtain ⟨_, _, htold⟩ := rowTellsHome_eq_mk n s q
    obtain ⟨reqs, link, hrest⟩ := ih (rowTellsHome n s q)
    exact ⟨reqs, link, by rw [List.foldl_cons, hrest, htold]⟩

theorem reqsWithRows_eq_nil {s : State} (h : ∀ r ∈ s.rows, r.useStep ≠ s.step.step) : reqsWithRows s = [] := by
  have hnone : (s.rows.filter fun r => r.useStep == s.step.step && !r.carried && r.kind != 2) = [] := by
    rw [List.filter_eq_nil_iff]
    intro r hr
    simp [h r hr]
  rw [reqsWithRows, hnone]
  rfl

/-- Settles O47: a deadline that is due is `passDeadline` after what its phase closes, one that is not due is no row of the step. The timer moved
on by a row is log entry 4, and a deadline out of its place doing nothing log entry 84. -/
theorem deadlinesCloseTheirPhase : Obligations.DeadlinesCloseTheirPhase := by
  refine ⟨⟨by decide, by decide⟩, fun _ _ => rfl, fun s hopen hstamp => ?_⟩
  have hdue := fun (k : Nat) => deadlineDue_of_open k hopen hstamp
  refine ⟨fun h => ?_, fun h => ?_, fun h => ?_, fun h => ?_, fun h => ?_, fun h => ?_, fun h => ?_, fun h => ?_, fun h => ?_, fun h => ?_⟩
  · refine ⟨_, congrArg Host.Outcome.next (ingestEnds_of_due (by simp [hdue 0, h])), ?_⟩
    obtain ⟨reqs, link, htold⟩ := foldl_rowTellsHome_eq_mk s.step.step (reqsWithRows s) s
    obtain ⟨tele, cnt, hpass⟩ := passDeadline_eq_mk 1 ((reqsWithRows s).foldl (rowTellsHome s.step.step) s)
    rw [hpass, htold]
    refine ⟨rfl, rfl, rfl, fun hnone => ?_⟩
    rw [reqsWithRows_eq_nil hnone] at htold
    exact ⟨(congrArg State.reqs htold).symm, (congrArg State.link htold).symm⟩
  · obtain ⟨tele, cnt, hpass⟩ := passDeadline_eq_mk 2 s
    refine ⟨_, congrArg Host.Outcome.next (if_pos (by simp [hdue 1, h])), ?_⟩
    rw [hpass]
  · obtain ⟨tele, cnt, hpass⟩ := passDeadline_eq_mk 3 (closeUnless (fun m => m.cut.isSome) s)
    refine ⟨_, congrArg Host.Outcome.next (if_pos (by simp [hdue 2, h])), ?_⟩
    rw [hpass]
    exact ⟨rfl, rfl⟩
  · obtain ⟨tele, cnt, hpass⟩ := passDeadline_eq_mk 4 (closeUnless (fun m => m.sentB) s)
    refine ⟨_, congrArg Host.Outcome.next (if_pos (by simp [hdue 3, h])), ?_⟩
    rw [hpass]
    exact ⟨rfl, rfl⟩
  · obtain ⟨tele, cnt, hpass⟩ := passDeadline_eq_mk 5 s
    refine ⟨_, congrArg Host.Outcome.next (if_pos (by simp [hdue 4, h])), ?_⟩
    rw [hpass]
  · exact congrArg Host.Outcome.next (if_pos (by simp [hdue 0, h]))
  · exact congrArg Host.Outcome.next (if_neg (by simp [hdue 1, h]))
  · exact congrArg Host.Outcome.next (if_neg (by simp [hdue 2, h]))
  · exact congrArg Host.Outcome.next (if_neg (by simp [hdue 3, h]))
  · exact congrArg Host.Outcome.next (if_neg (by simp [hdue 4, h]))

/-! ### The commit stamp (R57 to R59, R66) -/

/-- An acknowledgement of the emitted step is struck off; while no slip runs nothing else happens. -/
theorem ackTaken_of_no_slip {n src : Nat} {s : State} (hn : n = s.step.emittedStep) (hslip : s.step.slipSince = none) :
    ackTaken n src s = { s with step := { s.step with acksDue := s.step.acksDue.erase src } } := by
  rw [ackTaken, if_neg (by simp [hn])]
  dsimp only
  rw [hslip]

/-- The last acknowledgement of a slipped step counts the slip and lets the next TICK out (R66). -/
theorem ackTaken_of_last {n src t : Nat} {s : State} (hn : n = s.step.emittedStep) (hslip : s.step.slipSince = some t)
    (hlast : s.step.acksDue.erase src = []) (hgroup : s.group.regroup = none) :
    ackTaken n src s = emitTick (n + 1) (count (fun c => { c with tickSlips := c.tickSlips + 1
                                                                  tickSlipUs := c.tickSlipUs + BitVec.ofNat 32 ((s.timer - t) / 1000) })
      { s with step := { s.step with acksDue := s.step.acksDue.erase src } }) := by
  rw [ackTaken, if_neg (by simp [hn])]
  dsimp only
  rw [hslip]
  dsimp only
  rw [if_neg (by simp [hlast, hgroup])]

theorem ackTaken_of_other_step {n src : Nat} {s : State} (h : n ≠ s.step.emittedStep) : ackTaken n src s = s := if_pos h

/-- The TICK that leaves writes the step's marks of its emission, and the messages that leave. -/
theorem emitTick_eq_mk (n : Nat) (s : State) :
    ∃ link, emitTick n s = { s with
      step := { s.step with emittedStep := n, acksDue := members s, slipSince := none, slipReported := false }, link := link } := by
  unfold emitTick
  dsimp only
  split
  · unfold floodForm
    split
    · exact ⟨_, rfl⟩
    · exact ⟨_, rfl⟩
  · exact ⟨_, flood_shape ..⟩

/-- A COMMIT for the open step is stamped, after every change of the step before (R58, R59). -/
theorem commitArrives_of_open {m : CommitMsg} {s : State} (hopen : s.step.opened = true) (hstamp : s.step.stamped = false)
    (hstep : m.step = s.step.step) (hgroup : s.group.regroup = none) (hpub : publishing s = false) :
    commitArrives m s = commitStamp m.step s := by
  rw [commitArrives, if_neg (by simp [hopen, hstamp, hstep, hgroup])]
  dsimp only
  rw [hpub, if_neg Bool.false_ne_true]

/-- LATE_LIMIT acts on a request homed here just where it is LATE with seven stamps behind it (R65, R249). -/
theorem lateLimit_of_some {q : Nat} {e : ReqEntry} {s : State} (hreq : reqOf s q = some e) (hhome : homedHere s e = true)
    (hopen : s.step.opened = true) (hscrub : scrubbing s e.info.part = false) :
    lateLimit q s = if e.state = .late ∧ e.lateCount = 7 then
        fixFate s.step.step false [] none e (if e.allowance = 0 then rowFate s.timer s.step.step none e else lateEnd e) s
      else s := by
  simp [lateLimit, limitStep, hreq, hhome, hopen, hscrub]

/-- RING_STALL_LIMIT acts on a request homed here just where it takes rows with 255 stalls behind it (R236). -/
theorem stallLimit_of_some {q : Nat} {e : ReqEntry} {s : State} (hreq : reqOf s q = some e) (hhome : homedHere s e = true)
    (hopen : s.step.opened = true) (hscrub : scrubbing s e.info.part = false) :
    stallLimit q s = if e.stallSteps = 255 ∧ e.state.takesRows = true then
        fixFate s.step.step false [] none e (if e.allowance = 0 then rowFate s.timer s.step.step none e else stallEnd e) s
      else s := by
  simp [stallLimit, limitStep, hreq, hhome, hopen, hscrub]

/-- Settles O48: COMMIT and its acknowledgements by the conditions of their operations, the limits by `lateLimit_of_some` and
`stallLimit_of_some`. The limits act one below the count (log entry 91), COMMIT_EMIT only sends (85) and moves the timer on (4), and a row
without its condition changes nothing (84). -/
theorem commitsAreAcknowledged : Obligations.CommitsAreAcknowledged := by
  intro m n src q s
  refine ⟨fun hmaster hopen hstamp hgroup => ?_, fun hnot => ?_, fun hopen hstamp hstep hgroup hpub => ?_, fun hnot => ?_,
    fun hmaster hn hslip => ?_, fun t hmaster hn hslip hlast hgroup => ?_, fun hnot => ?_, fun hacking hstamp => ?_, fun hquiet => ?_,
    fun e hreq hhome hopen hscrub => ?_⟩
  · exact congrArg Host.Outcome.next (if_pos (by simp [hmaster, hopen, hstamp, hgroup]))
  · refine congrArg Host.Outcome.next (if_neg ?_)
    rcases hnot with h | h | h <;> simp [h]
  · exact congrArg Host.Outcome.next (commitArrives_of_open hopen hstamp hstep hgroup hpub)
  · refine congrArg Host.Outcome.next (if_pos ?_)
    rcases hnot with h | h | h <;> simp [h]
  · exact congrArg Host.Outcome.next ((if_pos hmaster).trans (ackTaken_of_no_slip hn hslip))
  · obtain ⟨link, hemit⟩ := emitTick_eq_mk (n + 1) (count (fun c => { c with
      tickSlips := c.tickSlips + 1, tickSlipUs := c.tickSlipUs + BitVec.ofNat 32 ((s.timer - t) / 1000) })
      { s with step := { s.step with acksDue := s.step.acksDue.erase src } })
    refine ⟨_, congrArg Host.Outcome.next ((if_pos hmaster).trans ((ackTaken_of_last hn hslip hlast hgroup).trans hemit)), ?_⟩
    exact ⟨rfl, rfl, rfl, rfl, rfl, rfl⟩
  · rcases hnot with hother | hn
    · exact congrArg Host.Outcome.next (if_neg hother)
    · refine congrArg Host.Outcome.next ?_
      rw [ackTaken_of_other_step hn, ite_self]
  · exact congrArg Host.Outcome.next (if_pos (by simp [hacking, hstamp]))
  · exact congrArg Host.Outcome.next (if_neg (by simp [hquiet]))
  · have hlate : exec (.lateLimit q) s = .next _ := congrArg Host.Outcome.next (lateLimit_of_some hreq hhome hopen hscrub)
    have hstall : exec (.ringStallLimit q) s = .next _ := congrArg Host.Outcome.next (stallLimit_of_some hreq hhome hopen hscrub)
    refine ⟨fun hstate hcount => ?_, fun hshort => ?_, fun hcount hrows => ?_, fun hshort => ?_⟩
    · rw [hlate, if_pos ⟨hstate, hcount⟩]
    · rw [hlate, if_neg (by omega)]
    · rw [hstall, if_pos ⟨hcount, hrows⟩]
    · rw [hstall, if_neg (by omega)]

end Sys2Proof.Machine
end

section
/-! Serving rows (O41, O42): a row that arrives on HIP beat by beat, what a complete row is judged to be, and what a row that nothing refuses
takes (R60, R62, R112, R227, R348 to R351). -/

namespace Sys2Proof.Machine

/-! ### Rows held or rejected (Table 17.3) -/

@[simp] theorem event_rows (kind : Nat) (bytes : Bytes) (s : State) : (event kind bytes s).rows = s.rows := by
  unfold event
  dsimp only
  split <;> rfl

/-- A rejection touches no row: it leaves a record and a trace (Table 17.8). -/
@[simp] theorem rejection_rows (cls : HipClass) (part id stepSeq node : Nat) (w : Reason) (s : State) :
    (rejection cls part id stepSeq node w s).rows = s.rows := by
  unfold rejection
  dsimp only
  rw [event_rows, trace_rows]

/-- Blocks that are given out are written down in the stockpot, and free scratch loses what the debug port wrote there (R100). -/
theorem allocBlocks_eq_mk {p n : Nat} {u : Use} {s t : State} (h : allocBlocks p u n s = .ok t) :
    ∃ pot dbg, t = { s with pot := pot, dbg := dbg } := by
  unfold allocBlocks at h
  split at h
  · cases h
    exact ⟨_, _, rfl⟩
  · split at h
    · cases h
    · split at h
      · cases h
      · dsimp only at h
        split at h
        · cases h
        · cases h
          exact ⟨_, _, rfl⟩

/-- Lines that are given out are written down in the stockpot too (R100, R112). -/
theorem allocLines_eq_mk {p n : Nat} {u : Use} {s t : State} (h : allocLines p u n s = .ok t) :
    ∃ pot dbg, t = { s with pot := pot, dbg := dbg } := by
  unfold allocLines at h
  split at h
  · cases h
  · dsimp only at h
    split at h
    · cases h
    · next hblocks =>
      obtain ⟨_, _, rfl⟩ := allocBlocks_eq_mk hblocks
      cases h
      exact ⟨_, _, rfl⟩

/-- A row whose lines are given out is held in them (R62, R112). -/
theorem holdRow_of_alloc {must : Bool} {r : RowRec} {s t : State}
    (h : allocLines r.part (.row (rowKeyOf r) r.stepSeq) (rowLines r) s = .ok t) :
    holdRow must r s = .ok { t with rows := t.rows ++ [{ r with hold := .lines (rowLines r) }] } := by
  rw [holdRow, h]

section
variable {r : RowRec} {e : ReqEntry} {s : State} (late : Bool) (hpart : r.part < 12) (hscrub : scrubbing s r.part = false)
  (hgroup : s.group.regroup = none) (hreq : reqOf s r.id = some e)
include hpart hscrub hgroup hreq

/-- Of a partition that is not under scrub and outside a regroup, the request's entry judges the row (Table 17.3). -/
theorem serveRow_of_reason {w : Reason} (hwhy : servingReason s r e = some w) :
    serveRow late r s = rejection r.cls r.part r.id r.stepSeq (if r.tree.spec then r.tree.node else 0) w s := by
  unfold serveRow
  dsimp only
  rw [if_neg (by simp [hscrub, hpart]), hreq, hgroup]
  dsimp only
  rw [hwhy]

/-- A row for the next step that none refuses is held in its lines until then, whenever it came (R60, R62). -/
theorem serveRow_of_next {t : State} (hfree : servingReason s r e = none)
    (huse : rowStep s e (r.stepSeq % 65536) = some (s.step.step + 1)) (hseg : ¬ (r.kind = 1 ∧ segmentLength s r = 0))
    (hlines : allocLines r.part (.row (rowKeyOf { r with useStep := s.step.step + 1 }) r.stepSeq) (rowLines r) s = .ok t) :
    serveRow late r s = trace (2 + hipNum r.cls) 0 0 (BitVec.ofNat 32 r.id) (BitVec.ofNat 64 r.payload.length)
      { t with rows := t.rows ++ [{ r with useStep := s.step.step + 1, carried := e.heldStep.isSome, lateArrival := false,
                                           hold := .lines (rowLines r) }] } := by
  have hintime : (late && decide (s.step.step + 1 = s.step.step)) = false := by simp
  have hstep : t.step = s.step := by
    obtain ⟨_, _, rfl⟩ := allocLines_eq_mk hlines
    rfl
  have hheld := holdRow_of_alloc (must := decide (s.step.step + 1 > s.step.step) || false)
    (r := { r with useStep := s.step.step + 1, carried := e.heldStep.isSome, lateArrival := false }) hlines
  unfold serveRow
  dsimp only
  rw [if_neg (by simp [hscrub, hpart]), hreq, hgroup]
  dsimp only
  rw [hfree]
  dsimp only
  rw [huse, Option.getD_some, hintime, if_neg (by simpa using hseg), hheld]
  dsimp only
  rw [if_neg (by simp [hstep])]
  rfl

end

/-- Settles O42: a reason of Table 17.3 rejects the row, which touches no row; without one, a row for the next step takes its lines, which write
the stockpot only, and is held. -/
theorem rowsAreHeldOrRejected : Obligations.RowsAreHeldOrRejected := by
  intro r e late s hpart hscrub hgroup hreq
  refine ⟨fun w hwhy => ?_, fun t hfree huse _ hseg hlines => ?_⟩
  · have hserve := serveRow_of_reason late hpart hscrub hgroup hreq hwhy
    exact ⟨hserve, by rw [hserve, rejection_rows]⟩
  · obtain ⟨tele, cnt, htrace, -⟩ := trace_eq_mk (2 + hipNum r.cls) 0 0 (BitVec.ofNat 32 r.id) (BitVec.ofNat 64 r.payload.length)
      { t with rows := t.rows ++ [{ r with useStep := s.step.step + 1, carried := e.heldStep.isSome, lateArrival := false,
                                           hold := .lines (rowLines r) }] }
    rw [serveRow_of_next late hpart hscrub hgroup hreq hfree huse hseg hlines, htrace]
    exact ⟨rfl, rfl⟩

/-! ### Beats (R348, R350) -/

@[simp] theorem hipPort_updHip (c : HipClass) (f : HipPort → HipPort) (s : State) : hipPort (updHip c f s) c = f (hipPort s c) := by
  cases c <;> rfl

/-- A beat that has its credit is counted, and its place is owed back (R348, R465). -/
def beatCounted (c : HipClass) (s : State) : State :=
  perf (0x200 + 8 * hipNum c) 64 (updHip c (fun p => { p with received := p.received + 1, owed := p.owed + 1 }) s)

/-- A beat is counted and leaves a row's beats behind, as the class's framing. -/
def framed (c : HipClass) (row : List Bytes) (s : State) : State :=
  updHip c (fun p => { p with row := row, stray := false }) (beatCounted c s)

/-- Two states that differ in the HIP ports and the telemetry only. -/
def SameButFraming (s u : State) : Prop := u = { s with hipB := u.hipB, hipL := u.hipL, tele := u.tele }

theorem SameButFraming.trans {s t u : State} (hst : SameButFraming s t) (htu : SameButFraming t u) : SameButFraming s u := by
  unfold SameButFraming at *
  rw [htu, hst]

theorem SameButFraming.regs_eq {s u : State} (h : SameButFraming s u) : u.regs = s.regs := by rw [h]

theorem SameButFraming.arrivesLate_eq {s u : State} (h : SameButFraming s u) : arrivesLate u = arrivesLate s := by
  rw [h]
  rfl

@[simp] theorem hipPort_beatCounted (c : HipClass) (s : State) :
    hipPort (beatCounted c s) c = { hipPort s c with received := (hipPort s c).received + 1, owed := (hipPort s c).owed + 1 } := by
  cases c <;> rfl

theorem beatCounted_same (c : HipClass) (s : State) : SameButFraming s (beatCounted c s) := by cases c <;> rfl

@[simp] theorem beatCounted_regs (c : HipClass) (s : State) : (beatCounted c s).regs = s.regs := (beatCounted_same c s).regs_eq

theorem framed_same (c : HipClass) (row : List Bytes) (s : State) : SameButFraming s (framed c row s) := by cases c <;> rfl

@[simp] theorem hipPort_framed (c : HipClass) (row : List Bytes) (s : State) :
    hipPort (framed c row s) c =
      { hipPort s c with received := (hipPort s c).received + 1, owed := (hipPort s c).owed + 1, row := row, stray := false } := by
  simp [framed]

/-- Credits that go back change no framing, and no class has fewer of them (R348). -/
theorem returnCredits_same (s : State) : SameButFraming s (returnCredits s) := by
  unfold returnCredits
  split <;> rfl

theorem hipPort_returnCredits (c : HipClass) (s : State) :
    ∃ returned owed, (hipPort s c).returned ≤ returned
      ∧ hipPort (returnCredits s) c = { hipPort s c with returned := returned, owed := owed } := by
  unfold returnCredits
  split
  · exact ⟨_, _, Nat.le_refl _, rfl⟩
  · cases c
    · exact ⟨_, _, Nat.le_add_right .., rfl⟩
    · exact ⟨_, _, Nat.le_add_right .., rfl⟩

/-- A class has a row's beats so far, and the credits for n more beats (R348, R350). -/
structure Receiving (c : HipClass) (row : List Bytes) (n : Nat) (s : State) : Prop where
  thawed : s.regs.frozenHip = false
  row_eq : (hipPort s c).row = row
  notStray : (hipPort s c).stray = false
  credits : (hipPort s c).received + n ≤ (hipPort s c).returned

/-- A framed beat leaves the credits for the beats after it. -/
theorem receiving_framed {c : HipClass} {n : Nat} {s : State} (row : List Bytes) (hthaw : s.regs.frozenHip = false)
    (hcredit : (hipPort s c).received + (n + 1) ≤ (hipPort s c).returned) : Receiving c row n (returnCredits (framed c row s)) := by
  obtain ⟨returned, owed, hle, hport⟩ := hipPort_returnCredits c (framed c row s)
  rw [hipPort_framed] at hle hport
  refine ⟨?_, ?_, ?_, ?_⟩
  · rw [((framed_same c row s).trans (returnCredits_same _)).regs_eq, hthaw]
  · rw [hport]
  · rw [hport]
  · rw [hport]
    dsimp only at hle ⊢
    omega

theorem received_framed (c : HipClass) (row : List Bytes) (s : State) :
    (hipPort (returnCredits (framed c row s)) c).received = (hipPort s c).received + 1 := by
  obtain ⟨_, _, -, hport⟩ := hipPort_returnCredits c (framed c row s)
  rw [hport, hipPort_framed]

/-- A beat with its credit is framed, and its place goes back. -/
theorem hipBeat_of_credit {c : HipClass} {b : HipBeat} {s : State} (hthaw : s.regs.frozenHip = false)
    (hcredit : (hipPort s c).received < (hipPort s c).returned) : hipBeat c b s = returnCredits (frameBeat c b (beatCounted c s)) := by
  rw [hipBeat, if_neg (by simp [hthaw])]
  dsimp only
  rw [if_neg (by omega)]
  rfl

/-- The header beat of a row that is more than its header. -/
theorem frameBeat_header {c : HipClass} {h : Bytes} {s : State} (hthaw : s.regs.frozenHip = false) (hrow : (hipPort s c).row = []) :
    frameBeat c ⟨true, false, h⟩ (beatCounted c s) = framed c [h] s := by
  simp [frameBeat, hrow, hthaw, framed]

/-- A payload beat within the header's length, not the last. -/
theorem frameBeat_payload {c : HipClass} {h b : Bytes} {pre : List Bytes} {n : Nat} {s : State} (hrec : Receiving c (h :: pre) n s)
    (hlength : pre.length + 1 ≤ ceilDiv (leAt h 12 4) 64) :
    frameBeat c ⟨false, false, b⟩ (beatCounted c s) = framed c (h :: (pre ++ [b])) s := by
  have hshort : ¬ ceilDiv (leAt h 12 4) 64 < pre.length + 1 := by omega
  simp [frameBeat, hrec.row_eq, hrec.notStray, hshort, framed]

/-- The last payload beat: the row is judged with the class's framing closed. -/
theorem frameBeat_last {c : HipClass} {h b : Bytes} {pre : List Bytes} {n : Nat} {s : State} (hrec : Receiving c (h :: pre) n s)
    (hlength : pre.length + 1 ≤ ceilDiv (leAt h 12 4) 64) :
    frameBeat c ⟨false, true, b⟩ (beatCounted c s) = judgeRow c (arrivesLate s) (h :: (pre ++ [b])) (framed c [] s) := by
  have hshort : ¬ ceilDiv (leAt h 12 4) 64 < pre.length + 1 := by omega
  simp [frameBeat, hrec.row_eq, hrec.notStray, hshort, framed, (beatCounted_same c s).arrivesLate_eq]

/-- Payload beats from number i on, of a row with n of them: the nth is its last beat (R350). -/
def payloadBeats (n : Nat) (ps : List Bytes) (i : Nat) : List HipBeat := (ps.zipIdx i).map fun p => ⟨false, p.2 + 1 == n, p.1⟩

/-- The rest of a row's payload beats, by induction on them: each is counted and framed, and the last has the row judged. -/
theorem foldl_payloadBeats {c : HipClass} {h : Bytes} {ps : List Bytes} :
    ∀ {pre : List Bytes} {s : State}, ps ≠ [] → Receiving c (h :: pre) ps.length s → pre.length + ps.length = ceilDiv (leAt h 12 4) 64 →
      ∃ u, (payloadBeats (pre.length + ps.length) ps pre.length).foldl (fun s b => hipBeat c b s) s
          = returnCredits (judgeRow c (arrivesLate s) (h :: (pre ++ ps)) u)
        ∧ (hipPort u c).row = [] ∧ (hipPort u c).received = (hipPort s c).received + ps.length ∧ SameButFraming s u := by
  induction ps with
  | nil => intro _ _ hne; exact absurd rfl hne
  | cons b ps ih =>
    intro pre s _ hrec hlength
    have hcredit : (hipPort s c).received + (ps.length + 1) ≤ (hipPort s c).returned := hrec.credits
    have hwithin : pre.length + 1 ≤ ceilDiv (leAt h 12 4) 64 := by rw [← hlength, List.length_cons]; omega
    have hbeat := fun (last : Bool) => hipBeat_of_credit (c := c) (s := s) (b := ⟨false, last, b⟩) hrec.thawed (by omega)
    rw [payloadBeats, List.zipIdx_cons, List.map_cons, List.foldl_cons]
    cases ps with
    | nil =>
      refine ⟨framed c [] s, ?_, ?_, ?_, framed_same c [] s⟩
      · simp only [List.length_cons, List.length_nil, Nat.zero_add, beq_self_eq_true, List.zipIdx_nil, List.map_nil, List.foldl_nil]
        rw [hbeat true, frameBeat_last hrec hwithin]
      · rw [hipPort_framed]
      · rw [hipPort_framed]; rfl
    | cons b' ps =>
      have hmore : (pre.length + 1 == pre.length + (b :: b' :: ps).length) = false := by simp
      have hframed := frameBeat_payload (b := b) hrec hwithin
      have hthen := receiving_framed (h :: (pre ++ [b])) hrec.thawed hcredit
      have hsame := (framed_same c (h :: (pre ++ [b])) s).trans (returnCredits_same _)
      have hnext : (pre ++ [b]).length = pre.length + 1 := by simp
      have htotal : (pre ++ [b]).length + (b' :: ps).length = pre.length + (b :: b' :: ps).length := by simp; omega
      obtain ⟨u, hfold, hrow, hcount, hframe⟩ := ih (pre := pre ++ [b]) (by simp) hthen (htotal.trans hlength)
      rw [htotal, hnext, hsame.arrivesLate_eq, List.append_assoc, List.singleton_append] at hfold
      rw [received_framed] at hcount
      refine ⟨u, ?_, hrow, ?_, hsame.trans hframe⟩
      · dsimp only
        rw [hmore, hbeat false, hframed]
        exact hfold
      · rw [hcount, List.length_cons (a := b)]; omega

/-! ### The row (O41) -/

/-- Without a parity error HIP_ROW frames its beats, wakes the pans for the work and fetches the lines of its request (R108, R437). -/
theorem exec_hipRow_of_parity_ok (c : HipClass) (bs : List HipBeat) (s : State) :
    exec (.hipRow c ⟨bs, .none⟩) s = .next (fetchHeld (wakePans (hipRow c bs s))) := by
  change Host.Outcome.next (fetchHeld (wakePans (if _ then parityError .none (hipRow c bs s) else hipRow c bs s))) = _
  rw [parityError, if_pos rfl, ite_self]

/-- A row that is whole and has its credits is judged at its last beat. -/
theorem hipRow_of_whole {c : HipClass} {h : Bytes} {ps : List Bytes} {s : State} (hthaw : s.regs.frozenHip = false)
    (hrow : (hipPort s c).row = []) (hne : ps ≠ []) (hlength : ps.length = ceilDiv (leAt h 12 4) 64)
    (hcredit : (hipPort s c).received + ps.length < (hipPort s c).returned) :
    ∃ u, hipRow c (⟨true, false, h⟩ :: payloadBeats ps.length ps 0) s = returnCredits (judgeRow c (arrivesLate s) (h :: ps) u)
      ∧ (hipPort u c).row = [] ∧ (hipPort u c).received = (hipPort s c).received + ps.length + 1 ∧ SameButFraming s u := by
  have hheader : hipBeat c ⟨true, false, h⟩ s = returnCredits (framed c [h] s) := by
    rw [hipBeat_of_credit hthaw (by omega), frameBeat_header hthaw hrow]
  have hthen : Receiving c [h] ps.length (returnCredits (framed c [h] s)) := receiving_framed [h] hthaw hcredit
  have hsame := (framed_same c [h] s).trans (returnCredits_same _)
  obtain ⟨u, hfold, hclosed, hcount, hframe⟩ := foldl_payloadBeats hne hthen (by rw [List.length_nil, Nat.zero_add, hlength])
  rw [List.length_nil, Nat.zero_add, hsame.arrivesLate_eq, List.nil_append] at hfold
  refine ⟨u, ?_, hclosed, ?_, hsame.trans hframe⟩
  · rw [hipRow, List.foldl_cons, hheader, hfold]
  · rw [hcount, received_framed]; omega

/-- While the partner is frozen every beat is dropped (R363). -/
theorem hipRow_of_frozen {c : HipClass} {s : State} (h : s.regs.frozenHip = true) (bs : List HipBeat) : hipRow c bs s = s := by
  induction bs with
  | nil => rfl
  | cons b bs ih => rw [hipRow, List.foldl_cons, hipBeat, if_pos h]; exact ih

theorem pipWorked_self (s : State) : pipWorked s s = false := by simp [pipWorked]

/-- A beat without a credit is an overrun: it is dropped, and ends the row it belongs to (R348, R361). -/
theorem hipBeat_of_no_credit {c : HipClass} {b : HipBeat} {s : State} (hthaw : s.regs.frozenHip = false)
    (hcredit : (hipPort s c).returned ≤ (hipPort s c).received) :
    hipBeat c b s = hipViolation c 0x01 0 (hipPort s c).row (updHip c (fun p => { p with nacks := p.nacks + 1, row := [], stray := !b.last }) s) := by
  rw [hipBeat, if_neg (by simp [hthaw])]
  exact if_pos hcredit

theorem judgeRow_of_malformed {c : HipClass} {h : Bytes} {ps : List Bytes} {late : Bool} {s : State} {v : Nat × Nat}
    (hbad : malformed h ps.flatten ps.length = some v) : judgeRow c late (h :: ps) s = hipViolation c v.1 v.2 (h :: ps) s := by
  simp [judgeRow, hbad]

/-- A serving row is judged by Table 17.3 unless it must wait for the outcomes of a stamp (R57, R220). -/
theorem judgeRow_of_serving {c : HipClass} {h : Bytes} {ps : List Bytes} {late : Bool} {s : State}
    (hgood : malformed h ps.flatten ps.length = none) (hserving : (rowOfBeats c h ps.flatten).kind ≠ 2) :
    judgeRow c late (h :: ps) s = if rowEarly s (rowOfBeats c h ps.flatten) then
        updHip c (fun p => { p with waiting := p.waiting ++ [⟨s.step.step, late, h :: ps⟩] }) s
      else serveRow late (rowOfBeats c h ps.flatten) s := by
  simp [judgeRow, hgood, hserving]

/-- Settles O41: the beats of a whole row by `hipRow_of_whole`, the row by the branches of `judgeRow`. Which rows must wait is log entries 58 and
66. -/
theorem hipRowIsJudged : Obligations.HipRowIsJudged := by
  intro c h ps s
  refine ⟨fun hthaw hrow hne hlength hcredit => ?_, fun hfrozen bs f => ?_, fun b hthaw hcredit => ?_, fun v late hbad => ?_,
    fun late hgood hserving => ⟨fun hintime => ?_, fun hearly => ?_⟩⟩
  · obtain ⟨u, hjudged, hclosed, hcount, hframe⟩ := hipRow_of_whole hthaw hrow hne hlength hcredit
    exact ⟨u, by rw [exec_hipRow_of_parity_ok, ← hjudged, payloadBeats], hclosed, hcount, hframe⟩
  · change Host.Outcome.next (fetchHeld (wakePans (if pipWorked s (hipRow c bs s) then _ else hipRow c bs s))) = _
    rw [hipRow_of_frozen hfrozen, pipWorked_self, if_neg Bool.false_ne_true]
  · rw [exec_hipRow_of_parity_ok, ← hipBeat_of_no_credit hthaw hcredit]
    rfl
  · exact judgeRow_of_malformed hbad
  · rw [judgeRow_of_serving hgood hserving, if_neg (by simp [hintime])]
  · rw [judgeRow_of_serving hgood hserving, if_pos hearly]

end Sys2Proof.Machine
end

section
/-! Storage, entropy and domain faults (O57). A row that raises an alarm or a trace is stated as an equation with a state literal, as for O50, so
that its frame holds by reflexivity. -/

-- The proofs of this part are checked one after another: the whole package is one text under a limit on threads.
set_option Elab.async false

namespace Sys2Proof.Machine

/-- An alarm waits in the queue of alarms, and writes the counters and GLB_IRQ_STATUS.ALARM besides. -/
theorem alarm_eq_mk (n : Nat) (a : BitVec 64) (s : State) :
    ∃ alarms cnt, (∃ x ∈ alarms, x.code = n) ∧ alarm n a s = { s with
      tele := { s.tele with alarms := alarms }
      cnt := cnt
      regs := { s.regs with irqStatus := s.regs.irqStatus ||| 1 } } :=
  ⟨_, _, alarm_waits n a s, alarm_shape n a s⟩

/-! ### Copies (R90) -/

theorem exec_placementCopyDone (i : StripId) (n : Nat) (s : State) : exec (.placementCopyDone i n) s = .next (copyDone i n s) := rfl

theorem copyDone_of_inFlight {i : StripId} {n : Nat} {s : State} (h : s.place.inFlight.contains (i, n) = true) :
    copyDone i n s = trace 11 0 0 (BitVec.ofNat 32 i.first) (BitVec.ofNat 64 n)
      { s with place := { s.place with inFlight := s.place.inFlight.erase (i, n), copies := s.place.copies ++ [(i, n)] } } := by
  rw [copyDone, if_pos h]

theorem copyDone_of_not_inFlight {i : StripId} {n : Nat} {s : State} (h : s.place.inFlight.contains (i, n) = false) : copyDone i n s = s := by
  rw [copyDone, h, if_neg Bool.false_ne_true]

/-! ### Lines (R94, R114 to R116) -/

theorem exec_patrolScrub (w : EccWhere) (k : EccKind) (s : State) : exec (.patrolScrub w k) s = .next (lineRead w k s) := rfl

/-- A word that was hit and not written leaves the error its outcome (R116). -/
theorem lineRead_of_uncovered {bad written : BitVec 8} (w : EccWhere) (s : State) (h : bad &&& ~~~written ≠ 0) :
    lineRead w (.uncorrectable bad written) s = spoiled w (uncorrectable (eccUnit w) 1 s) := by
  rw [lineRead, if_neg h]

/-- A write that covers every word that was hit mends the line. -/
theorem lineRead_of_covered {bad written : BitVec 8} (w : EccWhere) (s : State) (h : bad &&& ~~~written = 0) :
    lineRead w (.uncorrectable bad written) s = uncorrectable (eccUnit w) 1 s := by
  rw [lineRead, if_pos h]

/-! ### Domains (R440, Table 21.4) -/

theorem exec_pmFault (d : Nat) (s : State) : exec (.pmFault d) s = .next (domainFault d s) := rfl

theorem domainFault_of_missing {d : Nat} {s : State} (h : domainExists s d = false) : domainFault d s = s := by
  rw [domainFault, if_pos (by simp [h])]

/-- Either kit has every domain that is not of a pan, a ramekin or a stockpot pair (R435). -/
theorem domainExists_of_unpaired {d : Nat} (s : State) (hlow : 120 ≤ d) (hhigh : d < 148) : domainExists s d = true := by
  rw [domainExists, if_neg (by omega), if_neg (by omega), if_neg (by omega), decide_eq_true hhigh]

/-- A fault of PD_CTL, of a host port or of PD_SEC ends what the slice sends and requests (Table 21.4). -/
theorem domainFault_of_control {d : Nat} (s : State) (hlow : 143 ≤ d) (hhigh : d < 147) :
    domainFault d s = domainLost (alarm 0x0F (BitVec.ofNat 64 d) s) := by
  have hexists := domainExists_of_unpaired s (d := d) (by omega) (by omega)
  rw [domainFault, if_neg (by simp [hexists])]
  dsimp only
  rw [if_neg (by omega), if_neg (by omega), if_neg (by omega), if_neg (by omega), if_neg (by omega), if_neg (by omega), if_neg (by omega)]

/-- A lost lock of the PLL is a fault of PD_CTL (R480). -/
theorem exec_pllLockLoss (s : State) : exec .pllLockLoss s = .next (domainLost (alarm 0x0F (BitVec.ofNat 64 143) s)) := by
  change Host.Outcome.next (domainFault 143 s) = _
  rw [domainFault_of_control s (by omega) (by omega)]

/-! ### Entropy (R398) -/

theorem exec_entropyFail (s : State) : exec .entropyFail s = .next (alarm 0x1D 0 { s with regs := { s.regs with secFault := true } }) := rfl

/-- Settles O57, clause by clause: a copy by whether it is in flight, a line by what its read found, the alarms by `alarm_eq_mk`, the domains by
`domainFault_of_control` and `domainFault_of_missing`. That a write mends the words that it covers is log entry 151, the line's address in the alarm
is log entry 62, and a row whose condition does not hold has no effect by log entry 84. -/
theorem faultsAreRecorded : Obligations.FaultsAreRecorded := by
  intro i n d w s
  refine ⟨fun hcopy => ?_, fun hcopy => ?_, rfl, rfl, fun bad written hbad => ?_, fun bad written hmended => ?_, ?_, ?_,
    fun hlow hhigh => ?_, fun hmissing => ?_⟩
  · obtain ⟨tele, cnt, htrace, -⟩ := trace_eq_mk 11 0 0 (BitVec.ofNat 32 i.first) (BitVec.ofNat 64 n)
      { s with place := { s.place with inFlight := s.place.inFlight.erase (i, n), copies := s.place.copies ++ [(i, n)] } }
    rw [exec_placementCopyDone, copyDone_of_inFlight hcopy, htrace]
    exact ⟨_, rfl, rfl, rfl⟩
  · rw [exec_placementCopyDone, copyDone_of_not_inFlight hcopy]
  · rw [exec_patrolScrub, lineRead_of_uncovered w s hbad]
  · rw [exec_patrolScrub, lineRead_of_covered w s hmended]
  · obtain ⟨alarms, cnt, hwaits, halarm⟩ := alarm_eq_mk 0x1D 0 { s with regs := { s.regs with secFault := true } }
    rw [exec_entropyFail, halarm]
    exact ⟨_, rfl, rfl, hwaits, rfl⟩
  · obtain ⟨alarms, cnt, hwaits, halarm⟩ := alarm_eq_mk 0x0F (BitVec.ofNat 64 143) s
    rw [exec_pllLockLoss, halarm]
    exact ⟨_, rfl, rfl, rfl, hwaits, rfl⟩
  · rw [exec_pmFault, domainFault_of_control s hlow hhigh]
  · rw [exec_pmFault, domainFault_of_missing hmissing]

end Sys2Proof.Machine
end

section
/-! A backing region and the default ranges (O18): each command's own conditions, and what it does once none of them holds (R107, R322). -/

namespace Sys2Proof.Machine

open Sys2Proof.Claims

/-! ### What leaving Eocia's list and being accepted keep -/

@[simp] theorem rangeBusy_unqueue (op : Op) (c : Cmd) (s : State) : rangeBusy (unqueue op c s) = rangeBusy s := rfl
@[simp] theorem unqueue_group (op : Op) (c : Cmd) (s : State) : (unqueue op c s).group = s.group := rfl
@[simp] theorem unqueue_reqs (op : Op) (c : Cmd) (s : State) : (unqueue op c s).reqs = s.reqs := rfl

@[simp] theorem me_accepted (op : Op) (c : Cmd) (s : State) : me (accepted op c s) = me s := by simp [accepted, me]

/-! ### PART_BACKING (R107) -/

/-- The arguments of PART_BACKING that name a start, a count and a list length hold no reserved bit. -/
theorem reservedSet_backing_eq_false {c : Cmd} (hfirst : arg c 2 < 16384) (hcount : arg c 3 < 32768) (hlists : arg c 4 ≤ 11) :
    reservedSet c [(2, 14), (3, 15), (4, 4)] = false := by
  have hlow : arg c 4 < 16 := by omega
  simp [reservedSet, narrow, hfirst, hcount, hlow]

/-! ### RANGE_LOAD (R19, R322) -/

/-- Without a table's address a formed group's tick master goes on with the default ranges (R19). -/
theorem rangeCmd_of_noTable {c : Cmd} {s : State} (hformed : s.group.formed = true) (hnone : argPair c 0 = 0) :
    rangeCmd c s = rangeAccepted c (arg c 2) false (defaultRanges (arg c 2) s.group.size) s := by
  simp [rangeCmd, hformed, hnone]

/-- A valid table that nothing keeps waiting is sent to every member and stored here; the command waits until all have it (R322). -/
theorem rangeAccepted_of_clear {c : Cmd} {v : Nat} {t : List RangeEntry} {s : State} (hready : Ready .rangeLoad c s)
    (htable : tableOk s.group.formed v t = true) (hfree : rangeBusy s = false) :
    rangeAccepted c v false t (unqueue .rangeLoad c s) = await .rangeLoad c (stepNow s) .range
      (storeTable v t (flood (.range v t) (accepted .rangeLoad c s))) := by
  rw [rangeAccepted, judge_of_clear _ hready (by simp [htable, hfree]), stepNow_accepted]

/-- Settles O18: neither command's own conditions hold under its premises, and `judge_of_clear` gives the effect of each. -/
theorem backingAndRangesAreTaken : Obligations.BackingAndRangesAreTaken := by
  intro c s
  refine ⟨fun hready haligned hfirst hcount hlists hsome hfits hfree hkeys => ?_, fun hready hformed hnone hfree htable => ?_⟩
  · have hreserved := reservedSet_backing_eq_false hfirst hcount hlists
    have hunused : (s.reqs.any fun e => e.info.part == c.part) = false := by simpa using hfree
    refine congrArg Host.Outcome.next ((takeUp_of_ready backingCmd hready).trans ?_)
    rw [backingCmd, judge_of_clear _ hready (by simp [haligned, hreserved, hunused, hkeys]; omega)]
    simp only [stepNow_accepted, me_accepted]
  · refine congrArg Host.Outcome.next ((takeUp_of_ready rangeCmd hready).trans ?_)
    rw [rangeCmd_of_noTable (by simpa using hformed) hnone, unqueue_group]
    exact rangeAccepted_of_clear hready (hformed ▸ htable) hfree

end Sys2Proof.Machine
end

section
/-! Loads and deletes of mask objects and bias lists (O19): each command's own conditions, and what it does once none of them holds (R151, R321). -/

namespace Sys2Proof.Machine

open Sys2Proof.Claims

/-! ### What leaving Eocia's list keeps -/

@[simp] theorem objLoading_unqueue (op : Op) (c : Cmd) (bias : Bool) (p id : Nat) (s : State) :
    objLoading bias p id (unqueue op c s) = objLoading bias p id s := rfl
@[simp] theorem objNamed_unqueue (op : Op) (c : Cmd) (bias : Bool) (p id n : Nat) (s : State) :
    objNamed bias p id n (unqueue op c s) = objNamed bias p id n s := rfl
@[simp] theorem maskExists_unqueue (op : Op) (c : Cmd) (p id : Nat) (s : State) : maskExists (unqueue op c s) p id = maskExists s p id := rfl
@[simp] theorem biasExists_unqueue (op : Op) (c : Cmd) (p id : Nat) (s : State) : biasExists (unqueue op c s) p id = biasExists s p id := rfl

/-! ### The id of an object (R151) -/

/-- An id from 1 to 255 meets no BAD_ARG: it is not 0, and its register holds no reserved bit. -/
theorem objectIdBad_eq_false {c : Cmd} (hlow : 1 ≤ arg c 0) (hhigh : arg c 0 < 256) :
    (decide (arg c 0 = 0) || reservedSet c [(0, 8)]) = false := by
  have hzero : arg c 0 ≠ 0 := by omega
  simp [reservedSet, narrow, hzero, hhigh]

/-- Settles O19: the id is valid, the premises clear each command's other conditions, and `judge_of_clear` gives its effect. That a load whose
id is already being loaded would answer BUSY instead is log entry 31. -/
theorem objectCommandsAreAccepted : Obligations.ObjectCommandsAreAccepted := by
  intro c s hlow hhigh
  have hid := objectIdBad_eq_false hlow hhigh
  refine ⟨fun hready hfree => ?_, fun hready hsome hmany hfree => ?_, fun hready hexists hunnamed => ?_, fun hready hexists hunnamed => ?_⟩
  · refine congrArg Host.Outcome.next ((takeUp_of_ready mobjLoadCmd hready).trans ?_)
    rw [mobjLoadCmd, judge_of_clear _ hready (by simp [hid, hfree]), stepNow_accepted]
  · have hcount : arg c 3 ≠ 0 := by omega
    refine congrArg Host.Outcome.next ((takeUp_of_ready biasLoadCmd hready).trans ?_)
    rw [biasLoadCmd, judge_of_clear _ hready (by simp [hid, hcount, hmany, hfree]), stepNow_accepted]
  · refine congrArg Host.Outcome.next ((takeUp_of_ready mobjDeleteCmd hready).trans ?_)
    rw [mobjDeleteCmd, judge_of_clear _ hready (by simp [hid, hexists, hunnamed]), stepNow_accepted, taken]
  · refine congrArg Host.Outcome.next ((takeUp_of_ready biasDeleteCmd hready).trans ?_)
    rw [biasDeleteCmd, judge_of_clear _ hready (by simp [hid, hexists, hunnamed]), stepNow_accepted, taken]

end Sys2Proof.Machine
end

section
/-! Records of a merge that reach a node of this slice (O49): which of them join the node's records, which are stale, when a node's combination goes
up, and what a parity error of Pip marks before the record acts (R179, R184, R185, R189). -/

namespace Sys2Proof.Machine

/-! ### Pip parity (R179) -/

@[simp] theorem alarm_pipParity (n : Nat) (a : BitVec 64) (s : State) : (alarm n a s).cnt.pipParity = s.cnt.pipParity := by
  unfold alarm
  dsimp only [count]
  split <;> rfl

theorem parityError_pipParity {f : PipFault} (hf : f ≠ .none) (s : State) : (parityError f s).cnt.pipParity = s.cnt.pipParity + 1 := by
  rw [parityError, if_neg hf]
  dsimp only
  split <;> exact alarm_pipParity ..

@[simp] theorem parityError_merges (f : PipFault) (s : State) : (parityError f s).merges = s.merges := by
  unfold parityError
  dsimp only
  repeat' split
  · rfl
  · exact alarm_merges ..
  · exact alarm_merges ..

@[simp] theorem pipParity_none (k : RowKey) (s : State) : pipParity k .none s = s := if_pos rfl

/-- A parity error meets a row whose merge is open here; a serving row's merges are spoilt by it, so that the request is carried. -/
theorem pipParity_of_open {k : RowKey} {f : PipFault} {s : State} (hf : f ≠ .none) (hopen : ∃ m ∈ s.merges, m.key = k ∧ m.closed = false) :
    pipParity k f s = if k.train then parityError f s
      else { parityError f s with merges := s.merges.map fun m => if m.key = k then { m with spoilt := true } else m } := by
  obtain ⟨m, hmem, hkey, hclosed⟩ := hopen
  have hany : (s.merges.any fun m => m.key == k && !m.closed) = true := List.any_eq_true.2 ⟨m, hmem, by simp [hkey, hclosed]⟩
  rw [pipParity, if_neg (by simp [hf, hany])]
  dsimp only
  rw [parityError_merges]

/-! ### The rows of the merge's records -/

theorem exec_maSum (src : Nat) (r : MaSum) (f : PipFault) (s : State) :
    exec (.maSum src ⟨r, f⟩) s = .next (maSumArrives src r (pipParity r.key f s)) := rfl
theorem exec_mbShell (src : Nat) (r : MbShell) (f : PipFault) (s : State) :
    exec (.mbShell src ⟨r, f⟩) s = .next (mbShellArrives src r (pipParity r.key f s)) := rfl
theorem exec_mdDraw (src : Nat) (r : MdDraw) (s : State) : exec (.mdDraw src r) s = .next (mdDrawArrives src r s) := rfl
theorem exec_maCut (c : MaCut) (f : PipFault) (s : State) : exec (.maCut c f) s = .next (maCutArrives c (pipParity c.key f s)) := rfl
theorem exec_mbEdge (e : MbEdge) (f : PipFault) (s : State) : exec (.mbEdge e f) s = .next (mbEdgeArrives e (pipParity e.key f s)) := rfl

/-! ### Records from a child (R184, R185) -/

section
variable {src n : Nat} {s : State}

/-- A merge refuses a record of a phase once it is closed, has sent that phase's own record, or has the child's. -/
def refuses {α : Type} (sent : Merge → Bool) (kids : Merge → List (Nat × α)) (src : Nat) (m : Merge) : Bool :=
  m.closed || sent m || (kids m).any fun x => x.1 == src

theorem any_refuses_eq_false {α : Type} {sent : Merge → Bool} {kids : Merge → List (Nat × α)} {o : Option Merge}
    (h : ∀ m, o = some m → m.closed = false ∧ sent m = false ∧ ∀ x ∈ kids m, x.1 ≠ src) : o.any (refuses sent kids src) = false := by
  cases o with
  | none => rfl
  | some m =>
    obtain ⟨hclosed, hsent, hnew⟩ := h m rfl
    simpa [refuses, hclosed, hsent] using hnew

theorem any_refuses_of_second {α : Type} {sent : Merge → Bool} {kids : Merge → List (Nat × α)} {o : Option Merge} {m : Merge}
    (hmerge : o = some m) (hsecond : ∃ x ∈ kids m, x.1 = src) : o.any (refuses sent kids src) = true := by
  subst hmerge
  simpa [refuses] using Or.inr hsecond

theorem maSumArrives_of_nodeFor {r : MaSum} (hnode : nodeFor s r.key src = some n) (hscrub : scrubRow s r.key = false) :
    maSumArrives src r s =
      if (!r.key.train && s.step.phase ≥ 3) || !(fits s r.key r.step16) || (mergeAt s r.key n).any (refuses (·.sentA) (·.kidsA) src) then stale s
      else advanceA r.key 130 n (updMergeAt r.key n (fun m => { m with kidsA := insertBy (fun a b => a.1 < b.1) (src, r) m.kidsA }) s) := by
  simp only [maSumArrives, hnode, hscrub, Bool.false_eq_true, if_false]
  rfl

theorem mbShellArrives_of_nodeFor {r : MbShell} (hnode : nodeFor s r.key src = some n) (hscrub : scrubRow s r.key = false) :
    mbShellArrives src r s =
      if (!r.key.train && s.step.phase ≥ 4) || !(fits s r.key r.step16) || (mergeAt s r.key n).any (refuses (·.sentB) (·.kidsB) src) then stale s
      else advanceB r.key 130 n (updMergeAt r.key n (fun m => { m with kidsB := insertBy (fun a b => a.1 < b.1) (src, r) m.kidsB }) s) := by
  simp only [mbShellArrives, hnode, hscrub, Bool.false_eq_true, if_false]
  rfl

theorem mdDrawArrives_of_nodeFor {r : MdDraw} (hnode : nodeFor s r.key src = some n) (hscrub : scrubRow s r.key = false) :
    mdDrawArrives src r s =
      if !(fits s r.key r.step16) || (mergeAt s r.key n).any (refuses (·.sentD) (·.kidsD) src) then stale s
      else advanceD r.key 130 n (updMergeAt r.key n (fun m => { m with kidsD := insertBy (fun a b => a.1 < b.1) (src, r) m.kidsD }) s) := by
  simp only [mdDrawArrives, hnode, hscrub, Bool.false_eq_true, if_false]
  rfl

/-- The end of phase A or B stops a serving row's records and no training row's (R57, R194). -/
theorem late_eq_false {k : RowKey} {d : Nat} (h : k.train = true ∨ s.step.phase < d) : (!k.train && decide (s.step.phase ≥ d)) = false := by
  rcases h with h | h <;> simp [h]
end

/-! ### Cuts and edges from the root (R190, R191) -/

theorem maCutArrives_of_fits {c : MaCut} {s : State} (hscrub : scrubRow s c.key = false) (hserving : c.key.train = false)
    (hfits : fits s c.key c.step16 = true) (hopen : ∃ m ∈ s.merges, m.key = c.key ∧ m.closed = false ∧ m.cut = none) :
    maCutArrives c s = applyCut c s := by
  obtain ⟨m, hmem, hkey, hclosed, hcut⟩ := hopen
  have hany : (s.merges.any fun m => m.key == c.key && !m.closed && m.cut.isNone) = true :=
    List.any_eq_true.2 ⟨m, hmem, by simp [hkey, hclosed, hcut]⟩
  rw [maCutArrives, if_neg (by simp [hscrub]), if_neg (by simp [hserving]), if_neg (by simp [hfits, hany])]

theorem mbEdgeArrives_of_fits {e : MbEdge} {s : State} (hscrub : scrubRow s e.key = false)
    (hfits : fits s e.key e.step16 = true) (hopen : ∃ m ∈ s.merges, m.key = e.key ∧ m.closed = false ∧ m.edge = none) :
    mbEdgeArrives e s = applyEdge e s := by
  obtain ⟨m, hmem, hkey, hclosed, hedge⟩ := hopen
  have hany : (s.merges.any fun m => m.key == e.key && !m.closed && m.edge.isNone) = true :=
    List.any_eq_true.2 ⟨m, hmem, by simp [hkey, hclosed, hedge]⟩
  rw [mbEdgeArrives, if_neg (by simp [hscrub]), if_neg (by simp [hfits, hany])]

/-! ### A node's combination goes up once (R184, R189) -/

theorem find?_updFirst {α : Type} {p : α → Bool} {f : α → α} (hf : ∀ a, p (f a) = p a) (l : List α) :
    (updFirst p f l).find? p = (l.find? p).map f := by
  induction l with
  | nil => rfl
  | cons a as ih => cases ha : p a <;> simp [updFirst, ha, hf, ih]

theorem mergeAt_updMergeAt {k : RowKey} {n : Nat} {s : State} {m : Merge} {f : Merge → Merge}
    (hmerge : mergeAt s k n = some m) (hkey : ∀ m, (f m).key = m.key) (hnode : ∀ m, (f m).node = m.node) :
    mergeAt (updMergeAt k n f s) k n = some (f m) := by
  rw [mergeAt, updMergeAt_merges, hmerge, Option.isSome_some, if_pos rfl, find?_updFirst (by simp [hkey, hnode]), ← mergeAt, hmerge]
  rfl

@[simp] theorem playerOf_updMergeAt (k : RowKey) (n : Nat) (f : Merge → Merge) (s : State) (i : Nat) :
    playerOf (updMergeAt k n f s) i = playerOf s i := by
  rw [updMergeAt_shape]
  rfl

@[simp] theorem me_updMergeAt (k : RowKey) (n : Nat) (f : Merge → Merge) (s : State) : me (updMergeAt k n f s) = me s := by
  rw [updMergeAt_shape]
  rfl

@[simp] theorem mergeAt_send (d : Nat) (x : Msg) (s : State) (k : RowKey) (n : Nat) : mergeAt (send d x s) k n = mergeAt s k n := by
  rw [mergeAt, send_merges, ← mergeAt]

/-- A node that has every record of phase A sends its combination to a parent that another slice plays. -/
theorem advanceA_of_complete {k : RowKey} {n p : Nat} {s : State} {m : Merge} (f : Nat) (hmerge : mergeAt s k n = some m)
    (hopen : m.closed = false) (hunsent : m.sentA = false) (hown : n ≠ me s ∨ m.ownA.isSome = true)
    (hkids : ∀ c ∈ dueKids s k n, ∃ x ∈ m.kidsA, x.1 = c) (hparent : parentAt s k n = some p) (hplayer : playerOf s p ≠ me s) :
    advanceA k (f + 1) n s = send p (.maSum n (nodeSum m)) (updMergeAt k n (fun m => { m with sentA := true }) s) := by
  have hall : ((dueKids s k n).all fun c => m.kidsA.any fun x => x.1 == c) = true := by simpa using hkids
  have hhas : (decide (n ≠ me s) || m.ownA.isSome) = true := by simpa using hown
  rw [advanceA, hmerge]
  dsimp only
  rw [if_neg (by rw [hopen, hunsent, hhas, hall]; simp), hparent]
  dsimp only
  rw [playerOf_updMergeAt, me_updMergeAt, if_neg hplayer]

/-- A node that has sent its record of phase A sends none again. -/
theorem advanceA_of_sentA {k : RowKey} {n : Nat} {s : State} {m : Merge} (f : Nat) (hmerge : mergeAt s k n = some m) (hsent : m.sentA = true) :
    advanceA k (f + 1) n s = s := by
  rw [advanceA, hmerge]
  exact if_pos (by simp [hsent])

/-- Settles O49: a child's record by the conditions of its phase, an edge or a cut by whether a merge waits for it, a combination by
`advanceA_of_complete` and `advanceA_of_sentA`, a parity error by `pipParity_of_open`. Which keys of a training row fit a node is log entry 129. -/
theorem mergeRecordsClimbTheTree : Obligations.MergeRecordsClimbTheTree := by
  intro src n k s hnode hscrub put
  refine ⟨?_, ?_, ?_, ?_, ?_, ?_, ?_, ?_, ?_, ?_⟩
  · rintro r rfl hfits hphase hnew
    rw [exec_maSum, pipParity_none, maSumArrives_of_nodeFor hnode hscrub, late_eq_false hphase, hfits, any_refuses_eq_false hnew]
    rfl
  · rintro r rfl hfits
    rw [exec_maSum, pipParity_none, maSumArrives_of_nodeFor hnode hscrub, if_pos (by simp [hfits])]
    rfl
  · rintro r rfl hfits hphase hnew
    rw [exec_mbShell, pipParity_none, mbShellArrives_of_nodeFor hnode hscrub, late_eq_false hphase, hfits, any_refuses_eq_false hnew]
    rfl
  · rintro r m rfl hmerge hsecond
    rw [exec_mbShell, pipParity_none, mbShellArrives_of_nodeFor hnode hscrub, any_refuses_of_second hmerge hsecond, if_pos (by simp)]
    rfl
  · rintro r rfl hfits hnew
    rw [exec_mdDraw, mdDrawArrives_of_nodeFor hnode hscrub, hfits, any_refuses_eq_false hnew]
    rfl
  · intro m p f hmerge hopen hunsent hown hkids hparent hplayer
    have hsends := advanceA_of_complete f hmerge hopen hunsent hown hkids hparent hplayer
    have hsent : mergeAt (advanceA k (f + 1) n s) k n = some { m with sentA := true } := by
      rw [hsends, mergeAt_send]
      exact mergeAt_updMergeAt hmerge (fun _ => rfl) (fun _ => rfl)
    exact ⟨hsends, advanceA_of_sentA f hsent rfl⟩
  · rintro c rfl hserving hfits hopen
    rw [exec_maCut, pipParity_none, maCutArrives_of_fits hscrub hserving hfits hopen]
  · rintro e rfl hfits hopen
    rw [exec_mbEdge, pipParity_none, mbEdgeArrives_of_fits hscrub hfits hopen]
  · intro f a b c e
    simp only [exec_maSum, exec_mbShell, exec_maCut, exec_mbEdge, pipParity_none, and_self]
  · intro f hf hopen
    rw [pipParity_of_open hf hopen]
    cases k.train with
    | true => simp [parityError_pipParity hf]
    | false => simp [parityError_pipParity hf]

end Sys2Proof.Machine
end

section
/-! Training records (O51): sums that climb to the session holder, streams of the reduce-scatter, and the slots of a session (R199, R275 to R281,
R290). Each record or slot has a lemma that says what it does once its conditions hold, and one that says when it does nothing. -/

namespace Sys2Proof.Machine

/-! ### The session -/

theorem updTrain_of_some {s : State} {t : Training} (f : Training → Training) (htrain : s.training = some t) :
    updTrain f s = { s with training := some (f t) } := by rw [updTrain, htrain]; rfl

/-! ### Sums of the loss and the norm (R275, R279) -/

/-- No sum of a slice is held, said as the model asks it. -/
theorem any_fst_eq_false {α : Type} {l : List (Nat × α)} {src : Nat} (hnew : ∀ x ∈ l, x.1 ≠ src) : (l.any fun x => x.1 == src) = false := by
  simpa using hnew

/-- A member's first loss sum joins the gathered ones of its micro-batch. -/
theorem trSumArrives_of_loss {src : Nat} {r : TrSum} {s : State} {m : Micro} (hloss : r.norm = false) (hmicro : microOf s r.seq = some m)
    (hopen : m.fwdCommitted = false) (hnew : ∀ x ∈ m.gathered, x.1 ≠ src) :
    trSumArrives src r s = lossGather r.seq (updMicro r.seq (fun m => { m with gathered := m.gathered ++ [(src, r)] }) s) := by
  rw [trSumArrives, if_neg (by simp [hloss]), hmicro]
  exact if_neg (by simp [hopen, any_fst_eq_false hnew])

/-- A second loss sum of a member is stale. -/
theorem trSumArrives_of_second {src : Nat} {r : TrSum} {s : State} {m : Micro} (hloss : r.norm = false) (hmicro : microOf s r.seq = some m)
    (hsecond : ∃ x ∈ m.gathered, x.1 = src) : trSumArrives src r s = stale s := by
  have hany : (m.gathered.any fun x => x.1 == src) = true := by simpa using hsecond
  rw [trSumArrives, if_neg (by simp [hloss]), hmicro]
  exact if_pos (by rw [hany, Bool.or_true])

/-- A member's first norm sum is kept; the gather moves on only where this slice has applied the norm. -/
theorem trSumArrives_of_norm {src : Nat} {r : TrSum} {s : State} {t : Training} (hnorm : r.norm = true) (htrain : s.training = some t)
    (hnew : ∀ x ∈ t.normSums, x.1 ≠ src) :
    trSumArrives src r s =
      if t.normBusy then normGather { s with training := some { t with normSums := t.normSums ++ [(src, r)] } }
      else { s with training := some { t with normSums := t.normSums ++ [(src, r)] } } := by
  rw [trSumArrives, if_pos hnorm, htrain]
  dsimp only
  rw [any_fst_eq_false hnew, updTrain_of_some _ htrain]
  rfl

/-! ### Streams of the reduce-scatter (R199, R201) -/

theorem portOf_updPort_same {n : Nat} {s : State} (f : Port → Port) (hport : n < s.link.ports.length) :
    portOf (updPort n f s) n = f (portOf s n) := by simp [portOf, updPort, updAt, hport]

theorem portOf_updPort_other {n k : Nat} (f : Port → Port) (s : State) (hne : k ≠ n) : portOf (updPort n f s) k = portOf s k := by
  simp [portOf, updPort, updAt, hne.symm]

@[simp] theorem portOf_updMicro (n : Nat) (q : Word) (f : Micro → Micro) (s : State) : portOf (updMicro q f s) n = portOf s n := rfl

theorem ports_getElem?_eq_portOf {n : Nat} {s : State} (hport : n < s.link.ports.length) : s.link.ports[n]? = some (portOf s n) := by
  simp [portOf, hport]

theorem rsBeginArrives_eq_updPort (port : Nat) (b : RsBegin) (s : State) :
    rsBeginArrives port b s = updPort port (fun p => { p with rsOpen := some b, rsElems := 0 }) s := rfl

/-- A flit on a port with no open stream does nothing. -/
theorem rsFlitArrives_of_closed {port : Nat} {s : State} (form : RsForm) (body : Bytes) (hport : port < s.link.ports.length)
    (hclosed : (portOf s port).rsOpen = none) : rsFlitArrives port form body s = s := by
  rw [rsFlitArrives, ports_getElem?_eq_portOf hport]
  dsimp only
  rw [hclosed]

/-- A flit that does not fill its stream leaves it open, further by all of its elements; the micro-batch holds them. -/
theorem rsFlitArrives_of_unfilled {port : Nat} {form : RsForm} {body : Bytes} {b : RsBegin} {s : State} (hport : port < s.link.ports.length)
    (hopen : (portOf s port).rsOpen = some b) (hroom : (portOf s port).rsElems + (flitElems form body).length < b.elements) :
    ∃ got : List RsElem, rsFlitArrives port form body s = gradsAdvance (updMicro b.seq (fun m => { m with rs := m.rs ++ got })
      (updPort port (fun p => { p with rsElems := (portOf s port).rsElems + (flitElems form body).length, rsOpen := some b }) s)) := by
  have hall : (flitElems form body).take (b.elements - (portOf s port).rsElems) = flitElems form body := List.take_of_length_le (by omega)
  rw [rsFlitArrives, ports_getElem?_eq_portOf hport]
  dsimp only
  rw [hopen]
  dsimp only
  rw [hall, if_neg (by omega)]
  exact ⟨_, rfl⟩

/-! ### The forward slot (R275) -/

/-- A complete forward slot that roots no token writes no loss: its sum joins the gather. -/
theorem forwardDone_of_complete {s : State} {t : Training} {m : Micro} (htrain : s.training = some t) (hmicro : forwardMicro s = some m)
    (hrun : slotsHeld s = false) (hopen : m.fwdCommitted = false) (hunsummed : m.ownSum = none) (hcomplete : forwardComplete s m = true)
    (htokens : ownTokens s m = []) :
    forwardDone s = lossGather m.desc.seq (updMicro m.desc.seq (fun m => { m with ownSum := some (ownLosses m []) }) s) := by
  rw [forwardDone, htrain, hmicro]
  dsimp only
  rw [if_neg (by simp [hrun, hopen, hunsummed, hcomplete]), htokens]
  rfl

theorem forwardDone_of_incomplete {s : State} {t : Training} {m : Micro} (htrain : s.training = some t) (hmicro : forwardMicro s = some m)
    (hincomplete : forwardComplete s m = false) : forwardDone s = s := by
  rw [forwardDone, htrain, hmicro]
  exact if_pos (by simp [hincomplete])

theorem forwardDone_of_no_session {s : State} (htrain : s.training = none) : forwardDone s = s := by
  rw [forwardDone, htrain]

/-! ### The backward slot (R277, R278) -/

/-- BACKWARD_SLOT_DONE acts for the micro-batch whose backward slot runs, and for no other. -/
theorem exec_backwardSlotDone {s : State} {m : Micro} (q : Word) (hmicro : backwardMicro s = some m) :
    exec (.backwardSlotDone q) s = .next (if m.desc.seq = q then backwardDone growSwap s else s) := by
  change execBackwardSlotDone q s = _
  rw [execBackwardSlotDone, hmicro]
  simp

theorem exec_backwardSlotDone_of_no_session {s : State} (q : Word) (htrain : s.training = none) : exec (.backwardSlotDone q) s = .next s := by
  have hmicro : backwardMicro s = none := by rw [backwardMicro, htrain]; rfl
  change execBackwardSlotDone q s = _
  rw [execBackwardSlotDone, hmicro]
  rfl

/-- A backward slot that is over asks for its accumulators: read first, but for the first slot since the update; a slice without strips has
none. -/
theorem backwardDone_of_over {s : State} {t : Training} {m : Micro} {h : Head} (grown : State → State) (htrain : s.training = some t)
    (hmicro : backwardMicro s = some m) (hhead : headOf s t.part = some h) (hunasked : m.accAsked = false)
    (hover : backwardOver s t h m = true) (hearlier : ∀ x ∈ t.micros, x.bwdWritten = false) (hfixed : m.growing = false) :
    backwardDone grown s =
      let asked := updMicro m.desc.seq (fun m => { m with accAsked := true }) s
      match shareHdr h.strips with
      | none => tellHolder .backward m.desc.seq (backwardReady m.desc.seq) (updMicro m.desc.seq (fun m => { m with bwdWritten := true }) asked)
      | some d =>
        if slotNumber t = 0 then writeAccs t h d m asked
        else readBank t t.desc.gaccBase (slotNumber t % 2) 4 d (cellsOf h.strips) (.bankAcc (some m.desc.seq)) asked := by
  have hnone : t.micros.any (·.bwdWritten) = false := by simpa using hearlier
  rw [backwardDone, htrain, hmicro]
  dsimp only
  rw [hhead]
  dsimp only
  rw [hfixed]
  exact if_neg (by simp [hunasked, hover, hnone])

/-- A backward slot that has asked for its accumulators, or is not over, does nothing. -/
theorem backwardDone_of_waiting {s : State} {t : Training} {m : Micro} {h : Head} (grown : State → State) (htrain : s.training = some t)
    (hmicro : backwardMicro s = some m) (hhead : headOf s t.part = some h) (hwait : m.accAsked = true ∨ backwardOver s t h m = false) :
    backwardDone grown s = s := by
  rw [backwardDone, htrain, hmicro]
  dsimp only
  rw [hhead]
  exact if_pos (by obtain hasked | hmore := hwait <;> simp [*])

/-! ### The update slot (R280, R281) -/

theorem exec_updateSlotDone (p n u b : Nat) (s : State) :
    exec (.updateSlotDone p n u b) s = .next (if runsUpdate p n u b s then updateDone s else s) := rfl

theorem runsUpdate_of_some {s : State} {t : Training} (htrain : s.training = some t) :
    runsUpdate t.part t.sessionNo t.updates ((t.updates + 1) % 2) s = true := by simp [runsUpdate, htrain]

theorem runsUpdate_of_no_session {s : State} (p n u b : Nat) (htrain : s.training = none) : runsUpdate p n u b s = false := by
  simp [runsUpdate, htrain]

/-- An update slot whose banks have been read is told to the holder where the slice has no strips. -/
theorem updateDone_of_no_strips {s : State} {t : Training} {a : UpdateArgs} {h : Head} (htrain : s.training = some t)
    (hrunning : t.updating = some a) (hhead : headOf s t.part = some h) (hrun : slotsHeld s = false) (hunwritten : t.updWritten = false)
    (hwhole : h.rebuilding = []) (hacc : slotsRead t.updAcc (cellsOf h.strips) = true)
    (hstate : slotsRead t.updState (cellsOf (stateStrips h)) = true) (hstrips : shareHdr h.strips = none) :
    updateDone s = tellHolder .update 0 updateReady (updTrain (fun t => { t with updWritten := true }) s) := by
  rw [updateDone, htrain]
  dsimp only
  rw [hrunning, hhead]
  dsimp only
  rw [if_neg (by simp [hrun, hunwritten, hwhole, hacc, hstate]), hstrips]

/-- An update slot that still reads a bank does nothing. -/
theorem updateDone_of_unread {s : State} {t : Training} {a : UpdateArgs} {h : Head} (htrain : s.training = some t)
    (hrunning : t.updating = some a) (hhead : headOf s t.part = some h)
    (hunread : slotsRead t.updAcc (cellsOf h.strips) = false ∨ slotsRead t.updState (cellsOf (stateStrips h)) = false) :
    updateDone s = s := by
  rw [updateDone, htrain]
  dsimp only
  rw [hrunning, hhead]
  exact if_pos (by obtain hunread | hunread := hunread <;> simp [hunread])

/-! ### Passes of a prune's selection (R290) -/

/-- A pass of a prune's selection (direction BOTTOM) is over this slice's prune candidates and needs no micro-batch. -/
theorem passArrives_of_prune {p : Nat} {s : State} {x : Plan} {h : Head} {t : Training} {sel : Select} (o : SelMerge)
    (hplan : planOf s p = some x) (hhead : headOf s p = some h) (htrain : s.training = some t) (hsel : x.select = some sel)
    (hprune : sel.top = false) :
    passArrives p o s =
      let r := selectPass sel (pruneCands x.tile (vocab s) h.strips) o
      match r.next with
      | some y => updPlan p (fun x => { x with select := some y }) s
      | none => selectEnds p (if sel.grp then r else { r with count := r.taken.length + o.unitCount }) s := by
  rw [passArrives, hplan, hhead, htrain]
  dsimp only
  rw [hsel]
  dsimp only
  rw [hprune]
  rfl

/-! ### The rows -/

theorem exec_trSum (src : Nat) (r : TrSum) (s : State) : exec (.trSum src r) s = .next (trSumArrives src r s) := rfl
theorem exec_rsBegin (port : Nat) (b : RsBegin) (s : State) : exec (.rsBegin port b) s = .next (rsBeginArrives port b s) := rfl
theorem exec_rsFlit (port : Nat) (form : RsForm) (body : Bytes) (s : State) :
    exec (.rsFlit port form body) s = .next (rsFlitArrives port form body s) := rfl
theorem exec_forwardSlotDone (s : State) : exec .forwardSlotDone s = .next (forwardDone s) := rfl
theorem exec_largeSelectPass (p : Nat) (o : SelMerge) (s : State) : exec (.largeSelectPass p o) s = .next (passArrives p o s) := rfl

/-- Settles O51: each record and slot by the lemma about it above. That a slot named for another or not complete has no effect is log entry 84;
that a selection of SLICE scope ends with the others' counts added is log entry 44. -/
theorem trainingRecordsAreGathered : Obligations.TrainingRecordsAreGathered := by
  intro src port r b form body s
  refine ⟨?_, ?_, ?_, ?_, ?_, ?_, ?_, ?_, ?_, ?_, ?_, ?_⟩
  · intro m hloss hmicro hopen hnew
    rw [exec_trSum, trSumArrives_of_loss hloss hmicro hopen hnew]
  · intro m hloss hmicro hsecond
    rw [exec_trSum, trSumArrives_of_second hloss hmicro hsecond]
    rfl
  · intro t hnorm htrain hnew
    rw [exec_trSum, trSumArrives_of_norm hnorm htrain hnew]
    exact ⟨fun hbusy => by rw [if_pos hbusy], fun hidle => by rw [if_neg (by simp [hidle])]⟩
  · intro hport
    rw [exec_rsBegin, rsBeginArrives_eq_updPort]
    refine ⟨_, rfl, ?_, ?_, fun n hn => portOf_updPort_other _ s hn, rfl⟩
    · rw [portOf_updPort_same _ hport]
    · rw [portOf_updPort_same _ hport]
  · intro hport hclosed
    rw [exec_rsFlit, rsFlitArrives_of_closed form body hport hclosed]
  · intro hport hopen hroom
    obtain ⟨got, hflit⟩ := rsFlitArrives_of_unfilled hport hopen hroom
    rw [exec_rsFlit, hflit]
    refine ⟨_, rfl, ?_, ?_, rfl⟩
    · rw [portOf_updMicro, portOf_updPort_same _ hport]
    · rw [portOf_updMicro, portOf_updPort_same _ hport]
  · intro t m htrain hmicro hrun hopen hunsummed hcomplete htokens
    rw [exec_forwardSlotDone, forwardDone_of_complete htrain hmicro hrun hopen hunsummed hcomplete htokens]
  · intro t m htrain hmicro hincomplete
    rw [exec_forwardSlotDone, forwardDone_of_incomplete htrain hmicro hincomplete]
  · intro t m h htrain hmicro hhead
    refine ⟨?_, ?_, ?_⟩
    · intro hunasked hover hearlier hfixed
      rw [exec_backwardSlotDone _ hmicro, if_pos rfl, backwardDone_of_over _ htrain hmicro hhead hunasked hover hearlier hfixed]
      refine ⟨fun hd => ?_, fun d hd hfirst => ?_, fun d hd hlater => ?_⟩
      · simp only [hd]
      · simp only [hd, if_pos hfirst]
      · simp only [hd, if_neg hlater]
    · intro hwait
      rw [exec_backwardSlotDone _ hmicro, if_pos rfl, backwardDone_of_waiting _ htrain hmicro hhead hwait]
    · intro q hother
      rw [exec_backwardSlotDone _ hmicro, if_neg hother]
  · intro t a h htrain hrunning hhead hrun hunwritten hwhole
    refine ⟨?_, ?_, ?_⟩
    · intro hacc hstate hstrips
      rw [exec_updateSlotDone, if_pos (runsUpdate_of_some htrain),
        updateDone_of_no_strips htrain hrunning hhead hrun hunwritten hwhole hacc hstate hstrips, updTrain_of_some _ htrain]
    · intro hunread
      rw [exec_updateSlotDone, if_pos (runsUpdate_of_some htrain), updateDone_of_unread htrain hrunning hhead hunread]
    · intro p n u b hother
      rw [exec_updateSlotDone, if_neg (by simp [hother])]
  · intro p o x h t sel hplan hhead htrain hsel hprune
    rw [exec_largeSelectPass, passArrives_of_prune o hplan hhead htrain hsel hprune]
    refine ⟨fun y hnext => ?_, fun hnext => ?_⟩
    · simp only [hnext]
      rfl
    · simp only [hnext]
  · intro htrain
    refine ⟨?_, fun q => exec_backwardSlotDone_of_no_session q htrain, fun p n u b => ?_⟩
    · rw [exec_forwardSlotDone, forwardDone_of_no_session htrain]
    · rw [exec_updateSlotDone, if_neg (by simp [runsUpdate_of_no_session p n u b htrain])]

end Sys2Proof.Machine
end

section
/-! Commands that read an object of host memory first (O17): each command's own conditions, and the read it starts once none of them holds.
The room for an image is judged before the acceptance is traced and taken after; `roomFor_accepted` says that both see the same blocks. -/

namespace Sys2Proof.Machine

open Sys2Proof.Claims

/-! ### What leaving Eocia's list keeps -/

@[simp] theorem entryDenied_unqueue (op : Op) (c d : Cmd) (s : State) : entryDenied (unqueue op c s) d = entryDenied s d := rfl
@[simp] theorem unqueue_timer (op : Op) (c : Cmd) (s : State) : (unqueue op c s).timer = s.timer := rfl
@[simp] theorem unqueue_training (op : Op) (c : Cmd) (s : State) : (unqueue op c s).training = s.training := rfl
@[simp] theorem updateRuns_unqueue (op : Op) (c : Cmd) (s : State) : updateRuns (unqueue op c s) = updateRuns s := rfl
@[simp] theorem vocab_unqueue (op : Op) (c : Cmd) (s : State) : vocab (unqueue op c s) = vocab s := rfl
@[simp] theorem loadRuns_unqueue (op : Op) (c : Cmd) (s : State) : loadRuns (unqueue op c s) = loadRuns s := rfl
@[simp] theorem headBusy_unqueue (op : Op) (c : Cmd) (p : Nat) (s : State) : headBusy (unqueue op c s) p = headBusy s p := rfl
@[simp] theorem headOf_unqueue (op : Op) (c : Cmd) (p : Nat) (s : State) : headOf (unqueue op c s) p = headOf s p := rfl
@[simp] theorem registered_unqueue (op : Op) (c : Cmd) (p n : Nat) (s : State) : registered (unqueue op c s) p n = registered s p n := rfl

/-! ### Room for a load (R100 to R102) -/

/-- What a load finds at acceptance: its partition frozen, its quota spent, too few free blocks, or room. -/
theorem roomFor_eq_ite (p : Nat) (u : Use) (n : Nat) (s : State) :
    roomFor p u n s = if n = 0 then ([], false)
      else if u ≠ .packed && partFrozen s p then ([(true, .frozen)], false)
      else if ownedBy s p + n > s.regs.quota.getD p 0 then ([(true, .badArg)], false)
      else ([], decide (((freeBlocks s).take n).length < n)) := by
  unfold roomFor allocBlocks
  by_cases hzero : n = 0
  · simp [hzero]
  by_cases hfrozen : (u ≠ .packed && partFrozen s p) = true
  · simp only [if_neg hzero, if_pos hfrozen, AllocFail.status]
  by_cases hquota : ownedBy s p + n > s.regs.quota.getD p 0
  · simp only [if_neg hzero, if_neg hfrozen, if_pos hquota, AllocFail.status]
  by_cases hfull : ((freeBlocks s).take n).length < n
  · simp only [if_neg hzero, if_neg hfrozen, if_neg hquota, if_pos hfull, decide_eq_true hfull]
  · simp only [if_neg hzero, if_neg hfrozen, if_neg hquota, if_neg hfull, decide_eq_false hfull]

/-- The room depends on the blocks and the registers, which leaving Eocia's list keeps. -/
@[simp] theorem roomFor_unqueue (op : Op) (c : Cmd) (p : Nat) (u : Use) (n : Nat) (s : State) :
    roomFor p u n (unqueue op c s) = roomFor p u n s := by
  rw [roomFor_eq_ite, roomFor_eq_ite]
  rfl

@[simp] theorem partFrozen_accepted (op : Op) (c : Cmd) (p : Nat) (s : State) : partFrozen (accepted op c s) p = partFrozen s p := by
  simp [partFrozen, accepted, unqueue]

@[simp] theorem ownedBy_accepted (op : Op) (c : Cmd) (p : Nat) (s : State) : ownedBy (accepted op c s) p = ownedBy s p := by
  simp [ownedBy, accepted, unqueue]

@[simp] theorem freeBlocks_accepted (op : Op) (c : Cmd) (s : State) : freeBlocks (accepted op c s) = freeBlocks s := by
  simp [freeBlocks, inScratch, accepted, unqueue]

@[simp] theorem accepted_regs (op : Op) (c : Cmd) (s : State) : (accepted op c s).regs = s.regs := by simp [accepted, unqueue]

/-- The trace of the acceptance takes no block. -/
theorem roomFor_accepted (op : Op) (c : Cmd) (p : Nat) (u : Use) (n : Nat) (s : State) :
    roomFor p u n (accepted op c s) = roomFor p u n s := by
  simp only [roomFor_eq_ite, partFrozen_accepted, ownedBy_accepted, freeBlocks_accepted, accepted_regs]

/-- Blocks that an accepted load can take were there when it was judged. -/
theorem roomFor_of_allocBlocks_accepted {op : Op} {c : Cmd} {p n : Nat} {u : Use} {s t : State}
    (h : allocBlocks p u n (accepted op c s) = .ok t) : roomFor p u n s = ([], false) := by
  rw [← roomFor_accepted op c]
  simp [roomFor, h]

theorem takeBlocks_of_ok {p n : Nat} {u : Use} {s t : State} (h : allocBlocks p u n s = .ok t) : takeBlocks p u n s = t := by
  simp [takeBlocks, h]

/-! ### Taking up and judging -/

/-- A ready command that none of its own conditions refuses has its effect at once (R314 to R316, R325). -/
theorem takeUp_of_clear {op : Op} {c : Cmd} {s : State} {run : Cmd → State → State} {l : List (Bool × Status)} {eff : State → State}
    (hready : Ready op c s) (hrun : run c (unqueue op c s) = judge op c l eff (unqueue op c s)) (hclear : ∀ x ∈ l, x.1 = false) :
    takeUp op run c s = eff (accepted op c s) := by
  rw [takeUp_of_ready run hready, hrun, judge_of_clear eff hready hclear]

/-! ### Descriptors (R223, R256, R322) -/

/-- An admission whose entry and alignment are right reads its descriptor, after the Acorn, if it names one, is claimed (R223, R256). -/
theorem takeUp_admitCmd {op : Op} {c : Cmd} {s : State} (hready : Ready op c s) (hentry : entryDenied s c = false)
    (haligned : argPair c 1 % 64 = 0) :
    takeUp op (admitCmd op) c s
      = hmpRead c.part (argPair c 1) 128 .rdb (.admission op c s.timer (stepNow s)) (acornClaim op c (accepted op c s)) := by
  rw [takeUp_of_clear hready rfl (by simp [hentry, haligned]), timer_accepted, stepNow_accepted]

/-- REQ_ADMIT names no handle. -/
theorem acornClaim_reqAdmit (c : Cmd) (s : State) : acornClaim .reqAdmit c s = s := rfl

/-- A command of the open session's partition meets neither refusal of Table 15.9. -/
theorem needSession_clear {c : Cmd} {s : State} {t : Training} (hsess : s.training = some t) (hpart : t.part = c.part) :
    ∀ x ∈ needSession s c, x.1 = false := by
  simp [needSession, hsess, hpart]

/-- In solo service, or with an address, RANGE_LOAD reads its table (R322). -/
theorem rangeCmd_of_table {c : Cmd} {s : State} (h : s.group.formed = false ∨ argPair c 0 ≠ 0) :
    rangeCmd c s = judge .rangeLoad c [(arg c 2 < 256 || arg c 2 > 4194304, .badArg)]
      (hmpRead c.part (argPair c 0) (8 * groupSize s) .rdb (.rangeTable c (arg c 2) (rangeBusy s))) s := by
  have hnot : ¬ (s.group.formed && argPair c 0 = 0) = true := by
    obtain hsolo | haddr := h
    · simp only [hsolo, Bool.false_and, Bool.false_eq_true, not_false_eq_true]
    · simp only [decide_eq_false haddr, Bool.and_false, Bool.false_eq_true, not_false_eq_true]
  rw [rangeCmd, if_neg hnot]

/-! ### Images (R320, R325) -/

/-- HEAD_LOAD of an image reads it: `busy` says whether the image is read under a BUSY condition, with no block taken. -/
theorem takeUp_headLoadCmd {c : Cmd} {s : State} {busy : Bool} (hready : Ready .headLoad c s) (hvocab : vocab s ≠ 0) (hlen : arg c 2 ≠ 0)
    (hstrips : stripFirsts (loadRuns s) (vocab s) ≠ []) (harea : arg c 2 ≤ arg c 3 * 65536 ∨ 64 ≤ arg c 3)
    (hmany : (stripFirsts (loadRuns s) (vocab s)).length ≤ 16384) (hroom : (roomFor c.part .head (arg c 3) s).1 = [])
    (hbusy : (headBusy s c.part || (roomFor c.part .head (arg c 3) s).2) = busy) :
    takeUp .headLoad headLoadCmd c s = hmpRead c.part (argPair c 0) (arg c 2) .rdb (.headImage c busy)
      (if busy then accepted .headLoad c s else takeBlocks c.part .head (arg c 3) (accepted .headLoad c s)) := by
  rw [takeUp_of_clear hready (headLoadCmd.eq_def ..) (by simp [hvocab, hlen, hstrips, hroom]; omega)]
  simp only [headBusy_unqueue, roomFor_unqueue, hbusy, if_neg hlen]

/-- OVERLAY_LOAD of an image that finds room and no pending table takes the blocks and reads the image. -/
theorem takeUp_overlayLoadCmd {c : Cmd} {s : State} (hready : Ready .overlayLoad c s) (hnumber : arg c 3 < 4096)
    (hvariant : registered s c.part (arg c 3) = true) (hhead : (headOf s c.part).isSome = true) (htable : s.group.nextTable = none)
    (hlen : arg c 2 ≠ 0) (hroom : roomFor c.part (.overlay (arg c 3)) (ceilDiv (arg c 2) 65536) s = ([], false)) :
    takeUp .overlayLoad overlayLoadCmd c s = hmpRead c.part (argPair c 0) (arg c 2) .rdb (.overlayImage c false)
      (takeBlocks c.part (.overlay (arg c 3)) (ceilDiv (arg c 2) 65536) (accepted .overlayLoad c s)) := by
  have hnarrow : reservedSet c [(3, 12)] = false := by simp [reservedSet, narrow, hnumber]
  rw [takeUp_of_clear hready (overlayLoadCmd.eq_def ..) (by simp [hnarrow, hvariant, hhead, hlen, hroom])]
  simp [htable, hroom, hlen]

/-- Settles O17: each command's own conditions are clear under its premises, so it has its effect, which is the read. Blocks that the image of
a head or an overlay gets in the accepted state leave no BUSY condition of room; a head under another one is read without them (R325). -/
theorem descriptorsAreRead : Obligations.DescriptorsAreRead := by
  intro c s
  refine ⟨fun hready hentry haligned => ?_, fun hready hentry haligned => ?_, fun hready hentry => ?_, fun hready haligned => ?_,
    fun t hready hsess hpart => ?_, fun hready hlen => ?_, fun hready htable hlow hhigh => ?_,
    fun hready hvocab hlen hstrips harea hmany => ⟨fun t hfree halloc => ?_, fun hbusy hroom => ?_⟩,
    fun t hready hnumber hvariant hhead htable hlen halloc => ?_⟩
  · have hread := takeUp_admitCmd hready hentry haligned
    rw [acornClaim_reqAdmit] at hread
    exact congrArg Host.Outcome.next hread
  · exact congrArg Host.Outcome.next (takeUp_admitCmd hready hentry haligned)
  · exact congrArg Host.Outcome.next (takeUp_of_clear hready rfl (by simp [hentry]))
  · exact congrArg Host.Outcome.next (takeUp_of_clear hready rfl (by simp [haligned]))
  · refine congrArg Host.Outcome.next ((takeUp_of_clear hready rfl (needSession_clear (t := t) hsess hpart)).trans ?_)
    simp only [updateRuns_unqueue, unqueue_training, hsess, Option.any_some]
  · exact congrArg Host.Outcome.next (takeUp_of_clear hready rfl (by simpa using hlen))
  · exact congrArg Host.Outcome.next (takeUp_of_clear hready (rangeCmd_of_table htable) (by simpa using ⟨hlow, hhigh⟩))
  · have hroom := roomFor_of_allocBlocks_accepted halloc
    refine congrArg Host.Outcome.next
      ((takeUp_headLoadCmd (busy := false) hready hvocab hlen hstrips harea hmany (by rw [hroom]) (by rw [hfree, hroom]; rfl)).trans ?_)
    rw [if_neg Bool.false_ne_true, takeBlocks_of_ok halloc]
  · exact congrArg Host.Outcome.next
      (takeUp_headLoadCmd (busy := true) hready hvocab hlen hstrips harea hmany hroom (by rw [hbusy, Bool.true_or]))
  · refine congrArg Host.Outcome.next ((takeUp_overlayLoadCmd hready hnumber hvariant hhead htable hlen
      (roomFor_of_allocBlocks_accepted halloc)).trans ?_)
    rw [takeBlocks_of_ok halloc]

end Sys2Proof.Machine
end

section
/-! Tenant changes in PUBLISH (O14). Every change of a tenant is one change of its record, which keeps the tenant's number; what is read of
the records afterwards follows from that (R246). -/

namespace Sys2Proof.Machine

/-! ### A record changed and the others -/

/-- A change at the first match of one test is not seen through a test that fails before and after it. -/
theorem find?_updFirst_other {α : Type} {p q : α → Bool} {f : α → α} (hbefore : ∀ a, p a = true → q a = false)
    (hafter : ∀ a, p a = true → q (f a) = false) (l : List α) : (updFirst p f l).find? q = l.find? q := by
  induction l with
  | nil => rfl
  | cons a as ih => cases ha : p a <;> simp [updFirst, ha, hbefore, hafter, List.find?_cons, ih]

/-- The record of a tenant without one begins blank and is then changed like any other. -/
theorem tenantRec_updTenant_same {u : Nat} {f : Tenant → Tenant} {s : State} (hf : ∀ t, (f t).tenant = t.tenant) :
    tenantRec (updTenant u f s) u = f (tenantRec s u) := by
  unfold updTenant tenantRec tenantOf
  split
  case isTrue hany =>
    obtain ⟨t, ht⟩ := Option.isSome_iff_exists.1 (List.find?_isSome.2 (List.any_eq_true.1 hany))
    rw [find?_updFirst (p := fun t : Tenant => t.tenant == u) (fun t => by rw [hf]), ht]
    rfl
  case isFalse hany =>
    have hnone : (s.tenants.find? fun t => t.tenant == u) = none := by simpa using hany
    simp [List.find?_append, hnone, hf, Tenant.blank]

theorem tenantOf_updTenant_other {u v : Nat} {f : Tenant → Tenant} {s : State} (hf : ∀ t, (f t).tenant = t.tenant) (hv : v ≠ u) :
    tenantOf (updTenant u f s) v = tenantOf s v := by
  unfold updTenant tenantOf
  split
  case isTrue =>
    refine find?_updFirst_other (fun t ht => ?_) (fun t ht => ?_) s.tenants
    · simpa [eq_of_beq ht] using hv.symm
    · simpa [hf, eq_of_beq ht] using hv.symm
  case isFalse => simp [List.find?_append, hf, Tenant.blank, hv.symm]

theorem updTenant_shape (u : Nat) (f : Tenant → Tenant) (s : State) :
    updTenant u f s = { s with tenants := (updTenant u f s).tenants } := by
  unfold updTenant
  split <;> rfl

/-! ### The changes of Table 12.2 -/

/-- A bind of an unbound tenant begins a new record (R246). -/
theorem tenantRec_bind {u n p r : Nat} {s : State} (hfree : (tenantRec s u).bound = false) :
    tenantRec (applyTenant u n (.bind p r) s).1 u = { tenantRec s u with
      part := p, bound := true, reserve := r, balance := 0, credited := 0, drained := 0, debited := 0, debitedAtTick := 0, committed := 0 } := by
  refine (tenantRec_updTenant_same fun t => ?_).trans (if_neg (by simp [hfree]))
  split <;> rfl

/-- An unbind while no live request names the tenant drains the whole balance (R246). -/
theorem applyTenant_unbind_of_unnamed {u n : Nat} {s : State} (hfree : tenantNamed s u n = false) :
    applyTenant u n .unbind s =
      (updTenant u (fun t => { t with bound := false, balance := 0, drained := t.drained + t.balance }) s, some (tenantRec s u).balance) :=
  if_neg (by simp [hfree])

theorem applyTenant_unbind_of_named {u n : Nat} {s : State} (hnamed : tenantNamed s u n = true) : applyTenant u n .unbind s = (s, none) :=
  if_pos hnamed

/-- A tenant change either changes the tenant's own record and keeps its number, or is an unbind that a request forbids and changes nothing. -/
theorem applyTenant_shape (u n : Nat) (x : TenantChange) (s : State) :
    (∃ f : Tenant → Tenant, (applyTenant u n x s).1 = updTenant u f s ∧ ∀ t, (f t).tenant = t.tenant) ∨ (applyTenant u n x s).1 = s := by
  cases x <;> dsimp only [applyTenant]
  case bind p r =>
    refine .inl ⟨_, rfl, fun t => ?_⟩
    split <;> rfl
  case credit a => exact .inl ⟨_, rfl, fun _ => rfl⟩
  case drain a => exact .inl ⟨_, rfl, fun _ => rfl⟩
  case reserve r => exact .inl ⟨_, rfl, fun _ => rfl⟩
  case unbind =>
    split
    case isTrue => exact .inr rfl
    case isFalse =>
      dsimp only
      exact .inl ⟨_, rfl, fun _ => rfl⟩

/-- Settles O14: each change by what it does to the tenant's record, the frame by `applyTenant_shape`. That a credit is added to an unbound
record too is log entry 140. -/
theorem tenantChangesApply : Obligations.TenantChangesApply := by
  intro u n s
  refine ⟨fun a => tenantRec_updTenant_same fun _ => rfl, fun a => ⟨rfl, tenantRec_updTenant_same fun _ => rfl⟩,
    fun r => tenantRec_updTenant_same fun _ => rfl, fun p r hfree => ?_, fun hunnamed => ?_, applyTenant_unbind_of_named,
    fun x v hv => ?_, fun x => ?_⟩
  · rw [tenantRec_bind hfree]
    exact ⟨rfl, rfl, rfl, rfl⟩
  · rw [applyTenant_unbind_of_unnamed hunnamed, tenantRec_updTenant_same (by simp)]
    exact ⟨rfl, rfl, rfl⟩
  · obtain ⟨f, hchange, hf⟩ | hsame := applyTenant_shape u n x s
    · rw [hchange, tenantOf_updTenant_other hf hv]
    · rw [hsame]
  · obtain ⟨f, hchange, -⟩ | hsame := applyTenant_shape u n x s
    · rw [hchange]
      exact updTenant_shape u f s
    · rw [hsame]

end Sys2Proof.Machine
end

section
/-! Acorn and variant commands (O15): each command's own conditions, and what it does once none of them holds (R252, R253, R256 to R258). -/

namespace Sys2Proof.Machine

open Sys2Proof.Claims

/-! ### What leaving Eocia's list keeps -/

@[simp] theorem acornsFull_unqueue (op : Op) (c : Cmd) (p : Nat) (s : State) : acornsFull (unqueue op c s) p = acornsFull s p := rfl
@[simp] theorem handleUsed_unqueue (op : Op) (c : Cmd) (p : Nat) (h : Word) (s : State) : handleUsed (unqueue op c s) p h = handleUsed s p h := rfl
@[simp] theorem acornOf_unqueue (op : Op) (c : Cmd) (p : Nat) (h : Word) (s : State) : acornOf (unqueue op c s) p h = acornOf s p h := rfl
@[simp] theorem pendingRegs_unqueue (op : Op) (c : Cmd) (p : Nat) (s : State) : pendingRegs (unqueue op c s) p = pendingRegs s p := rfl
@[simp] theorem unqueue_variants (op : Op) (c : Cmd) (s : State) : (unqueue op c s).variants = s.variants := rfl

/-! ### The number of a variant (R257) -/

/-- A number from 1 to 4,095 meets no BAD_ARG: it is not 0, and its register holds no reserved bit. -/
theorem variantNumberBad_eq_false {c : Cmd} (hlow : 1 ≤ arg c 0) (hhigh : arg c 0 < 4096) :
    (decide (arg c 0 = 0) || reservedSet c [(0, 12)]) = false := by
  have hzero : arg c 0 ≠ 0 := by omega
  simp [reservedSet, narrow, hzero, hhigh]

/-- Settles O15: the premises clear each command's own conditions, so it has its effect (`takeUp_of_clear`). That the accepted registrations
count toward the 64 is log entry 141. -/
theorem acornAndVariantCommandsAreAccepted : Obligations.AcornAndVariantCommandsAreAccepted := by
  intro c s
  refine ⟨fun hready hhandle hcount hroom hunused => ?_, fun e hready hreq hfound hpart hlive hunmarked hstays hhandle hroom hunused => ?_,
    fun hready hused => ?_, fun hready hlow hhigh hfree hpending hmany => ?_, fun hready hlow hhigh hreg => ?_⟩
  · refine congrArg Host.Outcome.next ((takeUp_of_clear hready (acornMakeCmd.eq_def ..) ?_).trans ?_)
    · simpa [hcount, hroom] using ⟨hhandle, hunused⟩
    · simp only [stepNow_accepted]
  · refine congrArg Host.Outcome.next ((takeUp_of_clear hready (acornTakeCmd.eq_def ..) ?_).trans ?_)
    · have hnarrow : reservedSet c [(1, 14)] = false := by simp [reservedSet, narrow, hreq]
      simpa [Nat.mod_eq_of_lt hreq, hfound, hpart, hlive, hunmarked, hstays, hroom, hnarrow] using ⟨hhandle, hunused⟩
    · simp only [stepNow_accepted, taken]
  · refine congrArg Host.Outcome.next ((takeUp_of_clear hready (acornDropCmd.eq_def ..) (by simpa using hused)).trans ?_)
    simp only [stepNow_accepted, taken]
  · have hnumber := variantNumberBad_eq_false hlow hhigh
    refine congrArg Host.Outcome.next ((takeUp_of_clear hready (variantRegCmd.eq_def ..) ?_).trans ?_)
    · simpa [hnumber, hfree, hmany] using hpending
    · simp only [stepNow_accepted, taken]
  · have hnumber := variantNumberBad_eq_false hlow hhigh
    refine congrArg Host.Outcome.next ((takeUp_of_clear hready (variantDropCmd.eq_def ..) (by simp [hnumber, hreg])).trans ?_)
    simp only [stepNow_accepted, taken]

end Sys2Proof.Machine
end

section
/-! Messages between the slices of a group (O52): STATE_SYNC, JAR_SHARE, RANGE, HUSK_DELTA and its acknowledgement, and the report of a scrub
(R244, R260, R322, R395, R414, R422). -/

namespace Sys2Proof.Machine

/-! ### The rows -/

theorem exec_stateSync (m : SyncMsg) (s : State) : exec (.stateSync m) s = .next (syncArrives m s) := rfl
theorem exec_jarShare (src q : Nat) (l : List ChunkRec) (s : State) : exec (.jarShare src q l) s = .next (jarShareArrives src q l s) := rfl
theorem exec_range (v : Nat) (t : List RangeEntry) (s : State) : exec (.range v t) s = .next (storeTable v t s) := rfl
theorem exec_huskDelta (d : HuskDelta) (s : State) : exec (.huskDelta d) s = .next (deltaArrives d s) := rfl
theorem exec_huskDeltaAck (src n : Nat) (s : State) : exec (.huskDeltaAck src n) s = .next (deltaAcked src n s) := rfl
theorem exec_partScrubDone (src p : Nat) (s : State) : exec (.partScrubDone src p) s = .next (scrubReported src p s) := rfl

/-! ### STATE_SYNC (R244) -/

/-- A change or the end of a step is not heard from this slice itself, outside a group, or from a hole. -/
def unheard (s : State) (src : Nat) : Bool := src = me s || !(s.group.formed && !(isHole s src))

theorem unheard_eq_true_iff {s : State} {src : Nat} :
    unheard s src = true ↔ src = me s ∨ s.group.formed = false ∨ isHole s src = true := by
  simp only [unheard, Bool.or_eq_true, decide_eq_true_eq, Bool.not_and, Bool.not_not, Bool.not_eq_eq_eq_not, Bool.not_true]

theorem unheard_eq_false {s : State} {src : Nat} (hother : src ≠ me s) (hformed : s.group.formed = true) (hmember : isHole s src = false) :
    unheard s src = false := by
  simp [unheard, hother, hformed, hmember]

theorem syncArrives_outcome (src n : Nat) (o : ReqOutcome) (s : State) :
    syncArrives ⟨src, n, .outcome o⟩ s = if unheard s src then s else holdSync ⟨src, n, .outcome o⟩ s := rfl

theorem syncArrives_tenant (src n u : Nat) (x : TenantChange) (s : State) :
    syncArrives ⟨src, n, .tenant u x⟩ s = if unheard s src then s else holdSync ⟨src, n, .tenant u x⟩ s := rfl

theorem syncArrives_stepEnd (src n : Nat) (s : State) :
    syncArrives ⟨src, n, .stepEnd⟩ s = if unheard s src then s else stepEnds src n s := rfl

/-- The end of a later step's announcements is kept for that step's PUBLISH (R220, R316). -/
theorem stepEnds_of_later {src n : Nat} {s : State} (hlater : s.step.step < n) :
    stepEnds src n s = { s with step := { s.step with ended := addOnce s.step.ended src } } := by
  rw [stepEnds, if_neg]
  simp only [Bool.or_eq_true, Bool.and_eq_true, decide_eq_true_eq]
  omega

/-! ### JAR_SHARE (R260, R422) -/

/-- A jar share joins its request's under the mark 64 where all its records lie in runs that come to this slice, else under its sender. -/
theorem jarShareArrives_eq_ite (src q : Nat) (l : List ChunkRec) (s : State) :
    jarShareArrives src q l s = updReq q (fun e => { e with shares := e.shares ++
      [(if comingRuns s ≠ [] ∧ ∀ r ∈ l, inRuns (comingRuns s) (256 * r.chunk) = true then 64 else src, l)] }) s := by
  simp [jarShareArrives]

/-! ### RANGE (R322) -/

theorem mem_addOnce {α : Type} [DecidableEq α] (l : List α) (a : α) : a ∈ addOnce l a := by
  unfold addOnce
  split
  case isTrue h => exact h
  case isFalse => exact List.mem_append_right l (List.mem_singleton.2 rfl)

/-- A table that arrives is stored with this slice among those that have it, and the others are told. -/
theorem storeTable_eq_mk (v : Nat) (t : List RangeEntry) (s : State) :
    ∃ stored out, me s ∈ stored
      ∧ (others s ≠ [] → out = s.link.out ++ [⟨none, .stateSync ⟨me s, stepNow s, .rangeStored⟩⟩])
      ∧ storeTable v t s = { s with
          group := { s.group with nextTable := some (v, t), nextStored := stored }
          link := { s.link with out := out } } := by
  refine ⟨_, _, ?_, fun hothers => ?_, flood_shape ..⟩
  · split
    · exact mem_addOnce _ _
    · exact List.mem_singleton.2 rfl
  · rw [flood_out]
    exact if_neg (mt List.isEmpty_iff.1 hothers)

/-! ### HUSK_DELTA (R414, R417) -/

/-- A command in a delta of the kept slice is kept and acknowledged at once. -/
theorem deltaArrives_command {src n : Nat} {x : DeltaEntry} {s : State} (hkind : x.kind = .command) (hsource : s.keeper.source = src) :
    deltaArrives ⟨src, n, false, [x]⟩ s
      = send src (.huskDeltaAck n) { s with keeper := { s.keeper with commands := s.keeper.commands ++ [(n, x)] } } := by
  simp [deltaArrives, deltaEntry, hkind, hsource]

/-- The last message of a step's delta makes its sender the kept slice, and the step's commands go but for an eviction. -/
theorem deltaArrives_last {src n : Nat} {s : State} (hsource : s.keeper.source = src) :
    deltaArrives ⟨src, n, true, []⟩ s
      = ackDeltas { s with keeper := { s.keeper with ackDue := s.keeper.ackDue ++ [(src, n)], kept := src
                                                     commands := s.keeper.commands.filter (keepsCommand n) } } := by
  simp [deltaArrives, hsource]

/-- A delta of another slice than the last first empties what this slice keeps; 64 stands for no kept slice. -/
theorem deltaArrives_newSource {d : HuskDelta} {s : State} (hsource : s.keeper.source ≠ d.src) :
    deltaArrives d s = deltaArrives d
      { s with keeper := { s.keeper with source := d.src, kept := 64, marks := [], commands := [], ackedStep := 0 } } := by
  unfold deltaArrives
  rw [if_neg hsource, if_pos rfl]

/-! ### HUSK_DELTA_ACK (R315, R414) -/

theorem oldestUnacked_cons_same (n : Nat) (b : Bool) (l : List (Nat × Bool)) : oldestUnacked n ((n, b) :: l) = some (b, l) :=
  if_pos rfl

theorem oldestUnacked_eq_none {n : Nat} {l : List (Nat × Bool)} (h : ∀ u ∈ l, u.1 ≠ n) : oldestUnacked n l = none := by
  induction l with
  | nil => rfl
  | cons u us ih =>
    obtain ⟨hu, hus⟩ := List.forall_mem_cons.1 h
    rw [oldestUnacked, if_neg hu, ih hus]
    rfl

/-- A command that changes state and has no reading command behind it is accepted alone. -/
theorem nextAccepted_cons {x : Op × Cmd} {l : List (Op × Cmd)} (hx : readsOnly x.1 = false) (hl : ∀ y ∈ l.head?, readsOnly y.1 = false) :
    nextAccepted (x :: l) = ([x], l) := by
  cases l with
  | nil => simp [nextAccepted, hx]
  | cons y ys => simp [nextAccepted, hx, hl y rfl]

theorem deltaAcked_of_other {src n : Nat} {s : State} (h : keeperOf s (me s) ≠ some src) : deltaAcked src n s = s := if_pos h

theorem deltaAcked_of_unasked {src n : Nat} {s : State} (h : ∀ u ∈ s.keeper.unacked, u.1 ≠ n) : deltaAcked src n s = s := by
  rw [deltaAcked, oldestUnacked_eq_none h]
  exact ite_self s

/-- The keeper's acknowledgement of the oldest command of a step accepts the command that awaits it. -/
theorem deltaAcked_command {src n : Nat} {s : State} {rest : List (Nat × Bool)} {x : Op × Cmd} {l : List (Op × Cmd)}
    (hkeeper : keeperOf s (me s) = some src) (holdest : s.keeper.unacked = (n, true) :: rest) (hawait : s.eocia.awaitAck = x :: l)
    (hx : readsOnly x.1 = false) (hl : ∀ y ∈ l.head?, readsOnly y.1 = false) :
    deltaAcked src n s = runOp x.1 x.2 { s with keeper := { s.keeper with unacked := rest }, eocia := { s.eocia with awaitAck := l } } := by
  rw [deltaAcked, if_neg (not_not_intro hkeeper), holdest, oldestUnacked_cons_same]
  dsimp only
  rw [if_pos rfl, hawait, nextAccepted_cons hx hl]
  rfl

/-! ### PART_SCRUB_DONE (R395) -/

theorem scrubReported_of_no_kill {src p : Nat} {s : State} (h : (s.sec.kills.find? fun k => k.part == p) = none) :
    scrubReported src p s = s := by
  rw [scrubReported, h]

/-- A report of a running kill counts once; this slice's own is also told to the others. -/
theorem scrubReported_of_kill {src p : Nat} {s : State} {k : Kill} (h : (s.sec.kills.find? fun k => k.part == p) = some k)
    (hother : src ≠ me s) : scrubReported src p s = if k.reported.contains src then s else
      checkKills { s with sec := { s.sec with
        kills := updFirst (fun k => k.part == p) (fun k => { k with reported := addOnce k.reported src }) s.sec.kills } } := by
  rw [scrubReported, h]
  dsimp only
  rw [if_neg hother]

theorem scrubReported_of_reported {src p : Nat} {s : State} {k : Kill} (h : (s.sec.kills.find? fun k => k.part == p) = some k)
    (hreported : k.reported.contains src = true) : scrubReported src p s = s := by
  rw [scrubReported, h]
  exact if_pos hreported

/-- Settles O52, message by message, by what its operation does above. That an acknowledgement which nothing asked for does nothing is log
entry 84, that a change is held until PUBLISH of its step log entry 69, that 64 stands for no kept slice log entry 5. -/
theorem slicesKeepEachOthersRecords : Obligations.SlicesKeepEachOthersRecords := by
  intro src n q p s
  refine ⟨fun hother hformed hmember => ?_, fun hunheard => ?_, fun l => ?_, fun v tab => ?_, fun x hkind hsource => ?_, fun hsource => ?_,
    fun l last hsource => ?_, fun rest x l hkeeper holdest hawait hx hl => ?_, fun hkeeper => ?_, fun hunasked => ?_, fun hnone => ?_,
    fun k hkill => ⟨fun hreported => ?_, fun hfirst hother => ?_⟩⟩
  · have hheard := unheard_eq_false hother hformed hmember
    refine ⟨fun o => ?_, fun u x => ?_, fun hlater => ?_⟩
    · rw [exec_stateSync, syncArrives_outcome, hheard, if_neg Bool.false_ne_true, holdSync]
    · rw [exec_stateSync, syncArrives_tenant, hheard, if_neg Bool.false_ne_true, holdSync]
    · rw [exec_stateSync, syncArrives_stepEnd, hheard, if_neg Bool.false_ne_true, stepEnds_of_later hlater]
  · have hskip := unheard_eq_true_iff.2 hunheard
    refine ⟨fun o => ?_, fun u x => ?_, ?_⟩
    · rw [exec_stateSync, syncArrives_outcome, if_pos hskip]
    · rw [exec_stateSync, syncArrives_tenant, if_pos hskip]
    · rw [exec_stateSync, syncArrives_stepEnd, if_pos hskip]
  · refine ⟨fun hmoves => ?_, fun hstays => ?_⟩
    · rw [exec_jarShare, jarShareArrives_eq_ite, if_pos hmoves]
    · rw [exec_jarShare, jarShareArrives_eq_ite, if_neg hstays]
  · obtain ⟨stored, out, hmem, hout, hstore⟩ := storeTable_eq_mk v tab s
    rw [exec_range, hstore]
    exact ⟨_, rfl, rfl, hmem, hout, rfl⟩
  · rw [exec_huskDelta, deltaArrives_command hkind hsource]
  · rw [exec_huskDelta, deltaArrives_last hsource]
  · rw [exec_huskDelta, exec_huskDelta, deltaArrives_newSource hsource]
  · rw [exec_huskDeltaAck, deltaAcked_command hkeeper holdest hawait hx hl]
  · rw [exec_huskDeltaAck, deltaAcked_of_other hkeeper]
  · rw [exec_huskDeltaAck, deltaAcked_of_unasked hunasked]
  · rw [exec_partScrubDone, scrubReported_of_no_kill hnone]
  · rw [exec_partScrubDone, scrubReported_of_reported hkill hreported]
  · rw [exec_partScrubDone, scrubReported_of_kill hkill hother, if_neg (by rw [hfirst]; exact Bool.false_ne_true)]

end Sys2Proof.Machine
end

section
/-! The doors of a partition (O11, O22 to O27): the registers of a mailbox bank, the command queue, forwarded commands, and where a result goes.
A write of a mailbox register is `updMbx`, a change of one mailbox that leaves the others and the rest of the state alone. -/

namespace Sys2Proof.Machine

open Sys2Proof.Claims

/-! ### One mailbox changed -/

/-- The mailbox of a partition changed. -/
def updMbx (p : Nat) (f : Mailbox → Mailbox) (s : State) : State := { s with mbx := updAt s.mbx p f }

theorem mailbox_updMbx_same {p : Nat} {s : State} (f : Mailbox → Mailbox) (hp : p < s.mbx.length) :
    mailbox (updMbx p f s) p = f (mailbox s p) := by
  simp [mailbox, updMbx, updAt, List.getD_eq_getElem?_getD, List.getElem?_eq_getElem hp]

theorem mailbox_updMbx_other {p q : Nat} (f : Mailbox → Mailbox) (s : State) (hq : q ≠ p) : mailbox (updMbx p f s) q = mailbox s q := by
  simp [mailbox, updMbx, updAt, List.getD_eq_getElem?_getD, hq.symm]

@[simp] theorem length_mbx_updMbx (p : Nat) (f : Mailbox → Mailbox) (s : State) : (updMbx p f s).mbx.length = s.mbx.length := by
  simp [updMbx, updAt]

theorem mbxIrq_eq_updMbx (p : Nat) (b : BitVec 5) (s : State) :
    mbxIrq p b s = updMbx p (fun m => { m with irqStatus := m.irqStatus ||| b }) s := rfl

/-! ### Writes of a bank of mailbox registers (R305 to R310, R393) -/

/-- Host software and the partition's own agent write the registers of its bank (Table 19.2). -/
theorem partWrite_of_source {src : BitVec 4} {p off : Nat} {s : State} (v : Word) (hrun : s.inReset = false) (hp : p < 12)
    (hoff : off < 0x100) (halign : off % 4 = 0) (hsrc : src = 15 ∨ src.toNat = p) : partWrite src p off v s = mbxWrite p off v s := by
  have hbank : bankOfCsr (0x2000 + 0x1000 * p + off) = p + 2 := by unfold bankOfCsr; omega
  have hsize : bankSize (p + 2) = 0x100 := by
    unfold bankSize
    rw [if_neg (by simp; omega), if_neg (by omega), if_pos (by omega)]
  have hdec : decoded (0x2000 + 0x1000 * p + off) = off := by rw [decoded, hbank, hsize]; omega
  have hallowed : csrAllowed src.toNat (0x2000 + 0x1000 * p + off) true v = true := by
    rcases hsrc with rfl | hsrc
    · rfl
    · simp only [csrAllowed, hbank, hsrc]
      simp
      omega
  rw [partWrite, if_pos hp, csrWrite, hrun, hallowed, csrPut, hbank, hdec]
  simp only [Bool.false_eq_true, if_false, if_true]
  rw [if_neg (by omega), if_neg (by omega), if_pos (by omega), Nat.add_sub_cancel]

section
variable {src : BitVec 4} {p : Nat} {s : State} (v : Word) (hrun : s.inReset = false) (hp : p < 12) (hsrc : src = 15 ∨ src.toNat = p)
include hrun hp hsrc

theorem exec_mbxDoorbell : exec (.mbxDoorbell src p v) s = .next (doorbellWrite p v s) :=
  congrArg Host.Outcome.next (partWrite_of_source v hrun hp (by decide) (by decide) hsrc)

theorem exec_mbxAck : exec (.mbxAck src p v) s = .next (ackWrite p v s) :=
  congrArg Host.Outcome.next (partWrite_of_source v hrun hp (by decide) (by decide) hsrc)

theorem exec_mbxIrqStatus :
    exec (.mbxIrqStatus src p v) s = .next (updMbx p (fun m => { m with irqStatus := m.irqStatus &&& ~~~(v.setWidth 5) }) s) :=
  congrArg Host.Outcome.next (partWrite_of_source v hrun hp (by decide) (by decide) hsrc)

theorem exec_mbxIrqEn : exec (.mbxIrqEn src p v) s = .next (updMbx p (fun m => { m with irqEn := v.setWidth 5 }) s) :=
  congrArg Host.Outcome.next (partWrite_of_source v hrun hp (by decide) (by decide) hsrc)

theorem exec_cqCfg : exec (.cqCfg src p v) s = .next (cqCfgWrite p v s) :=
  congrArg Host.Outcome.next (partWrite_of_source v hrun hp (by decide) (by decide) hsrc)

theorem exec_cqTail : exec (.cqTail src p v) s = .next (cqTailWrite p v s) :=
  congrArg Host.Outcome.next (partWrite_of_source v hrun hp (by decide) (by decide) hsrc)

theorem exec_ccCons : exec (.ccCons src p v) s = .next (ccConsWrite p v s) :=
  congrArg Host.Outcome.next (partWrite_of_source v hrun hp (by decide) (by decide) hsrc)

end

/-! ### The doorbell (R306, R307, R448) -/

/-- The mailbox of an issued command. -/
def pendingMbx (m : Mailbox) : Mailbox := { m with st := .pending, resTag := m.tag, resStatus := Status.pending.code }

theorem doorbellWrite_of_no_go {p : Nat} {v : Word} {s : State} (h : v.getLsbD 0 = false) : doorbellWrite p v s = s := by
  rw [doorbellWrite, h]
  rfl

theorem doorbellWrite_of_busy {p : Nat} {v : Word} {s : State} (hgo : v.getLsbD 0 = true) (hst : (mailbox s p).st ≠ .idle) :
    doorbellWrite p v s = mbxIrq p 0b01000#5 s := by
  rw [doorbellWrite, hgo]
  exact if_pos hst

theorem doorbellWrite_of_idle {p : Nat} {v : Word} {s : State} (hgo : v.getLsbD 0 = true) (hst : (mailbox s p).st = .idle) :
    doorbellWrite p v s = if s.whisk = .hold then deliver p .mailbox (mailbox s p).tag Status.busy.code [] (updMbx p pendingMbx s)
      else issue p .mailbox (mailbox s p).opcode (mailbox s p).tag (mailbox s p).args (updMbx p pendingMbx s) := by
  rw [doorbellWrite, hgo]
  exact if_neg (not_not_intro hst)

/-- Settles O22, by the branches of the doorbell. -/
theorem doorbellIssuesTheCommand : Obligations.DoorbellIssuesTheCommand := by
  intro src p v s hrun hp hlen hsrc
  have hexec := exec_mbxDoorbell v hrun hp hsrc
  refine ⟨fun hgo => ?_, fun hgo hst => ⟨updMbx p pendingMbx s, rfl, fun q => mailbox_updMbx_other _ s, mailbox_updMbx_same _ hlen, ?_⟩⟩
  · rw [hexec, doorbellWrite_of_no_go hgo]
  · rw [hexec, doorbellWrite_of_idle hgo hst]

/-- Settles O23: the one effect of a lost doorbell is DB_LOST. -/
theorem doorbellWhileBusyIsLost : Obligations.DoorbellWhileBusyIsLost := by
  intro src p v s hrun hp hlen hsrc hgo hst
  refine ⟨_, exec_mbxDoorbell v hrun hp hsrc, ?_⟩
  rw [doorbellWrite_of_busy hgo hst, mbxIrq_eq_updMbx]
  exact ⟨mailbox_updMbx_same _ hlen, fun q => mailbox_updMbx_other _ s, rfl⟩

/-! ### The other registers (R305, R306, R310) -/

theorem ackWrite_of_done {p : Nat} {v : Word} {s : State} (hack : v.getLsbD 0 = true) (hst : (mailbox s p).st = .done) :
    ackWrite p v s = updMbx p (fun m => { m with st := .idle, resTag := 0, resStatus := 0 }) s := by
  rw [ackWrite, if_pos]
  · rfl
  · change (v.getLsbD 0 && (mailbox s p).st == .done) = true
    rw [hack, hst]
    rfl

theorem ackWrite_of_not_done {p : Nat} {v : Word} {s : State} (h : v.getLsbD 0 = false ∨ (mailbox s p).st ≠ .done) : ackWrite p v s = s := by
  rw [ackWrite, if_neg]
  change ¬ (v.getLsbD 0 && (mailbox s p).st == .done) = true
  rw [Bool.and_eq_true, beq_iff_eq]
  rintro ⟨hack, hdone⟩
  rcases h with h | h
  · exact Bool.false_ne_true (h.symm.trans hack)
  · exact h hdone

/-- The order of the ring of entries: the latched one while the queue is enabled (R310). -/
def queueOrder (m : Mailbox) : Nat := if m.cqEn then m.lqOrder else m.qOrder.toNat

/-- The order of the completion ring. -/
def completionOrder (m : Mailbox) : Nat := if m.cqEn then m.lcOrder else m.cOrder.toNat

theorem cqTailWrite_of_within {p : Nat} {v : Word} {s : State} (h : (v - (mailbox s p).cqHead).toNat ≤ 2 ^ queueOrder (mailbox s p)) :
    cqTailWrite p v s = updMbx p (fun m => { m with cqTail := v }) s := if_neg (Nat.not_lt.2 h)

theorem cqTailWrite_of_beyond {p : Nat} {v : Word} {s : State} (h : 2 ^ queueOrder (mailbox s p) < (v - (mailbox s p).cqHead).toNat) :
    cqTailWrite p v s = mbxIrq p 0b10000#5 s := if_pos h

theorem ccConsWrite_of_within {p : Nat} {v : Word} {s : State} (h : ((mailbox s p).ccProd - v).toNat ≤ 2 ^ completionOrder (mailbox s p)) :
    ccConsWrite p v s = updMbx p (fun m => { m with ccCons := v }) s := if_neg (Nat.not_lt.2 h)

theorem ccConsWrite_of_beyond {p : Nat} {v : Word} {s : State} (h : 2 ^ completionOrder (mailbox s p) < ((mailbox s p).ccProd - v).toNat) :
    ccConsWrite p v s = mbxIrq p 0b10000#5 s := if_pos h

/-- Settles O24: each write changes one mailbox (`updMbx`) or nothing. -/
theorem mailboxRegisterWrites : Obligations.MailboxRegisterWrites := by
  intro src p v s hrun hp hlen hsrc only m qo co
  have hupd : ∀ f, only (updMbx p f s) (f m) := fun f => ⟨mailbox_updMbx_same f hlen, fun q => mailbox_updMbx_other f s, rfl⟩
  have herr : only (mbxIrq p 0b10000#5 s) { m with irqStatus := m.irqStatus ||| 0b10000#5 } := hupd _
  have htail := exec_cqTail v hrun hp hsrc
  have hcons := exec_ccCons v hrun hp hsrc
  refine ⟨fun hack hst => ?_, fun hnot => ?_, ⟨_, exec_mbxIrqStatus v hrun hp hsrc, hupd _⟩, ⟨_, exec_mbxIrqEn v hrun hp hsrc, hupd _⟩,
    fun h => ?_, fun h => ?_, fun h => ?_, fun h => ?_⟩
  · refine ⟨_, exec_mbxAck v hrun hp hsrc, ?_⟩
    rw [ackWrite_of_done hack hst]
    exact hupd _
  · rw [exec_mbxAck v hrun hp hsrc, ackWrite_of_not_done hnot]
  · rw [cqTailWrite_of_within h] at htail
    exact ⟨_, htail, hupd _⟩
  · rw [cqTailWrite_of_beyond h] at htail
    exact ⟨_, htail, herr⟩
  · rw [ccConsWrite_of_within h] at hcons
    exact ⟨_, hcons, hupd _⟩
  · rw [ccConsWrite_of_beyond h] at hcons
    exact ⟨_, hcons, herr⟩

/-! ### CQ_CFG (R310) -/

/-- The mailbox with the orders that a write of CQ_CFG carries. -/
def withOrders (v : Word) (m : Mailbox) : Mailbox := { m with qOrder := v.extractLsb' 1 4, cOrder := v.extractLsb' 5 4 }

/-- A queue that starts: bases and orders latched, the counters zero (R310). -/
def queueStarted (q c : BitVec 4) (m : Mailbox) : Mailbox :=
  { m with cqEn := true, cqTail := 0, cqHead := 0, ccProd := 0, ccCons := 0, cseq := 0, fetching := false
           lqBase := m.cqBaseLo.toNat + m.cqBaseHi.toNat * 2 ^ 32, lcBase := m.ccBaseLo.toNat + m.ccBaseHi.toNat * 2 ^ 32
           lqOrder := q.toNat, lcOrder := c.toNat }

theorem cqCfgWrite_eq_ite (p : Nat) (v : Word) (s : State) :
    cqCfgWrite p v s = if !(v.getLsbD 0) then dropFetch p (updMbx p (fun m => { m with cqEn := false }) (updMbx p (withOrders v) s))
      else if (mailbox s p).cqEn then updMbx p (withOrders v) s
      else if !(orderOk (v.extractLsb' 1 4) && orderOk (v.extractLsb' 5 4)) then mbxIrq p 0b10000#5 (updMbx p (withOrders v) s)
      else updMbx p (queueStarted (v.extractLsb' 1 4) (v.extractLsb' 5 4)) (updMbx p (withOrders v) s) := rfl

theorem orderOk_iff (o : BitVec 4) : orderOk o = true ↔ 4 ≤ o.toNat ∧ o.toNat ≤ 12 := by simp [orderOk]

/-- Settles O25, by the branches of CQ_CFG. -/
theorem queueIsEnabled : Obligations.QueueIsEnabled := by
  intro src p v s hrun hp hlen hsrc q c m
  have hexec := exec_cqCfg v hrun hp hsrc
  rw [cqCfgWrite_eq_ite] at hexec
  have hsame : ∀ f, mailbox (updMbx p f (updMbx p (withOrders v) s)) p = f m := fun f => by
    rw [mailbox_updMbx_same f (by simpa using hlen), mailbox_updMbx_same _ hlen]
    rfl
  refine ⟨fun hen hoff hq hq' hc hc' => ?_, fun hen hoff hout => ?_, fun hen hon => ?_, fun hen => ?_⟩
  · have hok : (orderOk (v.extractLsb' 1 4) && orderOk (v.extractLsb' 5 4)) = true := by
      rw [(orderOk_iff _).2 ⟨hq, hq'⟩, (orderOk_iff _).2 ⟨hc, hc'⟩]
      rfl
    have hwas : (mailbox s p).cqEn = false := hoff
    simp only [hen, hwas, hok, Bool.not_true, Bool.false_eq_true, if_false] at hexec
    exact ⟨_, hexec, rfl, fun r hr => by rw [mailbox_updMbx_other _ _ hr, mailbox_updMbx_other _ _ hr], hsame _⟩
  · have hbad : (orderOk (v.extractLsb' 1 4) && orderOk (v.extractLsb' 5 4)) = false := by
      rw [Bool.eq_false_iff, ne_eq, Bool.and_eq_true, orderOk_iff, orderOk_iff]
      rintro ⟨⟨hlow, hhigh⟩, hlow', hhigh'⟩
      rcases hout with h | h | h | h
      · exact Nat.not_lt.2 hlow h
      · exact Nat.not_lt.2 hhigh h
      · exact Nat.not_lt.2 hlow' h
      · exact Nat.not_lt.2 hhigh' h
    have hwas : (mailbox s p).cqEn = false := hoff
    simp only [hen, hwas, hbad, Bool.not_true, Bool.not_false, Bool.false_eq_true, if_false, if_true] at hexec
    exact ⟨_, hexec, rfl, hsame _⟩
  · have hwas : (mailbox s p).cqEn = true := hon
    simp only [hen, hwas, Bool.not_true, Bool.false_eq_true, if_false, if_true] at hexec
    exact ⟨_, hexec, rfl, mailbox_updMbx_same _ hlen⟩
  · simp only [hen, Bool.not_false, if_true] at hexec
    refine ⟨_, hexec, rfl, ?_⟩
    have hdrop : ∀ t : State, mailbox (dropFetch p t) p = mailbox (updMbx p (fun m => { m with fetching := false }) t) p := fun _ => rfl
    rw [hdrop, mailbox_updMbx_same _ (by simpa using hlen), hsame]

/-! ### A queue entry (R309, R311) -/

theorem mayFetch_of_room {p : Nat} {s : State} (hen : (mailbox s p).cqEn = true) (hsome : (mailbox s p).cqTail ≠ (mailbox s p).cqHead)
    (hlow : (mailbox s p).cqPending < 256)
    (hroom : (mailbox s p).cqPending < 2 ^ (mailbox s p).lcOrder - ((mailbox s p).ccProd - (mailbox s p).ccCons).toNat) :
    mayFetch s p = true := by
  change ((mailbox s p).cqEn && (mailbox s p).cqTail != (mailbox s p).cqHead && decide ((mailbox s p).cqPending < 256)
    && decide (2 ^ (mailbox s p).lcOrder - ((mailbox s p).ccProd - (mailbox s p).ccCons).toNat > (mailbox s p).cqPending)) = true
  rw [hen, bne_iff_ne.2 hsome, decide_eq_true hlow, decide_eq_true (show _ > _ from hroom)]
  rfl

theorem cqFetchEntry_of_mayFetch {p : Nat} {s : State} (hruns : eociaRuns s = true) (hscrub : scrubbing s p = false) (hp : p < 12)
    (hmay : mayFetch s p = true) :
    cqFetchEntry p s = if (mailbox s p).fetching then takeEntry p s
      else hmpRead p ((mailbox s p).lqBase + 64 * ((mailbox s p).cqHead.toNat % 2 ^ (mailbox s p).lqOrder)) 64 .rdb (.queueEntry p)
        (updMbx p (fun m => { m with fetching := true }) s) := by
  have hskip : ¬ (!(eociaRuns s) || scrubbing s p || decide (p ≥ 12)) = true := by simp [hruns, hscrub, hp]
  have hmay' : ¬ (!(mayFetch s p)) = true := by simp [hmay]
  unfold cqFetchEntry
  dsimp only
  rw [if_neg hskip, if_neg hmay']
  rfl

/-- The mailbox of a queue whose entry at CQ_HEAD is fetched: it is counted (R311). -/
def entryCounted (p : Nat) (s : State) : State :=
  updMbx p (fun m => { m with cqHead := m.cqHead + 1, cqPending := m.cqPending + 1 }) (dropFetch p s)

/-- An entry that has been read, with no reserved bit, is issued once its FENCE allows it (R309, R311). -/
theorem takeEntry_of_read {p : Nat} {s : State} {j : ReadJob} {bs : Bytes} (hruns : eociaRuns s = true) (hmay : mayFetch s p = true)
    (hjob : (s.hmp.jobs.find? fun j => j.purpose == .queueEntry p) = some j) (hbytes : jobBytes j = some bs)
    (hfence : bitOf (leAt bs 60 4) 0 = false ∨ (mailbox s p).cqPending = 0) (hbits : leAt bs 60 4 < 4) :
    takeEntry p s = issue p (.queue (bitOf (leAt bs 60 4) 1)) (BitVec.ofNat 16 (leAt bs 0 2)) (BitVec.ofNat 16 (leAt bs 2 2))
      ((List.range 14).map fun j => wordAt bs (4 + 4 * j)) (entryCounted p s) := by
  have hgo : ¬ (!(mayFetch s p) || (bitOf (leAt bs 60 4) 0 && decide ((mailbox s p).cqPending ≠ 0))) = true := by
    rcases hfence with h | h <;> simp [hmay, h]
  have hzero : ¬ leAt bs 60 4 / 4 ≠ 0 := by omega
  rw [takeEntry, hruns, hjob]
  dsimp only
  rw [hbytes]
  exact (if_neg hgo).trans (if_neg hzero)

/-- Settles O26: the entry is read when it is not being read, and issued once it has been read. -/
theorem queueEntryIsFetched : Obligations.QueueEntryIsFetched := by
  intro p s hruns hscrub hp hlen hen hsome hlow hroom
  have hmay := mayFetch_of_room hen hsome hlow hroom
  have hexec : exec (.cqFetch p) s = .next (cqFetchEntry p s) := rfl
  rw [cqFetchEntry_of_mayFetch hruns hscrub hp hmay] at hexec
  refine ⟨fun hidle => ?_, fun j bs hfetching hjob hbytes hfence hbits => ⟨entryCounted p s, ?_, ?_, rfl, rfl⟩⟩
  · rw [hexec, hidle]
    rfl
  · rw [hexec, hfetching, if_pos rfl, takeEntry_of_read hruns hmay hjob hbytes hfence hbits]
  · have hdrop : mailbox (dropFetch p s) p = { mailbox s p with fetching := false } := mailbox_updMbx_same _ hlen
    have hlen' : p < (dropFetch p s).mbx.length := by simpa [dropFetch, updAt] using hlen
    rw [entryCounted, mailbox_updMbx_same _ hlen', hdrop]

/-! ### Forwarded commands (R314, R381) -/

/-- The door that a forwarded command entered by. -/
def doorOf : Option Bool → Origin
  | none => .mailbox
  | some b => .queue b

theorem resultArrives_of_some {r : FwdResult} {x : FwdRef} {op : Op} {s : State}
    (hentry : s.eocia.forwarded.find? (fun g => g.ref == r.ref) = some x) (hop : opOf x.op.toNat = some op) :
    resultArrives r s = deliver x.part (doorOf x.queue) r.tag r.status (forwardedWords op r.status r.words)
      { s with eocia := { s.eocia with forwarded := s.eocia.forwarded.filter fun g => g.ref != r.ref } } := by
  rw [resultArrives, hentry]
  dsimp only
  rw [hop]
  rfl

/-- Settles O27. A result whose reference is unknown does nothing (log entry 84). -/
theorem forwardedCommandsAndResults : Obligations.ForwardedCommandsAndResults := by
  refine ⟨fun f s => rfl, fun r x op s hentry hop => ?_, fun r s hnone => ?_⟩
  · exact congrArg Host.Outcome.next (resultArrives_of_some hentry hop)
  · refine congrArg Host.Outcome.next ?_
    rw [resultArrives, hnone]

/-! ### Results (R306, R308, R311, R314) -/

/-- A completion traced (R463). -/
def completionTraced (op : Op) (st : Status) (s : State) : State :=
  trace 1 2 1 (st.code.setWidth 32) (BitVec.ofNat 64 (Op.code op)) s

theorem complete_of_running {op : Op} {c : Cmd} {st : Status} {ws : List (Nat × Word)} {s : State} (h : eociaRuns s = true) :
    complete op c st ws s = deliver c.part c.origin c.tag st.code ws (completionTraced op st s) := by
  rw [complete, h]
  rfl

@[simp] theorem mailbox_completionTraced (op : Op) (st : Status) (s : State) (p : Nat) :
    mailbox (completionTraced op st s) p = mailbox s p := by
  simp [mailbox, completionTraced]

/-- A DONE mailbox with its result (R306, R308). -/
def doneMbx (tag st : BitVec 16) (ws : List (Nat × Word)) (m : Mailbox) : Mailbox :=
  { m with args := overArgs ws m.args, resStatus := st, resTag := tag, st := .done, fwd := false, irqStatus := m.irqStatus ||| 0b00001#5 }

theorem deliver_mailbox_of_pending {p : Nat} {tag st : BitVec 16} {ws : List (Nat × Word)} {s : State} (h : (mailbox s p).st = .pending) :
    deliver p .mailbox tag st ws s = updMbx p (doneMbx tag st ws) s := if_neg (not_not_intro h)

/-- Settles O11, by the door of the command. -/
theorem resultsAreDelivered : Obligations.ResultsAreDelivered := by
  intro op c st ws s hruns
  have hshape := trace_shape 1 2 1 (st.code.setWidth 32) (BitVec.ofNat 64 (Op.code op)) s
  refine ⟨fun horigin hlen hst => ?_, fun n ref q horigin hother => ?_, fun b horigin hscrub => ?_⟩
  · have hst' : (mailbox (completionTraced op st s) c.part).st = .pending := by simpa using hst
    have hlen' : c.part < (completionTraced op st s).mbx.length := by simpa [completionTraced] using hlen
    have hsame := mailbox_updMbx_same (doneMbx c.tag st.code ws) hlen'
    have hother : ∀ p, p ≠ c.part → mailbox (updMbx c.part (doneMbx c.tag st.code ws) (completionTraced op st s)) p = mailbox s p :=
      fun p hp => by rw [mailbox_updMbx_other _ _ hp, mailbox_completionTraced]
    rw [mailbox_completionTraced] at hsame
    refine ⟨_, rfl, ?_⟩
    rw [complete_of_running hruns, horigin, deliver_mailbox_of_pending hst', hsame]
    refine ⟨rfl, rfl, rfl, rfl, rfl, hother, ?_⟩
    rw [completionTraced, hshape]
    rfl
  · have hother' : ¬ n = me (completionTraced op st s) := by simpa [completionTraced, me] using hother
    refine ⟨_, rfl, ?_⟩
    rw [complete_of_running hruns, horigin, deliver, send, if_neg hother', completionTraced, hshape]
    exact ⟨rfl, rfl⟩
  · have hscrub' : ¬ scrubbing (completionTraced op st s) c.part = true := by simpa [completionTraced, scrubbing] using hscrub
    refine ⟨updMbx c.part (fun m => { m with cseq := (mailbox s c.part).cseq + 1 }) (completionTraced op st s), ?_, ?_, ?_⟩
    · rw [complete_of_running hruns, horigin, deliver, if_neg hscrub', ← mailbox_completionTraced op st s]
      rfl
    · simp [updMbx, completionTraced]
    · rw [completionTraced, hshape]
      rfl

end Sys2Proof.Machine
end

section
/-! Training and mask commands (O21): each command's own conditions are clear for the partition that holds the session, so each has its effect
for the step under way (R276 to R302). -/

namespace Sys2Proof.Machine

open Sys2Proof.Claims

/-! ### What leaving Eocia's list and being accepted keep -/

@[simp] theorem nextBackward_unqueue (op : Op) (c : Cmd) (s : State) : nextBackward (unqueue op c s) = nextBackward s := rfl
@[simp] theorem inFlight_unqueue (op : Op) (c : Cmd) (s : State) : inFlight (unqueue op c s) = inFlight s := rfl
@[simp] theorem normHeld_unqueue (op : Op) (c : Cmd) (s : State) : normHeld (unqueue op c s) = normHeld s := rfl
@[simp] theorem barrierWaits_unqueue (op : Op) (c : Cmd) (s : State) : barrierWaits (unqueue op c s) = barrierWaits s := rfl
@[simp] theorem unqueue_plans (op : Op) (c : Cmd) (s : State) : (unqueue op c s).plans = s.plans := rfl
@[simp] theorem staleVersion_unqueue (op : Op) (c d : Cmd) (s : State) : staleVersion (unqueue op c s) d = staleVersion s d := rfl
@[simp] theorem headDense_unqueue (op : Op) (c : Cmd) (p : Nat) (s : State) : headDense (unqueue op c s) p = headDense s p := rfl
@[simp] theorem planHeld_unqueue (op : Op) (c : Cmd) (p : Nat) (s : State) : planHeld (unqueue op c s) p = planHeld s p := rfl
@[simp] theorem heldItem_unqueue (op : Op) (c : Cmd) (f : Sync → Bool) (s : State) : heldItem (unqueue op c s) f = heldItem s f := rfl
@[simp] theorem microOf_unqueue (op : Op) (c : Cmd) (q : Word) (s : State) : microOf (unqueue op c s) q = microOf s q := rfl
@[simp] theorem maskVersionOf_unqueue (op : Op) (c : Cmd) (p : Nat) (s : State) : maskVersionOf (unqueue op c s) p = maskVersionOf s p := rfl
@[simp] theorem bwdHeld_unqueue (op : Op) (c : Cmd) (q : Word) (s : State) : bwdHeld (unqueue op c s) q = bwdHeld s q := rfl

@[simp] theorem barrierWaits_accepted (op : Op) (c : Cmd) (s : State) : barrierWaits (accepted op c s) = barrierWaits s := by
  simp [barrierWaits, accepted]

/-! ### Conditions of the commands -/

/-- Where a micro-batch waits for its backward, no later one is named (R276). -/
theorem nextHeld_of_next {s : State} {m : Micro} (h : nextBackward s = some m) : nextHeld s = none := by
  rw [nextHeld, h]
  rfl

/-- A selection is accepted and has not started here (R291). -/
def isPrune : Sync → Bool
  | .maskPrune .. => true
  | _ => false

theorem heldItem_isPrune_eq_false {s : State} (h : ∀ m ∈ s.held, ∀ a b k, m.item ≠ .maskPrune a b k) : heldItem s isPrune = false := by
  rw [heldItem, List.any_eq_false]
  intro m hm
  have hitem := h m hm
  cases hx : m.item with
  | maskPrune a b k => exact absurd hx (hitem a b k)
  | _ => exact Bool.false_ne_true

/-- Why the blocks of a selection cannot be had (R142). -/
def pruneRoom (c : Cmd) (s : State) : List (Bool × Status) :=
  match allocBlocks c.part .selection (2 * spillBlocks (arg c 2)) s with
  | .ok _ => []
  | .error e => [(true, e.status)]

/-- A selection that finds room is not refused for its blocks. -/
theorem pruneRoom_of_roomFor {c : Cmd} {s : State} (h : roomFor c.part .selection (2 * spillBlocks (arg c 2)) s = ([], false)) :
    pruneRoom c s = [] := by
  unfold pruneRoom
  unfold roomFor at h
  cases halloc : allocBlocks c.part .selection (2 * spillBlocks (arg c 2)) s with
  | ok u => rfl
  | error e =>
    rw [halloc] at h
    cases e with
    | quota => cases congrArg Prod.fst h
    | full => cases congrArg Prod.snd h
    | frozen => cases congrArg Prod.fst h

theorem pruneCmd_eq_judge (c : Cmd) (s : State) :
    pruneCmd c s = judge .maskPrune c (needSession s c ++
      [(staleVersion s c, .maskVersion), (arg c 1 / 4 ≠ 0 || arg c 3 ≠ 0 || arg c 2 < 1 || arg c 2 > 1048576, .badArg),
        (!(bitOf (arg c 1) 0) && headDense s c.part, .badArg),
        ((planHeld s c.part).isSome || heldItem s isPrune || (s.training.any (·.barriered)), .busy)] ++ pruneRoom c s)
      (fun s => await .maskPrune c (stepNow s) .selection
        (announce (stepNow s) (.maskPrune (bitOf (arg c 1) 0) (bitOf (arg c 1) 1) (arg c 2)) s)) s := rfl

/-- A command of the open session's partition is clear when its further conditions are (Table 15.9). -/
theorem clear_inSession {op : Op} {c : Cmd} {s : State} {t : Training} {l : List (Bool × Status)} (hsess : s.training = some t)
    (hpart : t.part = c.part) (hclear : ∀ x ∈ l, x.1 = false) : ∀ x ∈ needSession (unqueue op c s) c ++ l, x.1 = false :=
  List.forall_mem_append.2 ⟨needSession_clear (s := unqueue op c s) hsess hpart, hclear⟩

/-- Settles O21: the session is of the command's partition (`needSession_clear`), and the premises clear each command's other conditions, so each has
its effect (`takeUp_of_clear`). -/
theorem trainingCommandsAreAccepted : Obligations.TrainingCommandsAreAccepted := by
  intro c s t hsess hpart
  refine ⟨fun m hready hnext hseq hfwd hupd hwait hbarrier => ?_, fun hready haligned hback hflight hnorm hupdating => ?_,
    fun hready hargs hzero hback hflight hdone hbusy hheld hwait hupd hbarrier => ?_,
    fun hready hflight hupd hwait hwaitB hbusy hplans => ?_,
    fun u hready hversion hmode hzero hlow hhigh hdense hplan hheld hbarriered halloc => ?_,
    fun m p hready hversion hmicro hmask hstarted hheld hplan hst hgrow => ?_,
    fun p hready hversion hmode hfinite hplan hst hupdated hwait hupd => ?_, fun hready => ?_⟩
  · have hnextHeld : nextHeld (unqueue .trainBackward c s) = none := nextHeld_of_next hnext
    refine congrArg Host.Outcome.next ((takeUp_of_clear hready (by unfold backwardCmd; rfl) ?_).trans ?_)
    · refine clear_inSession hsess hpart ?_
      simp [hnext, hseq, hfwd, hupd, hsess, hwait, hnextHeld]
    · exact if_neg (by simp [hbarrier])
  · refine congrArg Host.Outcome.next ((takeUp_of_clear hready (by unfold normCmd; rfl) ?_).trans ?_)
    · refine clear_inSession hsess hpart ?_
      simp [haligned, hsess, hback, hflight, hnorm, hupdating]
    · simp only [taken, stepNow_accepted]
  · refine congrArg Host.Outcome.next ((takeUp_of_clear hready (by unfold updateCmd; rfl) ?_).trans ?_)
    · refine clear_inSession hsess hpart ?_
      simp [hargs, hzero, hsess, hback, hflight, hdone, hbusy, hheld, hwait, hupd, hbarrier]
    · simp only [taken, stepNow_accepted]
  · refine congrArg Host.Outcome.next ((takeUp_of_clear hready (by unfold closeCmd; rfl) ?_).trans ?_)
    · refine clear_inSession hsess hpart ?_
      simpa [hflight, hupd, hsess, hwait, hwaitB, hbusy] using hplans
    · simp only [taken, stepNow_accepted]
  · have hroom : pruneRoom c (unqueue .maskPrune c s) = [] :=
      pruneRoom_of_roomFor (by rw [roomFor_unqueue, roomFor, halloc])
    have hmode' : arg c 1 / 4 = 0 := by omega
    have hrun := pruneCmd_eq_judge c (unqueue .maskPrune c s)
    rw [hroom, List.append_nil] at hrun
    refine congrArg Host.Outcome.next ((takeUp_of_clear hready hrun ?_).trans ?_)
    · have hdense' : bitOf (arg c 1) 0 = false → headDense s c.part = false := fun h => hdense.resolve_left (by simp [h])
      refine clear_inSession hsess hpart ?_
      simpa [hversion, hmode', hzero, hplan, heldItem_isPrune_eq_false hheld, hsess, hbarriered, Nat.ne_of_gt hlow, hhigh] using hdense'
    · simp only [taken, stepNow_accepted]
  · refine congrArg Host.Outcome.next ((takeUp_of_clear hready (by unfold growCmd; rfl) ?_).trans ?_)
    · refine clear_inSession hsess hpart ?_
      simp only [BitVec.ofNat_eq_ofNat] at hmicro hheld
      simp [-List.getD_eq_getElem?_getD, hversion, hmicro, hmask, hstarted, hheld, hplan, hst, hgrow]
    · simp only [stepNow_accepted]
  · have hmode' : arg c 1 / 2 = 0 := by omega
    refine congrArg Host.Outcome.next ((takeUp_of_clear hready (by unfold barrierCmd; rfl) ?_).trans ?_)
    · refine clear_inSession hsess hpart ?_
      simp only [BitVec.ofNat_eq_ofNat] at hfinite
      simp [-List.getD_eq_getElem?_getD, hversion, hmode', hfinite, hplan, hst, hupdated, hwait, hupd]
    · simp only [stepNow_accepted]
  · refine congrArg Host.Outcome.next ((takeUp_of_clear hready rfl (needSession_clear hsess hpart)).trans ?_)
    simp only [taken, stepNow_accepted]

end Sys2Proof.Machine
end

section
/-! Write-masked registers and the interrupt lines (O29, O30). Each row of a register is one write of source 15 at the register's offset, which
reaches it (`csrWrite_of_source15`). -/

namespace Sys2Proof.Machine

open Sys2Proof.Claims

/-! ### Write-masked registers (R330) -/

/-- A bit whose mask bit is one takes the new value, and any other keeps the old one. -/
theorem getLsbD_maskedWrite {n : Nat} (old : BitVec n) (v : Word) {i : Nat} (hi : i < n) (hn : n ≤ 16) :
    (maskedWrite n old v).getLsbD i = if v.getLsbD (16 + i) then v.getLsbD i else old.getLsbD i := by
  have hlt : i < 16 := by omega
  simp only [maskedWrite, BitVec.getLsbD_or, BitVec.getLsbD_and, BitVec.getLsbD_not, BitVec.getLsbD_setWidth, BitVec.getLsbD_extractLsb', hi, hlt,
    decide_true, Bool.true_and]
  cases v.getLsbD (16 + i) <;> simp

/-- A write with no mask bit changes nothing. -/
theorem maskedWrite_of_no_mask {n : Nat} (old : BitVec n) {v : Word} (h : v.extractLsb' 16 16 = 0) : maskedWrite n old v = old := by
  simp [maskedWrite, h]

theorem getLsbD_mask_of_no_mask {v : Word} (h : v.extractLsb' 16 16 = 0) {i : Nat} (hi : i < 16) : v.getLsbD (16 + i) = false := by
  have hbit : (v.extractLsb' 16 16).getLsbD i = false := by simp [h]
  simpa [BitVec.getLsbD_extractLsb', hi] using hbit

section
variable (v : Word) {s : State} (hrun : s.inReset = false)
include hrun

theorem exec_mgmtParts : exec (.mgmtParts 15 v) s = .next { s with regs := { s.regs with mgmtParts := maskedWrite 12 s.regs.mgmtParts v } } :=
  congrArg Host.Outcome.next (csrWrite_of_source15 0x1004 v hrun)

theorem exec_placeCtl : exec (.placeCtl 15 v) s = .next { s with regs := { s.regs with
    placeHold := (maskedWrite 1 (if s.regs.placeHold then 1#1 else 0#1) v) == 1#1 } } :=
  congrArg Host.Outcome.next (csrWrite_of_source15 0x0030 v hrun)

theorem exec_dbgCtrl : exec (.dbgCtrl 15 v) s = .next (debugWrite 0x004 v s) :=
  congrArg Host.Outcome.next (csrWrite_of_source15 0xF004 v hrun)

end

/-- PLACE_CTL.HOLD takes the new value under its mask bit. -/
theorem placeHold_maskedWrite (b : Bool) (v : Word) :
    (maskedWrite 1 (if b then 1#1 else 0#1) v == 1#1) = if v.getLsbD 16 then v.getLsbD 0 else b := by
  have hbit := getLsbD_maskedWrite (if b then 1#1 else 0#1) v (i := 0) (by decide) (by decide)
  have hone : ∀ x : BitVec 1, (x == 1#1) = x.getLsbD 0 := by decide
  rw [hone, hbit]
  cases b <;> simp

/-- The halt bits after a write of DBG_CTRL (R330, R468). -/
def haltBits (v : Word) (s : State) : BitVec 4 :=
  (s.dbg.halted &&& ~~~(v.extractLsb' 16 4)) ||| (v.setWidth 4 &&& v.extractLsb' 16 4)

/-- The state with the halt bits that a write of DBG_CTRL sets. -/
def halted (v : Word) (s : State) : State := { s with dbg := { s.dbg with halted := haltBits v s } }

theorem getLsbD_haltBits (v : Word) (s : State) {i : Nat} (hi : i < 4) :
    (haltBits v s).getLsbD i = if v.getLsbD (16 + i) then v.getLsbD i else s.dbg.halted.getLsbD i := by
  simp only [haltBits, BitVec.getLsbD_or, BitVec.getLsbD_and, BitVec.getLsbD_not, BitVec.getLsbD_setWidth, BitVec.getLsbD_extractLsb', hi,
    decide_true, Bool.true_and]
  cases v.getLsbD (16 + i) <;> simp

theorem haltBits_of_no_mask {v : Word} (s : State) (h : v.extractLsb' 16 16 = 0) : haltBits v s = s.dbg.halted := by
  ext i hi
  simp only [← BitVec.getLsbD_eq_getElem]
  rw [getLsbD_haltBits v s hi, getLsbD_mask_of_no_mask h (by omega)]
  rfl

/-- Target 0 resumes on a write of its mask bit with a zero (R447, R468). -/
theorem haltWrite_eq_ite (v : Word) (s : State) :
    haltWrite v s = if v.getLsbD 16 = true ∧ v.getLsbD 0 = false then
      (if s.whisk = .loading then debugLoaded (whiskMoves (halted v s))
        else if s.dbg.halted.getLsbD 0 then eociaGoesOn (whiskMoves (halted v s)) else halted v s)
      else halted v s := by
  have hcond : ((v.extractLsb' 16 4).getLsbD 0 && !((v.setWidth 4).getLsbD 0)) = true ↔ v.getLsbD 16 = true ∧ v.getLsbD 0 = false := by
    simp
  unfold haltWrite
  dsimp only
  by_cases h : v.getLsbD 16 = true ∧ v.getLsbD 0 = false
  · rw [if_pos (hcond.2 h), if_pos h]
    rfl
  · rw [if_neg (fun hc => h (hcond.1 hc)), if_neg h]
    rfl

theorem debugWrite_dbgCtrl {v : Word} {s : State} (hopen : debugOpen s = true) : debugWrite 0x004 v s = haltWrite v s := by
  rw [debugWrite, hopen]
  rfl

theorem debugWrite_of_closed {off : Nat} {v : Word} {s : State} (h : debugOpen s = false) : debugWrite off v s = s := by
  rw [debugWrite, h]
  rfl

/-- The registers of R330 hold no field above bit 15. -/
theorem extractLsb'_setWidth_of_le {n : Nat} (x : BitVec n) (hn : n ≤ 16) : (x.setWidth 32).extractLsb' 16 16 = 0 := by
  ext i hi
  simp [BitVec.getElem_extractLsb', BitVec.getLsbD_of_ge x (16 + i) (by omega)]

theorem extractLsb'_csrRead_masked {s : State} {o : Nat} (h : o = 0x1004 ∨ o = 0x0030 ∨ o = 0xF004) :
    (csrRead s o).extractLsb' 16 16 = 0 := by
  rcases h with rfl | rfl | rfl
  · exact extractLsb'_setWidth_of_le s.regs.mgmtParts (by decide)
  · change (BitVec.ofNat 32 (b01 s.regs.placeHold)).extractLsb' 16 16 = 0
    cases s.regs.placeHold <;> rfl
  · change (debugReg s 0x004).extractLsb' 16 16 = 0
    cases hopen : debugOpen s with
    | false => simp [debugReg, hopen]
    | true =>
      have hreg : debugReg s 0x004 = s.dbg.halted.setWidth 32 := by rw [debugReg, hopen]; rfl
      rw [hreg]
      exact extractLsb'_setWidth_of_le _ (by decide)

/-- Settles O29. That what the debug port wrote into Whisk's state holds no longer once Whisk executes is log entry 13, the image of a debug load log
entry 120. -/
theorem maskedRegisterWrites : Obligations.MaskedRegisterWrites := by
  intro v s hrun
  have hdbg := exec_dbgCtrl v hrun
  refine ⟨fun o => extractLsb'_csrRead_masked, ⟨_, exec_mgmtParts v hrun, rfl, fun i hi => getLsbD_maskedWrite _ v hi (by decide)⟩,
    ⟨_, exec_placeCtl v hrun, rfl, placeHold_maskedWrite _ v⟩, fun hnone => ⟨?_, ?_, ?_⟩,
    fun hopen => ⟨halted v s, rfl, fun i => getLsbD_haltBits v s, ?_⟩⟩
  · rw [exec_mgmtParts v hrun, maskedWrite_of_no_mask _ hnone]
  · rw [exec_placeCtl v hrun, placeHold_maskedWrite, getLsbD_mask_of_no_mask hnone (i := 0) (by decide)]
    rfl
  · rw [hdbg]
    cases hopen : debugOpen s with
    | false => rw [debugWrite_of_closed hopen]
    | true =>
      rw [debugWrite_dbgCtrl hopen, haltWrite_eq_ite, getLsbD_mask_of_no_mask hnone (i := 0) (by decide), if_neg (by simp), halted,
        haltBits_of_no_mask s hnone]
  · rw [hdbg, debugWrite_dbgCtrl hopen, haltWrite_eq_ite]

/-! ### Interrupt lines (R335) -/

theorem irqAlarm_eq_and (s : State) : irqAlarm s = (s.regs.irqStatus.getLsbD 0 && s.regs.irqEn.getLsbD 0) := BitVec.getLsbD_and ..

theorem irqGroup_iff (s : State) :
    irqGroup s = true ↔ ∃ i, 1 ≤ i ∧ i ≤ 4 ∧ s.regs.irqStatus.getLsbD i = true ∧ s.regs.irqEn.getLsbD i = true := by
  have hbits : ∀ x : BitVec 5, x &&& 0b11110#5 ≠ 0 ↔ ∃ i, 1 ≤ i ∧ i ≤ 4 ∧ x.getLsbD i = true := by
    intro x
    have hsome : x &&& 0b11110#5 ≠ 0 ↔ x.getLsbD 1 = true ∨ x.getLsbD 2 = true ∨ x.getLsbD 3 = true ∨ x.getLsbD 4 = true := by
      revert x; decide
    rw [hsome]
    constructor
    · rintro (h | h | h | h)
      · exact ⟨1, by decide, by decide, h⟩
      · exact ⟨2, by decide, by decide, h⟩
      · exact ⟨3, by decide, by decide, h⟩
      · exact ⟨4, by decide, by decide, h⟩
    · rintro ⟨i, hlow, hhigh, h⟩
      obtain rfl | rfl | rfl | rfl : i = 1 ∨ i = 2 ∨ i = 3 ∨ i = 4 := by omega
      · exact .inl h
      · exact .inr (.inl h)
      · exact .inr (.inr (.inl h))
      · exact .inr (.inr (.inr h))
  rw [irqGroup, decide_eq_true_iff, hbits]
  simp only [BitVec.getLsbD_and, Bool.and_eq_true]

/-- Settles O30: both lines are read off the two registers, so a write of the enables changes them at once. -/
theorem interruptLines : Obligations.InterruptLines := by
  refine ⟨irqAlarm_eq_and, irqGroup_iff, fun v s hrun => ?_⟩
  obtain ⟨-, -, hen, -, -⟩ := globalRegisterWrites v s hrun
  have hbit : ∀ i, i ≤ 4 → (v.setWidth 5).getLsbD i = v.getLsbD i := fun i hi => by simp [BitVec.getLsbD_setWidth]; omega
  refine ⟨_, hen, fun hst hv => ?_, fun i hlow hhigh hst hv => ?_⟩
  · rw [irqAlarm_eq_and]
    simp only [hst, hbit 0 (by decide), hv, Bool.and_self]
  · exact (irqGroup_iff _).2 ⟨i, hlow, hhigh, hst, (hbit i hhigh).trans hv⟩

end Sys2Proof.Machine
end

section
/-! Registers whose write acts: the clock ceiling, thaws, the kill, the log ring (O31 to O34), the rights of a source (O35). -/

namespace Sys2Proof.Machine

open Sys2Proof.Claims

/-! ### Pairs set one after the other (R336, R443, R444) -/

/-- What setting the pairs of a list leaves: the frequency of each of them goes by a rule `g`, every other is as it was, and nothing changes but the
pairs and the trace. -/
structure PairsSet (g : Nat → Nat) (l : List Nat) (s t : State) : Prop where
  length_eq : t.power.pairs.length = s.power.pairs.length
  mhz_eq : ∀ (p : Nat) (x y : Pair), s.power.pairs[p]? = some x → t.power.pairs[p]? = some y → y.mhz = if p ∈ l then g x.mhz else x.mhz
  frame : t = { s with power := { s.power with pairs := t.power.pairs }, tele := t.tele, cnt := t.cnt }

theorem PairsSet.ceiling_eq {g : Nat → Nat} {l : List Nat} {s t : State} (h : PairsSet g l s t) : ceiling t = ceiling s := by
  rw [h.frame]
  rfl

/-- A pair set to a frequency, with the code for it and no raise under way. -/
def pairAt (mhz : Nat) (s : State) (x : Pair) : Pair := { x with mhz := mhz, code := vcode s mhz, waitVack := false }

theorem setPair_frame (p mhz : Nat) (s : State) : setPair p mhz s = { s with
    power := { s.power with pairs := updAt s.power.pairs p (pairAt mhz s) }, tele := (setPair p mhz s).tele, cnt := (setPair p mhz s).cnt } :=
  trace_shape ..

theorem setPair_pairs (p mhz : Nat) (s : State) : (setPair p mhz s).power.pairs = updAt s.power.pairs p (pairAt mhz s) := by
  rw [setPair_frame]

theorem pairsSet_nil (g : Nat → Nat) (s : State) : PairsSet g [] s s :=
  ⟨rfl, fun p x y hx hy => by simp [Option.some.inj (hx.symm.trans hy)], rfl⟩

theorem pairsSet_same {g : Nat → Nat} {p : Nat} {s : State} (h : ∀ x, s.power.pairs[p]? = some x → g x.mhz = x.mhz) : PairsSet g [p] s s := by
  refine ⟨rfl, fun q x y hx hy => ?_, rfl⟩
  cases hx.symm.trans hy
  by_cases hq : q = p
  · subst hq
    simp [h x hx]
  · simp [hq]

theorem pairsSet_setPair {g : Nat → Nat} {p mhz : Nat} {s : State} (h : ∀ x, s.power.pairs[p]? = some x → g x.mhz = mhz) :
    PairsSet g [p] s (setPair p mhz s) := by
  refine ⟨by simp [setPair_pairs, updAt], fun q x y hx hy => ?_, by rw [setPair_frame]⟩
  rw [setPair_pairs, updAt, List.getElem?_modify, hx] at hy
  have hy' := Option.some.inj hy
  by_cases hq : p = q
  · subst hq
    simp only [if_true] at hy'
    simp [← hy', h x hx, pairAt]
  · simp only [if_neg hq] at hy'
    simp [← hy', Ne.symm hq]

theorem PairsSet.trans {g : Nat → Nat} (hg : ∀ n, g (g n) = g n) {l m : List Nat} {s t u : State} (h : PairsSet g l s t)
    (h' : PairsSet g m t u) : PairsSet g (l ++ m) s u := by
  refine ⟨h'.length_eq.trans h.length_eq, fun p x z hx hz => ?_, ?_⟩
  · obtain ⟨y, hy⟩ : ∃ y, t.power.pairs[p]? = some y :=
      ⟨_, List.getElem?_eq_getElem (h.length_eq ▸ (List.getElem?_eq_some_iff.1 hx).1)⟩
    rw [h'.mhz_eq p y z hy hz, h.mhz_eq p x y hx hy]
    by_cases hl : p ∈ l <;> by_cases hm : p ∈ m <;> simp [hl, hm, hg]
  · rw [h'.frame, h.frame]

/-- Pairs set one after the other, by a step that may look at the ceiling. -/
theorem pairsSet_foldl {g : Nat → Nat} {f : State → Nat → State} {c : Nat} (hg : ∀ n, g (g n) = g n)
    (hone : ∀ t p, ceiling t = c → PairsSet g [p] t (f t p)) (l : List Nat) {s : State} (hs : ceiling s = c) :
    PairsSet g l s (l.foldl f s) := by
  induction l generalizing s with
  | nil => exact pairsSet_nil g s
  | cons p l ih =>
    have hp := hone s p hs
    exact hp.trans hg (ih (hp.ceiling_eq.trans hs))

/-- The pair of a place that has one. -/
theorem getD_pairs {p : Nat} {x : Pair} {s : State} (h : s.power.pairs[p]? = some x) (d : Pair) : s.power.pairs.getD p d = x := by
  rw [List.getD_eq_getElem?_getD, h]
  rfl

/-! ### The clock ceiling (R336) -/

/-- One pan pair lowered to the ceiling. -/
def lowerPair (s : State) (p : Nat) : State :=
  if (s.power.pairs.getD p ⟨0, 0, false, 0⟩).mhz > ceiling s then setPair p (ceiling s) s else s

theorem pairsSet_lowerPair {c p : Nat} {s : State} (hs : ceiling s = c) : PairsSet (min · c) [p] s (lowerPair s p) := by
  subst hs
  unfold lowerPair
  split
  · next habove =>
    refine pairsSet_setPair fun x hx => ?_
    rw [getD_pairs hx] at habove
    exact Nat.min_eq_right (Nat.le_of_lt habove)
  · next hbelow =>
    refine pairsSet_same fun x hx => ?_
    rw [getD_pairs hx] at hbelow
    exact Nat.min_eq_left (Nat.not_lt.1 hbelow)

theorem exec_aclkCeil {v : Word} {s : State} (hrun : s.inReset = false) : exec (.aclkCeil 15 v) s = .next (ceilWrite v s) :=
  congrArg Host.Outcome.next (csrWrite_of_source15 0x0040 v hrun)

/-- Settles O31: lowering a pair keeps the ceiling, so the pairs are lowered one after the other (`pairsSet_foldl`). -/
theorem clockCeilingWrites : Obligations.ClockCeilingWrites := by
  intro v s hrun
  let r : State := { s with regs := { s.regs with aclkCeil := clampCeiling (v.setWidth 10).toNat } }
  have hlow : PairsSet (min · (ceiling r)) (List.range s.power.pairs.length) r (ceilWrite v s) :=
    pairsSet_foldl (by simp) (fun _ _ => pairsSet_lowerPair) _ rfl
  have hceil : (ceilWrite v s).regs.aclkCeil = clampCeiling (v.setWidth 10).toNat := by rw [hlow.frame]
  refine ⟨_, exec_aclkCeil hrun, ?_, hlow.length_eq, fun p x y hx hy => ?_, ?_⟩
  · rw [hceil, BitVec.toNat_setWidth]
    rfl
  · have hmem : p ∈ List.range s.power.pairs.length := List.mem_range.2 (List.getElem?_eq_some_iff.1 hx).1
    rw [hlow.mhz_eq p x y hx hy, if_pos hmem, hlow.ceiling_eq]
  · rw [hlow.frame]

/-! ### Thaws (R337, R363, R407) -/

theorem exec_thawMaster {v : Word} {s : State} (hrun : s.inReset = false) : exec (.thawMaster 15 v) s = .next (thawWrite v s) :=
  congrArg Host.Outcome.next (csrWrite_of_source15 0x0024 v hrun)

theorem toNat_thawCode (v : Word) : (v.setWidth 5).toNat = v.toNat % 32 := BitVec.toNat_setWidth ..

theorem thawWrite_part {v : Word} {s : State} (h : v.toNat % 32 < 12) :
    thawWrite v s = if partFrozen s (v.toNat % 32) && !(scrubbing s (v.toNat % 32)) then
      thawPart (v.toNat % 32) (log 0x07 (v.toNat % 32) (BitVec.ofNat 64 (v.toNat % 32)) s) else s := by
  unfold thawWrite
  simp only [toNat_thawCode, h, if_true]

theorem thawWrite_hip {v : Word} {s : State} (h : v.toNat % 32 = 16) :
    thawWrite v s = if s.regs.frozenHip then thawHip (log 0x07 0 16#64 s) else s := by
  unfold thawWrite
  simp only [toNat_thawCode, h]
  rfl

theorem thawWrite_hmp {v : Word} {s : State} (h : v.toNat % 32 = 17) :
    thawWrite v s = if s.regs.frozenHmp then thawHmp (log 0x07 0 17#64 s) else s := by
  unfold thawWrite
  simp only [toNat_thawCode, h]
  rfl

theorem thawWrite_gbp {v : Word} {s : State} (h : v.toNat % 32 = 18) :
    thawWrite v s = if s.regs.frozenGbp then thawGbp (log 0x07 0 18#64 s) else s := by
  unfold thawWrite
  simp only [toNat_thawCode, h]
  rfl

/-- A code of no master. -/
theorem thawWrite_none {v : Word} {s : State} (hpart : 12 ≤ v.toNat % 32) (hhip : v.toNat % 32 ≠ 16) (hhmp : v.toNat % 32 ≠ 17)
    (hgbp : v.toNat % 32 ≠ 18) : thawWrite v s = s := by
  unfold thawWrite
  simp only [toNat_thawCode, if_neg (Nat.not_lt.2 hpart), hhip, hhmp, hgbp, if_false]

/-- Settles O32, by the named master. That PART of the THAW record is the thawed partition, and 0 for a port, is log entry 118. -/
theorem thawsTakeEffect : Obligations.ThawsTakeEffect := by
  intro v s hrun
  dsimp only
  simp only [exec_thawMaster hrun, Host.Outcome.next.injEq]
  refine ⟨fun hc hfrozen hscrub => ?_, fun hc hnot => ?_, fun hc hfrozen => ?_, fun hc hfrozen => ?_, fun hc hfrozen => ?_,
    fun hc hfrozen => ?_, fun hc hfrozen => ?_, fun hc hfrozen => ?_, thawWrite_none⟩
  · rw [thawWrite_part hc, if_pos]
    simp only [partFrozen, scrubbing, hc, hfrozen, hscrub, decide_true, Bool.and_self, Bool.and_false, Bool.not_false]
  · rw [thawWrite_part hc, if_neg]
    rcases hnot with h | h <;> simp only [partFrozen, scrubbing, hc, h] <;> simp
  · rw [thawWrite_hip hc, if_pos hfrozen]
  · rw [thawWrite_hmp hc, if_pos hfrozen]
  · rw [thawWrite_gbp hc, if_pos hfrozen]
  · rw [thawWrite_hip hc, hfrozen]
    rfl
  · rw [thawWrite_hmp hc, hfrozen]
    rfl
  · rw [thawWrite_gbp hc, hfrozen]
    rfl

/-! ### The kill (R339, R394, R395) -/

theorem exec_partKill {src : BitVec 4} {v : Word} {s : State} (hrun : s.inReset = false)
    (hsrc : src = 15 ∨ (src.toNat < 12 ∧ src.toNat = v.toNat % 16)) : exec (.partKill src v) s = .next (killWrite v s) := by
  have hallowed : csrAllowed src.toNat 0x1008 true v = true := by
    rcases hsrc with rfl | ⟨hlt, heq⟩
    · rfl
    · have hpart : (v.setWidth 4).toNat = src.toNat := by rw [BitVec.toNat_setWidth, heq]
      have hbank : bankOfCsr 0x1008 = 1 := rfl
      have hdec : decoded 0x1008 = 0x008 := rfl
      unfold csrAllowed
      simp [hbank, hdec, hpart, Nat.not_le.2 hlt]
  change Host.Outcome.next (csrWrite src 0x1008 v s) = _
  rw [csrWrite, hrun, hallowed]
  rfl

theorem startKill_of_idle {p : Nat} {s : State} (hp : p < 12) (hscrub : scrubbing s p = false) :
    startKill p s = applyKill p (announceOut (stepNow s) (.kill p) s) := by
  rw [startKill, if_neg (by simp [hscrub, hp])]

theorem startKill_of_refused {p : Nat} {s : State} (h : 11 < p ∨ scrubbing s p = true) : startKill p s = s := by
  rw [startKill, if_pos]
  rcases h with h | h
  · simp [show p ≥ 12 from h]
  · simp [h]

/-- Settles O33, by the confirm word and `startKill`'s guard. -/
theorem partKillNeedsItsConfirm : Obligations.PartKillNeedsItsConfirm := by
  intro src v s hrun hsrc
  have hpart : (v.setWidth 4).toNat = v.toNat % 16 := BitVec.toNat_setWidth ..
  simp only [exec_partKill hrun hsrc, Host.Outcome.next.injEq, killWrite, hpart]
  refine ⟨fun hnot => ?_, fun hp hconfirm hscrub => ?_⟩
  · split
    · next hconfirm =>
      obtain h | h | h := hnot
      · exact startKill_of_refused (.inl h)
      · exact absurd hconfirm h
      · exact startKill_of_refused (.inr h)
    · rfl
  · rw [if_pos hconfirm, startKill_of_idle hp hscrub]

/-! ### The log ring (R332, R343) -/

theorem logBaseWrite_logBase (v : Word) (s : State) : (logBaseWrite v s).regs.logBase = v ++ s.regs.logBaseLo := by
  unfold logBaseWrite
  dsimp only
  split <;> rfl

theorem logBaseWrite_restarts {v : Word} {s : State} (h : s.regs.logEn = true) :
    (logBaseWrite v s).tele.logProd = 0 ∧ (logBaseWrite v s).tele.logCons = 0 := by
  unfold logBaseWrite
  dsimp only
  rw [if_pos h]
  exact ⟨rfl, rfl⟩

theorem logBaseWrite_frame (v : Word) (s : State) : logBaseWrite v s = { s with
    regs := { s.regs with logBase := (logBaseWrite v s).regs.logBase }
    tele := { s.tele with logProd := (logBaseWrite v s).tele.logProd, logCons := (logBaseWrite v s).tele.logCons } } := by
  unfold logBaseWrite
  dsimp only
  split <;> rfl

/-- Settles O34. That a write of LOG_CFG starts the ring anew and lets stopped log writes go on is log entries 49 and 117. -/
theorem logRingRegisters : Obligations.LogRingRegisters := by
  intro v s hrun
  refine ⟨⟨_, congrArg Host.Outcome.next (csrWrite_of_source15 0xE204 v hrun), ?_⟩,
    ⟨_, congrArg Host.Outcome.next (csrWrite_of_source15 0xE208 v hrun), rfl, ?_, rfl, rfl, rfl⟩⟩
  · exact ⟨logBaseWrite_logBase v s, logBaseWrite_restarts, logBaseWrite_frame v s⟩
  · change (v.getLsbD 0 && decide (6 ≤ (v.extractLsb' 1 5).toNat) && decide ((v.extractLsb' 1 5).toNat ≤ 20)) = true ↔ _
    simp only [Bool.and_eq_true, decide_eq_true_eq, and_assoc]

/-! ### The rights of a source (R328, R393, R438) -/

/-- Settles O35, by the branches of the port. That PART of the CSR_DENIED record is 0 is log entry 118. -/
theorem registerWritesAreChecked : Obligations.RegisterWritesAreChecked := by
  intro src off v s
  refine ⟨fun hreset => ?_, fun hrun hallowed => ?_, fun hrun hdenied => ?_, fun h => ?_, fun hlow hother => ?_, fun hlow hbank hbank' => ?_⟩
  · exact congrArg Host.Outcome.next (if_pos hreset)
  · refine congrArg Host.Outcome.next ?_
    rw [csrWrite, hrun, hallowed]
    rfl
  · refine congrArg Host.Outcome.next ?_
    rw [csrWrite, hrun, hdenied]
    rfl
  · rw [h]
    rfl
  · have hne : src.toNat ≠ 15 := fun h => hother (BitVec.eq_of_toNat_eq h)
    unfold csrAllowed
    simp [hne, hlow]
  · have hne : src.toNat ≠ 15 := by omega
    unfold csrAllowed bankOfCsr
    rw [if_neg hne, if_neg (by omega), if_neg (by simp; omega), if_neg (by omega)]
    rw [Bool.eq_iff_iff]
    simp

end Sys2Proof.Machine
end

section
/-! The debug unit (O36 to O39): bank 15 while open and while closed, the bytes that the port writes, the TAP and the fuses. -/

namespace Sys2Proof.Machine

open Sys2Proof.Claims

/-! ### Bytes written over the debug port (R464) -/

theorem find?_cellInsert (a b : Nat) (v : Byte) (m : List Host.Cell) :
    (cellInsert (a, v) m).find? (fun c => c.1 == b) = if b = a then some (a, v) else m.find? fun c => c.1 == b := by
  induction m with
  | nil => by_cases h : b = a <;> simp [cellInsert, h, Ne.symm]
  | cons d m ih =>
    unfold cellInsert
    by_cases hb : b = a
    · subst hb
      split
      · simp
      · split
        · simp
        · next hne => simpa [Ne.symm hne] using ih
    · split
      · simp [Ne.symm hb]
      · split
        · next heq => simp [Ne.symm hb, ← heq]
        · simp only [List.find?_cons, ih, if_neg hb]

theorem find?_cellDrop_same (a : Nat) (m : List Host.Cell) : (cellDrop (· == a) m).find? (fun c => c.1 == a) = none := by
  simp [cellDrop]

theorem find?_cellDrop_other {a b : Nat} (h : b ≠ a) (m : List Host.Cell) :
    (cellDrop (· == a) m).find? (fun c => c.1 == b) = m.find? fun c => c.1 == b := by
  rw [cellDrop, List.find?_filter]
  congr 1
  funext c
  by_cases hc : c.1 = b <;> simp [hc, h]

/-- A byte written is the byte at its address, and no other changes. -/
theorem cellAt_cellPut (a b : Nat) (v : Byte) (m : List Host.Cell) : cellAt (cellPut a v m) b = if b = a then some v else cellAt m b := by
  unfold cellPut cellAt
  by_cases hfree : unlisted a = some v
  · rw [if_pos hfree]
    by_cases hb : b = a
    · rw [hb, find?_cellDrop_same, if_pos rfl]
      exact hfree
    · rw [find?_cellDrop_other hb, if_neg hb]
  · rw [if_neg hfree, find?_cellInsert]
    by_cases hb : b = a
    · rw [if_pos hb, if_pos hb]
    · rw [if_neg hb, if_neg hb]

/-- Bytes written stand at their addresses, and no other byte changes. -/
theorem cellAt_cellsPut (l : Bytes) (a b : Nat) (m : List Host.Cell) :
    cellAt (cellsPut a l m) b = if a ≤ b ∧ b < a + l.length then l[b - a]? else cellAt m b := by
  induction l generalizing a m with
  | nil => exact (if_neg (by simp)).symm
  | cons v l ih =>
    rw [cellsPut, ih, cellAt_cellPut]
    by_cases hb : b = a
    · subst hb
      rw [if_neg (by omega), if_pos rfl, if_pos (by simp), Nat.sub_self, List.getElem?_cons_zero]
    · by_cases hin : a + 1 ≤ b ∧ b < a + 1 + l.length
      · rw [if_pos hin, if_pos (by simp; omega), show b - a = (b - (a + 1)) + 1 by omega, List.getElem?_cons_succ]
      · rw [if_neg hin, if_neg hb, if_neg (by simp; omega)]

theorem leNat_leBytes (n v : Nat) : leNat (leBytes n v) = v % 256 ^ n := by
  induction n generalizing v with
  | zero => simp [leBytes, leNat, Nat.mod_one]
  | succ n ih => rw [leBytes, leNat, ih, BitVec.toNat_ofNat, show 256 ^ (n + 1) = 256 * 256 ^ n from Nat.pow_succ', Nat.mod_mul]

theorem length_leBytes (n v : Nat) : (leBytes n v).length = n := by
  induction n generalizing v with
  | zero => rfl
  | succ n ih => rw [leBytes, List.length_cons, ih]

theorem wordAt_leBytes (v : Word) : wordAt (leBytes 4 v.toNat) 0 = v := by
  have hsub : sub (leBytes 4 v.toNat) 0 4 = leBytes 4 v.toNat := rfl
  rw [wordAt, leAt, hsub, leNat_leBytes]
  exact BitVec.eq_of_toNat_eq (by simp; omega)

/-- Settles O37: the word written is the one `cellWord` reads, whether its bytes are listed or read so unlisted. That the port's own bytes are
kept and read back is log entry 13. -/
theorem debugWordReadsBack : Obligations.DebugWordReadsBack := by
  intro a v s hwf halign
  have hcell : ∀ i, i < 4 → cellAt (putWord a v s).dbg.mem (a + i) = (leBytes 4 v.toNat)[i]? := by
    intro i hi
    change cellAt (cellsPut a _ _) _ = _
    rw [cellAt_cellsPut, length_leBytes, if_pos (by omega), Nat.add_sub_cancel_left]
  refine ⟨wf_cellsPut _ _ _ hwf, ?_, fun b hb => ?_, rfl⟩
  · have h0 := hcell 0 (by decide)
    rw [Nat.add_zero] at h0
    rw [cellWord, h0, hcell 1 (by decide), hcell 2 (by decide), hcell 3 (by decide)]
    exact congrArg some (wordAt_leBytes v)
  · change cellAt (cellsPut a _ _) _ = _
    rw [cellAt_cellsPut, length_leBytes, if_neg (by omega)]

/-! ### Bank 15 (R332, R333, R344, R464, R468) -/

section
variable {v : Word} {s : State} (hopen : debugOpen s = true)
include hopen

theorem debugWrite_dbgStep : debugWrite 0x008 v s = stepWrite v s := by
  rw [debugWrite, hopen]
  rfl

theorem debugWrite_dbgBp {n : Nat} (hn : n < 4) : debugWrite (0x014 + 8 * n) v s = breakWrite n v s := by
  have hslot : (0x014 + 8 * n - 0x010) / 8 = n := by omega
  unfold debugWrite
  rw [hopen, if_neg (by simp), if_neg (by omega), if_neg (by omega), if_pos (by simp; omega), if_neg (by omega), hslot]

theorem debugWrite_dbgMemAddr :
    debugWrite 0x034 v s = { s with dbg := { s.dbg with memAddr := v ++ s.dbg.memAddrLo } } := by
  rw [debugWrite, hopen]
  rfl

theorem debugWrite_dbgMemData : debugWrite 0x038 v s = memWrite v s := by
  rw [debugWrite, hopen]
  rfl

theorem debugRead_dbgMemData : debugRead 0x038 s = memRead s := by
  rw [debugRead, hopen]
  rfl

end

theorem debugRead_of_ne {off : Nat} {s : State} (hoff : off ≠ 0x038) : debugRead off s = (debugReg s off, s) := by
  rw [debugRead, if_neg (by simp [hoff])]

theorem debugReg_of_closed {s : State} (h : debugOpen s = false) (off : Nat) : debugReg s off = 0 := by
  rw [debugReg, h]
  rfl

theorem debugRead_of_closed {s : State} (h : debugOpen s = false) (off : Nat) : debugRead off s = (0, s) := by
  rw [debugRead, if_neg (by simp [h]), debugReg_of_closed h]

theorem stepWrite_eq_ite (v : Word) (s : State) :
    stepWrite v s = if v.toNat % 4 = 0 ∧ s.dbg.halted.getLsbD 0 = true then whiskMoves s else s := by
  have htarget : (v.setWidth 2).toNat = v.toNat % 4 := BitVec.toNat_setWidth ..
  simp only [stepWrite, htarget, Bool.and_eq_true, decide_eq_true_eq]

section
variable (v : Word) {s : State} (hrun : s.inReset = false)
include hrun

theorem exec_dbgStep : exec (.dbgStep 15 v) s = .next (debugWrite 0x008 v s) :=
  congrArg Host.Outcome.next (csrWrite_of_source15 0xF008 v hrun)

theorem exec_dbgBp {n : Nat} (hn : n < 4) : exec (.dbgBp 15 n v) s = .next (debugWrite (0x014 + 8 * n) v s) := by
  have hbank : bankOfCsr (0xF014 + 8 * n) = 15 := by unfold bankOfCsr; omega
  have hdec : decoded (0xF014 + 8 * n) = 0x014 + 8 * n := by
    have hsize : bankSize 15 = 0x1000 := rfl
    rw [decoded, hbank, hsize]
    omega
  change Host.Outcome.next (if n < 4 then csrWrite 15 (0xF014 + 8 * n) v s else s) = _
  rw [if_pos hn, csrWrite_of_source15 _ v hrun, csrPut, hbank, hdec]
  rfl

theorem exec_dbgMemAddr : exec (.dbgMemAddr 15 v) s = .next (debugWrite 0x034 v s) :=
  congrArg Host.Outcome.next (csrWrite_of_source15 0xF034 v hrun)

theorem exec_dbgMemData_write : exec (.dbgMemData 15 true v) s = .next (debugWrite 0x038 v s) :=
  congrArg Host.Outcome.next (csrWrite_of_source15 0xF038 v hrun)

theorem exec_dbgMemData_read : exec (.dbgMemData 15 false v) s = .next { (debugRead 0x038 s).2 with
    dbg := { (debugRead 0x038 s).2.dbg with rdata := (debugRead 0x038 s).1 } } := by
  change Host.Outcome.next (csrMemRead 15 s) = _
  rw [csrMemRead, hrun]
  rfl

end

/-- A write of the debug port leaves the address to `advance`. -/
theorem debugStore_memAddr (a : Nat) (v : Word) (s : State) : (debugStore a v s).2.dbg.memAddr = s.dbg.memAddr := by
  cases hregion : regionOf s a with
  | code off => simp only [debugStore, hregion]; split <;> rfl
  | whisk off =>
    simp only [debugStore, hregion]
    split
    · rfl
    · dsimp only
      split <;> rfl
  | sequencer t => simp only [debugStore, hregion]
  | thresh n => simp only [debugStore, hregion]
  | perf off => simp only [debugStore, hregion]
  | pot bank off => simp only [debugStore, hregion]; split <;> rfl
  | ramekin pan => simp only [debugStore, hregion]
  | unmapped => simp only [debugStore, hregion]

theorem latched_memAddr (a : Nat) (lo hi : Word) (s : State) : (latched a lo hi s).2.2.dbg.memAddr = s.dbg.memAddr := by
  unfold latched
  split
  · rfl
  · split
    · split <;> rfl
    · rfl

/-- A read of the debug port leaves the address to `advance`. -/
theorem debugFetch_memAddr (a : Nat) (s : State) : (debugFetch a s).2.2.dbg.memAddr = s.dbg.memAddr := by
  cases hregion : regionOf s a with
  | code off => simp only [debugFetch, hregion]; split <;> rfl
  | whisk off =>
    simp only [debugFetch, hregion]
    split
    · rfl
    · exact latched_memAddr ..
  | sequencer t => simp only [debugFetch, hregion]; split <;> rfl
  | thresh n => simp only [debugFetch, hregion]
  | perf off => simp only [debugFetch, hregion]; exact latched_memAddr ..
  | pot bank off =>
    simp only [debugFetch, hregion]
    split
    · rfl
    · split <;> rfl
    · rfl
  | ramekin pan => simp only [debugFetch, hregion]; rfl
  | unmapped => simp only [debugFetch, hregion]

/-- A word stored in a free scratch block (Table 22.7). -/
theorem debugStore_of_free {a b o : Nat} {v : Word} {s : State} (hregion : regionOf s a = .pot b o) (hfree : blockAt s b o = some .free) :
    debugStore a v s = (0, putWord a v s) := by
  simp only [debugStore, hregion, hfree]

/-- Settles O36. The kept bytes, `whiskMoves` and steps of the targets 1 to 3 that do nothing are log entry 13; a breakpoint that takes effect with
the EN bit of its high half is log entry 114. -/
theorem debugRegistersAct : Obligations.DebugRegistersAct := by
  intro v s hrun
  refine ⟨fun hopen => ⟨fun htarget hhalted => ?_, fun hnot => ?_, fun n hn => ?_, ?_, ?_, ?_⟩,
    fun hclosed => ⟨?_, ?_, fun n hn => ?_, ?_, ?_, ?_, ?_⟩⟩
  · rw [exec_dbgStep v hrun, debugWrite_dbgStep hopen, stepWrite_eq_ite, if_pos ⟨htarget, hhalted⟩]
  · rw [exec_dbgStep v hrun, debugWrite_dbgStep hopen, stepWrite_eq_ite, if_neg]
    rintro ⟨htarget, hhalted⟩
    rcases hnot with h | h
    · exact h htarget
    · exact Bool.false_ne_true (h.symm.trans hhalted)
  · rw [exec_dbgBp v hrun hn, debugWrite_dbgBp hopen hn]
    rfl
  · rw [exec_dbgMemAddr v hrun, debugWrite_dbgMemAddr hopen]
  · refine ⟨memWrite v s, ?_, congrArg (· + 4) (debugStore_memAddr (memAt s) v s), rfl, rfl, rfl, fun b o hregion hfree => ?_⟩
    · rw [exec_dbgMemData_write v hrun, debugWrite_dbgMemData hopen]
    · have hstore : debugStore (memAt s) v s = (0, putWord (memAt s) v s) := debugStore_of_free hregion hfree
      rw [memWrite, hstore]
      exact ⟨rfl, rfl⟩
  · refine ⟨_, exec_dbgMemData_read v hrun, ?_⟩
    rw [debugRead_dbgMemData hopen]
    exact ⟨congrArg (· + 4) (debugFetch_memAddr (memAt s) s), rfl, rfl⟩
  · rw [exec_dbgCtrl v hrun, debugWrite_of_closed hclosed]
  · rw [exec_dbgStep v hrun, debugWrite_of_closed hclosed]
  · rw [exec_dbgBp v hrun hn, debugWrite_of_closed hclosed]
  · rw [exec_dbgMemAddr v hrun, debugWrite_of_closed hclosed]
  · rw [exec_dbgMemData_write v hrun, debugWrite_of_closed hclosed]
  · rw [exec_dbgMemData_read v hrun, debugRead_of_closed hclosed]
  · exact debugReg_of_closed hclosed

/-! ### The TAP (R466 to R468) -/

/-- One access in bank 15 through DBG_REG, with what its capture holds. -/
theorem tapAccess_eq {write : Bool} {off : Nat} {v : Word} {s : State} {r : Word × State}
    (h : (if write then (0, debugWrite off v s) else debugRead off s) = r) : tapAccess write off v s =
    { r.2 with dbg := { r.2.dbg with
      tapIr := 0x02, tapData := r.1, tapDone := true, tapDenied := !(debugOpen s)
      tapDr := lowBits 46 (r.1.toNat + 2 ^ 32 + b01 (!(debugOpen s)) * 2 ^ 33) } } := by
  subst h
  simp only [tapAccess, debugCapture, b01, if_true, Nat.one_mul]

theorem tapAccess_of_closed {write : Bool} {off : Nat} {v : Word} {s : State} (h : debugOpen s = false) : tapAccess write off v s =
    { s with dbg := { s.dbg with tapIr := 0x02, tapData := 0, tapDone := true, tapDenied := true, tapDr := lowBits 46 (2 ^ 32 + 2 ^ 33) } } := by
  have hr : (if write then (0, debugWrite off v s) else debugRead off s) = (0, s) := by
    rw [debugWrite_of_closed h, debugRead_of_closed h, ite_self]
  rw [tapAccess_eq hr, h]
  simp only [b01, Bool.not_false, if_true, Nat.one_mul, BitVec.ofNat_eq_ofNat, BitVec.toNat_zero, Nat.zero_add]

/-- A bit of IDCODE, by the field that holds it. -/
theorem getLsbD_idcode (i : Nat) : idcode.getLsbD i =
    if i < 1 then (1#1).getLsbD i else if i - 1 < 11 then Config.manufacturer.getLsbD (i - 1)
      else if i - 1 - 11 < 16 then (0x4B32#16).getLsbD (i - 1 - 11) else (0x3#4).getLsbD (i - 1 - 11 - 16) := by
  simp only [idcode, BitVec.getLsbD_append]

theorem idcode_part : idcode.extractLsb' 12 16 = 0x4B32#16 := by
  refine BitVec.eq_of_getLsbD_eq fun i hi => ?_
  rw [BitVec.getLsbD_extractLsb', getLsbD_idcode, if_neg (by omega), if_neg (by omega), if_pos (by omega), show 12 + i - 1 - 11 = i by omega,
    decide_eq_true hi, Bool.true_and]

theorem idcode_version : idcode.extractLsb' 28 4 = 3#4 := by
  refine BitVec.eq_of_getLsbD_eq fun i hi => ?_
  rw [BitVec.getLsbD_extractLsb', getLsbD_idcode, if_neg (by omega), if_neg (by omega), if_neg (by omega),
    show 28 + i - 1 - 11 - 16 = i by omega, decide_eq_true hi, Bool.true_and]

/-- Settles O38. That DBG_REG is denied while bank 15 is not open is log entry 115. -/
theorem tapAccesses : Obligations.TapAccesses := by
  intro s
  refine ⟨rfl, rfl, getLsbD_idcode 0, idcode_part, idcode_version, fun off v hclosed => ?_, fun off v hopen => ?_, fun off v hopen hoff => ?_,
    fun n hen => congrArg Host.Outcome.next (if_pos hen), fun n hen => congrArg Host.Outcome.next (if_neg (Bool.not_eq_true _ ▸ hen))⟩
  · exact congrArg Host.Outcome.next (tapAccess_of_closed hclosed)
  · refine congrArg Host.Outcome.next ((tapAccess_eq (if_pos rfl)).trans ?_)
    simp only [hopen, b01, Bool.not_true, Bool.false_eq_true, if_false, Nat.zero_mul, BitVec.ofNat_eq_ofNat, BitVec.toNat_zero, Nat.zero_add,
      Nat.add_zero]
  · refine congrArg Host.Outcome.next ((tapAccess_eq ((if_neg Bool.false_ne_true).trans (debugRead_of_ne hoff))).trans ?_)
    simp only [hopen, b01, Bool.not_true, Bool.false_eq_true, if_false, Nat.zero_mul, Nat.add_zero]

/-! ### Fuses (R403) -/

theorem fuseWrite_of_locked {w : Nat} {v : BitVec 384} {b : Bool} {s : State} (h : s.sec.locked = true) :
    fuseWrite w v b s = { s with dbg := { s.dbg with tapIr := 0x04, tapDr := [false] } } := if_pos h

/-- Settles O39: each word of the fuses is one branch of `fuseWrite`. -/
theorem fusesAreProgrammed : Obligations.FusesAreProgrammed := by
  intro v s d
  refine ⟨fun hopen => ?_, fun hlocked w b => congrArg Host.Outcome.next (fuseWrite_of_locked hlocked)⟩
  have hunlocked : ¬ s.sec.locked = true := by simp [hopen]
  exact ⟨congrArg Host.Outcome.next (if_neg hunlocked), congrArg Host.Outcome.next (if_neg hunlocked),
    congrArg Host.Outcome.next (if_neg hunlocked), congrArg Host.Outcome.next (if_neg hunlocked),
    congrArg Host.Outcome.next (if_neg hunlocked), fun w => congrArg Host.Outcome.next (if_neg hunlocked)⟩

end Sys2Proof.Machine
end

section
/-! The step, reset, and the refusals that every command can meet (O1, O7, O9, O10). -/

namespace Sys2Proof.Machine

open Sys2Proof.Claims

/-- Settles O1: the queue of waiting commands is log entry 4. -/
theorem stepRunsTheFrontCommand : Obligations.StepRunsTheFrontCommand := fun _ _ _ => rfl

/-- Settles O7, by evaluation. The straps of reset are log entry 2, the empty queue of waiting commands log entry 4, the empty lists log entry 5. -/
theorem resetValues : Obligations.ResetValues := by
  unfold Obligations.ResetValues
  decide

/-! ### Refusals (R313, R325, R326) -/

/-- The one of two refusals that answers. -/
def firstOf (m b : Status) : Status := if b.rank < m.rank then b else m

theorem firstOf_eq_or (m b : Status) : firstOf m b = m ∨ firstOf m b = b := by
  unfold firstOf
  split
  · exact .inr rfl
  · exact .inl rfl

theorem rank_firstOf_le (m b : Status) : (firstOf m b).rank ≤ m.rank ∧ (firstOf m b).rank ≤ b.rank := by
  unfold firstOf
  split <;> omega

/-- The refusal that is left of a list is one of them, and none comes before it. -/
theorem foldl_firstOf (l : List Status) (a : Status) :
    l.foldl firstOf a ∈ a :: l ∧ ∀ b ∈ a :: l, (l.foldl firstOf a).rank ≤ b.rank := by
  induction l generalizing a with
  | nil => simp
  | cons b l ih =>
    obtain ⟨hmem, hle⟩ := ih (firstOf a b)
    obtain ⟨hlea, hleb⟩ := rank_firstOf_le a b
    have hhead := hle _ (List.mem_cons_self ..)
    rw [List.foldl_cons]
    refine ⟨?_, fun x hx => ?_⟩
    · rcases List.mem_cons.1 hmem with h | h
      · rw [h]
        rcases firstOf_eq_or a b with h' | h' <;> simp [h']
      · exact List.mem_cons_of_mem _ (List.mem_cons_of_mem _ h)
    · rcases List.mem_cons.1 hx with rfl | hx
      · exact Nat.le_trans hhead hlea
      · rcases List.mem_cons.1 hx with rfl | hx
        · exact Nat.le_trans hhead hleb
        · exact hle _ (List.mem_cons_of_mem _ hx)

theorem firstRefusal_cons (a : Status) (l : List Status) : firstRefusal (a :: l) = some (l.foldl firstOf a) := rfl

/-- Settles O10: `firstRefusal` keeps the least rank (`foldl_firstOf`). -/
theorem firstRefusalAnswers : Obligations.FirstRefusalAnswers := by
  refine ⟨fun l hl => ?_, fun l hl => ?_, by decide⟩
  · cases l with
    | nil => exact absurd rfl hl
    | cons a l =>
      obtain ⟨hmem, hle⟩ := foldl_firstOf l a
      exact ⟨_, hmem, firstRefusal_cons a l, hle⟩
  · cases l with
    | nil => rfl
    | cons a l => cases hl

/-- A RANGE_LOAD of partition 1, whose MGMT_PARTS bit is 0 after reset. -/
def unmanagedRangeLoad : Cmd := { part := 1, tag := 0, args := List.replicate 14 0, origin := .mailbox }

/-- Refutes O9. Its second clause lets a command list a SCRUBBING refusal of its own, which comes before DENIED (R325): a RANGE_LOAD of partition 1
right after reset, with one such refusal, answers SCRUBBING. No command of the model lists one; the third clause excludes such a list and the
second does not. -/
theorem not_commonRefusalsAnswer : ¬ Obligations.CommonRefusalsAnswer := by
  intro h
  obtain ⟨-, hdenied, -⟩ := h .rangeLoad unmanagedRangeLoad [(true, .scrub)] id State.reset
  have heq := hdenied (by decide) (.inl (by decide)) (by decide)
  have hready : (judge .rangeLoad unmanagedRangeLoad [(true, .scrub)] id State.reset).eocia.ready
      = (complete .rangeLoad unmanagedRangeLoad .denied [] State.reset).eocia.ready := by rw [heq]
  exact absurd hready (by decide)

end Sys2Proof.Machine
end

section
/-! The limits of the ports (O4, O5). `Held` is the invariant together with what every operation leaves alone, and each operation keeps it (the
lemmas `held_…`), so each row of the table does. -/

namespace Sys2Proof.Machine

open Sys2Proof.Claims

/-- Settles O4. -/
theorem resetKeepsTheLimits : Obligations.ResetKeepsTheLimits := by
  unfold Obligations.ResetKeepsTheLimits Inv PortsOk EvtOk HipOk GbpOk
  decide

/-- Every fuse bank keeps its own bits. -/
theorem fusesKept_refl (f : Fuses) : FusesKept f f := by
  simp [FusesKept]

/-- Every row of the table answers a next state and keeps `Held`: one line for each row, by the lemma of its meaning. -/
theorem exec_next_held {K : Kit} {Q : List Instr} {F : Fuses} {c : Instr} {s : State} (h : Held K Q F s) :
    ∃ t, exec c s = .next t ∧ Held K Q F t := by
  cases c with
  | info _ => exact ⟨_, rfl, held_takeUp _ _ _ _ held_infoCmd h⟩
  | pipProbe _ => exact ⟨_, rfl, held_takeUp _ _ _ _ (held_pipProbeCmd _) h⟩
  | partBacking _ => exact ⟨_, rfl, held_takeUp _ _ _ _ held_backingCmd h⟩
  | headLoad _ => exact ⟨_, rfl, held_takeUp _ _ _ _ held_headLoadCmd h⟩
  | headUnload _ => exact ⟨_, rfl, held_takeUp _ _ _ _ held_headUnloadCmd h⟩
  | overlayLoad _ => exact ⟨_, rfl, held_takeUp _ _ _ _ held_overlayLoadCmd h⟩
  | mobjLoad _ => exact ⟨_, rfl, held_takeUp _ _ _ _ held_mobjLoadCmd h⟩
  | mobjDelete _ => exact ⟨_, rfl, held_takeUp _ _ _ _ held_mobjDeleteCmd h⟩
  | biasLoad _ => exact ⟨_, rfl, held_takeUp _ _ _ _ held_biasLoadCmd h⟩
  | biasDelete _ => exact ⟨_, rfl, held_takeUp _ _ _ _ held_biasDeleteCmd h⟩
  | rangeLoad _ => exact ⟨_, rfl, held_takeUp _ _ _ _ held_rangeCmd h⟩
  | sliceDrain _ => exact ⟨_, rfl, held_takeUp _ _ _ _ held_sliceDrainCmd h⟩
  | sliceRejoin _ => exact ⟨_, rfl, held_takeUp _ _ _ _ held_sliceRejoinCmd h⟩
  | fwStage _ => exact ⟨_, rfl, held_takeUp _ _ _ _ held_fwStageCmd h⟩
  | reqAdmit _ => exact ⟨_, rfl, held_takeUp _ _ _ _ (held_admitCmd _) h⟩
  | reqAdmitAcorn _ => exact ⟨_, rfl, held_takeUp _ _ _ _ (held_admitCmd _) h⟩
  | reqSettings _ => exact ⟨_, rfl, held_takeUp _ _ _ _ held_settingsCmd h⟩
  | reqCancel _ => exact ⟨_, rfl, held_takeUp _ _ _ _ held_cancelCmd h⟩
  | reqPause _ => exact ⟨_, rfl, held_takeUp _ _ _ _ held_pauseCmd h⟩
  | reqResume _ => exact ⟨_, rfl, held_takeUp _ _ _ _ held_resumeCmd h⟩
  | reqEvict _ => exact ⟨_, rfl, held_takeUp _ _ _ _ held_evictCmd h⟩
  | huskResume _ => exact ⟨_, rfl, held_takeUp _ _ _ _ held_huskResumeCmd h⟩
  | reqMove _ => exact ⟨_, rfl, held_takeUp _ _ _ _ held_moveCmd h⟩
  | reqQuery _ => exact ⟨_, rfl, held_takeUp _ _ _ _ held_queryCmd h⟩
  | tenantBind _ => exact ⟨_, rfl, held_takeUp _ _ _ _ held_bindCmd h⟩
  | tenantCredit _ => exact ⟨_, rfl, held_takeUp _ _ _ _ held_creditCmd h⟩
  | tenantDrain _ => exact ⟨_, rfl, held_takeUp _ _ _ _ held_drainCmd h⟩
  | tenantReserve _ => exact ⟨_, rfl, held_takeUp _ _ _ _ held_reserveCmd h⟩
  | tenantUnbind _ => exact ⟨_, rfl, held_takeUp _ _ _ _ held_unbindCmd h⟩
  | tenantQuery _ => exact ⟨_, rfl, held_takeUp _ _ _ _ held_tenantQueryCmd h⟩
  | acornMake _ => exact ⟨_, rfl, held_takeUp _ _ _ _ held_acornMakeCmd h⟩
  | acornTake _ => exact ⟨_, rfl, held_takeUp _ _ _ _ held_acornTakeCmd h⟩
  | acornDrop _ => exact ⟨_, rfl, held_takeUp _ _ _ _ held_acornDropCmd h⟩
  | variantReg _ => exact ⟨_, rfl, held_takeUp _ _ _ _ held_variantRegCmd h⟩
  | variantDrop _ => exact ⟨_, rfl, held_takeUp _ _ _ _ held_variantDropCmd h⟩
  | trainOpen _ => exact ⟨_, rfl, held_takeUp _ _ _ _ held_openCmd h⟩
  | trainForward _ => exact ⟨_, rfl, held_takeUp _ _ _ _ held_forwardCmd h⟩
  | trainBackward _ => exact ⟨_, rfl, held_takeUp _ _ _ _ held_backwardCmd h⟩
  | trainNorm _ => exact ⟨_, rfl, held_takeUp _ _ _ _ held_normCmd h⟩
  | trainUpdate _ => exact ⟨_, rfl, held_takeUp _ _ _ _ held_updateCmd h⟩
  | trainClose _ => exact ⟨_, rfl, held_takeUp _ _ _ _ held_closeCmd h⟩
  | maskPrune _ => exact ⟨_, rfl, held_takeUp _ _ _ _ held_pruneCmd h⟩
  | maskGrow _ => exact ⟨_, rfl, held_takeUp _ _ _ _ held_growCmd h⟩
  | maskBarrier _ => exact ⟨_, rfl, held_takeUp _ _ _ _ held_barrierCmd h⟩
  | maskDiscard _ => exact ⟨_, rfl, held_takeUp _ _ _ _ held_discardCmd h⟩
  | maskStatus _ => exact ⟨_, rfl, held_takeUp _ _ _ _ held_maskStatusCmd h⟩
  | mbxDoorbell _ _ _ => exact ⟨_, rfl, held_partWrite _ _ _ _ _ h⟩
  | mbxAck _ _ _ => exact ⟨_, rfl, held_partWrite _ _ _ _ _ h⟩
  | mbxIrqStatus _ _ _ => exact ⟨_, rfl, held_partWrite _ _ _ _ _ h⟩
  | mbxIrqEn _ _ _ => exact ⟨_, rfl, held_partWrite _ _ _ _ _ h⟩
  | cqCfg _ _ _ => exact ⟨_, rfl, held_partWrite _ _ _ _ _ h⟩
  | cqTail _ _ _ => exact ⟨_, rfl, held_partWrite _ _ _ _ _ h⟩
  | ccCons _ _ _ => exact ⟨_, rfl, held_partWrite _ _ _ _ _ h⟩
  | cqFetch _ => exact ⟨_, rfl, held_cqFetchEntry _ _ h⟩
  | stepPeriod _ _ => exact ⟨_, rfl, held_csrWrite _ _ _ _ h⟩
  | thawMaster _ _ => exact ⟨_, rfl, held_csrWrite _ _ _ _ h⟩
  | glbIrqStatus _ _ => exact ⟨_, rfl, held_csrWrite _ _ _ _ h⟩
  | glbIrqEn _ _ => exact ⟨_, rfl, held_csrWrite _ _ _ _ h⟩
  | placeCtl _ _ => exact ⟨_, rfl, held_csrWrite _ _ _ _ h⟩
  | stcCfg _ _ => exact ⟨_, rfl, held_csrWrite _ _ _ _ h⟩
  | stkQuota _ _ _ => exact ⟨_, rfl, held_ite (held_csrWrite _ _ _ _ h) h⟩
  | aclkCeil _ _ => exact ⟨_, rfl, held_csrWrite _ _ _ _ h⟩
  | mgmtParts _ _ => exact ⟨_, rfl, held_csrWrite _ _ _ _ h⟩
  | partKill _ _ => exact ⟨_, rfl, held_csrWrite _ _ _ _ h⟩
  | logBaseHi _ _ => exact ⟨_, rfl, held_csrWrite _ _ _ _ h⟩
  | logCfg _ _ => exact ⟨_, rfl, held_csrWrite _ _ _ _ h⟩
  | regWrite _ _ _ => exact ⟨_, rfl, held_csrWrite _ _ _ _ h⟩
  | dbgCtrl _ _ => exact ⟨_, rfl, held_csrWrite _ _ _ _ h⟩
  | dbgStep _ _ => exact ⟨_, rfl, held_csrWrite _ _ _ _ h⟩
  | dbgBp _ _ _ => exact ⟨_, rfl, held_ite (held_csrWrite _ _ _ _ h) h⟩
  | dbgMemAddr _ _ => exact ⟨_, rfl, held_csrWrite _ _ _ _ h⟩
  | dbgMemData _ _ _ => exact ⟨_, rfl, held_ite (held_csrWrite _ _ _ _ h) (held_csrMemRead _ _ h)⟩
  | breakpointHit _ => exact ⟨_, rfl, held_breakHit _ _ h⟩
  | tapReset => exact ⟨_, rfl, h⟩
  | tapIdcode => exact ⟨_, rfl, h⟩
  | tapDbgReg _ _ _ => exact ⟨_, rfl, held_tapAccess _ _ _ _ h⟩
  | tapUnlockCapture => exact ⟨_, rfl, held_unlockCapture _ h⟩
  | tapUnlockUpdate _ _ => exact ⟨_, rfl, held_unlockUpdate _ _ _ h⟩
  | unlockDone => exact ⟨_, rfl, held_unlockDone _ h⟩
  | unlockHoldoffExpiry => exact ⟨_, rfl, held_holdoffEnds _ h⟩
  | tapFuse _ _ _ => exact ⟨_, rfl, held_fuseWrite _ _ _ _ h⟩
  | hipRow _ _ => exact ⟨_, rfl, held_fetchHeld _ (held_wakePans _ (held_ite (held_parityError _ _ (held_hipRow _ _ _ h)) (held_hipRow _ _ _ h)))⟩
  | hmpReadData _ _ _ _ => exact ⟨_, rfl, held_readData _ _ _ _ _ h⟩
  | hmpWriteResponse _ _ => exact ⟨_, rfl, held_writeResponse _ _ _ h⟩
  | hmpRetry _ => exact ⟨_, rfl, held_retryRead _ _ h⟩
  | gbpCredit _ => exact ⟨_, rfl, held_gbpCredit _ _ h⟩
  | gbpAck _ => exact ⟨_, rfl, held_gbpAck _ _ h⟩
  | gbpSend _ => exact ⟨_, rfl, held_gbpSend _ _ h⟩
  | evtCredit => exact ⟨_, rfl, held_evtCredit _ h⟩
  | eventSend => exact ⟨_, rfl, held_eventSend _ h⟩
  | alarmSend => exact ⟨_, rfl, held_alarmSend _ h⟩
  | tickEmit => exact ⟨_, rfl, held_tickDue _ h⟩
  | slipSilenceExpiry => exact ⟨_, rfl, held_slipExpires _ h⟩
  | tick _ => exact ⟨_, rfl, held_tickArrives _ _ h⟩
  | ingestDeadline => exact ⟨_, rfl, held_ingestEnds _ h⟩
  | sieveDeadline => exact ⟨_, rfl, held_sieveEnds _ h⟩
  | mergeADeadline => exact ⟨_, rfl, held_mergeAEnds _ h⟩
  | mergeBDeadline => exact ⟨_, rfl, held_mergeBEnds _ h⟩
  | drawDeadline => exact ⟨_, rfl, held_drawEnds _ h⟩
  | commitEmit => exact ⟨_, rfl, held_commitEmit _ h⟩
  | commit _ => exact ⟨_, rfl, held_commitArrives _ _ h⟩
  | commitAck _ _ => exact ⟨_, rfl, held_ite (held_ackTaken _ _ _ h) h⟩
  | commitAckResend => exact ⟨_, rfl, held_ackAgain _ h⟩
  | lateLimit _ => exact ⟨_, rfl, held_lateLimit _ _ h⟩
  | ringStallLimit _ => exact ⟨_, rfl, held_stallLimit _ _ h⟩
  | passDone _ => exact ⟨_, rfl, held_passDone _ _ h⟩
  | rowSieved _ => exact ⟨_, rfl, held_ite (held_sieveToken _ _ h) (held_sieveRow _ _ (held_sieveParity _ _ _ h))⟩
  | maSum _ _ => exact ⟨_, rfl, held_maSumArrives _ _ _ (held_pipParity _ _ _ h)⟩
  | maCut _ _ => exact ⟨_, rfl, held_maCutArrives _ _ (held_pipParity _ _ _ h)⟩
  | mbShell _ _ => exact ⟨_, rfl, held_mbShellArrives _ _ _ (held_pipParity _ _ _ h)⟩
  | mbEdge _ _ => exact ⟨_, rfl, held_mbEdgeArrives _ _ (held_pipParity _ _ _ h)⟩
  | mdDraw _ _ => exact ⟨_, rfl, held_mdDrawArrives _ _ _ h⟩
  | trSum _ _ => exact ⟨_, rfl, held_trSumArrives _ _ _ h⟩
  | rsBegin _ _ => exact ⟨_, rfl, held_rsBeginArrives _ _ _ h⟩
  | rsFlit _ _ _ => exact ⟨_, rfl, held_rsFlitArrives _ _ _ _ h⟩
  | jarShare _ _ _ => exact ⟨_, rfl, held_jarShareArrives _ _ _ _ h⟩
  | huskDelta _ => exact ⟨_, rfl, held_deltaArrives _ _ h⟩
  | huskDeltaAck _ _ => exact ⟨_, rfl, held_deltaAcked _ _ _ h⟩
  | hello _ _ => exact ⟨_, rfl, held_helloArrives _ _ _ h⟩
  | heartbeat _ _ => exact ⟨_, rfl, held_heartbeat _ _ h⟩
  | heartbeatSend => exact ⟨_, rfl, held_heartbeatDue _ h⟩
  | sliceLost _ => exact ⟨_, rfl, held_sliceLost _ _ h⟩
  | fwdCmd _ => exact ⟨_, rfl, held_fwdArrives _ _ h⟩
  | fwdResult _ => exact ⟨_, rfl, held_resultArrives _ _ h⟩
  | stateSync _ => exact ⟨_, rfl, held_syncArrives _ _ h⟩
  | partScrubDone _ _ => exact ⟨_, rfl, held_scrubReported _ _ _ h⟩
  | range _ _ => exact ⟨_, rfl, held_rangeArrives _ _ _ h⟩
  | formPropose _ => exact ⟨_, rfl, held_proposeArrives _ _ h⟩
  | formCommit _ => exact ⟨_, rfl, held_formCommits _ _ h⟩
  | formRefuse _ _ => exact ⟨_, rfl, held_refuseArrives _ _ _ h⟩
  | formKeys _ => exact ⟨_, rfl, held_formKeysArrive _ _ h⟩
  | formDone _ => exact ⟨_, rfl, held_formDoneArrives _ _ h⟩
  | proposeRetry => exact ⟨_, rfl, held_propose _ h⟩
  | formWait => exact ⟨_, rfl, held_formWaits _ h⟩
  | regroup _ => exact ⟨_, rfl, held_regroupArrives _ _ h⟩
  | takeoverDone => exact ⟨_, rfl, held_takeoverDone _ h⟩
  | expel _ => exact ⟨_, rfl, held_expel _ _ h⟩
  | linkFlit _ _ _ _ => exact ⟨_, rfl, held_flitArrives _ _ _ _ _ h⟩
  | replayTimeout _ => exact ⟨_, rfl, held_ite (held_linkSend _ _ (held_replayPort _ _ (held_linkStart _ h))) h⟩
  | laneFail _ _ => exact ⟨_, rfl, held_laneLost _ _ _ h⟩
  | laneSilence _ _ => exact ⟨_, rfl, held_laneLost _ _ _ h⟩
  | laneLock _ _ => exact ⟨_, rfl, held_laneLocks _ _ _ h⟩
  | trainTimeout _ => exact ⟨_, rfl, held_trainFails _ _ h⟩
  | retrainTimeout _ => exact ⟨_, rfl, held_retrainFails _ _ h⟩
  | portRetry _ => exact ⟨_, rfl, held_ite (held_trainPort _ _ h) h⟩
  | trainingSignal _ => exact ⟨_, rfl, held_trainingSignal _ _ h⟩
  | blMargin _ _ => exact ⟨_, rfl, held_marginLow _ _ _ h⟩
  | placementCopyDone _ _ => exact ⟨_, rfl, held_copyDone _ _ _ h⟩
  | patrolScrub _ _ => exact ⟨_, rfl, held_lineRead _ _ _ h⟩
  | largeSelectPass _ _ => exact ⟨_, rfl, held_passArrives _ _ _ h⟩
  | forwardSlotDone => exact ⟨_, rfl, held_forwardDone _ h⟩
  | backwardSlotDone _ => exact ⟨_, rfl, held_ite (held_backwardDone _ _ (fun _ => held_growSwap _) h) h⟩
  | updateSlotDone _ _ _ _ => exact ⟨_, rfl, held_ite (held_updateDone _ h) h⟩
  | watchdogExpiry => exact ⟨_, rfl, held_watchdogExpires _ h⟩
  | whiskTrap => exact ⟨_, rfl, held_trapTaken _ h⟩
  | whiskRestartDone _ _ => exact ⟨_, rfl, held_restartDone _ _ _ h⟩
  | reset _ => exact ⟨_, rfl, held_resetRises _ _ h⟩
  | bootCheck _ => exact ⟨_, rfl, held_bootChecked _ _ h⟩
  | entropyFail => exact ⟨_, rfl, held_entropyFail _ h⟩
  | pmPwrAck _ => exact ⟨_, rfl, held_domainUp _ _ h⟩
  | pwrAckTimeout _ => exact ⟨_, rfl, held_ackMissing _ _ h⟩
  | pmFault _ => exact ⟨_, rfl, held_domainFault _ _ h⟩
  | pmVack _ => exact ⟨_, rfl, held_vackRises _ _ h⟩
  | pmAlertRise => exact ⟨_, rfl, held_alertRise _ h⟩
  | pmAlertFall => exact ⟨_, rfl, held_alertFall _ h⟩
  | vfLoopEval _ _ _ _ => exact ⟨_, rfl, held_vfLoop _ _ _ _ _ h⟩
  | droop _ => exact ⟨_, rfl, held_droop _ _ h⟩
  | pwrEstUpdate => exact ⟨_, rfl, held_pwrEst _ h⟩
  | panIdleOff _ => exact ⟨_, rfl, held_panIdleOff _ _ h⟩
  | rstNAssert => exact ⟨_, rfl, held_resetFalls _ h⟩
  | pllLockLoss => exact ⟨_, rfl, held_domainFault _ _ h⟩

theorem inv_of_exec {c : Instr} {s t : State} (hinv : Inv s) (hexec : exec c s = .next t) : Inv t := by
  obtain ⟨u, hnext, hheld⟩ := exec_next_held (c := c) (held_iff.2 ⟨rfl, rfl, fusesKept_refl _, hinv⟩)
  obtain ⟨-, -, -, hinv'⟩ := held_iff.1 hheld
  cases hnext.symm.trans hexec
  exact hinv'

/-- Settles O5: a step either lets a nanosecond pass or runs one command, and every command keeps the limits (`exec_next_held`). -/
theorem everyStepKeepsTheLimits : Obligations.EveryStepKeepsTheLimits := by
  intro s t hinv hstep
  cases hq : s.pending with
  | nil =>
    simp only [step, hq] at hstep
    cases hstep
    exact hinv
  | cons c rest =>
    simp only [step, hq] at hstep
    exact inv_of_exec (s := { s with pending := rest }) hinv hstep

end Sys2Proof.Machine
end

section
/-! Where Eocia sends a command and what queries answer (O8, O12, O20). A command that its keeper acknowledges is judged in the state without it on
Eocia's list, with the message to the keeper among those that leave. -/

namespace Sys2Proof.Machine

open Sys2Proof.Claims

/-! ### Taking a command up (R314 to R316, R344, R410, R414) -/

/-- Each row of a command takes it up. -/
theorem exec_row (op : Op) (c : Cmd) (s : State) : exec (row op c) s = .next (takeUp op (runCmd op) c s) := by
  cases op <;> rfl

section
variable {op : Op} {run : Cmd → State → State} {c : Cmd} {s : State}

/-- A command waits while Eocia does not run, and behind an earlier one of its door and target. -/
theorem takeUp_of_waiting (h : eociaRuns s = false ∨ behind op c s = true) (hnew : s.eocia.inbox.contains (op, c) = false) :
    takeUp op run c s = enqueue op c s := by
  rw [takeUp, if_pos (by rcases h with h | h <;> simp [h]), hnew]
  rfl

section
variable (hruns : eociaRuns s = true) (hfirst : behind op c s = false)
include hruns hfirst

/-- A command of another slice is sent on. -/
theorem takeUp_of_elsewhere (helse : target op c s ≠ me s) : takeUp op run c s = sendOn op c (target op c s) (unqueue op c s) := by
  rw [takeUp, if_neg (by simp [hruns, hfirst])]
  exact if_pos helse

variable (hhere : target op c s = me s)
include hhere

/-- A command that only reads waits for those that await their acknowledgement. -/
theorem takeUp_of_reading (hreads : readsOnly op = true) (hawait : s.eocia.awaitAck ≠ []) : takeUp op run c s =
    { unqueue op c s with eocia := { (unqueue op c s).eocia with awaitAck := s.eocia.awaitAck ++ [(op, c)] } } := by
  have hhere' : ¬ target op c (unqueue op c s) ≠ me (unqueue op c s) := not_not_intro hhere
  have hawait' : ¬ (unqueue op c s).eocia.awaitAck.isEmpty = true := by simpa [unqueue] using hawait
  rw [takeUp, if_neg (by simp [hruns, hfirst])]
  dsimp only
  rw [if_neg hhere', if_pos hreads, if_neg hawait']
  rfl

/-- A command that no keeper has to acknowledge is judged, or deferred. -/
theorem takeUp_of_noAckDue (hack : NoAckDue op s) : takeUp op run c s = accept op run c (unqueue op c s) := by
  obtain ⟨hreads, hwrites⟩ := hack
  have hhere' : ¬ target op c (unqueue op c s) ≠ me (unqueue op c s) := not_not_intro hhere
  rw [takeUp, if_neg (by simp [hruns, hfirst])]
  dsimp only
  rw [if_neg hhere']
  cases hop : readsOnly op with
  | true =>
    have hnone : (unqueue op c s).eocia.awaitAck.isEmpty = true := by simpa [unqueue] using hreads hop
    rw [if_pos rfl, if_pos hnone]
  | false =>
    have hnone : keeperOf (unqueue op c s) (me (unqueue op c s)) = none := hwrites hop
    rw [if_neg Bool.false_ne_true, hnone]

end
end

/-- The state with a command sent to its keeper, whose acknowledgement it awaits (R414). -/
def sentToKeeper (op : Op) (c : Cmd) (k : Nat) (s : State) : State :=
  { s with
    eocia := { s.eocia with inbox := s.eocia.inbox.erase (op, c), awaitAck := s.eocia.awaitAck ++ [(op, c)] }
    keeper := { s.keeper with unacked := s.keeper.unacked ++ [(stepNow s, true)] }
    link := { s.link with out := s.link.out ++ [⟨some k, .huskDelta ⟨me s, stepNow s, false, [commandEntry op c s]⟩⟩] } }

/-- The state with other messages that leave. -/
def withLink (l : Link) (s : State) : State := { s with link := l }

@[simp] theorem members_withLink (l : Link) (s : State) : members (withLink l s) = members s := rfl
@[simp] theorem reshaping_withLink (l : Link) (s : State) : reshaping (withLink l s) = reshaping s := rfl
@[simp] theorem plansHeld_withLink (l : Link) (s : State) : plansHeld (withLink l s) = plansHeld s := rfl
@[simp] theorem divisionOf_withLink (l : Link) (n : Nat) (s : State) : divisionOf (withLink l s) n = divisionOf s n := rfl
@[simp] theorem headIdOf_withLink (l : Link) (p : Nat) (s : State) : headIdOf (withLink l s) p = headIdOf s p := rfl
@[simp] theorem headOf_withLink (l : Link) (p : Nat) (s : State) : headOf (withLink l s) p = headOf s p := rfl
@[simp] theorem backingOf_withLink (l : Link) (n p : Nat) (s : State) : backingOf (withLink l s) n p = backingOf s n p := rfl
@[simp] theorem stepNow_withLink (l : Link) (s : State) : stepNow (withLink l s) = stepNow s := rfl

@[simp] theorem members_unqueue (op : Op) (c : Cmd) (s : State) : members (unqueue op c s) = members s := rfl
@[simp] theorem reshaping_unqueue (op : Op) (c : Cmd) (s : State) : reshaping (unqueue op c s) = reshaping s := rfl
@[simp] theorem plansHeld_unqueue (op : Op) (c : Cmd) (s : State) : plansHeld (unqueue op c s) = plansHeld s := rfl
@[simp] theorem divisionOf_unqueue (op : Op) (c : Cmd) (n : Nat) (s : State) : divisionOf (unqueue op c s) n = divisionOf s n := rfl
@[simp] theorem headIdOf_unqueue (op : Op) (c : Cmd) (p : Nat) (s : State) : headIdOf (unqueue op c s) p = headIdOf s p := rfl
@[simp] theorem backingOf_unqueue (op : Op) (c : Cmd) (n p : Nat) (s : State) : backingOf (unqueue op c s) n p = backingOf s n p := rfl
@[simp] theorem sessionIn_unqueue (op : Op) (c : Cmd) (p : Nat) (s : State) : sessionIn (unqueue op c s) p = sessionIn s p := rfl

/-- The next member of the ring after a slice is another slice (R413). -/
theorem nextMember_ne {s : State} {n k : Nat} (h : nextMember s n = some k) : k ≠ n := by
  rw [nextMember] at h
  obtain ⟨i, hi, rfl⟩ := List.mem_map.1 (List.mem_of_find?_eq_some h)
  have hlt : i < s.group.size - 1 := List.mem_range.1 hi
  intro heq
  have hbound : (n + 1 + i) % s.group.size < s.group.size := Nat.mod_lt _ (by omega)
  have hin : n < s.group.size := heq ▸ hbound
  by_cases hwrap : n + 1 + i < s.group.size
  · rw [Nat.mod_eq_of_lt hwrap] at heq
    omega
  · rw [Nat.mod_eq_sub_mod (by omega), Nat.mod_eq_of_lt (by omega)] at heq
    omega

/-- The keeper of a slice is another slice (R413). -/
theorem keeperOf_ne {s : State} {n k : Nat} (h : keeperOf s n = some k) : k ≠ n := by
  rw [keeperOf] at h
  split at h
  · exact nextMember_ne h
  · cases h

/-- A command that changes state is sent to the keeper first. -/
theorem takeUp_of_keeper {op : Op} {run : Cmd → State → State} {c : Cmd} {s : State} {k : Nat} (hruns : eociaRuns s = true)
    (hfirst : behind op c s = false) (hhere : target op c s = me s) (hwrites : readsOnly op = false) (hkeeper : keeperOf s (me s) = some k) :
    takeUp op run c s = sentToKeeper op c k s := by
  have hhere' : ¬ target op c (unqueue op c s) ≠ me (unqueue op c s) := not_not_intro hhere
  have hkeeper' : keeperOf (unqueue op c s) (me (unqueue op c s)) = some k := hkeeper
  rw [takeUp, if_neg (by simp [hruns, hfirst])]
  dsimp only
  rw [if_neg hhere', hwrites, if_neg Bool.false_ne_true, hkeeper']
  exact if_neg (keeperOf_ne hkeeper)

theorem takeUp_of_kept {op : Op} {c : Cmd} {k : Nat} {s : State} (run : Cmd → State → State) (h : Kept op c k s) :
    takeUp op run c s = sentToKeeper op c k s := by
  obtain ⟨hruns, hfirst, hhere, -, hwrites, hkeeper, -, -, -⟩ := h
  exact takeUp_of_keeper hruns hfirst hhere hwrites hkeeper

/-- Once the keeper has acknowledged it, the command is judged. -/
theorem deltaAcked_sentToKeeper {op : Op} {c : Cmd} {k : Nat} {s : State} (h : Kept op c k s) :
    deltaAcked k (stepNow s) (sentToKeeper op c k s) = runCmd op c (unqueue op c (withLink (sentToKeeper op c k s).link s)) := by
  obtain ⟨hruns, hfirst, hhere, hpublished, hwrites, hkeeper, -, hawait, hunacked⟩ := h
  have holdest : (sentToKeeper op c k s).keeper.unacked = (stepNow s, true) :: [] := by simp [sentToKeeper, hunacked]
  have hwaits : (sentToKeeper op c k s).eocia.awaitAck = (op, c) :: [] := by simp [sentToKeeper, hawait]
  rw [deltaAcked_command (s := sentToKeeper op c k s) hkeeper holdest hwaits hwrites (by simp)]
  have hstate : { sentToKeeper op c k s with
      keeper := { (sentToKeeper op c k s).keeper with unacked := [] }, eocia := { (sentToKeeper op c k s).eocia with awaitAck := [] } }
      = unqueue op c (withLink (sentToKeeper op c k s).link s) := by
    simp only [sentToKeeper, unqueue, withLink, ← hawait, ← hunacked]
  rw [hstate, runOp]
  exact (if_neg (not_not_intro hhere)).trans (if_neg (by
    change ¬ (publishing s || !(eociaRuns s)) = true
    simp [hpublished, hruns]))

/-- Settles O8, by the branches of `takeUp`. That a command of a frozen partition whose target is another slice answers FROZEN here, in `sendOn`, and
is not sent is log entry 153. -/
theorem commandsGoWhereTheyBelong : Obligations.CommandsGoWhereTheyBelong := by
  intro op c s
  simp only [exec_row, Host.Outcome.next.injEq]
  refine ⟨fun h hnew => ?_, fun hruns hfirst helse => ?_, fun hruns hfirst hhere hwrites k hkeeper => ?_,
    fun hruns hfirst hhere hreads hawait => ?_, fun hruns hfirst hhere hack hpub => ?_, fun hready => takeUp_of_ready _ hready, fun k hkept => ?_⟩
  · exact takeUp_of_waiting h hnew
  · exact takeUp_of_elsewhere hruns hfirst helse
  · exact ⟨_, takeUp_of_keeper hruns hfirst hhere hwrites hkeeper, rfl, rfl, rfl, rfl⟩
  · exact takeUp_of_reading hruns hfirst hhere hreads hawait
  · refine ⟨_, takeUp_of_noAckDue hruns hfirst hhere hack, ?_⟩
    rw [accept, if_pos (by
      change (publishing s || !(eociaRuns s)) = true
      simp [hpub])]
    exact ⟨rfl, rfl⟩
  · exact ⟨_, takeUp_of_kept _ hkept, congrArg Host.Outcome.next (deltaAcked_sentToKeeper hkept)⟩

/-! ### Drain and rejoin (R429, R431) -/

/-- A command that its keeper has acknowledged and that nothing refuses has its effect. -/
theorem runCmd_of_kept {op : Op} {c : Cmd} {k : Nat} {s : State} {l : List (Bool × Status)} {eff : State → State} (h : Kept op c k s)
    (hrun : runCmd op c (unqueue op c (withLink (sentToKeeper op c k s).link s))
      = judge op c l eff (unqueue op c (withLink (sentToKeeper op c k s).link s))) (hclear : ∀ x ∈ l, x.1 = false) :
    runCmd op c (unqueue op c (withLink (sentToKeeper op c k s).link s)) = eff (accepted op c (withLink (sentToKeeper op c k s).link s)) := by
  obtain ⟨-, -, -, -, -, -, hcommon, -, -⟩ := h
  have hcommon' : commonRefusals op c (unqueue op c (withLink (sentToKeeper op c k s).link s)) = [] := hcommon
  rw [hrun, judge, hcommon', refusals_nil hclear]
  rfl

/-- Settles O20. That the drain's moves begin at acceptance on the tick master, in `drainBegins`, is log entry 97. -/
theorem unloadDrainAndRejoinAreAccepted : Obligations.UnloadDrainAndRejoinAreAccepted := by
  intro c s
  refine ⟨fun hready hhead hused hsess => ?_, fun k hkept hnum hmember hmany hshape hmicros hplans hdivision => ?_,
    fun k hkept hnum hidle hshape hheads hbackings => ?_⟩
  · refine congrArg Host.Outcome.next ((takeUp_of_clear hready (by unfold headUnloadCmd; rfl) ?_).trans ?_)
    · have hnone : (headOf (unqueue .headUnload c s) c.part).isNone = false := by simpa using hhead
      have hfree : ((unqueue .headUnload c s).reqs.any fun e => e.info.part == c.part && !e.info.scoreMode) = false := by
        simpa using hused
      simp only [hnone, hfree, sessionIn_unqueue, hsess]
      simp
    · simp only [taken, stepNow_accepted]
  · refine ⟨_, congrArg Host.Outcome.next (takeUp_of_kept _ hkept), ?_⟩
    rw [exec_huskDeltaAck, deltaAcked_sentToKeeper hkept, runCmd_of_kept hkept (by unfold runCmd sliceDrainCmd; rfl)]
    · simp only [stepNow_accepted, stepNow_withLink]
      rfl
    · have hres : reservedSet c [(0, 6)] = false := by simp [reservedSet, narrow, hnum]
      have hmany' : ¬ (members s).length ≤ 1 := by omega
      have hbusy : (s.training.any fun t => !t.micros.isEmpty) = false := by
        cases hsess : s.training with
        | none => rfl
        | some t => simp [hmicros t hsess]
      have htraining : ∀ l, (unqueue .sliceDrain c (withLink l s)).training = s.training := fun _ => rfl
      simp only [members_unqueue, members_withLink, reshaping_unqueue, reshaping_withLink, plansHeld_unqueue, plansHeld_withLink,
        divisionOf_unqueue, divisionOf_withLink, htraining, hres, hmember, hmany', hshape, hbusy, hplans, hdivision]
      simp
  · refine ⟨_, _, congrArg Host.Outcome.next (takeUp_of_kept _ hkept), congrArg Host.Outcome.next ((deltaAcked_sentToKeeper hkept).trans
      (runCmd_of_kept hkept (by unfold runCmd sliceRejoinCmd; rfl) ?_)), ?_⟩
    · have hres : reservedSet c [(0, 6)] = false := by simp [reservedSet, narrow, hnum]
      have hgroup : ∀ l, (unqueue .sliceRejoin c (withLink l s)).group = s.group := fun _ => rfl
      have hme : ∀ l, me (unqueue .sliceRejoin c (withLink l s)) = me s := fun _ => rfl
      refine List.forall_mem_cons.2 ⟨by rw [hgroup, hidle, hres]; rfl, List.forall_mem_cons.2 ⟨?_, by simp⟩⟩
      have hheadless : ∀ p ∈ List.range 12, headIdOf s p = none ∧ headOf s p = none := fun p hp => hheads p (List.mem_range.1 hp)
      have hunbacked : ∀ p ∈ List.range 12, backingOf s (me s) p = none := fun p hp => hbackings p (List.mem_range.1 hp)
      simp only [reshaping_unqueue, reshaping_withLink, hshape, Bool.or_eq_false_iff, List.any_eq_false, headIdOf_unqueue, headIdOf_withLink,
        headOf_unqueue, headOf_withLink, backingOf_unqueue, backingOf_withLink, hme]
      refine ⟨⟨trivial, fun p hp => ?_⟩, fun p hp => ?_⟩
      · rw [(hheadless p hp).1, (hheadless p hp).2]
        exact Bool.false_ne_true
      · rw [hunbacked p hp]
        exact Bool.false_ne_true
    · simp only [stepNow_accepted, stepNow_withLink]
      rw [announceOut, flood_shape, accepted, trace_shape]
      exact ⟨rfl, rfl, rfl⟩

/-! ### Queries (R167, R241, R246, R301, R319) -/

section
variable (op : Op) (c : Cmd) (s : State)

@[simp] theorem infoWords_accepted : infoWords (accepted op c s) = infoWords s := by
  rw [accepted, trace_shape]
  rfl

@[simp] theorem homeOf_accepted (q : Nat) : homeOf (accepted op c s) q = homeOf s q := by
  rw [accepted, trace_shape]
  rfl

@[simp] theorem tenantReport_accepted (u : Nat) : tenantReport (accepted op c s) u = tenantReport s u := by
  rw [accepted, trace_shape]
  rfl

@[simp] theorem statusWords_accepted (p : Nat) : statusWords (accepted op c s) p = statusWords s p := by
  rw [accepted, trace_shape]
  rfl

end

/-- Settles O12: each query is judged at once, and its words are those of the state it is judged in. The Pip work that PIP_PROBE counts and traces
(`pipWork`) is log entry 143. -/
theorem queriesAnswerAtOnce : Obligations.QueriesAnswerAtOnce := by
  intro c s
  refine ⟨fun hready => ?_, fun hready hlow hone hfour f => ?_, fun e hready hid hreq hpart => ?_, fun hready hid hbound => ?_,
    fun t hready hsess hpart => ?_⟩
  · refine congrArg Host.Outcome.next ((takeUp_of_clear hready rfl (by simp)).trans ?_)
    rw [infoWords_accepted]
    rfl
  · refine congrArg Host.Outcome.next ((takeUp_of_clear hready (by unfold pipProbeCmd; rfl) ?_).trans ?_)
    · simp [reservedSet, narrow, hlow, hfour, Nat.ne_of_gt hone]
    · rfl
  · refine congrArg Host.Outcome.next ((takeUp_of_clear hready (by unfold queryCmd; rfl) ?_).trans ?_)
    · simp [Nat.mod_eq_of_lt hid, hreq, hpart, reservedSet_of_lt hid]
    · rw [homeOf_accepted, Nat.mod_eq_of_lt hid, reqOf_unqueue, hreq]
  · refine congrArg Host.Outcome.next ((takeUp_of_clear hready rfl (onTenant_clear hid ?_)).trans ?_)
    · rw [tenantRec_unqueue, tenantRec]
      cases htenant : tenantOf s (arg c 0) with
      | none => exact fun h => Bool.noConfusion h
      | some t => exact hbound t htenant
    · rw [tenantReport_accepted, Nat.mod_eq_of_lt hid]
  · refine congrArg Host.Outcome.next ((takeUp_of_clear hready rfl (needSession_clear hsess hpart)).trans ?_)
    rw [statusWords_accepted]

end Sys2Proof.Machine
end

section
/-! Answers on HMP, the beats of GBP and the event port (O43 to O45). -/

namespace Sys2Proof.Machine

open Sys2Proof.Claims

/-! ### Answers on HMP (R352, R354, R361, R363) -/

section
variable {ch : RdCh} {tag : Nat} {r : Resp} {beats : List Bytes} {t : Txn} {s : State}

theorem unknownTag_of_late (h : s.hmp.lateTags.contains tag = true) : unknownTag tag s = discardAnswer tag s := if_pos h

theorem unknownTag_of_unknown (h : s.hmp.lateTags.contains tag = false) : unknownTag tag s = hmpViolation 0x06 tag s :=
  if_neg (Bool.not_eq_true _ ▸ h)

theorem readData_of_frozen (h : s.regs.frozenHmp = true) : readData ch tag r beats s = discardAnswer tag s := if_pos h

theorem writeResponse_of_frozen (h : s.regs.frozenHmp = true) : writeResponse tag r s = discardAnswer tag s := if_pos h

section
variable (hrun : s.regs.frozenHmp = false)
include hrun

theorem readData_of_unknown (h : outstanding s false ch tag = none) : readData ch tag r beats s = unknownTag tag s := by
  rw [readData, hrun, h]
  rfl

/-- Whole read data end the read (R352). -/
theorem readData_of_whole (h : outstanding s false ch tag = some t) (hlen : beats.length = linesTouched t)
    (hbeats : ∀ b ∈ beats, b.length = 128) : readData ch tag .ok beats s = hmpIssue (readOk t beats s) := by
  have hwhole : ¬ (decide (beats.length < linesTouched t) || beats.any fun b => b.length ≠ 128) = true := by
    simpa [hlen] using hbeats
  have hexact : ¬ beats.length > linesTouched t := by omega
  rw [readData, hrun, h]
  exact (if_neg hwhole).trans (congrArg hmpIssue (if_neg hexact))

theorem readData_of_slverr (h : outstanding s false ch tag = some t) :
    readData ch tag .slverr beats s = hmpIssue (readFailed t tag .slverr (errorTrace t .slverr s)) := by
  rw [readData, hrun, h]
  rfl

theorem writeResponse_of_unknown (h : outstanding s true .rdb tag = none) : writeResponse tag r s = unknownTag tag s := by
  rw [writeResponse, hrun, h]
  rfl

theorem writeResponse_of_ok (h : outstanding s true .rdb tag = some t) :
    writeResponse tag .ok s = hmpIssue (writeDone t.job t.after (endTxn t s)) := by
  rw [writeResponse, hrun, h]
  rfl

theorem retryRead_of_waiting (h : (s.hmp.txns.find? fun t => t.tag == some tag && t.waiting && !t.write) = some t)
    (hpart : partFrozen s t.part = false) : retryRead tag s = { s with hmp := { s.hmp with
      issued := s.hmp.issued + 1, txns := updFirst (fun x => x == t) (fun x => { x with waiting := false, retried := true }) s.hmp.txns } } := by
  rw [retryRead, h]
  exact if_neg (by simp [hpart, hrun])

end

/-- A read that fails for the first time waits, and its alarm is raised (Table 17.5). -/
theorem readFailed_of_first (hfirst : t.retried = false) :
    readFailed t tag r s = answered (updTxn t (fun x => { x with waiting := true }) (hmpError t tag r s)) :=
  if_neg (Bool.not_eq_true _ ▸ hfirst)

end

/-- Settles O43. An answer on another channel or of another kind than its read or write, which is not outstanding there and counts as an unknown
tag, is log entry 83. -/
theorem hmpAnswersAreTaken : Obligations.HmpAnswersAreTaken := by
  intro ch tag beats s
  refine ⟨fun hrun => ⟨fun t hout hlen hbeats => ?_, fun t hout hfirst => ?_, fun r hnone hnew => ?_, fun r hnone hlate => ?_,
    fun r hnone hnew => ?_, fun t hout => ?_, fun r hnone hlate => ?_, fun t hwaits hpart => ?_⟩, fun hfrozen r => ⟨?_, ?_⟩⟩
  · exact congrArg Host.Outcome.next (readData_of_whole hrun hout hlen hbeats)
  · refine ⟨readFailed t tag .slverr (errorTrace t .slverr s), congrArg Host.Outcome.next (readData_of_slverr hrun hout), ?_⟩
    rw [readFailed_of_first hfirst, hmpError, alarm_shape, errorTrace, trace_shape]
    exact ⟨rfl, rfl, rfl, rfl⟩
  · exact congrArg Host.Outcome.next ((readData_of_unknown hrun hnone).trans (unknownTag_of_unknown hnew))
  · exact congrArg Host.Outcome.next ((readData_of_unknown hrun hnone).trans (unknownTag_of_late hlate))
  · exact congrArg Host.Outcome.next ((writeResponse_of_unknown hrun hnone).trans (unknownTag_of_unknown hnew))
  · exact congrArg Host.Outcome.next (writeResponse_of_ok hrun hout)
  · exact congrArg Host.Outcome.next ((writeResponse_of_unknown hrun hnone).trans (unknownTag_of_late hlate))
  · exact congrArg Host.Outcome.next (retryRead_of_waiting hrun hwaits hpart)
  · exact congrArg Host.Outcome.next (readData_of_frozen hfrozen)
  · exact congrArg Host.Outcome.next (writeResponse_of_frozen hfrozen)

/-! ### GBP (R355, R356, R363) -/

theorem gbpPort_updGbp_same (c : GbpCh) (f : GbpPort → GbpPort) (s : State) : gbpPort (updGbp c f s) c = f (gbpPort s c) := by
  cases c <;> rfl

theorem gbpPort_updGbp_other {c d : GbpCh} (f : GbpPort → GbpPort) (s : State) (h : d ≠ c) : gbpPort (updGbp c f s) d = gbpPort s d := by
  cases c <;> cases d
  · exact absurd rfl h
  · rfl
  · rfl
  · exact absurd rfl h

theorem updGbp_frame (c : GbpCh) (f : GbpPort → GbpPort) (s : State) :
    updGbp c f s = { s with gbpA := (updGbp c f s).gbpA, gbpB := (updGbp c f s).gbpB } := by
  cases c <;> rfl

@[simp] theorem gbpPort_trace (c : GbpCh) (a b d : Nat) (e : Word) (g : BitVec 64) (s : State) :
    gbpPort (trace a b d e g s) c = gbpPort s c := by
  rw [trace_shape]
  cases c <;> rfl

@[simp] theorem gbpPort_perf (c : GbpCh) (off n : Nat) (s : State) : gbpPort (perf off n s) c = gbpPort s c := by
  cases c <;> rfl

/-- The port of a channel once its oldest beat is acknowledged. -/
def beatAcked (p : GbpPort) : GbpPort := { p with unacked := p.unacked.drop 1, acks := p.acks + 1 }

/-- The port of a channel once its oldest waiting beat has left. -/
def beatSent (b : GbpBeat) (rest : List GbpBeat) (p : GbpPort) : GbpPort :=
  { p with waiting := rest, unacked := p.unacked ++ [b], credits := p.credits - 1, sent := p.sent + 1, out := some b }

/-- The place of a channel's acknowledged bytes among the performance counters. -/
def ackCounter : GbpCh → Nat
  | .a => 0x228
  | .b => 0x230

theorem gbpAck_of_unacked {c : GbpCh} {s : State} (hrun : s.regs.frozenGbp = false) (h : (gbpPort s c).unacked ≠ []) :
    gbpAck c s = perf (ackCounter c) 128 (updGbp c beatAcked s) := by
  have hsome : ¬ (gbpPort s c).unacked.isEmpty = true := by simpa using h
  unfold gbpAck
  rw [if_neg (by simp [hrun]), if_neg hsome]
  cases c <;> rfl

theorem gbpAck_of_none {c : GbpCh} {s : State} (hrun : s.regs.frozenGbp = false) (h : (gbpPort s c).unacked = []) :
    gbpAck c s = violation .gbp (gbpNum c) 0 0x08 0 0 false s := by
  unfold gbpAck
  rw [if_neg (by simp [hrun]), h]
  rfl

theorem gbpSend_of_credit {c : GbpCh} {s : State} {b : GbpBeat} {rest : List GbpBeat} (hrun : s.regs.frozenGbp = false)
    (hwaits : (gbpPort s c).waiting = b :: rest) (hcredit : 0 < (gbpPort s c).credits) :
    gbpSend c s = if b.last then trace 5 1 0 b.seq (BitVec.ofNat 64 (beatsOn s b.seq)) (updGbp c (beatSent b rest) s)
      else updGbp c (beatSent b rest) s := by
  have hbeats : beatsOn (updGbp c (beatSent b rest) s) b.seq = beatsOn s b.seq := by cases c <;> rfl
  unfold gbpSend
  dsimp only
  rw [hwaits, ← hbeats]
  exact if_neg (by simp [hrun, Nat.ne_of_gt hcredit])

theorem gbpSend_of_stopped {c : GbpCh} {s : State} (h : s.regs.frozenGbp = true ∨ (gbpPort s c).waiting = [] ∨ (gbpPort s c).credits = 0) :
    gbpSend c s = s := by
  unfold gbpSend
  dsimp only
  split
  · rfl
  · next hwaits =>
    refine if_pos ?_
    rcases h with h | h | h
    · simp [h]
    · cases hwaits.symm.trans h
    · simp [h]

/-- Settles O44, by the guards of a channel's three operations. -/
theorem gbpMovesByCredit : Obligations.GbpMovesByCredit := by
  intro c s p
  refine ⟨fun hrun => ⟨fun hlow => ?_, fun hfull => ?_, fun hnone => ?_, fun b rest hsome => ?_, fun b rest hwaits hcredit => ?_⟩,
    fun h => congrArg Host.Outcome.next (gbpSend_of_stopped h), fun hfrozen => ⟨congrArg Host.Outcome.next (if_pos hfrozen),
      congrArg Host.Outcome.next (if_pos hfrozen)⟩⟩
  · refine congrArg Host.Outcome.next ?_
    rw [gbpCredit, hrun]
    exact if_neg (Nat.not_le.2 hlow)
  · refine congrArg Host.Outcome.next ?_
    rw [gbpCredit, hrun]
    exact if_pos hfull
  · exact congrArg Host.Outcome.next (gbpAck_of_none hrun hnone)
  · have hsome' : (gbpPort s c).unacked = b :: rest := hsome
    refine ⟨_, congrArg Host.Outcome.next (gbpAck_of_unacked hrun (by simp [hsome'])), ?_, ?_, fun d hd => ?_⟩
    · rw [gbpPort_perf, gbpPort_updGbp_same, beatAcked, hsome']
      rfl
    · rw [perf, updGbp_frame]
    · rw [gbpPort_perf, gbpPort_updGbp_other _ _ hd]
  · refine ⟨_, congrArg Host.Outcome.next (gbpSend_of_credit hrun hwaits hcredit), ?_, fun d hd => ?_, ?_⟩
    · split
      · rw [gbpPort_trace, gbpPort_updGbp_same]
        rfl
      · rw [gbpPort_updGbp_same]
        rfl
    · split
      · rw [gbpPort_trace, gbpPort_updGbp_other _ _ hd]
      · rw [gbpPort_updGbp_other _ _ hd]
    · split
      · rw [trace_shape, updGbp_frame]
      · rw [updGbp_frame]

/-! ### The event port (R357, R362, R456, R459, R462) -/

theorem evtCredit_of_low {s : State} (h : s.evt.credits < 512) :
    evtCredit s = { s with evt := { s.evt with credits := s.evt.credits + 1, received := s.evt.received + 1 } } := by
  unfold evtCredit
  dsimp only
  rw [if_pos h]

/-- The port after a credit beyond 512, whose report waits. -/
def creditExcess (s : State) : State :=
  { s with evt := { s.evt with received := s.evt.received + 1, excess := s.evt.excess + 1, excessWaiting := true } }

theorem evtCredit_of_full {s : State} (h : 512 ≤ s.evt.credits) : evtCredit s =
    if s.evt.excessWaiting then creditExcess s else event 3 (errorBytes s 5 0 0x01 1 0 0 false) (creditExcess s) := by
  unfold evtCredit
  dsimp only
  rw [if_neg (Nat.not_lt.2 h)]
  cases hwaits : s.evt.excessWaiting
  · rfl
  · rw [creditExcess, ← hwaits]
    rfl

theorem eventSend_of_none {s : State} (h : s.evt.credits = 0) : eventSend s = s := if_pos h

theorem alarmSend_of_none {s : State} (h : s.evt.credits = 0) : alarmSend s = s := if_pos (by simp [h])

/-- The queue's oldest record leaves. -/
theorem eventSend_of_queue {s : State} {r : EvtRec} {rest : List EvtRec} (hcredit : 0 < s.evt.credits) (h : s.evt.queue = r :: rest) :
    let u := evtOut r.bytes { s with evt := { s.evt with queue := rest } }
    eventSend s = returnCredits (drainPubs (evtRefill
      { u with evt := { u.evt with excessWaiting := u.evt.excessWaiting && !isExcess r } })) := by
  unfold eventSend
  rw [if_neg (Nat.ne_of_gt hcredit), h]
  dsimp only
  cases isExcess r
  · rw [Bool.not_false, Bool.and_true]
    rfl
  · rw [Bool.not_true, Bool.and_false]
    rfl

theorem eventSend_of_alarm {s : State} (hcredit : 0 < s.evt.credits) (hqueue : s.evt.queue = []) (hruns : eociaRuns s = true)
    (halarm : s.tele.alarms ≠ []) : eventSend s = s := by
  unfold eventSend
  rw [if_neg (Nat.ne_of_gt hcredit), hqueue]
  exact if_pos (by simp [hruns, halarm])

/-- A trace leaves behind the queue and the alarms. -/
theorem eventSend_of_trace {s : State} {x : Trace} {rest : List Trace} (hcredit : 0 < s.evt.credits) (hqueue : s.evt.queue = [])
    (hpending : s.evt.pendingList = []) (halarm : s.tele.alarms = [] ∨ eociaRuns s = false) (h : s.tele.traces = x :: rest) :
    eventSend s = evtOut (traceBytes s x) { s with tele := { s.tele with traces := rest } } := by
  unfold eventSend
  rw [if_neg (Nat.ne_of_gt hcredit), hqueue]
  dsimp only
  rw [if_neg (by rcases halarm with h | h <;> simp [hpending, h]), h]

theorem alarmSend_of_queue {s : State} (h : s.evt.queue ≠ []) : alarmSend s = s := if_pos (by simp [h])

theorem alarmSend_of_alarm {s : State} {a : Alarm} {rest : List Alarm} (hcredit : 0 < s.evt.credits) (hqueue : s.evt.queue = [])
    (hpending : s.evt.pendingList = []) (hruns : eociaRuns s = true) (h : s.tele.alarms = a :: rest) :
    alarmSend s = evtOut (alarmBytes s a) { s with tele := { s.tele with alarms := rest } } := by
  rw [alarmSend, if_neg (by simp [Nat.ne_of_gt hcredit, hqueue, hpending, hruns]), h]

/-- Settles O45, by the record that leaves. -/
theorem eventPortSendsInOrder : Obligations.EventPortSendsInOrder := by
  intro s
  refine ⟨fun hlow => congrArg Host.Outcome.next (evtCredit_of_low hlow), fun hfull => ⟨fun hwaits => ?_, fun hnew => ?_⟩,
    fun hcredit => ⟨fun r rest hqueue => ⟨congrArg Host.Outcome.next (eventSend_of_queue hcredit hqueue), ?_⟩,
      fun a rest hqueue hpending hruns halarm => ⟨congrArg Host.Outcome.next (alarmSend_of_alarm hcredit hqueue hpending hruns halarm), ?_⟩,
      fun x rest hqueue hpending halarm htrace => congrArg Host.Outcome.next (eventSend_of_trace hcredit hqueue hpending halarm htrace)⟩,
    fun hnone => ⟨congrArg Host.Outcome.next (eventSend_of_none hnone), congrArg Host.Outcome.next (alarmSend_of_none hnone)⟩,
    fun b => ⟨rfl, rfl, rfl⟩⟩
  · exact congrArg Host.Outcome.next ((evtCredit_of_full hfull).trans (if_pos hwaits))
  · exact congrArg Host.Outcome.next ((evtCredit_of_full hfull).trans (if_neg (Bool.not_eq_true _ ▸ hnew)))
  · exact congrArg Host.Outcome.next (alarmSend_of_queue (by simp [hqueue]))
  · exact congrArg Host.Outcome.next (eventSend_of_alarm hcredit hqueue hruns (by simp [halarm]))

end Sys2Proof.Machine
end

section
/-! Members and their loss (O54). The slice that this one keeps stays the same while a regroup begins: `keptSlice` reads it, and there is one
equation for each operation that the start of a regroup runs. -/

namespace Sys2Proof.Machine

open Sys2Proof.Claims

/-! ### The start of a regroup leaves the kept slice (R414, R426) -/

/-- The slice whose records this slice keeps. -/
def keptSlice (s : State) : Nat := s.keeper.kept

@[simp] theorem keptSlice_mk
    {a1 a2 a3 a4 a5 a6 a7 a8 a9 a10 a11 a12 a13 a14 a15 a16 a17 a18 a19 a20 a21 a22 a23 a24 a25 a26 a27 a28 a29 a30 a31 a32
     a33 a34 a35 a36 a37 a38 a39 a40 a41 a42 a43 a44 a45} :
    keptSlice (State.mk a1 a2 a3 a4 a5 a6 a7 a8 a9 a10 a11 a12 a13 a14 a15 a16 a17 a18 a19 a20 a21 a22 a23 a24 a25 a26 a27 a28 a29 a30 a31
      a32 a33 a34 a35 a36 a37 a38 a39 a40 a41 a42 a43 a44 a45) = a42.kept := rfl

theorem kept_keeper (s : State) : s.keeper.kept = keptSlice s := rfl

@[simp] theorem keptSlice_ite (c : Prop) [Decidable c] (s t : State) :
    keptSlice (if c then s else t) = if c then keptSlice s else keptSlice t := apply_ite ..

@[simp] theorem keptSlice_foldl {α : Type} {f : State → α → State} (hf : ∀ t x, keptSlice (f t x) = keptSlice t) (l : List α) (s : State) :
    keptSlice (l.foldl f s) = keptSlice s := by
  induction l generalizing s with
  | nil => rfl
  | cons x l ih => rw [List.foldl_cons, ih, hf]

@[simp] theorem keptSlice_count (f : Counters → Counters) (s : State) : keptSlice (count f s) = keptSlice s := rfl
@[simp] theorem keptSlice_mbxIrq (p : Nat) (b : BitVec 5) (s : State) : keptSlice (mbxIrq p b s) = keptSlice s := rfl

@[simp] theorem keptSlice_trace (a b c : Nat) (d : Word) (e : BitVec 64) (s : State) : keptSlice (trace a b c d e s) = keptSlice s := by
  rw [trace_shape]
  rfl

@[simp] theorem keptSlice_alarm (n : Nat) (a : BitVec 64) (s : State) : keptSlice (alarm n a s) = keptSlice s := by
  rw [alarm_shape]
  rfl

@[simp] theorem keptSlice_send (n : Nat) (m : Msg) (s : State) : keptSlice (send n m s) = keptSlice s := by
  rw [send_shape]
  rfl

@[simp] theorem keptSlice_flood (m : Msg) (s : State) : keptSlice (flood m s) = keptSlice s := by
  rw [flood_shape]
  rfl

@[simp] theorem keptSlice_announceOut (n : Nat) (x : Sync) (s : State) : keptSlice (announceOut n x s) = keptSlice s := by simp [announceOut]
@[simp] theorem keptSlice_hmpIssue (s : State) : keptSlice (hmpIssue s) = keptSlice s := by simp [hmpIssue, kept_keeper]

@[simp] theorem keptSlice_hmpWrite (p a : Nat) (d : Bytes) (after : AfterWrite) (s : State) : keptSlice (hmpWrite p a d after s) = keptSlice s := by
  simp [hmpWrite, kept_keeper]

@[simp] theorem keptSlice_logWrite (rec : Bytes) (s : State) : keptSlice (logWrite rec s) = keptSlice s := by simp [logWrite, kept_keeper]

@[simp] theorem keptSlice_log (code part : Nat) (arg : BitVec 64) (s : State) : keptSlice (log code part arg s) = keptSlice s := by simp [log, kept_keeper]

@[simp] theorem keptSlice_deliver (p : Nat) (o : Origin) (tag st : BitVec 16) (ws : List (Nat × Word)) (s : State) :
    keptSlice (deliver p o tag st ws s) = keptSlice s := by
  unfold deliver
  split <;> simp [kept_keeper]

@[simp] theorem keptSlice_complete (op : Op) (c : Cmd) (st : Status) (ws : List (Nat × Word)) (s : State) :
    keptSlice (complete op c st ws s) = keptSlice s := by
  simp [complete, kept_keeper]

@[simp] theorem keptSlice_finish (f : PendCmd → Bool) (st : PendCmd → Status) (ws : PendCmd → List (Nat × Word)) (s : State) :
    keptSlice (finish f st ws s) = keptSlice s := by
  simp [finish, kept_keeper]

@[simp] theorem keptSlice_freeUses (f : BlockUse → Bool) (s : State) : keptSlice (freeUses f s) = keptSlice s := by simp [freeUses, kept_keeper]
@[simp] theorem keptSlice_updTrain (f : Training → Training) (s : State) : keptSlice (updTrain f s) = keptSlice s := rfl
@[simp] theorem keptSlice_updPlan (p : Nat) (f : Plan → Plan) (s : State) : keptSlice (updPlan p f s) = keptSlice s := rfl
@[simp] theorem keptSlice_restartPlan (s : State) (x : Plan) : keptSlice (restartPlan s x) = keptSlice s := by simp [restartPlan, kept_keeper]

@[simp] theorem keptSlice_stopTraining (s : State) : keptSlice (stopTraining s) = keptSlice s := by
  dsimp only [stopTraining]
  split <;> simp [kept_keeper]

@[simp] theorem keptSlice_putKeys (k : KeySet) (s : State) : keptSlice (putKeys k s) = keptSlice s := by simp [putKeys, kept_keeper]
@[simp] theorem keptSlice_drbg (n : Nat) (s : State) : keptSlice (drbg n s).2 = keptSlice s := rfl
@[simp] theorem keptSlice_newKeys (p : Nat) (s : State) : keptSlice (newKeys p s) = keptSlice s := by simp [newKeys]

@[simp] theorem keptSlice_renewKeys (p : Nat) (s : State) : keptSlice (renewKeys p s) = keptSlice s := by
  dsimp only [renewKeys]
  split
  · rfl
  · split <;> simp

@[simp] theorem keptSlice_freeLeaving (p : Nat) (s : State) : keptSlice (freeLeaving p s) = keptSlice s := rfl
@[simp] theorem keptSlice_finishKill (k : Kill) (s : State) : keptSlice (finishKill k s) = keptSlice s := by simp [finishKill, kept_keeper]
@[simp] theorem keptSlice_checkKills (s : State) : keptSlice (checkKills s) = keptSlice s := by simp [checkKills]

@[simp] theorem keptSlice_drainMeetsLoss (n : Nat) (s : State) : keptSlice (drainMeetsLoss n s) = keptSlice s := by
  unfold drainMeetsLoss
  split <;> simp [kept_keeper]

/-- A regroup that begins changes nothing of which slice this one keeps. -/
theorem keptSlice_beginRegroup (n f : Nat) (s : State) : keptSlice (beginRegroup n f s) = keptSlice s := by simp [beginRegroup, kept_keeper]

/-! ### Heartbeats (R388, R412) -/

section
variable {n : Nat} {s : State}

theorem heartbeat_of_member (hformed : s.group.formed = true) (hother : n ≠ me s) (hmember : n ∈ members s) : heartbeat n s =
    { s with group := { s.group with seen := s.group.seen.filter (fun x => x.1 != n) ++ [(n, s.timer)] } } := by
  rw [heartbeat, if_neg (by simp [hformed, hother, hmember])]

theorem heartbeat_of_stranger (h : s.group.formed = false ∨ n = me s ∨ n ∉ members s) : heartbeat n s = s := by
  rw [heartbeat, if_pos]
  rcases h with h | h | h <;> simp [h]

theorem heartbeatDue_of_sounding (hformed : s.group.formed = true) (hsounding : s.group.silent = false) :
    heartbeatDue s = flood (.heartbeat (me s) s.step.step) s := by
  rw [heartbeatDue, if_pos (by simp [hformed, hsounding])]

theorem heartbeatDue_of_silent (h : s.group.formed = false ∨ s.group.silent = true) : heartbeatDue s = s := by
  rw [heartbeatDue, if_neg]
  rcases h with h | h <;> simp [h]

/-! ### The loss of a member (R388, R424, R426) -/

theorem declareLost_of_stranger (h : s.group.formed = false ∨ n = me s ∨ n ∉ members s) : declareLost n s = s := by
  rw [declareLost, if_pos]
  rcases h with h | h | h <;> simp [h]

/-- The alarm of a member's loss. -/
def lossAlarmed (n : Nat) (s : State) : State := alarm 0x10 (BitVec.ofNat 64 (2 ^ n)) s

theorem lossAlarmed_frame (n : Nat) (s : State) : lossAlarmed n s = { s with
    tele := (lossAlarmed n s).tele, cnt := (lossAlarmed n s).cnt, regs := { s.regs with irqStatus := s.regs.irqStatus ||| 1 } } := by
  rw [lossAlarmed, alarm_shape]

theorem nextMember_lossAlarmed (m n : Nat) (s : State) : nextMember (lossAlarmed n s) m = nextMember s m := by
  rw [lossAlarmed_frame]
  rfl

theorem me_lossAlarmed (n : Nat) (s : State) : me (lossAlarmed n s) = me s := by
  rw [lossAlarmed_frame]
  rfl

section
variable (hformed : s.group.formed = true) (hother : n ≠ me s) (hmember : n ∈ members s)
include hformed hother hmember

/-- A member that another slice keeps is a hole, and its acknowledgement is no longer due. -/
theorem declareLost_of_kept_elsewhere (hkeeper : nextMember s n ≠ some (me s)) : declareLost n s = { lossAlarmed n s with
    group := { s.group with holes := ascending (addOnce s.group.holes n), seen := s.group.seen.filter fun x => x.1 != n }
    step := { s.step with acksDue := s.step.acksDue.erase n } } := by
  have helse : ¬ nextMember (lossAlarmed n s) n = some (me (lossAlarmed n s)) := by
    rw [nextMember_lossAlarmed, me_lossAlarmed]
    exact hkeeper
  have hgroup : (lossAlarmed n s).group = s.group := by rw [lossAlarmed_frame]
  have hstep : (lossAlarmed n s).step = s.step := by rw [lossAlarmed_frame]
  rw [declareLost, if_neg (by simp [hformed, hother, hmember])]
  refine (if_neg helse).trans ?_
  rw [← hgroup, ← hstep]
  rfl

/-- The keeper of a member starts the regroup; it holds a whole snapshot while it is that member that it keeps. -/
theorem declareLost_of_kept_here (hkeeper : nextMember s n = some (me s)) (hkept : s.keeper.kept = n) : declareLost n s =
    beginRegroup n (s.group.formId + 1) (flood (.regroup (.start n (s.group.formId + 1))) (lossAlarmed n s)) := by
  have hhere : nextMember (lossAlarmed n s) n = some (me (lossAlarmed n s)) := by
    rw [nextMember_lossAlarmed, me_lossAlarmed]
    exact hkeeper
  have hgroup : (lossAlarmed n s).group = s.group := by rw [lossAlarmed_frame]
  rw [declareLost, if_neg (by simp [hformed, hother, hmember])]
  refine (if_pos hhere).trans ?_
  rw [← hgroup]
  refine if_neg (not_not_intro ?_)
  refine (keptSlice_beginRegroup ..).trans ?_
  rw [keptSlice_flood]
  exact (keptSlice_alarm ..).trans hkept

end

theorem publishIfDone_of_published (f : State → State) (h : publishing s = false) : publishIfDone f s = f s := by
  unfold publishIfDone
  dsimp only
  rw [h]
  rfl

theorem reportNow_of_no_regroup (h : s.group.regroup = none) : reportNow s = s := by
  rw [reportNow, h]
  rfl

/-! ### The regroup and expulsion (R422, R424, R427) -/

theorem regroupArrives_of_unformed (m : RegroupMsg) (h : s.group.formed = false) : regroupArrives m s = s := if_pos (by simp [h])

theorem takeoverDone_of_no_regroup (h : s.group.regroup = none) : takeoverDone s = s := by
  have hends : takeoverEnds s = s := by rw [takeoverEnds, h]
  rw [takeoverDone, hends, h]

theorem takeoverDone_of_resume {r : Regroup} (h : s.group.regroup = some r) (hphase : r.phase = .resume) (hmaster : tickMaster s = me s) :
    takeoverDone s = emitTick (r.top + 1) s := by
  have hends : takeoverEnds s = s := by
    rw [takeoverEnds, h]
    exact if_pos (by simp [hphase])
  rw [takeoverDone, hends, h]
  exact if_pos (by simp [hphase, hmaster])

/-- The faults named of the other slices. -/
def faultsCleared (n : Nat) (s : State) : State :=
  { s with group := { s.group with geomFaults := s.group.geomFaults.filter fun x => x.1 != n } }

theorem expel_of_named (hformed : s.group.formed = true) (h : ∃ x ∈ s.group.geomFaults, x.1 = n ∧ 8 ≤ x.2) : expel n s =
    if n = me s then { faultsCleared n s with group := { (faultsCleared n s).group with silent := true } } else sliceLost n (faultsCleared n s) := by
  have hany : (s.group.geomFaults.any fun x => x.1 == n && x.2 ≥ 8) = true := by simpa using h
  rw [expel, if_neg (by simp [hformed, hany])]
  rfl

theorem expel_of_unnamed (h : ∀ x ∈ s.group.geomFaults, x.1 = n → x.2 < 8) : expel n s = s := by
  have hany : (s.group.geomFaults.any fun x => x.1 == n && x.2 ≥ 8) = false := by simpa using h
  rw [expel, if_pos (by simp [hany])]

end

/-- Settles O54. A request that a lost line concerns and a FAIL_ALL fail at a later stamp (log entry 103), the regroup's messages are typed (log entry
55), and a row whose condition does not hold does nothing (log entry 84). -/
theorem membersAreWatched : Obligations.MembersAreWatched := by
  intro n k s
  refine ⟨fun hformed hother hmember => ?_, fun h => ⟨?_, declareLost_of_stranger h⟩, fun hformed hsounding => ?_, fun h => ?_,
    fun hformed hother hmember hkeeper hregroup hpub => ?_, fun hformed hother hmember hkeeper hkept => ?_, fun hformed => ?_,
    fun q hformed => ?_, fun m hformed => ?_, fun hnone => ?_, fun r hregroup hphase hmaster => ?_, fun hformed hnamed hme => ?_,
    fun hformed hnamed hother => ?_, fun hfew => ?_⟩
  · exact congrArg Host.Outcome.next (heartbeat_of_member hformed hother hmember)
  · exact congrArg Host.Outcome.next (heartbeat_of_stranger h)
  · exact congrArg Host.Outcome.next (heartbeatDue_of_sounding hformed hsounding)
  · exact congrArg Host.Outcome.next (heartbeatDue_of_silent h)
  · have hlost := declareLost_of_kept_elsewhere hformed hother hmember hkeeper
    have hregroup' : (declareLost n s).group.regroup = none := by rw [hlost]; exact hregroup
    refine ⟨declareLost n s, ?_, ?_⟩
    · change Host.Outcome.next (reportNow (publishIfDone (declareLost n) s)) = _
      rw [publishIfDone_of_published _ hpub, reportNow_of_no_regroup hregroup']
    · rw [hlost, lossAlarmed_frame]
      exact ⟨rfl, rfl, rfl, rfl⟩
  · refine ⟨lossAlarmed n s, declareLost_of_kept_here hformed hother hmember hkeeper hkept, ?_⟩
    rw [lossAlarmed_frame]
  · exact congrArg Host.Outcome.next (if_neg (by simp [hformed]))
  · exact congrArg Host.Outcome.next (if_neg (by simp [hformed]))
  · exact congrArg Host.Outcome.next (regroupArrives_of_unformed m hformed)
  · exact congrArg Host.Outcome.next (takeoverDone_of_no_regroup hnone)
  · exact congrArg Host.Outcome.next (takeoverDone_of_resume hregroup hphase hmaster)
  · exact congrArg Host.Outcome.next ((expel_of_named hformed hnamed).trans (if_pos hme))
  · exact congrArg Host.Outcome.next ((expel_of_named hformed hnamed).trans (if_neg hother))
  · exact congrArg Host.Outcome.next (expel_of_unnamed hfew)

end Sys2Proof.Machine
end

section
/-! The sessions and lanes of a link port (O55). -/

namespace Sys2Proof.Machine

open Sys2Proof.Claims

/-- The session of a port takes flits (R371, R383). -/
def TakesFlits (p : Port) : Prop := p.session = .active ∨ p.session = .hello

theorem takesFlits_iff (p : Port) : TakesFlits p ↔ (p.session == .active || p.session == .hello) = true := by
  simp [TakesFlits]

@[simp] theorem portOf_trace (n a b c : Nat) (d : Word) (e : BitVec 64) (s : State) : portOf (trace a b c d e s) n = portOf s n := by
  rw [trace_shape]
  rfl

@[simp] theorem portOf_alarm (n code : Nat) (arg : BitVec 64) (s : State) : portOf (alarm code arg s) n = portOf s n := by
  rw [alarm_shape]
  rfl

section
variable {n lane : Nat} {b : Bytes} {s : State}

/-! ### Flits (R371, R372) -/

theorem flitArrives_of_closed (ok : Bool) (h : ¬ TakesFlits (portOf s n)) : flitArrives n lane b ok s = s := by
  have hclosed := (not_congr (takesFlits_iff _)).1 h
  unfold flitArrives
  dsimp only
  rw [if_pos (by simp [Bool.not_eq_true _ ▸ hclosed])]

section
variable (hup : TakesFlits (portOf s n)) (hlane : (portOf s n).lanes.getD lane false = true)
include hup hlane

theorem flit_not_dropped :
    ¬ (!((portOf s n).session == .active || (portOf s n).session == .hello) || !((portOf s n).lanes.getD lane false)) = true := by
  rw [(takesFlits_iff _).1 hup, hlane]
  simp

/-- A flit that is not whole draws one NAK (R372). -/
theorem flitArrives_of_broken {ok : Bool} (h : ok = false ∨ b.length ≠ 256 ∨ (crc32 (b.take 252)).toNat ≠ leAt b 252 4) :
    flitArrives n lane b ok s = linkSend n (updPort n nakOnce (linkStart s)) := by
  unfold flitArrives
  dsimp only
  rw [if_neg (flit_not_dropped hup hlane), if_pos]
  rcases h with h | h | h <;> simp [h]

/-- A whole flit without a message and without a NAK acknowledges and returns credits. -/
theorem flitArrives_of_idle (hlen : b.length = 256) (hcrc : (crc32 (b.take 252)).toNat = leAt b 252 4) (hidle : bitOf (leAt b 0 4) 2 = true)
    (hnak : bitOf (leAt b 4 4) 24 = false) : flitArrives n lane b true s =
      linkSend n (updPort n (fun p => takeCredits (leAt b 8 4) (takeAck (field (leAt b 4 4) 12 12) p)) (linkStart s)) := by
  unfold flitArrives
  dsimp only
  rw [if_neg (flit_not_dropped hup hlane), if_neg (by simp [hlen, hcrc]), hnak, if_neg Bool.false_ne_true, if_pos (by simp [hidle])]

/-! ### Lanes and replays (R372, R383, R387) -/

/-- A lane that fails leaves the port on the other one (R387). -/
theorem laneLost_of_other (hother : ((portOf (setLane n lane false s) n).lanes.any id) = true) : laneLost n lane s =
    linkSend n (replayPort n (linkStart (alarm 0x17 (BitVec.twoPow 64 (2 * n + lane)) (setLane n lane false s)))) := by
  unfold laneLost
  dsimp only
  rw [if_neg (flit_not_dropped hup hlane), if_pos hother]

end

theorem laneLocks_of_up (hup : TakesFlits (portOf s n)) (hfitted : laneFitted s n lane = true) :
    laneLocks n lane s = setLane n lane true s := by
  unfold laneLocks
  dsimp only
  rw [hfitted, if_neg (by decide)]
  rcases hup with h | h <;> rw [h]

theorem laneLocks_of_train (htrain : (portOf s n).session = .train) (hfitted : laneFitted s n lane = true) :
    laneLocks n lane s = enterHello n (setLane n lane true s) := by
  unfold laneLocks
  dsimp only
  rw [hfitted, if_neg (by decide), htrain]

/-! ### Training (R383, R451) -/

theorem trainPort_of_down (hdown : (portOf s n).session = .down) (hfitted : (portOf s n).fitted = true)
    (hpower : s.power.on.getLsbD (136 + n) = true) : trainPort n s = setSession n .train s := by
  unfold trainPort
  dsimp only
  rw [if_pos (by simp only [hdown, hfitted, hpower, decide_true, Bool.and_self])]

theorem trainPort_of_not_down (h : (portOf s n).session ≠ .down) : trainPort n s = s := by
  unfold trainPort
  dsimp only
  rw [if_neg (by simp [h])]

theorem trainingSignal_of_bringUp (hformed : s.group.formed = false) (hboot : pastBoot s = true) : trainingSignal n s = trainPort n s := by
  rw [trainingSignal, if_neg (by simp [hformed, hboot])]

theorem portOf_setSession_same (x : Session) (hport : n < s.link.ports.length) :
    portOf (setSession n x s) n = { portOf s n with session := x } := by
  rw [setSession, portOf_trace, portOf_updPort_same _ hport]

theorem portOf_setSession_other {k : Nat} (x : Session) (hne : k ≠ n) : portOf (setSession n x s) k = portOf s k := by
  rw [setSession, portOf_trace, portOf_updPort_other _ _ hne]

/-! ### The margin of a lane (R369) -/

/-- The alarm of a lane's margin is given once. -/
def marginTold (lane : Nat) (p : Port) : Port := { p with marginAlarm := p.marginAlarm.set lane true }

theorem marginLow_of_first (hlane : (portOf s n).lanes.getD lane false = true) (hfirst : (portOf s n).marginAlarm.getD lane true = false) :
    marginLow n lane s = alarm 0x15 (BitVec.twoPow 64 (2 * n + lane)) (updPort n (marginTold lane) s) := by
  unfold marginLow
  dsimp only
  rw [hlane, hfirst]
  rfl

end

/-- Settles O55. The flits that a row drives start anew with it (`linkStart`, log entry 86), the CRC is log entry 14, details of the link are log
entry 106, and a row whose condition does not hold does nothing (log entry 84). -/
theorem linkEventsMoveTheSession : Obligations.LinkEventsMoveTheSession := by
  intro n lane b s hport p up
  refine ⟨fun ok h => ?_, fun ok hup hlane hbroken => ?_, fun w k hup hlane hlen hcrc hw hk hidle hnak => ?_, fun hactive hreplay => ?_,
    fun h => ?_, fun hup hlane hother => ?_, rfl, fun hup hfitted => ?_, fun htrain hfitted => ?_, fun htrain => ?_, fun hretrain => ?_,
    fun hdown hfitted hpower => ⟨fun hruns => ?_, fun hformed hboot => ?_⟩, fun h => ⟨?_, ?_⟩, fun hlane hfirst => ?_,
    fun x => ⟨?_, fun k hk => ?_⟩⟩
  · exact congrArg Host.Outcome.next (flitArrives_of_closed ok h)
  · exact congrArg Host.Outcome.next (flitArrives_of_broken hup hlane hbroken)
  · subst hw hk
    exact congrArg Host.Outcome.next (flitArrives_of_idle hup hlane hlen hcrc hidle hnak)
  · have hlive : (portLive s n && !(portOf s n).replay.isEmpty) = true := by
      have hsome : (portOf s n).replay.isEmpty = false := by simpa using hreplay
      rw [portLive, show (portOf s n).session = .active from hactive, hsome]
      rfl
    exact congrArg Host.Outcome.next (if_pos hlive)
  · have hidle : ¬ (portLive s n && !(portOf s n).replay.isEmpty) = true := by
      rintro hdue
      obtain ⟨hlive, hsome⟩ := Bool.and_eq_true_iff.1 hdue
      rcases h with h | h
      · exact h (beq_iff_eq.1 hlive)
      · simp [show (portOf s n).replay = [] from h] at hsome
    exact congrArg Host.Outcome.next (if_neg hidle)
  · exact congrArg Host.Outcome.next (laneLost_of_other hup hlane hother)
  · exact congrArg Host.Outcome.next (laneLocks_of_up hup hfitted)
  · exact congrArg Host.Outcome.next (laneLocks_of_train htrain hfitted)
  · exact congrArg Host.Outcome.next (if_pos htrain)
  · exact congrArg Host.Outcome.next (if_pos hretrain)
  · exact congrArg Host.Outcome.next ((if_pos hruns).trans (trainPort_of_down hdown hfitted hpower))
  · exact congrArg Host.Outcome.next ((trainingSignal_of_bringUp hformed hboot).trans (trainPort_of_down hdown hfitted hpower))
  · refine congrArg Host.Outcome.next ?_
    rw [trainPort_of_not_down h, ite_self]
  · refine congrArg Host.Outcome.next ?_
    rw [trainingSignal, trainPort_of_not_down h, ite_self]
  · refine ⟨_, congrArg Host.Outcome.next (marginLow_of_first hlane hfirst), ?_, alarm_waits _ _ _, ?_⟩
    · rw [portOf_alarm, portOf_updPort_same _ hport]
      rfl
    · rw [alarm_shape]
      rfl
  · exact portOf_setSession_same x hport
  · exact portOf_setSession_other x hk

end Sys2Proof.Machine
end

section
/-! Reset, boot and restarts of Whisk, power and the clocks of the pans, alarms and traces (O56, O58, O59). -/

namespace Sys2Proof.Machine

open Sys2Proof.Claims

/-! ### Reset, boot and restarts (R404, R409, R438, R445 to R448) -/

section
variable {img : Bytes} {second : Bool} {reps : List DeltaEntry} {s : State}

theorem bootChecked_of_booting (h : s.whisk = .booting second) (hrun : s.inReset = false) : bootChecked img s = imageBoots img second s := by
  rw [bootChecked, h]
  exact if_neg (by simp [hrun])

theorem imageBoots_of_good (h : imageFault s img = none) : imageBoots img second s = eociaStarts img s := by
  rw [imageBoots, h]

theorem imageBoots_of_bad {n : Nat} (h : imageFault s img = some n) :
    imageBoots img second s = if secondImage s && !second then { s with whisk := .booting true } else enterHold n s := by
  rw [imageBoots, h]

/-- Boot hold keeps everything but Whisk, with an alarm. -/
theorem enterHold_frame (n : Nat) (s : State) : enterHold n s = { s with
    whisk := .hold, tele := (enterHold n s).tele, cnt := (enterHold n s).cnt, regs := { s.regs with irqStatus := s.regs.irqStatus ||| 1 } } := by
  rw [enterHold, alarm_shape]

theorem restartDone_of_good {cause : Nat} (h : s.whisk = .restarting cause second) (hcause : cause < 3) (hgood : imageFault s img = none) :
    restartDone img reps s = eociaRestarts cause img reps s := by
  rw [restartDone, h]
  dsimp only
  rw [if_neg (Nat.ne_of_lt hcause), hgood]

theorem restartDone_of_other (h : ∀ c x, s.whisk ≠ .restarting c x) : restartDone img reps s = s := by
  unfold restartDone
  split
  · next c x hx => exact absurd hx (h c x)
  · rfl

theorem eociaRuns_iff : eociaRuns s = true ↔ s.whisk = .running ∧ s.dbg.halted.getLsbD 0 = false := by
  rw [eociaRuns, Bool.and_eq_true, beq_iff_eq, Bool.not_eq_true']

end

/-- The state of a Whisk that restarts: what was issued and not accepted is ready with BUSY (Table 15.11). -/
def restarting (cause : Nat) (s : State) : State :=
  let u := alarm 0x0D (BitVec.ofNat 64 cause) s
  { u with
    whisk := .restarting cause false
    eocia := { u.eocia with inbox := [], awaitAck := [],
                            ready := u.eocia.ready ++ (unaccepted s).map fun x => (x.1, x.2, Status.busy.code, ([] : List (Nat × Word))) }
    keeper := { u.keeper with unacked := u.keeper.unacked.map fun u => (u.1, false) }
    dbg := { u.dbg with halted := u.dbg.halted &&& 0b1110#4 } }

theorem whiskFault_of_running {cause : Nat} {s : State} (h : s.whisk = .running) : whiskFault cause s = eociaResumes (restarting cause s) := by
  rw [whiskFault, if_neg (not_not_intro h)]
  rfl

/-- Settles O56. What is fresh and waits keeps over a reset (log entry 124), commands that await an acknowledgement answer BUSY after a restart (log
entry 121), and a row whose condition does not hold does nothing (log entry 84). -/
theorem whiskBootsAndRestarts : Obligations.WhiskBootsAndRestarts := by
  intro straps img second s
  refine ⟨?_, rfl, fun hboot hrun hgood => ?_, fun n hboot hrun hbad hlast => ?_, fun n hboot hrun hbad hmore => ?_, fun hruns => ?_,
    fun hhalted => ⟨?_, ?_⟩, fun cause reps hrestart hcause hgood => ?_, fun reps hother => ?_⟩
  · refine congrArg Host.Outcome.next ?_
    unfold resetRises
    simp only [Bool.or_eq_true, decide_eq_true_eq]
    rfl
  · exact congrArg Host.Outcome.next ((bootChecked_of_booting hboot hrun).trans (imageBoots_of_good hgood))
  · have hno : ¬ (secondImage s && !second) = true := by rcases hlast with h | h <;> simp [h]
    refine ⟨enterHold n s, congrArg Host.Outcome.next ((bootChecked_of_booting hboot hrun).trans ((imageBoots_of_bad hbad).trans (if_neg hno))), ?_,
      alarm_waits _ _ _, ?_⟩
    · rw [enterHold_frame]
    · rw [enterHold_frame]
  · exact congrArg Host.Outcome.next ((bootChecked_of_booting hboot hrun).trans ((imageBoots_of_bad hbad).trans (if_pos (by simp [hmore]))))
  · obtain ⟨hrunning, hfree⟩ := eociaRuns_iff.1 hruns
    have hfree' : ¬ s.dbg.halted.getLsbD 0 = true := by rw [hfree]; exact Bool.false_ne_true
    refine ⟨congrArg Host.Outcome.next (if_neg hfree'), congrArg Host.Outcome.next (if_neg hfree'), restarting 0 s,
      whiskFault_of_running hrunning, rfl, rfl, rfl, ?_, ?_⟩
    · rw [restarting, alarm_shape]
    · rw [restarting, alarm_shape]
      rfl
  · exact congrArg Host.Outcome.next (if_pos hhalted)
  · exact congrArg Host.Outcome.next (if_pos hhalted)
  · exact congrArg Host.Outcome.next (restartDone_of_good hrestart hcause hgood)
  · exact congrArg Host.Outcome.next (restartDone_of_other hother)

/-! ### Pan pairs (R442 to R444, R455) -/

/-- One pair of an alert. -/
def alertPair (s : State) (p : Nat) : State :=
  if (s.power.pairs.getD p ⟨0, 0, false, 0⟩).mhz = 0 then s else setPair p 350 s

/-- The frequency of a pair in an alert (R444). -/
def alertMhz (n : Nat) : Nat := if n = 0 then 0 else 350

theorem pairsSet_alertPair (p : Nat) (s : State) : PairsSet alertMhz [p] s (alertPair s p) := by
  unfold alertPair
  split
  · next hstopped =>
    refine pairsSet_same fun x hx => ?_
    rw [getD_pairs hx] at hstopped
    simp [alertMhz, hstopped]
  · next hruns =>
    refine pairsSet_setPair fun x hx => ?_
    rw [getD_pairs hx] at hruns
    exact if_neg hruns

theorem alertMhz_alertMhz (n : Nat) : alertMhz (alertMhz n) = alertMhz n := by
  unfold alertMhz
  split <;> rfl

/-- The pair of a place after it was changed. -/
theorem getElem?_updPair_same {p : Nat} {x : Pair} {s : State} (f : Pair → Pair) (h : s.power.pairs[p]? = some x) :
    (updAt s.power.pairs p f)[p]? = some (f x) := by
  simp [updAt, h]

section
variable {p : Nat} {x : Pair} {s : State} (hpair : s.power.pairs[p]? = some x)
include hpair

theorem vfLoop_of_stretched {st cyc : Nat} (q : Bool) (halert : s.power.alert = false) (hmhz : 375 ≤ x.mhz) (hst : cyc < st * 1024) :
    vfLoop p st cyc q s = setPair p (min (ceiling s) (x.mhz - 25)) s := by
  rw [vfLoop, hpair]
  dsimp only
  rw [if_neg (by omega), halert, if_neg Bool.false_ne_true, if_pos hst, if_neg (by omega)]

theorem vfLoop_of_quiet {st cyc : Nat} (halert : s.power.alert = false) (hmhz : 375 ≤ x.mhz) (hst : st * 1024 ≤ cyc) (hlow : x.mhz < ceiling s)
    (hwait : x.waitVack = false) :
    vfLoop p st cyc true s = updPair p (fun x => { x with code := vcode s (x.mhz + 25), waitVack := true }) s := by
  rw [vfLoop, hpair]
  dsimp only
  rw [if_neg (by omega), halert, if_neg Bool.false_ne_true, if_neg (by omega), if_neg (by omega),
    if_pos (by simp only [hwait, hlow, decide_true, Bool.not_false, Bool.and_self])]

theorem vackRises_of_waiting (hwait : x.waitVack = true) (hroom : x.mhz + 25 ≤ ceiling s) : vackRises p s = setPair p (x.mhz + 25) s := by
  rw [vackRises, hpair]
  dsimp only
  rw [if_neg (by simp [hwait]), if_pos hroom]

theorem vackRises_of_settled (hwait : x.waitVack = false) : vackRises p s = s := by
  rw [vackRises, hpair]
  exact if_pos (by simp [hwait])

end

/-! ### Domains (R436 to R440) -/

section
variable {d : Nat} {s : State}

@[simp] theorem returnCredits_power (s : State) : (returnCredits s).power = s.power := by
  unfold returnCredits
  split <;> rfl

theorem pwrAck_of_unasked (h : s.power.req.getLsbD d = false) : pwrAck d s = s := if_pos (by simp [h])

theorem domainUp_of_unasked (h : s.power.req.getLsbD d = false) : domainUp d s = returnCredits s := by
  unfold domainUp
  dsimp only
  rw [pwrAck_of_unasked h, if_neg (by rw [returnCredits_power]; cases s.power.on.getLsbD d <;> simp)]

theorem domainUp_of_on (h : s.power.on.getLsbD d = true) : domainUp d s = returnCredits (pwrAck d s) := by
  unfold domainUp
  dsimp only
  rw [if_neg (by rw [h]; simp)]

theorem ackMissing_of_due (hreq : s.power.req.getLsbD d = true) (hack : s.power.ack.getLsbD d = false) : ackMissing d s = domainFault d s := by
  rw [ackMissing, if_pos (by rw [hreq, hack]; rfl)]

theorem ackMissing_of_none (hd : 48 ≤ d) (h : s.power.req.getLsbD d = false ∨ s.power.ack.getLsbD d = true) : ackMissing d s = s := by
  rw [ackMissing, if_neg (by rcases h with h | h <;> rw [h] <;> simp), if_neg (by simp; omega)]

end

section
variable {n : Nat} {s : State} (hsolo : s.group.solo = false) (hruns : eociaRuns s = true) (hreq : s.power.req.getLsbD n = true)
  (hpan : n < s.kit.pans) (hfenced : s.power.fenced.contains n = false)
include hsolo hruns hreq hpan hfenced

theorem panIdleOff_eq_ite : panIdleOff n s = if s.power.idle.getD n 0 < 64 then s else planPower ((pansNow s).filter (· ≠ n)) s := by
  rw [panIdleOff, if_neg (by rw [hsolo, hruns, hreq]; simp [hpan]), hfenced]
  simp

end

/-- Settles O58: an alert sets the running pairs one after the other (`pairsSet_foldl`), and the other rows are branches of their operations. The
value of the power estimate is log entries 1 and 12, a domain that goes off log entry 92, a row without effect log entry 84. -/
theorem powerAndClocksFollow : Obligations.PowerAndClocksFollow := by
  intro p x s hpair
  refine ⟨?_, rfl, fun halert hmhz => ⟨fun st cyc q hst => ?_, fun st cyc hst hlow hwait => ?_⟩, fun hwait hroom => ?_, fun hwait => ?_,
    ⟨_, rfl, ?_, by rw [setPair_frame]⟩, ?_, ⟨_, rfl⟩, fun d hreq => ?_, fun d hreq hon hd => ?_, fun d hreq hack => ?_, fun d hd h => ?_,
    fun n hsolo hruns hreq hpan hfenced => ⟨fun hidle => ?_, fun hbusy => ?_⟩⟩
  · let r : State := { s with power := { s.power with alert := true } }
    have hset : PairsSet alertMhz (List.range s.power.pairs.length) r (alertRise s) :=
      pairsSet_foldl alertMhz_alertMhz (fun t p _ => pairsSet_alertPair p t) _ (rfl : ceiling r = ceiling r)
    refine ⟨alertRise s, rfl, ?_, hset.length_eq, fun y hy => ?_, ?_⟩
    · rw [hset.frame]
    · rw [hset.mhz_eq p x y hpair hy, if_pos (List.mem_range.2 (List.getElem?_eq_some_iff.1 hpair).1)]
      rfl
    · rw [hset.frame]
  · exact congrArg Host.Outcome.next (vfLoop_of_stretched hpair q halert hmhz hst)
  · exact ⟨_, congrArg Host.Outcome.next (vfLoop_of_quiet hpair halert hmhz hst hlow hwait), getElem?_updPair_same _ hpair, rfl⟩
  · exact congrArg Host.Outcome.next (vackRises_of_waiting hpair hwait hroom)
  · exact congrArg Host.Outcome.next (vackRises_of_settled hpair hwait)
  · rw [setPair_pairs]
    exact getElem?_updPair_same _ hpair
  · exact ⟨_, congrArg Host.Outcome.next (if_pos (List.getElem?_eq_some_iff.1 hpair).1), getElem?_updPair_same _ hpair, rfl⟩
  · exact congrArg Host.Outcome.next (domainUp_of_unasked hreq)
  · exact congrArg Host.Outcome.next (domainUp_of_on hon)
  · exact congrArg Host.Outcome.next (ackMissing_of_due hreq hack)
  · exact congrArg Host.Outcome.next (ackMissing_of_none hd h)
  · exact congrArg Host.Outcome.next ((panIdleOff_eq_ite hsolo hruns hreq hpan hfenced).trans (if_neg (Nat.not_lt.2 hidle)))
  · exact congrArg Host.Outcome.next ((panIdleOff_eq_ite hsolo hruns hreq hpan hfenced).trans (if_pos hbusy))

/-! ### Alarms and traces (R457, R459, R463) -/

section
variable {code : Nat} {arg : BitVec 64} {s : State}

theorem alarm_of_new (h : ∀ a ∈ s.tele.alarms, a.code ≠ code) :
    (alarm code arg s).tele.alarms = s.tele.alarms ++ [⟨code, 1, s.timer, s.timer, arg⟩] := by
  have hnone : ¬ (s.tele.alarms.any fun a => a.code == code) = true := by simpa using h
  exact congrArg (fun t : State => t.tele.alarms) (if_neg hnone)

/-- An entry that waits takes the alarm of its code; any other is left as it was. -/
def merged (code : Nat) (arg : BitVec 64) (now : Nat) (a : Alarm) : Alarm :=
  if a.code = code then
    { a with count := min (2 ^ 32 - 1) (a.count + 1), lastNs := now, arg := if alarmMask code then a.arg ||| arg else a.arg }
  else a

theorem alarm_of_waiting {a : Alarm} (ha : a ∈ s.tele.alarms) (hcode : a.code = code) :
    (alarm code arg s).tele.alarms = s.tele.alarms.map (merged code arg s.timer)
      ∧ (alarm code arg s).cnt.alarmCoalesced = s.cnt.alarmCoalesced + 1 := by
  have hsome : (s.tele.alarms.any fun a => a.code == code) = true := List.any_eq_true.2 ⟨a, ha, beq_iff_eq.2 hcode⟩
  exact ⟨congrArg (fun t : State => t.tele.alarms) (if_pos hsome), congrArg (fun t : State => t.cnt.alarmCoalesced) (if_pos hsome)⟩

theorem code_merged (now : Nat) (a : Alarm) : (merged code arg now a).code = a.code := by
  unfold merged
  split <;> rfl

theorem merged_of_other {now : Nat} {a : Alarm} (h : a.code ≠ code) : merged code arg now a = a := if_neg h

theorem lastNs_merged {now : Nat} {a : Alarm} (h : a.code = code) : (merged code arg now a).lastNs = now := by
  rw [merged, if_pos h]

end

/-- Settles O59: an alarm merges or joins the list, and a trace is kept or counted by the room of its source's buffer. -/
theorem alarmsMergeAndTracesYield : Obligations.AlarmsMergeAndTracesYield := by
  intro code src prio ev a0 arg s
  refine ⟨⟨_, rfl, ?_, alarm_of_new, fun a ha hcode => ?_, by rw [alarm_shape]⟩, fun hlow => if_pos hlow, fun hhigh hroom => ?_,
    fun hhigh hfull => ?_⟩
  · rw [alarm_shape]
  · obtain ⟨halarms, hcount⟩ := alarm_of_waiting (arg := arg) ha hcode
    rw [halarms]
    refine ⟨List.length_map .., hcount, fun b hb hother => ?_, fun b hb hsame => ?_⟩
    · exact List.mem_map.2 ⟨b, hb, merged_of_other hother⟩
    · obtain ⟨x, -, rfl⟩ := List.mem_map.1 hb
      rw [code_merged] at hsame
      exact lastNs_merged hsame
  · rw [trace, if_neg (Nat.not_lt.2 hhigh)]
    exact if_pos hroom
  · rw [trace, if_neg (Nat.not_lt.2 hhigh)]
    exact if_neg (Nat.not_lt.2 hfull)

end Sys2Proof.Machine
end

section
/-! Programmed fuses stay programmed (O6). No operation of the model but FUSE writes the fuse bank, whatever the state, so there is one equation
`fusesOf (f … s) = fusesOf s` for each operation, in the order of the model's files and by its branches, as for `kitQueue`. (`Held` of
Laws/Held.lean keeps the fuses too, but only in a state within the limits of `Inv`, and O6 is about every state.) -/

-- The proofs of this part are checked one after another: the whole package is one text under a limit on threads.
set_option Elab.async false

namespace Sys2Proof.Machine

open Sys2Proof.Claims

/-- The fuse bank of a state (R403). -/
def fusesOf (s : State) : Fuses := s.sec.fuses

/-! ### Updates, conditions, folds and steps that can fail -/

@[simp] theorem fusesOf_mk
    {a1 a2 a3 a4 a5 a6 a7 a8 a9 a10 a11 a12 a13 a14 a15 a16 a17 a18 a19 a20 a21 a22 a23 a24 a25 a26 a27 a28 a29 a30 a31 a32
     a33 a34 a35 a36 a37 a38 a39 a40 a41 a42 a43 a44 a45} :
    fusesOf (State.mk a1 a2 a3 a4 a5 a6 a7 a8 a9 a10 a11 a12 a13 a14 a15 a16 a17 a18 a19 a20 a21 a22 a23 a24 a25 a26 a27 a28 a29 a30 a31
      a32 a33 a34 a35 a36 a37 a38 a39 a40 a41 a42 a43 a44 a45) = a40.fuses := rfl

@[simp] theorem fusesOf_eta (s : State) : s.sec.fuses = fusesOf s := rfl

@[simp] theorem fusesOf_ite (c : Prop) [Decidable c] (s t : State) :
    fusesOf (if c then s else t) = if c then fusesOf s else fusesOf t := apply_ite ..

@[simp] theorem fusesOf_foldl {α : Type} {f : State → α → State} (hf : ∀ t x, fusesOf (f t x) = fusesOf t) (l : List α) (s : State) :
    fusesOf (l.foldl f s) = fusesOf s := by
  induction l generalizing s with
  | nil => rfl
  | cons x l ih => rw [List.foldl_cons, ih, hf]

theorem fusesOf_bind {ε : Type} {x : Except ε State} {f : State → Except ε State} {s u : State}
    (hx : ∀ t, x = .ok t → fusesOf t = fusesOf s) (hf : ∀ t u, f t = .ok u → fusesOf u = fusesOf t) (e : x.bind f = .ok u) :
    fusesOf u = fusesOf s := by
  cases x with
  | error a => cases e
  | ok t => exact (hf t u e).trans (hx t rfl)

/-! ### Machine/Ops.lean -/
@[simp] theorem fusesOf_updReq (q : Nat) (f : ReqEntry → ReqEntry) (s : State) : fusesOf (updReq q f s) = fusesOf s := by simp [updReq]
@[simp] theorem fusesOf_count (f : Counters → Counters) (s : State) : fusesOf (count f s) = fusesOf s := by simp [count]

@[simp] theorem fusesOf_trace (src prio event : Nat) (arg0 : Word) (arg1 : BitVec 64) (s : State) :
    fusesOf (trace src prio event arg0 arg1 s) = fusesOf s := by
  dsimp only [trace]; (repeat' split) <;> simp

@[simp] theorem fusesOf_perf (offset n : Nat) (s : State) : fusesOf (perf offset n s) = fusesOf s := by simp [perf]
@[simp] theorem fusesOf_alarm (code : Nat) (arg : BitVec 64) (s : State) : fusesOf (alarm code arg s) = fusesOf s := by simp [alarm]
@[simp] theorem fusesOf_drbg (n : Nat) (s : State) : fusesOf (drbg n s).2 = fusesOf s := by simp [drbg]
@[simp] theorem fusesOf_hmpIssue (s : State) : fusesOf (hmpIssue s) = fusesOf s := by simp [hmpIssue]

@[simp] theorem fusesOf_hmpWrite (part addr : Nat) (data : Bytes) (after : AfterWrite) (s : State) :
    fusesOf (hmpWrite part addr data after s) = fusesOf s := by simp [hmpWrite]

@[simp] theorem fusesOf_hmpRead (part addr len : Nat) (ch : RdCh) (p : Purpose) (s : State) :
    fusesOf (hmpRead part addr len ch p s) = fusesOf s := by simp [hmpRead]

@[simp] theorem fusesOf_logWrite (rec : Bytes) (s : State) : fusesOf (logWrite rec s) = fusesOf s := by simp [logWrite]
@[simp] theorem fusesOf_log (code part : Nat) (arg : BitVec 64) (s : State) : fusesOf (log code part arg s) = fusesOf s := by simp [log]
@[simp] theorem fusesOf_event (kind : Nat) (bytes : Bytes) (s : State) : fusesOf (event kind bytes s) = fusesOf s := by simp [event]
@[simp] theorem fusesOf_evtRefill (s : State) : fusesOf (evtRefill s) = fusesOf s := by simp [evtRefill]
@[simp] theorem fusesOf_mbxIrq (p : Nat) (bits : BitVec 5) (s : State) : fusesOf (mbxIrq p bits s) = fusesOf s := by simp [mbxIrq]

@[simp] theorem fusesOf_doorbell (e : ReqEntry) (n : Nat) (st : BitVec 16) (s : State) :
    fusesOf (doorbell e n st s) = fusesOf s := by simp [doorbell]

@[simp] theorem fusesOf_rejection (cls : HipClass) (part id stepSeq node : Nat) (r : Reason) (s : State) :
    fusesOf (rejection cls part id stepSeq node r s) = fusesOf s := by simp [rejection]

@[simp] theorem fusesOf_rejectRow (r : RowRec) (why : Reason) (s : State) : fusesOf (rejectRow r why s) = fusesOf s := by simp [rejectRow]

@[simp] theorem fusesOf_freezePort (m : Master) (s : State) : fusesOf (freezePort m s) = fusesOf s := by
  unfold freezePort; split <;> simp

@[simp] theorem fusesOf_freeze (m : Master) (port part : Nat) (argLog : BitVec 64) (s : State) :
    fusesOf (freeze m port part argLog s) = fusesOf s := by simp [freeze]

@[simp] theorem fusesOf_violation (m : Master) (port part code id offset : Nat) (now : Bool) (s : State) :
    fusesOf (violation m port part code id offset now s) = fusesOf s := by simp [violation]

@[simp] theorem fusesOf_send (dest : Nat) (m : Msg) (s : State) : fusesOf (send dest m s) = fusesOf s := by simp [send]
@[simp] theorem fusesOf_flood (m : Msg) (s : State) : fusesOf (flood m s) = fusesOf s := by simp [flood]
@[simp] theorem fusesOf_floodForm (m : Msg) (s : State) : fusesOf (floodForm m s) = fusesOf s := by simp [floodForm]
@[simp] theorem fusesOf_announce (step : Nat) (i : Sync) (s : State) : fusesOf (announce step i s) = fusesOf s := by simp [announce]
@[simp] theorem fusesOf_announceOut (step : Nat) (i : Sync) (s : State) : fusesOf (announceOut step i s) = fusesOf s := by simp [announceOut]
@[simp] theorem fusesOf_rowTold (src q n : Nat) (s : State) : fusesOf (rowTold src q n s) = fusesOf s := by simp [rowTold]
@[simp] theorem fusesOf_rowFreed (q n : Nat) (s : State) : fusesOf (rowFreed q n s) = fusesOf s := by simp [rowFreed]

@[simp] theorem fusesOf_rowLost (src q n : Nat) (s : State) : fusesOf (rowLost src q n s) = fusesOf s := by
  dsimp only [rowLost]; split <;> simp

@[simp] theorem fusesOf_rowGone (q n : Nat) (s : State) : fusesOf (rowGone q n s) = fusesOf s := by simp [rowGone]

theorem fusesOf_allocBlocks (p : Nat) (u : Use) (n : Nat) (s : State) {t : State} (e : allocBlocks p u n s = .ok t) : fusesOf t = fusesOf s := by
  dsimp only [allocBlocks] at e
  split at e
  · rw [← Except.ok.inj e]
  · iterate 3 (split at e; · cases e)
    rw [← Except.ok.inj e, fusesOf_mk, fusesOf_eta]

@[simp] theorem fusesOf_freeUses (f : BlockUse → Bool) (s : State) : fusesOf (freeUses f s) = fusesOf s := by simp [freeUses]

theorem fusesOf_allocLines (p : Nat) (u : Use) (n : Nat) (s : State) {t : State} (e : allocLines p u n s = .ok t) : fusesOf t = fusesOf s := by
  dsimp only [allocLines] at e
  split at e
  · cases e
  · split at e
    · cases e
    · rename_i u hu
      cases e
      exact (fusesOf_allocBlocks _ _ _ _ hu :)

@[simp] theorem fusesOf_freeEmpty (p : Nat) (s : State) : fusesOf (freeEmpty p s) = fusesOf s := by simp [freeEmpty]
@[simp] theorem fusesOf_freeLines (p : Nat) (u : Use) (s : State) : fusesOf (freeLines p u s) = fusesOf s := by simp [freeLines]

@[simp] theorem fusesOf_deliver (p : Nat) (o : Origin) (tag : BitVec 16) (st : BitVec 16) (res : List (Nat × Word)) (s : State) :
    fusesOf (deliver p o tag st res s) = fusesOf s := by
  unfold deliver; split <;> simp

@[simp] theorem fusesOf_complete (op : Op) (c : Cmd) (st : Status) (res : List (Nat × Word)) (s : State) :
    fusesOf (complete op c st res s) = fusesOf s := by simp [complete]

@[simp] theorem fusesOf_await (op : Op) (c : Cmd) (step : Nat) (w : Wait) (s : State) :
    fusesOf (await op c step w s) = fusesOf s := by simp [await]

@[simp] theorem fusesOf_finish (f : PendCmd → Bool) (st : PendCmd → Status) (res : PendCmd → List (Nat × Word)) (s : State) :
    fusesOf (finish f st res s) = fusesOf s := by simp [finish]

@[simp] theorem fusesOf_dropRows (f : RowRec → Bool) (s : State) : fusesOf (dropRows f s) = fusesOf s := by simp [dropRows]
@[simp] theorem fusesOf_dropReqRows (q : Nat) (s : State) : fusesOf (dropReqRows q s) = fusesOf s := by simp [dropReqRows]
@[simp] theorem fusesOf_parityError (f : PipFault) (s : State) : fusesOf (parityError f s) = fusesOf s := by simp [parityError]

@[simp] theorem fusesOf_pipWork (id : Nat) (genT : Bool) (as_ : List Nat) (s : State) :
    fusesOf (pipWork id genT as_ s) = fusesOf s := by simp [pipWork]

/-! ### Machine/Mailbox.lean -/
@[simp] theorem fusesOf_enqueue (op : Op) (c : Cmd) (s : State) : fusesOf (enqueue op c s) = fusesOf s := by simp [enqueue]

@[simp] theorem fusesOf_forward (op : Op) (c : Cmd) (dest : Nat) (s : State) : fusesOf (forward op c dest s) = fusesOf s := by
  unfold forward; split <;> simp

@[simp] theorem fusesOf_sendOn (op : Op) (c : Cmd) (dest : Nat) (s : State) : fusesOf (sendOn op c dest s) = fusesOf s := by simp [sendOn]
@[simp] theorem fusesOf_route (op : Op) (c : Cmd) (s : State) : fusesOf (route op c s) = fusesOf s := by simp [route]

@[simp] theorem fusesOf_issue (part : Nat) (o : Origin) (opcode tag : BitVec 16) (args : List Word) (s : State) :
    fusesOf (issue part o opcode tag args s) = fusesOf s := by
  unfold issue; (repeat' split) <;> simp

@[simp] theorem fusesOf_doorbellWrite (p : Nat) (v : Word) (s : State) : fusesOf (doorbellWrite p v s) = fusesOf s := by simp [doorbellWrite]
@[simp] theorem fusesOf_ackWrite (p : Nat) (v : Word) (s : State) : fusesOf (ackWrite p v s) = fusesOf s := by simp [ackWrite]
@[simp] theorem fusesOf_irqStatusWrite (p : Nat) (v : Word) (s : State) : fusesOf (irqStatusWrite p v s) = fusesOf s := by simp [irqStatusWrite]
@[simp] theorem fusesOf_irqEnWrite (p : Nat) (v : Word) (s : State) : fusesOf (irqEnWrite p v s) = fusesOf s := by simp [irqEnWrite]
@[simp] theorem fusesOf_dropFetch (p : Nat) (s : State) : fusesOf (dropFetch p s) = fusesOf s := by simp [dropFetch]
@[simp] theorem fusesOf_cqCfgWrite (p : Nat) (v : Word) (s : State) : fusesOf (cqCfgWrite p v s) = fusesOf s := by simp [cqCfgWrite]
@[simp] theorem fusesOf_cqTailWrite (p : Nat) (v : Word) (s : State) : fusesOf (cqTailWrite p v s) = fusesOf s := by simp [cqTailWrite]
@[simp] theorem fusesOf_ccConsWrite (p : Nat) (v : Word) (s : State) : fusesOf (ccConsWrite p v s) = fusesOf s := by simp [ccConsWrite]

@[simp] theorem fusesOf_takeEntry (p : Nat) (s : State) : fusesOf (takeEntry p s) = fusesOf s := by
  unfold takeEntry; (repeat' split) <;> simp

@[simp] theorem fusesOf_cqFetchEntry (p : Nat) (s : State) : fusesOf (cqFetchEntry p s) = fusesOf s := by simp [cqFetchEntry]

@[simp] theorem fusesOf_recordWritten (p : Nat) (noirq : Bool) (s : State) :
    fusesOf (recordWritten p noirq s) = fusesOf s := by simp [recordWritten]

@[simp] theorem fusesOf_fwdArrives (f : FwdCmd) (s : State) : fusesOf (fwdArrives f s) = fusesOf s := by simp [fwdArrives]

@[simp] theorem fusesOf_resultArrives (r : FwdResult) (s : State) : fusesOf (resultArrives r s) = fusesOf s := by
  unfold resultArrives; split <;> simp

@[simp] theorem fusesOf_mbxWrite (p off : Nat) (v : Word) (s : State) : fusesOf (mbxWrite p off v s) = fusesOf s := by simp [mbxWrite]

/-! ### Machine/Cmd.lean -/

@[simp] theorem fusesOf_judge (op : Op) (c : Cmd) (l : List (Bool × Status)) (eff : State → State) (s : State) (hk : ∀ t, fusesOf (eff t) = fusesOf
    t) :
    fusesOf (judge op c l eff s) = fusesOf s := by
  unfold judge; split <;> simp [hk]

@[simp] theorem fusesOf_accept (op : Op) (run : Cmd → State → State) (c : Cmd) (s : State) (hk : ∀ a t, fusesOf (run a t) = fusesOf t) :
    fusesOf (accept op run c s) = fusesOf s := by simp [accept, hk]

@[simp] theorem fusesOf_unqueue (op : Op) (c : Cmd) (s : State) : fusesOf (unqueue op c s) = fusesOf s := by simp [unqueue]

@[simp] theorem fusesOf_takeUp (op : Op) (run : Cmd → State → State) (c : Cmd) (s : State) (hk : ∀ a t, fusesOf (run a t) = fusesOf t) :
    fusesOf (takeUp op run c s) = fusesOf s := by
  dsimp only [takeUp]; (repeat' split) <;> simp [hk]

/-! ### Machine/ReqCmds.lean -/
@[simp] theorem fusesOf_acornSweep (s : State) : fusesOf (acornSweep s) = fusesOf s := by simp [acornSweep]
@[simp] theorem fusesOf_useAcorn (src p : Nat) (h : Word) (q : Nat) (s : State) : fusesOf (useAcorn src p h q s) = fusesOf s := by simp [useAcorn]

@[simp] theorem fusesOf_unuseAcorn (src p : Nat) (h : Word) (q : Nat) (s : State) :
    fusesOf (unuseAcorn src p h q s) = fusesOf s := by simp [unuseAcorn]

@[simp] theorem fusesOf_reportLoad (q : Nat) (st : BitVec 16) (s : State) : fusesOf (reportLoad q st s) = fusesOf s := by simp [reportLoad]
@[simp] theorem fusesOf_beginAdmit (q home : Nat) (a : Admit) (s : State) : fusesOf (beginAdmit q home a s) = fusesOf s := by simp [beginAdmit]

@[simp] theorem fusesOf_countsArrived (q : Nat) (bs : Option Bytes) (s : State) : fusesOf (countsArrived q bs s) = fusesOf s := by
  unfold countsArrived; (repeat' split) <;> simp

@[simp] theorem fusesOf_admitAccepted (op : Op) (c : Cmd) (q t : Nat) (a : Admit) (s : State) :
    fusesOf (admitAccepted op c q t a s) = fusesOf s := by
  cases h : allocLines a.info.part (.window q) 4 s with
  | ok t => simp [admitAccepted, h, fusesOf_allocLines _ _ _ _ h]
  | error e => simp [admitAccepted, h]

@[simp] theorem fusesOf_acornRelease (c : Cmd) (ac : Option Acorn) (s : State) : fusesOf (acornRelease c ac s) = fusesOf s := by
  unfold acornRelease; split <;> simp

@[simp] theorem fusesOf_acornClaim (op : Op) (c : Cmd) (s : State) : fusesOf (acornClaim op c s) = fusesOf s := by simp [acornClaim]

@[simp] theorem fusesOf_admitRead (op : Op) (c : Cmd) (t step : Nat) (d : Bytes) (s : State) :
    fusesOf (admitRead op c t step d s) = fusesOf s := by simp [admitRead]

@[simp] theorem fusesOf_admitCmd (op : Op) (c : Cmd) (s : State) : fusesOf (admitCmd op c s) = fusesOf s := by simp [admitCmd]

@[simp] theorem fusesOf_huskRead (c : Cmd) (t step : Nat) (bs : Bytes) (s : State) :
    fusesOf (huskRead c t step bs s) = fusesOf s := by simp [huskRead]

@[simp] theorem fusesOf_huskHeaderRead (c : Cmd) (t step : Nat) (hd : Bytes) (s : State) :
    fusesOf (huskHeaderRead c t step hd s) = fusesOf s := by simp [huskHeaderRead]

@[simp] theorem fusesOf_huskResumeCmd (c : Cmd) (s : State) : fusesOf (huskResumeCmd c s) = fusesOf s := by simp [huskResumeCmd]
@[simp] theorem fusesOf_change (q : Nat) (x : ReqChange) (s : State) : fusesOf (change q x s) = fusesOf s := by simp [change]
@[simp] theorem fusesOf_settingsCmd (c : Cmd) (s : State) : fusesOf (settingsCmd c s) = fusesOf s := by simp [settingsCmd]
@[simp] theorem fusesOf_cancelCmd (c : Cmd) (s : State) : fusesOf (cancelCmd c s) = fusesOf s := by simp [cancelCmd]
@[simp] theorem fusesOf_pauseCmd (c : Cmd) (s : State) : fusesOf (pauseCmd c s) = fusesOf s := by simp [pauseCmd]
@[simp] theorem fusesOf_resumeCmd (c : Cmd) (s : State) : fusesOf (resumeCmd c s) = fusesOf s := by simp [resumeCmd]
@[simp] theorem fusesOf_evictCmd (c : Cmd) (s : State) : fusesOf (evictCmd c s) = fusesOf s := by simp [evictCmd]
@[simp] theorem fusesOf_moveCmd (c : Cmd) (s : State) : fusesOf (moveCmd c s) = fusesOf s := by simp [moveCmd]
@[simp] theorem fusesOf_queryCmd (c : Cmd) (s : State) : fusesOf (queryCmd c s) = fusesOf s := by simp [queryCmd]

/-! ### Machine/TenantCmds.lean -/
@[simp] theorem fusesOf_updTenant (u : Nat) (f : Tenant → Tenant) (s : State) : fusesOf (updTenant u f s) = fusesOf s := by simp [updTenant]

@[simp] theorem fusesOf_tenantChange (op : Op) (c : Cmd) (x : TenantChange) (w : Nat → Wait) (s : State) :
    fusesOf (tenantChange op c x w s) = fusesOf s := by simp [tenantChange]

@[simp] theorem fusesOf_bindCmd (c : Cmd) (s : State) : fusesOf (bindCmd c s) = fusesOf s := by simp [bindCmd]
@[simp] theorem fusesOf_creditCmd (c : Cmd) (s : State) : fusesOf (creditCmd c s) = fusesOf s := by simp [creditCmd]
@[simp] theorem fusesOf_drainCmd (c : Cmd) (s : State) : fusesOf (drainCmd c s) = fusesOf s := by simp [drainCmd]
@[simp] theorem fusesOf_reserveCmd (c : Cmd) (s : State) : fusesOf (reserveCmd c s) = fusesOf s := by simp [reserveCmd]
@[simp] theorem fusesOf_unbindCmd (c : Cmd) (s : State) : fusesOf (unbindCmd c s) = fusesOf s := by simp [unbindCmd]
@[simp] theorem fusesOf_tenantQueryCmd (c : Cmd) (s : State) : fusesOf (tenantQueryCmd c s) = fusesOf s := by simp [tenantQueryCmd]

@[simp] theorem fusesOf_applyTenant (u n : Nat) (x : TenantChange) (s : State) : fusesOf (applyTenant u n x s).1 = fusesOf s := by
  unfold applyTenant; (repeat' split) <;> simp

@[simp] theorem fusesOf_updLoading (p : Nat) (h : Word) (f : Acorn → Acorn) (s : State) :
    fusesOf (updLoading p h f s) = fusesOf s := by simp [updLoading]

@[simp] theorem fusesOf_acornNew (p : Nat) (h : Word) (s : State) : fusesOf (acornNew p h s) = fusesOf s := by simp [acornNew]

@[simp] theorem fusesOf_acornFail (p : Nat) (h : Word) (s : State) : fusesOf (acornFail p h s) = fusesOf s := by
  unfold acornFail; split <;> simp

@[simp] theorem fusesOf_acornDecide (p : Nat) (h : Word) (s : State) : fusesOf (acornDecide p h s) = fusesOf s := by
  unfold acornDecide; split <;> simp

@[simp] theorem fusesOf_acornReported (src p : Nat) (h : Word) (st : BitVec 16) (n : Nat) (s : State) :
    fusesOf (acornReported src p h st n s) = fusesOf s := by simp [acornReported]

@[simp] theorem fusesOf_reportAcorn (p : Nat) (h : Word) (st : BitVec 16) (n : Nat) (s : State) :
    fusesOf (reportAcorn p h st n s) = fusesOf s := by simp [reportAcorn]

@[simp] theorem fusesOf_acornLoaded (p : Nat) (h : Word) (jars : Except Status (List (Nat × Nat))) (s : State) :
    fusesOf (acornLoaded p h jars s) = fusesOf s := by
  unfold acornLoaded
  split
  · rfl
  · simp
  · split
    · simp
    · rename_i u hu
      simp [fusesOf_allocLines _ _ _ _ hu]

@[simp] theorem fusesOf_acornSettle (p : Nat) (h : Word) (shares : List (Nat × Nat)) (s : State) :
    fusesOf (acornSettle p h shares s) = fusesOf s := by simp [acornSettle]

@[simp] theorem fusesOf_acornBegin (p : Nat) (h : Word) (addr n : Nat) (s : State) :
    fusesOf (acornBegin p h addr n s) = fusesOf s := by simp [acornBegin]

@[simp] theorem fusesOf_acornArrived (p u : Nat) (bs : Option Bytes) (s : State) : fusesOf (acornArrived p u bs s) = fusesOf s := by
  unfold acornArrived; split <;> simp

@[simp] theorem fusesOf_acornMakeCmd (c : Cmd) (s : State) : fusesOf (acornMakeCmd c s) = fusesOf s := by simp [acornMakeCmd]
@[simp] theorem fusesOf_acornTakeCmd (c : Cmd) (s : State) : fusesOf (acornTakeCmd c s) = fusesOf s := by simp [acornTakeCmd]
@[simp] theorem fusesOf_applyTake (p : Nat) (h : Word) (q : Nat) (s : State) : fusesOf (applyTake p h q s) = fusesOf s := by simp [applyTake]
@[simp] theorem fusesOf_acornDropCmd (c : Cmd) (s : State) : fusesOf (acornDropCmd c s) = fusesOf s := by simp [acornDropCmd]
@[simp] theorem fusesOf_dropAcorn (p : Nat) (h : Word) (s : State) : fusesOf (dropAcorn p h s) = fusesOf s := by simp [dropAcorn]
@[simp] theorem fusesOf_applyAcornDrop (p : Nat) (h : Word) (s : State) : fusesOf (applyAcornDrop p h s) = fusesOf s := by simp [applyAcornDrop]
@[simp] theorem fusesOf_acornsLost (s : State) : fusesOf (acornsLost s) = fusesOf s := by simp [acornsLost]
@[simp] theorem fusesOf_variantRegCmd (c : Cmd) (s : State) : fusesOf (variantRegCmd c s) = fusesOf s := by simp [variantRegCmd]
@[simp] theorem fusesOf_variantDropCmd (c : Cmd) (s : State) : fusesOf (variantDropCmd c s) = fusesOf s := by simp [variantDropCmd]

/-! ### Machine/Objects.lean -/
@[simp] theorem fusesOf_infoCmd (c : Cmd) (s : State) : fusesOf (infoCmd c s) = fusesOf s := by simp [infoCmd]
@[simp] theorem fusesOf_pipProbeCmd (f : PipFault) (c : Cmd) (s : State) : fusesOf (pipProbeCmd f c s) = fusesOf s := by simp [pipProbeCmd]
@[simp] theorem fusesOf_registerBacking (b : Backing) (s : State) : fusesOf (registerBacking b s) = fusesOf s := by simp [registerBacking]
@[simp] theorem fusesOf_backingCmd (c : Cmd) (s : State) : fusesOf (backingCmd c s) = fusesOf s := by simp [backingCmd]
@[simp] theorem fusesOf_storeTable (v : Nat) (t : List RangeEntry) (s : State) : fusesOf (storeTable v t s) = fusesOf s := by simp [storeTable]

@[simp] theorem fusesOf_rangeAccepted (c : Cmd) (v : Nat) (busy : Bool) (t : List RangeEntry) (s : State) :
    fusesOf (rangeAccepted c v busy t s) = fusesOf s := by simp [rangeAccepted]

@[simp] theorem fusesOf_rangeCmd (c : Cmd) (s : State) : fusesOf (rangeCmd c s) = fusesOf s := by simp [rangeCmd]

@[simp] theorem fusesOf_rangeRead (c : Cmd) (v : Nat) (busy : Bool) (bs : Bytes) (s : State) : fusesOf (rangeRead c v busy bs s) = fusesOf s := by
  unfold rangeRead; split <;> simp

@[simp] theorem fusesOf_rangeArrives (v : Nat) (t : List RangeEntry) (s : State) :
    fusesOf (rangeArrives v t s) = fusesOf s := by simp [rangeArrives]

@[simp] theorem fusesOf_rangeStoredBy (n : Nat) (s : State) : fusesOf (rangeStoredBy n s) = fusesOf s := by simp [rangeStoredBy]
@[simp] theorem fusesOf_updMask (p id : Nat) (f : MaskObj → MaskObj) (s : State) : fusesOf (updMask p id f s) = fusesOf s := by simp [updMask]
@[simp] theorem fusesOf_updBias (p id : Nat) (f : BiasObj → BiasObj) (s : State) : fusesOf (updBias p id f s) = fusesOf s := by simp [updBias]
@[simp] theorem fusesOf_sweepObjects (s : State) : fusesOf (sweepObjects s) = fusesOf s := by simp [sweepObjects]
@[simp] theorem fusesOf_dropLoad (bias : Bool) (p id : Nat) (s : State) : fusesOf (dropLoad bias p id s) = fusesOf s := by simp [dropLoad]

@[simp] theorem fusesOf_objDecide (bias : Bool) (p id : Nat) (s : State) : fusesOf (objDecide bias p id s) = fusesOf s := by
  unfold objDecide; split <;> simp

@[simp] theorem fusesOf_objReported (src : Nat) (bias : Bool) (p id : Nat) (st : BitVec 16) (s : State) :
    fusesOf (objReported src bias p id st s) = fusesOf s := by simp [objReported]

@[simp] theorem fusesOf_reportObj (bias : Bool) (p id : Nat) (st : BitVec 16) (s : State) :
    fusesOf (reportObj bias p id st s) = fusesOf s := by simp [reportObj]

@[simp] theorem fusesOf_objAllApplied (bias : Bool) (p id : Nat) (s : State) :
    fusesOf (objAllApplied bias p id s) = fusesOf s := by simp [objAllApplied]

@[simp] theorem fusesOf_objAppliedBy (src : Nat) (bias : Bool) (p id : Nat) (s : State) :
    fusesOf (objAppliedBy src bias p id s) = fusesOf s := by simp [objAppliedBy]

@[simp] theorem fusesOf_tellApplied (bias : Bool) (p id : Nat) (s : State) : fusesOf (tellApplied bias p id s) = fusesOf s := by simp [tellApplied]

@[simp] theorem fusesOf_maskFetch (p id addr : Nat) (rs : List RangeEntry) (s : State) :
    fusesOf (maskFetch p id addr rs s) = fusesOf s := by simp [maskFetch]

@[simp] theorem fusesOf_maskBegin (p id addr : Nat) (s : State) : fusesOf (maskBegin p id addr s) = fusesOf s := by
  unfold maskBegin
  split
  · simp
  · rename_i u hu
    simp [fusesOf_allocBlocks _ _ _ _ hu]

@[simp] theorem fusesOf_maskArrived (p id addr : Nat) (r : RangeEntry) (bs : Option Bytes) (s : State) :
    fusesOf (maskArrived p id addr r bs s) = fusesOf s := by
  unfold maskArrived; split <;> simp

@[simp] theorem fusesOf_biasBegin (p id addr n : Nat) (s : State) : fusesOf (biasBegin p id addr n s) = fusesOf s := by
  unfold biasBegin
  split
  · simp
  · rename_i u hu
    simp [fusesOf_allocBlocks _ _ _ _ hu]

@[simp] theorem fusesOf_biasArrived (p id addr : Nat) (bs : Option Bytes) (s : State) : fusesOf (biasArrived p id addr bs s) = fusesOf s := by
  unfold biasArrived; split <;> simp

@[simp] theorem fusesOf_fetchObjects (rs : List RangeEntry) (s : State) : fusesOf (fetchObjects rs s) = fusesOf s := by simp [fetchObjects]
@[simp] theorem fusesOf_mobjLoadCmd (c : Cmd) (s : State) : fusesOf (mobjLoadCmd c s) = fusesOf s := by simp [mobjLoadCmd]
@[simp] theorem fusesOf_biasLoadCmd (c : Cmd) (s : State) : fusesOf (biasLoadCmd c s) = fusesOf s := by simp [biasLoadCmd]
@[simp] theorem fusesOf_mobjDeleteCmd (c : Cmd) (s : State) : fusesOf (mobjDeleteCmd c s) = fusesOf s := by simp [mobjDeleteCmd]
@[simp] theorem fusesOf_biasDeleteCmd (c : Cmd) (s : State) : fusesOf (biasDeleteCmd c s) = fusesOf s := by simp [biasDeleteCmd]
@[simp] theorem fusesOf_reuse (p : Nat) (old new : Use) (s : State) : fusesOf (reuse p old new s) = fusesOf s := by simp [reuse]

@[simp] theorem fusesOf_applyDelete (bias : Bool) (p id n : Nat) (s : State) :
    fusesOf (applyDelete bias p id n s) = fusesOf s := by simp [applyDelete]

@[simp] theorem fusesOf_applyLoad (bias : Bool) (p id : Nat) (s : State) : fusesOf (applyLoad bias p id s) = fusesOf s := by simp [applyLoad]

@[simp] theorem fusesOf_headPlaced (c : Cmd) (id : HeadId) (strips : List Strip) (s : State) :
    fusesOf (headPlaced c id strips s) = fusesOf s := by simp [headPlaced]

@[simp] theorem fusesOf_takeBlocks (p : Nat) (u : Use) (n : Nat) (s : State) : fusesOf (takeBlocks p u n s) = fusesOf s := by
  unfold takeBlocks
  split
  · rename_i u hu
    exact fusesOf_allocBlocks _ _ _ _ hu
  · rfl

@[simp] theorem fusesOf_headLoadCmd (c : Cmd) (s : State) : fusesOf (headLoadCmd c s) = fusesOf s := by simp [headLoadCmd]

@[simp] theorem fusesOf_headArrived (c : Cmd) (busy : Bool) (bs : Option Bytes) (s : State) : fusesOf (headArrived c busy bs s) = fusesOf s := by
  unfold headArrived; (repeat' split) <;> simp

@[simp] theorem fusesOf_headUnloadCmd (c : Cmd) (s : State) : fusesOf (headUnloadCmd c s) = fusesOf s := by simp [headUnloadCmd]
@[simp] theorem fusesOf_overlayAt (o : OverlayImage) (s : State) : fusesOf (overlayAt o s) = fusesOf s := by simp [overlayAt]

@[simp] theorem fusesOf_overlayLoadCmd (c : Cmd) (s : State) : fusesOf (overlayLoadCmd c s) = fusesOf s := by
  unfold overlayLoadCmd
  simp only [↓fusesOf_judge, ↓fusesOf_ite, ↓fusesOf_takeBlocks, ↓fusesOf_complete, ↓fusesOf_hmpRead, ↓fusesOf_mk, fusesOf_eta,
    ite_self, implies_true]

@[simp] theorem fusesOf_freeLastUse (f : BlockUse → Bool) (s : State) : fusesOf (freeLastUse f s) = fusesOf s := by
  unfold freeLastUse; split <;> simp

@[simp] theorem fusesOf_overlayArrived (c : Cmd) (busy : Bool) (bs : Option Bytes) (s : State) :
    fusesOf (overlayArrived c busy bs s) = fusesOf s := by
  unfold overlayArrived; (repeat' split) <;> simp

/-! ### Machine/Streams.lean -/

@[simp] theorem fusesOf_fetchStrip (i : StripId) (s : State) : fusesOf (fetchStrip i s) = fusesOf s := by
  unfold fetchStrip; split <;> simp

@[simp] theorem fusesOf_streamGo (p : Nat) (s : State) : fusesOf (streamGo p s) = fusesOf s := by simp [streamGo]
@[simp] theorem fusesOf_streamsGo (s : State) : fusesOf (streamsGo s) = fusesOf s := by simp [streamsGo]
@[simp] theorem fusesOf_refetchStrip (i : StripId) (s : State) : fusesOf (refetchStrip i s) = fusesOf s := by simp [refetchStrip]

@[simp] theorem fusesOf_streamArrived (i : StripId) (bs : Option Bytes) (s : State) :
    fusesOf (streamArrived i bs s) = fusesOf s := by simp [streamArrived]

/-! ### Machine/Merge.lean -/

@[simp] theorem fusesOf_updMergeAt (k : RowKey) (n : Nat) (f : Merge → Merge) (s : State) :
    fusesOf (updMergeAt k n f s) = fusesOf s := by simp [updMergeAt]

@[simp] theorem fusesOf_stale (s : State) : fusesOf (stale s) = fusesOf s := by simp [stale]

@[simp] theorem fusesOf_updForward (f : Micro → Micro) (s : State) : fusesOf (updForward f s) = fusesOf s := by
  unfold updForward; split <;> simp

@[simp] theorem fusesOf_closeMerges (q : Nat) (s : State) : fusesOf (closeMerges q s) = fusesOf s := by simp [closeMerges]
@[simp] theorem fusesOf_takeShell (n : Nat) (s : State) : fusesOf (takeShell n s).2 = fusesOf s := by simp [takeShell]
@[simp] theorem fusesOf_shellFull (k : RowKey) (s : State) : fusesOf (shellFull k s) = fusesOf s := by simp [shellFull]

@[simp] theorem fusesOf_phaseBEnds (k : RowKey) (s : State) : fusesOf (phaseBEnds k s) = fusesOf s := by
  dsimp only [phaseBEnds]; split <;> simp

@[simp] theorem fusesOf_onDup (k : RowKey) (s : State) (d : Dup) : fusesOf (onDup k s d) = fusesOf s := by
  unfold onDup; split <;> simp

@[simp] theorem fusesOf_setVerdict (v : Verdict) (s : State) : fusesOf (setVerdict v s) = fusesOf s := by simp [setVerdict]

@[simp] theorem fusesOf_plainVerdict (k : RowKey) (r : RowResult) (s : State) : fusesOf (plainVerdict k r s) = fusesOf s := by
  unfold plainVerdict; (repeat' split) <;> simp

@[simp] theorem fusesOf_verifyTree (q : Nat) (s : State) : fusesOf (verifyTree q s) = fusesOf s := by
  dsimp only [verifyTree]; (repeat' split) <;> simp

@[simp] theorem fusesOf_rowDone (k : RowKey) (r : RowResult) (s : State) : fusesOf (rowDone k r s) = fusesOf s := by simp [rowDone]
@[simp] theorem fusesOf_sendDown (k : RowKey) (n : Nat) (m : Msg) (s : State) : fusesOf (sendDown k n m s) = fusesOf s := by simp [sendDown]

@[simp] theorem fusesOf_drawWork (k : RowKey) (e : ReqEntry) (own : List ShellEntry) (s : State) :
    fusesOf (drawWork k e own s) = fusesOf s := by simp [drawWork]

@[simp] theorem fusesOf_drawDone (k : RowKey) (d : MdDraw) (s : State) : fusesOf (drawDone k d s) = fusesOf s := by
  unfold drawDone; split <;> simp

@[simp] theorem fusesOf_advanceD (k : RowKey) (f : Nat) (n : Nat) (s : State) : fusesOf (advanceD k f n s) = fusesOf s := by
  induction f generalizing n s with
  | zero => rfl
  | succ f ih => dsimp only [advanceD]; (repeat' split) <;> simp [ih]

@[simp] theorem fusesOf_applyEdge (edge : MbEdge) (s : State) : fusesOf (applyEdge edge s) = fusesOf s := by
  refine fusesOf_foldl (fun t n => ?_) _ _
  dsimp only
  (repeat' split) <;> simp

@[simp] theorem fusesOf_tokenLoss (k : RowKey) (b : MbShell) (s : State) : fusesOf (tokenLoss k b s) = fusesOf s := by simp [tokenLoss]

@[simp] theorem fusesOf_finishB (k : RowKey) (c : MaCut) (b : MbShell) (s : State) : fusesOf (finishB k c b s) = fusesOf s := by
  unfold finishB; (repeat' split) <;> simp

@[simp] theorem fusesOf_advanceB (k : RowKey) (f : Nat) (n : Nat) (s : State) : fusesOf (advanceB k f n s) = fusesOf s := by
  induction f generalizing n s with
  | zero => rfl
  | succ f ih => dsimp only [advanceB]; (repeat' split) <;> simp [ih]

@[simp] theorem fusesOf_shellReady (k : RowKey) (c : MaCut) (sum : Summary) (e : ReqEntry) (l : List ShellEntry) (s : State) :
    fusesOf (shellReady k c sum e l s) = fusesOf s := by simp [shellReady]

@[simp] theorem fusesOf_servingShell (k : RowKey) (c : MaCut) (sum : Summary) (e : ReqEntry) (s : State) :
    fusesOf (servingShell k c sum e s) = fusesOf s := by
  unfold servingShell; split <;> simp

@[simp] theorem fusesOf_rescoreRow (k : RowKey) (r : RowRec) (c : MaCut) (sum : Summary) (e : ReqEntry) (s : State) :
    fusesOf (rescoreRow k r c sum e s) = fusesOf s := by simp [rescoreRow]

@[simp] theorem fusesOf_treeMismatch (k : RowKey) (s : State) : fusesOf (treeMismatch k s) = fusesOf s := by simp [treeMismatch]

@[simp] theorem fusesOf_applyCut (c : MaCut) (s : State) : fusesOf (applyCut c s) = fusesOf s := by
  refine fusesOf_foldl (fun t n => ?_) _ _
  dsimp only
  (repeat' split) <;> simp

@[simp] theorem fusesOf_cutRows (q : Nat) (s : State) : fusesOf (cutRows q s) = fusesOf s := by
  dsimp only [cutRows]
  split
  · rfl
  · rw [fusesOf_ite, fusesOf_ite, fusesOf_foldl, ite_self, ite_self]
    intro t m
    (repeat' split) <;> simp

@[simp] theorem fusesOf_readCons (q : Nat) (s : State) : fusesOf (readCons q s) = fusesOf s := by
  unfold readCons; split <;> simp

@[simp] theorem fusesOf_advanceA (k : RowKey) (f : Nat) (n : Nat) (s : State) : fusesOf (advanceA k f n s) = fusesOf s := by
  induction f generalizing n s with
  | zero => rfl
  | succ f ih => dsimp only [advanceA]; (repeat' split) <;> simp [ih]

@[simp] theorem fusesOf_neutralSum (k : RowKey) (failed : Bool) (s : State) : fusesOf (neutralSum k failed s) = fusesOf s := by simp [neutralSum]

@[simp] theorem fusesOf_sieveRow (k : RowKey) (s : State) : fusesOf (sieveRow k s) = fusesOf s := by
  unfold sieveRow; (repeat' split) <;> simp

@[simp] theorem fusesOf_sieveToken (k : RowKey) (s : State) : fusesOf (sieveToken k s) = fusesOf s := by
  unfold sieveToken; (repeat' split) <;> simp

@[simp] theorem fusesOf_pipParity (k : RowKey) (f : PipFault) (s : State) : fusesOf (pipParity k f s) = fusesOf s := by simp [pipParity]
@[simp] theorem fusesOf_sieveParity (k : RowKey) (f : PipFault) (s : State) : fusesOf (sieveParity k f s) = fusesOf s := by simp [sieveParity]

@[simp] theorem fusesOf_maSumArrives (src : Nat) (r : MaSum) (s : State) : fusesOf (maSumArrives src r s) = fusesOf s := by
  dsimp only [maSumArrives]; split <;> simp

@[simp] theorem fusesOf_retryCut (c : MaCut) (s : State) : fusesOf (retryCut c s) = fusesOf s := by simp [retryCut]

@[simp] theorem fusesOf_retryTokens (s : State) : fusesOf (retryTokens s) = fusesOf s := by
  refine fusesOf_foldl (fun t m => ?_) _ _
  split <;> simp

@[simp] theorem fusesOf_maCutArrives (c : MaCut) (s : State) : fusesOf (maCutArrives c s) = fusesOf s := by simp [maCutArrives]

@[simp] theorem fusesOf_mbShellArrives (src : Nat) (r : MbShell) (s : State) : fusesOf (mbShellArrives src r s) = fusesOf s := by
  dsimp only [mbShellArrives]; split <;> simp

@[simp] theorem fusesOf_mbEdgeArrives (r : MbEdge) (s : State) : fusesOf (mbEdgeArrives r s) = fusesOf s := by simp [mbEdgeArrives]

@[simp] theorem fusesOf_mdDrawArrives (src : Nat) (r : MdDraw) (s : State) : fusesOf (mdDrawArrives src r s) = fusesOf s := by
  dsimp only [mdDrawArrives]; split <;> simp

/-! ### Machine/Training.lean -/
@[simp] theorem fusesOf_updTrain (f : Training → Training) (s : State) : fusesOf (updTrain f s) = fusesOf s := by simp [updTrain]
@[simp] theorem fusesOf_updMicro (seq : Word) (f : Micro → Micro) (s : State) : fusesOf (updMicro seq f s) = fusesOf s := by simp [updMicro]

@[simp] theorem fusesOf_slotWrites (part : Nat) (ws : List (Nat × Bytes)) (k : SlotKind) (seq : Word) (s : State) :
    fusesOf (slotWrites part ws k seq s) = fusesOf s := by simp [slotWrites]

@[simp] theorem fusesOf_openRead (c : Cmd) (d : Bytes) (s : State) : fusesOf (openRead c d s) = fusesOf s := by simp [openRead]
@[simp] theorem fusesOf_openCmd (c : Cmd) (s : State) : fusesOf (openCmd c s) = fusesOf s := by simp [openCmd]
@[simp] theorem fusesOf_fillDone (src : Nat) (s : State) : fusesOf (fillDone src s) = fusesOf s := by simp [fillDone]

@[simp] theorem fusesOf_tellHolder (k : SlotKind) (seq : Word) (here : Nat → State → State) (s : State) (hk : ∀ a t, fusesOf (here a t) = fusesOf
    t) :
    fusesOf (tellHolder k seq here s) = fusesOf s := by simp [tellHolder, hk]

@[simp] theorem fusesOf_sessionOpens (s : State) : fusesOf (sessionOpens s) = fusesOf s := by simp [sessionOpens]
@[simp] theorem fusesOf_applyOpen (p : Nat) (d : SessionDesc) (s : State) : fusesOf (applyOpen p d s) = fusesOf s := by simp [applyOpen]
@[simp] theorem fusesOf_takePart (n : Nat) (s : State) : fusesOf (takePart n s) = fusesOf s := by simp [takePart]
@[simp] theorem fusesOf_startForward (c : Cmd) (d : MicroDesc) (s : State) : fusesOf (startForward c d s) = fusesOf s := by simp [startForward]
@[simp] theorem fusesOf_seqCounts (seq : Word) (s : State) : fusesOf (seqCounts seq s) = fusesOf s := by simp [seqCounts]

@[simp] theorem fusesOf_forwardRead (c : Cmd) (busy : Bool) (d : Bytes) (s : State) :
    fusesOf (forwardRead c busy d s) = fusesOf s := by simp [forwardRead]

@[simp] theorem fusesOf_forwardCmd (c : Cmd) (s : State) : fusesOf (forwardCmd c s) = fusesOf s := by simp [forwardCmd]
@[simp] theorem fusesOf_forwardFails (seq : Word) (st : Status) (s : State) : fusesOf (forwardFails seq st s) = fusesOf s := by simp [forwardFails]
@[simp] theorem fusesOf_dropTokens (s : State) : fusesOf (dropTokens s) = fusesOf s := by simp [dropTokens]

@[simp] theorem fusesOf_applyForward (n : Nat) (d : MicroDesc) (s : State) : fusesOf (applyForward n d s) = fusesOf s := by
  dsimp only [applyForward]
  split
  · rfl
  · split
    · simp
    · rename_i u hu
      simp [fusesOf_allocBlocks _ _ _ _ hu]

@[simp] theorem fusesOf_freeMicro (seq : Word) (s : State) : fusesOf (freeMicro seq s) = fusesOf s := by simp [freeMicro]

@[simp] theorem fusesOf_targetsArrived (seq : Word) (bs : Option Bytes) (s : State) : fusesOf (targetsArrived seq bs s) = fusesOf s := by
  unfold targetsArrived; split <;> simp

@[simp] theorem fusesOf_tileAgain (seq : Word) (tile : Nat) (s : State) : fusesOf (tileAgain seq tile s) = fusesOf s := by simp [tileAgain]
@[simp] theorem fusesOf_tileLost (seq : Word) (tile : Nat) (s : State) : fusesOf (tileLost seq tile s) = fusesOf s := by simp [tileLost]

theorem fusesOf_placeTile (t : Training) (seq : Word) (tile : Nat) (s : State) {u : State} (e : placeTile t seq tile s = some u) :
    fusesOf u = fusesOf s := by
  dsimp only [placeTile] at e
  split at e
  · rename_i v hv
    cases e
    simp [fusesOf_allocBlocks _ _ _ _ hv]
  · split at e <;> cases e
    simp

@[simp] theorem fusesOf_spillTile (seq : Word) (tile : Nat) (s : State) : fusesOf (spillTile seq tile s) = fusesOf s := by
  unfold spillTile; (repeat' split) <;> simp

@[simp] theorem fusesOf_lossGather (seq : Word) (s : State) : fusesOf (lossGather seq s) = fusesOf s := by
  dsimp only [lossGather]; (repeat' split) <;> simp

@[simp] theorem fusesOf_normGather (s : State) : fusesOf (normGather s) = fusesOf s := by
  dsimp only [normGather]; (repeat' split) <;> simp

@[simp] theorem fusesOf_trSumArrives (src : Nat) (r : TrSum) (s : State) : fusesOf (trSumArrives src r s) = fusesOf s := by
  unfold trSumArrives; (repeat' split) <;> simp

@[simp] theorem fusesOf_forwardDone (s : State) : fusesOf (forwardDone s) = fusesOf s := by
  unfold forwardDone; split <;> simp

@[simp] theorem fusesOf_readBank (t : Training) (base bank es : Nat) (h : StripHdr) (cells : List Cell) (why : Nat → Nat → Purpose) (s : State) :
    fusesOf (readBank t base bank es h cells why s) = fusesOf s := by simp [readBank]

@[simp] theorem fusesOf_normCmd (c : Cmd) (s : State) : fusesOf (normCmd c s) = fusesOf s := by simp [normCmd]

@[simp] theorem fusesOf_normSettle (s : State) : fusesOf (normSettle s) = fusesOf s := by
  unfold normSettle; split <;> simp

@[simp] theorem fusesOf_applyNorm (addr : Nat) (s : State) : fusesOf (applyNorm addr s) = fusesOf s := by
  dsimp only [applyNorm]; (repeat' split) <;> simp

@[simp] theorem fusesOf_normAgain (s : State) : fusesOf (normAgain s) = fusesOf s := by
  unfold normAgain; split <;> simp

@[simp] theorem fusesOf_normArrived (chunk slot : Nat) (b : Bytes) (s : State) :
    fusesOf (normArrived chunk slot b s) = fusesOf s := by simp [normArrived]

@[simp] theorem fusesOf_rsStream (t : Training) (seq : Word) (own : Nat → Nat → BitVec 96) (st port : Nat) (f : Nat) (s : State) :
    fusesOf (rsStream t seq own st port f s) = fusesOf s := by
  induction f generalizing s with
  | zero => rfl
  | succ f ih => dsimp only [rsStream]; (repeat' split) <;> simp [ih]

@[simp] theorem fusesOf_rsSend (t : Training) (seq : Word) (own : Nat → Nat → BitVec 96) (fuel : Nat) (s : State) :
    fusesOf (rsSend t seq own fuel s) = fusesOf s := by simp [rsSend]

@[simp] theorem fusesOf_makeBeats (t : Training) (seq : Word) (own : Nat → Nat → BitVec 96) (clamp : Nat → Nat → Nat) (f : Nat) (s : State) :
    fusesOf (makeBeats t seq own clamp f s) = fusesOf s := by
  induction f generalizing s with
  | zero => rfl
  | succ f ih => dsimp only [makeBeats]; (repeat' split) <;> simp [ih]

@[simp] theorem fusesOf_gradAdvance (seq : Word) (s : State) : fusesOf (gradAdvance seq s) = fusesOf s := by
  unfold gradAdvance; (repeat' split) <;> simp

@[simp] theorem fusesOf_gradsAdvance (s : State) : fusesOf (gradsAdvance s) = fusesOf s := by simp [gradsAdvance]

@[simp] theorem fusesOf_rsBeginArrives (port : Nat) (r : RsBegin) (s : State) :
    fusesOf (rsBeginArrives port r s) = fusesOf s := by simp [rsBeginArrives]

@[simp] theorem fusesOf_rsFlitArrives (port : Nat) (form : RsForm) (body : Bytes) (s : State) :
    fusesOf (rsFlitArrives port form body s) = fusesOf s := by
  unfold rsFlitArrives; (repeat' split) <;> simp

@[simp] theorem fusesOf_startBackward (c : Cmd) (seq : Word) (s : State) : fusesOf (startBackward c seq s) = fusesOf s := by simp [startBackward]
@[simp] theorem fusesOf_backwardCmd (c : Cmd) (s : State) : fusesOf (backwardCmd c s) = fusesOf s := by simp [backwardCmd]
@[simp] theorem fusesOf_growFails (seq : Word) (st : Status) (s : State) : fusesOf (growFails seq st s) = fusesOf s := by simp [growFails]
@[simp] theorem fusesOf_dropGrowth (seq : Word) (s : State) : fusesOf (dropGrowth seq s) = fusesOf s := by simp [dropGrowth]

@[simp] theorem fusesOf_growBegins (seq : Word) (s : State) : fusesOf (growBegins seq s) = fusesOf s := by
  dsimp only [growBegins]
  split
  · rfl
  · split
    · rename_i u hu
      refine (fusesOf_bind (fun t => fusesOf_allocBlocks _ _ _ _) (fun t v e => ?_) hu :)
      split at e
      · exact fusesOf_allocBlocks _ _ _ _ e
      · rw [Except.ok.inj e]
    · simp

@[simp] theorem fusesOf_applyBackward (seq : Word) (grow : Bool) (s : State) : fusesOf (applyBackward seq grow s) = fusesOf s := by
  dsimp only [applyBackward]
  split
  · rw [fusesOf_gradAdvance, fusesOf_foldl]
    · simp
    · intro t x
      split <;> simp
  · rfl

@[simp] theorem fusesOf_spillArrived (seq : Word) (tile : Nat) (bs : Option Bytes) (s : State) :
    fusesOf (spillArrived seq tile bs s) = fusesOf s := by
  unfold spillArrived; (repeat' split) <;> simp

@[simp] theorem fusesOf_saveToken (seq : Word) (u fmt : Nat) (payload : Bytes) (s : State) :
    fusesOf (saveToken seq u fmt payload s) = fusesOf s := by
  unfold saveToken
  split
  · dsimp only
    split
    · simp
    · rename_i u hu
      have hu' : fusesOf u = fusesOf s := by
        split at hu
        · cases hu; rfl
        · exact fusesOf_placeTile _ _ _ _ hu
      simp [hu']
  · rfl

@[simp] theorem fusesOf_backwardReady (seq : Word) (src : Nat) (s : State) :
    fusesOf (backwardReady seq src s) = fusesOf s := by simp [backwardReady]

@[simp] theorem fusesOf_writeAccs (t : Training) (h : Head) (hd : StripHdr) (m : Micro) (s : State) :
    fusesOf (writeAccs t h hd m s) = fusesOf s := by simp [writeAccs]

@[simp] theorem fusesOf_backwardDone (grown : State → State) (s : State) (hk : ∀ t, fusesOf (grown t) = fusesOf t) :
    fusesOf (backwardDone grown s) = fusesOf s := by
  unfold backwardDone; (repeat' split) <;> simp [hk]

@[simp] theorem fusesOf_accArrived (seq : Word) (chunk slot : Nat) (b : Bytes) (s : State) :
    fusesOf (accArrived seq chunk slot b s) = fusesOf s := by
  dsimp only [accArrived]; (repeat' split) <;> simp

@[simp] theorem fusesOf_dropBackward (seq : Word) (s : State) : fusesOf (dropBackward seq s) = fusesOf s := by simp [dropBackward]
@[simp] theorem fusesOf_backwardFails (seq : Word) (s : State) : fusesOf (backwardFails seq s) = fusesOf s := by simp [backwardFails]
@[simp] theorem fusesOf_updateCmd (c : Cmd) (s : State) : fusesOf (updateCmd c s) = fusesOf s := by simp [updateCmd]
@[simp] theorem fusesOf_updateReady (src : Nat) (s : State) : fusesOf (updateReady src s) = fusesOf s := by simp [updateReady]

@[simp] theorem fusesOf_readUpdate (s : State) : fusesOf (readUpdate s) = fusesOf s := by
  unfold readUpdate; (repeat' split) <;> simp

@[simp] theorem fusesOf_applyUpdate (a : UpdateArgs) (s : State) : fusesOf (applyUpdate a s) = fusesOf s := by simp [applyUpdate]

@[simp] theorem fusesOf_updAccArrived (chunk slot : Nat) (b : Bytes) (s : State) :
    fusesOf (updAccArrived chunk slot b s) = fusesOf s := by simp [updAccArrived]

@[simp] theorem fusesOf_updStateArrived (chunk slot : Nat) (b : Bytes) (s : State) :
    fusesOf (updStateArrived chunk slot b s) = fusesOf s := by simp [updStateArrived]

@[simp] theorem fusesOf_dropUpdate (s : State) : fusesOf (dropUpdate s) = fusesOf s := by
  unfold dropUpdate; split <;> simp

@[simp] theorem fusesOf_updateFails (s : State) : fusesOf (updateFails s) = fusesOf s := by simp [updateFails]

@[simp] theorem fusesOf_updateDone (s : State) : fusesOf (updateDone s) = fusesOf s := by
  unfold updateDone; (repeat' split) <;> simp

@[simp] theorem fusesOf_rebuildRetired (p first : Nat) (s : State) : fusesOf (rebuildRetired p first s) = fusesOf s := by
  unfold rebuildRetired; (repeat' split) <;> simp

@[simp] theorem fusesOf_retiredArrived (p first chunk slot : Nat) (bs : Option Bytes) (s : State) :
    fusesOf (retiredArrived p first chunk slot bs s) = fusesOf s := by
  unfold retiredArrived; (repeat' split) <;> simp

@[simp] theorem fusesOf_closeCmd (c : Cmd) (s : State) : fusesOf (closeCmd c s) = fusesOf s := by simp [closeCmd]

@[simp] theorem fusesOf_endSession (s : State) : fusesOf (endSession s) = fusesOf s := by
  unfold endSession
  split
  · rfl
  · rfl

@[simp] theorem fusesOf_startWaiting (s : State) : fusesOf (startWaiting s) = fusesOf s := by
  unfold startWaiting; (repeat' split) <;> simp

@[simp] theorem fusesOf_trainStamp (n : Nat) (s : State) : fusesOf (trainStamp n s) = fusesOf s := by
  unfold trainStamp; (repeat' split) <;> simp

@[simp] theorem fusesOf_forwardCommits (seq : Word) (s : State) : fusesOf (forwardCommits seq s) = fusesOf s := by simp [forwardCommits]
@[simp] theorem fusesOf_backwardCommits (seq : Word) (s : State) : fusesOf (backwardCommits seq s) = fusesOf s := by simp [backwardCommits]

@[simp] theorem fusesOf_updateCommits (s : State) : fusesOf (updateCommits s) = fusesOf s := by
  unfold updateCommits; split <;> simp

@[simp] theorem fusesOf_normCommits (s : State) : fusesOf (normCommits s) = fusesOf s := by simp [normCommits]
@[simp] theorem fusesOf_discardForward (seq : Word) (s : State) : fusesOf (discardForward seq s) = fusesOf s := by simp [discardForward]

/-! ### Machine/Mask.lean -/
@[simp] theorem fusesOf_updPlan (p : Nat) (f : Plan → Plan) (s : State) : fusesOf (updPlan p f s) = fusesOf s := by simp [updPlan]

@[simp] theorem fusesOf_selectEnds (p : Nat) (r : PassEnd) (s : State) : fusesOf (selectEnds p r s) = fusesOf s := by
  unfold selectEnds; split <;> simp

@[simp] theorem fusesOf_passArrives (p : Nat) (others_ : SelMerge) (s : State) : fusesOf (passArrives p others_ s) = fusesOf s := by
  dsimp only [passArrives]; (repeat' split) <;> simp

@[simp] theorem fusesOf_pruneCmd (c : Cmd) (s : State) : fusesOf (pruneCmd c s) = fusesOf s := by
  unfold pruneCmd
  simp only [↓fusesOf_judge, ↓fusesOf_await, ↓fusesOf_announce, implies_true]

@[simp] theorem fusesOf_pruneFails (p : Nat) (st : Status) (s : State) : fusesOf (pruneFails p st s) = fusesOf s := by simp [pruneFails]

@[simp] theorem fusesOf_dropPrune (s : State) : fusesOf (dropPrune s) = fusesOf s := by
  unfold dropPrune; split <;> simp

@[simp] theorem fusesOf_applyPrune (tile perSlice : Bool) (k : Nat) (s : State) : fusesOf (applyPrune tile perSlice k s) = fusesOf s := by
  dsimp only [applyPrune]
  split
  · rfl
  · split
    · rename_i u hu
      exact (fusesOf_bind (fun t => fusesOf_allocBlocks _ _ _ _) (fun t v => fusesOf_allocBlocks _ _ _ _) hu :)
    · simp

@[simp] theorem fusesOf_growCmd (c : Cmd) (s : State) : fusesOf (growCmd c s) = fusesOf s := by simp [growCmd]

@[simp] theorem fusesOf_growSwap (s : State) : fusesOf (growSwap s) = fusesOf s := by
  unfold growSwap; (repeat' split) <;> simp

theorem fusesOf_buildBlocks (p : Nat) (h : Head) (new : List Strip) (s : State) {t : State} (e : buildBlocks p h new s = .ok t) :
    fusesOf t = fusesOf s := by
  dsimp only [buildBlocks] at e
  split at e
  · cases e
  · rename_i u hu
    rw [fusesOf_allocBlocks _ _ _ _ e, fusesOf_allocBlocks _ _ _ _ hu]

@[simp] theorem fusesOf_buildFails (p : Nat) (st : Status) (s : State) : fusesOf (buildFails p st s) = fusesOf s := by simp [buildFails]
@[simp] theorem fusesOf_buildReady (src : Nat) (s : State) : fusesOf (buildReady src s) = fusesOf s := by simp [buildReady]

@[simp] theorem fusesOf_applyBarrier (const : Bool) (c : F32) (s : State) : fusesOf (applyBarrier const c s) = fusesOf s := by
  dsimp only [applyBarrier]
  split
  · rfl
  · split
    · split
      · simp
      · simp
      · rename_i u hu
        simp [fusesOf_buildBlocks _ _ _ _ hu]
    · simp

@[simp] theorem fusesOf_barrierCmd (c : Cmd) (s : State) : fusesOf (barrierCmd c s) = fusesOf s := by simp [barrierCmd]

@[simp] theorem fusesOf_barrierStamp (n : Nat) (s : State) : fusesOf (barrierStamp n s) = fusesOf s := by
  unfold barrierStamp; (repeat' split) <;> simp

@[simp] theorem fusesOf_imageWritten (src : Nat) (s : State) : fusesOf (imageWritten src s) = fusesOf s := by
  dsimp only [imageWritten]; split <;> simp

@[simp] theorem fusesOf_hostImageDone (s : State) : fusesOf (hostImageDone s) = fusesOf s := by simp [hostImageDone]
@[simp] theorem fusesOf_headTold (p : Nat) (id : HeadId) (s : State) : fusesOf (headTold p id s) = fusesOf s := by simp [headTold]

@[simp] theorem fusesOf_barrierCommits (s : State) : fusesOf (barrierCommits s) = fusesOf s := by
  unfold barrierCommits; (repeat' split) <;> simp

@[simp] theorem fusesOf_barrierDrops (s : State) : fusesOf (barrierDrops s) = fusesOf s := by
  unfold barrierDrops; split <;> simp

@[simp] theorem fusesOf_discardCmd (c : Cmd) (s : State) : fusesOf (discardCmd c s) = fusesOf s := by simp [discardCmd]

@[simp] theorem fusesOf_applyDiscard (s : State) : fusesOf (applyDiscard s) = fusesOf s := by
  unfold applyDiscard; (repeat' split) <;> simp

@[simp] theorem fusesOf_maskStatusCmd (c : Cmd) (s : State) : fusesOf (maskStatusCmd c s) = fusesOf s := by simp [maskStatusCmd]
@[simp] theorem fusesOf_normFails (s : State) : fusesOf (normFails s) = fusesOf s := by simp [normFails]

@[simp] theorem fusesOf_slotTold (src : Nat) (k : SlotKind) (seq : Word) (s : State) : fusesOf (slotTold src k seq s) = fusesOf s := by
  unfold slotTold; split <;> simp

@[simp] theorem fusesOf_slotCommits (k : SlotKind) (seq : Word) (s : State) : fusesOf (slotCommits k seq s) = fusesOf s := by
  unfold slotCommits; split <;> simp

@[simp] theorem fusesOf_slotWritten (k : SlotKind) (seq : Word) (s : State) : fusesOf (slotWritten k seq s) = fusesOf s := by
  unfold slotWritten; split <;> simp

/-! ### Machine/Pans.lean -/
@[simp] theorem fusesOf_dropCopies (f : StripId → Nat → Bool) (s : State) : fusesOf (dropCopies f s) = fusesOf s := by simp [dropCopies]
@[simp] theorem fusesOf_fencePan (n : Nat) (s : State) : fusesOf (fencePan n s) = fusesOf s := by simp [fencePan]
@[simp] theorem fusesOf_heatUp (i : StripId) (n : Nat) (s : State) : fusesOf (heatUp i n s) = fusesOf s := by simp [heatUp]

@[simp] theorem fusesOf_passDone (p : PassInfo) (s : State) : fusesOf (passDone p s) = fusesOf s := by
  unfold passDone; (repeat' split) <;> simp

@[simp] theorem fusesOf_startCopy (i : StripId) (n : Nat) (s : State) : fusesOf (startCopy i n s) = fusesOf s := by simp [startCopy]

@[simp] theorem fusesOf_planCopy (k : Nat) (i : StripId) (s : State) : fusesOf (planCopy k i s).1 = fusesOf s := by
  dsimp only [planCopy]; (repeat' split) <;> simp

@[simp] theorem fusesOf_planRound (n : Nat) (l : List StripId) (moved : Nat) (s : State) : fusesOf (planRound n l moved s) = fusesOf s := by
  induction l generalizing moved s with
  | nil => rfl
  | cons i l ih => simp [planRound, ih]

@[simp] theorem fusesOf_stockpotPlan (s : State) : fusesOf (stockpotPlan s).1 = fusesOf s := by simp [stockpotPlan]
@[simp] theorem fusesOf_placementPlan (s : State) : fusesOf (placementPlan s) = fusesOf s := by simp [placementPlan]
@[simp] theorem fusesOf_ageHeat (s : State) : fusesOf (ageHeat s) = fusesOf s := by simp [ageHeat]
@[simp] theorem fusesOf_dropStale (f : StripId → Bool) (s : State) : fusesOf (dropStale f s) = fusesOf s := by simp [dropStale]
@[simp] theorem fusesOf_copyDone (i : StripId) (n : Nat) (s : State) : fusesOf (copyDone i n s) = fusesOf s := by simp [copyDone]

/-! ### Machine/Power.lean -/
@[simp] theorem fusesOf_updPair (p : Nat) (f : Pair → Pair) (s : State) : fusesOf (updPair p f s) = fusesOf s := by simp [updPair]
@[simp] theorem fusesOf_setPair (p mhz : Nat) (s : State) : fusesOf (setPair p mhz s) = fusesOf s := by simp [setPair]
@[simp] theorem fusesOf_settlePairs (s : State) : fusesOf (settlePairs s) = fusesOf s := by simp [settlePairs]
@[simp] theorem fusesOf_planDomain (pans : List Nat) (s : State) (d : Nat) : fusesOf (planDomain pans s d) = fusesOf s := by simp [planDomain]
@[simp] theorem fusesOf_planPower (pans : List Nat) (s : State) : fusesOf (planPower pans s) = fusesOf s := by simp [planPower]
@[simp] theorem fusesOf_powerPlan (s : State) : fusesOf (powerPlan s) = fusesOf s := by simp [powerPlan]
@[simp] theorem fusesOf_wakePans (s : State) : fusesOf (wakePans s) = fusesOf s := by simp [wakePans]
@[simp] theorem fusesOf_pwrAck (d : Nat) (s : State) : fusesOf (pwrAck d s) = fusesOf s := by simp [pwrAck]
@[simp] theorem fusesOf_panIdleOff (n : Nat) (s : State) : fusesOf (panIdleOff n s) = fusesOf s := by simp [panIdleOff]
@[simp] theorem fusesOf_agePans (s : State) : fusesOf (agePans s) = fusesOf s := by simp [agePans]
@[simp] theorem fusesOf_fencePair (p : Nat) (s : State) : fusesOf (fencePair p s) = fusesOf s := by simp [fencePair]

@[simp] theorem fusesOf_vfLoop (p stretched cycles : Nat) (quiet : Bool) (s : State) :
    fusesOf (vfLoop p stretched cycles quiet s) = fusesOf s := by
  unfold vfLoop; split <;> simp

@[simp] theorem fusesOf_vackRises (p : Nat) (s : State) : fusesOf (vackRises p s) = fusesOf s := by
  unfold vackRises; split <;> simp

@[simp] theorem fusesOf_alertRise (s : State) : fusesOf (alertRise s) = fusesOf s := by simp [alertRise]
@[simp] theorem fusesOf_alertFall (s : State) : fusesOf (alertFall s) = fusesOf s := by simp [alertFall]
@[simp] theorem fusesOf_droop (p : Nat) (s : State) : fusesOf (droop p s) = fusesOf s := by simp [droop]
@[simp] theorem fusesOf_pwrEst (s : State) : fusesOf (pwrEst s) = fusesOf s := by simp [pwrEst]

/-! ### Machine/Hip.lean -/

@[simp] theorem fusesOf_updHip (c : HipClass) (f : HipPort → HipPort) (s : State) : fusesOf (updHip c f s) = fusesOf s := by
  unfold updHip; split <;> simp

@[simp] theorem fusesOf_returnCredits (s : State) : fusesOf (returnCredits s) = fusesOf s := by simp [returnCredits]

@[simp] theorem fusesOf_hipViolation (c : HipClass) (code offset : Nat) (row : List Bytes) (s : State) :
    fusesOf (hipViolation c code offset row s) = fusesOf s := by simp [hipViolation]

theorem fusesOf_holdRow (must : Bool) (r : RowRec) (s : State) {t : State} (e : holdRow must r s = .ok t) : fusesOf t = fusesOf s := by
  dsimp only [holdRow] at e
  split at e
  · rename_i u hu
    cases e
    exact (fusesOf_allocLines _ _ _ _ hu :)
  · split at e <;> cases e
    rfl

@[simp] theorem fusesOf_rowReported (q : Nat) (s : State) : fusesOf (rowReported q s) = fusesOf s := by simp [rowReported]
@[simp] theorem fusesOf_carryReported (q k : Nat) (s : State) : fusesOf (carryReported q k s) = fusesOf s := by simp [carryReported]

@[simp] theorem fusesOf_treeCheck (q : Nat) (s : State) : fusesOf (treeCheck q s) = fusesOf s := by
  unfold treeCheck; split <;> simp

@[simp] theorem fusesOf_rowReportArrives (src q n : Nat) (trees : List Bytes) (s : State) :
    fusesOf (rowReportArrives src q n trees s) = fusesOf s := by
  dsimp only [rowReportArrives]; split <;> simp

@[simp] theorem fusesOf_serveRow (late : Bool) (r : RowRec) (s : State) : fusesOf (serveRow late r s) = fusesOf s := by
  dsimp only [serveRow]
  split
  · simp
  split
  · simp
  · simp
  · split
    · simp
    · split
      · simp
      split
      · simp
      · rename_i u hu
        have hkept := fusesOf_holdRow _ _ _ hu
        split
        · split <;> simp [hkept]
        · simp [hkept]

@[simp] theorem fusesOf_trainRow (r : RowRec) (s : State) : fusesOf (trainRow r s) = fusesOf s := by
  dsimp only [trainRow]; split <;> simp

@[simp] theorem fusesOf_judgeRow (c : HipClass) (late : Bool) (row : List Bytes) (s : State) : fusesOf (judgeRow c late row s) = fusesOf s := by
  dsimp only [judgeRow]; (repeat' split) <;> simp

@[simp] theorem fusesOf_judgeWaiting (s : State) : fusesOf (judgeWaiting s) = fusesOf s := by simp [judgeWaiting]
@[simp] theorem fusesOf_frameBeat (c : HipClass) (b : HipBeat) (s : State) : fusesOf (frameBeat c b s) = fusesOf s := by simp [frameBeat]
@[simp] theorem fusesOf_hipBeat (c : HipClass) (b : HipBeat) (s : State) : fusesOf (hipBeat c b s) = fusesOf s := by simp [hipBeat]
@[simp] theorem fusesOf_hipRow (c : HipClass) (bs : List HipBeat) (s : State) : fusesOf (hipRow c bs s) = fusesOf s := by simp [hipRow]

/-! ### Machine/Lines.lean -/
@[simp] theorem fusesOf_nextWcount (s : State) : fusesOf (nextWcount s) = fusesOf s := by simp [nextWcount]

@[simp] theorem fusesOf_writeSlot (p q slot adm : Nat) (src : Option Nat) (line : Bytes) (after : AfterWrite) (s : State) :
    fusesOf (writeSlot p q slot adm src line after s) = fusesOf s := by
  unfold writeSlot; split <;> simp

@[simp] theorem fusesOf_writeLine (q : Nat) (l : Nat × Bytes) (s : State) : fusesOf (writeLine q l s) = fusesOf s := by
  unfold writeLine; split <;> simp

@[simp] theorem fusesOf_writeBack (q : Nat) (s : State) : fusesOf (writeBack q s) = fusesOf s := by
  unfold writeBack; split <;> simp

@[simp] theorem fusesOf_flushCache (s : State) : fusesOf (flushCache s) = fusesOf s := by simp [flushCache]

@[simp] theorem fusesOf_evictLine (l : Nat × Nat) (s : State) : fusesOf (evictLine l s) = fusesOf s := by
  dsimp only [evictLine]; split <;> simp

@[simp] theorem fusesOf_accessLine (l : Nat × Nat) (s : State) : fusesOf (accessLine l s) = fusesOf s := by simp [accessLine]

@[simp] theorem fusesOf_fetchLines (q : Nat) (s : State) : fusesOf (fetchLines q s) = fusesOf s := by
  unfold fetchLines; (repeat' split) <;> simp

@[simp] theorem fusesOf_restoreLine (q slot : Nat) (s : State) : fusesOf (restoreLine q slot s) = fusesOf s := by
  dsimp only [restoreLine]; (repeat' split) <;> simp

@[simp] theorem fusesOf_lineBack (q slot : Nat) (s : State) : fusesOf (lineBack q slot s) = fusesOf s := by simp [lineBack]

@[simp] theorem fusesOf_putLine (q slot : Nat) (line : Bytes) (s : State) : fusesOf (putLine q slot line s) = fusesOf s := by
  unfold putLine; (repeat' split) <;> simp

@[simp] theorem fusesOf_backingArrived (q slot : Nat) (bs : Option Bytes) (s : State) : fusesOf (backingArrived q slot bs s) = fusesOf s := by
  unfold backingArrived; (repeat' split) <;> simp

@[simp] theorem fusesOf_writeRecord (e : ReqEntry) (n seq : Nat) (bytes : Bytes) (s : State) :
    fusesOf (writeRecord e n seq bytes s) = fusesOf s := by simp [writeRecord]

@[simp] theorem fusesOf_writeRecords (e : ReqEntry) (n seq : Nat) (l : List Bytes) (s : State) :
    fusesOf (writeRecords e n seq l s) = fusesOf s := by simp [writeRecords]

@[simp] theorem fusesOf_publishOne (p : Publication) (s : State) : fusesOf (publishOne p s) = fusesOf s := by
  unfold publishOne; split <;> simp

/-- Publications that go out one after another, those that may not kept for later. -/
theorem fusesOf_publishEach (l : List Publication) (a : State × List Publication) :
    fusesOf (l.foldl (fun a p => if mayPublish a.2 p a.1 then (publishOne p a.1, a.2) else (a.1, a.2 ++ [p])) a).1 = fusesOf a.1 := by
  induction l generalizing a with
  | nil => rfl
  | cons p l ih =>
    rw [List.foldl_cons, ih]
    split <;> simp

@[simp] theorem fusesOf_drainPubs (s : State) : fusesOf (drainPubs s) = fusesOf s := by
  exact fusesOf_publishEach s.evt.late ({ s with evt := { s.evt with late := [] } }, [])

@[simp] theorem fusesOf_publishOut (p : Publication) (s : State) : fusesOf (publishOut p s) = fusesOf s := by simp [publishOut]

@[simp] theorem fusesOf_tryProd (q : Nat) (s : State) : fusesOf (tryProd q s) = fusesOf s := by
  unfold tryProd; split <;> simp

@[simp] theorem fusesOf_recordOut (q n : Nat) (last : Bool) (s : State) : fusesOf (recordOut q n last s) = fusesOf s := by simp [recordOut]

@[simp] theorem fusesOf_prodDone (q n : Nat) (s : State) : fusesOf (prodDone q n s) = fusesOf s := by
  unfold prodDone; split <;> simp

@[simp] theorem fusesOf_consArrived (q : Nat) (bs : Option Bytes) (s : State) : fusesOf (consArrived q bs s) = fusesOf s := by
  unfold consArrived; split <;> simp

/-! ### Machine/Ports.lean -/

@[simp] theorem fusesOf_updGbp (c : GbpCh) (f : GbpPort → GbpPort) (s : State) : fusesOf (updGbp c f s) = fusesOf s := by
  unfold updGbp; split <;> simp

@[simp] theorem fusesOf_gbpCredit (c : GbpCh) (s : State) : fusesOf (gbpCredit c s) = fusesOf s := by simp [gbpCredit]
@[simp] theorem fusesOf_gbpAck (c : GbpCh) (s : State) : fusesOf (gbpAck c s) = fusesOf s := by simp [gbpAck]

@[simp] theorem fusesOf_gbpSend (c : GbpCh) (s : State) : fusesOf (gbpSend c s) = fusesOf s := by
  dsimp only [gbpSend]; split <;> simp

@[simp] theorem fusesOf_thawGbp (s : State) : fusesOf (thawGbp s) = fusesOf s := by simp [thawGbp]
@[simp] theorem fusesOf_evtOut (b : Bytes) (s : State) : fusesOf (evtOut b s) = fusesOf s := by simp [evtOut]
@[simp] theorem fusesOf_evtCredit (s : State) : fusesOf (evtCredit s) = fusesOf s := by simp [evtCredit]

@[simp] theorem fusesOf_eventSend (s : State) : fusesOf (eventSend s) = fusesOf s := by
  unfold eventSend; (repeat' split) <;> simp

@[simp] theorem fusesOf_alarmSend (s : State) : fusesOf (alarmSend s) = fusesOf s := by
  unfold alarmSend; (repeat' split) <;> simp

/-! ### Machine/Keeper.lean -/

@[simp] theorem fusesOf_sendDelta (n : Nat) (s : State) : fusesOf (sendDelta n s) = fusesOf s := by
  unfold sendDelta; split <;> simp

@[simp] theorem fusesOf_snapshot (s : State) : fusesOf (snapshot s) = fusesOf s := by simp [snapshot]
@[simp] theorem fusesOf_ackDeltas (s : State) : fusesOf (ackDeltas s) = fusesOf s := by simp [ackDeltas]
@[simp] theorem fusesOf_markKept (q p slot : Nat) (s : State) : fusesOf (markKept q p slot s) = fusesOf s := by simp [markKept]

@[simp] theorem fusesOf_shadowEntry (src step : Nat) (x : DeltaEntry) (s : State) : fusesOf (shadowEntry src step x s) = fusesOf s := by
  unfold shadowEntry; split <;> simp

@[simp] theorem fusesOf_lineRestored (q slot : Nat) (line : Bytes) (s : State) :
    fusesOf (lineRestored q slot line s) = fusesOf s := by simp [lineRestored]

@[simp] theorem fusesOf_returnLine (dest q p slot : Nat) (line : Bytes) (s : State) :
    fusesOf (returnLine dest q p slot line s) = fusesOf s := by simp [returnLine]

@[simp] theorem fusesOf_fetchEntry (src : Nat) (x : DeltaEntry) (s : State) : fusesOf (fetchEntry src x s) = fusesOf s := by
  unfold fetchEntry; (repeat' split) <;> simp

@[simp] theorem fusesOf_deltaEntry (src step : Nat) (x : DeltaEntry) (s : State) : fusesOf (deltaEntry src step x s) = fusesOf s := by
  unfold deltaEntry; split <;> simp

@[simp] theorem fusesOf_deltaArrives (d : HuskDelta) (s : State) : fusesOf (deltaArrives d s) = fusesOf s := by simp [deltaArrives]

@[simp] theorem fusesOf_shadowFetched (q p slot : Nat) (bs : Option Bytes) (s : State) : fusesOf (shadowFetched q p slot bs s) = fusesOf s := by
  dsimp only [shadowFetched]; split <;> simp

@[simp] theorem fusesOf_huskNonce (s : State) : fusesOf (huskNonce s).2 = fusesOf s := by simp [huskNonce]

@[simp] theorem fusesOf_writeHusk (q addr seqLast : Nat) (s : State) : fusesOf (writeHusk q addr seqLast s) = fusesOf s := by
  unfold writeHusk; split <;> simp

/-! ### Machine/Outcome.lean -/

@[simp] theorem fusesOf_fixFate (n : Nat) (hold : Bool) (set : List Settings) (fixed : Option (Nat × Bool)) (old : ReqEntry) (f : Fate) (s : State) :
    fusesOf (fixFate n hold set fixed old f s) = fusesOf s := by simp [fixFate]

@[simp] theorem fusesOf_admitStamp (n : Nat) (e : ReqEntry) (s : State) : fusesOf (admitStamp n e s) = fusesOf s := by
  unfold admitStamp; (repeat' split) <;> simp

@[simp] theorem fusesOf_moveOut (n : Nat) (e : ReqEntry) (s : State) : fusesOf (moveOut n e s) = fusesOf s := by simp [moveOut]

@[simp] theorem fusesOf_moveIn (q : Nat) (d : Bytes) (s : State) : fusesOf (moveIn q d s) = fusesOf s := by
  unfold moveIn
  split
  · rfl
  · rename_i e he
    cases h : allocLines e.info.part (.window q) 4 s with
    | ok t => simp [fusesOf_allocLines _ _ _ _ h]
    | error e => simp

@[simp] theorem fusesOf_moveEnd (n : Nat) (e : ReqEntry) (s : State) : fusesOf (moveEnd n e s) = fusesOf s := by simp [moveEnd]

@[simp] theorem fusesOf_dropChanges (q n : Nat) (keep : ReqChange → Bool) (s : State) :
    fusesOf (dropChanges q n keep s) = fusesOf s := by simp [dropChanges]

@[simp] theorem fusesOf_evictBegins (n : Nat) (e : ReqEntry) (s : State) : fusesOf (evictBegins n e s) = fusesOf s := by simp [evictBegins]
@[simp] theorem fusesOf_evictEnds (n : Nat) (e : ReqEntry) (s : State) : fusesOf (evictEnds n e s) = fusesOf s := by simp [evictEnds]
@[simp] theorem fusesOf_evictStamp (n : Nat) (e : ReqEntry) (s : State) : fusesOf (evictStamp n e s) = fusesOf s := by simp [evictStamp]

@[simp] theorem fusesOf_huskWritten (q : Nat) (s : State) : fusesOf (huskWritten q s) = fusesOf s := by
  unfold huskWritten; (repeat' split) <;> simp

@[simp] theorem fusesOf_stampReq (n : Nat) (q : Nat) (s : State) : fusesOf (stampReq n q s) = fusesOf s := by
  unfold stampReq; split <;> simp

@[simp] theorem fusesOf_releaseReq (q : Nat) (s : State) : fusesOf (releaseReq q s) = fusesOf s := by
  unfold releaseReq; split <;> simp

@[simp] theorem fusesOf_holdCarried (r : RowRec) (s : State) : fusesOf (holdCarried r s) = fusesOf s := by
  dsimp only [holdCarried]
  split
  · rfl
  · split
    · rename_i u hu
      exact (fusesOf_allocLines _ _ _ _ hu :)
    · simp

@[simp] theorem fusesOf_rowsAfter (o : ReqOutcome) (s : State) : fusesOf (rowsAfter o s) = fusesOf s := by
  unfold rowsAfter; (repeat' split) <;> simp

@[simp] theorem fusesOf_stateWaits (q : Nat) (st : ReqState) (s : State) : fusesOf (stateWaits q st s) = fusesOf s := by simp [stateWaits]

@[simp] theorem fusesOf_applyOutcome (o : ReqOutcome) (s : State) : fusesOf (applyOutcome o s) = fusesOf s := by
  dsimp only [applyOutcome]; split <;> simp

@[simp] theorem fusesOf_lateLimit (q : Nat) (s : State) : fusesOf (lateLimit q s) = fusesOf s := by
  unfold lateLimit; split <;> simp

@[simp] theorem fusesOf_stallLimit (q : Nat) (s : State) : fusesOf (stallLimit q s) = fusesOf s := by
  unfold stallLimit; split <;> simp

/-! ### Machine/Partition.lean -/
@[simp] theorem fusesOf_eociaResumes (s : State) : fusesOf (eociaResumes s) = fusesOf s := by simp [eociaResumes]
@[simp] theorem fusesOf_putKeys (k : KeySet) (s : State) : fusesOf (putKeys k s) = fusesOf s := by simp [putKeys]
@[simp] theorem fusesOf_newKeys (p : Nat) (s : State) : fusesOf (newKeys p s) = fusesOf s := by simp [newKeys]

@[simp] theorem fusesOf_renewKeys (p : Nat) (s : State) : fusesOf (renewKeys p s) = fusesOf s := by
  dsimp only [renewKeys]; (repeat' split) <;> simp

@[simp] theorem fusesOf_keysArrive (k : WrappedKeys) (s : State) : fusesOf (keysArrive k s) = fusesOf s := by
  unfold keysArrive; split <;> simp

@[simp] theorem fusesOf_entropyFail (s : State) : fusesOf (entropyFail s) = fusesOf s := by simp [entropyFail]
@[simp] theorem fusesOf_dropTraffic (p : Nat) (s : State) : fusesOf (dropTraffic p s) = fusesOf s := by simp [dropTraffic]
@[simp] theorem fusesOf_endCommands (p : Nat) (st : Status) (s : State) : fusesOf (endCommands p st s) = fusesOf s := by simp [endCommands]
@[simp] theorem fusesOf_endForwardedOf (p : Nat) (s : State) : fusesOf (endForwardedOf p s) = fusesOf s := by simp [endForwardedOf]
@[simp] theorem fusesOf_clearRequests (p : Nat) (s : State) : fusesOf (clearRequests p s) = fusesOf s := by simp [clearRequests]
@[simp] theorem fusesOf_clearTraining (p : Nat) (s : State) : fusesOf (clearTraining p s) = fusesOf s := by simp [clearTraining]
@[simp] theorem fusesOf_clearTenants (p : Nat) (s : State) : fusesOf (clearTenants p s) = fusesOf s := by simp [clearTenants]
@[simp] theorem fusesOf_clearObjects (p : Nat) (s : State) : fusesOf (clearObjects p s) = fusesOf s := by simp [clearObjects]
@[simp] theorem fusesOf_leaveScratch (p : Nat) (s : State) : fusesOf (leaveScratch p s) = fusesOf s := by simp [leaveScratch]
@[simp] theorem fusesOf_freeLeaving (p : Nat) (s : State) : fusesOf (freeLeaving p s) = fusesOf s := by simp [freeLeaving]
@[simp] theorem fusesOf_clearKeys (p : Nat) (s : State) : fusesOf (clearKeys p s) = fusesOf s := by simp [clearKeys]
@[simp] theorem fusesOf_clearPart (p : Nat) (s : State) : fusesOf (clearPart p s) = fusesOf s := by simp [clearPart]
@[simp] theorem fusesOf_dropDoorbells (p : Nat) (s : State) : fusesOf (dropDoorbells p s) = fusesOf s := by simp [dropDoorbells]
@[simp] theorem fusesOf_applyKill (p : Nat) (s : State) : fusesOf (applyKill p s) = fusesOf s := by simp [applyKill]
@[simp] theorem fusesOf_startKill (p : Nat) (s : State) : fusesOf (startKill p s) = fusesOf s := by simp [startKill]
@[simp] theorem fusesOf_finishKill (k : Kill) (s : State) : fusesOf (finishKill k s) = fusesOf s := by simp [finishKill]
@[simp] theorem fusesOf_checkKills (s : State) : fusesOf (checkKills s) = fusesOf s := by simp [checkKills]

@[simp] theorem fusesOf_scrubReported (n p : Nat) (s : State) : fusesOf (scrubReported n p s) = fusesOf s := by
  unfold scrubReported; split <;> simp

@[simp] theorem fusesOf_unlockCapture (s : State) : fusesOf (unlockCapture s) = fusesOf s := by
  dsimp only [unlockCapture]
  split
  · rfl
  · exact fusesOf_drbg 48 _

@[simp] theorem fusesOf_unlockUpdate (key sig : Bytes) (s : State) : fusesOf (unlockUpdate key sig s) = fusesOf s := by
  dsimp only [unlockUpdate]
  split
  · simp
  · split <;> simp

@[simp] theorem fusesOf_unlockDone (s : State) : fusesOf (unlockDone s) = fusesOf s := by simp [unlockDone]
@[simp] theorem fusesOf_holdoffEnds (s : State) : fusesOf (holdoffEnds s) = fusesOf s := by simp [holdoffEnds]

/-- A fuse bank with more bits keeps those of the old one. -/
theorem fusesKept_fuseWrite (word : Nat) (v : BitVec 384) (vdd : Bool) (s : State) :
    FusesKept s.sec.fuses (fuseWrite word v vdd s).sec.fuses := by
  have hmore : ∀ {n : Nat} (x y : BitVec n), x ||| (x ||| y) = x ||| y := fun x y => by rw [← BitVec.or_assoc, BitVec.or_self]
  unfold fuseWrite
  dsimp only
  repeat' split
  all_goals simp [FusesKept, hmore]

@[simp] theorem fusesOf_clearService (s : State) : fusesOf (clearService s) = fusesOf s := by simp [clearService]
@[simp] theorem fusesOf_endForwarded (s : State) : fusesOf (endForwarded s) = fusesOf s := by simp [endForwarded]
@[simp] theorem fusesOf_enterSolo (s : State) : fusesOf (enterSolo s) = fusesOf s := by simp [enterSolo]

/-! ### Machine/Manage.lean -/
@[simp] theorem fusesOf_sendJars (dest : Nat) (rs : List RangeEntry) (s : State) : fusesOf (sendJars dest rs s) = fusesOf s := by simp [sendJars]

@[simp] theorem fusesOf_jarShareArrives (src q : Nat) (l : List ChunkRec) (s : State) :
    fusesOf (jarShareArrives src q l s) = fusesOf s := by simp [jarShareArrives]

@[simp] theorem fusesOf_readTaken (s : State) : fusesOf (readTaken s) = fusesOf s := by simp [readTaken]
@[simp] theorem fusesOf_uncover (rs : List RangeEntry) (s : State) : fusesOf (uncover rs s) = fusesOf s := by simp [uncover]
@[simp] theorem fusesOf_coverCheck (s : State) : fusesOf (coverCheck s) = fusesOf s := by simp [coverCheck]

@[simp] theorem fusesOf_retireTaken (p first : Nat) (s : State) : fusesOf (retireTaken p first s) = fusesOf s := by
  unfold retireTaken; split <;> simp

@[simp] theorem fusesOf_takenArrived (p v addr : Nat) (r : RangeEntry) (bs : Option Bytes) (s : State) :
    fusesOf (takenArrived p v addr r bs s) = fusesOf s := by
  dsimp only [takenArrived]
  split
  · split
    · rfl
    · rename_i u hu
      simp [fusesOf_allocBlocks _ _ _ _ hu]
  · rfl

@[simp] theorem fusesOf_moveObjects (old new : List RangeEntry) (s : State) : fusesOf (moveObjects old new s) = fusesOf s := by simp [moveObjects]
@[simp] theorem fusesOf_trimStrips (s : State) : fusesOf (trimStrips s) = fusesOf s := by simp [trimStrips]
@[simp] theorem fusesOf_moveRuns (f : Group → Group) (s : State) : fusesOf (moveRuns f s) = fusesOf s := by simp [moveRuns]
@[simp] theorem fusesOf_loseAcorns (h : Nat) (s : State) : fusesOf (loseAcorns h s) = fusesOf s := by simp [loseAcorns]
@[simp] theorem fusesOf_restartEvicts (s : State) : fusesOf (restartEvicts s) = fusesOf s := by simp [restartEvicts]
@[simp] theorem fusesOf_becomeHoles (hs : List Nat) (s : State) : fusesOf (becomeHoles hs s) = fusesOf s := by simp [becomeHoles]

@[simp] theorem fusesOf_moveAway (s : State) : fusesOf (moveAway s) = fusesOf s := by
  unfold moveAway; split <;> simp

@[simp] theorem fusesOf_drainBegins (n step : Nat) (s : State) : fusesOf (drainBegins n step s) = fusesOf s := by simp [drainBegins]
@[simp] theorem fusesOf_sliceDrainCmd (c : Cmd) (s : State) : fusesOf (sliceDrainCmd c s) = fusesOf s := by simp [sliceDrainCmd]

@[simp] theorem fusesOf_drainStamp (n : Nat) (s : State) : fusesOf (drainStamp n s) = fusesOf s := by
  unfold drainStamp; split <;> simp

@[simp] theorem fusesOf_fwStageCmd (c : Cmd) (s : State) : fusesOf (fwStageCmd c s) = fusesOf s := by simp [fwStageCmd]

@[simp] theorem fusesOf_fwRead (c : Cmd) (bs : Option Bytes) (s : State) : fusesOf (fwRead c bs s) = fusesOf s := by
  unfold fwRead; (repeat' split) <;> simp

@[simp] theorem fusesOf_leaveGroup (s : State) : fusesOf (leaveGroup s) = fusesOf s := by
  unfold leaveGroup; split <;> simp

@[simp] theorem fusesOf_joinTold (n iface : Nat) (e : BitVec 3) (f : BitVec 6) (s : State) :
    fusesOf (joinTold n iface e f s) = fusesOf s := by simp [joinTold]

@[simp] theorem fusesOf_sendCopies (dest : Nat) (s : State) : fusesOf (sendCopies dest s) = fusesOf s := by
  unfold sendCopies
  simp only [↓fusesOf_foldl, ↓fusesOf_ite, ↓fusesOf_send, ite_self, implies_true]

@[simp] theorem fusesOf_joinTick (s : State) : fusesOf (joinTick s) = fusesOf s := by simp [joinTick]
@[simp] theorem fusesOf_joinGroup (j : JoinInfo) (s : State) : fusesOf (joinGroup j s) = fusesOf s := by simp [joinGroup]

@[simp] theorem fusesOf_copyArrives (i : Sync) (s : State) : fusesOf (copyArrives i s) = fusesOf s := by
  unfold copyArrives; split <;> simp

@[simp] theorem fusesOf_sliceRejoinCmd (c : Cmd) (s : State) : fusesOf (sliceRejoinCmd c s) = fusesOf s := by simp [sliceRejoinCmd]

@[simp] theorem fusesOf_rejoinSend (s : State) : fusesOf (rejoinSend s) = fusesOf s := by
  unfold rejoinSend; split <;> simp

@[simp] theorem fusesOf_rejoinBegins (n step : Nat) (s : State) : fusesOf (rejoinBegins n step s) = fusesOf s := by simp [rejoinBegins]

@[simp] theorem fusesOf_rejoinStamp (n : Nat) (s : State) : fusesOf (rejoinStamp n s) = fusesOf s := by
  unfold rejoinStamp; split <;> simp

@[simp] theorem fusesOf_rejoinTick (s : State) : fusesOf (rejoinTick s) = fusesOf s := by
  unfold rejoinTick; split <;> simp

@[simp] theorem fusesOf_drainShares (s : State) : fusesOf (drainShares s) = fusesOf s := by
  unfold drainShares; split <;> simp

/-! ### Machine/Accept.lean -/

@[simp] theorem fusesOf_runCmd (op : Op) (c : Cmd) (s : State) : fusesOf (runCmd op c s) = fusesOf s := by
  unfold runCmd; split <;> simp

@[simp] theorem fusesOf_runOp (op : Op) (c : Cmd) (s : State) : fusesOf (runOp op c s) = fusesOf s := by simp [runOp]
@[simp] theorem fusesOf_runDeferred (s : State) : fusesOf (runDeferred s) = fusesOf s := by simp [runDeferred]

@[simp] theorem fusesOf_deltaAcked (src step : Nat) (s : State) : fusesOf (deltaAcked src step s) = fusesOf s := by
  unfold deltaAcked; (repeat' split) <;> simp

/-! ### Machine/Regroup.lean -/
@[simp] theorem fusesOf_restartPlan (s : State) (x : Plan) : fusesOf (restartPlan s x) = fusesOf s := by simp [restartPlan]

@[simp] theorem fusesOf_stopTraining (s : State) : fusesOf (stopTraining s) = fusesOf s := by
  dsimp only [stopTraining]; split <;> simp

@[simp] theorem fusesOf_resumeTraining (s : State) : fusesOf (resumeTraining s) = fusesOf s := by
  unfold resumeTraining; split <;> simp

@[simp] theorem fusesOf_drainMeetsLoss (n : Nat) (s : State) : fusesOf (drainMeetsLoss n s) = fusesOf s := by
  unfold drainMeetsLoss; split <;> simp

@[simp] theorem fusesOf_beginRegroup (n f : Nat) (s : State) : fusesOf (beginRegroup n f s) = fusesOf s := by simp [beginRegroup]
@[simp] theorem fusesOf_declareLost (n : Nat) (s : State) : fusesOf (declareLost n s) = fusesOf s := by simp [declareLost]
@[simp] theorem fusesOf_reportRows (s : State) : fusesOf (reportRows s) = fusesOf s := by simp [reportRows]

@[simp] theorem fusesOf_reportApplied (s : State) : fusesOf (reportApplied s) = fusesOf s := by
  dsimp only [reportApplied]
  rw [fusesOf_flood, fusesOf_foldl]
  · simp
  · intro t e
    split <;> simp

@[simp] theorem fusesOf_appliedArrives (o : ReqOutcome) (s : State) : fusesOf (appliedArrives o s) = fusesOf s := by
  unfold appliedArrives; split <;> simp

@[simp] theorem fusesOf_voidArrives (q n : Nat) (s : State) : fusesOf (voidArrives q n s) = fusesOf s := by simp [voidArrives]
@[simp] theorem fusesOf_reconcile (s : State) : fusesOf (reconcile s) = fusesOf s := by simp [reconcile]

@[simp] theorem fusesOf_readShadows (s : State) : fusesOf (readShadows s) = fusesOf s := by
  dsimp only [readShadows]
  split
  · rfl
  · refine fusesOf_foldl (fun t e => ?_) _ _
    split <;> simp

@[simp] theorem fusesOf_takeoverBegins (s : State) : fusesOf (takeoverBegins s) = fusesOf s := by
  unfold takeoverBegins; split <;> simp

@[simp] theorem fusesOf_reportArrives (n step : Nat) (s : State) : fusesOf (reportArrives n step s) = fusesOf s := by
  unfold reportArrives; split <;> simp

@[simp] theorem fusesOf_reportNow (s : State) : fusesOf (reportNow s) = fusesOf s := by simp [reportNow]
@[simp] theorem fusesOf_lostLine (q : Nat) (s : State) : fusesOf (lostLine q s) = fusesOf s := by simp [lostLine]
@[simp] theorem fusesOf_shareRebuilt (h : Nat) (s : State) : fusesOf (shareRebuilt h s) = fusesOf s := by simp [shareRebuilt]

@[simp] theorem fusesOf_shadowArrived (q p slot : Nat) (bs : Option Bytes) (s : State) : fusesOf (shadowArrived q p slot bs s) = fusesOf s := by
  dsimp only [shadowArrived]
  cases bs.bind (openSlot { s with keeper := { s.keeper with reading := s.keeper.reading - 1 } } p q slot
    (((reqOf s q).map (·.info.admitStep)).getD 0) (some s.keeper.kept)) <;> simp

@[simp] theorem fusesOf_windowAnew (e : ReqEntry) (s : State) : fusesOf (windowAnew e s) = fusesOf s := by
  cases h : allocLines e.info.part (.window e.req) 4 s with
  | ok t => simp [windowAnew, h, fusesOf_allocLines _ _ _ _ h]
  | error e => simp [windowAnew, h]

@[simp] theorem fusesOf_recordsAnew (q : Nat) (s : State) : fusesOf (recordsAnew q s) = fusesOf s := by
  unfold recordsAnew; (repeat' split) <;> simp

@[simp] theorem fusesOf_homeRebuilt (q : Nat) (s : State) : fusesOf (homeRebuilt q s) = fusesOf s := by
  unfold homeRebuilt; split <;> simp

@[simp] theorem fusesOf_runKept (x : DeltaEntry) (s : State) : fusesOf (runKept x s) = fusesOf s := by
  unfold runKept; split <;> simp

@[simp] theorem fusesOf_runKeptAll (s : State) : fusesOf (runKeptAll s) = fusesOf s := by simp [runKeptAll]
@[simp] theorem fusesOf_reportAgain (s : State) : fusesOf (reportAgain s) = fusesOf s := by simp [reportAgain]

@[simp] theorem fusesOf_settleLoads (s : State) : fusesOf (settleLoads s) = fusesOf s := by
  refine fusesOf_foldl (fun t x => ?_) _ _
  split <;> simp

@[simp] theorem fusesOf_loadsLost (hs : List Nat) (s : State) : fusesOf (loadsLost hs s) = fusesOf s := by simp [loadsLost]

@[simp] theorem fusesOf_takeoverEnds (s : State) : fusesOf (takeoverEnds s) = fusesOf s := by
  unfold takeoverEnds; split <;> simp

@[simp] theorem fusesOf_endLostForwards (hs : List Nat) (s : State) : fusesOf (endLostForwards hs s) = fusesOf s := by simp [endLostForwards]

@[simp] theorem fusesOf_regroupTick (s : State) : fusesOf (regroupTick s) = fusesOf s := by
  unfold regroupTick; split <;> simp

@[simp] theorem fusesOf_regroupMsg (m : RegroupMsg) (s : State) : fusesOf (regroupMsg m s) = fusesOf s := by
  unfold regroupMsg; split <;> simp

/-! ### Machine/Reads.lean -/
@[simp] theorem fusesOf_busyRead (op : Op) (c : Cmd) (s : State) : fusesOf (busyRead op c s) = fusesOf s := by simp [busyRead]

@[simp] theorem fusesOf_logConsArrived (bs : Option Bytes) (s : State) : fusesOf (logConsArrived bs s) = fusesOf s := by
  unfold logConsArrived; split <;> simp

@[simp] theorem fusesOf_readDone (j : ReadJob) (bs : Option Bytes) (s : State) : fusesOf (readDone j bs s) = fusesOf s := by
  unfold readDone; split <;> simp

@[simp] theorem fusesOf_endJob (n : Nat) (s : State) : fusesOf (endJob n s) = fusesOf s := by
  unfold endJob; (repeat' split) <;> simp

@[simp] theorem fusesOf_runJobs (s : State) : fusesOf (runJobs s) = fusesOf s := by simp [runJobs]

@[simp] theorem fusesOf_failJob (n : Nat) (s : State) : fusesOf (failJob n s) = fusesOf s := by
  unfold failJob; split <;> simp

@[simp] theorem fusesOf_writeDone (n : Nat) (a : AfterWrite) (s : State) : fusesOf (writeDone n a s) = fusesOf s := by
  unfold writeDone; split <;> simp

/-! ### Machine/Hmp.lean -/
@[simp] theorem fusesOf_updTxn (t : Txn) (f : Txn → Txn) (s : State) : fusesOf (updTxn t f s) = fusesOf s := by simp [updTxn]
@[simp] theorem fusesOf_answered (s : State) : fusesOf (answered s) = fusesOf s := by simp [answered]
@[simp] theorem fusesOf_endTxn (t : Txn) (s : State) : fusesOf (endTxn t s) = fusesOf s := by simp [endTxn]
@[simp] theorem fusesOf_hmpViolation (code tag : Nat) (s : State) : fusesOf (hmpViolation code tag s) = fusesOf s := by simp [hmpViolation]
@[simp] theorem fusesOf_unknownTag (tag : Nat) (s : State) : fusesOf (unknownTag tag s) = fusesOf s := by simp [unknownTag]
@[simp] theorem fusesOf_discardAnswer (tag : Nat) (s : State) : fusesOf (discardAnswer tag s) = fusesOf s := by simp [discardAnswer]
@[simp] theorem fusesOf_hmpError (t : Txn) (tag : Nat) (r : Resp) (s : State) : fusesOf (hmpError t tag r s) = fusesOf s := by simp [hmpError]
@[simp] theorem fusesOf_errorTrace (t : Txn) (r : Resp) (s : State) : fusesOf (errorTrace t r s) = fusesOf s := by simp [errorTrace]
@[simp] theorem fusesOf_logWindow (t : Txn) (tag : Nat) (s : State) : fusesOf (logWindow t tag s) = fusesOf s := by simp [logWindow]
@[simp] theorem fusesOf_windowBreach (t : Txn) (tag : Nat) (s : State) : fusesOf (windowBreach t tag s) = fusesOf s := by simp [windowBreach]
@[simp] theorem fusesOf_readOk (t : Txn) (beats : List Bytes) (s : State) : fusesOf (readOk t beats s) = fusesOf s := by simp [readOk]

@[simp] theorem fusesOf_readFailed (t : Txn) (tag : Nat) (r : Resp) (s : State) :
    fusesOf (readFailed t tag r s) = fusesOf s := by simp [readFailed]

@[simp] theorem fusesOf_readData (ch : RdCh) (tag : Nat) (r : Resp) (beats : List Bytes) (s : State) :
    fusesOf (readData ch tag r beats s) = fusesOf s := by
  unfold readData; (repeat' split) <;> simp

@[simp] theorem fusesOf_retryRead (tag : Nat) (s : State) : fusesOf (retryRead tag s) = fusesOf s := by
  unfold retryRead; split <;> simp

@[simp] theorem fusesOf_writeFailed (t : Txn) (tag : Nat) (r : Resp) (s : State) :
    fusesOf (writeFailed t tag r s) = fusesOf s := by simp [writeFailed]

@[simp] theorem fusesOf_writeResponse (tag : Nat) (r : Resp) (s : State) : fusesOf (writeResponse tag r s) = fusesOf s := by
  unfold writeResponse; (repeat' split) <;> simp

@[simp] theorem fusesOf_reissueWrites (s : State) : fusesOf (reissueWrites s) = fusesOf s := by simp [reissueWrites]
@[simp] theorem fusesOf_thawHmp (s : State) : fusesOf (thawHmp s) = fusesOf s := by simp [thawHmp]

/-! ### Machine/Link.lean -/
@[simp] theorem fusesOf_updPort (n : Nat) (f : Port → Port) (s : State) : fusesOf (updPort n f s) = fusesOf s := by simp [updPort]
@[simp] theorem fusesOf_setSession (n : Nat) (x : Session) (s : State) : fusesOf (setSession n x s) = fusesOf s := by simp [setSession]
@[simp] theorem fusesOf_reroute (s : State) : fusesOf (reroute s) = fusesOf s := by simp [reroute]
@[simp] theorem fusesOf_queueOn (o : OutMsg) (s : State) (n : Nat) : fusesOf (queueOn o s n) = fusesOf s := by simp [queueOn]
@[simp] theorem fusesOf_queueOnAll (o : OutMsg) (ns : List Nat) (s : State) : fusesOf (queueOnAll o ns s) = fusesOf s := by simp [queueOnAll]

@[simp] theorem fusesOf_routeOne (s : State) (o : OutMsg) : fusesOf (routeOne s o) = fusesOf s := by
  unfold routeOne; (repeat' split) <;> simp

@[simp] theorem fusesOf_routeOut (s : State) : fusesOf (routeOut s) = fusesOf s := by simp [routeOut]

@[simp] theorem fusesOf_emitFlit (n : Nat) (f : TxFlit) (idle : Bool) (seq : Nat) (s : State) :
    fusesOf (emitFlit n f idle seq s) = fusesOf s := by simp [emitFlit]

@[simp] theorem fusesOf_sendFlit (n : Nat) (f : TxFlit) (s : State) : fusesOf (sendFlit n f s) = fusesOf s := by simp [sendFlit]

@[simp] theorem fusesOf_drainPort (n : Nat) (f : Nat) (s : State) : fusesOf (drainPort n f s) = fusesOf s := by
  induction f generalizing s with
  | zero => rfl
  | succ f ih => unfold drainPort; split <;> simp [ih]

@[simp] theorem fusesOf_linkSend (n : Nat) (s : State) : fusesOf (linkSend n s) = fusesOf s := by simp [linkSend]
@[simp] theorem fusesOf_linkStart (s : State) : fusesOf (linkStart s) = fusesOf s := by simp [linkStart]
@[simp] theorem fusesOf_restartStreams (n : Nat) (s : State) : fusesOf (restartStreams n s) = fusesOf s := by simp [restartStreams]
@[simp] theorem fusesOf_leaveActive (n : Nat) (x : Session) (s : State) : fusesOf (leaveActive n x s) = fusesOf s := by simp [leaveActive]
@[simp] theorem fusesOf_retrain (n : Nat) (s : State) : fusesOf (retrain n s) = fusesOf s := by simp [retrain]

@[simp] theorem fusesOf_conserveFails (n cls expected found : Nat) (s : State) :
    fusesOf (conserveFails n cls expected found s) = fusesOf s := by simp [conserveFails]

@[simp] theorem fusesOf_conservePort (s : State) (n : Nat) : fusesOf (conservePort s n) = fusesOf s := by
  dsimp only [conservePort]; (repeat' split) <;> simp

@[simp] theorem fusesOf_blConserve (s : State) : fusesOf (blConserve s) = fusesOf s := by simp [blConserve]

@[simp] theorem fusesOf_replayPort (n : Nat) (s : State) : fusesOf (replayPort n s) = fusesOf s := by
  dsimp only [replayPort]; split <;> simp

@[simp] theorem fusesOf_badMessage (n typ : Nat) (s : State) : fusesOf (badMessage n typ s) = fusesOf s := by simp [badMessage]

@[simp] theorem fusesOf_seenBefore (b : Bytes) (s : State) : fusesOf (seenBefore b s).2 = fusesOf s := by
  dsimp only [seenBefore]; (repeat' split) <;> simp

@[simp] theorem fusesOf_keepMsg (n cls : Nat) (b : Bytes) (s : State) : fusesOf (keepMsg n cls b s) = fusesOf s := by simp [keepMsg]

@[simp] theorem fusesOf_relayMsg (n cls : Nat) (dest : Option Nat) (b : Bytes) (s : State) :
    fusesOf (relayMsg n cls dest b s) = fusesOf s := by simp [relayMsg]

@[simp] theorem fusesOf_floodArrives (n cls : Nat) (b : Bytes) (s : State) : fusesOf (floodArrives n cls b s) = fusesOf s := by simp [floodArrives]

@[simp] theorem fusesOf_unicastArrives (n cls : Nat) (b : Bytes) (s : State) :
    fusesOf (unicastArrives n cls b s) = fusesOf s := by simp [unicastArrives]

@[simp] theorem fusesOf_messageIn (n cls : Nat) (b : Bytes) (s : State) : fusesOf (messageIn n cls b s) = fusesOf s := by simp [messageIn]

@[simp] theorem fusesOf_assemble (n cls : Nat) (w : Nat) (body : Bytes) (s : State) : fusesOf (assemble n cls w body s) = fusesOf s := by
  dsimp only [assemble]; (repeat' split) <;> simp

@[simp] theorem fusesOf_flitIn (n : Nat) (w seq : Nat) (body : Bytes) (s : State) : fusesOf (flitIn n w seq body s) = fusesOf s := by simp [flitIn]

@[simp] theorem fusesOf_flitArrives (n lane : Nat) (b : Bytes) (fecOk : Bool) (s : State) :
    fusesOf (flitArrives n lane b fecOk s) = fusesOf s := by simp [flitArrives]

@[simp] theorem fusesOf_takeNumbers (s : State) : fusesOf (takeNumbers s) = fusesOf s := by simp [takeNumbers]
@[simp] theorem fusesOf_enterHello (n : Nat) (s : State) : fusesOf (enterHello n s) = fusesOf s := by simp [enterHello]
@[simp] theorem fusesOf_setLane (n lane : Nat) (up : Bool) (s : State) : fusesOf (setLane n lane up s) = fusesOf s := by simp [setLane]

@[simp] theorem fusesOf_laneLocks (n lane : Nat) (s : State) : fusesOf (laneLocks n lane s) = fusesOf s := by
  dsimp only [laneLocks]; (repeat' split) <;> simp

@[simp] theorem fusesOf_portLost (n : Nat) (s : State) : fusesOf (portLost n s) = fusesOf s := by
  unfold portLost; split <;> simp

@[simp] theorem fusesOf_laneLost (n lane : Nat) (s : State) : fusesOf (laneLost n lane s) = fusesOf s := by simp [laneLost]
@[simp] theorem fusesOf_trainPort (n : Nat) (s : State) : fusesOf (trainPort n s) = fusesOf s := by simp [trainPort]
@[simp] theorem fusesOf_trainFails (n : Nat) (s : State) : fusesOf (trainFails n s) = fusesOf s := by simp [trainFails]
@[simp] theorem fusesOf_retrainFails (n : Nat) (s : State) : fusesOf (retrainFails n s) = fusesOf s := by simp [retrainFails]
@[simp] theorem fusesOf_trainingSignal (n : Nat) (s : State) : fusesOf (trainingSignal n s) = fusesOf s := by simp [trainingSignal]
@[simp] theorem fusesOf_marginLow (n lane : Nat) (s : State) : fusesOf (marginLow n lane s) = fusesOf s := by simp [marginLow]
@[simp] theorem fusesOf_domainUp (d : Nat) (s : State) : fusesOf (domainUp d s) = fusesOf s := by simp [domainUp]

/-! ### Machine/Boundary.lean -/

@[simp] theorem fusesOf_rangeGoverns (s : State) : fusesOf (rangeGoverns s) = fusesOf s := by
  unfold rangeGoverns; split <;> simp

@[simp] theorem fusesOf_freeOldOverlay (p : Nat) (o : Overlay) (s : State) : fusesOf (freeOldOverlay p o s) = fusesOf s := by
  dsimp only [freeOldOverlay]; split <;> simp

@[simp] theorem fusesOf_headTick (s : State) (h : Head) : fusesOf (headTick s h) = fusesOf s := by simp [headTick]
@[simp] theorem fusesOf_headsGovern (s : State) : fusesOf (headsGovern s) = fusesOf s := by simp [headsGovern]
@[simp] theorem fusesOf_objectsGovern (s : State) : fusesOf (objectsGovern s) = fusesOf s := by simp [objectsGovern]
@[simp] theorem fusesOf_voidOverlays (p v : Nat) (s : State) : fusesOf (voidOverlays p v s) = fusesOf s := by simp [voidOverlays]
@[simp] theorem fusesOf_variantsGovern (s : State) : fusesOf (variantsGovern s) = fusesOf s := by simp [variantsGovern]
@[simp] theorem fusesOf_releases (s : State) : fusesOf (releases s) = fusesOf s := by simp [releases]
@[simp] theorem fusesOf_limitRows (s : State) : fusesOf (limitRows s) = fusesOf s := by simp [limitRows]
@[simp] theorem fusesOf_rowsTick (ok : Nat → Bool) (s : State) : fusesOf (rowsTick ok s) = fusesOf s := by simp [rowsTick]
@[simp] theorem fusesOf_rowsNaming (s : State) : fusesOf (rowsNaming s) = fusesOf s := by simp [rowsNaming]
@[simp] theorem fusesOf_treesTick (s : State) : fusesOf (treesTick s) = fusesOf s := by simp [treesTick]
@[simp] theorem fusesOf_allowTick (s : State) : fusesOf (allowTick s) = fusesOf s := by simp [allowTick]
@[simp] theorem fusesOf_freezePart (p : Nat) (s : State) : fusesOf (freezePart p s) = fusesOf s := by simp [freezePart]
@[simp] theorem fusesOf_stkConserve (s : State) : fusesOf (stkConserve s) = fusesOf s := by simp [stkConserve]
@[simp] theorem fusesOf_tenantConserve (s : State) : fusesOf (tenantConserve s) = fusesOf s := by simp [tenantConserve]

@[simp] theorem fusesOf_portFails (row expected found : Nat) (m : Option (Master × Nat)) (s : State) :
    fusesOf (portFails row expected found m s) = fusesOf s := by
  unfold portFails; split <;> simp

@[simp] theorem fusesOf_portHolds (ok : Bool) (row expected found : Nat) (m : Option (Master × Nat)) (s : State) :
    fusesOf (portHolds ok row expected found m s) = fusesOf s := by simp [portHolds]

@[simp] theorem fusesOf_portsConserve (s : State) : fusesOf (portsConserve s) = fusesOf s := by simp [portsConserve]
@[simp] theorem fusesOf_conserve (s : State) : fusesOf (conserve s) = fusesOf s := by simp [conserve]
@[simp] theorem fusesOf_cacheTick (s : State) : fusesOf (cacheTick s) = fusesOf s := by simp [cacheTick]
@[simp] theorem fusesOf_fetchHeld (s : State) : fusesOf (fetchHeld s) = fusesOf s := by simp [fetchHeld]
@[simp] theorem fusesOf_streamsTick (s : State) : fusesOf (streamsTick s) = fusesOf s := by simp [streamsTick]
@[simp] theorem fusesOf_logConsRead (s : State) : fusesOf (logConsRead s) = fusesOf s := by simp [logConsRead]
@[simp] theorem fusesOf_boundary (s : State) : fusesOf (boundary s) = fusesOf s := by simp [boundary]
@[simp] theorem fusesOf_earlyBoundary (s : State) : fusesOf (earlyBoundary s) = fusesOf s := by simp [earlyBoundary]

/-! ### Machine/Publish.lean -/

@[simp] theorem fusesOf_finishOne (f : PendCmd → Bool) (st : Status) (res : List (Nat × Word)) (s : State) :
    fusesOf (finishOne f st res s) = fusesOf s := by
  unfold finishOne; split <;> simp

@[simp] theorem fusesOf_tenantHeld (own : Bool) (n u : Nat) (x : TenantChange) (s : State) : fusesOf (tenantHeld own n u x s) = fusesOf s := by
  dsimp only [tenantHeld]; (repeat' split) <;> simp

@[simp] theorem fusesOf_deleteHeld (own bias : Bool) (p id n : Nat) (s : State) :
    fusesOf (deleteHeld own bias p id n s) = fusesOf s := by simp [deleteHeld]

@[simp] theorem fusesOf_loadHeld (bias : Bool) (p id : Nat) (s : State) : fusesOf (loadHeld bias p id s) = fusesOf s := by simp [loadHeld]
@[simp] theorem fusesOf_applyUnload (src p n : Nat) (s : State) : fusesOf (applyUnload src p n s) = fusesOf s := by simp [applyUnload]

@[simp] theorem fusesOf_unloadHeld (own : Bool) (src p n : Nat) (s : State) :
    fusesOf (unloadHeld own src p n s) = fusesOf s := by simp [unloadHeld]

@[simp] theorem fusesOf_emptyHeadTakes (p : Nat) (s : State) : fusesOf (emptyHeadTakes p s) = fusesOf s := by simp [emptyHeadTakes]

@[simp] theorem fusesOf_announceHead (src p : Nat) (h : HeadId) (s : State) :
    fusesOf (announceHead src p h s) = fusesOf s := by simp [announceHead]

@[simp] theorem fusesOf_applyHeld (s : State) (m : SyncMsg) : fusesOf (applyHeld s m) = fusesOf s := by
  unfold applyHeld; split <;> simp

@[simp] theorem fusesOf_applyStep (n : Nat) (s : State) : fusesOf (applyStep n s) = fusesOf s := by simp [applyStep]
@[simp] theorem fusesOf_drainEnds (s : State) : fusesOf (drainEnds s) = fusesOf s := by simp [drainEnds]
@[simp] theorem fusesOf_publishEnd (s : State) : fusesOf (publishEnd s) = fusesOf s := by simp [publishEnd]

@[simp] theorem fusesOf_publishIfDone (f : State → State) (s : State) (hk : ∀ t, fusesOf (f t) = fusesOf t) :
    fusesOf (publishIfDone f s) = fusesOf s := by simp [publishIfDone, hk]

@[simp] theorem fusesOf_admittedArrives (src q : Nat) (info : ReqInfo) (addr n : Nat) (acorn : Option Word) (jars : List ChunkRec) (husk : Bool)
    (draws windowLen outLeft : Nat) (hasToken : Bool) (ttft : Nat) (s : State) :
    fusesOf (admittedArrives src q info addr n acorn jars husk draws windowLen outLeft hasToken ttft s) = fusesOf s := by simp [admittedArrives]

@[simp] theorem fusesOf_loadReported (src q : Nat) (st : BitVec 16) (s : State) :
    fusesOf (loadReported src q st s) = fusesOf s := by simp [loadReported]

@[simp] theorem fusesOf_joinKeys (k : WrappedKeys) (s : State) : fusesOf (joinKeys k s) = fusesOf s := by simp [joinKeys]
@[simp] theorem fusesOf_outcomesOf (src : Nat) (s : State) : fusesOf (outcomesOf src s) = fusesOf s := by simp [outcomesOf]
@[simp] theorem fusesOf_stepEnds (src n : Nat) (s : State) : fusesOf (stepEnds src n s) = fusesOf s := by simp [stepEnds]
@[simp] theorem fusesOf_holdSync (m : SyncMsg) (s : State) : fusesOf (holdSync m s) = fusesOf s := by simp [holdSync]

@[simp] theorem fusesOf_syncArrives (m : SyncMsg) (s : State) : fusesOf (syncArrives m s) = fusesOf s := by
  unfold syncArrives; (repeat' split) <;> simp

@[simp] theorem fusesOf_reach (k : Nat) (s : State) : fusesOf (reach k s) = fusesOf s := by simp [reach]

@[simp] theorem fusesOf_emitTick (n : Nat) (s : State) : fusesOf (emitTick n s) = fusesOf s := by
  unfold emitTick; split <;> simp

@[simp] theorem fusesOf_ackTaken (n src : Nat) (s : State) : fusesOf (ackTaken n src s) = fusesOf s := by
  dsimp only [ackTaken]; (repeat' split) <;> simp

@[simp] theorem fusesOf_sendAck (s : State) : fusesOf (sendAck s) = fusesOf s := by simp [sendAck]
@[simp] theorem fusesOf_geomStamp (s : State) : fusesOf (geomStamp s) = fusesOf s := by simp [geomStamp]
@[simp] theorem fusesOf_evictShares (s : State) : fusesOf (evictShares s) = fusesOf s := by simp [evictShares]
@[simp] theorem fusesOf_closeStep (due : List Nat) (s : State) : fusesOf (closeStep due s) = fusesOf s := by simp [closeStep]
@[simp] theorem fusesOf_newMaster (was n : Nat) (s : State) : fusesOf (newMaster was n s) = fusesOf s := by simp [newMaster]
@[simp] theorem fusesOf_commitStamp (n : Nat) (s : State) : fusesOf (commitStamp n s) = fusesOf s := by simp [commitStamp]
@[simp] theorem fusesOf_commitArrives (m : CommitMsg) (s : State) : fusesOf (commitArrives m s) = fusesOf s := by simp [commitArrives]
@[simp] theorem fusesOf_commitEmit (s : State) : fusesOf (commitEmit s) = fusesOf s := by simp [commitEmit]
@[simp] theorem fusesOf_ackAgain (s : State) : fusesOf (ackAgain s) = fusesOf s := by simp [ackAgain]

/-! ### Machine/Tick.lean -/
@[simp] theorem fusesOf_tickDue (s : State) : fusesOf (tickDue s) = fusesOf s := by simp [tickDue]
@[simp] theorem fusesOf_slipExpires (s : State) : fusesOf (slipExpires s) = fusesOf s := by simp [slipExpires]
@[simp] theorem fusesOf_formTick (f : Nat) (s : State) : fusesOf (formTick f s) = fusesOf s := by simp [formTick]
@[simp] theorem fusesOf_abandonStep (s : State) : fusesOf (abandonStep s) = fusesOf s := by simp [abandonStep]
@[simp] theorem fusesOf_openStep (m : TickMsg) (s : State) : fusesOf (openStep m s) = fusesOf s := by simp [openStep]

@[simp] theorem fusesOf_tickArrives (m : TickMsg) (s : State) : fusesOf (tickArrives m s) = fusesOf s := by
  unfold tickArrives; (repeat' split) <;> simp

@[simp] theorem fusesOf_passDeadline (k : Nat) (s : State) : fusesOf (passDeadline k s) = fusesOf s := by simp [passDeadline]
@[simp] theorem fusesOf_ingestEnds (s : State) : fusesOf (ingestEnds s) = fusesOf s := by simp [ingestEnds]
@[simp] theorem fusesOf_sieveEnds (s : State) : fusesOf (sieveEnds s) = fusesOf s := by simp [sieveEnds]
@[simp] theorem fusesOf_closeUnless (ok : Merge → Bool) (s : State) : fusesOf (closeUnless ok s) = fusesOf s := by simp [closeUnless]
@[simp] theorem fusesOf_mergeAEnds (s : State) : fusesOf (mergeAEnds s) = fusesOf s := by simp [mergeAEnds]
@[simp] theorem fusesOf_mergeBEnds (s : State) : fusesOf (mergeBEnds s) = fusesOf s := by simp [mergeBEnds]
@[simp] theorem fusesOf_drawEnds (s : State) : fusesOf (drawEnds s) = fusesOf s := by simp [drawEnds]
@[simp] theorem fusesOf_heartbeat (n : Nat) (s : State) : fusesOf (heartbeat n s) = fusesOf s := by simp [heartbeat]
@[simp] theorem fusesOf_heartbeatDue (s : State) : fusesOf (heartbeatDue s) = fusesOf s := by simp [heartbeatDue]
@[simp] theorem fusesOf_sliceLost (n : Nat) (s : State) : fusesOf (sliceLost n s) = fusesOf s := by simp [sliceLost]

@[simp] theorem fusesOf_regroupArrives (m : RegroupMsg) (s : State) : fusesOf (regroupArrives m s) = fusesOf s := by
  unfold regroupArrives; (repeat' split) <;> simp

@[simp] theorem fusesOf_takeoverDone (s : State) : fusesOf (takeoverDone s) = fusesOf s := by
  dsimp only [takeoverDone]; split <;> simp

@[simp] theorem fusesOf_expel (n : Nat) (s : State) : fusesOf (expel n s) = fusesOf s := by simp [expel]

/-! ### Machine/Formation.lean -/
@[simp] theorem fusesOf_miswire (n : Nat) (s : State) : fusesOf (miswire n s) = fusesOf s := by simp [miswire]

@[simp] theorem fusesOf_wireCheck (s : State) : fusesOf (wireCheck s) = fusesOf s := by
  unfold wireCheck; split <;> simp

@[simp] theorem fusesOf_formEnds (slice : Nat) (r : FormReason) (s : State) : fusesOf (formEnds slice r s) = fusesOf s := by simp [formEnds]
@[simp] theorem fusesOf_refuse (r : FormReason) (s : State) : fusesOf (refuse r s) = fusesOf s := by simp [refuse]

@[simp] theorem fusesOf_keyTaken (p : Nat) (s : State) : fusesOf (keyTaken p s) = fusesOf s := by
  unfold keyTaken; split <;> simp

@[simp] theorem fusesOf_formTickDue (s : State) : fusesOf (formTickDue s) = fusesOf s := by
  unfold formTickDue; split <;> simp

@[simp] theorem fusesOf_formKeysMade (s : State) : fusesOf (formKeysMade s) = fusesOf s := by
  refine fusesOf_foldl (fun t p => ?_) _ _
  dsimp only
  split <;> simp

@[simp] theorem fusesOf_formCommits (f : Nat) (s : State) : fusesOf (formCommits f s) = fusesOf s := by simp [formCommits]

@[simp] theorem fusesOf_coordinate (s : State) : fusesOf (coordinate s) = fusesOf s := by
  unfold coordinate; (repeat' split) <;> simp

@[simp] theorem fusesOf_keepProposal (b : FormBody) (s : State) : fusesOf (keepProposal b s) = fusesOf s := by simp [keepProposal]
@[simp] theorem fusesOf_propose (s : State) : fusesOf (propose s) = fusesOf s := by simp [propose]
@[simp] theorem fusesOf_proposeArrives (b : FormBody) (s : State) : fusesOf (proposeArrives b s) = fusesOf s := by simp [proposeArrives]

@[simp] theorem fusesOf_refuseArrives (slice : Nat) (r : FormReason) (s : State) :
    fusesOf (refuseArrives slice r s) = fusesOf s := by simp [refuseArrives]

@[simp] theorem fusesOf_formKeysArrive (k : WrappedKeys) (s : State) : fusesOf (formKeysArrive k s) = fusesOf s := by
  unfold formKeysArrive; (repeat' split) <;> simp

@[simp] theorem fusesOf_formDoneArrives (n : Nat) (s : State) : fusesOf (formDoneArrives n s) = fusesOf s := by
  unfold formDoneArrives; split <;> simp

@[simp] theorem fusesOf_formWaits (s : State) : fusesOf (formWaits s) = fusesOf s := by simp [formWaits]
@[simp] theorem fusesOf_holeHello (n : Nat) (h : Hello) (s : State) : fusesOf (holeHello n h s) = fusesOf s := by simp [holeHello]
@[simp] theorem fusesOf_helloOk (n : Nat) (h : Hello) (s : State) : fusesOf (helloOk n h s) = fusesOf s := by simp [helloOk]
@[simp] theorem fusesOf_helloArrives (n : Nat) (h : Hello) (s : State) : fusesOf (helloArrives n h s) = fusesOf s := by simp [helloArrives]

/-! ### Machine/Reset.lean -/
@[simp] theorem fusesOf_resetTo (straps : BitVec 19) (s : State) : fusesOf (resetTo straps s) = fusesOf s := rfl
@[simp] theorem fusesOf_resetRises (straps : BitVec 19) (s : State) : fusesOf (resetRises straps s) = fusesOf s := by simp [resetRises]
@[simp] theorem fusesOf_resetFalls (s : State) : fusesOf (resetFalls s) = fusesOf s := by simp [resetFalls]
@[simp] theorem fusesOf_enterHold (fault : Nat) (s : State) : fusesOf (enterHold fault s) = fusesOf s := by simp [enterHold]
@[simp] theorem fusesOf_imageRuns (img : Bytes) (s : State) : fusesOf (imageRuns img s) = fusesOf s := by simp [imageRuns]
@[simp] theorem fusesOf_eociaStarts (img : Bytes) (s : State) : fusesOf (eociaStarts img s) = fusesOf s := by simp [eociaStarts]

@[simp] theorem fusesOf_imageBoots (img : Bytes) (second : Bool) (s : State) : fusesOf (imageBoots img second s) = fusesOf s := by
  unfold imageBoots; split <;> simp

@[simp] theorem fusesOf_bootChecked (img : Bytes) (s : State) : fusesOf (bootChecked img s) = fusesOf s := by
  unfold bootChecked; split <;> simp

@[simp] theorem fusesOf_debugLoaded (s : State) : fusesOf (debugLoaded s) = fusesOf s := by
  unfold debugLoaded; split <;> simp

@[simp] theorem fusesOf_whiskFault (cause : Nat) (s : State) : fusesOf (whiskFault cause s) = fusesOf s := by simp [whiskFault]
@[simp] theorem fusesOf_homeRepaired (q : Nat) (d : Bytes) (s : State) : fusesOf (homeRepaired q d s) = fusesOf s := by simp [homeRepaired]

@[simp] theorem fusesOf_entryRepaired (x : DeltaEntry) (s : State) : fusesOf (entryRepaired x s) = fusesOf s := by
  unfold entryRepaired; split <;> simp

@[simp] theorem fusesOf_eociaGoesOn (s : State) : fusesOf (eociaGoesOn s) = fusesOf s := by simp [eociaGoesOn]

@[simp] theorem fusesOf_eociaRestarts (cause : Nat) (img : Bytes) (repairs : List DeltaEntry) (s : State) :
    fusesOf (eociaRestarts cause img repairs s) = fusesOf s := by simp [eociaRestarts]

@[simp] theorem fusesOf_restartDone (image : Bytes) (repairs : List DeltaEntry) (s : State) :
    fusesOf (restartDone image repairs s) = fusesOf s := by
  dsimp only [restartDone]; (repeat' split) <;> simp

@[simp] theorem fusesOf_watchdogExpires (s : State) : fusesOf (watchdogExpires s) = fusesOf s := by simp [watchdogExpires]
@[simp] theorem fusesOf_trapTaken (s : State) : fusesOf (trapTaken s) = fusesOf s := by simp [trapTaken]

/-! ### Machine/Faults.lean -/

@[simp] theorem fusesOf_alarmMany (code : Nat) (arg : BitVec 64) (n : Nat) (s : State) : fusesOf (alarmMany code arg n s) = fusesOf s := by
  unfold alarmMany; split <;> simp

@[simp] theorem fusesOf_uncorrectable (unit n : Nat) (s : State) : fusesOf (uncorrectable unit n s) = fusesOf s := by simp [uncorrectable]

@[simp] theorem fusesOf_refetchLine (q slot : Nat) (s : State) : fusesOf (refetchLine q slot s) = fusesOf s := by
  unfold refetchLine; (repeat' split) <;> simp

@[simp] theorem fusesOf_rowSpoiled (r : RowRec) (s : State) : fusesOf (rowSpoiled r s) = fusesOf s := by simp [rowSpoiled]

@[simp] theorem fusesOf_recordSpoiled (seq : Word) (block : Nat) (s : State) : fusesOf (recordSpoiled seq block s) = fusesOf s := by
  unfold recordSpoiled; split <;> simp

@[simp] theorem fusesOf_controlSpoiled (q : Option Nat) (s : State) : fusesOf (controlSpoiled q s) = fusesOf s := by
  unfold controlSpoiled; split <;> simp

@[simp] theorem fusesOf_spoiled (w : EccWhere) (s : State) : fusesOf (spoiled w s) = fusesOf s := by
  unfold spoiled; split <;> simp

@[simp] theorem fusesOf_lineRead (w : EccWhere) (k : EccKind) (s : State) : fusesOf (lineRead w k s) = fusesOf s := by
  unfold lineRead; split <;> simp

@[simp] theorem fusesOf_useSpoiled (k : Nat) (u : BlockUse) (s : State) : fusesOf (useSpoiled k u s) = fusesOf s := by
  obtain ⟨p, use, bs⟩ := u
  cases use <;> simp [useSpoiled]

@[simp] theorem fusesOf_cacheSpoiled (s : State) : fusesOf (cacheSpoiled s) = fusesOf s := by simp [cacheSpoiled]
@[simp] theorem fusesOf_pairSpoiled (k : Nat) (s : State) : fusesOf (pairSpoiled k s) = fusesOf s := by simp [pairSpoiled]
@[simp] theorem fusesOf_debugOff (s : State) : fusesOf (debugOff s) = fusesOf s := by simp [debugOff]
@[simp] theorem fusesOf_domainLost (s : State) : fusesOf (domainLost s) = fusesOf s := by simp [domainLost]
@[simp] theorem fusesOf_domainFault (d : Nat) (s : State) : fusesOf (domainFault d s) = fusesOf s := by simp [domainFault]
@[simp] theorem fusesOf_ackMissing (d : Nat) (s : State) : fusesOf (ackMissing d s) = fusesOf s := by simp [ackMissing]

/-! ### Machine/Debug.lean -/
@[simp] theorem fusesOf_whiskMoves (s : State) : fusesOf (whiskMoves s) = fusesOf s := by simp [whiskMoves]
@[simp] theorem fusesOf_haltWrite (v : Word) (s : State) : fusesOf (haltWrite v s) = fusesOf s := by simp [haltWrite]
@[simp] theorem fusesOf_stepWrite (v : Word) (s : State) : fusesOf (stepWrite v s) = fusesOf s := by simp [stepWrite]
@[simp] theorem fusesOf_breakHit (n : Nat) (s : State) : fusesOf (breakHit n s) = fusesOf s := by simp [breakHit]
@[simp] theorem fusesOf_freeWord (s : State) : fusesOf (freeWord s).2.2 = fusesOf s := by simp [freeWord]

@[simp] theorem fusesOf_latched (a : Nat) (lo hi : Word) (s : State) : fusesOf (latched a lo hi s).2.2 = fusesOf s := by
  unfold latched; (repeat' split) <;> simp

@[simp] theorem fusesOf_debugFetch (a : Nat) (s : State) : fusesOf (debugFetch a s).2.2 = fusesOf s := by
  unfold debugFetch; (repeat' split) <;> simp

@[simp] theorem fusesOf_putWord (a : Nat) (v : Word) (s : State) : fusesOf (putWord a v s) = fusesOf s := by simp [putWord]

@[simp] theorem fusesOf_debugStore (a : Nat) (v : Word) (s : State) : fusesOf (debugStore a v s).2 = fusesOf s := by
  unfold debugStore; (repeat' split) <;> simp

@[simp] theorem fusesOf_advance (err : Nat) (s : State) : fusesOf (advance err s) = fusesOf s := by simp [advance]
@[simp] theorem fusesOf_memRead (s : State) : fusesOf (memRead s).2 = fusesOf s := by simp [memRead]
@[simp] theorem fusesOf_memWrite (v : Word) (s : State) : fusesOf (memWrite v s) = fusesOf s := by simp [memWrite]

@[simp] theorem fusesOf_debugRead (off : Nat) (s : State) : fusesOf (debugRead off s).2 = fusesOf s := by
  unfold debugRead; split <;> simp

@[simp] theorem fusesOf_breakWrite (n : Nat) (v : Word) (s : State) : fusesOf (breakWrite n v s) = fusesOf s := by simp [breakWrite]
@[simp] theorem fusesOf_debugWrite (off : Nat) (v : Word) (s : State) : fusesOf (debugWrite off v s) = fusesOf s := by simp [debugWrite]

@[simp] theorem fusesOf_tapAccess (write : Bool) (off : Nat) (v : Word) (s : State) : fusesOf (tapAccess write off v s) = fusesOf s := by
  unfold tapAccess; split <;> simp

/-! ### Machine/Regs.lean -/

@[simp] theorem fusesOf_csrDenied (src off : Nat) (write : Bool) (s : State) :
    fusesOf (csrDenied src off write s) = fusesOf s := by simp [csrDenied]

@[simp] theorem fusesOf_ceilWrite (v : Word) (s : State) : fusesOf (ceilWrite v s) = fusesOf s := by simp [ceilWrite]
@[simp] theorem fusesOf_thawHip (s : State) : fusesOf (thawHip s) = fusesOf s := by simp [thawHip]
@[simp] theorem fusesOf_thawPart (p : Nat) (s : State) : fusesOf (thawPart p s) = fusesOf s := by simp [thawPart]
@[simp] theorem fusesOf_thawWrite (v : Word) (s : State) : fusesOf (thawWrite v s) = fusesOf s := by simp [thawWrite]
@[simp] theorem fusesOf_bank0Write (o : Nat) (v : Word) (s : State) : fusesOf (bank0Write o v s) = fusesOf s := by simp [bank0Write]
@[simp] theorem fusesOf_killWrite (v : Word) (s : State) : fusesOf (killWrite v s) = fusesOf s := by simp [killWrite]
@[simp] theorem fusesOf_bank1Write (o : Nat) (v : Word) (s : State) : fusesOf (bank1Write o v s) = fusesOf s := by simp [bank1Write]
@[simp] theorem fusesOf_ringAnew (s : State) : fusesOf (ringAnew s) = fusesOf s := by simp [ringAnew]
@[simp] theorem fusesOf_logCfgWrite (v : Word) (s : State) : fusesOf (logCfgWrite v s) = fusesOf s := by simp [logCfgWrite]
@[simp] theorem fusesOf_logBaseWrite (v : Word) (s : State) : fusesOf (logBaseWrite v s) = fusesOf s := by simp [logBaseWrite]
@[simp] theorem fusesOf_bank14Write (o : Nat) (v : Word) (s : State) : fusesOf (bank14Write o v s) = fusesOf s := by simp [bank14Write]
@[simp] theorem fusesOf_csrPut (off : Nat) (v : Word) (s : State) : fusesOf (csrPut off v s) = fusesOf s := by simp [csrPut]

@[simp] theorem fusesOf_csrWrite (src : BitVec 4) (off : Nat) (v : Word) (s : State) :
    fusesOf (csrWrite src off v s) = fusesOf s := by simp [csrWrite]

@[simp] theorem fusesOf_csrMemRead (src : BitVec 4) (s : State) : fusesOf (csrMemRead src s) = fusesOf s := by simp [csrMemRead]

@[simp] theorem fusesOf_partWrite (src : BitVec 4) (p off : Nat) (v : Word) (s : State) :
    fusesOf (partWrite src p off v s) = fusesOf s := by simp [partWrite]

/-! ### The commands -/

/-- FUSE adds bits to the bank, and every other meaning is made of operations that leave it. -/
theorem exec_next_fusesKept (c : Instr) (s : State) : ∃ t, exec c s = .next t ∧ FusesKept s.sec.fuses t.sec.fuses := by
  have hsame : ∀ t : State, fusesOf t = fusesOf s → FusesKept s.sec.fuses t.sec.fuses := fun t h => by
    rw [show t.sec.fuses = s.sec.fuses from h]
    exact fusesKept_refl _
  cases c with
  | tapFuse word v vdd => exact ⟨_, rfl, fusesKept_fuseWrite word v vdd s⟩
  | _ => exact ⟨_, rfl, hsame _ (by simp)⟩

/-- Settles O6: a step lets a nanosecond pass or runs one command, and every command keeps the programmed fuses, in every state. -/
theorem everyStepKeepsProgrammedFuses : Obligations.EveryStepKeepsProgrammedFuses := by
  intro s t hstep
  cases hq : s.pending with
  | nil =>
    simp only [step, hq] at hstep
    cases hstep
    exact fusesKept_refl _
  | cons c rest =>
    simp only [step, hq] at hstep
    obtain ⟨u, hnext, hkept⟩ := exec_next_fusesKept c { s with pending := rest }
    cases hnext.symm.trans hstep
    exact hkept

end Sys2Proof.Machine
end
